-- ==== Sys2Proof/Word.lean ====
section
/-! DEFINITION. The sizes of R9 as bit vectors, and the two address spaces' words. -/
namespace Sys2Proof

/-- 8 bits (R9). -/
abbrev Byte := BitVec 8
/-- 16 bits (R9). -/
abbrev Half := BitVec 16
/-- 32 bits: an instruction word, one lane of a frame register (R9, R51). -/
abbrev Word := BitVec 32
/-- 64 bits: a pair of frame registers, a 64-bit pointer (R9). -/
abbrev Dword := BitVec 64
/-- A program counter: a virtual address of 57 significant bits (R8). -/
abbrev Pc := BitVec 57
/-- A set of lanes, bit l for lane l: an execution mask, m0 to m7, $TMASK (R14, R56). -/
abbrev Mask := BitVec 128

end Sys2Proof
end

