-- ==== Sys2Proof/Machine/Bits.lean ====
section
/-! DEFINITION. Small helpers over bit vectors, bytes and lists that the meanings share (R9, R10). -/
namespace Sys2Proof.Machine

/-- The k little-endian bytes of a number (R9). -/
def leBytes : Nat → Nat → List Byte
  | 0, _ => []
  | k + 1, v => BitVec.ofNat 8 v :: leBytes k (v / 256)

/-- The number that little-endian bytes hold (R9). -/
def leNat : List Byte → Nat
  | [] => 0
  | b :: r => b.toNat + 256 * leNat r

/-- The number that big-endian bytes hold. -/
def beNat (l : List Byte) : Nat := leNat l.reverse

/-- The k big-endian bytes of a number. -/
def beBytes (k v : Nat) : List Byte := (leBytes k v).reverse

/-- Replaces element i of a list; a list too short stays as it is. -/
def setAt {α : Type} : List α → Nat → α → List α
  | [], _, _ => []
  | _ :: r, 0, x => x :: r
  | y :: r, i + 1, x => y :: setAt r i x

/-- Changes the elements a test picks. -/
def updateWhere {α : Type} (p : α → Bool) (f : α → α) (l : List α) : List α :=
  l.map fun x => if p x then f x else x

/-- Changes the first element a test picks. -/
def updateFirst {α : Type} (p : α → Bool) (f : α → α) : List α → List α
  | [] => []
  | x :: r => if p x then f x :: r else x :: updateFirst p f r

/-- 0, 1, ..., n - 1. -/
def upto (n : Nat) : List Nat := List.range n

/-- The lanes of a gang. -/
def lanes : List Nat := upto 128

/-- Whether lane l is in a mask. -/
def inMask (m : Mask) (l : Nat) : Bool := m.getLsbD l

/-- The mask of the lanes a test picks. -/
def maskOf (p : Nat → Bool) : Mask :=
  lanes.foldl (fun m l => if p l then m ||| (1#128 <<< l) else m) 0#128

/-- The mask of a list of lanes. -/
def maskOfList (l : List Nat) : Mask := l.foldl (fun m i => m ||| (1#128 <<< i)) 0#128

/-- The lanes of a mask, ascending. -/
def lanesOf (m : Mask) : List Nat := lanes.filter (inMask m)

/-- Number of lanes in a mask. -/
def countLanes (m : Mask) : Nat := (lanesOf m).length

/-- The lowest lane of a mask, 128 when it is empty. -/
def lowestLane (m : Mask) : Nat := (lanesOf m).headD 128

/-- Every lane (R54: a write that covers all W lanes). -/
def allLanes : Mask := BitVec.allOnes 128

/-- Sign extension of a field to a word (R99). -/
def sextW {k : Nat} (x : BitVec k) : Word := x.signExtend 32

/-- Sign extension to 64 bits. -/
def sextD {k : Nat} (x : BitVec k) : Dword := x.signExtend 64

/-- The 64-bit value of a pair: the low word in the even register (R9). -/
def pairOf (lo hi : Word) : Dword := hi ++ lo

/-- Field [hi:lo] of a number as a number. -/
def bits (v hi lo : Nat) : Nat := (v / 2 ^ lo) % 2 ^ (hi + 1 - lo)

/-- Distinct elements, first occurrences kept. -/
def distinct (l : List Nat) : List Nat := l.foldl (fun acc x => if acc.contains x then acc else acc ++ [x]) []

/-- Rounds up to a multiple of k. -/
def roundUp (v k : Nat) : Nat := (v + k - 1) / k * k

/-- Insertion sort by a key order. -/
def insertBy {α : Type} (lt : α → α → Bool) (x : α) : List α → List α
  | [] => [x]
  | y :: r => if lt y x then y :: insertBy lt x r else x :: y :: r

def sortBy {α : Type} (lt : α → α → Bool) (l : List α) : List α := l.foldr (insertBy lt) []

end Sys2Proof.Machine
end

