-- ==== Sys2Proof/Machine/Memory.lean ====
section
/-! DEFINITION. Sparse bytes in canonical form: addresses strictly rising, no byte equal to what an unlisted address
reads as. Physical memory, HBM4, scratch and tiles are held so; an unlisted byte reads 0 (R230, R307, R360; for HBM4
at power-up log 2). -/
namespace Sys2Proof.Machine

/-- What an unlisted byte reads as (log 2). -/
def Memory.unlisted : Byte := 0#8

/-- Reads one byte. -/
def Memory.read : List Host.Cell → Nat → Byte
  | [], _ => Memory.unlisted
  | (k, b) :: r, a => if a = k then b else if a < k then Memory.unlisted else Memory.read r a

/-- A cell in front, unless it would hold what an unlisted byte reads as. -/
def Memory.cons (a : Nat) (b : Byte) (r : List Host.Cell) : List Host.Cell :=
  if b = Memory.unlisted then r else (a, b) :: r

/-- Writes one byte, keeping the canonical form. -/
def Memory.write : List Host.Cell → Nat → Byte → List Host.Cell
  | [], a, b => Memory.cons a b []
  | (k, x) :: r, a, b =>
    if a = k then Memory.cons a b r
    else if a < k then Memory.cons a b ((k, x) :: r)
    else (k, x) :: Memory.write r a b

/-- Canonical form above a lower bound. -/
def Memory.wfAbove : Nat → List Host.Cell → Bool
  | _, [] => true
  | lo, (k, b) :: r => lo ≤ k && b != Memory.unlisted && Memory.wfAbove (k + 1) r

/-- Canonical form: addresses strictly rising, no byte equal to the unlisted one. -/
def Memory.wf (m : List Host.Cell) : Bool := Memory.wfAbove 0 m

/-- Reads n bytes from an address upward. -/
def Memory.readBytes (m : List Host.Cell) (a n : Nat) : List Byte := (upto n).map fun i => Memory.read m (a + i)

/-- Writes bytes from an address upward. -/
def Memory.writeBytes (m : List Host.Cell) (a : Nat) : List Byte → List Host.Cell
  | [] => m
  | b :: r => Memory.writeBytes (Memory.write m a b) (a + 1) r

/-- A little-endian number of n bytes (R9). -/
def Memory.readNat (m : List Host.Cell) (a n : Nat) : Nat := leNat (Memory.readBytes m a n)

/-- Writes a little-endian number of n bytes (R9). -/
def Memory.writeNat (m : List Host.Cell) (a n v : Nat) : List Host.Cell := Memory.writeBytes m a (leBytes n v)

/-- Copies n bytes of one store over another, from the same addresses (a write-back). -/
def Memory.copyRange (src dst : List Host.Cell) (a n : Nat) : List Host.Cell :=
  Memory.writeBytes dst a (Memory.readBytes src a n)

/-- Zeroes the bytes of [a, a + n) without listing them one by one. -/
def Memory.clearRange (m : List Host.Cell) (a n : Nat) : List Host.Cell :=
  m.filter fun c => c.1 < a || a + n ≤ c.1

/-- Replaces [a, a + n) by what another store holds there. -/
def Memory.restoreRange (src dst : List Host.Cell) (a n : Nat) : List Host.Cell :=
  (dst.filter fun c => c.1 < a) ++ (src.filter fun c => a ≤ c.1 && c.1 < a + n) ++
    dst.filter fun c => a + n ≤ c.1

/-- n bytes from an address upward, in one walk over a canonical store. -/
def Memory.sliceFrom : Nat → Nat → List Host.Cell → List Byte
  | 0, _, _ => []
  | n + 1, a, [] => Memory.unlisted :: Memory.sliceFrom n (a + 1) []
  | n + 1, a, (k, b) :: r =>
    if k = a then b :: Memory.sliceFrom n (a + 1) r else Memory.unlisted :: Memory.sliceFrom n (a + 1) ((k, b) :: r)

/-- The bytes of [a, a + n). -/
def Memory.slice (m : List Host.Cell) (a n : Nat) : List Byte := Memory.sliceFrom n a (m.dropWhile fun c => c.1 < a)

/-- Cells of consecutive bytes. -/
def Memory.cellsFrom : Nat → List Byte → List Host.Cell
  | _, [] => []
  | a, b :: r => Memory.cons a b (Memory.cellsFrom (a + 1) r)

/-- Replaces [a, a + n) by n bytes in one walk. -/
def Memory.replace (m : List Host.Cell) (a : Nat) (bytes : List Byte) : List Host.Cell :=
  (m.filter fun c => c.1 < a) ++ Memory.cellsFrom a bytes ++ m.filter fun c => a + bytes.length ≤ c.1

end Sys2Proof.Machine
end

