-- ==== Sys2Proof/Config.lean ====
section
/-! DEFINITION. What the N8 fixes (R2, R4, R8) and the values the manual leaves open, as constants
without a body: no proof can see what they are. -/
namespace Sys2Proof.Config

/-- Gang width W, `$WIDTH` (R8). -/
def width : Nat := 128
/-- Cores of the package (R2). -/
def packageCores : Nat := 1280
/-- Cores of one compute stack (R2). -/
def stackCores : Nat := 160
/-- Compute stacks (R2). -/
def hbmStacks : Nat := 8
/-- Mailbox queues of the package (R2). -/
def packageQueues : Nat := 16384
/-- Messages one queue holds (R322). -/
def queueDepth : Nat := 32
/-- Rows of the register file less the emergency reserve (R4, R59). -/
def poolRows : Nat := 992
/-- Rows of the emergency reserve (R59). -/
def reserveRows : Nat := 32
/-- General compact store in bytes (R59). -/
def poolCompact : Nat := 28672
/-- Compact-store reserve in bytes (R59). -/
def reserveCompact : Nat := 4096
/-- Entries of a split table (R40). -/
def splitEntries : Nat := 8
/-- Entries of a replay queue (R261). -/
def replayDepth : Nat := 32
/-- Matrix operations a core queues (R306). -/
def matrixQueue : Nat := 8
/-- Copies a copy engine runs at once (R317). -/
def copySlots : Nat := 4
/-- View store of a core in bytes (R4, R291). -/
def viewStore : Nat := 65536
/-- Units that one gang may issue before the events and the other gangs have their turn: the bound of R323, in units
(log 1). -/
def turnUnits : Nat := 64

/-- Units of one quantum (R325). -/
def quantum : Nat := 1048576
/-- Address records of a slice and updates of a record (R270). -/
def roundRecords : Nat := 256
def roundUpdates : Nat := 16
/-- Physical bytes of one spoke, and its reserved bitmap area at the top (R257, R260). -/
def spokeBytes : Nat := 206158430208
def bitmapBytes : Nat := 6291456
/-- Unacknowledged flits a port keeps, and the places among them of its reserved slot: one packet of the escape channel
(R361, R362; log 77). -/
def replayFlits : Nat := 128
def slotFlits : Nat := 9

/-! ## Values the manual leaves open -/

/-- The cycles of a core's clock that have passed at the n-th draw since its counter was last read (R346): the model keeps
no clock (log 3). -/
opaque cyclesPassed : Nat → Nat
/-- What a counter of a timing event (R347 events 0, 4, 5, 14, 20) reads at the n-th draw (log 3). -/
opaque timedCount : Nat → BitVec 48
/-- What `frnd` gives where the rounded integer lies beyond the entry's largest finite value, of the entry's E, F and bias, the
mode and the operand: R211 takes that integer for representable (log 69). -/
opaque frndBeyond : Nat → Nat → Int → Nat → Nat → Nat
/-- The hash of the firmware key held in the boot ROM (R366), not stated (log 4). -/
opaque bootKeyHash : BitVec 384
/-- The fused minimum firmware version (R366), not stated (log 4). -/
opaque fusedMinimum : BitVec 32

end Sys2Proof.Config
end

