-- ==== Sys2Proof/Syntax.lean ====
section
/-! DEFINITION. The instructions and events of spec/opcode_table.json, one constructor a row.
An encoded row carries the fields of its word in a structure named after the fields; `sw` is the switch
marker S (R96, R100). A row without a word (an event: a host command, a message of the memory system, a
reset, ...) carries what the outside or the order of arrival decides about it. -/
namespace Sys2Proof

/-- No operand but the switch marker. -/
structure Sw where
  sw : Bool
  deriving DecidableEq, Repr

/-- Format A with d, a and b. -/
structure FmtDAB where
  sw : Bool
  d : BitVec 7
  a : BitVec 7
  b : BitVec 7
  deriving DecidableEq, Repr

/-- d and a. -/
structure FmtDA where
  sw : Bool
  d : BitVec 7
  a : BitVec 7
  deriving DecidableEq, Repr

/-- a and b. -/
structure FmtAB where
  sw : Bool
  a : BitVec 7
  b : BitVec 7
  deriving DecidableEq, Repr

/-- d alone. -/
structure FmtD where
  sw : Bool
  d : BitVec 7
  deriving DecidableEq, Repr

/-- a alone. -/
structure FmtA where
  sw : Bool
  a : BitVec 7
  deriving DecidableEq, Repr

/-- b alone. -/
structure FmtB where
  sw : Bool
  b : BitVec 7
  deriving DecidableEq, Repr

/-- Format B: d, a and imm10. -/
structure FmtDAI where
  sw : Bool
  d : BitVec 7
  a : BitVec 7
  imm : BitVec 10
  deriving DecidableEq, Repr

/-- Format C: d and imm17. -/
structure FmtDI17 where
  sw : Bool
  d : BitVec 7
  imm : BitVec 17
  deriving DecidableEq, Repr

/-- Format D: a signed word offset. -/
structure FmtBr where
  sw : Bool
  off : BitVec 24
  deriving DecidableEq, Repr

/-- Format E with a condition code. -/
structure FmtBcc where
  sw : Bool
  cond : BitVec 4
  off : BitVec 20
  deriving DecidableEq, Repr

/-- Format E with a mask number. -/
structure FmtBm where
  sw : Bool
  m : BitVec 3
  off : BitVec 20
  deriving DecidableEq, Repr

/-- Format F: demand fields and the offset above the mark bit. -/
structure FmtCall where
  sw : Bool
  n : BitVec 4
  g : BitVec 4
  off : BitVec 15
  deriving DecidableEq, Repr

/-- Format C with a trap code. -/
structure FmtTrap where
  sw : Bool
  code : BitVec 8
  deriving DecidableEq, Repr

/-- d and an element number. -/
structure FmtPedq where
  sw : Bool
  d : BitVec 7
  i : BitVec 5
  deriving DecidableEq, Repr

/-- d, a and a reducer number. -/
structure FmtRed where
  sw : Bool
  d : BitVec 7
  a : BitVec 7
  id : BitVec 6
  deriving DecidableEq, Repr

/-- d and a reducer number. -/
structure FmtRlog where
  sw : Bool
  d : BitVec 7
  id : BitVec 6
  deriving DecidableEq, Repr

/-- A demand word. -/
structure FmtDemand where
  sw : Bool
  w : BitVec 8
  deriving DecidableEq, Repr

/-- A role and a block count. -/
structure FmtQuota where
  sw : Bool
  role : BitVec 2
  blocks : BitVec 8
  deriving DecidableEq, Repr

/-- d, a and an amount. -/
structure FmtShift where
  sw : Bool
  d : BitVec 7
  a : BitVec 7
  amt : BitVec 5
  deriving DecidableEq, Repr

/-- Format K: mask, condition, a and b. -/
structure FmtK where
  sw : Bool
  m : BitVec 3
  c : BitVec 4
  a : BitVec 7
  b : BitVec 7
  deriving DecidableEq, Repr

/-- Format K-imm: mask, condition, a and imm10. -/
structure FmtKI where
  sw : Bool
  m : BitVec 3
  c : BitVec 4
  a : BitVec 7
  imm : BitVec 10
  deriving DecidableEq, Repr

/-- d, a, b and a mask number. -/
structure FmtSel where
  sw : Bool
  d : BitVec 7
  a : BitVec 7
  b : BitVec 7
  k : BitVec 3
  deriving DecidableEq, Repr

/-- Three mask numbers. -/
structure FmtMMM where
  sw : Bool
  d : BitVec 3
  a : BitVec 3
  b : BitVec 3
  deriving DecidableEq, Repr

/-- Two mask numbers. -/
structure FmtMM where
  sw : Bool
  d : BitVec 3
  a : BitVec 3
  deriving DecidableEq, Repr

/-- A register and a mask number. -/
structure FmtDM where
  sw : Bool
  d : BitVec 7
  a : BitVec 3
  deriving DecidableEq, Repr

/-- A mask number and a register. -/
structure FmtMA where
  sw : Bool
  d : BitVec 3
  a : BitVec 7
  deriving DecidableEq, Repr

/-- d, a and k. -/
structure FmtXsh where
  sw : Bool
  d : BitVec 7
  a : BitVec 7
  k : BitVec 3
  deriving DecidableEq, Repr

/-- d, a and a lane. -/
structure FmtBcast where
  sw : Bool
  d : BitVec 7
  a : BitVec 7
  lane : BitVec 7
  deriving DecidableEq, Repr

/-- d, a, k and an operation. -/
structure FmtStep where
  sw : Bool
  d : BitVec 7
  a : BitVec 7
  k : BitVec 3
  op : BitVec 3
  deriving DecidableEq, Repr

/-- d, a, the exclusive bit and an operation. -/
structure FmtScan where
  sw : Bool
  d : BitVec 7
  a : BitVec 7
  e : BitVec 1
  op : BitVec 3
  deriving DecidableEq, Repr

/-- d, a word and a special-register number. -/
structure FmtMfs where
  sw : Bool
  d : BitVec 7
  w : BitVec 4
  num : BitVec 5
  deriving DecidableEq, Repr

/-- a, a word and a special-register number. -/
structure FmtMts where
  sw : Bool
  a : BitVec 7
  w : BitVec 4
  num : BitVec 5
  deriving DecidableEq, Repr

/-- Format X: d, a, fs and fd. -/
structure FmtCvt where
  sw : Bool
  d : BitVec 7
  a : BitVec 7
  fs : BitVec 5
  fd : BitVec 5
  deriving DecidableEq, Repr

/-- d, a, b and the byte select q. -/
structure FmtBf where
  sw : Bool
  d : BitVec 7
  a : BitVec 7
  b : BitVec 7
  q : BitVec 1
  deriving DecidableEq, Repr

/-- a and a format index. -/
structure FmtSet where
  sw : Bool
  a : BitVec 7
  i : BitVec 5
  deriving DecidableEq, Repr

/-- d and a format index. -/
structure FmtGet where
  sw : Bool
  d : BitVec 7
  i : BitVec 5
  deriving DecidableEq, Repr

/-- d, a, b, the scale bit and a size code. -/
structure FmtLdx where
  sw : Bool
  d : BitVec 7
  a : BitVec 7
  b : BitVec 7
  x : BitVec 1
  size : BitVec 2
  deriving DecidableEq, Repr

/-- d, a, a size code and a scope. -/
structure FmtLda where
  sw : Bool
  d : BitVec 7
  a : BitVec 7
  size : BitVec 2
  scope : BitVec 3
  deriving DecidableEq, Repr

/-- d, a, an operation, a size, the return bit and a scope. -/
structure FmtAtom where
  sw : Bool
  d : BitVec 7
  a : BitVec 7
  op : BitVec 4
  size : BitVec 2
  r : BitVec 1
  scope : BitVec 3
  deriving DecidableEq, Repr

/-- d, a, an operation and a size. -/
structure FmtDatom where
  sw : Bool
  d : BitVec 7
  a : BitVec 7
  op : BitVec 4
  size : BitVec 2
  deriving DecidableEq, Repr

/-- A scope and an order. -/
structure FmtFence where
  sw : Bool
  scope : BitVec 3
  order : BitVec 3
  deriving DecidableEq, Repr

/-- b and a path. -/
structure FmtWait where
  sw : Bool
  b : BitVec 7
  path : BitVec 2
  deriving DecidableEq, Repr

/-- a and a scope. -/
structure FmtCc where
  sw : Bool
  a : BitVec 7
  scope : BitVec 3
  deriving DecidableEq, Repr

/-- Two records and a kind. -/
structure FmtCpy where
  sw : Bool
  d : BitVec 7
  a : BitVec 7
  kind : BitVec 2
  deriving DecidableEq, Repr

/-- A tile, a shape, the A record and the first B register. -/
structure FmtMma where
  sw : Bool
  tile : BitVec 4
  shape : BitVec 3
  a : BitVec 7
  b : BitVec 7
  deriving DecidableEq, Repr

/-- A tile, the overwrite bit, the A record and the first B register. -/
structure FmtMmas where
  sw : Bool
  tile : BitVec 4
  o : BitVec 1
  a : BitVec 7
  b : BitVec 7
  deriving DecidableEq, Repr

/-- A tile. -/
structure FmtTile where
  sw : Bool
  tile : BitVec 4
  deriving DecidableEq, Repr

/-- A tile and b. -/
structure FmtTileB where
  sw : Bool
  tile : BitVec 4
  b : BitVec 7
  deriving DecidableEq, Repr

/-- A tile and a. -/
structure FmtTileA where
  sw : Bool
  tile : BitVec 4
  a : BitVec 7
  deriving DecidableEq, Repr

/-- The 22 immediate bits of a `lim` word (R101). -/
structure FmtLim where
  imm : BitVec 22
  deriving DecidableEq, Repr

/-- A gang of a crew of a context (R17, R19). -/
structure GangId where
  ctx : Nat
  crew : Nat
  rank : Nat
  deriving DecidableEq, Repr, Inhabited

/-- What the ECC of the memories did to a datum on its way (R368); units 0 to 7 are the stacks, 8 to 11 the spokes. -/
inductive Ecc where
  | clean
  | single (unit : Nat)
  | double (unit : Nat)
  deriving DecidableEq, Repr

/-- A link flit (R361): the 8-byte header and 56 payload bytes. -/
structure Flit where
  header : Dword
  payload : List Byte
  deriving DecidableEq, Repr

/-- The queues the host takes messages from (R356). -/
inductive HostQueue where
  | grove (queue : Nat)
  | error (ctx : Nat)
  | management
  deriving DecidableEq, Repr

/-- One constructor per row of the opcode table. -/
inductive Instr where
  /-- NOP (R109). -/
  | nop (o : Sw)
  /-- LIM (R101). -/
  | lim (o : FmtLim)
  /-- BR (R131). -/
  | br (o : FmtBr)
  /-- BCC (R132). -/
  | bcc (o : FmtBcc)
  /-- BMZ (R133). -/
  | bmz (o : FmtBm)
  /-- BMNZ (R133). -/
  | bmnz (o : FmtBm)
  /-- JTAB (R134). -/
  | jtab (o : FmtDAI)
  /-- CALL (R136). -/
  | call (o : FmtCall)
  /-- CALL_M (R136). -/
  | callM (o : FmtCall)
  /-- CALLR (R137). -/
  | callr (o : FmtAB)
  /-- CALLR_M (R137). -/
  | callrM (o : FmtAB)
  /-- RET (R138). -/
  | ret (o : Sw)
  /-- UNWIND (R139). -/
  | unwind (o : FmtA)
  /-- UNWIND_M (R139). -/
  | unwindM (o : Sw)
  /-- TRAP (R140). -/
  | trap (o : FmtTrap)
  /-- RTE (R141). -/
  | rte (o : Sw)
  /-- RTE_SKIP (R141). -/
  | rteSkip (o : Sw)
  /-- REPLAY (R142). -/
  | replay (o : Sw)
  /-- SPAWN (R144). -/
  | spawn (o : FmtCall)
  /-- SPAWNR (R143). -/
  | spawnr (o : FmtAB)
  /-- JOIN (R145). -/
  | join (o : Sw)
  /-- TDONE (R146). -/
  | tdone (o : Sw)
  /-- YIELD (R147). -/
  | yield (o : Sw)
  /-- PEDQ (R148). -/
  | pedq (o : FmtPedq)
  /-- PEDKEY (R149). -/
  | pedkey (o : FmtD)
  /-- MBRECV (R150). -/
  | mbrecv (o : FmtDA)
  /-- MBRECV_P (R150). -/
  | mbrecvP (o : FmtDA)
  /-- MBSEND (R152). -/
  | mbsend (o : FmtAB)
  /-- RUPD (R154). -/
  | rupd (o : FmtRed)
  /-- RLOG (R155). -/
  | rlog (o : FmtRlog)
  /-- RREAD (R156). -/
  | rread (o : FmtRed)
  /-- RSEED (R157). -/
  | rseed (o : FmtA)
  /-- RJUMP (R157). -/
  | rjump (o : FmtA)
  /-- RDRAW (R158). -/
  | rdraw (o : FmtD)
  /-- FGROW (R159). -/
  | fgrow (o : FmtDemand)
  /-- FSHRINK (R159). -/
  | fshrink (o : FmtDemand)
  /-- FGIVE (R160). -/
  | fgive (o : FmtQuota)
  /-- FTAKE (R160). -/
  | ftake (o : FmtQuota)
  /-- FTAG (R161). -/
  | ftag (o : FmtDA)
  /-- FMAT (R161). -/
  | fmat (o : FmtD)
  /-- IADD (R167). -/
  | iadd (o : FmtDAB)
  /-- ISUB (R167). -/
  | isub (o : FmtDAB)
  /-- IADDC (R167). -/
  | iaddc (o : FmtDAB)
  /-- ISUBB (R167). -/
  | isubb (o : FmtDAB)
  /-- IADDI (R168). -/
  | iaddi (o : FmtDAI)
  /-- IMUL (R169). -/
  | imul (o : FmtDAB)
  /-- IMULH (R169). -/
  | imulh (o : FmtDAB)
  /-- IMULHU (R169). -/
  | imulhu (o : FmtDAB)
  /-- IMAD (R169). -/
  | imad (o : FmtDAB)
  /-- AND (R170). -/
  | and (o : FmtDAB)
  /-- OR (R170). -/
  | or (o : FmtDAB)
  /-- XOR (R170). -/
  | xor (o : FmtDAB)
  /-- ANDN (R170). -/
  | andn (o : FmtDAB)
  /-- ANDI (R171). -/
  | andi (o : FmtDAI)
  /-- ORI (R171). -/
  | ori (o : FmtDAI)
  /-- XORI (R171). -/
  | xori (o : FmtDAI)
  /-- SHL (R172). -/
  | shl (o : FmtDAB)
  /-- SHR (R172). -/
  | shr (o : FmtDAB)
  /-- SAR (R172). -/
  | sar (o : FmtDAB)
  /-- ROT (R172). -/
  | rot (o : FmtDAB)
  /-- SHLI (R173). -/
  | shli (o : FmtShift)
  /-- SHRI (R173). -/
  | shri (o : FmtShift)
  /-- SARI (R173). -/
  | sari (o : FmtShift)
  /-- ROTI (R173). -/
  | roti (o : FmtShift)
  /-- POPC (R174). -/
  | popc (o : FmtDA)
  /-- CLZ (R174). -/
  | clz (o : FmtDA)
  /-- CTZ (R174). -/
  | ctz (o : FmtDA)
  /-- BREV (R174). -/
  | brev (o : FmtDA)
  /-- INEG (R174). -/
  | ineg (o : FmtDA)
  /-- IABS (R174). -/
  | iabs (o : FmtDA)
  /-- IMIN (R175). -/
  | imin (o : FmtDAB)
  /-- IMAX (R175). -/
  | imax (o : FmtDAB)
  /-- UMIN (R175). -/
  | umin (o : FmtDAB)
  /-- UMAX (R175). -/
  | umax (o : FmtDAB)
  /-- BFX (R176). -/
  | bfx (o : FmtDAB)
  /-- BFXU (R176). -/
  | bfxu (o : FmtDAB)
  /-- BFI (R176). -/
  | bfi (o : FmtDAB)
  /-- ICMP (R177). -/
  | icmp (o : FmtK)
  /-- ICMP_D (R177). -/
  | icmpD (o : FmtK)
  /-- ICMPI (R178). -/
  | icmpi (o : FmtKI)
  /-- UCMP (R179). -/
  | ucmp (o : FmtAB)
  /-- UCMP_D (R179). -/
  | ucmpD (o : FmtAB)
  /-- SEL (R180). -/
  | sel (o : FmtSel)
  /-- MOV (R181). -/
  | mov (o : FmtDA)
  /-- MOVL (R181). -/
  | movl (o : FmtDAB)
  /-- MOVI (R182). -/
  | movi (o : FmtDI17)
  /-- MAND (R184). -/
  | mand (o : FmtMMM)
  /-- MOR (R184). -/
  | mor (o : FmtMMM)
  /-- MXOR (R184). -/
  | mxor (o : FmtMMM)
  /-- MANDN (R184). -/
  | mandn (o : FmtMMM)
  /-- MNOT (R185). -/
  | mnot (o : FmtMM)
  /-- MPOP (R185). -/
  | mpop (o : FmtDM)
  /-- MFIRST (R185). -/
  | mfirst (o : FmtDM)
  /-- BALLOT (R185). -/
  | ballot (o : FmtMA)
  /-- MSET (R185). -/
  | mset (o : FmtMA)
  /-- VXSH (R187). -/
  | vxsh (o : FmtXsh)
  /-- VROT (R188). -/
  | vrot (o : FmtDAI)
  /-- VIDX (R189). -/
  | vidx (o : FmtDAB)
  /-- VBCAST (R190). -/
  | vbcast (o : FmtBcast)
  /-- VSTEP (R192). -/
  | vstep (o : FmtStep)
  /-- VSCAN (R193). -/
  | vscan (o : FmtScan)
  /-- SETMODE (R194). -/
  | setmode (o : FmtAB)
  /-- GETMODE (R194). -/
  | getmode (o : FmtD)
  /-- MFS (R195). -/
  | mfs (o : FmtMfs)
  /-- MTS (R196). -/
  | mts (o : FmtMts)
  /-- FCLR (R198). -/
  | fclr (o : Sw)
  /-- FADD (R204). -/
  | fadd (o : FmtDAB)
  /-- FSUB (R204). -/
  | fsub (o : FmtDAB)
  /-- FMUL (R204). -/
  | fmul (o : FmtDAB)
  /-- FDIV (R204). -/
  | fdiv (o : FmtDAB)
  /-- FMAC (R205). -/
  | fmac (o : FmtDAB)
  /-- FMSC (R205). -/
  | fmsc (o : FmtDAB)
  /-- FNMAC (R205). -/
  | fnmac (o : FmtDAB)
  /-- FNMSC (R205). -/
  | fnmsc (o : FmtDAB)
  /-- FSQRT (R206). -/
  | fsqrt (o : FmtDA)
  /-- FRCP (R206). -/
  | frcp (o : FmtDA)
  /-- FRSQ (R206). -/
  | frsq (o : FmtDA)
  /-- FMIN (R207). -/
  | fmin (o : FmtDAB)
  /-- FMAX (R207). -/
  | fmax (o : FmtDAB)
  /-- FMINN (R207). -/
  | fminn (o : FmtDAB)
  /-- FMAXN (R207). -/
  | fmaxn (o : FmtDAB)
  /-- FABS (R208). -/
  | fabs (o : FmtDA)
  /-- FNEG (R208). -/
  | fneg (o : FmtDA)
  /-- FCPYS (R208). -/
  | fcpys (o : FmtDAB)
  /-- FCMP (R209). -/
  | fcmp (o : FmtK)
  /-- FCMP_S (R209). -/
  | fcmpS (o : FmtK)
  /-- FCLASS (R210). -/
  | fclass (o : FmtDA)
  /-- FRND (R211). -/
  | frnd (o : FmtDA)
  /-- FRND_RNE (R211). -/
  | frndRne (o : FmtDA)
  /-- FRND_RTZ (R211). -/
  | frndRtz (o : FmtDA)
  /-- FRND_RUP (R211). -/
  | frndRup (o : FmtDA)
  /-- FRND_RDN (R211). -/
  | frndRdn (o : FmtDA)
  /-- FRND_RNA (R211). -/
  | frndRna (o : FmtDA)
  /-- FSCB (R212). -/
  | fscb (o : FmtDAB)
  /-- FLGB (R212). -/
  | flgb (o : FmtDA)
  /-- FEXP2 (R213). -/
  | fexp2 (o : FmtDA)
  /-- FLOG2 (R213). -/
  | flog2 (o : FmtDA)
  /-- FSINP (R213). -/
  | fsinp (o : FmtDA)
  /-- FCOSP (R213). -/
  | fcosp (o : FmtDA)
  /-- FTANH (R213). -/
  | ftanh (o : FmtDA)
  /-- CVT (R214). -/
  | cvt (o : FmtCvt)
  /-- CVTI (R214). -/
  | cvti (o : FmtCvt)
  /-- CVTF (R214). -/
  | cvtf (o : FmtCvt)
  /-- BFPK (R216). -/
  | bfpk (o : FmtBf)
  /-- BFUP (R217). -/
  | bfup (o : FmtBf)
  /-- FMTSET (R218). -/
  | fmtset (o : FmtSet)
  /-- FMTGET (R219). -/
  | fmtget (o : FmtGet)
  /-- FMTSYNC (R220). -/
  | fmtsync (o : Sw)
  /-- LD_B (R227). -/
  | ldB (o : FmtDAI)
  /-- LD_H (R227). -/
  | ldH (o : FmtDAI)
  /-- LD_W (R227). -/
  | ldW (o : FmtDAI)
  /-- LD_D (R227). -/
  | ldD (o : FmtDAI)
  /-- ST_B (R227). -/
  | stB (o : FmtDAI)
  /-- ST_H (R227). -/
  | stH (o : FmtDAI)
  /-- ST_W (R227). -/
  | stW (o : FmtDAI)
  /-- ST_D (R227). -/
  | stD (o : FmtDAI)
  /-- LDX (R229). -/
  | ldx (o : FmtLdx)
  /-- STX (R229). -/
  | stx (o : FmtLdx)
  /-- LDS (R230). -/
  | lds (o : FmtDAI)
  /-- STS (R230). -/
  | sts (o : FmtDAI)
  /-- LDA (R231). -/
  | lda (o : FmtLda)
  /-- STR (R231). -/
  | str (o : FmtLda)
  /-- ATOM (R232). -/
  | atom (o : FmtAtom)
  /-- DATOM (R234). -/
  | datom (o : FmtDatom)
  /-- FENCE (R236). -/
  | fence (o : FmtFence)
  /-- DAFENCE (R235). -/
  | dafence (o : Sw)
  /-- WAIT (R237). -/
  | wait (o : FmtWait)
  /-- PREF (R238). -/
  | pref (o : FmtCc)
  /-- CCTL_WB (R238). -/
  | cctlWb (o : FmtCc)
  /-- CCTL_INV (R238). -/
  | cctlInv (o : FmtCc)
  /-- CCTL_WBINV (R238). -/
  | cctlWbinv (o : FmtCc)
  /-- CPY (R241). -/
  | cpy (o : FmtCpy)
  /-- CPYM (R242). -/
  | cpym (o : FmtDAB)
  /-- MMA (R243). -/
  | mma (o : FmtMma)
  /-- MMA_O (R243). -/
  | mmaO (o : FmtMma)
  /-- MMAS_F32 (R244). -/
  | mmasF32 (o : FmtMmas)
  /-- MMAS_S6 (R244). -/
  | mmasS6 (o : FmtMmas)
  /-- MMAS_S7 (R244). -/
  | mmasS7 (o : FmtMmas)
  /-- MMAS_S8 (R244). -/
  | mmasS8 (o : FmtMmas)
  /-- MZERO (R245). -/
  | mzero (o : FmtTile)
  /-- MDRAIN_R (R246). -/
  | mdrainR (o : FmtTileB)
  /-- MDRAIN_S (R246). -/
  | mdrainS (o : FmtTileA)
  /-- MDRAIN_G (R246). -/
  | mdrainG (o : FmtTileA)
  /-- MDRAIN_P (R246). -/
  | mdrainP (o : FmtTileA)
  /-- MFENCE (R247). -/
  | mfence (o : Sw)
  /-- MWAIT (R247). -/
  | mwait (o : FmtB)
  /-- CBAR (R248). -/
  | cbar (o : Sw)
  /-- CARR (R248). -/
  | carr (o : Sw)
  /-- CWT (R248). -/
  | cwt (o : Sw)
  /-- PMAP (R249). -/
  | pmap (o : FmtAB)
  /-- RRSET (R250). -/
  | rrset (o : FmtAB)
  /-- SCRATCHCFG (R251). -/
  | scratchcfg (o : FmtA)
  /-- PMCFG (R252). -/
  | pmcfg (o : FmtAB)
  /-- PMRD (R252). -/
  | pmrd (o : FmtDA)
  /-- PMCTL_STOP (R253). -/
  | pmctlStop (o : FmtA)
  /-- PMCTL_START (R253). -/
  | pmctlStart (o : FmtA)
  /-- PMCTL_CAPTURE (R349). -/
  | pmctlCapture (o : FmtA)
  /-- PMCTL_ABORT (R351). -/
  | pmctlAbort (o : FmtA)
  /-- PSIG (R253). -/
  | psig (o : FmtA)
  /-- Host command 1 (R357): the physical address of the context descriptor; `maps` are the page mappings (intermediate address, control word of R249) that system software has the command processor install for the new context (log 7). -/
  | createContext (pa : Nat) (maps : List (Nat × Dword))
  /-- Host command 2 (R357). -/
  | destroyContext (ctx : Nat)
  /-- Host command 3 (R288, R357). -/
  | rreg (ctx : Nat) (id : Nat) (kind : Nat) (fmt : Nat) (rnd : Nat) (len : Nat) (home : Dword)
  /-- Host command 4 (R357). -/
  | mapPage (ctx : Nat) (ia : Dword) (ctl : Dword)
  /-- Host command 5 (R357). -/
  | unmapPage (ctx : Nat) (ia : Dword)
  /-- Host command 6 (R353, R357). -/
  | readStatus (ctx : Nat) (pa : Nat) (size : Nat)
  /-- Host command 7 (R364, R369). -/
  | resumePart
  /-- Host command 10 (R360). -/
  | addPoolPages (dev : Nat) (size : Nat) (base : Nat) (count : Nat)
  /-- Host command 11 (R360). -/
  | withdrawPoolPage (dev : Nat) (size : Nat)
  /-- Host command 16 (R366). -/
  | bootStatus
  /-- Host command 17 (R366): the last-chunk bit, the byte offset and the 48 bytes. -/
  | download (last : Bool) (off : Nat) (chunk : List Byte)
  /-- The host posts a message to a device queue (R356, R358). -/
  | hostPost (dev : Nat) (queue : Nat) (msg : List Word)
  /-- The host writes bytes through a context's mappings (R355, R356). -/
  | hostWrite (ctx : Nat) (ia : Nat) (bytes : List Byte)
  /-- The host reads bytes through a context's mappings (R355). -/
  | hostRead (ctx : Nat) (ia : Nat) (count : Nat)
  /-- A queue delivers its oldest message to its longest-waiting receive (R21, R150). -/
  | messageDelivery (dev : Nat) (queue : Nat)
  /-- A queue with room accepts a waiting gang's message (R152). -/
  | mbsendAccept (g : GangId)
  /-- A variable-latency result of the gang returns in the named lanes (R225). -/
  | loadReturn (g : GangId) (op : Nat) (lanes : Mask) (ecc : Ecc)
  /-- Home slices accept and stamp the named lanes of a store or atomic (R266). -/
  | storeStamp (g : GangId) (op : Nat) (lanes : Mask)
  /-- Lanes with no valid mapping return to the gang as PAGE (R261). -/
  | pageReturn (g : GangId) (op : Nat) (lanes : Mask)
  /-- At a boundary the gang takes its first pending fault (R338, R339). -/
  | takeFault (g : GangId)
  /-- A kept error message is posted once the error queue has room (R343). -/
  | errorMessagePost (ctx : Nat)
  /-- A copy finishes writing its destination rows (R241). -/
  | copyComplete (core : Nat) (op : Nat)
  /-- The array starts a queued operation and reads its operands (R306). -/
  | matrixOpStart (core : Nat) (op : Nat)
  /-- A matrix operation or drain writes its results (R314). -/
  | matrixOpComplete (core : Nat) (op : Nat)
  /-- A peer-add reaches its target tile (R316). -/
  | peerAddArrival (core : Nat) (op : Nat)
  /-- A crew waiting at dafence has its round applied (R235). -/
  | roundApply (ctx : Nat) (crew : Nat)
  /-- A core applies the next fmtset it has not applied (R94). -/
  | fmtsetApply (ctx : Nat) (core : Nat)
  /-- An idle crew takes the oldest record it may take from the victim (R28, R301). -/
  | steal (ctx : Nat) (thief : Nat) (victim : Nat)
  /-- A crew with no task pops a record from the bottom of its deque (R27). -/
  | pop (ctx : Nat) (crew : Nat)
  /-- A crew starts the record it took (R22). -/
  | taskStart (ctx : Nat) (crew : Nat)
  /-- The Beaver folds a completed block (R292). -/
  | blockFold (ctx : Nat) (join : Nat)
  /-- The crew of the last child resumes the suspended task (R38). -/
  | resumeTask (ctx : Nat) (crew : Nat)
  /-- A root strand's final view is folded into the home buffers (R294, R302). -/
  | rootFold (ctx : Nat) (crew : Nat)
  /-- A fragment waiting at a jtab for entries retries (R50). -/
  | jtabRetry (g : GangId)
  /-- The allocator serves the oldest eligible waiter (R61). -/
  | rowGrant (core : Nat)
  /-- The allocator declares and breaks a stall (R62, R63). -/
  | stallDeclared (core : Nat)
  /-- The Badger spills the chosen gang (R63). -/
  | escapeSpill (core : Nat)
  /-- A spilled gang re-enters its slot (R63). -/
  | spillReentry (g : GangId)
  /-- A slice evicts a piece (R260, R266). -/
  | l2Eviction (dev : Nat) (ctx : Nat) (piece : Nat)
  /-- A capture pass ends (R351). -/
  | capturePassEnd (ctx : Nat)
  /-- The resident context has retired a quantum of units (R325). -/
  | quantumExpiry (core : Nat)
  /-- A ready context of higher effective priority pre-empts the resident one (R325, R326). -/
  | preemption (core : Nat) (ctx : Nat)
  /-- Every gang has halted: the Badger saves the core's state for the context (R327, R328). -/
  | contextSave (core : Nat) (ctx : Nat)
  /-- A saved context is restored on its core (R329). -/
  | contextRestore (core : Nat) (ctx : Nat)
  /-- A port receives a flit (R361 to R363). -/
  | linkFlitReceive (port : Nat) (flit : Flit) (crcOk : Bool)
  /-- A port is declared down (R362, R363); `cutOff` says that no route to the bridge is left (R364). -/
  | portDown (port : Nat) (cutOff : Bool)
  /-- An unacknowledged transaction is sent again on another route (R363). -/
  | e2eRetransmit (dst : Nat) (tseq : Nat) (port : Nat)
  /-- Links join a quarantined device to the bridge's part again (R364). -/
  | linkReconnect (dev : Nat)
  /-- Power-up (R365). -/
  | powerUp
  /-- Cold reset (R365). -/
  | coldReset
  /-- Warm reset (R365). -/
  | warmReset
  /-- A stack's supply droops (R367). -/
  | supplyDroop (stack : Nat)
  /-- A stack's supply has recovered (R367). -/
  | supplyRecover (stack : Nat)
  /-- Nonzero ECC counts are sent to the host and cleared (R368). -/
  | eccCountReport
  /-- The host takes a message (R356). -/
  | hostReceive (dev : Nat) (queue : HostQueue)
  deriving DecidableEq, Repr

end Sys2Proof
end

