-- ==== Sys2Proof/Machine/State.lean ====
section
/-! DEFINITION. The machine's state as plain data, the ways it can stop, and the state after reset.
Every structure names the rules that give it. Lists keyed by numbers hold only what differs from nothing: a core,
a queue or a page that no list names is in its reset state. -/
namespace Sys2Proof.Machine

/-! ## Registers and frames -/

/-- The register of an in-flight operation that a pending destination waits for: the operation and which of its
destinations (R128, R225). It travels with the register when a call or return renames it (R60). -/
structure Slot where
  op : Nat
  ix : Nat
  deriving DecidableEq, Repr

/-- The contents of a frame register under its shape tag (R52). -/
inductive RegVal where
  | u (v : Word)
  | a (base stride : Word)
  | g (row : List Word)
  deriving DecidableEq, Repr

/-- A frame register: contents with tag, and the pending bit with what it waits for (R51, R52, R128). -/
structure Reg where
  val : RegVal
  pend : Option Slot
  deriving DecidableEq, Repr

/-- The re-execution that `rte` asks for (R141): the unit at the PC once more, as a `lim` pair or not, for these lanes,
without the guard; then the resume PC unless the unit transfers control. -/
structure Redo where
  act : Mask
  resume : Pc
  pc : Pc
  lim : Bool
  deriving DecidableEq, Repr

/-! ## Control of a gang or fragment -/

/-- The crew-collective waits of R24; the number is the collective unit's address, or the barrier phase. -/
inductive Collective where
  | cbar (phase : Nat)
  | cwt (phase : Nat)
  | carr (phase : Nat)
  | spawn (pc : Pc) (opcode : BitVec 7)
  | join (pc : Pc)
  | tdone (pc : Pc)
  | dafence (sw : Bool)
  | quorum (unit : Word) (recd : List Word)
  deriving DecidableEq, Repr

/-- Why a gang or fragment does not issue (R62, R323, R326). -/
inductive Wait where
  /-- It may issue. -/
  | ready
  /-- The next unit could not take effect; it is issued again after some event. -/
  | retry
  /-- It waits for rows and compact store (R55, R60); the stamp orders the waiters (R61). -/
  | rows (rows compact : Nat) (since : Nat)
  /-- It has arrived at a crew-collective wait (R24). -/
  | collective (c : Collective)
  /-- The fragment is in serial-wait (R44). -/
  | serial
  /-- The fragment waits at a `jtab` for entries (R50). -/
  | entries
  /-- It waits at `mbsend` for room in a queue, since the stamp (R152). -/
  | queue (dev ix : Nat) (since : Nat)
  /-- The task has no frame yet and waits for it (R60). -/
  | taskFrame (rows compact : Nat) (since : Nat)
  deriving DecidableEq, Repr

/-- The control state of an unsplit gang or of a fragment (R14, R16, R40). -/
structure Ctl where
  pc : Pc
  mask : Mask
  wait : Wait
  /-- Operations whose results the switch marker waits for (R100). -/
  marks : List Nat
  redo : Option Redo
  /-- The fragment has its serial-wait turn and keeps it until it parks (R44). -/
  turn : Bool
  deriving DecidableEq, Repr

/-- State of a split-table entry (R40). -/
inductive EntryState where
  | run | parked | serial | held
  deriving DecidableEq, Repr

/-- A split-table entry (R40); `split` names the split it belongs to. -/
structure Entry where
  ctl : Ctl
  join : Pc
  st : EntryState
  seq : BitVec 8
  level : BitVec 3
  split : Nat
  /-- The address of the `jtab` that made the split. -/
  origin : Pc
  deriving DecidableEq, Repr

/-- A split in force (R40 to R44): its join address, the enclosing split, the number of frames when it was made. -/
structure Split where
  id : Nat
  join : Pc
  origin : Pc
  parent : Option Nat
  depth : Nat
  level : BitVec 3
  /-- seq of the fragment that made it, which the fused fragment takes again. -/
  outerSeq : BitVec 8
  /-- The fragment that made it held its serial-wait turn (R44). -/
  turn : Bool
  deriving DecidableEq, Repr

/-! ## Frames -/

/-- What a handler frame restores when it is left (R141, R339): the control of the gang or fragment as it was, the number
of its split-table entry and the entry, and the kind of the fault taken (R336, R341). -/
structure HandlerSave where
  ctl : Ctl
  frag : Option Nat
  entry : Option Entry
  kind : BitVec 3
  deriving DecidableEq, Repr

/-- A frame: the header of R66 and the registers. While a callee runs, the caller's top eight registers live in the
callee (R60), so `regs` is then eight shorter than the demand. -/
structure Frame where
  ret : Pc
  nf : BitVec 4
  gf : BitVec 4
  marked : Bool
  flattened : Bool
  handler : Bool
  splitMade : Bool
  spare : Nat
  regs : List Reg
  save : HandlerSave
  deriving DecidableEq, Repr

/-! ## In-flight accesses -/

/-- State of one lane of an access: under way, in the replay queue (R261), finished. -/
inductive LaneState where
  | flying | queued | done
  deriving DecidableEq, Repr

/-- One lane of an access: intermediate address or scratch offset, operand data, compare data. -/
structure LaneAcc where
  lane : Nat
  addr : Nat
  data : Nat
  cmp : Nat
  st : LaneState
  /-- The range carries race-track (R298), or R without W (R265). -/
  track : Bool
  ro : Bool
  deriving DecidableEq, Repr

/-- What an in-flight unit does in its lanes. -/
inductive FlightOp where
  | load
  | lda
  | store
  | str
  | atom (op : BitVec 4) (ret : Bool)
  | datom (op : BitVec 4)
  | cctl (fn : BitVec 3)
  | lds
  | sts
  /-- Values computed at issue that return later: `vidx`, `rdraw` (R189, R158). -/
  | value
  /-- Late floating-point results with their flags and trapped lanes (R82). -/
  | late (flags : BitVec 5) (trapped : Mask) (snan : Bool)
  /-- A copy-engine operation, counted on path 3 (R241). -/
  | copy
  /-- The registers of an `mdrain.r` (R246). -/
  | drain
  /-- The destinations of an outstanding receive (R150). -/
  | recv
  deriving DecidableEq, Repr

/-- An in-flight unit of a gang (R225). -/
structure Flight where
  id : Nat
  op : FlightOp
  /-- Path of `$CNT` it is counted on, 4 for none. -/
  path : Nat
  /-- Access size in bytes. -/
  size : Nat
  /-- Scope of an acquire, release or cache operation (R104). -/
  scope : Nat
  lanes : List LaneAcc
  /-- Address of the unit and its `lim` bit, for late faults. -/
  pc : Pc
  lim : Bool
  /-- Issued in supervisor mode (R263). -/
  sup : Bool
  /-- Pedigree at issue (R234, R298). -/
  ped : BitVec 512
  /-- `datom` sequence of the key (R234). -/
  seq : Nat
  /-- Tag of a scratch access (space) rather than memory. -/
  scratch : Bool
  finished : Bool
  /-- Format entries that the operation names (R93). -/
  names : List Nat := []
  deriving DecidableEq, Repr

/-- A fault that waits for a boundary (R338). -/
structure PendFault where
  code : BitVec 8
  mask : Mask
  kind : BitVec 3
  addr : Dword
  lim : Bool
  count : BitVec 16
  /-- Batch and tile of matrix work (kind 3). -/
  place : BitVec 12
  /-- The unit, for the order of late traps (R338). -/
  order : Nat
  /-- A PAGE that names its own page and no replay entry: of a fetch, a table word, a `dafence` round (R272, R336). -/
  own : Bool := false
  /-- The fault of a handler's access that arrived while its gang was halted: it stops the crew after the restore (R326, R340). -/
  sup : Bool := false
  deriving DecidableEq, Repr

/-- An outstanding receive (R70, R150): the device queue, its age stamp, the mask and shape rule of its write. -/
structure Receive where
  op : Nat
  grove : Nat
  since : Nat
  act : Mask
  full : Bool
  first : BitVec 7
  frameNo : Nat
  /-- What the destinations held before the receive: a save keeps their tags (R70). -/
  old : List RegVal
  deriving DecidableEq, Repr

/-- A matrix batch of a gang (R247): its number once closed, the operations it holds. -/
structure Batch where
  num : BitVec 8
  ops : List Nat
  deriving DecidableEq, Repr

/-- What finished matrix work still owes a gang at its covering wait (R314, R316): flags and a trap or fault. -/
structure MatDue where
  op : Nat
  batch : BitVec 8
  flags : BitVec 5
  trapped : Bool
  snan : Bool
  refused : Bool
  tile : BitVec 4
  rows : Dword
  order : Nat
  deriving DecidableEq, Repr

/-! ## Gangs -/

/-- A handler-table entry kept with the context (R337). -/
structure Handler where
  code : Nat
  entry : Pc
  nf : BitVec 4
  gf : BitVec 4
  deriving DecidableEq, Repr

/-- A fault that waits for its handler's frame (R63, R339): what the entry will save, the handler, the age of the request. -/
structure Entering where
  record : BitVec 128
  kind : BitVec 3
  mask : Mask
  resume : Pc
  handler : Handler
  since : Nat
  deriving DecidableEq, Repr

/-- A gang (R14 to R18) with the registers of R51 to R57. `live` is false in an empty gang slot. -/
structure Gang where
  id : GangId
  live : Bool
  ctl : Ctl
  /-- The split-table entry whose control `ctl` is, when the gang is split. -/
  frag : Option Nat
  table : List (Option Entry)
  splits : List Split
  nextSeq : BitVec 8
  nextSplit : Nat
  frames : List Frame
  /-- m1 to m7 (R56). -/
  masks : List Mask
  ped : BitVec 512
  mode : Word
  cc : Word
  fstat : Word
  ftrap : Word
  tmask : Mask
  faultRec : BitVec 128
  rng : Dword
  sig : Dword
  mbatch : BitVec 8
  supervisor : Bool
  flights : List Flight
  pend : List PendFault
  recvs : List Receive
  openBatch : List Nat
  closed : List Batch
  due : List MatDue
  /-- Emergency rows and compact store held (R63). -/
  emergRows : Nat
  emergCompact : Nat
  /-- Rows and compact store granted to the waiting unit and not yet used. -/
  grantRows : Nat
  grantCompact : Nat
  grantMade : Bool
  /-- Unused reserved rows lent to the pool while it waits in a blocking `mbrecv` (R331). -/
  lent : Nat
  /-- The frames that lend, counted from the first, each with its rows: a handler frame that waits lends too. -/
  lentBy : List (Nat × Nat)
  /-- The age of the request to have the rows back. -/
  owed : Option Nat
  /-- Frames are in the gang's frame area (R63). -/
  spilled : Bool
  /-- The escape spill is chosen and waits for pending results (R63). -/
  chosen : Bool
  /-- It takes a fault whose handler frame is not there yet; it issues nothing until then (R63). -/
  entering : Option Entering
  /-- Frames are in the context's save image (R327). -/
  away : Bool
  /-- When the image was made that the gang is in: the ages of its receives stand still from then on (R70). -/
  savedAt : Nat
  /-- Halted for a pre-emption, a capture or a quarantine (R326). -/
  halted : Bool
  datomSeq : Nat
  retired : Nat
  /-- Barrier phase of the last `carr` arrival (R248). -/
  lastArr : Option Nat
  /-- Accesses, with their lanes, and receives under way when the last `carr` arrived: its phase is not complete before them
(R280, log 82). -/
  owes : List (Nat × Mask)
  /-- The times at which a `cwt` retired before the accesses that precede it: later accesses wait for those (R248, R278). -/
  orders : List Nat
  /-- A `cbar` that has arrived and was left for a handler: its address and the phase it waits for again (R248). -/
  barAt : Option (Pc × Nat)
  deriving DecidableEq, Repr

/-! ## Tasks and crews -/

/-- A task record (R25); in a resume record `flags` is 1 and `entry` the address of the save image (R38). -/
structure TaskRec where
  flags : BitVec 16
  ped : BitVec 512
  entry : Pc
  join : Option Nat
  nf : BitVec 4
  gf : BitVec 4
  segment : Nat
  argmap : BitVec 16
  args : List Word
  /-- Crew that the steal plan names (R301). -/
  mark : Option Nat
  /-- Crew of the root strand the record descends from, for captures (R349). -/
  lineage : List Nat
  id : Nat
  deriving DecidableEq, Repr

/-- A reducer view (R291): element encodings, or the entries of a LIST with its dropped count. -/
structure View where
  id : Nat
  elems : List Nat
  dropped : Nat
  /-- In the task area rather than in the view store (R291). -/
  spilled : Bool
  since : Nat
  deriving DecidableEq, Repr

/-- A segment of the running strand's block with its views (R290). -/
structure Segment where
  num : Nat
  views : List View
  deriving DecidableEq, Repr

/-- The task a crew runs (R22). -/
structure Task where
  root : Bool
  /-- Root crew rank for a root strand (R302). -/
  rootOf : Nat
  join : Option Nat
  segment : Nat
  entry : Pc
  /-- Join record of the open block, once it has a spawn (R144). -/
  block : Option Nat
  spawned : Nat
  segs : List Segment
  id : Nat
  lineage : List Nat
  /-- The `tdone` has performed its implicit join and released (R146). -/
  ending : Bool
  deriving DecidableEq, Repr

/-- The image of a suspended task (R37, R69): one saved gang per rank, the task and its unfinished segments. -/
structure Suspended where
  gangs : List Gang
  task : Task
  crew : Nat
  size : Nat
  addr : Nat
  atDone : Bool
  deriving DecidableEq, Repr

/-- A join record (R37): unfinished children, final views of finished ones by segment number, the suspended parent. -/
structure JoinRec where
  id : Nat
  /-- Its place in the task area (R25, R27). -/
  addr : Nat
  unfinished : Nat
  finals : List Segment
  suspended : Option Suspended
  folded : Bool
  flags : BitVec 5
  /-- The views of the folded block, the new seg0 (R292). -/
  result : List View
  deriving DecidableEq, Repr

/-- A peer-add that has reached, or is on its way to, its target (R316). -/
structure PeerAdd where
  op : Nat
  fromCtx : Nat
  fromCrew : Nat
  arrived : Bool
  withdrawn : Bool
  order : Nat
  deriving DecidableEq, Repr

/-- A flattened spawn that the crew has completed and some of its gangs have not yet entered (R34, R144). -/
structure FlatCall where
  pc : Pc
  target : Pc
  nf : BitVec 4
  gf : BitVec 4
  args : List RegVal
  todo : List Nat
  deriving DecidableEq, Repr

/-- A `cpym` portion that a saved receiver still owes itself (R327, R328): it is reissued at restore. -/
structure Fill where
  src : Nat
  srcStride : Nat
  dst : Nat
  dstStride : Nat
  extent : Nat
  rows : Nat
  core : Nat
  deriving DecidableEq, Repr

/-- A crew (R17): its place, task, deque, quota, barrier, tiles and scratch. -/
structure Crew where
  ctx : Nat
  rank : Nat
  core : Nat
  pos : Nat
  stopped : Bool
  task : Option Task
  /-- A record popped or stolen and not yet started (R22). -/
  taken : Option TaskRec
  deque : List TaskRec
  overflow : List TaskRec
  /-- Quota blocks by role (R58, R64). -/
  quota : List Nat
  phase : Nat
  arrivals : List Nat
  /-- Non-zero bytes of the tiles, by byte of the crew's range (R307, R308). -/
  tiles : List Host.Cell
  peers : List Nat
  /-- Non-zero bytes of the scratch allocation (R230). -/
  scratch : List Host.Cell
  /-- A root fold or a resumption is owed. -/
  folding : Bool
  /-- Join record whose block this crew's last child completed (R38). -/
  resuming : Option Nat
  roundOpen : Bool
  flat : Option FlatCall
  fills : List Fill
  /-- The Beaver engine has not finished the fold when the crew's next `join` looks (R37). -/
  slowFold : Bool
  deriving DecidableEq, Repr

/-! ## Cores -/

/-- Kind of a copy (R241, R242); the first letter is the destination's. -/
inductive CopyKind where
  | gs | sg | ss | gg | multi
  deriving DecidableEq, Repr

/-- A copy-engine operation (R241, R242, R317): addresses are intermediate or scratch offsets of the crew. -/
structure CopyOp where
  id : Nat
  gang : GangId
  core : Nat
  kind : CopyKind
  src : Nat
  dst : Nat
  srcStride : Nat
  dstStride : Nat
  extent : Nat
  rows : Nat
  rowsDone : Nat
  /-- Receiving crews (rank) of a `cpym`; the issuing crew otherwise. -/
  crews : List Nat
  track : Bool
  ped : BitVec 512
  act : Mask
  queued : Bool
  /-- Intermediate address of the page the remaining rows wait for (R240). -/
  stopAt : Nat
  finished : Bool
  sup : Bool
  deriving DecidableEq, Repr

/-- What a matrix operation computes (R243 to R246). -/
inductive MatKind where
  | mma (shape : BitVec 3) (overwrite : Bool)
  | mmas (fn : BitVec 3) (overwrite : Bool)
  | mzero
  | drainR
  | drainS
  | drainG
  | drainP (core : Nat) (tile : Nat)
  deriving DecidableEq, Repr

/-- A queued matrix operation with what it captured at issue (R304, R306). -/
structure MatOp where
  id : Nat
  kind : MatKind
  ctx : Nat
  crew : Nat
  issuers : List GangId
  tile : Nat
  fa : Dword
  fb : Dword
  fc : Dword
  fmt : Dword
  rnd : BitVec 3
  ftrap : BitVec 6
  /-- The A record or the destination record: base, extent, stride, rows. -/
  recd : List Nat
  /-- Intermediate base of a global destination, race-track. -/
  ibase : Nat
  track : Bool
  /-- The B words read at issue: per quarter, per register, per lane. -/
  b : List (List (List Word))
  ped : BitVec 512
  act : Mask
  started : Bool
  /-- What it reads at its start: the A record's rows, or a drain's tile. -/
  aBytes : List Byte
  rowsDone : Nat
  queued : Bool
  stopAt : Nat
  finished : Bool
  sup : Bool
  /-- The captured fc and fmt are one entry (R83). -/
  same : Bool
  /-- A peer-add has left for its target (R316). -/
  sent : Bool
  /-- Format entries that the operation names (R93). -/
  names : List Nat := []
  deriving DecidableEq, Repr

/-- A core: frame allocator, counters, contexts taking turns (R4, R59, R325, R345). -/
structure CoreSt where
  ix : Nat
  pool : Nat
  reserve : Nat
  poolC : Nat
  reserveC : Nat
  /-- Ways given to scratch, by context (R251, R268). -/
  wayMasks : List (Nat × BitVec 16)
  resident : Option Nat
  /-- Contexts whose state on this core is saved (R327). -/
  saved : List Nat
  units : Nat
  preempt : Option Nat
  stall : Bool
  copies : List CopyOp
  mats : List MatOp
  ctrVal : List (BitVec 48)
  ctrSel : List (BitVec 8)
  ctrRun : Bool
  /-- The model's own (log 3): counters of a timing event that time has passed for since they were last brought up to date. -/
  ctrRan : BitVec 4
  ctrOwner : Option Nat
  /-- The cycle counter as it was last read (R345, R346): the cc that pass until the next read are a free value. -/
  cycles : BitVec 64
  deriving DecidableEq, Repr

/-! ## Memory system -/

/-- A 64 B line of an L1 with its bytes (R264). -/
structure L1Line where
  dev : Nat
  cluster : Nat
  ctx : Nat
  piece : Nat
  bytes : List Byte
  /-- Its number among the lines that came from a home slice, which a copy keeps (log 83). -/
  since : Nat := 0
  deriving DecidableEq, Repr

/-- A piece held by its home slice (R266, R273), with the slice, counted over the package, and the set it lies in: a warm reset
keeps it there whatever partition mode comes next (R365). -/
structure L2Piece where
  slice : Nat
  set : Nat
  dev : Nat
  ctx : Nat
  piece : Nat
  pa : Nat
  modified : Bool
  deriving DecidableEq, Repr

/-- An entry of the peer-probe table of a cluster (R265). -/
structure PeerEntry where
  dev : Nat
  cluster : Nat
  slot : Nat
  granule : Nat
  source : Nat
  deriving DecidableEq, Repr

/-- What a cluster has seen: of a piece of a context, or since its last acquire of all of them. A peer's line that came from its
home slice before that is older (R281, log 83). -/
structure Floor where
  cluster : Nat
  piece : Option (Nat × Nat)
  since : Nat
  deriving DecidableEq, Repr

/-- The clusters that last read a granule from its slice on a range without W, the last one first (R265). -/
structure LastReader where
  dev : Nat
  ctx : Nat
  granule : Nat
  clusters : List Nat
  deriving DecidableEq, Repr

/-- An Owl entry (R297). -/
structure OwlEntry where
  dev : Nat
  ctx : Nat
  piece : Nat
  ped : BitVec 512
  since : Nat
  deriving DecidableEq, Repr

/-- A held `datom` update (R234, R269, R270). -/
structure HeldUpdate where
  ctx : Nat
  crew : Nat
  dword : Nat
  addr : Nat
  size : Nat
  op : BitVec 4
  value : Nat
  ped : BitVec 512
  gang : Nat
  lane : Nat
  seq : Nat
  /-- In the overflow list rather than in an address record. -/
  outside : Bool
  deriving DecidableEq, Repr

/-! ## Contexts -/

/-- A range register (R250, R255). -/
structure Range where
  base : Nat
  len : Nat
  perm : BitVec 5
  ibase : Nat
  deriving DecidableEq, Repr

/-- A page mapping (R257): intermediate page base, size, physical base, whether the page came from a pool, and the spokes
that have completed its invalidation while another still holds it (R259). -/
structure PageMap where
  ia : Nat
  size : Nat
  pa : Nat
  pooled : Bool
  gone : List Nat := []
  deriving DecidableEq, Repr

/-- A registered reducer (R288): kind 1 to 8 as R320 codes it, captured entry, rnd, len, home. -/
structure Reducer where
  kind : Nat
  entry : Dword
  rnd : BitVec 3
  len : Nat
  home : Nat
  deriving DecidableEq, Repr

/-- A role of the grove descriptor (R18, R320). -/
structure Role where
  gangs : Nat
  blocks : Nat
  deriving DecidableEq, Repr

/-- A steal-plan entry (R301). -/
structure PlanEntry where
  ped : BitVec 512
  thief : Nat
  deriving DecidableEq, Repr

/-- A core entry of a pass record (R353). -/
structure PassCore where
  core : Nat
  sels : List (BitVec 8)
  vals : List (BitVec 48)
  deriving DecidableEq, Repr

/-- A pass record (R353). -/
structure PassRec where
  num : Nat
  mismatch : Bool
  snapFull : Bool
  aborted : Bool
  sig : Dword
  pages : Nat
  cores : List PassCore
  deriving DecidableEq, Repr

/-- A running capture (R349 to R351). -/
structure Capture where
  crew : Nat
  task : Nat
  pass : Nat
  passes : Nat
  sig : Dword
  first : Dword
  snapFull : Bool
  aborted : Bool
  /-- Physical pages whose pre-image is held, with the pool page that holds it. -/
  snaps : List (Nat × Nat)
  /-- The capture image: the crew, its gangs (R349 step 4). -/
  crewAt : Crew
  gangsAt : List Gang
  /-- The crew's peer-adds that their targets held, with their cores: the image has them withdrawn (R328). -/
  addsAt : List (Nat × MatOp)
  /-- Space of the task area and of the overflow area in use at the capture point. -/
  usedAt : Nat
  overAt : Nat
  /-- Cores from which the context has been away since before the capture: no pre-emption in it (R351). -/
  awayAt : List Nat
  /-- The issuing crew has ended its task and waits for the pass end. -/
  ended : Bool
  deriving DecidableEq, Repr

/-- Capture state of R353's status word. -/
inductive CaptureState where
  | none | running | complete | aborted
  deriving DecidableEq, Repr

/-- What an image in a task area saves (R27). -/
inductive AreaUse where
  | suspension (join : Nat)
  | spill (gang : GangId)
  | save (core : Nat)
  deriving DecidableEq, Repr

/-- An image in a context's task area: its place, and its bytes as R66, R69 and R327 lay them out, by offset; a byte not
listed is 0. -/
structure AreaImage where
  use : AreaUse
  addr : Nat
  size : Nat
  bytes : List Host.Cell
  deriving DecidableEq, Repr

/-- A context (R319) with everything that is per context. -/
structure Context where
  num : Nat
  dev : Nat
  prio : Nat
  strict : Bool
  owlWays : Nat
  seed : Dword
  taskBase : Nat
  taskSize : Nat
  taskUsed : Nat
  images : List AreaImage
  overSize : Nat
  overUsed : Nat
  ringBase : Nat
  ringSize : Nat
  /-- Race reports written and dropped since creation (R299). -/
  raceSeen : Nat
  raceLost : Nat
  /-- Bytes of race reports in lines that an engine operation owned: the time, the physical address, how many (R284). -/
  ringLate : List (Nat × Nat × Nat)
  ranges : List Range
  maps : List PageMap
  formats : List Dword
  /-- fmtset updates in hub order, and how many of them each core has applied (R94). -/
  fmtLog : List (Nat × Dword × GangId)
  fmtSeen : List (Nat × Nat)
  reducers : List (Option Reducer)
  handlers : List Handler
  plan : List PlanEntry
  exclusive : Bool
  crews : Nat
  size : Nat
  quorum : BitVec 8
  mode : Word
  ftrap : Word
  roles : List Role
  scratch : Nat
  queues : Nat
  queuePrio : List Nat
  queueBase : Nat
  errQueue : Nat
  entry : Pc
  nf : BitVec 4
  gf : BitVec 4
  joins : List JoinRec
  /-- Root folds applied, by crew rank, and root strands ended without views (R294, R302). -/
  folded : Nat
  absent : List Nat
  held : List HeldUpdate
  /-- Overflowed (crew, dword) of open rounds (R270, R274). -/
  overflowed : List (Nat × Nat)
  owlEvicted : Nat
  errKept : List (List Word)
  capture : Option Capture
  capState : CaptureState
  passes : List PassRec
  /-- Cores whose counters the context owned when its last capture ended (R353). -/
  capOwned : List Nat
  deriving DecidableEq, Repr

/-! ## Devices, queues, links, boot -/

/-- A device queue bound to a context (R21, R322, R358): grove queue number, or the error queue. -/
structure Queue where
  dev : Nat
  ix : Nat
  ctx : Nat
  grove : Option Nat
  prio : Nat
  msgs : List (List Word)
  deriving DecidableEq, Repr

/-- A free page of a device-local pool (R360). -/
structure PoolPage where
  dev : Nat
  size : Nat
  base : Nat
  deriving DecidableEq, Repr

/-- Quarantine of a device (R364, R369). -/
structure Quarantine where
  dev : Nat
  posted : Bool
  deriving DecidableEq, Repr

/-- A link port (R361 to R363). -/
structure Port where
  num : Nat
  up : Bool
  expect : BitVec 8
  sendSeq : BitVec 8
  unacked : List Flit
  /-- Flits that wait for room in the replay buffer, those that wait for the port's reserved slot, and flits put on the lanes
  that the far end has not taken (R362). -/
  waiting : List Flit
  escape : List Flit
  wire : List Flit
  /-- Flits of packets that have not come in whole. -/
  parts : List Flit
  deriving DecidableEq, Repr

/-- An end-to-end transaction kept by its source until acknowledged, or applied by its destination (R363): the device of the
package, the device at the other end. -/
structure Transaction where
  own : Nat
  peer : Nat
  tseq : BitVec 16
  flits : List Flit
  port : Nat
  answer : List Flit
  /-- Its destination has applied it (log 10). -/
  done : Bool := false
  deriving DecidableEq, Repr

/-- What a transaction from another package asks of a device: a write through a context's mappings, a post to a queue, a command.
Its payload has no stated layout: the agenda says what it says (log 10). -/
inductive Remote where
  | write (ctx ia : Nat) (bytes : List Byte)
  | post (queue : Nat) (msg : List Word)
  | command (words : List Word)
  deriving DecidableEq, Repr

/-- A host access that a running capture holds: the bytes to write, or the number of bytes to read (R349, R351). -/
structure HostReq where
  ctx : Nat
  ia : Nat
  write : Bool
  bytes : List Byte
  count : Nat
  deriving DecidableEq, Repr

/-- What the command processors run (R366). -/
inductive Boot where
  | rom | running | refused
  deriving DecidableEq, Repr

/-- One thing the environment lets happen next (log 1): an event row of the opcode table, a gang (or fragment) chosen to
issue, raw command words for the management queue, a replacement in a cache, one row of a copy; a spoke that is done
with an unmap command before the others (R259), a fold that is late for the crew's next `join` (R37); the link group's
configuration (R355), transactions of the package, what its ports send and hear (R361 to R364), a failure elsewhere that cuts
the package off from the bridge (R364); an ECC error in other data
than an access returns (R368). -/
inductive Action where
  | event (i : Instr)
  | focus (g : GangId)
  | fragment (g : GangId) (entry : Nat)
  | command (words : List Word)
  | evictL1 (dev cluster piece : Nat)
  | evictMsc (line : Nat)
  | copyRow (core op : Nat)
  | unmapSpoke (ctx ia spoke : Nat)
  | slowFold (ctx crew : Nat)
  | linkGroup (number : Nat) (hostPort : Option Nat) (bridged : Bool)
  | linkSend (src dst kind : Nat) (payloads : List (List Byte)) (port : Nat)
  | linkCut
  | linkAnswer (own src tseq : Nat) (payloads : List (List Byte))
  | linkApply (own src tseq : Nat) (what : Remote)
  | linkAck (port count : Nat)
  | linkReplay (port : Nat)
  | linkTake (port : Nat)
  | portUp (port : Nat)
  | eccCount (unit : Nat)
  | eccEngine (core op unit : Nat)
  | eccFetch (g : GangId) (unit : Nat)
  deriving DecidableEq, Repr

/-- The machine. -/
structure State where
  /-- The gang in issue. -/
  cur : Gang
  /-- Every other gang. -/
  others : List Gang
  crews : List Crew
  cores : List CoreSt
  contexts : List Context
  queues : List Queue
  peerAdds : List PeerAdd
  /-- Coherent contents of physical memory, canonical. -/
  mem : List Host.Cell
  /-- What the memory-side caches hold over HBM4: modified data of an L2 slice is not in it (R260), canonical. -/
  side : List Host.Cell
  /-- Contents of HBM4 itself, canonical. -/
  hbm : List Host.Cell
  l1 : List L1Line
  l2 : List L2Piece
  /-- Lines modified in the memory-side cache, by physical line number. -/
  msc : List Nat
  dirty : List Nat
  peers : List PeerEntry
  readers : List LastReader
  /-- The model's own (log 83): how many lines have come from home slices, and what each cluster has seen. -/
  fetches : Nat
  floors : List Floor
  owl : List OwlEntry
  /-- Slice sequence counters by slice, counted over the package (R266). -/
  slices : List (Nat × BitVec 64)
  partition : Option Nat
  pools : List PoolPage
  quarantined : List Quarantine
  mgmtOut : List (List Word)
  hostInbox : List (List Word)
  /-- Status of the host's last post or access (R358, R359). -/
  hostStatus : Word
  hostData : List Byte
  /-- Host accesses that a capture holds, in their order (R349). -/
  heldHost : List HostReq
  boot : Boot
  version : Word
  image : List Byte
  stretched : List Nat
  ecc : List (Nat × Nat)
  /-- The link group (R355): the number of the package's first device, its port in host mode, whether the group has a
  bridge. -/
  number : Nat
  hostPort : Option Nat
  bridged : Bool
  ports : List Port
  /-- Next transaction numbers by source and destination (R361). -/
  tseqs : List ((Nat × Nat) × BitVec 16)
  sent : List Transaction
  applied : List Transaction
  discarded : Nat
  nextCtx : Nat
  tick : Nat
  freeIx : Nat
  /-- The model's own (log 1): units issued since the events and the other gangs last had their turn. -/
  streak : Nat
  agenda : List Action
  deriving DecidableEq, Repr

/-! ## Stops -/

/-- The ways the machine stops. -/
inductive Fault where
  /-- Raised by every gang instruction when no gang is in issue. Safe: the machine issues none then. -/
  | noGang
  deriving DecidableEq, Repr

/-- Refusals. -/
inductive Refusal where
  /-- Raised by `exec` for an instruction without a meaning yet. Safe. -/
  | notModelled (mnemonic : String)
  deriving DecidableEq, Repr

/-! ## Empty values and reset -/

def emptyCtl : Ctl :=
  { pc := 0, mask := BitVec.allOnes 128, wait := .ready, marks := [], redo := none, turn := false }

def noSave : HandlerSave := { ctl := emptyCtl, frag := none, entry := none, kind := 0 }

/-- An empty gang slot; the values of R57 at task start where it gives one. -/
def emptyGang : Gang :=
  { id := ⟨0, 0, 0⟩, live := false, ctl := emptyCtl, frag := none, table := List.replicate 8 none, splits := [],
    nextSeq := 0, nextSplit := 0, frames := [], masks := List.replicate 7 0, ped := 0, mode := 0, cc := 0, fstat := 0,
    ftrap := 0, tmask := 0, faultRec := 0, rng := 0, sig := 0, mbatch := 0, supervisor := false, flights := [],
    pend := [], recvs := [], openBatch := [], closed := [], due := [], emergRows := 0, emergCompact := 0,
    grantRows := 0, grantCompact := 0, grantMade := false, lent := 0, lentBy := [], owed := none, spilled := false, chosen := false, entering := none, away := false, savedAt := 0,
    halted := false, datomSeq := 0, retired := 0, lastArr := none, owes := [], orders := [], barAt := none }

/-- A core right after reset: everything in the pool, counters stopped at event 0 (R59, R345). -/
def freshCore (ix : Nat) : CoreSt :=
  { ix := ix, pool := Config.poolRows, reserve := Config.reserveRows, poolC := Config.poolCompact,
    reserveC := Config.reserveCompact, wayMasks := [], resident := none, saved := [], units := 0, preempt := none,
    stall := false, copies := [], mats := [], ctrVal := List.replicate 4 0, ctrSel := List.replicate 4 0,
    ctrRun := false, ctrRan := 0, ctrOwner := none, cycles := 0 }

def emptyTask : Task :=
  { root := true, rootOf := 0, join := none, segment := 0, entry := 0, block := none, spawned := 0, segs := [],
    id := 0, lineage := [], ending := false }

def emptyCrew : Crew :=
  { ctx := 0, rank := 0, core := 0, pos := 0, stopped := false, task := none, taken := none, deque := [],
    overflow := [], quota := [], phase := 0, arrivals := [], tiles := [], peers := List.replicate 8 0, scratch := [],
    folding := false, resuming := none, roundOpen := false, flat := none, fills := [], slowFold := false }

/-- A context slot that holds no context. -/
def emptyContext : Context :=
  { num := 0, dev := 0, prio := 0, strict := false, owlWays := 0, seed := 0, taskBase := 0, taskSize := 0, taskUsed := 0, images := [],
    overSize := 0, overUsed := 0, ringBase := 0, ringSize := 0, raceSeen := 0, raceLost := 0, ringLate := [], ranges := [], maps := [],
    formats := List.replicate 32 0, fmtLog := [], fmtSeen := [], reducers := List.replicate 64 none, handlers := [],
    plan := [], exclusive := false, crews := 0, size := 0, quorum := 0, mode := 0, ftrap := 0, roles := [],
    scratch := 0, queues := 0, queuePrio := [], queueBase := 0, errQueue := 0, entry := 0, nf := 0, gf := 0,
    joins := [], folded := 0, absent := [], held := [], overflowed := [], owlEvicted := 0, errKept := [],
    capture := none, capState := .none, passes := [], capOwned := [] }

/-- The machine right after power-up (R365, R366): the boot ROM runs, nothing else exists. HBM4 contents, slice
sequence counters, ECC counts and the stretched flags have no stated value (log 2, 5). -/
def State.reset : State :=
  { cur := emptyGang, others := [], crews := [], cores := [], contexts := [], queues := [], peerAdds := [],
    mem := [], side := [], hbm := [], l1 := [], l2 := [], msc := [], dirty := [], peers := [], readers := [], fetches := 0, floors := [], owl := [],
    slices := [], partition := none, pools := [], quarantined := [], mgmtOut := [], hostInbox := [], hostStatus := 0, hostData := [],
    heldHost := [],
    boot := .rom, version := 0, image := [], stretched := [], ecc := [], number := 0, hostPort := some 0, bridged := true, ports := [], tseqs := [], sent := [], applied := [],
    discarded := 0, nextCtx := 0, tick := 0, freeIx := 0, streak := 0, agenda := [] }

end Sys2Proof.Machine
end

