-- ==== Sys2Proof/Machine/Access.lean ====
section
/-! DEFINITION. Where things stand in the state: gangs, crews, cores and contexts by their numbers; the one home of
each, read and written here only. -/
namespace Sys2Proof.Machine

/-- The gang of that name, if it exists. -/
def State.gang? (s : State) (id : GangId) : Option Gang :=
  if s.cur.live && s.cur.id == id then some s.cur else s.others.find? fun g => g.id == id

/-- Puts a gang back in its place. -/
def State.setGang (s : State) (g : Gang) : State :=
  if s.cur.live && s.cur.id == g.id then { s with cur := g }
  else { s with others := updateFirst (fun h => h.id == g.id) (fun _ => g) s.others }

/-- Changes the gang of that name, if it exists. -/
def State.modGang (s : State) (id : GangId) (f : Gang → Gang) : State :=
  match s.gang? id with
  | some g => s.setGang (f g)
  | none => s

/-- Every gang. -/
def State.gangs (s : State) : List Gang := if s.cur.live then s.cur :: s.others else s.others

/-- Changes every gang. -/
def State.mapGangs (s : State) (f : Gang → Gang) : State :=
  { s with cur := if s.cur.live then f s.cur else s.cur, others := s.others.map f }

/-- The gangs of a crew. -/
def State.crewGangs (s : State) (ctx crew : Nat) : List Gang :=
  s.gangs.filter fun g => g.id.ctx == ctx && g.id.crew == crew

/-- Makes a gang the one in issue. -/
def State.focus (s : State) (id : GangId) : State :=
  if s.cur.live && s.cur.id == id then s
  else match s.others.find? (fun g => g.id == id) with
    | none => s
    | some g =>
      let rest := s.others.filter fun h => h.id != id
      { s with cur := g, others := if s.cur.live then rest ++ [s.cur] else rest }

/-- A crew by context and rank. -/
def State.crew (s : State) (ctx rank : Nat) : Crew :=
  (s.crews.find? fun c => c.ctx == ctx && c.rank == rank).getD { emptyCrew with ctx := ctx, rank := rank }

/-- Puts a crew back in its place. -/
def State.setCrew (s : State) (c : Crew) : State :=
  { s with crews := updateFirst (fun d => d.ctx == c.ctx && d.rank == c.rank) (fun _ => c) s.crews }

def State.modCrew (s : State) (ctx rank : Nat) (f : Crew → Crew) : State := s.setCrew (f (s.crew ctx rank))

/-- The crew of a gang. -/
def State.crewOf (s : State) (g : Gang) : Crew := s.crew g.id.ctx g.id.crew

/-- A core by index; one never written is as reset leaves it. -/
def State.core (s : State) (ix : Nat) : CoreSt := (s.cores.find? fun c => c.ix == ix).getD (freshCore ix)

/-- Puts a core back in its place. -/
def State.setCore (s : State) (c : CoreSt) : State :=
  if s.cores.any (fun d => d.ix == c.ix) then { s with cores := updateFirst (fun d => d.ix == c.ix) (fun _ => c) s.cores }
  else { s with cores := s.cores ++ [c] }

def State.modCore (s : State) (ix : Nat) (f : CoreSt → CoreSt) : State := s.setCore (f (s.core ix))

/-- The core of a gang. -/
def State.coreOf (s : State) (g : Gang) : CoreSt := s.core (s.crewOf g).core

/-- A context by number. -/
def State.ctx? (s : State) (n : Nat) : Option Context := s.contexts.find? fun c => c.num == n

def State.ctx (s : State) (n : Nat) : Context := (s.ctx? n).getD { emptyContext with num := n }

def State.setCtx (s : State) (c : Context) : State :=
  { s with contexts := updateFirst (fun d => d.num == c.num) (fun _ => c) s.contexts }

def State.modCtx (s : State) (n : Nat) (f : Context → Context) : State := s.setCtx (f (s.ctx n))

/-- The context of the gang in issue. -/
def State.here (s : State) : Context := s.ctx s.cur.id.ctx

/-- A join record of a context. -/
def Context.joinRec? (c : Context) (id : Nat) : Option JoinRec := c.joins.find? fun j => j.id == id

def Context.setJoin (c : Context) (j : JoinRec) : Context :=
  { c with joins := updateFirst (fun k => k.id == j.id) (fun _ => j) c.joins }

/-- The next stamp: identifiers of operations and the order of "oldest first" rules. -/
def State.ticked (s : State) : State := { s with tick := s.tick + 1 }

/-- The next index of a free value. -/
def State.drawn (s : State) : State := { s with freeIx := s.freeIx + 1 }

/-! ## Places (R2, R6, R256, R321, R332) -/

/-- The partition mode in force, 1 when none is chosen (R6). -/
def State.mode (s : State) : Nat := s.partition.getD 1

/-- Cores of a device (R6). -/
def State.devCores (s : State) : Nat := Config.packageCores / s.mode

/-- First core of a device (R6, R332). -/
def State.firstCore (s : State) (dev : Nat) : Nat := dev * s.devCores

/-- Queues of a device (R6). -/
def State.devQueues (s : State) : Nat := Config.packageQueues / s.mode

/-- L2 slices of a device (R256). -/
def State.slicesOf (s : State) : Nat := s.devCores

/-- Cluster of a core, counted over the package (R332). -/
def clusterOf (core : Nat) : Nat := core / 4

/-- Compute stack of a core (R332). -/
def stackOf (core : Nat) : Nat := core / Config.stackCores

/-- Spoke that owns a physical address (R257). -/
def ownerSpoke (pa : Nat) : Nat := pa / Config.spokeBytes

/-- Granule of an intermediate address (R256). -/
def granuleOf (ia : Nat) : Nat := ia / 2048

/-- Home slice within the device (R256). -/
def State.homeSlice (s : State) (ia : Nat) : Nat := granuleOf ia % s.slicesOf

/-- Home slice counted over the package (R256, R332). -/
def State.sliceAt (s : State) (dev ia : Nat) : Nat := s.firstCore dev + s.homeSlice ia

/-- Set of an intermediate address within its home slice (R256). -/
def State.homeSet (s : State) (ia : Nat) : Nat := granuleOf ia / s.slicesOf % 128

/-- Compute stack, cluster, and position in the cluster of the home slice of an address of a device (R256). -/
def State.homeStack (s : State) (dev ia : Nat) : Nat := stackOf (s.firstCore dev) + s.homeSlice ia / 160
def State.homeCluster (s : State) (ia : Nat) : Nat := s.homeSlice ia % 160 / 4
def State.homePosition (s : State) (ia : Nat) : Nat := s.homeSlice ia % 4

/-- Mesh column and row of a cluster within its stack (R256). -/
def meshColumn (cluster : Nat) : Nat := cluster % 8
def meshRow (cluster : Nat) : Nat := cluster / 8

/-- Spoke that translates an intermediate address (R256). -/
def translatingSpoke (ia : Nat) : Nat := ia / 0x200000 % 4

/-- 64 B piece number of an address. -/
def pieceOf (a : Nat) : Nat := a / 64

/-- The gang slot of a gang: crew position times size plus rank (R321). -/
def State.slotOf (s : State) (g : Gang) : Nat := (s.crewOf g).pos * (s.ctx g.id.ctx).size + g.id.rank

/-- The role of a gang rank (R18). -/
def roleOf : List Role → Nat → Nat
  | [], _ => 0
  | r :: rest, k => if k < r.gangs then 0 else 1 + roleOf rest (k - r.gangs)

/-- The role of a gang (R18). -/
def State.roleOf (s : State) (g : Gang) : Nat := Machine.roleOf (s.ctx g.id.ctx).roles g.id.rank

/-! ## The top frame -/

/-- The top frame of a gang, if it has one. -/
def Gang.top? (g : Gang) : Option Frame := g.frames.head?

/-- The registers of the top frame. -/
def Gang.regs (g : Gang) : List Reg := match g.frames with | [] => [] | f :: _ => f.regs

/-- Changes the top frame. -/
def Gang.modTop (g : Gang) (f : Frame → Frame) : Gang :=
  { g with frames := match g.frames with | [] => [] | t :: r => f t :: r }

/-- Changes the gang in issue. -/
def State.modCur (s : State) (f : Gang → Gang) : State := { s with cur := f s.cur }

/-- Register count of a demand field: 0 means 128 (R58). -/
def demandRegs (nf : BitVec 4) : Nat := if nf = 0#4 then 128 else 8 * nf.toNat

/-- Reserved rows of a demand field (R58). -/
def demandRows (gf : BitVec 4) : Nat := 8 * gf.toNat

/-! ## Pedigrees (R30, R31) -/

/-- Element i of a pedigree; element 0 is the header. -/
def pedElem (p : BitVec 512) (i : Nat) : BitVec 16 := p.extractLsb' (16 * i) 16

/-- Depth (R30). -/
def pedDepth (p : BitVec 512) : Nat := (p.extractLsb' 0 5).toNat

/-- The F bit (R30). -/
def pedF (p : BitVec 512) : Bool := p.getLsbD 5

/-- Replaces element i. -/
def setElem (p : BitVec 512) (i : Nat) (e : BitVec 16) : BitVec 512 :=
  (p &&& ~~~(0xFFFF#512 <<< (16 * i))) ||| (e.setWidth 512 <<< (16 * i))

/-- Replaces depth and F. -/
def setHeader (p : BitVec 512) (depth : Nat) (f : Bool) : BitVec 512 :=
  setElem p 0 (BitVec.ofNat 16 (depth % 32 + if f then 32 else 0))

/-- The strand's current position: its last element (R31). -/
def pedLast (p : BitVec 512) : BitVec 16 := pedElem p (pedDepth p)

/-- Joins and spawns counted by a position (R31). -/
def posJ (e : BitVec 16) : Nat := (e.extractLsb' 10 6).toNat
def posK (e : BitVec 16) : Nat := (e.extractLsb' 0 10).toNat

/-- A position (R31). -/
def mkPos (j k : Nat) : BitVec 16 := BitVec.ofNat 16 (j % 64 * 1024 + k % 1024)

/-- The root pedigree of a crew (R30). -/
def rootPed (rank : Nat) : BitVec 512 := setElem (setHeader 0 2 false) 1 (BitVec.ofNat 16 rank)

/-- `pedkey` (R149). -/
def pedKey (p : BitVec 512) : Word :=
  (upto (pedDepth p)).foldl (fun h i =>
    ((h ^^^ (pedElem p (i + 1)).setWidth 32).rotateLeft 5) * 0x2F0B5A6D#32) 0x8A5CD3F1#32

/-- The order of two pedigrees (R35). -/
inductive PedOrder where
  | same | before | after | parallel
  deriving DecidableEq, Repr

/-- The level at which two pedigrees part, from level l on, looking at most `fuel` levels. -/
def pedPart (p q : BitVec 512) : Nat → Nat → Nat
  | 0, l => l
  | fuel + 1, l =>
    if l ≤ pedDepth p && l ≤ pedDepth q && pedElem p l == pedElem q l then pedPart p q fuel (l + 1) else l

/-- `ped_order` (R35). -/
def pedOrder (p q : BitVec 512) : PedOrder :=
  if pedDepth p = pedDepth q ∧ (upto (pedDepth p)).all (fun i => pedElem p (i + 1) == pedElem q (i + 1)) then .same
  else if pedElem p 1 ≠ pedElem q 1 then .parallel
  else
    let l := pedPart p q 32 2
    if pedDepth p < l then .before
    else if pedDepth q < l then .after
    else
      let jp := posJ (pedElem p l)
      let kp := posK (pedElem p l)
      let jq := posJ (pedElem q l)
      let kq := posK (pedElem q l)
      if jp < jq then .before
      else if jq < jp then .after
      else if l = pedDepth p ∧ kp ≤ kq then .before
      else if l = pedDepth q ∧ kq ≤ kp then .after
      else .parallel

/-- Two pedigrees agree in depth and in every element (R301). -/
def pedMatch (p q : BitVec 512) : Bool :=
  pedDepth p == pedDepth q && (upto (pedDepth p)).all fun i => pedElem p (i + 1) == pedElem q (i + 1)

/-- The serial order of keys: elements from e1 upward as 16-bit numbers, a proper prefix first (R235). -/
def pedSerialLt (p q : BitVec 512) : Bool :=
  let l := pedPart p q 32 1
  if pedDepth p < l then decide (l ≤ pedDepth q)
  else if pedDepth q < l then false
  else decide ((pedElem p l).toNat < (pedElem q l).toNat)

/-! ## Random streams (R151, R295) -/

def rngA : Dword := 0xB5AD4ECEDA1CE2A9#64
def rngC : Dword := 0x6A4D#64

/-- One step of the generator. -/
def rngStep (x : Dword) : Dword := rngA * x + rngC

/-- D steps at once: the affine map is squared bit by bit, so that jump takes 64 steps of its own. -/
def jumpBits (d : Dword) : Nat → Nat → Dword → Dword → Dword → Dword
  | 0, _, _, _, x => x
  | fuel + 1, i, a, c, x => jumpBits d fuel (i + 1) (a * a) (a * c + c) (if d.getLsbD i then a * x + c else x)

/-- jump(x, D): D applications of step (R151). -/
def jump (x d : Dword) : Dword := jumpBits d 64 0 rngA rngC x

/-- The re-keyed state of a strand (R295). -/
def rekey (seed : Dword) (p : BitVec 512) : Dword := jump seed ((pedKey p).setWidth 64 <<< 32)

end Sys2Proof.Machine
end

