-- ==== Sys2Proof/Machine/Fragments.lean ====
section
/-! DEFINITION. The split table: fragments that issue, park and fuse (R40 to R43), serial-wait (R44), which of them a
fault concerns (R339). -/
namespace Sys2Proof.Machine

/-- The entry of a number in the split table. -/
def Gang.entry? (g : Gang) (i : Nat) : Option Entry := (g.table[i]?).join

def Gang.setEntry (g : Gang) (i : Nat) (e : Option Entry) : Gang := { g with table := setAt g.table i e }

/-- Entries in use, with their numbers. -/
def Gang.entries (g : Gang) : List (Nat × Entry) :=
  ((upto 8).zip g.table).filterMap fun p => p.2.map fun e => (p.1, e)

/-- Writes the control of the fragment in issue back to its entry. -/
def Gang.saveFrag (g : Gang) : Gang :=
  match g.frag with
  | some i => match g.entry? i with
      | some e => g.setEntry i (some { e with ctl := g.ctl })
      | none => g
  | none => g

/-- Makes entry i the one in issue. -/
def Gang.loadFrag (g : Gang) (i : Nat) : Gang :=
  match g.saveFrag.entry? i with
  | some e => { g.saveFrag with ctl := e.ctl, frag := some i }
  | none => g

def Gang.split? (g : Gang) (id : Nat) : Option Split := g.splits.find? fun s => s.id == id

/-- Frames from the first up to the handler's, 0 in user mode. -/
def Gang.handlerBase (g : Gang) : Nat :=
  if g.supervisor then g.frames.length - g.frames.findIdx fun f => f.handler else 0

/-- A split whose fragments issue now: while a handler runs, one made in the handler (R339). -/
def Gang.liveSplit (g : Gang) (id : Nat) : Bool :=
  match g.split? id with
  | some sp => decide (g.handlerBase ≤ sp.depth)
  | none => false

/-- The entries that may issue, park and wait: while one fragment runs a handler, the others issue nothing (R339). -/
def Gang.active (g : Gang) : List (Nat × Entry) := g.entries.filter fun p => g.liveSplit p.2.split

/-- Whether a split lies within another, or is it. -/
def Gang.within (g : Gang) : Nat → Nat → Nat → Bool
  | 0, _, _ => false
  | fuel + 1, a, b => a == b || match (g.split? a).bind fun s => s.parent with
      | some p => g.within fuel p b
      | none => false

/-- The outermost split whose fragments take serial turns together with those of a split: turns held by an enclosing
fragment end the climb (R44), and so does the handler in which the split was made. -/
def Gang.serialRoot (g : Gang) : Nat → Nat → Nat
  | 0, a => a
  | fuel + 1, a => match g.split? a with
      | some s => if s.turn then a else match s.parent with
          | some p => if g.liveSplit p then g.serialRoot fuel p else a
          | none => a
      | none => a

/-- An entry that does not stand in the way of a serial turn: parked, in serial-wait, or waiting for entries (R44,
R50). -/
def Entry.still (e : Entry) : Bool :=
  e.st == .parked || e.ctl.wait == .serial || e.ctl.wait == .entries || e.st == .held

/-- The fragment in issue may run an instruction of R44, R130, R166 or R226: it holds its turn, or every other
fragment is still and none in serial-wait has a lower lane. A handler does not wait for the fragments outside it: they
issue nothing. -/
def Gang.serialTurn (g : Gang) : Bool :=
  match g.frag with
  | none => true
  | some i => g.ctl.turn || match g.entry? i with
      | none => true
      | some me => !g.liveSplit me.split ||
        let root := g.serialRoot 8 me.split
        let rivals := g.entries.filter fun p => p.1 != i && g.within 8 p.2.split root
        rivals.all (fun p => p.2.still) &&
          rivals.all fun p => p.2.ctl.wait != .serial || lowestLane g.ctl.mask < lowestLane p.2.ctl.mask

/-- Fuses a split whose fragments have all parked, and the enclosing ones that this parks (R43). A fragment that has split again
has not parked: while a nested split is in force, its own does not fuse. The fragment that a nested split fuses to has the age of
the one that split: the model's choice, R43 gives it none (log 84). -/
def Gang.fuse : Nat → Gang → Nat → Gang
  | 0, g, _ => g
  | fuel + 1, g, id =>
    match g.split? id with
    | none => g
    | some sp =>
      let mem := g.entries.filter fun p => p.2.split == id
      if mem.all (fun p => p.2.st == .parked) && g.splits.all (fun s => s.parent != some id) then
        match mem with
        | [] => g
        | (lo, e0) :: _ =>
          let mask := mem.foldl (fun m p => m ||| p.2.ctl.mask) 0#128
          let marks := mem.foldl (fun l p => l ++ p.2.ctl.marks) []
          let ctl : Ctl := { pc := sp.join, mask := mask, wait := .ready, marks := marks, redo := none, turn := sp.turn }
          let g := mem.foldl (fun g p => g.setEntry p.1 none) g
          let g := { g with splits := g.splits.filter fun s => s.id != id }
          match sp.parent.bind g.split? with
          | none => { g with ctl := ctl, frag := none, splits := [], table := List.replicate 8 none }
          | some up =>
            let parks := g.liveSplit up.id && up.join == sp.join
            let e : Entry :=
              { e0 with
                ctl := { ctl with turn := ctl.turn && !parks }
                join := up.join
                st := if parks then .parked else .run
                seq := sp.outerSeq
                level := up.level
                split := up.id
                origin := up.origin }
            let g := { g.setEntry lo (some e) with ctl := e.ctl, frag := some lo }
            if parks then Gang.fuse fuel g up.id else g
      else g

/-- Parks the fragment in issue when its next instruction is the join address of its own split (R43); the fragment that
runs a handler has its own control there and does not park in it. -/
def Gang.settle (g : Gang) : Gang :=
  match g.frag with
  | none => g
  | some i =>
    match g.entry? i with
    | none => g
    | some e =>
      if g.liveSplit e.split && g.ctl.pc == e.join then
        let e := { e with ctl := { g.ctl with wait := .ready, turn := false }, st := .parked }
        Gang.fuse 8 { g.setEntry i (some e) with ctl := e.ctl } e.split
      else g.setEntry i (some { e with ctl := g.ctl, st := .run })

/-- The fragment in issue runs: its entry holds the gang's control. -/
def Gang.running (g : Gang) : Gang :=
  match g.frag.bind fun i => (g.entry? i).map fun e => (i, e) with
  | some (i, e) => g.setEntry i (some { e with ctl := g.ctl, st := .run })
  | none => g

/-- The split of the fragment in issue was made in one of the top k frames (R44). -/
def Gang.splitInTop (g : Gang) (k : Nat) : Bool :=
  match ((g.frag.bind g.entry?).bind fun e => g.split? e.split) with
  | some sp => decide (g.frames.length < sp.depth + k)
  | none => false

/-- How long ago an entry was created, by the wrapping seq (R40). -/
def Gang.ageOf (g : Gang) (e : Entry) : Nat := (g.nextSeq - e.seq).toNat

/-- The oldest-created of some entries. -/
def Gang.oldest (g : Gang) : List (Nat × Entry) → Option (Nat × Entry)
  | [] => none
  | p :: r => match g.oldest r with
      | some q => if g.ageOf q.2 ≤ g.ageOf p.2 then some p else some q
      | none => some p

/-- The fragment that takes a delivered fault (R339): the oldest-created that holds a lane of it, else the oldest. -/
def Gang.faultFrag (g : Gang) (mask : Mask) : Gang :=
  if g.supervisor then g
  else match g.frag with
    | none => g
    | some _ =>
      let g := g.saveFrag
      let hit := g.entries.filter fun p => p.2.ctl.mask &&& mask != 0#128
      match g.oldest (if hit.isEmpty then g.entries else hit) with
      | some p => g.loadFrag p.1
      | none => g

end Sys2Proof.Machine
end

