-- ==== Sys2Proof/Machine/Rows.lean ====
section
/-! DEFINITION. What a unit can end in besides its effect, the fault codes (R334), and the frame allocator:
rows, compact store, quotas, waiters (R55, R58 to R64). -/
namespace Sys2Proof.Machine

/-! ## Fault codes (R334) -/

def codeIllegal : BitVec 8 := 0x01
def codePriv : BitVec 8 := 0x02
def codeHazard : BitVec 8 := 0x03
def codeNotUnif : BitVec 8 := 0x04
def codeFrameReg : BitVec 8 := 0x05
def codeFrameDem : BitVec 8 := 0x06
def codeJtRange : BitVec 8 := 0x07
def codeSpawnArg : BitVec 8 := 0x08
def codePedRank : BitVec 8 := 0x09
def codeRange : BitVec 8 := 0x0A
def codePage : BitVec 8 := 0x0B
def codePerm : BitVec 8 := 0x0C
def codeAlign : BitVec 8 := 0x0D
def codeOpRange : BitVec 8 := 0x0E
def codeMmaMatch : BitVec 8 := 0x0F
def codeFmtBad : BitVec 8 := 0x10
def codeFmtEmpty : BitVec 8 := 0x11
def codeFpx : BitVec 8 := 0x12
def codeSnan : BitVec 8 := 0x13
def codeRace : BitVec 8 := 0x14
def codeNonDet : BitVec 8 := 0x15
def codeQuota : BitVec 8 := 0x16
def codeMbox : BitVec 8 := 0x17
def codeUnwind : BitVec 8 := 0x18

/-- Why a unit has no effect: a precise fault of the gang alone, with `$TMASK` its execution mask (R335); a fault with
its own record (a fetch PAGE, a `trap`); a fault that every listed gang takes at its unit (R24); a wait. -/
inductive Stop where
  | fault (code : BitVec 8)
  | faultWith (f : PendFault) (resumeHere : Bool)
  | collective (code : BitVec 8) (ids : List GangId)
  | wait (w : Wait)
  deriving DecidableEq, Repr

/-- A part of a unit: its value, or why the unit stops. -/
abbrev Try (α : Type) := Except Stop α

/-- A precise fault unless the test holds. -/
def check (ok : Bool) (code : BitVec 8) : Try Unit := if ok then .ok () else .error (.fault code)

/-- A wait unless the test holds. -/
def await (ok : Bool) : Try Unit := if ok then .ok () else .error (.wait .retry)

/-! ## What is held (R58, R66) -/

/-- Whether a register holds a row. -/
def Reg.isG (r : Reg) : Bool := match r.val with | .g _ => true | _ => false

/-- G registers of a frame. -/
def Frame.grows (f : Frame) : Nat := (f.regs.filter Reg.isG).length

/-- Rows of a frame: its G registers and its unused reserved rows. -/
def Frame.rows (f : Frame) : Nat := f.grows + f.spare

/-- Compact store of a frame (R60). -/
def Frame.compact (f : Frame) : Nat := 64 + 8 * demandRegs f.nf

/-- Rows of a gang's frames. -/
def Gang.frameRows (g : Gang) : Nat := g.frames.foldl (fun n f => n + f.rows) 0

/-- Compact store of a gang's frames. -/
def Gang.frameCompact (g : Gang) : Nat := g.frames.foldl (fun n f => n + f.compact) 0

/-- The gang's frames are not in the register file: they wait for their task's start, or are in memory (R60, R63, R327). -/
def Gang.outside (g : Gang) : Bool := g.spilled || g.away || match g.ctl.wait with
  | .taskFrame _ _ _ => true
  | _ => false

/-- Rows a gang has from the core, a grant not yet used among them. -/
def Gang.heldRows (g : Gang) : Nat := (if g.outside then 0 else g.frameRows) + g.grantRows

/-- Compact store a gang has from the core. -/
def Gang.heldCompact (g : Gang) : Nat := (if g.outside then 0 else g.frameCompact) + g.grantCompact

/-- Rows a gang holds that count against its quota (R58, R63, R331): those it has lent too, not those of an emergency
grant. -/
def Gang.held (g : Gang) : Nat := g.heldRows + g.lent - g.emergRows

/-- Rows held by a role of a crew (R58). -/
def State.roleHeld (s : State) (ctx crew role : Nat) : Nat :=
  ((s.crewGangs ctx crew).filter fun g => s.roleOf g == role).foldl (fun n g => n + g.held) 0

/-- Quota of a role of a crew in rows (R58). -/
def State.quotaRows (s : State) (g : Gang) : Nat := 8 * (s.crewOf g).quota.getD (s.roleOf g) 0

/-- A role has headroom for n more rows. -/
def State.headroom (s : State) (g : Gang) (n : Nat) : Bool :=
  s.roleHeld g.id.ctx g.id.crew (s.roleOf g) + n ≤ s.quotaRows g

/-- Rows, compact store and age of the request that a control waits with. -/
def Ctl.request (c : Ctl) : Option (Nat × Nat × Nat) :=
  match c.wait with
  | .rows r c t => some (r, c, t)
  | .taskFrame r c t => some (r, c, t)
  | _ => none

/-- The outstanding request of a gang, in whichever fragment. -/
def Gang.request (g : Gang) : Option (Nat × Nat × Nat) :=
  match g.ctl.request with
  | some r => some r
  | none => (g.active.filterMap fun p => if some p.1 = g.frag then none else p.2.ctl.request).head?

/-! ## The replay queue (R261) and halts (R326) -/

/-- It is held in the replay queue, in some lane (R261). -/
def Flight.held (f : Flight) : Bool := f.lanes.any fun l => l.st == .queued

/-- Entries of a gang's replay queue: accesses with held lanes, engine operations with rows left. -/
def State.queueEntries (s : State) (g : Gang) : Nat :=
  (g.flights.filter Flight.held).length +
    s.cores.foldl (fun n c => n + (c.copies.filter fun p => p.gang == g.id && p.queued).length +
      (c.mats.filter fun m => m.issuers.contains g.id && m.queued).length) 0

/-- The device of a gang's context is quarantined (R364, R369). -/
def State.isolated (s : State) (g : Gang) : Bool := s.quarantined.any fun q => q.dev == (s.ctx g.id.ctx).dev

/-- A gang halts at its next boundary: a capture, a pre-emption or a quarantine asks it to (R326, R349, R364). -/
def State.halts (s : State) (g : Gang) : Bool := g.halted || (s.coreOf g).preempt.isSome || s.isolated g

/-- A gang issues: nothing halts it, or it runs on until its replay queue is empty (R326, R349). -/
def State.mayRun (s : State) (g : Gang) : Bool := !s.halts g || (s.queueEntries g != 0 && !s.isolated g)

/-- Rows a gang waits to have back after lending them (R331). -/
def Gang.owedRows (g : Gang) : Nat := if g.owed.isSome then g.lent else 0

/-- Compact store of a frame demand (R60). -/
def demandCompact (nf : BitVec 4) : Nat := 64 + 8 * demandRegs nf

/-- The handler frame that a gang waits for (R63): it comes before whatever else the gang waits for. -/
def Gang.entryAsk (g : Gang) : Option (Nat × Nat × Nat) :=
  g.entering.map fun e => (demandRows e.handler.gf, demandCompact e.handler.nf, e.since)

/-- What a gang that is not spilled waits for: a handler frame, or its request, its lent rows, or both. -/
def Gang.wants (g : Gang) : Option (Nat × Nat × Nat) :=
  match g.entryAsk, g.request, g.owed with
  | some x, _, _ => some x
  | none, some (r, c, t), some u => some (r + g.lent, c, min t u)
  | none, some x, none => some x
  | none, none, some u => some (g.lent, 0, u)
  | none, none, none => none

/-- Gangs on a core, present (their context resident). -/
def State.coreGangs (s : State) (core : Nat) : List Gang := s.gangs.filter fun g => (s.crewOf g).core == core && !g.away

/-- What the allocator owes a gang: rows, compact store, age. A spilled gang asks for its frames and its request, with the
age of the request, or without one that of its spill (R61, R63); a gang that is halted or stopped asks for nothing. -/
def State.asks (s : State) (g : Gang) : Option (Nat × Nat × Nat) :=
  if !s.mayRun g || (s.crewOf g).stopped then none
  else if g.spilled then
    let r := g.wants.getD (0, 0, g.savedAt)
    some (g.frameRows + r.1, g.frameCompact + r.2.1, r.2.2)
  else g.wants

/-- The role of a gang has headroom for what the allocator owes the gang: rows it has lent count in its holding
already, a handler frame is outside its quota (R58, R63). -/
def State.roomFor (s : State) (g : Gang) (rows : Nat) : Bool :=
  match g.entryAsk with
  | some (r, _, _) => !g.spilled || s.headroom g (rows - r)
  | none => s.headroom g (rows - g.owedRows)

/-- Which waiters come first: those for a handler frame, then spilled gangs, then the others (R61, R63). -/
def Gang.waitClass (g : Gang) : Nat := if g.entering.isSome then 0 else if g.spilled then 1 else 2

/-- Whether some waiter of the core with headroom, other than the gang, stands before it (R61). -/
def State.bypasses (s : State) (g : Gang) (since : Nat) : Bool :=
  (s.coreGangs (s.crewOf g).core).any fun h => h.id != g.id && match s.asks h with
    | some (r, _, t) => s.roomFor h r && (decide (h.waitClass < g.waitClass) || h.waitClass == g.waitClass && decide (t < since))
    | none => false

/-- Rows returned: first the reserve up to 32, then the pool (R59). -/
def CoreSt.giveRows (c : CoreSt) (n : Nat) : CoreSt :=
  let up := min n (Config.reserveRows - c.reserve)
  { c with reserve := c.reserve + up, pool := c.pool + (n - up) }

/-- Compact store returned in the same way (R59). -/
def CoreSt.giveCompact (c : CoreSt) (n : Nat) : CoreSt :=
  let up := min n (Config.reserveCompact - c.reserveC)
  { c with reserveC := c.reserveC + up, poolC := c.poolC + (n - up) }

/-- Releases rows and compact store of a gang, first against what it holds from the emergency reserve (R59, R63); rows
released cancel the choice of a gang to spill. -/
def State.release (s : State) (id : GangId) (rows compact : Nat) : State :=
  if rows = 0 ∧ compact = 0 then s
  else match s.gang? id with
    | none => s
    | some g =>
      let s := s.setGang { g with emergRows := g.emergRows - rows, emergCompact := g.emergCompact - compact }
      let core := (s.crewOf g).core
      let s := if rows = 0 then s
        else s.mapGangs fun h => if h.chosen && (s.crewOf h).core == core then { h with chosen := false } else h
      s.modCore (s.crewOf g).core fun c => (c.giveRows rows).giveCompact compact

/-- Draws rows and compact store for the unit in issue (R55, R60, R61): from a grant made for it, else from the pool;
QUOTA when the gang's own holding could never admit it (R58). -/
def State.draw (s : State) (rows compact : Nat) : Try State :=
  if rows = 0 ∧ compact = 0 then .ok s
  else
    let g := s.cur
    let c := s.coreOf g
    if g.grantMade ∧ rows ≤ g.grantRows ∧ compact ≤ g.grantCompact then
      let s := s.modCur fun g => { g with grantMade := false, grantRows := 0, grantCompact := 0 }
      .ok (s.release g.id (g.grantRows - rows) (g.grantCompact - compact))
    else if s.quotaRows g < g.held + rows then .error (.fault codeQuota)
    else if rows ≤ c.pool ∧ compact ≤ c.poolC ∧ s.headroom g rows ∧ ¬ s.bypasses g s.tick then
      .ok (s.modCore c.ix fun c => { c with pool := c.pool - rows, poolC := c.poolC - compact })
    else .error (.wait (.rows rows compact s.tick))

end Sys2Proof.Machine
end

