-- ==== Sys2Proof/Machine/Registers.lean ====
section
/-! DEFINITION. Frame registers and masks: the one place that reads and writes them, with shape tags, promotion and
rows (R51 to R56), pending bits (R128, R164) and the special registers by number (R57). -/
namespace Sys2Proof.Machine

/-! ## Values under a shape tag (R52) -/

/-- The value of lane l. -/
def RegVal.lane : RegVal → Nat → Word
  | .u v, _ => v
  | .a b st, l => b + BitVec.ofNat 32 l * st
  | .g row, l => row.getD l 0

/-- Every lane's value. -/
def RegVal.row (v : RegVal) : List Word := lanes.map v.lane

/-- The shape tag (R52). -/
def RegVal.tag : RegVal → BitVec 2
  | .u _ => 0
  | .a _ _ => 1
  | .g _ => 2

def RegVal.isU : RegVal → Bool
  | .u _ => true
  | _ => false

def RegVal.isG : RegVal → Bool
  | .g _ => true
  | _ => false

/-- A general value from a function of the lane. -/
def RegVal.ofFn (f : Nat → Word) : RegVal := .g (lanes.map f)

/-- A register that nothing has written in a new frame: U with value 0 (R60). -/
def zeroReg : Reg := { val := .u 0, pend := none }

/-- A register of the top frame, U 0 if the frame has none. -/
def Gang.reg (g : Gang) (r : Nat) : Reg := (g.regs)[r]?.getD zeroReg

/-- The contents of a register of the top frame. -/
def Gang.val (g : Gang) (r : Nat) : RegVal := (g.reg r).val

/-- The value of lane l of register r. -/
def Gang.lane (g : Gang) (r l : Nat) : Word := (g.val r).lane l

/-- The 64-bit value of lane l of a pair (R9). -/
def Gang.pair (g : Gang) (r l : Nat) : Dword := pairOf (g.lane r l) (g.lane (r + 1) l)

/-! ## Masks (R16, R56) -/

/-- m0 reads as all ones. -/
def Gang.mask (g : Gang) (m : Nat) : Mask :=
  match m with
  | 0 => allLanes
  | k + 1 => g.masks.getD k 0

/-- Writes the bits of the lanes of act; m0 is never a destination. -/
def Gang.setMask (g : Gang) (m : Nat) (act v : Mask) : Gang :=
  match m with
  | 0 => g
  | k + 1 =>
    { g with masks := (upto 7).map fun i => if i = k then (g.masks.getD k 0 &&& ~~~act) ||| (v &&& act) else g.masks.getD i 0 }

/-- The guard field of `$MODE` (R68). -/
def Gang.guard (g : Gang) : Nat := (g.mode.extractLsb' 23 3).toNat

/-- The execution mask ANDed with the guard mask (R16); a unit that `rte` executes again acts on the lanes the handler
left, without the guard (R141). -/
def Gang.act (g : Gang) : Mask :=
  match g.ctl.redo with
  | some r => r.act &&& g.ctl.mask
  | none => g.ctl.mask &&& g.mask g.guard

/-! ## Checks at issue (R51, R128, R164) -/

/-- FRAMEREG when a named register lies at or above n (R51). -/
def Gang.checkRegs (g : Gang) (rs : List Nat) : Try Unit := check (rs.all fun r => r < g.regs.length) codeFrameReg

/-- NOTUNIF when an operand marked uniform is not U (R128). -/
def Gang.checkUniform (g : Gang) (rs : List Nat) : Try Unit := check (rs.all fun r => (g.val r).isU) codeNotUnif

/-- HAZARD when a register read is pending (R128). -/
def Gang.checkReady (g : Gang) (rs : List Nat) : Try Unit := check (rs.all fun r => (g.reg r).pend.isNone) codeHazard

/-- An instruction whose destination is pending waits for that result (R164). -/
def Gang.awaitDest (g : Gang) (rs : List Nat) : Try Unit := await (rs.all fun r => (g.reg r).pend.isNone)

/-! ## Writes (R53 to R55) -/

/-- The contents after a write of v in the lanes of act: v's own tag when every lane is covered, G otherwise. -/
def mergeVal (old v : RegVal) (act : Mask) : RegVal :=
  if act = allLanes then v else .ofFn fun l => if inMask act l then v.lane l else old.lane l

/-- The write needs a row: the destination becomes G and holds none. -/
def Gang.needsRow (g : Gang) (r : Nat) (v : RegVal) (act : Mask) : Bool :=
  !(g.val r).isG && (v.isG || act != allLanes)

/-- The write releases a row: the destination was G and becomes U or A. -/
def Gang.freesRow (g : Gang) (r : Nat) (v : RegVal) (act : Mask) : Bool :=
  (g.val r).isG && !v.isG && act == allLanes

/-- Stores contents in registers of the top frame, pending bits untouched. -/
def Gang.putRegs (g : Gang) (ws : List (Nat × RegVal)) : Gang :=
  g.modTop fun f => { f with regs := ws.foldl (fun rs w =>
    setAt rs w.1 { (rs[w.1]?.getD zeroReg) with val := w.2 }) f.regs }

/-- Draws n rows for destinations: unused reserved rows of the frame first, then the pool (R55). -/
def State.drawForFrame (s : State) (n : Nat) : Try State :=
  let spare := (s.cur.frames.head?.map Frame.spare).getD 0
  let own := min n spare
  match s.draw (n - own) 0 with
  | .error e => .error e
  | .ok s => .ok (if own = 0 then s else s.modCur fun g => g.modTop fun f => { f with spare := f.spare - own })

/-- One write: register, result, the lanes it covers (R54), the lanes written (R82). -/
structure RegWrite where
  reg : Nat
  val : RegVal
  act : Mask
  eff : Mask
  deriving DecidableEq, Repr

/-- The gang after a write, with the rows it needs and frees so far. -/
def Gang.applyWrite (r : Gang × Nat × Nat) (w : RegWrite) : Gang × Nat × Nat :=
  if w.act = 0 then r
  else
    (r.1.putRegs [(w.reg, mergeVal (r.1.val w.reg) w.val w.eff)],
      r.2.1 + (if r.1.needsRow w.reg w.val w.act then 1 else 0),
      r.2.2 + (if r.1.freesRow w.reg w.val w.act then 1 else 0))

/-- The gang after several writes, with the rows they need and free. -/
def Gang.applyWrites (g : Gang) (ws : List RegWrite) : Gang × Nat × Nat := ws.foldl Gang.applyWrite (g, 0, 0)

/-- Writes registers of the gang in issue: rows are drawn and released for the whole unit (R54, R55, R164). -/
def State.writeEach (s : State) (ws : List RegWrite) : Try State :=
  let r := s.cur.applyWrites ws
  match s.drawForFrame r.2.1 with
  | .error e => .error e
  | .ok s => .ok ((s.modCur fun g => (g.applyWrites ws).1).release s.cur.id r.2.2 0)

/-- Writes registers for a result that covers act and is written in the lanes of eff. -/
def State.writeLanes (s : State) (act eff : Mask) (ws : List (Nat × RegVal)) : Try State :=
  s.writeEach (ws.map fun w => { reg := w.1, val := w.2, act := act, eff := eff })

/-- Writes registers in the lanes of act. -/
def State.writeRegs (s : State) (act : Mask) (ws : List (Nat × RegVal)) : Try State := s.writeLanes act act ws

/-- Makes destinations pending on an operation, each a G register with its row drawn (R55, R225). -/
def State.pendRegs (s : State) (op : Nat) (rs : List Nat) : Try State :=
  let g := s.cur
  let needs := (rs.filter fun r => !(g.val r).isG).length
  match s.drawForFrame needs with
  | .error e => .error e
  | .ok s =>
    let mark (l : List Reg) (p : Nat × Nat) : List Reg :=
      setAt l p.2 { val := .g ((l[p.2]?.getD zeroReg).val.row), pend := some ⟨op, p.1⟩ }
    .ok (s.modCur fun g => g.modTop fun f => { f with regs := ((upto rs.length).zip rs).foldl mark f.regs })

/-- Applies f to every register that is pending on an operation, in any frame (R60: the pending bit moves with the
register). -/
def Gang.mapPending (g : Gang) (op : Nat) (f : Nat → Reg → Reg) : Gang :=
  { g with frames := g.frames.map fun fr => { fr with regs := fr.regs.map fun r =>
      match r.pend with
      | some p => if p.op = op then f p.ix r else r
      | none => r } }

/-- Writes lanes of destination ix of an operation; the register is already G. -/
def Gang.landLanes (g : Gang) (op ix : Nat) (vals : List (Nat × Word)) : Gang :=
  g.mapPending op fun i r => if i = ix then
    { r with val := .g (vals.foldl (fun row p => setAt row p.1 p.2) r.val.row) } else r

/-- Clears the pending bits of an operation. -/
def Gang.landed (g : Gang) (op : Nat) : Gang := g.mapPending op fun _ r => { r with pend := none }

/-- Whether some register of a list is pending, other than on a receive. -/
def Gang.isRecv (g : Gang) (op : Nat) : Bool := g.recvs.any fun r => r.op == op

/-! ## Special registers (R57, R195, R196) -/

/-- A field of the mode word (R68). -/
def Gang.fmtIx (g : Gang) : Nat := (g.mode.extractLsb' 0 5).toNat
def Gang.faIx (g : Gang) : Nat := (g.mode.extractLsb' 5 5).toNat
def Gang.fbIx (g : Gang) : Nat := (g.mode.extractLsb' 10 5).toNat
def Gang.fcIx (g : Gang) : Nat := (g.mode.extractLsb' 15 5).toNat
def Gang.rnd (g : Gang) : BitVec 3 := g.mode.extractLsb' 20 3

/-- Number of in-flight units on a path: the counter falls in order (R225). -/
def Gang.pathCount (g : Gang) (path : Nat) : Nat :=
  ((g.flights.filter fun f => f.path == path).dropWhile fun f => f.finished).length

/-- `$CNT` (R57). -/
def Gang.cnt (g : Gang) : Dword :=
  BitVec.ofNat 64 (g.pathCount 0 % 65536 + 65536 * (g.pathCount 1 % 65536) + 65536 ^ 2 * (g.pathCount 2 % 65536) +
    65536 ^ 3 * (g.pathCount 3 % 65536))

/-- `$PASS` (R57, R349): the pass of the capture in progress, 0 outside one. -/
def State.pass (s : State) (g : Gang) : Nat :=
  match (s.ctx g.id.ctx).capture with
  | some c => c.pass
  | none => 0

/-- `$HWLOC` (R57). -/
def State.hwloc (s : State) (g : Gang) : Word := BitVec.ofNat 32 ((s.crewOf g).core % 2048 + 2048 * (s.slotOf g % 16))

/-- `$MODE` with the strict bit of the context (R68). -/
def State.modeWord (s : State) (g : Gang) : Word :=
  (g.mode &&& 0x03FFFFFF#32) ||| (if (s.ctx g.id.ctx).strict then 0x04000000#32 else 0#32)

/-- The value of a special register (R57). `$CREW` is the rank of the crew that runs the task, also for a stolen or resumed one: the
model's choice beside R29 (log 87). -/
def State.special (s : State) (g : Gang) (num : Nat) : BitVec 512 :=
  match num with
  | 0 => BitVec.ofNat 512 Config.width
  | 1 => BitVec.ofNat 512 g.id.rank
  | 2 => BitVec.ofNat 512 (s.roleOf g)
  | 3 => BitVec.ofNat 512 g.id.crew
  | 4 => g.ped
  | 5 => (s.modeWord g).setWidth 512
  | 6 => g.cc.setWidth 512
  | 7 => g.fstat.setWidth 512
  | 8 => g.ftrap.setWidth 512
  | 9 => g.tmask.setWidth 512
  | 10 => g.faultRec.setWidth 512
  | 11 => g.rng.setWidth 512
  | 12 => g.mbatch.setWidth 512
  | 13 => g.cnt.setWidth 512
  | 14 => BitVec.ofNat 512 (s.pass g)
  | 15 => g.sig.setWidth 512
  | 16 => (s.hwloc g).setWidth 512
  | _ => 0

/-- Word w of a special register (R57). -/
def State.specialWord (s : State) (g : Gang) (num w : Nat) : Word := (s.special g num).extractLsb' (32 * w) 32

/-- Replaces word w of a wider register. -/
def setWord {k : Nat} (x : BitVec k) (w : Nat) (v : Word) : BitVec k :=
  (x &&& ~~~(BitVec.ofNat k 0xFFFFFFFF <<< (32 * w))) ||| (v.setWidth k <<< (32 * w))

end Sys2Proof.Machine
end

