-- ==== Sys2Proof/Machine/Translate.lean ====
section
/-! DEFINITION. Virtual to intermediate to physical addresses (R255 to R259), instruction fetch (R111). -/
namespace Sys2Proof.Machine

def permR : BitVec 5 := 1
def permW : BitVec 5 := 2
def permX : BitVec 5 := 4
def permTrack : BitVec 5 := 8
def permDet : BitVec 5 := 16

/-- A permission set holds what is needed. -/
def permits (perm need : BitVec 5) : Bool := perm &&& need == need

/-- Whether a valid range covers an address. -/
def Range.covers (r : Range) (va : Nat) : Bool := r.len != 0 && decide (r.base ≤ va) && decide (va < r.base + r.len)

/-- The valid range that covers a virtual address; RANGE when there is none or bits 63:57 are set. -/
def Context.rangeOf (c : Context) (va : Dword) : Except (BitVec 8) Range :=
  if va.toNat < 2 ^ 57 then
    match c.ranges.find? fun r => r.covers va.toNat with
    | some r => .ok r
    | none => .error codeRange
  else .error codeRange

/-- `translate` of R255: the intermediate address and the range. -/
def Context.translate (c : Context) (va : Dword) (need : BitVec 5) : Except (BitVec 8) (Nat × Range) :=
  match c.rangeOf va with
  | .error e => .error e
  | .ok r => if permits r.perm need then .ok (r.ibase + (va.toNat - r.base), r) else .error codePerm

/-- A mapping that the translating spoke of an address holds for it (R257, R259). -/
def PageMap.serves (m : PageMap) (ia : Nat) : Bool :=
  decide (m.ia ≤ ia) && decide (ia < m.ia + m.size) && !m.gone.contains (translatingSpoke ia)

/-- The physical address an intermediate address maps to: the valid mapping created first (R257). -/
def Context.physical (c : Context) (ia : Nat) : Option Nat :=
  (c.maps.find? fun m => m.serves ia).map fun m => m.pa + (ia - m.ia)

/-- The intermediate addresses of a context that map to a physical address. -/
def Context.aliases (c : Context) (pa : Nat) : List Nat :=
  c.maps.filterMap fun m =>
    if m.pa ≤ pa ∧ pa < m.pa + m.size ∧ c.physical (m.ia + (pa - m.pa)) = some pa then some (m.ia + (pa - m.pa)) else none

/-- The 4 KiB page of an address. -/
def pageBase (a : Nat) : Nat := a / 4096 * 4096

/-- A precise fault of the unit at an address (kind 0, R336). -/
def unitFault (code : BitVec 8) (mask : Mask) (pc : Pc) (lim : Bool) : PendFault :=
  { code := code, mask := mask, kind := 0, addr := pc.setWidth 64, lim := lim, count := 0, place := 0, order := 0 }

/-- A PAGE of a fetch, a table word or a round: kind 2, count 0, the intermediate page (R336). L says that the unit is a
`lim` pair; a first word that is not mapped does not tell, and L is 0 then (R111, R336, log 17). -/
def pageFault (mask : Mask) (ia : Nat) (lim : Bool) : PendFault :=
  { code := codePage, mask := mask, kind := 2, addr := BitVec.ofNat 64 (pageBase ia), lim := lim, count := 0, place := 0,
    order := 0, own := true }

/-- Fetches the word at a PC as a read with X permission (R111). A word stored since the last `rrset` on its range may be
fetched old or new; the model fetches the new form (log 64). -/
def State.fetchWord (s : State) (g : Gang) (pc unit : Pc) (lim : Bool) : Try Word :=
  let c := s.ctx g.id.ctx
  match c.translate (pc.setWidth 64) (permR ||| permX) with
  | .error e => .error (.faultWith (unitFault e g.ctl.mask unit lim) false)
  | .ok (ia, _) =>
    match c.physical ia with
    | none => .error (.faultWith (pageFault g.ctl.mask ia lim) true)
    | some pa => .ok (BitVec.ofNat 32 (Memory.readNat s.mem pa 4))

end Sys2Proof.Machine
end

