-- ==== Sys2Proof/Machine/Images.lean ====
section
/-! DEFINITION. The task area (R27) and the bytes of what is saved there: task records (R25), frame headers and images
(R66), gang images (R69, R70), context save images (R327). Their bytes go to memory, and are held with their context as well;
where in the area an item lies is the model's choice (log 9). -/
namespace Sys2Proof.Machine

/-! ## Space (R27) -/

/-- Charges the task area; QUOTA when it is exhausted (R27). -/
def State.charge (s : State) (ctx n : Nat) : Try State :=
  let c := s.ctx ctx
  match check (decide (c.taskUsed + n ≤ c.taskSize)) codeQuota with
  | .error e => .error e
  | .ok _ => .ok (s.setCtx { c with taskUsed := c.taskUsed + n })

/-- Charges the task area for what no instruction asks for (an escape spill, a context save): the image is made whether
or not the area has room left (R63, R327, log 59). -/
def State.chargeAnyway (s : State) (ctx n : Nat) : State := s.modCtx ctx fun c => { c with taskUsed := c.taskUsed + n }

/-- Returns space of the task area. -/
def State.refund (s : State) (ctx n : Nat) : State := s.modCtx ctx fun c => { c with taskUsed := c.taskUsed - n }

/-- Places in use in a task area with their sizes: join records and images. -/
def Context.areaUsed (c : Context) : List (Nat × Nat) := c.joins.map (fun j => (j.addr, 64)) ++ c.images.map fun i => (i.addr, i.size)

/-- The lowest place of the task area at which n bytes meet no item: its start, or the end of an item (log 9). -/
def Context.freshAddr (c : Context) (n : Nat) : Nat :=
  let used := c.areaUsed
  let free (a : Nat) : Bool := used.all fun p => decide (a + n ≤ p.1) || decide (p.1 + p.2 ≤ a)
  let ends := sortBy (fun a b => decide (a < b)) (used.map fun p => p.1 + roundUp p.2 64)
  ((c.taskBase :: ends).find? free).getD c.taskBase

/-- Keeps an image in the task area. -/
def Context.keep (c : Context) (use : AreaUse) (addr size : Nat) (bytes : List Host.Cell) : Context :=
  { c with images := c.images ++ [{ use := use, addr := addr, size := size, bytes := bytes }] }

/-- Releases an image. -/
def Context.discard (c : Context) (use : AreaUse) : Context := { c with images := c.images.filter fun i => i.use != use }

/-- The size of an image kept for a use. -/
def Context.imageSize (c : Context) (use : AreaUse) : Nat :=
  ((c.images.find? fun i => i.use == use).map fun i => i.size).getD 0

/-! ## Bytes -/

/-- Zero bytes. -/
def zeros (n : Nat) : List Byte := List.replicate n 0

/-- A list of bytes padded with zeros to a multiple of k. -/
def padTo (k : Nat) (l : List Byte) : List Byte := l ++ zeros (roundUp l.length k - l.length)

/-- A register in an image (R66): 4 B for U, 8 B for A, 512 B for G, lane 0 first. -/
def RegVal.image : RegVal → List Byte
  | .u v => leBytes 4 v.toNat
  | .a b st => leBytes 4 b.toNat ++ leBytes 4 st.toNat
  | .g row => lanes.flatMap fun l => leBytes 4 (row.getD l 0).toNat

/-- Bytes of a register in an image (R66). -/
def Reg.imageBytes (r : Reg) : Nat :=
  match r.val with
  | .u _ => 4
  | .a _ _ => 8
  | .g _ => 512

/-- The frames of a gang with all their registers, top frame first: a caller's window lies in its callee (R60, R66). -/
def wholeFrames : List Frame → List Reg → Bool → List (Frame × List Reg)
  | [], _, _ => []
  | f :: rest, win, shares =>
    let regs := f.regs ++ (if shares then win else [])
    (f, regs) :: wholeFrames rest (regs.take 8) (!f.flattened)

/-- Size of a frame image (R66). -/
def frameSize (regs : List Reg) : Nat := roundUp (64 + regs.foldl (fun n r => n + r.imageBytes) 0) 64

/-- Bytes of the frame images, top frame first. -/
def framesBytes (fs : List Frame) : Nat := (wholeFrames fs [] false).foldl (fun n p => n + frameSize p.2) 0

/-- The tags of the registers, two bits each, v0 lowest; a register that the frame does not have is 0b11 (R52, R66). -/
def tagBytes (regs : List Reg) : List Byte :=
  leBytes 32 ((regs.foldr (fun r n => r.val.tag.toNat + 4 * n) (2 ^ 256 - 1)) % 2 ^ 256)

/-- Header flags (R66). -/
def Frame.flags (f : Frame) : Nat :=
  (if f.marked then 1 else 0) + (if f.flattened then 2 else 0) + (if f.handler then 4 else 0) + if f.splitMade then 8 else 0

/-- A frame header (R66). -/
def frameHeader (link : Nat) (f : Frame) (regs : List Reg) : List Byte :=
  leBytes 8 f.ret.toNat ++ leBytes 8 link ++ leBytes 2 (f.nf.toNat + 16 * f.gf.toNat) ++ leBytes 2 f.flags ++
    leBytes 2 (regs.filter Reg.isG).length ++ leBytes 2 f.spare ++ leBytes 8 (frameSize regs) ++ tagBytes regs

/-- A frame image (R66). -/
def frameImage (link : Nat) (f : Frame) (regs : List Reg) : List Byte :=
  padTo 64 (frameHeader link f regs ++ regs.flatMap fun r => r.val.image)

/-- Frame images from the first frame up; each links to the header of its caller (R66). -/
def frameImages : Nat → Nat → List (Frame × List Reg) → List Byte
  | _, _, [] => []
  | at_, link, p :: rest => frameImage link p.1 p.2 ++ frameImages (at_ + frameSize p.2) at_ rest

/-- A split-table entry in an image (R69). -/
def entryImage : Option Entry → List Byte
  | none => zeros 48
  | some e =>
    let st : Nat := match e.st with
      | .run => if e.ctl.wait == .serial then 2 else 0
      | .parked => 1
      | .serial => 2
      | .held => 3
    leBytes 16 e.ctl.mask.toNat ++ leBytes 8 e.ctl.pc.toNat ++ leBytes 8 e.join.toNat ++
      [BitVec.ofNat 8 st, e.seq, e.level.setWidth 8] ++ zeros 13

/-- A gang with the destinations of its receives as they were before (R70). -/
def Gang.beforeRecv (g : Gang) : Gang :=
  g.recvs.foldl (fun g r => g.mapPending r.op fun ix x => { x with val := r.old.getD ix x.val }) g

/-- The receives of a gang that comes back from its image are registered again with their saved ages (R70, R329). -/
def Gang.agedTo (g : Gang) (now : Nat) : Gang :=
  { g with recvs := g.recvs.map fun r => { r with since := r.since + (now - g.savedAt) } }

/-- A receive record (R70, R327): age, then queue, first destination, valid, frame number. Of several outstanding receives the
image has room for one: the model's choice is the oldest, while a restore registers all of them again (log 70). -/
def recvRecord (now : Nat) : List Receive → List Byte
  | [] => zeros 16
  | r :: _ =>
    leBytes 8 (now - r.since) ++
      leBytes 4 (r.grove % 65536 + 65536 * r.first.toNat + 2 ^ 23 + 2 ^ 24 * (r.frameNo % 256)) ++ zeros 4

/-- Size of a gang image (R69). -/
def Gang.imageBytes (g : Gang) : Nat := 0x140 + (if g.frag.isSome then 384 else 0) + framesBytes g.beforeRecv.frames

/-- What a gang image takes of the task area (R27, R69). -/
def Gang.areaBytes (g : Gang) : Nat := roundUp g.imageBytes 64

/-- A gang image (R69); a context save keeps receive records elsewhere (R70, R327). -/
def State.gangImage (s : State) (g : Gang) (withRecv : Bool) : List Byte :=
  let g := g.beforeRecv.saveFrag
  let whole := (wholeFrames g.frames [] false).reverse
  let used := (g.table.filter Option.isSome).length
  let start := 0x140 + if g.frag.isSome then 384 else 0
  leBytes 64 g.ped.toNat ++ leBytes 16 (if g.frag.isSome then 0 else g.ctl.mask.toNat) ++
    (upto 7).flatMap (fun i => leBytes 16 (g.masks.getD i 0).toNat) ++ leBytes 8 g.rng.toNat ++ leBytes 8 g.sig.toNat ++
    leBytes 8 g.cnt.toNat ++ leBytes 4 (s.modeWord g).toNat ++ leBytes 4 g.cc.toNat ++ leBytes 4 g.fstat.toNat ++
    leBytes 4 g.ftrap.toNat ++ leBytes 4 g.mbatch.toNat ++ leBytes 2 whole.length ++ leBytes 1 used ++ zeros 1 ++
    leBytes 16 g.tmask.toNat ++ leBytes 16 g.faultRec.toNat ++
    (if withRecv then recvRecord s.tick g.recvs else zeros 16) ++ zeros 32 ++
    (if g.frag.isSome then (upto 8).flatMap (fun i => entryImage ((g.table[i]?).join)) else []) ++
    frameImages start (2 ^ 64 - 1) whole

/-- A task record (R25). -/
def Context.recordImage (c : Context) (r : TaskRec) : List Byte :=
  let join := ((r.join.bind c.joinRec?).map fun j => j.addr).getD 0
  leBytes 64 r.ped.toNat ++ leBytes 8 r.entry.toNat ++ leBytes 8 join ++ leBytes 2 (r.nf.toNat + 16 * r.gf.toNat) ++
    leBytes 2 r.segment ++ leBytes 2 r.argmap.toNat ++ leBytes 2 r.flags.toNat ++
    (upto 8).flatMap (fun i => leBytes 4 (r.args.getD i 0).toNat) ++ zeros 8

end Sys2Proof.Machine
end

