-- ==== Sys2Proof/Machine/Ops.lean ====
section
/-! DEFINITION. The operations every unit shares: event counters, retirement and the switch marker (R100, R345), frames
pushed and popped (R60), taking a fault (R338, R339), stopping a crew (R342, R343), and running one unit. -/
namespace Sys2Proof.Machine

/-! ## Counters (R325, R345 to R348) -/

/-- Events that count time, which the model does not keep (R347, log 3). -/
def timedEvents : List Nat := [0, 4, 5, 14, 20]

/-- Counter i of a core counts an event. -/
def CoreSt.counts (c : CoreSt) (event i : Nat) : Bool := c.ctrSel.getD i 0 == BitVec.ofNat 8 event

/-- Adds to the counters of a core that count an event of a context; of a timing event it is noted that time has passed. -/
def State.count (s : State) (core ctx event n : Nat) : State :=
  let c := s.core core
  if c.ctrRun && c.ctrOwner == some ctx && c.resident == some ctx && n != 0 && c.ctrSel.contains (BitVec.ofNat 8 event) then
    if timedEvents.contains event then
      s.setCore { c with ctrRan := (upto 4).foldl (fun m i => if c.counts event i then m ||| (1#4 <<< i) else m) c.ctrRan }
    else
      let bump (p : Nat × BitVec 48) : BitVec 48 := if c.counts event p.1 then p.2 + BitVec.ofNat 48 n else p.2
      s.setCore { c with ctrVal := ((upto 4).zip c.ctrVal).map bump }
  else s

/-- A gang waits for rows or compact store, a halted one too until its wait is given up (R347). -/
def State.rowWait (s : State) (g : Gang) : Bool := !(s.crewOf g).stopped && (g.spilled || g.wants.isSome)

/-- Time passes for an event at a core now (R347): the array executes, a gang waits for rows, or, for cycles resident and cycles
without a unit, always. A return that waits for its slot is noted when it lands. -/
def State.timeRuns (s : State) (k : CoreSt) (ctx event : Nat) : Bool :=
  match event with
  | 5 => false
  | 14 => k.mats.any fun m => m.ctx == ctx && m.started && !m.finished && !m.sent
  | 20 => (s.coreGangs k.ix).any fun g => g.id.ctx == ctx && s.rowWait g
  | _ => true

/-- Brings the counters of timing events up to date: those of a resident owner that run grow by a free value when time has
passed for their event, and the others hold (R345, R347, log 3). -/
def State.syncCounters (s : State) (core free : Nat) : State :=
  s.modCore core fun k =>
    match k.ctrOwner with
    | none => k
    | some ctx =>
      if k.ctrRun && k.resident == some ctx then
        let val (i : Nat) : BitVec 48 :=
          let e := (k.ctrSel.getD i 0).toNat
          let v := k.ctrVal.getD i 0
          if timedEvents.contains e && (k.ctrRan.getLsbD i || s.timeRuns k ctx e) then v + Config.timedCount (4 * free + i) else v
        { k with ctrVal := (upto 4).map val, ctrRan := 0 }
      else k

/-- Counts an event of the gang in issue. -/
def State.countHere (s : State) (event n : Nat) : State := s.count (s.crewOf s.cur).core s.cur.id.ctx event n

/-- Passes of a unit that are executed: mask words that are not empty (R15). -/
def passesOf (act : Mask) : Nat := ((upto 4).filter fun p => act.extractLsb' (32 * p) 32 != 0#32).length

/-- mix of R352. -/
def sigMix (x : Dword) : Dword := (x ^^^ (x >>> 31)) * 0x9C6D2E51B3A70F43#64

/-- Adds a contribution to `$SIG`; a supervisor unit adds nothing (R352). -/
def Gang.addSig (g : Gang) (a : Dword) (tag : Nat) : Gang :=
  if g.supervisor then g else { g with sig := g.sig + sigMix (a * 8 + BitVec.ofNat 64 tag) }

/-! ## Queues (R21, R322) -/

/-- A bound device queue. -/
def State.queue? (s : State) (dev ix : Nat) : Option Queue := s.queues.find? fun q => q.dev == dev && q.ix == ix

def State.setQueue (s : State) (q : Queue) : State :=
  { s with queues := updateFirst (fun p => p.dev == q.dev && p.ix == q.ix) (fun _ => q) s.queues }

/-- Posts a message at the tail of a queue that has room. -/
def State.post (s : State) (q : Queue) (msg : List Word) : State := s.setQueue { q with msgs := q.msgs ++ [msg] }

/-- Posts an error message to the context's error queue, or keeps it until there is room (R343). -/
def State.postError (s : State) (ctx : Nat) (msg : List Word) : State :=
  let c := s.ctx ctx
  match s.queue? c.dev c.errQueue with
  | some q => if q.msgs.length < Config.queueDepth ∧ c.errKept = [] then s.post q msg
      else s.setCtx { c with errKept := c.errKept ++ [msg] }
  | none => s.setCtx { c with errKept := c.errKept ++ [msg] }

/-! ## Frames pushed and popped (R60, R333) -/

/-- Pushes a callee's frame: the caller's top eight registers become its v0 to v7, the others start as U 0. -/
def Gang.pushFrame (g : Gang) (f : Frame) : Gang :=
  match g.frames with
  | [] => { g with frames := [{ f with regs := List.replicate (demandRegs f.nf) zeroReg }] }
  | t :: r =>
    let k := t.regs.length - 8
    let win := t.regs.drop k
    { g with frames := { f with regs := win ++ List.replicate (demandRegs f.nf - 8) zeroReg } ::
        { t with regs := t.regs.take k } :: r }

/-- Pushes a frame that shares no window with its caller (R34). -/
def Gang.pushApart (g : Gang) (f : Frame) (args : List Reg) : Gang :=
  { g with frames := { f with regs := args ++ List.replicate (demandRegs f.nf - args.length) zeroReg } :: g.frames }

/-- Rows a popped frame releases when its v0 to v7 go back to the caller, or with all of it. -/
def Frame.rowsLeft (f : Frame) (keep : Bool) : Nat :=
  f.spare + ((if keep then f.regs.drop 8 else f.regs).filter Reg.isG).length

/-- Pops the top frame: its v0 to v7 become the caller's window again, unless the frame was flattened. -/
def Gang.popFrame (g : Gang) : Gang :=
  match g.frames with
  | t :: c :: r =>
    if t.flattened then { g with frames := c :: r }
    else { g with frames := { c with regs := c.regs ++ t.regs.take 8 } :: r }
  | _ => { g with frames := [] }

/-- Pops the top frame of a gang and releases what it held (R59, R60). -/
def State.popFrame (s : State) (id : GangId) : State :=
  match s.gang? id with
  | none => s
  | some g =>
    match g.frames with
    | [] => s
    | t :: r => ((s.setGang g.popFrame).release id (t.rowsLeft (!t.flattened && !r.isEmpty)) t.compact)

/-! ## Stopping a crew (R342, R343) -/

/-- The error message of a stopped crew (R343, R368). -/
def stopMessage (word0 : Word) (g : Gang) (rec0 : BitVec 128) (mask : Mask) (resume : Pc) : List Word :=
  [word0, BitVec.ofNat 32 g.id.crew, BitVec.ofNat 32 (g.id.rank + if g.supervisor then 256 else 0), 0] ++
  (upto 4).map (fun i => rec0.extractLsb' (32 * i) 32) ++
  (upto 2).map (fun i => (resume.setWidth 64).extractLsb' (32 * i) 32) ++
  (upto 4).map (fun i => mask.extractLsb' (32 * i) 32) ++ [g.ped.extractLsb' 0 32, pedKey g.ped]

/-- The fault record (R336). -/
def faultRecord (f : PendFault) : BitVec 128 :=
  f.addr ++ (0#20 ++ f.place ++ f.count ++ 0#4 ++ BitVec.ofBool f.lim ++ f.kind ++ f.code : BitVec 64)

/-- What a stopped gang gives up: its queued accesses are discarded, the copies among them too, and its receives
withdrawn. One whose frames have not been granted yet stays without them. -/
def Gang.stopped (g : Gang) (copies : List Nat) : Gang :=
  { g with
    flights := g.flights.map fun f =>
      let ls := f.lanes.map fun l => if l.st == .queued then { l with st := .done } else l
      let all := !f.lanes.isEmpty && ls.all fun l => l.st == .done
      { f with lanes := ls, finished := f.finished || all || copies.contains f.id || f.op == .recv }
    recvs := [], pend := [], entering := none
    ctl := { g.ctl with wait := match g.ctl.wait with
      | .taskFrame r c t => .taskFrame r c t
      | _ => .ready } }

/-- Discards the engine operations of a crew that wait in a replay queue. -/
def CoreSt.dropQueued (k : CoreSt) (ctx crew : Nat) : CoreSt :=
  { k with
    copies := k.copies.filter fun c => !(c.queued && c.gang.ctx == ctx && c.gang.crew == crew)
    mats := k.mats.filter fun m => !(m.queued && m.ctx == ctx && m.crew == crew) }

/-- Stops a crew and posts its one error message; a wait for rows ends with it (R347). -/
def State.stopCrew (s : State) (id : GangId) (msg : List Word) : State :=
  let c := s.crew id.ctx id.crew
  if c.stopped then s
  else
    let s := if (s.crewGangs id.ctx id.crew).any s.rowWait then s.count c.core id.ctx 20 1 else s
    let s := s.setCrew { c with stopped := true, arrivals := [] }
    let queued := s.cores.flatMap fun k => (k.copies.filter fun p => p.queued).map fun p => p.id
    let s := s.mapGangs fun g => if g.id.ctx == id.ctx && g.id.crew == id.crew then g.stopped queued else g
    let s := { s with cores := s.cores.map fun (k : CoreSt) => k.dropQueued id.ctx id.crew }
    s.postError id.ctx msg

/-- Stops the crew of a gang that took a fault: `$FAULT` and `$TMASK` say which, and the message repeats them (R342,
R343). -/
def State.stopOn (s : State) (id : GangId) (record : BitVec 128) (mask : Mask) (resume : Pc) : State :=
  match s.gang? id with
  | none => s
  | some g => (s.modGang id fun g => { g with faultRec := record, tmask := mask }).stopCrew id (stopMessage 1 g record mask resume)

/-! ## Crew-collective waits (R24) -/

/-- The crew-collective wait of a control. -/
def Ctl.collective? (c : Ctl) : Option Collective :=
  match c.wait with
  | .collective w => some w
  | _ => none

/-- The crew-collective wait at which a gang stands, in whichever fragment (R24, R226). -/
def Gang.collective? (g : Gang) : Option Collective :=
  match g.ctl.collective? with
  | some w => some w
  | none => if g.entering.isSome then none else (g.entries.filterMap fun p => p.2.ctl.collective?).head?

/-- Puts the fragment that waits at a collective in issue. -/
def Gang.toCollective (g : Gang) : Gang :=
  if g.ctl.collective?.isSome then g
  else match g.entries.find? fun p => p.2.ctl.collective?.isSome with
    | some p => g.loadFrag p.1
    | none => g

def Collective.isQuorum : Collective → Bool
  | .quorum _ _ => true
  | _ => false

/-- What quorum gangs must agree in: tile, shape, fn and the A record, not the registers named (R243). -/
def quorumKey (unit : Word) : Word := unit &&& 0x7FFE0007#32

/-- Two waits of one crew do not disturb each other: `cbar` and `cwt` are different waits, and a `carr` that waits counts as a
`cwt` (R24, log 65). -/
def Collective.fits : Collective → Collective → Bool
  | .quorum u r, .quorum v q => quorumKey u == quorumKey v && r == q
  | .dafence _, .dafence _ | .cbar _, .cbar _ => true
  | .cwt _, .cwt _ | .cwt _, .carr _ | .carr _, .cwt _ | .carr _, .carr _ => true
  | a, b => a == b

/-- Ranks of the matrix quorum, ascending (R303). -/
def Context.quorumRanks (c : Context) : List Nat := (upto c.size).filter fun r => c.quorum.getLsbD r

/-- A gang stands at a matrix quorum that is complete: it waits for room in a queue, not for its crew (R305, R344). -/
def State.quorumFull (s : State) (g : Gang) : Bool :=
  match g.collective? with
  | some w => w.isQuorum && (s.ctx g.id.ctx).quorumRanks.all fun r => match s.gang? { g.id with rank := r } with
      | some h => h.collective?.any w.fits
      | none => false
  | none => false

/-! ## Stalls (R62, R63) -/

/-- Something of a gang that its last `carr` came after is still under way (R280, log 82). -/
def Gang.owing (g : Gang) : Bool :=
  g.owes.any fun o => g.flights.any fun f =>
    f.id == o.1 && !f.finished && (f.op == .recv || f.lanes.any fun l => l.st == .flying && inMask o.2 l.lane)

/-- The barrier phase of a crew that is open: every gang has arrived at those before it, and what came before the arrivals is
complete (R248, R280, log 82). -/
def State.phaseOf (s : State) (c : Crew) : Nat :=
  if c.phase != 0 && (s.crewGangs c.ctx c.rank).any fun g => g.lastArr == some (c.phase - 1) && g.owing then c.phase - 1 else c.phase

/-- The barrier phase of a wait is complete: the gang goes on and waits for nobody (R248). -/
def Collective.isOver (c : Collective) (phase : Nat) : Bool :=
  match c with
  | .cbar p | .cwt p | .carr p => decide (p < phase)
  | _ => false

/-- A control that does not move for want of rows or of its crew (R62). A wait at `dafence` is taken as one at a crew
barrier, which R62 leaves open (log 56); a barrier phase that is complete holds nobody up. -/
def Ctl.stalled (c : Ctl) (phase : Nat) : Bool :=
  match c.wait with
  | .rows _ _ _ => true
  | .taskFrame _ _ _ => true
  | .collective w => !w.isOver phase
  | .serial => true
  | _ => false

/-- The fragments whose controls are the gang's: none when it is not split, nor when the one in issue runs a handler by
itself. -/
def Gang.parts (g : Gang) : List (Nat × Entry) :=
  match g.frag.bind g.entry? with
  | some e => if g.liveSplit e.split then g.saveFrag.active else []
  | none => []

/-- A fragment that stands still in R62: parked, waiting for entries as R50 counts it, or stalled. -/
def Entry.stalled (e : Entry) (phase : Nat) : Bool :=
  e.st == .parked || e.ctl.wait == .entries || e.ctl.stalled phase

/-- A crew is idle: it runs no task, has none to start, and its deque is empty (R28). -/
def Crew.workless (c : Crew) : Bool := c.task.isNone && c.taken.isNone && c.deque.isEmpty && c.overflow.isEmpty

/-- A gang in a state of R62: of an idle or stopped crew, waiting for a handler frame or for rows it has lent, or stalled in
some fragment with every other one standing still. -/
def State.mayStall (s : State) (g : Gang) : Bool :=
  let cr := s.crewOf g
  let phase := s.phaseOf cr
  let ps := g.parts
  cr.stopped || cr.workless || g.entering.isSome || g.owed.isSome || (!s.quorumFull g &&
    if ps.isEmpty then g.ctl.stalled phase
    else
      ps.all (fun p => p.2.stalled phase) && ps.any (fun p => p.2.st != .parked && p.2.ctl.stalled phase) &&
        !(ps.any fun p => p.2.ctl.wait == .serial && (g.loadFrag p.1).serialTurn))

/-- Results of other kinds than receives are pending. -/
def Gang.pendingWork (g : Gang) : Bool :=
  g.flights.any fun f => !f.finished && match f.op with
    | .load | .lda | .lds | .value | .late _ _ _ | .drain => true
    | .atom _ ret => ret
    | _ => false

/-- Of some gangs, the one that holds the most rows, the lowest slot on a tie (R63). -/
def State.mostRows (s : State) (gs : List Gang) : Option Gang :=
  (sortBy (fun a b => decide (b.frameRows < a.frameRows) ||
    (a.frameRows == b.frameRows && decide (s.slotOf a < s.slotOf b))) gs).head?

/-- The gang to spill when a stall is broken: a waiting gang with frames (R63). -/
def State.spillChoice (s : State) (core : Nat) : Option Gang :=
  s.mostRows ((s.coreGangs core).filter fun g => (s.asks g).isSome && !g.outside && !g.frames.isEmpty)

/-- The gang to spill for the handler frame of another: any gang with frames in a state of R62 (R63). -/
def State.spillOther (s : State) (core : Nat) (id : GangId) : Option Gang :=
  s.mostRows ((s.coreGangs core).filter fun g => g.id != id && !g.outside && !g.frames.isEmpty && s.mayStall g)

/-! ## Lending (R331) -/

/-- A control whose next unit waits for the message of a receive. -/
def Gang.awaitsMessage (g : Gang) (c : Ctl) : Bool := c.wait == .ready && g.recvs.any fun r => c.marks.contains r.op

/-- A gang waits in a blocking `mbrecv`, as it is, in a handler, or in some fragment with every other one parked or waiting in
the same way. -/
def Gang.blocked (g : Gang) : Bool :=
  let ps := g.parts
  if ps.isEmpty then g.awaitsMessage g.ctl
  else (ps.all fun p => p.2.st == .parked || g.awaitsMessage p.2.ctl) &&
    ps.any fun p => p.2.st != .parked && g.awaitsMessage p.2.ctl

/-- Borrows up to n of a blocked gang's unused reserved rows for the pool: those of its top frame. -/
def State.borrow (s : State) (n : Nat) (id : GangId) : State :=
  match s.gang? id with
  | none => s
  | some g => match g.frames with
    | [] => s
    | f :: _ =>
      let c := s.coreOf g
      let k := min f.spare (n - c.pool)
      let top := g.frames.length - 1
      if k = 0 then s
      else (s.setCore { c with pool := c.pool + k }).setGang
        { g.modTop (fun f => { f with spare := f.spare - k }) with lent := g.lent + k, lentBy := g.lentBy ++ [(top, k)] }

/-- Rows that blocked gangs of a core could lend. -/
def State.lendable (s : State) (core : Nat) (except_ : GangId) : List Gang :=
  (s.coreGangs core).filter fun g => g.blocked && !g.spilled && g.id != except_

/-- The pool with what others must lend it to serve a request of n rows, when that suffices. -/
def State.fillPool (s : State) (core n : Nat) (id : GangId) : State :=
  let gs := s.lendable core id
  let more := gs.foldl (fun n g => n + ((g.frames.head?.map fun f => f.spare).getD 0)) 0
  if n ≤ (s.core core).pool ∨ (s.core core).pool + more < n then s
  else gs.foldl (fun s g => s.borrow n g.id) s

/-! ## Supplies (R63, R339) -/

/-- Takes rows and compact store from a core's reserve, when they are there. -/
def State.fromReserve (s : State) (core rows compact : Nat) : Option State :=
  let c := s.core core
  if rows ≤ c.reserve ∧ compact ≤ c.reserveC then
    some (s.setCore { c with reserve := c.reserve - rows, reserveC := c.reserveC - compact })
  else none

/-- Takes rows and compact store from a core's pool, when they are there. -/
def State.fromPool (s : State) (core rows compact : Nat) : Option State :=
  let c := s.core core
  if rows ≤ c.pool ∧ compact ≤ c.poolC then
    some (s.setCore { c with pool := c.pool - rows, poolC := c.poolC - compact })
  else none

/-- Supplies a handler frame at once: the reserve, or else the pool with what blocked gangs lend it, unless another gang waits
for such a frame already (R63, R331). -/
def State.handlerFrame (s : State) (core rows compact : Nat) (id : GangId) : Option State :=
  match s.fromReserve core rows compact with
  | some s => some s
  | none =>
    if (s.coreGangs core).any fun g => g.entering.isSome then none
    else (s.fillPool core rows id).fromPool core rows compact

/-! ## Taking a fault (R339) -/

/-- A gang with its handler frame, which counts outside its quota (R63): the record and the lanes are saved, the frame is
entered, supervisor mode is set and control goes to the handler (R339). -/
def Gang.enterHandler (g : Gang) (h : Handler) (record : BitVec 128) (kind : BitVec 3) (mask : Mask) (resume : Pc) : Gang :=
  let g := g.saveFrag
  let f : Frame :=
    { ret := resume, nf := h.nf, gf := h.gf, marked := false, flattened := false, handler := true,
      splitMade := false, spare := demandRows h.gf, regs := [],
      save := { ctl := g.ctl, frag := g.frag, entry := g.frag.bind g.entry?, kind := kind } }
  ({ g.pushFrame f with
    faultRec := record
    tmask := mask
    supervisor := true
    emergRows := g.emergRows + demandRows h.gf
    emergCompact := g.emergCompact + demandCompact h.nf
    ctl := { pc := h.entry, mask := mask, wait := .ready, marks := [], redo := none, turn := true } } : Gang).running

/-- Takes a fault in the fragment in issue of a gang: the crew stops when no handler may run. Without a frame for the handler
the gang waits for one, while a gang that may be spilled for it is chosen (R63); with no such gang the crew stops
(R342). -/
def State.takeFaultWith (s : State) (id : GangId) (record : BitVec 128) (code : BitVec 8) (kind : BitVec 3) (mask : Mask)
    (resume : Pc) : State :=
  match s.gang? id with
  | none => s
  | some g =>
    let stop := s.stopOn id record mask resume
    match (s.ctx id.ctx).handlers.find? fun h => h.code == code.toNat with
    | none => stop
    | some h =>
      if g.supervisor ∨ g.frames = [] then stop
      else
        let core := (s.crewOf g).core
        match s.handlerFrame core (demandRows h.gf) (demandCompact h.nf) id with
        | some s => (s.count core id.ctx 23 1).modGang id fun g => g.enterHandler h record kind mask resume
        | none =>
          if (s.spillOther core id).isNone then stop
          else
            let e : Entering := { record := record, kind := kind, mask := mask, resume := resume, handler := h, since := s.tick }
            (s.modGang id fun g => { g with entering := some e }).ticked

def State.takeFault (s : State) (id : GangId) (f : PendFault) (resume : Pc) : State :=
  s.takeFaultWith id (faultRecord f) f.code f.kind f.mask resume

/-- The barrier phase at whose `cbar` a control stands. -/
def Ctl.barrier? (c : Ctl) : Option Nat :=
  match c.wait with
  | .collective (.cbar p) => some p
  | _ => none

/-- A gang leaves its wait for a handler: it comes back to it, so a wait of R24 ends without its completion (R272). A
`cbar` has arrived at the barrier and stays so: its gang waits for the same phase again (R248, log 28). -/
def Gang.leave (g : Gang) : Gang :=
  { g with
    barAt := (g.ctl.barrier?.map fun p => (g.ctl.pc, p)).or g.barAt
    ctl := { g.ctl with wait := match g.ctl.wait with
      | .serial => .serial
      | .entries => .entries
      | _ => .ready } }

/-- A `cbar` that faults has no effect: its arrival is undone, unless a `carr` has made it too (R24, R335). -/
def State.unarrive (s : State) (g : Gang) : State :=
  match g.ctl.barrier? with
  | some p =>
    if g.lastArr = some p then s
    else s.modCrew g.id.ctx g.id.crew fun c => { c with arrivals := c.arrivals.filter fun r => r != g.id.rank }
  | none => s

/-- A precise fault of the unit at which a gang issues or waits (kind 0): `$TMASK` is its execution mask (R335), the
resume PC the unit's address and length also for a unit that `rte` executes again (R336, log 26). A gang in user mode whose
frames are spilled takes it once they are back; a fault of a handler stops the crew at once (R342). -/
def State.takePrecise (s : State) (id : GangId) (code : BitVec 8) (len : Nat) : State :=
  match s.gang? id with
  | none => s
  | some g =>
    let s := (s.unarrive g).modGang id fun g => { g with ctl := { g.ctl with wait := .ready, redo := none } }
    let f := unitFault code g.ctl.mask g.ctl.pc (len == 8)
    let next := g.ctl.pc + BitVec.ofNat 57 len
    if (g.spilled || g.entering.isSome) && !g.supervisor then s.modGang id fun g => ({ g with ctl := { g.ctl with pc := next }, pend := f :: g.pend } : Gang).saveFrag
    else s.takeFault id f next

/-! ## One unit -/

/-- What a unit did: the state with its lane and other effects, its target if it transfers control, the lane fault and
the floating-point trap it leaves (R223, R82). -/
structure Done where
  st : State
  target : Option Pc
  lane : Option (BitVec 8 × Mask)
  trap : Option (BitVec 8 × Mask)
  /-- The unit has set the next PC of its gang itself (it ended or moved the task). -/
  moved : Bool
  /-- The unit has had a part of its effect and waits for the rest: it does not retire yet. -/
  hold : Option Wait
  /-- The unit has been counted as retired by its core's counters (R348). -/
  counted : Bool

/-- A unit that only had effects. -/
def done (s : State) : Done :=
  { st := s, target := none, lane := none, trap := none, moved := false, hold := none, counted := false }

/-- A unit that transfers control. -/
def jumped (s : State) (target : Pc) : Done := { done s with target := some target }

/-- How a unit issues: privileged, subject to serial-wait in a fragment, vector class (R323), bytes. -/
structure UnitKind where
  priv : Bool
  serial : Bool
  vec : Bool
  len : Nat

def control : UnitKind := { priv := false, serial := false, vec := false, len := 4 }
def serialUnit : UnitKind := { control with serial := true }
def vectorUnit : UnitKind := { control with vec := true }
def crossUnit : UnitKind := { control with vec := true, serial := true }
def privUnit : UnitKind := { control with priv := true }

/-- The results the switch marker waits for: every unfinished variable-latency result of the gang (R100). -/
def Gang.outstanding (g : Gang) : List Nat :=
  (g.flights.filter fun f => !f.finished && match f.op with
    | .load | .lda | .lds | .value | .late _ _ _ | .drain | .recv => true
    | .atom _ ret => ret
    | _ => false).map fun f => f.id

/-- Counts a unit (R325, R347, R352): in the gang unless in supervisor mode, in the core's quantum and its events. -/
def State.countUnit (s : State) (k : UnitKind) (act : Mask) (sup counted : Bool) : State :=
  let core := (s.crewOf s.cur).core
  let s := if sup then s else s.modCur fun g => { g with retired := g.retired + 1 }
  let s := if s.cores.any (fun c => c.ix == core) then s.modCore core fun c => { c with units := c.units + 1 } else s
  let s := if counted then s else s.countHere 1 1
  if k.vec then (s.countHere 2 (passesOf act)).countHere 3 (4 - passesOf act) else s

/-- Retires a unit: the next PC, the switch marker, then the lane fault or trap it leaves, then parking. A marked unit
that faults does not wait; the others wait for the results outstanding when they retire, and in a fragment not for those that
other fragments launch later: the model's choice (R100, log 81). The resume PC of a lane fault or trap is the next PC, which after a unit that `rte`
executes again is the handler's resume PC (R141, log 26). -/
def retire (k : UnitKind) (sw : Bool) (pc : Pc) (act : Mask) (sup : Bool) (d : Done) : State :=
  let s := d.st.countUnit k act sup d.counted
  if d.moved then s
  else
    let g := s.cur
    let after := match g.ctl.redo with
      | some r => r.resume
      | none => pc + BitVec.ofNat 57 k.len
    let next := d.target.getD after
    let ctl : Ctl :=
      { g.ctl with
        pc := next, wait := .ready, redo := none
        marks := if sw && d.lane.isNone && d.trap.isNone then g.outstanding else [] }
    let s := { s with cur := { g with ctl := ctl, barAt := if sup then g.barAt else g.barAt.filter fun b => b.1 == next } }
    match d.lane with
    | some (code, m) =>
      let s := match d.trap with
        | some (c2, m2) => s.modCur fun g => { g with pend := g.pend ++ [unitFault c2 m2 pc (k.len == 8)] }
        | none => s
      s.takeFault g.id (unitFault code m pc (k.len == 8)) next
    | none =>
      match d.trap with
      | some (code, m) => s.takeFault g.id (unitFault code m pc (k.len == 8)) next
      | none => s.modCur Gang.settle

/-- Sets the wait of the fragment in issue. -/
def State.setWait (s : State) (w : Wait) : State :=
  s.modCur fun g => ({ g with ctl := { g.ctl with wait := w } } : Gang).saveFrag

/-- A fragment that begins a serial unit has its turn from then on (R44). -/
def State.begun (s : State) (k : UnitKind) : State :=
  if k.serial && s.cur.frag.isSome then s.modCur fun g => { g with ctl := { g.ctl with turn := true } } else s

/-- Runs the effect of a unit of the gang in issue. Of a fragment's serial unit PRIV comes before its wait for its turn, every other
fault at the turn: the model's choice (R44, R166, log 90). -/
def runUnit (k : UnitKind) (sw : Bool) (s : State) (body : State → Try Done) : Host.Outcome State Fault Refusal :=
  if !s.cur.live then .fault .noGang
  else
    let g := s.cur
    if k.priv && !g.supervisor then .next (s.takePrecise g.id codePriv k.len)
    else if k.serial && !g.serialTurn then .next (s.setWait .serial)
    else
      let s := s.begun k
      match body s with
      | .ok d => .next (match d.hold with
          | some w => d.st.setWait w
          | none => retire k sw g.ctl.pc g.act g.supervisor d)
      | .error (.fault code) => .next (s.takePrecise g.id code k.len)
      | .error (.faultWith f here) =>
        .next ((s.modCur fun g => { g with ctl := { g.ctl with redo := if here then g.ctl.redo else none } }).takeFault
          g.id f (if here then g.ctl.pc else g.ctl.pc + BitVec.ofNat 57 k.len))
      | .error (.collective code ids) =>
        .next ((sortBy (fun a b => decide (a.rank < b.rank)) ids).foldl (fun s id =>
          (s.modGang id Gang.toCollective).takePrecise id code 4) s)
      | .error (.wait w) =>
        .next (match w with
          | .rows _ _ _ => s.ticked.setWait w
          | _ => s.setWait w)

/-- Runs a unit whose own checks come before its serial-wait (R58, R136, R137). -/
def runChecked (k : UnitKind) (sw : Bool) (pre : State → Try Unit) (s : State) (body : State → Try Done) :
    Host.Outcome State Fault Refusal :=
  match pre s with
  | .error e => runUnit { k with serial := false } sw s fun _ => .error e
  | .ok _ => runUnit k sw s body

/-- An event of the table that is not enabled changes nothing; one that is gives its next state. -/
def runEvent (s : State) (r : Option State) : Host.Outcome State Fault Refusal := .next (r.getD s)

end Sys2Proof.Machine
end

