-- ==== Sys2Proof/Machine/MemorySystem.lean ====
section
/-! DEFINITION. Caches, home slices, the Owl filter and dirty bitmaps (R256 to R268, R273, R297 to R299, R350).
`mem` is what a coherent reader of physical memory sees: HBM4 under the modified data of the caches; L1 lines hold
copies that may be older (R264). -/
namespace Sys2Proof.Machine

/-- Cluster of a gang (R332). -/
def State.clusterOfGang (s : State) (g : Gang) : Nat := clusterOf (s.crewOf g).core

/-- The L1 line of a piece in a cluster. -/
def State.l1? (s : State) (ctx cluster piece : Nat) : Option L1Line :=
  s.l1.find? fun l => l.ctx == ctx && l.cluster == cluster && l.piece == piece

/-- The L1 that holds a line is the one of this core (R256). -/
def L1Line.ofCore (l : L1Line) (core : Nat) : Bool := l.cluster == clusterOf core && granuleOf (l.piece * 64) % 4 == core % 4

/-- The core of a cluster whose L1 holds a piece (R256). -/
def l1Core (cluster piece : Nat) : Nat := cluster * 4 + granuleOf (piece * 64) % 4

/-- The way mask of a context on a core (R251, R268). -/
def CoreSt.wayMask (c : CoreSt) (ctx : Nat) : BitVec 16 := ((c.wayMasks.find? fun p => p.1 == ctx).map fun p => p.2).getD 0

/-- Number of ways of a core given to a context's scratch. -/
def CoreSt.scratchWays (c : CoreSt) (ctx : Nat) : Nat := ((upto 16).filter fun i => (c.wayMask ctx).getLsbD i).length

/-- Lines that the L1 of a core has room for: 512 in each way that the resident context's scratch leaves (R4, R264). -/
def CoreSt.l1Lines (c : CoreSt) : Nat := 512 * (16 - ((c.resident.map c.scratchWays).getD 0))

/-- A list without all but the first n of the elements that a test picks. -/
def keepFirst {α : Type} (p : α → Bool) : Nat → List α → List α
  | _, [] => []
  | n, x :: r =>
    if p x then match n with
      | 0 => keepFirst p 0 r
      | k + 1 => x :: keepFirst p k r
    else x :: keepFirst p n r

/-- Lines beyond what the L1 of a core can hold leave it, the one brought in first at first (R264; which line is replaced is
the model's choice, log 66). -/
def State.trimL1 (s : State) (core : Nat) : State :=
  { s with l1 := keepFirst (fun l => l.ofCore core) (s.core core).l1Lines s.l1 }

/-- Puts a line into the L1 of its cluster. -/
def State.addLine (s : State) (l : L1Line) : State := ({ s with l1 := l :: s.l1 } : State).trimL1 (l1Core l.cluster l.piece)

def State.dropL1 (s : State) (p : L1Line → Bool) : State := { s with l1 := s.l1.filter fun l => !p l }

/-- Clusters an acquire or a cache operation of a scope reaches, as a test on lines (R264, R277). -/
def scopeHolds (scope cluster dev : Nat) (l : L1Line) : Bool :=
  if scope ≤ 3 then false
  else if scope = 4 then l.dev == dev && l.cluster / 40 == cluster / 40
  else if scope = 5 then l.dev == dev
  else true

/-- No line that came from its home slice before now is new enough for a cluster, whatever it holds (log 83). -/
def State.raiseFloor (s : State) (cluster : Nat) : State :=
  { s with floors := { cluster := cluster, piece := none, since := s.fetches + 1 } :: s.floors.filter fun f => f.cluster != cluster }

/-- A cluster has seen a piece of a context as the line of a number holds it (log 83). -/
def State.noteSeen (s : State) (cluster ctx piece since : Nat) : State :=
  let mine (f : Floor) : Bool := f.cluster == cluster && f.piece == some (ctx, piece)
  { s with floors := { cluster := cluster, piece := some (ctx, piece), since := since } :: s.floors.filter fun f => !mine f }

/-- A peer's line is as new as what a cluster has seen of its piece and since its last acquire: a read may return it (R281). -/
def State.newEnough (s : State) (cluster : Nat) (l : L1Line) : Bool :=
  s.floors.all fun f => f.cluster != cluster || (f.piece.isSome && f.piece != some (l.ctx, l.piece)) || decide (f.since ≤ l.since)

/-- An acquire of scope stack, device or system drops the lines of every cluster in that scope (R264). -/
def State.acquire (s : State) (g : Gang) (scope : Nat) : State :=
  let s := s.dropL1 (scopeHolds scope (s.clusterOfGang g) (s.ctx g.id.ctx).dev)
  if scope ≤ 3 then s else s.raiseFloor (s.clusterOfGang g)

/-! ## Dirty pages and snapshots (R260, R350) -/

/-- Bytes that the device itself writes to physical memory, through to HBM4. -/
def State.putPhysical (s : State) (pa : Nat) (bytes : List Byte) : State :=
  { s with
    mem := Memory.replace s.mem pa bytes, side := Memory.replace s.side pa bytes, hbm := Memory.replace s.hbm pa bytes }

/-- Takes the pre-image of a physical page for a running capture of a context that maps it (R350): what the memory-side
cache and HBM4 hold of it before the new data is merged. -/
def State.snapPage (s : State) (page : Nat) (c : Context) : State :=
  match c.capture with
  | none => s
  | some cap =>
    if cap.snaps.any (fun p => p.1 == page) || cap.snapFull ||
        !c.maps.any (fun m => decide (m.pa ≤ page * 4096) && decide (page * 4096 < m.pa + m.size)) then s
    else match s.pools.find? fun p => p.dev == c.dev && p.size == 0 with
      | none => s.setCtx { c with capture := some { cap with snapFull := true, passes := cap.pass } }
      | some q =>
        let s := { s with pools := s.pools.erase q }
        let s := s.putPhysical q.base (Memory.slice s.side (page * 4096) 4096)
        s.setCtx { c with capture := some { cap with snaps := cap.snaps ++ [(page, q.base)] } }

/-- Writes a line of the memory-side cache back to HBM4. -/
def State.writeBack (s : State) (line : Nat) : State :=
  { s with hbm := Memory.copyRange s.side s.hbm (line * 64) 64, msc := s.msc.filter fun l => l != line }

/-- Modified lines that the memory-side cache of one spoke has room for (R2). -/
def mscLines : Nat := 128 * 1048576 / 64

/-- A full memory-side cache writes its oldest line back (R2, log 66). -/
def State.trimMsc (s : State) (spoke : Nat) : State :=
  let mine := s.msc.filter fun l => ownerSpoke (l * 64) == spoke
  if mine.length ≤ mscLines then s else s.writeBack (mine.headD 0)

/-- The memory-side cache accepts the data of a physical line as `mem` has it, by an eviction or from an engine: the page's
bit is set before the data is merged (R260). -/
def State.acceptModified (s : State) (pa : Nat) : State :=
  let page := pa / 4096
  let s := if s.dirty.contains page then s
    else
      let s := s.contexts.foldl (fun s c => s.snapPage page (s.ctx c.num)) s
      { s with dirty := s.dirty ++ [page] }
  let s := { s with side := Memory.copyRange s.mem s.side (pa / 64 * 64) 64 }
  if s.msc.contains (pa / 64) then s else ({ s with msc := s.msc ++ [pa / 64] } : State).trimMsc (ownerSpoke pa)

/-! ## The home slice (R256, R266, R267, R273) -/

/-- Evicts a piece from a slice; modified data goes to the memory-side cache (R260, R266). -/
def State.evictL2 (s : State) (q : L2Piece) : State :=
  let s := if q.modified then s.acceptModified q.pa else s
  { s with l2 := s.l2.filter fun r => !(r.dev == q.dev && r.ctx == q.ctx && r.piece == q.piece) }

/-- Owl ways of a device: the most any of its contexts asks for (R297). -/
def State.owlWays (s : State) (dev : Nat) : Nat :=
  (s.contexts.filter fun c => c.dev == dev).foldl (fun n c => max n c.owlWays) 0

/-- The granule a piece belongs to, which takes one way of its set (R266). -/
def L2Piece.tag (q : L2Piece) : Nat × Nat := (q.ctx, granuleOf (q.piece * 64))

/-- Pieces that a slice of the package holds in a set, those of former devices among them. -/
def State.inSet (s : State) (slice set : Nat) : List L2Piece := s.l2.filter fun q => q.slice == slice && q.set == set

/-- The data ways of a set hold no more granules than there are: the one that came first leaves, but for the granule just
touched (R266, R297, log 66). -/
def State.trimSet (slice set ways : Nat) (keep : Option (Nat × Nat)) : Nat → State → State
  | 0, s => s
  | fuel + 1, s =>
    let held := s.inSet slice set
    let tags := held.foldl (fun acc q => if acc.contains q.tag then acc else acc ++ [q.tag]) []
    if tags.length ≤ ways then s
    else match tags.find? fun t => some t != keep with
      | none => s
      | some t => State.trimSet slice set ways keep fuel ((held.filter fun q => q.tag == t).foldl State.evictL2 s)

/-- A slice holds a piece, modified or not; a write takes it from every other device's slices (R267). -/
def State.touchL2 (s : State) (dev ctx piece pa : Nat) (write : Bool) : State :=
  let rest := s.l2.filter fun q => !(q.dev == dev && q.ctx == ctx && q.piece == piece) && !(write && q.pa == pa && q.dev != dev)
  let was := s.l2.any fun q => q.modified && q.pa == pa && ((q.dev == dev && q.ctx == ctx && q.piece == piece) || write)
  let new : L2Piece :=
    { slice := s.sliceAt dev (piece * 64), set := s.homeSet (piece * 64), dev := dev, ctx := ctx, piece := piece, pa := pa
      modified := write || was }
  State.trimSet new.slice new.set (16 - s.owlWays dev) (some new.tag) 16 { s with l2 := rest ++ [new] }

/-- A slice's next sequence value (R266). -/
def State.stamp (s : State) (dev ia : Nat) : State :=
  let sl := s.sliceAt dev ia
  let v := ((s.slices.find? fun p => p.1 == sl).map fun p => p.2).getD 0
  { s with slices := (sl, v + 1) :: s.slices.filter fun p => p.1 != sl }

/-! ## Loads through L1 (R264, R265) -/

/-- The peer-probe entry of a granule in a cluster. -/
def State.peerEntry? (s : State) (dev cluster granule : Nat) : Option PeerEntry :=
  s.peers.find? fun p => p.dev == dev && p.cluster == cluster && p.slot == granule % 64 && p.granule == granule

def State.setPeer (s : State) (dev cluster granule : Nat) (source : Option Nat) : State :=
  let rest := s.peers.filter fun p => !(p.dev == dev && p.cluster == cluster && p.slot == granule % 64)
  { s with peers := match source with
    | some c => { dev := dev, cluster := cluster, slot := granule % 64, granule := granule, source := c } :: rest
    | none => rest }

/-- The last reader of a granule at its slice, the requesting cluster apart (R265). -/
def State.lastReader (s : State) (dev ctx granule cluster : Nat) : Option Nat :=
  (s.readers.find? fun r => r.dev == dev && r.ctx == ctx && r.granule == granule).bind fun r =>
    r.clusters.find? fun k => k != cluster

/-- Records a read of a granule at its slice: two clusters suffice to name one other than any requester. -/
def State.noteReader (s : State) (dev ctx granule cluster : Nat) : State :=
  let mine (r : LastReader) : Bool := r.dev == dev && r.ctx == ctx && r.granule == granule
  let before := ((s.readers.find? mine).map fun r => r.clusters).getD []
  let now := (cluster :: before.filter fun k => k != cluster).take 2
  { s with readers := { dev := dev, ctx := ctx, granule := granule, clusters := now } :: s.readers.filter fun r => !mine r }

/-- A line comes from its home slice; on a range without W the slice names the last reader (R265). -/
def State.fillHome (s : State) (g : Gang) (cluster piece pa : Nat) (ro : Bool) : State :=
  let c := s.ctx g.id.ctx
  let granule := granuleOf (piece * 64)
  let s := s.count (s.crewOf g).core c.num 9 1
  let s := s.touchL2 c.dev c.num piece pa false
  let line : L1Line :=
    { dev := c.dev, cluster := cluster, ctx := c.num, piece := piece, bytes := Memory.readBytes s.mem pa 64, since := s.fetches + 1 }
  let s := { s.addLine line with fetches := s.fetches + 1 }
  if ro then
    let s := s.noteSeen cluster c.num piece s.fetches
    let s := match s.lastReader c.dev c.num granule cluster with
      | some k => s.setPeer c.dev cluster granule (some k)
      | none => s
    s.noteReader c.dev c.num granule cluster
  else s

/-- Brings a piece into the cluster's L1 (R265); nothing happens without a mapping. A probe does not find a line that is older
than what the cluster has seen: R281 forbids its reads that value (log 83). -/
def State.bringLine (s : State) (g : Gang) (piece : Nat) (ro : Bool) : State :=
  let c := s.ctx g.id.ctx
  let cluster := s.clusterOfGang g
  let core := (s.crewOf g).core
  match s.l1? c.num cluster piece with
  | some _ => s
  | none =>
    match c.physical (piece * 64) with
    | none => s
    | some pa =>
      let granule := granuleOf (piece * 64)
      match (if ro then s.peerEntry? c.dev cluster granule else none) with
      | none => s.fillHome g cluster piece pa ro
      | some e =>
        match (s.l1? c.num e.source piece).filter (s.newEnough cluster) with
        | some l =>
          let s := (s.count core c.num 8 1).noteSeen cluster c.num piece l.since
          (s.addLine { l with cluster := cluster }).setPeer c.dev cluster granule (some e.source)
        | none => (s.setPeer c.dev cluster granule none).fillHome g cluster piece pa ro

/-- A load or a table read looks a piece up in L1, a hit or a miss, and brings it in (R347, R354). -/
def State.fillLine (s : State) (g : Gang) (piece : Nat) (ro : Bool) : State :=
  let c := s.ctx g.id.ctx
  let hit := (s.l1? c.num (s.clusterOfGang g) piece).isSome
  (s.count (s.crewOf g).core c.num (if hit then 6 else 7) 1).bringLine g piece ro

/-- The bytes a load of the gang's cluster reads: from the L1 line, else from coherent memory. -/
def State.readIa (s : State) (g : Gang) (ia size : Nat) : Nat :=
  let c := s.ctx g.id.ctx
  match s.l1? c.num (s.clusterOfGang g) (pieceOf ia) with
  | some l => leNat ((l.bytes.drop (ia % 64)).take size)
  | none => match c.physical ia with
    | some pa => Memory.readNat s.mem pa size
    | none => 0

/-- Writes bytes of an L1 line. -/
def L1Line.patch (l : L1Line) (off : Nat) (bytes : List Byte) : L1Line :=
  { l with bytes := l.bytes.take off ++ bytes ++ l.bytes.drop (off + bytes.length) }

/-- Writes bytes of an L1 line that a cluster holds. -/
def State.updateL1 (s : State) (ctx cluster ia : Nat) (bytes : List Byte) : State :=
  let mine (l : L1Line) : Bool := l.ctx == ctx && l.cluster == cluster && l.piece == pieceOf ia
  { s with l1 := updateWhere mine (fun l => l.patch (ia % 64) bytes) s.l1 }

/-- A cluster writes a piece: it has seen what memory holds of it from now on, where loads of it might come from a peer, through a
range without W (R265, log 83). -/
def State.noteWrite (s : State) (c : Context) (cluster ia : Nat) : State :=
  if c.ranges.any fun r => permits r.perm permR && !permits r.perm permW && decide (r.ibase ≤ ia) && decide (ia < r.ibase + r.len) then
    s.noteSeen cluster c.num (pieceOf ia) (s.fetches + 1)
  else s

/-- A home slice accepts and stamps a write of the gang (R225, R264, R266). -/
def State.writeIa (s : State) (g : Gang) (ia size v : Nat) : State :=
  let c := s.ctx g.id.ctx
  match c.physical ia with
  | none => s
  | some pa =>
    let s := s.touchL2 c.dev c.num (pieceOf ia) (pa / 64 * 64) true
    let s := { s with mem := Memory.writeNat s.mem pa size v }
    ((s.updateL1 c.num (s.clusterOfGang g) ia (leBytes size v)).stamp c.dev ia).noteWrite c (s.clusterOfGang g) ia

/-- An atomic application at the home slice: the cluster's L1 copy is dropped (R264). -/
def State.atomicIa (s : State) (g : Gang) (ia size : Nat) (f : Nat → Nat) : State :=
  let c := s.ctx g.id.ctx
  match c.physical ia with
  | none => s
  | some pa =>
    let cl := s.clusterOfGang g
    let s := s.dropL1 fun l => l.ctx == c.num && l.cluster == cl && l.piece == pieceOf ia
    let s := s.touchL2 c.dev c.num (pieceOf ia) (pa / 64 * 64) true
    ({ s with mem := Memory.writeNat s.mem pa size (f (Memory.readNat s.mem pa size)) }.stamp c.dev ia).noteWrite c cl ia

/-- The bytes that an engine operation leaves at a physical address: a race report written there since the operation was issued
stays, as its line waited for the recall (R284, R299). -/
def State.underReports (s : State) (op pa : Nat) (bytes : List Byte) : List Byte :=
  let late := (s.contexts.flatMap fun c => c.ringLate).filter fun r => decide (op < r.1)
  if late.isEmpty then bytes
  else ((upto bytes.length).zip bytes).map fun p =>
    if late.any fun r => decide (r.2.1 ≤ pa + p.1) && decide (pa + p.1 < r.2.1 + r.2.2) then Memory.read s.mem (pa + p.1) else p.2

/-- A write of an engine operation within a piece: L1 copies are recalled, the memory-side cache accepts it (R241, R260,
R284). -/
def State.engineWrite (s : State) (op ctx ia : Nat) (bytes : List Byte) : State :=
  let c := s.ctx ctx
  match c.physical ia with
  | none => s
  | some pa =>
    let s := s.dropL1 fun l => l.ctx == ctx && l.piece == pieceOf ia
    let s := { s with l2 := s.l2.filter fun q => q.pa != pa / 64 * 64 }
    (({ s with mem := Memory.writeBytes s.mem pa (s.underReports op pa bytes) } : State).acceptModified pa).stamp c.dev ia

/-! ## Owl (R297 to R299) -/

/-- The Owl set of a piece (R297). -/
def State.owlSet (s : State) (piece : Nat) : Nat × Nat × Nat := (s.homeSlice (piece * 64), s.homeSet (piece * 64), piece % 32)

/-- Checks a write against a piece's entry and updates it: the recorded pedigree when the write races (R298). -/
def State.owlCheck (s : State) (ctx piece : Nat) (ped : BitVec 512) : State × Option (BitVec 512) :=
  let c := s.ctx ctx
  let ways := s.owlWays c.dev
  if ways = 0 then (s, none)
  else match s.owl.find? fun e => e.ctx == ctx && e.piece == piece with
    | some e =>
      match pedOrder e.ped ped with
      | .after => (s, none)
      | o =>
        let s := { s with owl := updateWhere (fun x => x.ctx == ctx && x.piece == piece) (fun x => { x with ped := ped }) s.owl }
        (s, if o = .parallel then some e.ped else none)
    | none =>
      let set := s.owlSet piece
      let mates := s.owl.filter fun e => e.dev == c.dev && s.owlSet e.piece == set
      let s := if mates.length < ways then s
        else match sortBy (fun a b => decide (a.since < b.since)) mates with
          | [] => s
          | old :: _ =>
            let s := { s with owl := s.owl.erase old }
            s.modCtx old.ctx fun d => { d with owlEvicted := d.owlEvicted + 1 }
      let e : OwlEntry := { dev := c.dev, ctx := ctx, piece := piece, ped := ped, since := s.tick }
      ({ s with owl := s.owl ++ [e] }.ticked, none)

/-- The parts of [a, a + n) that lie in one 64 B piece each. -/
def pieceChunks (a n : Nat) : List (Nat × Nat) :=
  if n = 0 then []
  else (upto ((a + n - 1) / 64 - a / 64 + 1)).map fun i =>
    let lo := max a ((a / 64 + i) * 64)
    (lo, min (a + n) ((a / 64 + i + 1) * 64) - lo)

/-- A write at system scope that is not a gang's, piece by piece (R267, R299, R355): a home slice stamps it; lines that an L1
holds stay as they are until an acquire drops them (R265). -/
def State.systemWrite (s : State) (ctx ia : Nat) (bytes : List Byte) : State :=
  let c := s.ctx ctx
  (pieceChunks ia bytes.length).foldl (fun (s : State) p =>
    match c.physical p.1 with
    | some pa =>
      let s := s.touchL2 c.dev ctx (pieceOf p.1) (pa / 64 * 64) true
      ({ s with mem := Memory.writeBytes s.mem pa ((bytes.drop (p.1 - ia)).take p.2) } : State).stamp c.dev p.1
    | none => s) s

/-! ## Images in the task area (R27, R69, R327) -/

/-- Writes an image to its place in the task area, where that lies in the area and its pages are mapped (log 9). -/
def State.writeArea (s : State) (ctx addr size : Nat) (cells : List Host.Cell) : State :=
  let c := s.ctx ctx
  if c.taskBase + c.taskSize < addr + size then s
  else (pieceChunks addr size).foldl (fun (s : State) p =>
    s.systemWrite ctx p.1 ((upto p.2).map fun i => Memory.read cells (p.1 - addr + i))) s

/-- An image goes to the lowest free place of the task area. -/
def State.keepImage (s : State) (ctx : Nat) (use : AreaUse) (size : Nat) (cells : List Host.Cell) : State :=
  let addr := (s.ctx ctx).freshAddr size
  (s.modCtx ctx fun c => c.keep use addr size cells).writeArea ctx addr size cells

end Sys2Proof.Machine
end

