-- ==== Sys2Proof/Machine/Format.lean ====
section
/-! DEFINITION. Format-table entries and what their encodings mean (R71 to R76, R84). -/
namespace Sys2Proof.Machine

/-- A format-table entry by its fields (R72). -/
structure Fmt where
  valid : Bool
  p : Nat
  w : Nat
  bias : Int
  s : Bool
  e : Nat
  f : Nat
  d : Bool
  deriving DecidableEq, Repr

/-- Reads the fields of an entry (R72). -/
def fmtOf (x : Dword) : Fmt :=
  { valid := x.getLsbD 15
    p := (x.extractLsb' 12 3).toNat
    w := 8 * 2 ^ (x.extractLsb' 32 2).toNat
    bias := (x.extractLsb' 16 16).toInt
    s := x.getLsbD 10
    e := (x.extractLsb' 6 4).toNat
    f := (x.extractLsb' 0 6).toNat
    d := x.getLsbD 34 }

/-- Policies (R72). -/
def Fmt.isFloat (f : Fmt) : Bool := f.valid && f.p ≤ 2
def Fmt.isInt (f : Fmt) : Bool := f.valid && f.p == 3
def Fmt.isBlock (f : Fmt) : Bool := f.valid && f.p == 4

/-- The validity rule of an entry (R73). -/
def entryValid (x : Dword) : Bool :=
  let f := fmtOf x
  if f.valid then
    x.getLsbD 11 == false && x.extractLsb' 35 29 == 0#29 &&
    (if f.p ≤ 2 then
      f.s && decide (1 ≤ f.f) && decide (f.f ≤ 52) && decide ((if f.p = 0 then 2 else 1) ≤ f.e) && decide (f.e ≤ 11) &&
        decide (0 ≤ f.bias) && decide (f.bias ≤ 2 ^ f.e - 1) && 1 + f.e + f.f == f.w
    else if f.p = 3 then
      f.e == 0 && decide (7 ≤ f.f) && !f.d && f.bias == 0 && (if f.s then 1 else 0) + f.f == f.w
    else if f.p = 4 then
      f.s && f.e == 0 && f.f == 6 && !f.d && f.bias == 0 && f.w == 8
    else false)
  else x == 0#64

/-- The table at context creation before a grove's own entries (R71). -/
def presetFormats : List Dword :=
  [0x0000000703FF86F4, 0x00000006007F8617, 0x00000005000F854A, 0x00000005007F8607,
   0x000000020000B41F, 0x000000020000B020, 0x000000000000B407, 0x000000030000B43F,
   0x0000000400079503, 0x00000004000F8542, 0x000000000000C406, 0x000000010000B40F,
   0x000000000000B008] ++ List.replicate 19 0#64

/-- bin64 and bin32, entries 0 and 1 (R71). -/
def bin64 : Fmt := fmtOf 0x0000000703FF86F4
def bin32 : Fmt := fmtOf 0x00000006007F8617
def bf16 : Fmt := fmtOf 0x00000005007F8607

/-- `exact()` of an encoding: a NaN with its payload bits and their count, an infinity, a signed zero, or
(-1)^s m 2^e with m nonzero (R74). -/
inductive Val where
  | nan (s quiet : Bool) (payload plen : Nat)
  | inf (s : Bool)
  | zero (s : Bool)
  | num (s : Bool) (m : Nat) (e : Int)
  deriving DecidableEq, Repr

def Val.isNan : Val → Bool
  | .nan _ _ _ _ => true
  | _ => false
def Val.isSnan : Val → Bool
  | .nan _ q _ _ => !q
  | _ => false
def Val.sign : Val → Bool
  | .nan s _ _ _ => s
  | .inf s => s
  | .zero s => s
  | .num s _ _ => s
def Val.neg : Val → Val
  | .nan s q p l => .nan s q p l
  | .inf s => .inf (!s)
  | .zero s => .zero (!s)
  | .num s m e => .num (!s) m e

/-- A signed magnitude as a value. -/
def mkNum (s : Bool) (m : Nat) (e : Int) : Val := if m = 0 then .zero s else .num s m e

/-- `exact(x)` of an encoding under an entry of P 0 to 3 (R74). -/
def exact (f : Fmt) (x : Nat) : Val :=
  let x := x % 2 ^ f.w
  if f.p = 3 then
    if f.s ∧ 2 ^ (f.w - 1) ≤ x then .num true (2 ^ f.w - x) 0 else mkNum false x 0
  else
    let s := decide (x / 2 ^ (f.w - 1) % 2 = 1)
    let ex := x / 2 ^ f.f % 2 ^ f.e
    let fr := x % 2 ^ f.f
    let top := 2 ^ f.e - 1
    if ex = 0 then (if f.d then mkNum s fr (1 - f.bias - f.f) else .zero s)
    else if f.p = 0 ∧ ex = top then
      (if fr = 0 then .inf s
       else .nan s (decide (2 ^ (f.f - 1) ≤ fr)) (fr % 2 ^ (f.f - 1)) (f.f - 1))
    else if f.p = 1 ∧ ex = top ∧ fr = 2 ^ f.f - 1 then .nan s true 0 0
    else .num s (2 ^ f.f + fr) (ex - f.bias - f.f)

/-- The largest finite magnitude as m 2^e (R74). -/
def maxFin (f : Fmt) : Nat × Int :=
  let top : Int := 2 ^ f.e - 1
  if f.p = 0 then (2 ^ (f.f + 1) - 1, top - 1 - f.bias - f.f)
  else if f.p = 1 then (2 ^ (f.f + 1) - 2, top - f.bias - f.f)
  else (2 ^ (f.f + 1) - 1, top - f.bias - f.f)

/-- emin (R74). -/
def Fmt.emin (f : Fmt) : Int := 1 - f.bias

/-- Puts a sign bit on the low bits of an encoding. -/
def withSign (f : Fmt) (s : Bool) (x : Nat) : Nat := if s then x + 2 ^ (f.w - 1) else x

/-- The encoding of a magnitude m 2^x that the entry can represent (R74). -/
def encodeMag (f : Fmt) (m : Nat) (x : Int) : Nat :=
  if m = 0 then 0
  else
    let l := m.log2
    let ev : Int := l + x
    if ev < f.emin then m * 2 ^ (x - (f.emin - f.f)).toNat
    else
      let fr := if l ≤ f.f then m * 2 ^ (f.f - l) else m / 2 ^ (l - f.f)
      (ev + f.bias).toNat * 2 ^ f.f + (fr - 2 ^ f.f)

/-- The encoding of maxfin, of infinity (R74, R77). -/
def encMaxFin (f : Fmt) (s : Bool) : Nat := withSign f s (encodeMag f (maxFin f).1 (maxFin f).2)
def encInf (f : Fmt) (s : Bool) : Nat := withSign f s ((2 ^ f.e - 1) * 2 ^ f.f)

/-- The default NaN: encoding, and whether the entry has none and invalid is raised (R80). -/
def defaultNan (f : Fmt) : Nat × Bool :=
  if f.p = 0 then ((2 ^ f.e - 1) * 2 ^ f.f + 2 ^ (f.f - 1), false)
  else if f.p = 1 then (2 ^ (f.e + f.f) - 1, false)
  else (0, true)

/-- Range of an INTEGER entry (R78). -/
def intLo (f : Fmt) : Int := if f.s then -(2 ^ (f.w - 1)) else 0
def intHi (f : Fmt) : Int := if f.s then 2 ^ (f.w - 1) - 1 else 2 ^ f.w - 1

/-- The W bits of an integer as two's complement (R74). -/
def encInt (w : Nat) (v : Int) : Nat := (v % (2 ^ w : Int)).toNat

/-- An element of a BLOCK entry under the code its selector picks (R84). -/
def blockExact (elem code : Nat) : Val :=
  let s := decide (elem / 128 % 2 = 1)
  let m := elem % 64
  if code = 0 then .zero s
  else if code = 255 then .nan false true 0 0
  else mkNum s m ((code : Int) - 127 - 6)

end Sys2Proof.Machine
end

