-- ==== Sys2Proof/Machine/Rounding.lean ====
section
/-! DEFINITION. Rounding to an entry, integers, conversion, and the rules for NaN, infinities and zeros that every
floating-point operation shares (R77 to R80, R83, R202). -/
namespace Sys2Proof.Machine

/-- Flags in the places of `$FSTAT` (R67). -/
def fxNone : BitVec 5 := 0
def fxInvalid : BitVec 5 := 1
def fxDivZero : BitVec 5 := 2
def fxOverflow : BitVec 5 := 4
def fxUnderflow : BitVec 5 := 8
def fxInexact : BitVec 5 := 16

/-- A result: its bits, the flags it raises, whether a signalling NaN was read (R82). -/
structure FRes where
  bits : Nat
  flags : BitVec 5
  snan : Bool
  deriving DecidableEq, Repr

/-- Rounding modes (R68): RNE 0, RTZ 1, RUP 2, RDN 3, RNA 4. -/
def rne : Nat := 0
def rtz : Nat := 1
def rup : Nat := 2
def rdn : Nat := 3

/-- `roundint` of a magnitude num/den (R77). -/
def roundInt (num den mode : Nat) (s : Bool) : Nat :=
  let q := num / den
  let r := num % den
  let up :=
    if mode = 0 then decide (den < 2 * r) || (2 * r == den && q % 2 == 1)
    else if mode = 1 then false
    else if mode = 2 then r != 0 && !s
    else if mode = 3 then r != 0 && s
    else decide (den ≤ 2 * r)
  if up then q + 1 else q

/-- Floor of log2 of p/q, both positive. -/
def ratLog2 (p q : Nat) : Int :=
  let k : Int := (p.log2 : Int) - q.log2
  let ge := if 0 ≤ k then decide (q * 2 ^ k.toNat ≤ p) else decide (q ≤ p * 2 ^ (-k).toNat)
  if ge then k else k - 1

/-- num/den of p/q 2^e. -/
def ratShift (p q : Nat) (e : Int) : Nat × Nat := if 0 ≤ e then (p * 2 ^ e.toNat, q) else (p, q * 2 ^ (-e).toNat)

/-- Compares m 2^x with n 2^y. -/
def magLt (m : Nat) (x : Int) (n : Nat) (y : Int) : Bool :=
  if x ≤ y then decide (m < n * 2 ^ (y - x).toNat) else decide (m * 2 ^ (x - y).toNat < n)

/-- `overflow_result` (R77). -/
def overflowResult (f : Fmt) (s : Bool) (mode : Nat) : Nat :=
  if f.p = 0 then
    if mode = 1 ∨ (mode = 2 ∧ s) ∨ (mode = 3 ∧ ¬ s) then encMaxFin f s else encInf f s
  else encMaxFin f s

/-- `rnd` of the nonzero real (-1)^s p/q 2^e (R77). -/
def rndRat (f : Fmt) (s : Bool) (p q : Nat) (e : Int) (mode : Nat) : Nat × BitVec 5 :=
  let e0 := ratLog2 p q + e
  let ex := if f.d ∧ e0 < f.emin then f.emin else e0
  let sc := ratShift p q (e - ex + f.f)
  let m := roundInt sc.1 sc.2 mode s
  let inexact := sc.1 % sc.2 != 0
  let fl := if inexact then (if e0 < f.emin then fxInexact ||| fxUnderflow else fxInexact) else fxNone
  if f.d = false ∧ magLt m (ex - f.f) 1 f.emin then (withSign f s 0, fxUnderflow ||| fxInexact)
  else if magLt (maxFin f).1 (maxFin f).2 m (ex - f.f) then
    (overflowResult f s mode, fl ||| fxOverflow ||| fxInexact)
  else (withSign f s (encodeMag f m (ex - f.f)), fl)

/-- The integer nearest (-1)^s p/q 2^e under a mode, and whether it differs (R78). -/
def toInteger (s : Bool) (p q : Nat) (e : Int) (mode : Nat) : Int × Bool :=
  let sc := ratShift p q e
  let m := roundInt sc.1 sc.2 mode s
  (if s then -(m : Int) else m, sc.1 % sc.2 != 0)

/-- A result before it is rounded into an entry. -/
inductive Out where
  /-- The NaN operands in operand order decide the result; `extra` holds flags besides the signalling ones. -/
  | nanOf (xs : List Val) (extra : BitVec 5)
  /-- Default NaN with invalid. -/
  | invalid
  | inf (s : Bool)
  /-- The infinity of a division by zero and the like (R202). -/
  | divZero (s : Bool)
  | zero (s : Bool)
  | rat (s : Bool) (p q : Nat) (e : Int)

/-- A NaN taken through `convert` into an entry (R80, R83). -/
def convertNan (f : Fmt) (s : Bool) (payload plen : Nat) : Nat × BitVec 5 :=
  if f.p = 0 then
    let keep := f.f - 1
    let frac := if plen ≤ keep then payload * 2 ^ (keep - plen) else payload / 2 ^ (plen - keep)
    (withSign f s ((2 ^ f.e - 1) * 2 ^ f.f + 2 ^ (f.f - 1) + frac), fxNone)
  else if f.p = 1 then (withSign f s (2 ^ (f.e + f.f) - 1), fxNone)
  else (0, fxInvalid)

/-- Whether some operand is a signalling NaN. -/
def anySnan (xs : List Val) : Bool := xs.any Val.isSnan

def snanFlag (xs : List Val) : BitVec 5 := if anySnan xs then fxInvalid else fxNone

/-- The invalid result: the default NaN, +0 under FINITE; invalid is raised (R80). -/
def invalidResult (f : Fmt) : Nat × BitVec 5 := ((defaultNan f).1, fxInvalid)

/-- Rounds a result into an entry with P 0 to 2 under a mode (R79, R80, R202). -/
def finishOut (f : Fmt) (mode : Nat) (ops : List Val) : Out → FRes
  | .nanOf xs extra =>
    match xs.find? Val.isNan with
    | some (.nan s _ pl l) =>
      let r := convertNan f s pl l
      { bits := r.1, flags := r.2 ||| extra ||| snanFlag ops, snan := anySnan ops }
    | _ => { bits := 0, flags := extra, snan := anySnan ops }
  | .invalid => { bits := (invalidResult f).1, flags := fxInvalid, snan := anySnan ops }
  | .inf s => { bits := if f.p = 0 then encInf f s else encMaxFin f s, flags := fxNone, snan := false }
  | .divZero s => { bits := if f.p = 0 then encInf f s else encMaxFin f s, flags := fxDivZero, snan := false }
  | .zero s => { bits := withSign f s 0, flags := fxNone, snan := false }
  | .rat s p q e =>
    let r := rndRat f s p q e mode
    { bits := r.1, flags := r.2, snan := false }

/-- The sign of an exact zero sum of nonzero or unlike terms: minus under RDN only, RNA as RNE (R79). -/
def zeroSumSign (mode : Nat) : Bool := mode == rdn

/-- The signed integer of a magnitude. -/
def signedInt (s : Bool) (m : Nat) : Int := if s then -(m : Int) else m

/-- A real as i 2^e. -/
def outOfInt (i : Int) (e : Int) (zeroSign : Bool) : Out :=
  if i = 0 then .zero zeroSign else .rat (decide (i < 0)) i.natAbs 1 e

/-- The sum of two dyadic numbers as i 2^e. -/
def dyadicAdd (a : Int) (x : Int) (b : Int) (y : Int) : Int × Int :=
  if x ≤ y then (a + b * 2 ^ (y - x).toNat, x) else (a * 2 ^ (x - y).toNat + b, y)

/-- IEEE addition of two values that are not NaN (R79, R204). -/
def addOut (mode : Nat) : Val → Val → Out
  | .inf s, .inf t => if s = t then .inf s else .invalid
  | .inf s, _ => .inf s
  | _, .inf t => .inf t
  | .zero s, .zero t => .zero (if s = t then s else zeroSumSign mode)
  | .zero _, .num t m e => .rat t m 1 e
  | .num s m e, .zero _ => .rat s m 1 e
  | .num s m x, .num t n y =>
    let r := dyadicAdd (signedInt s m) x (signedInt t n) y
    outOfInt r.1 r.2 (zeroSumSign mode)
  | _, _ => .invalid

/-- The exact product of two values that are not NaN: none for 0 times infinity. -/
def mulVal : Val → Val → Option Val
  | .inf _, .zero _ => none
  | .zero _, .inf _ => none
  | .inf s, y => some (.inf (s != y.sign))
  | x, .inf t => some (.inf (x.sign != t))
  | .num s m x, .num t n y => some (.num (s != t) (m * n) (x + y))
  | x, y => some (.zero (x.sign != y.sign))

/-- A value that is not NaN as an unrounded result. -/
def Val.toOut : Val → Out
  | .inf s => .inf s
  | .zero s => .zero s
  | .num s m e => .rat s m 1 e
  | .nan _ _ _ _ => .invalid

/-- Division of two values that are not NaN (R204). -/
def divOut : Val → Val → Out
  | .inf _, .inf _ => .invalid
  | .zero _, .zero _ => .invalid
  | .inf s, y => .inf (s != y.sign)
  | x, .inf t => .zero (x.sign != t)
  | .zero s, y => .zero (s != y.sign)
  | .num s _ _, .zero t => .divZero (s != t)
  | .num s m x, .num t n y => .rat (s != t) m n (x - y)
  | _, _ => .invalid

/-- An operation of two operands with the NaN rule of R80. -/
def binaryF (f : Fmt) (mode : Nat) (op : Val → Val → Out) (a b : Nat) : FRes :=
  let x := exact f a
  let y := exact f b
  finishOut f mode [x, y] (if x.isNan || y.isNan then .nanOf [x, y] 0 else op x y)

/-- An operation of one operand with the NaN rule of R80. -/
def unaryF (f : Fmt) (mode : Nat) (op : Val → Out) (a : Nat) : FRes :=
  let x := exact f a
  finishOut f mode [x] (if x.isNan then .nanOf [x] 0 else op x)

def faddBits (f : Fmt) (mode : Nat) : Nat → Nat → FRes := binaryF f mode (addOut mode)
def fsubBits (f : Fmt) (mode : Nat) : Nat → Nat → FRes := binaryF f mode fun x y => addOut mode x y.neg
def fmulBits (f : Fmt) (mode : Nat) : Nat → Nat → FRes := binaryF f mode fun x y =>
  match mulVal x y with
  | some v => v.toOut
  | none => .invalid
def fdivBits (f : Fmt) (mode : Nat) : Nat → Nat → FRes := binaryF f mode divOut

/-- The fused operations (R205): the product term with its sign, then the addend with its sign, rounded once. -/
def fmaBits (f : Fmt) (mode : Nat) (negP negQ : Bool) (a b d : Nat) : FRes :=
  let x := exact f a
  let y := exact f b
  let z := exact f d
  let zeroInf := match x, y with
    | .inf _, .zero _ => true
    | .zero _, .inf _ => true
    | _, _ => false
  let out : Out :=
    if x.isNan || y.isNan || z.isNan then .nanOf [x, y, z] (if zeroInf then fxInvalid else 0)
    else match mulVal x y with
      | none => .invalid
      | some p => addOut mode (if negP then p.neg else p) (if negQ then z.neg else z)
  finishOut f mode [x, y, z] out

/-- `irnd` (R78) of a value that is not NaN, with its flags. -/
def irnd (f : Fmt) (mode : Nat) : Val → Nat × BitVec 5
  | .nan _ _ _ _ => (0, fxInvalid)
  | .inf s => (encInt f.w (if s then intLo f else intHi f), fxInvalid)
  | .zero _ => (0, fxNone)
  | .num s m e =>
    let r := toInteger s m 1 (if e < 4096 then e else 4096) mode
    if r.1 < intLo f then (encInt f.w (intLo f), fxInvalid)
    else if intHi f < r.1 then (encInt f.w (intHi f), fxInvalid)
    else (encInt f.w r.1, if r.2 then fxInexact else fxNone)

/-- `convert` of a value (R83); `same` says that source and destination are one table index. -/
def convertBits (fs fd : Fmt) (same : Bool) (x mode : Nat) : FRes :=
  let v := exact fs x
  let sn := v.isSnan
  let fl := if sn then fxInvalid else fxNone
  match v with
  | .nan s _ pl l =>
    if fd.p = 3 then { bits := 0, flags := fl ||| fxInvalid, snan := sn }
    else
      let r := convertNan fd s pl l
      { bits := r.1, flags := fl ||| r.2, snan := sn }
  | .inf s =>
    if fd.p = 0 then { bits := encInf fd s, flags := fxNone, snan := false }
    else if fd.p = 3 then
      let r := irnd fd mode v
      { bits := r.1, flags := r.2, snan := false }
    else { bits := encMaxFin fd s, flags := fxOverflow ||| fxInexact, snan := false }
  | .zero s =>
    if same then { bits := x % 2 ^ fs.w, flags := fxNone, snan := false }
    else { bits := if fd.p = 3 then 0 else withSign fd s 0, flags := fxNone, snan := false }
  | .num s m e =>
    if same then { bits := x % 2 ^ fs.w, flags := fxNone, snan := false }
    else if fd.p = 3 then
      let r := irnd fd mode v
      { bits := r.1, flags := r.2, snan := false }
    else
      let r := rndRat fd s m 1 e mode
      { bits := r.1, flags := r.2, snan := false }

end Sys2Proof.Machine
end

