-- ==== Sys2Proof/Machine/Elementary.lean ====
section
/-! DEFINITION. Roots, reciprocals, minimum and maximum, comparison, classification, integral rounding, scaling and
the transcendentals (R206 to R213). The transcendentals are the exact function value rounded once (R81): the value is
formed in 512-bit fixed point with what is cut off kept as a sticky bit, and exact cases apart (log 11). -/
namespace Sys2Proof.Machine

/-! ## Square roots -/

/-- Newton's iteration from above; stops when it no longer falls. -/
def sqrtIter : Nat → Nat → Nat → Nat
  | 0, _, x => x
  | fuel + 1, n, x =>
    let y := (x + n / x) / 2
    if y < x then sqrtIter fuel n y else x

/-- Floor of the square root. -/
def isqrt (n : Nat) : Nat := if n = 0 then 0 else sqrtIter (n.log2 + 8) n (2 ^ (n.log2 / 2 + 1))

/-- The square root of p/q 2^e to 600 bits below the point of an integer of at least 600 bits, with a sticky bit. -/
def sqrtOut (p q : Nat) (e : Int) : Out :=
  let odd : Nat := if e % 2 = 0 then 0 else 1
  let num := p * q * 2 ^ odd * 2 ^ 1200
  let r := isqrt num
  let sticky := if r * r = num then 0 else 1
  .rat false (2 * r + sticky) (2 * q) ((e - odd) / 2 - 600)

/-- `fsqrt` (R206). -/
def fsqrtBits (f : Fmt) (mode : Nat) : Nat → FRes := unaryF f mode fun x =>
  match x with
  | .zero s => .zero s
  | .inf s => if s then .invalid else .inf false
  | .num s m e => if s then .invalid else sqrtOut m 1 e
  | .nan _ _ _ _ => .invalid

/-- Rounds toward zero, but an exact magnitude above maxfin overflows under the mode of `$MODE.rnd` (R206). -/
def nearZero (f : Fmt) (mode : Nat) : Out → FRes
  | .rat s p q e =>
    let sc := ratShift p q (e - (maxFin f).2)
    if (maxFin f).1 * sc.2 < sc.1 then
      { bits := overflowResult f s mode, flags := fxOverflow ||| fxInexact, snan := false }
    else finishOut f rtz [] (.rat s p q e)
  | o => finishOut f rtz [] o

/-- `frcp` (R206). -/
def frcpBits (f : Fmt) (mode : Nat) (a : Nat) : FRes :=
  match exact f a with
  | .nan s q p l => finishOut f mode [.nan s q p l] (.nanOf [.nan s q p l] 0)
  | .zero s => finishOut f mode [] (.divZero s)
  | .inf s => finishOut f mode [] (.zero s)
  | .num s m e => nearZero f mode (.rat s 1 m (-e))

/-- `frsq` (R206). -/
def frsqBits (f : Fmt) (mode : Nat) (a : Nat) : FRes :=
  match exact f a with
  | .nan s q p l => finishOut f mode [.nan s q p l] (.nanOf [.nan s q p l] 0)
  | .zero s => finishOut f mode [] (.divZero s)
  | .inf s => finishOut f mode [] (if s then .invalid else .zero false)
  | .num s m e => if s then finishOut f mode [] .invalid else nearZero f mode (sqrtOut 1 m (-e))

/-! ## Order (R207, R209) -/

/-- Strictly less by value, -0 below +0 (R207); neither is NaN. -/
def valLt (zeroOrder : Bool) : Val → Val → Bool
  | .inf s, .inf t => s && !t
  | .inf s, _ => s
  | _, .inf t => !t
  | .zero s, .zero t => zeroOrder && s && !t
  | .zero _, .num t _ _ => !t
  | .num s _ _, .zero _ => s
  | .num s m x, .num t n y =>
    if s != t then s else if s then magLt n y m x else magLt m x n y
  | _, _ => false

/-- `fmin`, `fmax`, `fminn`, `fmaxn` (R207). -/
def fminmaxBits (f : Fmt) (greater number : Bool) (a b : Nat) : FRes :=
  let x := exact f a
  let y := exact f b
  let sn := anySnan [x, y]
  let fl := snanFlag [x, y]
  let nanRes := finishOut f 0 [x, y] (.nanOf [x, y] 0)
  let pick (v : Nat) : FRes := { bits := v % 2 ^ f.w, flags := fl, snan := sn }
  if number then
    if x.isNan && y.isNan then nanRes
    else if x.isNan then pick b
    else if y.isNan then pick a
    else if greater then (if valLt true x y then pick b else pick a)
    else (if valLt true y x then pick b else pick a)
  else if x.isNan || y.isNan then nanRes
  else if greater then (if valLt true x y then pick b else pick a)
  else (if valLt true y x then pick b else pick a)

/-- The condition of `fcmp` (R209) and its flags. -/
def fcmpBits (f : Fmt) (cond : Nat) (signalling : Bool) (a b : Nat) : Bool × BitVec 5 × Bool :=
  let x := exact f a
  let y := exact f b
  let un := x.isNan || y.isNan
  let sn := anySnan [x, y]
  let fl := if sn || (signalling && un) then fxInvalid else fxNone
  let lt := valLt false x y
  let gt := valLt false y x
  let r :=
    if un then cond == 1 || cond == 6
    else match cond with
      | 0 => !lt && !gt
      | 1 => lt || gt
      | 2 => lt
      | 3 => !gt
      | 4 => gt
      | 5 => !lt
      | 6 => false
      | 7 => true
      | _ => false
  (r, fl, sn)

/-! ## Signs and classes (R208, R210) -/

def fabsBits (f : Fmt) (a : Nat) : Nat := a % 2 ^ (f.w - 1)
def fnegBits (f : Fmt) (a : Nat) : Nat := (a % 2 ^ f.w) ^^^ 2 ^ (f.w - 1)
def fcpysBits (f : Fmt) (a b : Nat) : Nat := withSign f (decide (b / 2 ^ (f.w - 1) % 2 = 1)) (a % 2 ^ (f.w - 1))

/-- The class word (R210). -/
def fclassBits (f : Fmt) (a : Nat) : Nat :=
  match exact f a with
  | .nan _ q _ _ => if q then 2 else 1
  | .inf s => if s then 4 else 512
  | .zero s => if s then 32 else 64
  | .num s m e =>
    let sub := decide ((m.log2 : Int) + e < f.emin)
    if s then (if sub then 16 else 8) else (if sub then 128 else 256)

/-! ## Integral rounding, scale, exponent (R211, R212) -/

/-- `frnd` (R211): an infinity or a zero passes as it is encoded. Where the rounded integer lies beyond maxfin (an entry with a
bias so large that 1 is not representable) the result is a free value without a flag: R211 calls it representable (log 69). -/
def frndBits (f : Fmt) (mode : Nat) (a : Nat) : FRes :=
  match exact f a with
  | .nan s q p l => finishOut f mode [.nan s q p l] (.nanOf [.nan s q p l] 0)
  | .inf _ => { bits := a % 2 ^ f.w, flags := fxNone, snan := false }
  | .zero _ => { bits := a % 2 ^ f.w, flags := fxNone, snan := false }
  | .num s m e =>
    let sc := ratShift m 1 e
    let r := roundInt sc.1 sc.2 mode s
    let beyond := magLt (maxFin f).1 (maxFin f).2 r 0
    { bits := if beyond then Config.frndBeyond f.e f.f f.bias mode a % 2 ^ f.w else withSign f s (encodeMag f r 0)
      flags := fxNone, snan := false }

/-- `fscb` (R212): the count is cut to a range beyond every entry's. -/
def fscbBits (f : Fmt) (mode : Nat) (a : Nat) (n : Int) : FRes :=
  let n := if n < -10000 then -10000 else if 10000 < n then 10000 else n
  match exact f a with
  | .num s m e => finishOut f mode [] (.rat s m 1 (e + n))
  | .nan s q p l => finishOut f mode [.nan s q p l] (.nanOf [.nan s q p l] 0)
  | _ => { bits := a % 2 ^ f.w, flags := fxNone, snan := false }

/-- `flgb` (R212). -/
def flgbBits (f : Fmt) (mode : Nat) : Nat → FRes := unaryF f mode fun x =>
  match x with
  | .zero _ => .divZero true
  | .inf _ => .inf false
  | .num _ m e => outOfInt ((m.log2 : Int) + e) 0 false
  | .nan _ _ _ _ => .invalid

/-! ## Fixed-point series -/

/-- Bits of the fixed point. -/
def fxp : Nat := 512

def one : Nat := 2 ^ fxp

/-- Product of two fixed-point numbers, cut. -/
def fmulx (a b : Nat) : Nat := a * b / one

/-- Sum of z^(2k+1)/(2k+1): atanh of z below 1/2. -/
def atanhSum : Nat → Nat → Nat → Nat → Nat → Nat
  | 0, _, _, _, acc => acc
  | fuel + 1, k, t, z2, acc => atanhSum fuel (k + 2) (fmulx t z2) z2 (acc + t / k)

def atanh (z : Nat) : Nat := atanhSum 320 1 z (fmulx z z) 0

/-- ln 2 = 2 atanh(1/3). -/
def ln2 : Nat := 2 * atanh (one / 3)

/-- Sum of y^k / k!. -/
def expSum : Nat → Nat → Nat → Nat → Nat → Nat
  | 0, _, _, _, acc => acc
  | fuel + 1, k, t, y, acc => expSum fuel (k + 1) (fmulx t y / k) y (acc + t)

/-- exp of a fixed-point number below 1. -/
def expFix (y : Nat) : Nat := expSum 140 1 one y 0

/-- atan of 1/n, by alternating terms. -/
def atanInv : Nat → Nat → Nat → Nat → Bool → Nat → Nat
  | 0, _, _, _, _, acc => acc
  | fuel + 1, k, t, n2, plus, acc => atanInv fuel (k + 2) (t / n2) n2 (!plus) (if plus then acc + t / k else acc - t / k)

/-- pi = 16 atan(1/5) - 4 atan(1/239). -/
def piFix : Nat := 16 * atanInv 240 1 (one / 5) 25 true 0 - 4 * atanInv 80 1 (one / 239) 57121 true 0

/-- sin(y)/y for y squared. -/
def sincSum : Nat → Nat → Nat → Nat → Bool → Nat → Nat
  | 0, _, _, _, _, acc => acc
  | fuel + 1, k, t, y2, plus, acc =>
    sincSum fuel (k + 2) (fmulx t y2 / ((k + 1) * (k + 2))) y2 (!plus) (if plus then acc + t else acc - t)

/-- A fixed-point magnitude with a sticky bit below it: never exact. -/
def stickyOut (s : Bool) (v : Nat) (e : Int) : Out := .rat s (2 * v + 1) 1 (e - 1)

/-- Just below (-1)^s 2^0, just above. -/
def belowOne (s : Bool) : Out := .rat s (2 ^ 4096 - 1) 1 (-4096)
def aboveOne : Out := .rat false (2 ^ 4096 + 1) 1 (-4096)

/-- m 2^e in fixed point, cut. -/
def toFix (m : Nat) (e : Int) : Nat :=
  let x := e + fxp
  if 0 ≤ x then m * 2 ^ x.toNat else m / 2 ^ (-x).toNat

/-- 2^x for x = n + r (R213). -/
def exp2Out (s : Bool) (m : Nat) (e : Int) : Out :=
  if 20 < (m.log2 : Int) + e then stickyOut false 1 (if s then -(2 ^ 20) else 2 ^ 20)
  else if (m.log2 : Int) + e < -400 then (if s then belowOne false else aboveOne)
  else
    let sc := ratShift m 1 e
    let q := sc.1 / sc.2
    let r := sc.1 % sc.2
    if r = 0 then .rat false 1 1 (if s then -(q : Int) else q)
    else if s then
      -- 2^-(q + r) = 2^-(q+1) 2^(1-r)
      stickyOut false (expFix (fmulx ((sc.2 - r) * one / sc.2) ln2)) (-(q : Int) - 1 - fxp)
    else stickyOut false (expFix (fmulx (r * one / sc.2) ln2)) ((q : Int) - fxp)

/-- log2 of m 2^e (R213). -/
def log2Out (m : Nat) (e : Int) : Out :=
  let l := m.log2
  if m = 2 ^ l then outOfInt ((l : Int) + e) 0 false
  else
    let t := m * one / 2 ^ l
    let lg := 2 * atanh ((t - one) * one / (t + one)) * one / ln2
    let n : Int := (l : Int) + e
    -- n + lg with 0 < lg < 1; the sticky bit lies between neighbours
    let v : Int := n * one + lg
    if 0 ≤ v then stickyOut false v.toNat (-fxp) else .rat true (2 * (-v).toNat - 1) 1 (-(fxp : Int) - 1)

/-- sin(pi r) for 0 < r = a/b ≤ 1/2. -/
def sinPiFix (s : Bool) (a b : Nat) : Out :=
  if 2 * a = b then .rat s 1 1 0
  else if a * 2 ^ 256 < b then
    -- pi r (1 - tiny): pi is cut below, and the sticky bit covers both
    .rat s (2 * piFix * a - 1) b (-(fxp : Int) - 1)
  else
    let y := piFix * a / b
    let sinc := sincSum 100 1 one (fmulx y y) true 0
    .rat s (2 * (piFix * sinc / one * a) + 1) b (-(fxp : Int) - 1)

/-- cos(pi r) for 0 < r = a/b < 1/2. -/
def cosPiFix (s : Bool) (a b : Nat) : Out :=
  if a * 2 ^ 200 < b then belowOne s else sinPiFix s (b - 2 * a) (2 * b)

/-- sin(pi x) (R213): by the period and the symmetries of the quarter waves. -/
def sinPiOut (s : Bool) (m : Nat) (e : Int) : Out :=
  let sc := ratShift m 1 e
  let n := sc.1 / sc.2
  let r := sc.1 % sc.2
  if r = 0 then .zero s
  else
    let neg := s != (n % 2 == 1)
    if 2 * r ≤ sc.2 then sinPiFix neg r sc.2 else sinPiFix neg (sc.2 - r) sc.2

/-- cos(pi x) (R213). -/
def cosPiOut (m : Nat) (e : Int) : Out :=
  let sc := ratShift m 1 e
  let n := sc.1 / sc.2
  let r := sc.1 % sc.2
  let neg := n % 2 == 1
  if r = 0 then .rat neg 1 1 0
  else if 2 * r = sc.2 then .zero false
  else if 2 * r < sc.2 then cosPiFix neg r sc.2
  else cosPiFix (!neg) (sc.2 - r) sc.2

/-- tanh x (R213). -/
def tanhOut (s : Bool) (m : Nat) (e : Int) : Out :=
  let top : Int := (m.log2 : Int) + e
  if 12 ≤ top then belowOne s
  else if top < -150 then .rat s (m * 2 ^ 256 - 1) 1 (e - 256)
  else
    -- e^(2x) = 2^n e^r
    let y := toFix (2 * m) e
    let n := y / ln2
    let ex := expFix (y % ln2) * 2 ^ n
    if 1200 < n then belowOne s
    else .rat s (2 * (ex - one) + 1) (2 * (ex + one)) 0

def fexp2Bits (f : Fmt) (mode : Nat) : Nat → FRes := unaryF f mode fun x =>
  match x with
  | .zero _ => .rat false 1 1 0
  | .inf s => if s then .zero false else .inf false
  | .num s m e => exp2Out s m e
  | .nan _ _ _ _ => .invalid

def flog2Bits (f : Fmt) (mode : Nat) : Nat → FRes := unaryF f mode fun x =>
  match x with
  | .zero _ => .divZero true
  | .inf s => if s then .invalid else .inf false
  | .num s m e => if s then .invalid else log2Out m e
  | .nan _ _ _ _ => .invalid

def fsinpBits (f : Fmt) (mode : Nat) : Nat → FRes := unaryF f mode fun x =>
  match x with
  | .zero s => .zero s
  | .inf _ => .invalid
  | .num s m e => sinPiOut s m e
  | .nan _ _ _ _ => .invalid

def fcospBits (f : Fmt) (mode : Nat) : Nat → FRes := unaryF f mode fun x =>
  match x with
  | .zero _ => .rat false 1 1 0
  | .inf _ => .invalid
  | .num _ m e => cosPiOut m e
  | .nan _ _ _ _ => .invalid

def ftanhBits (f : Fmt) (mode : Nat) : Nat → FRes := unaryF f mode fun x =>
  match x with
  | .zero s => .zero s
  | .inf s => .rat s 1 1 0
  | .num s m e => tanhOut s m e
  | .nan _ _ _ _ => .invalid

end Sys2Proof.Machine
end

