-- ==== Sys2Proof/Machine/Flags.lean ====
section
/-! DEFINITION. Condition codes and floating-point flags: `$CC` and its conditions (R67, R103, R179), compares into
masks (R177), the flags and traps of lanes (R82). -/
namespace Sys2Proof.Machine

/-- A condition word from its bits (R67). -/
def ccWord (eq lt ltu : Bool) : Word :=
  (if eq then 1#32 else 0#32) ||| (if lt then 2#32 else 0#32) ||| (if ltu then 4#32 else 0#32)

/-- The conditions of `bcc` (R67, R103); codes above 11 are ILLEGAL. -/
def ccHolds (cc : Word) (code : BitVec 4) : Bool :=
  let eq := cc.getLsbD 0
  let lt := cc.getLsbD 1
  let ltu := cc.getLsbD 2
  match code.toNat with
  | 0 => eq
  | 1 => !eq
  | 2 => lt
  | 3 => lt || eq
  | 4 => !(lt || eq)
  | 5 => !lt
  | 6 => ltu
  | 7 => ltu || eq
  | 8 => !(ltu || eq)
  | 9 => !ltu
  | 10 => true
  | _ => false

/-- The `$CC` that `ucmp` writes (R179). -/
def ucmpWord {k : Nat} (a b : BitVec k) : Word := ccWord (a == b) (a.slt b) (a.ult b)

/-- The conditions of `icmp` (R177): the same codes on the comparison itself. -/
def icmpHolds {k : Nat} (c : BitVec 4) (a b : BitVec k) : Bool := ccHolds (ucmpWord a b) c

/-- Trap enables in force: none in supervisor mode (R340). -/
def Gang.enables (g : Gang) : BitVec 6 := if g.supervisor then 0 else g.ftrap.setWidth 6

/-- Whether a lane's result traps (R82). -/
def FRes.traps (en : BitVec 6) (r : FRes) : Bool :=
  r.flags &&& en.setWidth 5 != 0#5 || (r.snan && en.getLsbD 5)

/-- The lanes of act whose results trap. -/
def trappedLanes (en : BitVec 6) (act : Mask) (res : Nat → FRes) : Mask := maskOf fun l => inMask act l && (res l).traps en

/-- SNAN when a trapped lane read a signalling NaN with that enable set, else FPX (R82). -/
def trapCode (en : BitVec 6) (trapped : Mask) (res : Nat → FRes) : BitVec 8 :=
  if (lanesOf trapped).any fun l => (res l).snan && en.getLsbD 5 then codeSnan else codeFpx

/-- The flags of the lanes of a mask together. -/
def flagsOver (m : Mask) (res : Nat → FRes) : BitVec 5 := (lanesOf m).foldl (fun f l => f ||| (res l).flags) 0

/-- Merges flags into `$FSTAT` (R67). -/
def Gang.raise (g : Gang) (f : BitVec 5) : Gang := { g with fstat := g.fstat ||| f.setWidth 32 }

/-- The trap of a fixed-latency unit, if some lane trapped. -/
def trapOf (en : BitVec 6) (trapped : Mask) (res : Nat → FRes) : Option (BitVec 8 × Mask) :=
  if trapped = 0 then none else some (trapCode en trapped res, trapped)

/-- A unit that leaves a floating-point trap. -/
def doneTrap (s : State) (t : Option (BitVec 8 × Mask)) : Done :=
  { done s with trap := t }

end Sys2Proof.Machine
end

