-- ==== Sys2Proof/Machine/Operands.lean ====
section
/-! DEFINITION. Operand forms: registers, pairs and records, immediates with and without `lim` (R98, R99, R101),
captured format entries (R76, R93, R107), lane addresses (R222), operand records (R239). -/
namespace Sys2Proof.Machine

/-! ## Registers by form -/

/-- A register, or both registers of a pair. -/
def regsFor (pair : Bool) (r : Nat) : List Nat := if pair then [r, r + 1] else [r]

/-- The registers of a record of k. -/
def recordRegs (r k : Nat) : List Nat := (upto k).map fun i => r + i

/-- The checks every unit makes on its registers in the order of R165 and R201: FRAMEREG on all named, NOTUNIF, HAZARD
on those read. -/
def Gang.checkOperands (g : Gang) (named uniform reads : List Nat) : Try Unit :=
  match g.checkRegs named with
  | .error e => .error e
  | .ok _ => match g.checkUniform uniform with
    | .error e => .error e
    | .ok _ => g.checkReady reads

/-- The value of a U register. -/
def Gang.uni (g : Gang) (r : Nat) : Word := g.lane r 0

/-- The value of a U pair. -/
def Gang.uniPair (g : Gang) (r : Nat) : Dword := g.pair r 0

/-- A result by lanes, U when every source is U (R53). -/
def lift1 (f : Word → Word) : RegVal → RegVal
  | .u a => .u (f a)
  | v => .ofFn fun l => f (v.lane l)

def lift2 (f : Word → Word → Word) : RegVal → RegVal → RegVal
  | .u a, .u b => .u (f a b)
  | v, w => .ofFn fun l => f (v.lane l) (w.lane l)

def lift3 (f : Word → Word → Word → Word) : RegVal → RegVal → RegVal → RegVal
  | .u a, .u b, .u c => .u (f a b c)
  | v, w, x => .ofFn fun l => f (v.lane l) (w.lane l) (x.lane l)

/-- A fixed-latency unit whose one result is a register: checks, the wait for a pending destination (R164), the
write. -/
def regUnit (s : State) (d : Nat) (srcs uniform : List Nat) (res : Gang → RegVal) : Try Done :=
  let g := s.cur
  match g.checkOperands (d :: srcs) uniform srcs with
  | .error e => .error e
  | .ok _ =>
    if g.act = 0 then .ok (done s)
    else match g.awaitDest [d] with
      | .error e => .error e
      | .ok _ => match s.writeRegs g.act [(d, res g)] with
        | .error e => .error e
        | .ok s => .ok (done s)

/-- A unit whose one result is the bits of a mask in the lanes of act (R56). -/
def maskUnit (s : State) (m : Nat) (srcs uniform : List Nat) (res : Gang → Mask) : Try Done :=
  let g := s.cur
  match g.checkOperands srcs uniform srcs with
  | .error e => .error e
  | .ok _ => .ok (done (s.modCur fun g => g.setMask m g.act (res g)))

/-! ## Format entries (R76, R93, R94, R107) -/

/-- An entry after the first n updates that the hub has accepted (R94). -/
def Context.formatAfter (c : Context) (n ix : Nat) : Dword :=
  match ((c.fmtLog.take n).reverse.find? fun p => p.1 == ix) with
  | some p => p.2.1
  | none => c.formats.getD ix 0

/-- An entry as applied on a core (R95). -/
def Context.formatAt (c : Context) (core ix : Nat) : Dword :=
  c.formatAfter (((c.fmtSeen.find? fun p => p.1 == core).map fun p => p.2).getD 0) ix

/-- The table on the hub (R94). -/
def Context.hubFormats (c : Context) : List Dword := (upto 32).map (c.formatAfter c.fmtLog.length)

/-- The entry of an index as the gang in issue captures it. -/
def State.entry (s : State) (ix : Nat) : Dword := s.here.formatAt (s.crewOf s.cur).core ix

/-- FMTEMPTY for an empty entry, FMTBAD for one its use does not accept or for a reserved rounding mode (R76). -/
def checkFormats (fs : List (Fmt × Bool)) (rndOk : Bool) : Try Unit :=
  if fs.any fun p => !p.1.valid then .error (.fault codeFmtEmpty)
  else if !rndOk || fs.any fun p => !p.2 then .error (.fault codeFmtBad)
  else .ok ()

/-- The entry a vector floating-point instruction accepts (R76). -/
def Fmt.forVector (f : Fmt) : Bool := f.isFloat && f.w != 8

/-- The rounding mode field is legal (R76). -/
def Gang.rndOk (g : Gang) : Bool := decide (g.rnd.toNat ≤ 4)

/-- ILLEGAL for an odd register where a captured entry has W = 64 (R107). -/
def checkOdd (pair : Bool) (rs : List Nat) : Try Unit := check (!pair || rs.all fun r => r % 2 == 0) codeIllegal

/-- A floating or integer operand's bits under a width (R75, R200). -/
def Gang.operand (g : Gang) (w r l : Nat) : Nat :=
  if w = 64 then (g.pair r l).toNat else (g.lane r l).toNat % 2 ^ w

/-- The registers a result of a width is written to, as general rows (R75). -/
def resultRegs (w d : Nat) (bits : Nat → Nat) : List (Nat × RegVal) :=
  if w = 64 then [(d, .ofFn fun l => BitVec.ofNat 32 (bits l)), (d + 1, .ofFn fun l => BitVec.ofNat 32 (bits l / 2 ^ 32))]
  else [(d, .ofFn fun l => BitVec.ofNat 32 (bits l))]

/-! ## Immediates (R99, R101) -/

/-- imm32 of a `lim` pair. -/
def limImm (hi : BitVec 22) (lo : BitVec 10) : Word := hi ++ lo

/-! ## Addresses (R222) -/

/-- row(pa, l) + off mod 2^64. -/
def Gang.addr (g : Gang) (a : Nat) (off : Dword) (l : Nat) : Dword := g.pair a l + off

/-- row(pa, l) + the index, scaled by the access size when asked (R222, R229). -/
def Gang.addrX (g : Gang) (a b size : Nat) (scale : Bool) (l : Nat) : Dword :=
  g.pair a l + sextD (g.lane b l) * BitVec.ofNat 64 (if scale then size else 1)

/-- Bytes of a size code (R104). -/
def sizeBytes (c : BitVec 2) : Nat := 2 ^ c.toNat

/-! ## Operand records (R239, R240) -/

/-- The four words of a record. -/
structure Rec where
  base : Nat
  extent : Nat
  stride : Nat
  rows : Nat
  range : Nat
  deriving DecidableEq, Repr

def Gang.record (g : Gang) (r : Nat) : Rec :=
  { base := (g.uni r).toNat, extent := (g.uni (r + 1)).toNat, stride := (g.uni (r + 2)).toNat,
    rows := (g.uni (r + 3)).toNat % 2 ^ 28, range := (g.uni (r + 3)).toNat / 2 ^ 28 }

/-- One past the last byte a record covers, relative to its space; 0 when it moves nothing. -/
def Rec.endByte (r : Rec) : Nat := if r.rows = 0 ∨ r.extent = 0 then 0 else r.base + (r.rows - 1) * r.stride + r.extent

/-- ALIGN when a word of the record is not a multiple of 4 (R240). -/
def Rec.aligned (r : Rec) : Bool := r.base % 4 == 0 && r.extent % 4 == 0 && r.stride % 4 == 0

end Sys2Proof.Machine
end

