-- ==== Sys2Proof/Machine/Flights.lean ====
section
/-! DEFINITION. Accesses in flight: which of them may take effect (R262, R278), the replay queue (R261), the lines an
engine owns (R241, R284), the pending faults of a gang (R338). -/
namespace Sys2Proof.Machine

/-! ## Kinds of flights -/

/-- An access of lanes to memory or scratch, as against a value or an engine operation. -/
def Flight.isAccess (f : Flight) : Bool :=
  match f.op with
  | .value | .late _ _ _ | .copy | .drain | .recv => false
  | _ => true

/-- A read: `ld`, `lda`, `lds`, atomics (R225). -/
def Flight.reads (f : Flight) : Bool :=
  match f.op with
  | .load | .lda | .lds | .atom _ _ => true
  | _ => false

/-- A write of memory or scratch. -/
def Flight.writes (f : Flight) : Bool :=
  match f.op with
  | .store | .str | .sts | .atom _ _ => true
  | _ => false

/-- Holds every later access until it is complete: `lda`, and `atom` above scope gang (R262, R278). -/
def Flight.acquires (f : Flight) : Bool :=
  match f.op with
  | .lda => true
  | .atom _ _ => f.scope != 0
  | _ => false

/-- Completes only after every earlier access: `str`, and `atom` above scope gang (R231, R262, R278). -/
def Flight.releases (f : Flight) : Bool :=
  match f.op with
  | .str => true
  | .atom _ _ => f.scope != 0
  | _ => false

/-- Some lane of it is under way, outside the replay queue. -/
def Flight.flying (f : Flight) : Bool := !f.finished && f.lanes.any fun l => l.st == .flying

/-- Two ranges of bytes overlap. -/
def overlaps (a n b m : Nat) : Bool := decide (a < b + m) && decide (b < a + n)

/-- Unfinished lanes of a flight that touch bytes of a space. -/
def Flight.touching (f : Flight) (scratch : Bool) (a n : Nat) : List LaneAcc :=
  f.lanes.filter fun l => l.st != .done && f.scratch == scratch && overlaps l.addr f.size a n

/-- Flights of a gang before one, in issue order, that are not finished. -/
def Gang.before (g : Gang) (id : Nat) : List Flight := g.flights.filter fun f => decide (f.id < id) && !f.finished

/-! ## The replay queue (R261 to R263) -/

/-- While the queue is full the gang issues no memory access or engine operation (R261). -/
def State.queueOpen (s : State) (g : Gang) : Bool := decide (s.queueEntries g < Config.replayDepth)

/-- The lanes of every entry of the queue (R263). -/
def State.queueMask (s : State) (g : Gang) : Mask :=
  let own := g.flights.foldl (fun m f => m ||| maskOfList ((f.lanes.filter fun l => l.st == .queued).map fun l => l.lane)) 0#128
  s.cores.foldl (fun m c =>
    let m := (c.copies.filter fun p => p.gang == g.id && p.queued).foldl (fun m p => m ||| p.act) m
    (c.mats.filter fun x => x.issuers.contains g.id && x.queued).foldl (fun m x => m ||| x.act) m) own

/-- A lane of an access is held behind an earlier access in the queue: overlapping bytes, or a queued acquire, which holds
accesses of scratch too (R262). -/
def heldBehind (earlier : List Flight) (f : Flight) (l : LaneAcc) : Bool :=
  earlier.any fun e => e.held && (e.acquires ||
    (e.lanes.any fun k => k.st == .queued && e.scratch == f.scratch && overlaps k.addr e.size l.addr f.size))

/-- Puts the lanes that must wait behind the queue into it, flight by flight in issue order, while it has room. -/
def holdFrom : Nat → List Flight → List Flight → List Flight
  | _, done, [] => done
  | room, done, f :: rest =>
    let hold (l : LaneAcc) : LaneAcc := if l.st == .flying && heldBehind done f l then { l with st := .queued } else l
    let h : Flight := { f with lanes := f.lanes.map hold }
    if !f.isAccess || !h.held then holdFrom room (done ++ [f]) rest
    else if f.held then holdFrom room (done ++ [h]) rest
    else if room = 0 then holdFrom room (done ++ [f]) rest
    else holdFrom (room - 1) (done ++ [h]) rest

/-- The lanes of a gang's accesses that its barrier arrival still waits for: one that joins the replay queue takes its place at
its replay, and the barrier waits for it no more (R262, R278). -/
def Gang.trimOwes (g : Gang) : Gang :=
  let left (o : Nat × Mask) : Nat × Mask :=
    match g.flights.find? fun f => f.id == o.1 with
    | some f => (o.1, o.2 &&& maskOfList ((f.lanes.filter fun l => l.st == .flying).map fun l => l.lane))
    | none => o
  { g with owes := g.owes.map left }

/-- Holds what must wait behind the queue (R262); `room` is the number of free entries. -/
def Gang.holdBehind (g : Gang) (room : Nat) : Gang := ({ g with flights := holdFrom room [] g.flights } : Gang).trimOwes

/-- Free entries of a gang's queue. -/
def State.queueRoom (s : State) (g : Gang) : Nat := Config.replayDepth - s.queueEntries g

/-! ## Lines owned by engines (R241, R284) -/

/-- Some row from the first one on covers a byte of [a, a + n). -/
def rowsMeet (dst stride extent first rows a n : Nat) : Bool :=
  if extent = 0 ∨ rows ≤ first then false
  else if stride = 0 then overlaps dst extent a n
  else
    let r0 := max first (if a < dst + extent then 0 else (a - dst - extent) / stride + 1)
    decide (r0 < rows) && overlaps (dst + r0 * stride) extent a n

/-- Some row from the first one on covers a byte of the line. -/
def rowsCover (dst stride extent first rows line : Nat) : Bool := rowsMeet dst stride extent first rows line 64

/-- A copy still owns the line of an intermediate address. -/
def CopyOp.owns (c : CopyOp) (ctx ia : Nat) : Bool :=
  c.gang.ctx == ctx && !c.finished && (c.kind == .gs || c.kind == .gg) &&
    rowsCover c.dst c.dstStride c.extent c.rowsDone c.rows (ia / 64 * 64)

/-- A drain to global memory still owns the line (R246). -/
def MatOp.owns (m : MatOp) (ctx ia : Nat) : Bool :=
  m.ctx == ctx && !m.finished && m.kind == .drainG &&
    rowsCover m.ibase (m.recd.getD 2 0) (m.recd.getD 1 0) m.rowsDone (m.recd.getD 3 0) (ia / 64 * 64)

/-- The engine operations that own the physical line of an address, with the gangs that issued them: a line is owned under
every mapping of its page (R284). -/
def State.owners (s : State) (pa : Nat) : List (Nat × List GangId) :=
  let via (ctx : Nat) (p : Nat → Bool) : Bool := ((s.ctx ctx).aliases pa).any p
  s.cores.flatMap fun c =>
    ((c.copies.filter fun p => via p.gang.ctx (p.owns p.gang.ctx)).map fun p => (p.id, [p.gang])) ++
    ((c.mats.filter fun m => via m.ctx (m.owns m.ctx)).map fun m => (m.id, m.issuers))

/-- An engine operation owns the line of an intermediate address, for an access that is not a gang's: it waits (R284). -/
def State.owned (s : State) (ctx ia : Nat) : Bool :=
  match (s.ctx ctx).physical ia with
  | some pa => !(s.owners pa).isEmpty
  | none => false

/-- An engine operation that was issued before an access of its own gang owns the access's line; the access of another gang
waits whenever the line is owned (R241, R284). -/
def State.ownedFor (s : State) (g : Gang) (id ia : Nat) : Bool :=
  match (s.ctx g.id.ctx).physical ia with
  | some pa => (s.owners pa).any fun o => !o.2.contains g.id || decide (o.1 < id)
  | none => false

/-- An engine operation issued before another one owns a line that the later one reads or writes: the later one waits. A
source line that a later operation owns may be read before it or after it (R284). -/
def State.ownedBefore (s : State) (ctx op ia : Nat) : Bool :=
  match (s.ctx ctx).physical ia with
  | some pa => (s.owners pa).any fun o => decide (o.1 < op)
  | none => false

/-! ## The race ring (R299) -/

/-- Physical address of a byte of the race ring, through the context's ranges and mappings. -/
def Context.ringAt (c : Context) (off : Nat) : Option Nat :=
  match c.translate (BitVec.ofNat 64 (c.ringBase + off)) 0 with
  | .ok (ia, _) => c.physical ia
  | .error _ => none

/-- Notes the parts of a write to the ring that lie in lines an engine operation owns: its own writes there come before
them, whenever it makes them (R284). -/
def State.noteLate (s : State) (ctx a n : Nat) : State :=
  let late := (pieceChunks a n).filterMap fun p =>
    if s.owned ctx p.1 then ((s.ctx ctx).physical p.1).map fun pa => (s.tick, pa, p.2) else none
  if late.isEmpty then s
  else s.ticked.modCtx ctx fun c =>
    { c with ringLate := (c.ringLate.filter fun r => !(s.owners r.2.1).isEmpty) ++ late }

/-- Writes bytes of the race ring at system scope. -/
def State.putRing (s : State) (c : Context) (off : Nat) (bytes : List Byte) : State :=
  match c.translate (BitVec.ofNat 64 (c.ringBase + off)) 0 with
  | .ok (a, _) => (s.noteLate c.num a bytes.length).systemWrite c.num a bytes
  | .error _ => s

/-- C of the race ring as memory holds it, byte by byte (R299). -/
def State.ringTaken (s : State) (c : Context) : Nat :=
  leNat ((upto 8).map fun i => ((c.ringAt (16 + i)).map fun a => Memory.read s.mem a).getD 0)

/-- Both ends of n bytes of the ring are mapped. -/
def Context.ringMapped (c : Context) (off n : Nat) : Bool := (c.ringAt off).isSome && (c.ringAt (off + n - 1)).isSome

/-- Writes a race report and answers the `$FAULT` address: the report's offset, or all ones when it is dropped or the
ring is absent (R299). -/
def State.raceReport (s : State) (ctx piece : Nat) (p n : BitVec 512) : State × Dword :=
  let c := s.ctx ctx
  if c.ringSize = 0 ∨ !c.ringMapped 0 64 then (s, BitVec.allOnes 64)
  else
    let slots := (c.ringSize - 64) / 192
    let off := 64 + 192 * (c.raceSeen % slots)
    if c.raceSeen - s.ringTaken c < slots ∧ c.ringMapped off 192 then
      let body := leBytes 64 p.toNat ++ leBytes 64 n.toNat ++ leBytes 8 (piece * 64) ++ List.replicate 56 0#8
      let s := s.modCtx ctx fun c => { c with raceSeen := c.raceSeen + 1 }
      ((s.putRing c off body).putRing c 0 (leBytes 8 (c.raceSeen + 1)), BitVec.ofNat 64 off)
    else
      let s := s.modCtx ctx fun c => { c with raceLost := c.raceLost + 1 }
      (s.putRing c 8 (leBytes 8 (c.raceLost + 1)), BitVec.allOnes 64)

/-! ## What may take effect (R262, R278, R280) -/

/-- A receive issued before an operation has no message yet: it is an acquire, and what comes after it waits for it (R150,
R278, log 67). -/
def Gang.recvBefore (g : Gang) (id : Nat) : Bool := (g.before id).any fun f => f.op == .recv

/-- A `cwt` before an operation has retired with accesses that precede it still under way: the operation waits for their lanes,
but not for those in the replay queue, which take their place at their replay (R248, R262, R278). -/
def Gang.barred (g : Gang) (id : Nat) : Bool :=
  g.orders.any fun t => decide (t ≤ id) && (g.before t).any fun e => e.isAccess && e.flying

/-- A lane of an access may take effect now: earlier acquires are complete, a release comes after every earlier access,
overlapping bytes keep program order, except that a load may read its gang's own earlier stores before they reach the
slice; no engine owns the line. -/
def State.laneReady (s : State) (g : Gang) (f : Flight) (l : LaneAcc) : Bool :=
  let earlier := (g.before f.id).filter Flight.isAccess
  l.st == .flying &&
    !(earlier.any fun e => e.acquires) && !g.recvBefore f.id && !g.barred f.id &&
    !(f.releases && !earlier.isEmpty) &&
    !(earlier.any fun e => (e.touching f.scratch l.addr f.size).any fun k =>
      !(f.op == .load && e.op == .store && k.st == .flying)) &&
    (f.scratch || !s.ownedFor g f.id l.addr)

/-- A read at issue of a gang (a `jtab` table word) may be made now. -/
def State.readReady (s : State) (g : Gang) (ia n : Nat) : Bool :=
  let earlier := (g.before s.tick).filter Flight.isAccess
  !(earlier.any fun e => e.acquires || !(e.touching false ia n).isEmpty) && !g.recvBefore s.tick &&
    !g.barred s.tick && !s.ownedFor g s.tick ia

/-- Bytes of the gang's own earlier stores laid over what a load reads (R264, R280). -/
def Gang.forwarded (g : Gang) (f : Flight) (l : LaneAcc) (v : Nat) : Nat :=
  let stores := (g.before f.id).filter fun e => e.op == .store
  let put (b : List Byte) (e : Flight) (k : LaneAcc) : List Byte :=
    (upto f.size).map fun i =>
      if k.addr ≤ l.addr + i ∧ l.addr + i < k.addr + e.size then BitVec.ofNat 8 (k.data / 256 ^ (l.addr + i - k.addr))
      else b.getD i 0
  leNat (stores.foldl (fun b e => (e.touching false l.addr f.size).foldl (fun b k => put b e k) b) (leBytes f.size v))

/-! ## Pending faults (R224, R338) -/

/-- Adds a delivered fault to a gang. -/
def Gang.pendFault (g : Gang) (f : PendFault) : Gang := { g with pend := g.pend ++ [f] }

/-- A delivered fault of memory (kind 2) without an address. -/
def memoryFault (code : BitVec 8) (mask : Mask) (addr : Dword) : PendFault :=
  { code := code, mask := mask, kind := 2, addr := addr, lim := false, count := 0, place := 0, order := 0 }

/-- PAGE of the replay queue becomes pending, once, for the lanes and the address that it arrives with; its record is formed when
it is taken (R263, R336). -/
def Gang.pendPage (g : Gang) (mask : Mask) (ia : Nat) : Gang :=
  if g.pend.any fun f => f.code == codePage && !f.own then g
  else g.pendFault { memoryFault codePage mask (BitVec.ofNat 64 (pageBase ia)) with count := 1 }

/-- Intermediate address of the oldest queued access (R336): the lowest lane of the earliest flight, or the row an
engine operation stopped at. -/
def State.queueHead (s : State) (g : Gang) : Nat :=
  let own := (g.flights.filter Flight.held).map fun f =>
    (f.id, ((f.lanes.filter fun l => l.st == .queued).map fun l => l.addr).headD 0)
  let engines := s.cores.flatMap fun c =>
    ((c.copies.filter fun p => p.gang == g.id && p.queued).map fun p => (p.id, p.stopAt)) ++
    ((c.mats.filter fun m => m.issuers.contains g.id && m.queued).map fun m => (m.id, m.stopAt))
  ((sortBy (fun a b => decide (a.1 < b.1)) (own ++ engines)).head?.map fun p => p.2).getD 0

/-- A fault of an access: pending, or the end of the crew when a handler made the access, after the restore where the gang is
halted (R263, R326, R338, R340). -/
def State.deliver (s : State) (id : GangId) (sup : Bool) (f : PendFault) : State :=
  match s.gang? id with
  | none => s
  | some g =>
    if sup && s.mayRun g && !g.away then s.stopOn id (faultRecord f) f.mask g.ctl.pc
    else s.setGang (g.pendFault { f with sup := sup })

/-- PAGE of an access that a handler made, with the page of its first lane (R263). -/
def State.handlerPage (s : State) (id : GangId) (ls : List LaneAcc) : State :=
  s.deliver id true
    { memoryFault codePage (maskOfList (ls.map fun l => l.lane)) (BitVec.ofNat 64 (pageBase ((ls.head?.map fun l => l.addr).getD 0))) with
      count := 1 }

/-- A lane in the replay queue whose page has no mapping still. -/
def Context.stays (c : Context) (f : Flight) (l : LaneAcc) : Bool := l.st == .queued && !f.scratch && (c.physical l.addr).isNone

/-- An engine operation in the replay queue whose page has no mapping still. -/
def Context.stops (c : Context) (stopAt : Nat) : Bool := (c.physical stopAt).isNone

/-- What stays in a gang's replay queue at a replay: the lanes of its accesses, and its engine operations, each with its address
(R142, R240). -/
def State.stillLost (s : State) (g : Gang) : List (Mask × Nat) :=
  let c := s.ctx g.id.ctx
  (g.flights.flatMap fun f => (f.lanes.filter (c.stays f)).map fun l => (1#128 <<< l.lane, l.addr)) ++
    s.cores.flatMap fun k =>
      ((k.copies.filter fun p => p.gang == g.id && p.queued && c.stops p.stopAt).map fun p => (p.act, p.stopAt)) ++
      ((k.mats.filter fun m => m.issuers.contains g.id && m.queued && c.stops m.stopAt).map fun m => (m.act, m.stopAt))

/-- Replays the queue (R142): every held access whose page is now mapped is accepted again, in issue order; one that still has no
mapping stays, and PAGE is pending again. A lane of an access that the handler made stops the crew (R263). -/
def State.replayQueue (s : State) (id : GangId) : State :=
  match s.gang? id with
  | none => s
  | some g =>
    let c := s.ctx id.ctx
    let again (f : Flight) (l : LaneAcc) : LaneAcc := if l.st == .queued && !c.stays f l then { l with st := .flying } else l
    let go (k : CoreSt) : CoreSt :=
      { k with
        copies := k.copies.map fun p => if p.gang == id then { p with queued := p.queued && c.stops p.stopAt } else p
        mats := k.mats.map fun m => if m.issuers.contains id then { m with queued := m.queued && c.stops m.stopAt } else m }
    let g1 : Gang := { g with flights := g.flights.map fun f => { f with lanes := f.lanes.map (again f) } }
    let s1 := ({ s with cores := s.cores.map go } : State).setGang g1
    let s1 := match s.stillLost g with
      | [] => s1
      | p :: r => s1.setGang ((g1.holdBehind (s1.queueRoom g1)).pendPage (r.foldl (fun m q => m ||| q.1) p.1) p.2)
    match (g.flights.filter fun f => f.sup).flatMap fun f => f.lanes.filter (c.stays f) with
    | [] => s1
    | ls => s1.handlerPage id ls

end Sys2Proof.Machine
end

