-- ==== Sys2Proof/Machine/ControlFlow.lean ====
section
/-! DEFINITION. Branches, `jtab` with its splits (R131 to R135, R40 to R43, R50), traps and the return from a handler
(R140 to R142, R341). -/
namespace Sys2Proof.Machine

/-! ## Uniform branches -/

/-- PC + 4 + 4·offset mod 2^57 (R99). -/
def branchTarget {k : Nat} (pc : Pc) (off : BitVec k) : Pc := pc + 4 + 4 * off.signExtend 57

/-- A conditional branch with its contribution to `$SIG` (R352). -/
def branchUnit (off : BitVec 20) (taken : Bool) (s : State) : Try Done :=
  let pc := s.cur.ctl.pc
  let s := s.modCur fun g => g.addSig (pc.setWidth 64) (if taken then 1 else 0)
  .ok (if taken then jumped s (branchTarget pc off) else done s)

/-- `br` (R131). -/
def execBr (o : FmtBr) (s : State) : Host.Outcome State Fault Refusal :=
  runUnit control o.sw s fun s => .ok (jumped s (branchTarget s.cur.ctl.pc o.off))

/-- `bcc` (R132). -/
def execBcc (o : FmtBcc) (s : State) : Host.Outcome State Fault Refusal :=
  runUnit control o.sw s fun s => branchUnit o.off (ccHolds s.cur.cc o.cond) s

/-- mk AND the execution mask (R133). -/
def Gang.maskTest (g : Gang) (m : BitVec 3) : Bool := g.mask m.toNat &&& g.ctl.mask == 0#128

/-- `bmz` (R133). -/
def execBmz (o : FmtBm) (s : State) : Host.Outcome State Fault Refusal :=
  runUnit control o.sw s fun s => branchUnit o.off (s.cur.maskTest o.m) s

/-- `bmnz` (R133). -/
def execBmnz (o : FmtBm) (s : State) : Host.Outcome State Fault Refusal :=
  runUnit control o.sw s fun s => branchUnit o.off (!s.cur.maskTest o.m) s

/-! ## `jtab` -/

/-- A table word, read as a gang-scope load with R permission (R134), and its piece; each line is looked up in the L1 once an
instruction, as for a load (R347, R354). -/
def State.tableWord (s : State) (seen : List Nat) (va : Dword) : Try (State × Word × Nat) :=
  let g := s.cur
  match s.here.translate va permR with
  | .error e => .error (.fault e)
  | .ok (ia, r) =>
    match s.here.physical ia with
    | none => .error (.faultWith (pageFault g.ctl.mask ia false) true)
    | some _ =>
      if s.readReady g ia 4 then
        let s := if seen.contains (pieceOf ia) then s else s.fillLine g (pieceOf ia) (!permits r.perm permW)
        .ok (s, BitVec.ofNat 32 (s.readIa g ia 4), pieceOf ia)
      else .error (.wait .retry)

/-- The targets of the lanes of act: word 1 + i of the table for each index below the count. -/
def tableTargets (t : Dword) (count : Nat) (ix : Nat → Nat) : List Nat → List Nat → State → Try (State × List (Nat × Pc))
  | _, [], s => .ok (s, [])
  | seen, l :: rest, s =>
    if ix l < count then
      match s.tableWord seen (t + 4 + 4 * BitVec.ofNat 64 (ix l)) with
      | .error e => .error e
      | .ok (s, w, p) =>
        match tableTargets t count ix (p :: seen) rest s with
        | .error e => .error e
        | .ok (s, r) => .ok (s, (l, (t + 4 * sextD w).setWidth 57) :: r)
    else tableTargets t count ix seen rest s

/-- The distinct targets with their lanes, in ascending order of lowest lane (R40). -/
def gatherTargets (ts : List (Nat × Pc)) : List (Mask × Pc) :=
  ts.foldl (fun acc p =>
    if acc.any fun q => q.2 == p.2 then acc.map fun q => if q.2 == p.2 then (q.1 ||| (1#128 <<< p.1), q.2) else q
    else acc ++ [(1#128 <<< p.1, p.2)]) []

/-- Combines the parked fragments of a split into the lowest-indexed of their entries (R50). -/
def Gang.combineParked (g : Gang) (split : Nat) : Gang :=
  match g.entries.filter fun p => p.2.split == split && p.2.st == .parked with
  | [] => g
  | (lo, e) :: rest =>
    let mask := rest.foldl (fun m p => m ||| p.2.ctl.mask) e.ctl.mask
    let marks := rest.foldl (fun l p => l ++ p.2.ctl.marks) e.ctl.marks
    let g := rest.foldl (fun g p => g.setEntry p.1 none) g
    g.setEntry lo (some { e with ctl := { e.ctl with mask := mask, marks := marks } })

/-- Free entries, ascending. -/
def Gang.freeEntries (g : Gang) : List Nat := (upto 8).filter fun i => (g.entry? i).isNone

/-- The parts of a split by entry (R41, R42): targets first, the rest at the `jtab`, the held lanes last. -/
def splitParts (slots : List Nat) (targets : List (Mask × Pc)) (held : Mask) (jpc : Pc) :
    List (Nat × Mask × Pc × EntryState) :=
  let open_ := if held = 0#128 then slots else slots.dropLast
  let main := if targets.length ≤ open_.length then targets
    else
      let k := open_.length - 1
      targets.take k ++ [((targets.drop k).foldl (fun m p => m ||| p.1) 0#128, jpc)]
  let run := (open_.zip main).map fun p => (p.1, p.2.1, p.2.2, EntryState.run)
  run ++ (if held = 0#128 then [] else [(slots.getLastD 0, held, jpc, EntryState.held)])

/-- Puts the parts of a split into the table, numbering them in ascending order of lowest lane; one whose pc is the join
address parks at once (R40, R135). -/
def Gang.placeParts (g : Gang) (split : Nat) (level : BitVec 3) (join origin : Pc) (marks : List Nat)
    (parts : List (Nat × Mask × Pc × EntryState)) : Gang :=
  (sortBy (fun a b => decide (lowestLane a.2.1 < lowestLane b.2.1)) parts).foldl (fun g p =>
    let ctl : Ctl := { pc := p.2.2.1, mask := p.2.1, wait := .ready, marks := marks, redo := none, turn := false }
    let st := if p.2.2.2 == .run && p.2.2.1 == join then .parked else p.2.2.2
    let e : Entry := { ctl := ctl, join := join, st := st, seq := g.nextSeq, level := level, split := split, origin := origin }
    { g.setEntry p.1 (some e) with nextSeq := g.nextSeq + 1 }) g

/-- Puts a fragment in issue after a split: the held one when a fault follows, else the oldest that runs. -/
def Gang.pickEntry (g : Gang) (split : Nat) : Gang :=
  let take (l : List (Nat × Entry)) : Option Gang := (g.oldest l).map fun p => { g with ctl := p.2.ctl, frag := some p.1 }
  match take (g.active.filter fun p => p.2.st == .held) with
  | some g => g
  | none => match take (g.active.filter fun p => p.2.st == .run) with
      | some g => g
      | none => match take g.active with
          | some h => Gang.fuse 8 h split
          | none => g

/-- Splits the gang or fragment in issue over its targets (R40 to R42). -/
def Gang.splitOver (g : Gang) (targets : List (Mask × Pc)) (held : Mask) (join jpc : Pc) (marks : List Nat) : Gang :=
  let depth := g.frames.length
  let fresh (parent : Option Nat) (level : BitVec 3) (seq : BitVec 8) : Split :=
    { id := g.nextSplit, join := join, origin := jpc, parent := parent, depth := depth, level := level, outerSeq := seq,
      turn := g.ctl.turn && parent.isSome }
  match g.frag.bind fun i => (g.entry? i).map fun e => (i, e) with
  | none =>
    let g1 : Gang :=
      { g.modTop (fun f => { f with splitMade := true }) with
        splits := [fresh none 1 0], nextSplit := g.nextSplit + 1 }
    (g1.placeParts g.nextSplit 1 join jpc marks (splitParts (upto 8) targets held jpc)).pickEntry g.nextSplit
  | some (own, e) =>
    let slots := own :: g.freeEntries
    let parts := splitParts slots targets held jpc
    let again := (g.split? e.split).any fun sp => sp.origin == jpc && sp.join == join && sp.depth == depth
    if again then ((g.setEntry own none).placeParts e.split e.level join jpc marks parts).pickEntry e.split
    else
      let g1 : Gang :=
        { g.modTop (fun f => { f with splitMade := true }) with
          splits := g.splits ++ [fresh (some e.split) (e.level + 1) e.seq], nextSplit := g.nextSplit + 1 }
      ((g1.setEntry own none).placeParts g.nextSplit (e.level + 1) join jpc marks parts).pickEntry g.nextSplit

/-- Takes JTRANGE in the fragment that holds the lanes (R42, R50). -/
def State.takeRange (s : State) (mask : Mask) (jpc : Pc) : State :=
  s.takeFault s.cur.id
    { code := codeJtRange, mask := mask, kind := 4, addr := jpc.setWidth 64, lim := false, count := 0, place := 0, order := 0 } (jpc + 4)

/-- The entries of a gang with one entry to fill, after combining what R50 lets it combine. -/
def Gang.makeEntries (g : Gang) (need : Nat) : Gang :=
  match g.frag.bind g.entry? with
  | none => g
  | some e => if 1 < need && g.freeEntries.isEmpty then g.combineParked e.split else g

/-- Parked fragments of a split. -/
def Gang.parkedIn (g : Gang) (split : Nat) : Nat := (g.entries.filter fun p => p.2.split == split && p.2.st == .parked).length

/-- No entry can be freed any more: every other fragment is parked, or waits for entries in a split whose own parked
fragments make at most one entry (R50). Where several fragments wait then, R50 does not say which of them takes JTRANGE: it is
the one that evaluates its `jtab`, the last to arrive or the oldest-created at a retry (log 25). In a handler that a fragment runs,
the fragments outside it are suspended and free nothing: the model does not wait for them (log 88). -/
def Gang.noRoom (g : Gang) : Bool :=
  g.active.all fun p =>
    some p.1 == g.frag || p.2.st == .parked || (p.2.ctl.wait == .entries && decide (g.parkedIn p.2.split ≤ 1))

/-- `jtab` (R134, R135). The spec gives a `jtab` with an empty execution mask no target: it goes on at PC + 4 (log 26). -/
def jtabUnit (o : FmtDAI) (s : State) : Try Done :=
  let g := s.cur
  let d := o.d.toNat
  let as := regsFor true o.a.toNat
  match g.checkOperands (d :: as) as (d :: as) with
  | .error e => .error e
  | .ok _ =>
    let pc := g.ctl.pc
    let join := pc + 4 + 4 * o.imm.setWidth 57
    let t := g.uniPair o.a.toNat
    match check (t.toNat % 4 == 0) codeAlign with
    | .error e => .error e
    | .ok _ => match s.tableWord [] t with
      | .error e => .error e
      | .ok (s, count, p) =>
        let act := g.act
        let ix (l : Nat) : Nat := (g.lane d l).toNat
        match tableTargets t count.toNat ix [p] (lanesOf act) s with
        | .error e => .error e
        | .ok (s, ts) =>
          let out := maskOf fun l => inMask act l && decide (count.toNat ≤ ix l)
          let all := sortBy (fun a b => decide (a.1 < b.1))
            (ts ++ (lanesOf (g.ctl.mask &&& ~~~act)).map fun l => (l, join))
          let targets := gatherTargets all
          let sig (s : State) : State := s.modCur fun g => targets.foldl (fun g p => g.addSig (p.2.setWidth 64) 2) g
          match targets, out == 0#128 with
          | [p], true => .ok (jumped (sig s) p.2)
          | [], true => .ok (done s)
          | _, _ =>
            let need := targets.length + (if out = 0#128 then 0 else 1)
            let g := g.makeEntries need
            let s := { s with cur := { s.cur with table := g.table } }
            if g.frag.isSome && decide (1 < need) && g.freeEntries.isEmpty then
              if g.noRoom then
                let s := s.modCur fun g =>
                  let ctl : Ctl := { g.ctl with wait := .ready, redo := none }
                  match g.frag.bind fun i => (g.entry? i).map fun e => (i, e) with
                  | some (i, e) => { g.setEntry i (some { e with ctl := ctl, st := .held }) with ctl := ctl }
                  | none => { g with ctl := ctl }
                .ok { done (s.takeRange g.ctl.mask pc) with moved := true }
              else .error (.wait .entries)
            else
              let marks := if o.sw then g.outstanding else []
              let s := (sig s).modCur fun g => g.splitOver targets out join pc marks
              .ok { done (if out = 0#128 then s else s.takeRange out pc) with moved := true }

/-- `jtab` (R134, R135): a marked one that splits makes every fragment wait for the results outstanding (R100). -/
def execJtab (o : FmtDAI) (s : State) : Host.Outcome State Fault Refusal :=
  runUnit control o.sw s fun s => jtabUnit o s

/-! ## Traps and handler return -/

/-- `trap` (R140). -/
def execTrap (o : FmtTrap) (s : State) : Host.Outcome State Fault Refusal :=
  runUnit control o.sw s fun s =>
    let g := s.cur
    if g.act = 0 then .ok (done s)
    else .error (.faultWith (unitFault o.code g.act g.ctl.pc false) false)

/-- Registers outside v0 to v7 of the top frame that still wait for results (R138). -/
def Gang.innerPending (g : Gang) : Bool := (g.regs.drop 8).any fun r => r.pend.isSome

/-- Those of a handler's frame, but for the results that a replay has left in the queue: nothing would bring them (log 75). -/
def Gang.handlerPending (g : Gang) : Bool :=
  (g.regs.drop 8).any fun r => match r.pend with
    | some p => !g.flights.any fun f => f.id == p.op && f.held
    | none => false

/-- The control the handler's return restores (R141, R339): the gang's or the fragment's as it was, at the resume PC, and
the fragment's entry as it was, also where a split of the handler has fused into another entry (R43). -/
def Gang.restored (g : Gang) (f : Frame) (sw : Bool) : Gang :=
  let g := match g.frag with
    | some j => g.setEntry j none
    | none => g
  let ctl : Ctl := { f.save.ctl with pc := f.ret, marks := if sw then g.outstanding else f.save.ctl.marks }
  let g : Gang := { g with supervisor := false, frag := f.save.frag, ctl := ctl }
  match f.save.frag, f.save.entry with
  | some i, some e => g.setEntry i (some { e with ctl := ctl })
  | _, _ => g

/-- The held entry under `rte` and `rte.skip` (R42): at the `jtab` that faulted, or at its own join address, where it
parks. -/
def Gang.heldReturn (g : Gang) (ret : Pc) (skip : Bool) : Gang :=
  match g.frag.bind g.entry? with
  | none => g
  | some e => ({ g with ctl := { g.ctl with pc := if skip then e.join else ret - 4, wait := .ready } } : Gang).running.settle

/-- The re-execution that `rte` asks for (R141): the unit at addr with L of `$FAULT`, for the lanes of `$TMASK`. The PC is a
multiple of 4 (R96), so the low two bits of addr take no part (log 74). -/
def Gang.redoFor (g : Gang) (ret : Pc) : Redo :=
  { act := g.tmask &&& g.ctl.mask, resume := ret, pc := g.faultRec.extractLsb' 66 55 ++ 0#2, lim := g.faultRec.getLsbD 11 }

/-- What the gang does next after the handler (R341), by the kind of the fault taken. A parked fragment runs while `rte`
executes its unit again, and parks again at the resume PC. -/
def Gang.afterHandler (g : Gang) (f : Frame) (skip : Bool) : Gang :=
  match f.save.kind.toNat with
  | 0 | 1 =>
    if skip then g.settle
    else
      let r := g.redoFor f.ret
      ({ g with ctl := { g.ctl with pc := r.pc, wait := .ready, redo := some r } } : Gang).running
  | 3 => ({ g with ctl := { g.ctl with pc := f.ret - 4, wait := .ready } } : Gang).running
  | 4 => g.heldReturn f.ret skip
  | _ => g.settle

/-- `rte` and `rte.skip` (R141, R263, R341). In a fragment of a split that the handler itself made they fault UNWIND, as R44
lays down for `ret` (log 26). They first perform `replay` when the queue is not empty, then wait for the results pending in the
handler's frame outside v0 to v7, as `ret` does, but for those that the replay leaves in the queue: the model's choice
(log 75). -/
def returnUnit (skip sw : Bool) (s : State) : Try Done :=
  let g := s.cur
  match g.frames with
  | [] => .error (.fault codeUnwind)
  | f :: _ =>
    if !f.handler || g.splitInTop 1 then .error (.fault codeUnwind)
    else
      let s := if s.queueEntries g = 0 then s else s.replayQueue g.id
      if (s.crewOf s.cur).stopped then .ok { done s with moved := true }
      else if s.cur.handlerPending then .ok { done s with hold := some .retry }
      else
        let s := (s.popFrame g.id).modCur fun g => g.restored f sw
        .ok { done (s.modCur fun g => g.afterHandler f skip) with moved := true }

/-- `rte` (R141). -/
def execRte (o : Sw) (s : State) : Host.Outcome State Fault Refusal := runUnit privUnit o.sw s (returnUnit false o.sw)

/-- `rte.skip` (R141). -/
def execRteSkip (o : Sw) (s : State) : Host.Outcome State Fault Refusal := runUnit privUnit o.sw s (returnUnit true o.sw)

/-- `replay` (R142). -/
def execReplay (o : Sw) (s : State) : Host.Outcome State Fault Refusal :=
  runUnit privUnit o.sw s fun s => .ok (done (s.replayQueue s.cur.id))

end Sys2Proof.Machine
end

