-- ==== Sys2Proof/Machine/Frames.lean ====
section
/-! DEFINITION. Calls, returns, unwinding, frame size and quota (R58 to R65, R136 to R139, R159 to R161). -/
namespace Sys2Proof.Machine

/-! ## Demands and targets -/

/-- A demand word is legal (R58): g' ≤ n' and no upper bits. -/
def demandOk (w : Word) : Bool :=
  w.toNat < 256 && decide (demandRows (w.extractLsb' 4 4) ≤ demandRegs (w.extractLsb' 0 4))

/-- A demand of two fields is legal. -/
def fieldsOk (nf gf : BitVec 4) : Bool := decide (demandRows gf ≤ demandRegs nf)

/-- (PC and not 7) + 8·offset mod 2^57 (R99). -/
def farTarget (pc : Pc) (off : BitVec 15) : Pc := (pc &&& ~~~(7#57)) + 8 * off.signExtend 57

/-- Checks on a 64-bit target (R137): RANGE on bits 63:57, ALIGN on bits 2:0. -/
def checkTarget (t : Dword) : Try Unit :=
  match check (decide (t.toNat < 2 ^ 57)) codeRange with
  | .error e => .error e
  | .ok _ => check (t.toNat % 8 == 0) codeAlign

/-- A frame of a demand with its header (R66). -/
def newFrame (ret : Pc) (nf gf : BitVec 4) : Frame :=
  { ret := ret, nf := nf, gf := gf, marked := false, flattened := false, handler := false, splitMade := false,
    spare := demandRows gf, regs := [], save := noSave }

/-! ## Calls -/

/-- A call to a target with a demand and a mark (R136). -/
def callUnit (target : Pc) (nf gf : BitVec 4) (mark : Bool) (s : State) : Try Done :=
  match check (fieldsOk nf gf) codeFrameDem with
  | .error e => .error e
  | .ok _ => match s.draw (demandRows gf) (demandCompact nf) with
    | .error e => .error e
    | .ok s =>
      let f := { newFrame (s.cur.ctl.pc + 4) nf gf with marked := mark }
      .ok (jumped (s.modCur fun g => g.pushFrame f) target)

/-- `call` (R136): the demand is checked before serial-wait. -/
def execCall (o : FmtCall) (s : State) : Host.Outcome State Fault Refusal :=
  runChecked serialUnit o.sw (fun _ => check (fieldsOk o.n o.g) codeFrameDem) s fun s => callUnit (farTarget s.cur.ctl.pc o.off) o.n o.g false s

/-- `call.m` (R136). -/
def execCallM (o : FmtCall) (s : State) : Host.Outcome State Fault Refusal :=
  runChecked serialUnit o.sw (fun _ => check (fieldsOk o.n o.g) codeFrameDem) s fun s => callUnit (farTarget s.cur.ctl.pc o.off) o.n o.g true s

/-- Target and demand in registers (R137): NOTUNIF, FRAMEDEM, RANGE, ALIGN. -/
def Gang.farOperands (g : Gang) (a b : BitVec 7) : Try (Pc × Word) :=
  let rs := regsFor true a.toNat ++ [b.toNat]
  match g.checkOperands rs rs rs with
  | .error e => .error e
  | .ok _ =>
    let w := g.uni b.toNat
    let t := g.uniPair a.toNat
    match check (demandOk w) codeFrameDem with
    | .error e => .error e
    | .ok _ => match checkTarget t with
      | .error e => .error e
      | .ok _ => .ok (t.setWidth 57, w)

/-- A call through registers. -/
def callrUnit (o : FmtAB) (mark : Bool) (s : State) : Try Done :=
  match s.cur.farOperands o.a o.b with
  | .error e => .error e
  | .ok (t, w) => callUnit t (w.extractLsb' 0 4) (w.extractLsb' 4 4) mark s

/-- The checks of `callr`, which come before serial-wait (R137). -/
def callrCheck (o : FmtAB) (s : State) : Try Unit := (s.cur.farOperands o.a o.b).map fun _ => ()

/-- `callr` (R137). -/
def execCallr (o : FmtAB) (s : State) : Host.Outcome State Fault Refusal :=
  runChecked serialUnit o.sw (callrCheck o) s (callrUnit o false)

/-- `callr.m` (R137). -/
def execCallrM (o : FmtAB) (s : State) : Host.Outcome State Fault Refusal :=
  runChecked serialUnit o.sw (callrCheck o) s (callrUnit o true)

/-! ## Returns and unwinding -/

/-- F clears when no flattened frame is left (R34). -/
def Gang.clearFlat (g : Gang) : Gang :=
  if pedF g.ped && !g.frames.any (fun f => f.flattened) then { g with ped := setHeader g.ped (pedDepth g.ped) false } else g

/-- `ret` (R138). -/
def execRet (o : Sw) (s : State) : Host.Outcome State Fault Refusal :=
  runUnit control o.sw s fun s =>
    let g := s.cur
    match g.frames with
    | f :: _ :: _ =>
      match check (!f.handler && !f.flattened && !g.splitInTop 1) codeUnwind with
      | .error e => .error e
      | .ok _ => match await (!g.innerPending) with
        | .error e => .error e
        | .ok _ => .ok (jumped (s.popFrame g.id) f.ret)
    | _ => .error (.fault codeUnwind)

/-- The frames that unwinding may pop: those above the nearest handler frame or the entry frame (R139). -/
def Gang.poppable (g : Gang) : List Frame := g.frames.dropLast.takeWhile fun f => !f.handler

/-- A pending result in a popped frame, but for the top frame's v0 to v7 when they enter the caller's window. -/
def pendingIn (fs : List Frame) (keep : Bool) : Bool :=
  ((upto fs.length).zip fs).any fun p => (if keep && p.1 == 0 then p.2.regs.drop 8 else p.2.regs).any fun r => r.pend.isSome

/-- The gang after popping its top k frames (R65). -/
def Gang.popTo (g : Gang) (k : Nat) (keep : Bool) : Gang :=
  let win := g.regs.take 8
  let rest := g.frames.drop k
  ({ g with frames := if keep then (match rest with
      | c :: r => { c with regs := c.regs ++ win } :: r
      | [] => []) else rest } : Gang).clearFlat

/-- Pops k frames (R65, R139). -/
def unwindBy (k : Nat) (s : State) : Try Done :=
  let g := s.cur
  let popped := g.frames.take k
  match popped.getLast? with
  | none => .ok (done s)
  | some low =>
    match check (!g.splitInTop k) codeUnwind with
    | .error e => .error e
    | .ok _ =>
      let keep := !low.flattened
      match await (!pendingIn popped keep) with
      | .error e => .error e
      | .ok _ =>
        let rows := (popped.foldl (fun n f => n + f.rows) 0) - (if keep then ((g.regs.take 8).filter Reg.isG).length else 0)
        let compact := popped.foldl (fun n f => n + f.compact) 0
        .ok (jumped ((s.modCur fun g => g.popTo k keep).release g.id rows compact) low.ret)

/-- The count of an `unwind`: it waits for it where `va` is pending (R128). -/
def unwindCount (a : Nat) (g : Gang) : Try Nat :=
  match g.checkRegs [a] with
  | .error e => .error e
  | .ok _ => match g.awaitDest [a] with
    | .error e => .error e
    | .ok _ => (g.checkUniform [a]).map fun _ => (g.uni a).toNat

/-- `unwind` (R128, R139). -/
def execUnwind (o : FmtA) (s : State) : Host.Outcome State Fault Refusal :=
  runUnit control o.sw s fun s =>
    match unwindCount o.a.toNat s.cur with
    | .error e => .error e
    | .ok k => match check (decide (k ≤ s.cur.poppable.length)) codeUnwind with
      | .error e => .error e
      | .ok _ => unwindBy k s

/-- `unwind.m` (R139). -/
def execUnwindM (o : Sw) (s : State) : Host.Outcome State Fault Refusal :=
  runUnit control o.sw s fun s =>
    match s.cur.poppable.findIdx? fun f => f.marked with
    | none => .error (.fault codeUnwind)
    | some i => unwindBy (i + 1) s

/-! ## Frame size (R64, R159) -/

/-- The demand of `fgrow` (R58, R159). -/
def growCheck (nf gf : BitVec 4) (s : State) : Try Unit :=
  check ((s.cur.frames.take 1).all fun f =>
    fieldsOk nf gf && decide (demandRegs f.nf ≤ demandRegs nf) && decide (demandRows f.gf ≤ demandRows gf)) codeFrameDem

/-- `fgrow` (R159). -/
def execFgrow (o : FmtDemand) (s : State) : Host.Outcome State Fault Refusal :=
  runChecked serialUnit o.sw (growCheck (o.w.extractLsb' 0 4) (o.w.extractLsb' 4 4)) s fun s =>
    match s.cur.frames with
    | [] => .error (.fault codeFrameDem)
    | f :: _ =>
      let nf : BitVec 4 := o.w.extractLsb' 0 4
      let gf : BitVec 4 := o.w.extractLsb' 4 4
      let dn := demandRegs nf - demandRegs f.nf
      let dg := demandRows gf - demandRows f.gf
      match s.draw dg (8 * dn) with
      | .error e => .error e
      | .ok s => .ok (done (s.modCur fun g => g.modTop fun t =>
          { t with nf := nf, gf := gf, regs := t.regs ++ List.replicate dn zeroReg, spare := t.spare + dg }))

/-- The demand of `fshrink` (R58, R159). -/
def shrinkCheck (nf gf : BitVec 4) (s : State) : Try Unit :=
  check ((s.cur.frames.take 1).all fun f =>
    fieldsOk nf gf && decide (demandRegs nf ≤ demandRegs f.nf) && decide (demandRows gf ≤ demandRows f.gf)) codeFrameDem

/-- `fshrink` (R159). -/
def execFshrink (o : FmtDemand) (s : State) : Host.Outcome State Fault Refusal :=
  runChecked serialUnit o.sw (shrinkCheck (o.w.extractLsb' 0 4) (o.w.extractLsb' 4 4)) s fun s =>
    match s.cur.frames with
    | [] => .error (.fault codeFrameDem)
    | f :: _ =>
      let nf : BitVec 4 := o.w.extractLsb' 0 4
      let gf : BitVec 4 := o.w.extractLsb' 4 4
      let n := demandRegs nf
      let spare := f.spare - (demandRows f.gf - demandRows gf)
      let gone := f.regs.drop n
      match await (gone.all fun r => r.pend.isNone) with
      | .error e => .error e
      | .ok _ =>
        let s := s.modCur fun g => g.modTop fun t => { t with nf := nf, gf := gf, regs := t.regs.take n, spare := spare }
        .ok (done (s.release s.cur.id ((gone.filter Reg.isG).length + (f.spare - spare)) (8 * (demandRegs f.nf - n))))

/-! ## Quota (R64, R160) -/

/-- Moves blocks between two roles of the crew in issue. -/
def moveQuota (giver taker blocks : Nat) (s : State) : Try Done :=
  let g := s.cur
  let c := s.crewOf g
  let q := c.quota.getD giver 0
  match check (decide (giver < c.quota.length) && decide (taker < c.quota.length) && decide (blocks < q) &&
      decide (s.roleHeld g.id.ctx g.id.crew giver ≤ 8 * (q - blocks))) codeQuota with
  | .error e => .error e
  | .ok _ =>
    let quota := setAt (setAt c.quota giver (q - blocks)) taker (c.quota.getD taker 0 + blocks)
    .ok (done (s.setCrew { c with quota := quota }))

/-- `fgive` (R160). -/
def execFgive (o : FmtQuota) (s : State) : Host.Outcome State Fault Refusal :=
  runUnit control o.sw s fun s =>
    let own := s.roleOf s.cur
    if o.blocks = 0 ∨ o.role.toNat = own then .ok (done s) else moveQuota own o.role.toNat o.blocks.toNat s

/-- `ftake` (R160). -/
def execFtake (o : FmtQuota) (s : State) : Host.Outcome State Fault Refusal :=
  runUnit control o.sw s fun s =>
    let own := s.roleOf s.cur
    if o.blocks = 0 ∨ o.role.toNat = own then .ok (done s) else moveQuota o.role.toNat own o.blocks.toNat s

/-! ## Shape (R161) -/

/-- `ftag` (R161). -/
def execFtag (o : FmtDA) (s : State) : Host.Outcome State Fault Refusal :=
  runUnit vectorUnit o.sw s fun s =>
    match s.cur.checkRegs [o.d.toNat, o.a.toNat] with
    | .error e => .error e
    | .ok _ => regUnit s o.d.toNat [] [] fun g => .u ((g.val o.a.toNat).tag.setWidth 32)

/-- `fmat` (R161). -/
def execFmat (o : FmtD) (s : State) : Host.Outcome State Fault Refusal :=
  runUnit vectorUnit o.sw s fun s =>
    let g := s.cur
    let d := o.d.toNat
    match g.checkOperands [d] [] [d] with
    | .error e => .error e
    | .ok _ =>
      if (g.val d).isG then .ok (done s)
      else match s.drawForFrame 1 with
        | .error e => .error e
        | .ok s => .ok (done (s.modCur fun g => g.putRegs [(d, .g (g.val d).row)]))

end Sys2Proof.Machine
end

