-- ==== Sys2Proof/Machine/Reducers.lean ====
section
/-! DEFINITION. Reducers: views, their combination and folds (R288 to R294), `rupd`, `rlog`, `rread` (R153 to R156). -/
namespace Sys2Proof.Machine

/-! ## Elements (R154, R156) -/

/-- LIST (R320). -/
def Reducer.isList (r : Reducer) : Bool := r.kind == 8

def Reducer.fmt (r : Reducer) : Fmt := fmtOf r.entry

/-- Whether the value register is a pair. -/
def Reducer.pair (r : Reducer) : Bool := r.isList || r.fmt.w == 64

/-- The signed or unsigned value of an integer element. -/
def intOf (f : Fmt) (x : Nat) : Int :=
  let v := x % 2 ^ f.w
  if f.s && decide (2 ^ (f.w - 1) ≤ v) then (v : Int) - 2 ^ f.w else v

/-- ⊕ on integer elements (R154). -/
def combineInt (f : Fmt) (kind a b : Nat) : Nat :=
  match kind with
  | 1 => (a + b) % 2 ^ f.w
  | 2 => a * b % 2 ^ f.w
  | 3 => if intOf f b < intOf f a then b else a
  | 4 => if intOf f a < intOf f b then b else a
  | 5 => a &&& b
  | 6 => a ||| b
  | _ => a ^^^ b

/-- ⊕ of two elements (R154): integer kinds raise no flag. -/
def Reducer.combine (r : Reducer) (a b : Nat) : FRes :=
  let f := r.fmt
  if f.isInt then { bits := combineInt f r.kind (a % 2 ^ f.w) (b % 2 ^ f.w), flags := fxNone, snan := false }
  else match r.kind with
    | 1 => faddBits f r.rnd.toNat a b
    | 2 => fmulBits f r.rnd.toNat a b
    | 3 => fminmaxBits f false false a b
    | _ => fminmaxBits f true false a b

/-- The identity of R156. -/
def Reducer.identity (r : Reducer) : Nat :=
  let f := r.fmt
  if f.isInt then
    match r.kind with
    | 2 => 1
    | 3 => (encInt f.w (intHi f))
    | 4 => (encInt f.w (intLo f))
    | 5 => 2 ^ f.w - 1
    | _ => 0
  else
    match r.kind with
    | 1 => withSign f true 0
    | 2 => (rndRat f false 1 1 0 rne).1
    | 3 => if f.p = 0 then encInf f false else encMaxFin f false
    | _ => if f.p = 0 then encInf f true else encMaxFin f true

/-- Bytes of a view (R291). -/
def Reducer.viewBytes (r : Reducer) : Nat := if r.isList then 16 + 8 * r.len else roundUp (r.len * (r.fmt.w / 8)) 64

/-- A registered reducer of a context. -/
def Context.reducer? (c : Context) (id : Nat) : Option Reducer := (c.reducers[id]?).join

/-- A new view (R291). -/
def Reducer.newView (r : Reducer) (id since : Nat) : View :=
  { id := id, elems := if r.isList then [] else List.replicate r.len r.identity, dropped := 0, spilled := false,
    since := since }

/-! ## Folding (R292, R293) -/

/-- acc ⊕ x with the flags raised. -/
def Reducer.merge (r : Reducer) (acc x : View) : View × BitVec 5 :=
  if r.isList then
    let all := acc.elems ++ x.elems
    ({ acc with elems := all.take r.len, dropped := acc.dropped + x.dropped + (all.length - r.len) }, 0)
  else
    let rs := (acc.elems.zip x.elems).map fun p => r.combine p.1 p.2
    ({ acc with elems := rs.map fun q => q.bits }, rs.foldl (fun f q => f ||| q.flags) 0)

/-- Folds a list of views from the left, absent ones left out. -/
def Reducer.foldList (r : Reducer) : Option View → List (Option View) → Option View × BitVec 5
  | acc, [] => (acc, 0)
  | acc, none :: rest => r.foldList acc rest
  | none, some x :: rest => r.foldList (some x) rest
  | some a, some x :: rest =>
    let m := r.merge a x
    let t := r.foldList (some m.1) rest
    (t.1, m.2 ||| t.2)

/-- The view of an id in the segment of a number. -/
def viewOf (segs : List Segment) (num id : Nat) : Option View :=
  ((segs.find? fun s => s.num == num).map fun s => s.views.find? fun v => v.id == id).join

/-- Folds a block of n children: seg0, then each child's final view and the segment after it (R292). -/
def Context.foldBlock (c : Context) (segs finals : List Segment) (n : Nat) : List View × BitVec 5 :=
  (upto 64).foldl (fun acc id =>
    match c.reducer? id with
    | none => acc
    | some r =>
      let order := viewOf segs 0 id ::
        (upto n).flatMap fun i => [viewOf finals (i + 1) id, viewOf segs (i + 1) id]
      let f := r.foldList none order
      (acc.1 ++ f.1.toList, acc.2 ||| f.2)) ([], 0)

/-! ## The task area and the view store (R27, R291) -/

/-- Views of a task. -/
def Task.views (t : Task) : List View := t.segs.flatMap fun g => g.views

/-- Views in the store of a core, with their contexts: those of the tasks that run there and of the tasks suspended
there (R291). -/
def State.storeViews (s : State) (core : Nat) : List (Nat × View) :=
  let running := (s.crews.filter fun c => c.core == core).flatMap fun c =>
    ((c.task.map Task.views).getD []).map fun v => (c.ctx, v)
  let asleep := s.contexts.flatMap fun c => c.joins.flatMap fun j => match j.suspended with
    | some p => if (s.crew c.num p.crew).core == core then p.task.views.map fun v => (c.num, v) else []
    | none => []
  (running ++ asleep).filter fun p => !p.2.spilled

/-- Changes the views of a task. -/
def Task.mapViews (t : Task) (f : View → View) : Task :=
  { t with segs := t.segs.map fun g => { g with views := g.views.map f } }

/-- Changes every view of running and suspended tasks of a context. -/
def State.mapViews (s : State) (ctx : Nat) (f : View → View) : State :=
  let task (t : Task) : Task := t.mapViews f
  let awake (c : Crew) : Crew := { c with task := c.task.map task }
  let asleep (p : Suspended) : Suspended := { p with task := p.task.mapViews f }
  let rec_ (j : JoinRec) : JoinRec := { j with suspended := j.suspended.map asleep }
  let s := { s with crews := updateWhere (fun c => c.ctx == ctx) awake s.crews }
  s.modCtx ctx fun c => { c with joins := c.joins.map rec_ }

/-- Bytes of the view store of a core in use. -/
def State.storeUsed (s : State) (core : Nat) : Nat :=
  (s.storeViews core).foldl (fun n p => n + (((s.ctx p.1).reducer? p.2.id).map Reducer.viewBytes).getD 0) 0

/-- Bytes of a view of a context (R291). -/
def State.bytesOf (s : State) (ctx : Nat) (v : View) : Nat := (((s.ctx ctx).reducer? v.id).map Reducer.viewBytes).getD 0

/-- A view moves to the task area. -/
def State.spillView (s : State) (ctx : Nat) (v : View) : State :=
  s.mapViews ctx fun x => if x.since == v.since && x.id == v.id then { x with spilled := true } else x

/-- Moves the oldest views to the task area until a view of n bytes fits (R291); `pay` charges the area for one. -/
def State.makeRoomBy (pay : State → Nat → Nat → Try State) : Nat → State → Nat → Nat → Try State
  | 0, s, _, _ => .ok s
  | fuel + 1, s, core, n =>
    if s.storeUsed core + n ≤ Config.viewStore then .ok s
    else match sortBy (fun a b => decide (a.2.since < b.2.since)) (s.storeViews core) with
      | [] => .ok s
      | (ctx, v) :: _ =>
        match pay s ctx (s.bytesOf ctx v) with
        | .error e => .error e
        | .ok s => State.makeRoomBy pay fuel (s.spillView ctx v) core n

/-- Makes room for an instruction: QUOTA when the task area is exhausted (R27, R291). -/
def State.makeRoom (s : State) (core n : Nat) : Try State := State.makeRoomBy State.charge 2048 s core n

/-- Charges the task area without a limit, where no instruction could fault (log 59). -/
def payAnyway (s : State) (ctx n : Nat) : Try State := .ok (s.chargeAnyway ctx n)

/-- The task in which a crew's segments are kept. -/
def State.taskOf (s : State) (g : Gang) : Task := (s.crewOf g).task.getD emptyTask

/-- The current segment's view of a reducer. -/
def Task.current (t : Task) (id : Nat) : Option View := viewOf t.segs t.spawned id

/-- Puts a view into the current segment. -/
def Task.setView (t : Task) (v : View) : Task :=
  let put (g : Segment) : Segment :=
    { g with views := if g.views.any fun w => w.id == v.id then g.views.map fun w => if w.id == v.id then v else w else g.views ++ [v] }
  if t.segs.any fun g => g.num == t.spawned then { t with segs := updateWhere (fun g => g.num == t.spawned) put t.segs }
  else { t with segs := t.segs ++ [{ num := t.spawned, views := [v] }] }

/-- The view an instruction updates or reads, brought into the view store or created there. -/
def State.openView (s : State) (r : Reducer) (id : Nat) : Try (State × View) :=
  let g := s.cur
  match (s.taskOf g).current id with
  | some v =>
    if v.spilled then
      match s.makeRoom (s.crewOf g).core r.viewBytes with
      | .error e => .error e
      | .ok s => .ok (s.refund g.id.ctx r.viewBytes, { v with spilled := false })
    else .ok (s, v)
  | none =>
    match s.makeRoom (s.crewOf g).core r.viewBytes with
    | .error e => .error e
    | .ok s => .ok (s.ticked, r.newView id s.tick)

/-- Stores the current segment's view. -/
def State.saveView (s : State) (v : View) : State :=
  let c := s.crewOf s.cur
  s.setCrew { c with task := c.task.map fun t => t.setView v }

/-! ## Instructions -/

/-- The reducer named, with the checks 1 to 3 of R153. -/
def State.reducerFor (s : State) (id : BitVec 6) (list : Bool) (val : BitVec 7) (other reads : List Nat) (readsVal : Bool) :
    Try Reducer :=
  let g := s.cur
  let named (pair : Bool) : Try Unit := g.checkRegs (regsFor pair val.toNat ++ other)
  match s.here.reducer? id.toNat with
  | none => match named list with
    | .error e => .error e
    | .ok _ => .error (.fault codeOpRange)
  | some r =>
    match checkOdd (!list && r.pair && !r.isList) [val.toNat] with
    | .error e => .error e
    | .ok _ => match named (list || (r.pair && !r.isList)) with
      | .error e => .error e
      | .ok _ => match check (r.isList == list) codeOpRange with
        | .error e => .error e
        | .ok _ => match g.checkReady ((if readsVal then regsFor r.pair val.toNat else []) ++ reads) with
          | .error e => .error e
          | .ok _ => .ok r

/-- The lanes of act whose element index is not below len. -/
def Gang.beyond (g : Gang) (a len : Nat) : Mask := maskOf fun l => inMask g.act l && decide (len ≤ (g.lane a l).toNat)

/-- The lane fault of R153 item 4. -/
def lanesOut (out : Mask) : Option (BitVec 8 × Mask) := if out = 0 then none else some (codeOpRange, out)

/-- One lane of `rupd`: the elements, the flags, the trapped lanes, whether one read a signalling NaN (R154). -/
structure Update where
  elems : List Nat
  flags : BitVec 5
  trapped : Mask
  snan : Bool
  deriving DecidableEq, Repr

def updateLane (r : Reducer) (en : BitVec 6) (ix val : Nat → Nat) (u : Update) (l : Nat) : Update :=
  let x := val l
  let y := r.combine (u.elems.getD (ix l) 0) x
  let sn := !r.fmt.isInt && (exact r.fmt x).isSnan && en.getLsbD 5
  if y.flags &&& en.setWidth 5 != 0#5 || sn then
    { u with trapped := u.trapped ||| (1#128 <<< l), snan := u.snan || sn }
  else { u with elems := setAt u.elems (ix l) y.bits, flags := u.flags ||| y.flags }

/-- `rupd` (R153, R154). -/
def execRupd (o : FmtRed) (s : State) : Host.Outcome State Fault Refusal :=
  runUnit serialUnit o.sw s fun s =>
    let g := s.cur
    let a := o.a.toNat
    match s.reducerFor o.id false o.d [a] [a] true with
    | .error e => .error e
    | .ok r =>
      let out := g.beyond a r.len
      let use := g.act &&& ~~~out
      if use = 0 then .ok { done s with lane := lanesOut out }
      else match s.openView r o.id.toNat with
        | .error e => .error e
        | .ok (s, v) =>
          let u := (lanesOf use).foldl (updateLane r g.enables (fun l => (g.lane a l).toNat) (g.operand r.fmt.w o.d.toNat))
            { elems := v.elems, flags := 0, trapped := 0, snan := false }
          let s := (s.saveView { v with elems := u.elems }).modCur fun g => g.raise u.flags
          let trap := if u.trapped = 0 then none else some (if u.snan then codeSnan else codeFpx, u.trapped)
          .ok { done s with lane := lanesOut out, trap := trap }

/-- `rlog` (R155). -/
def execRlog (o : FmtRlog) (s : State) : Host.Outcome State Fault Refusal :=
  runUnit serialUnit o.sw s fun s =>
    let g := s.cur
    match s.reducerFor o.id true o.d [] [] true with
    | .error e => .error e
    | .ok r =>
      if g.act = 0 then .ok (done s)
      else match s.openView r o.id.toNat with
        | .error e => .error e
        | .ok (s, v) =>
          let all := v.elems ++ (lanesOf g.act).map fun l => (g.pair o.d.toNat l).toNat
          .ok (done (s.saveView { v with elems := all.take r.len, dropped := v.dropped + (all.length - r.len) }))

/-- `rread` (R153, R156). -/
def execRread (o : FmtRed) (s : State) : Host.Outcome State Fault Refusal :=
  runUnit serialUnit o.sw s fun s =>
    let g := s.cur
    let a := o.a.toNat
    match s.reducerFor o.id false o.d [a] [a] false with
    | .error e => .error e
    | .ok r =>
      let out := g.beyond a r.len
      if g.act = 0 then .ok (done s)
      else match g.awaitDest (regsFor r.pair o.d.toNat) with
        | .error e => .error e
        | .ok _ =>
          let has := ((s.taskOf g).current o.id.toNat).isSome
          match (if has then s.openView r o.id.toNat else .ok (s, r.newView o.id.toNat 0)) with
          | .error e => .error e
          | .ok (s, v) =>
            let s := if has then s.saveView v else s
            let res := resultRegs r.fmt.w o.d.toNat fun l => v.elems.getD (g.lane a l).toNat 0
            match s.writeLanes g.act (g.act &&& ~~~out) res with
            | .error e => .error e
            | .ok s => .ok { done s with lane := lanesOut out }

end Sys2Proof.Machine
end

