-- ==== Sys2Proof/Machine/Collect.lean ====
section
/-! DEFINITION. What the crew-collective units share (R23, R24): meeting, mismatches, retiring the other gangs; the
conditions under which a gang is at rest (R69, R146); matrix batches and covering waits (R247, R314). -/
namespace Sys2Proof.Machine

/-! ## Meeting -/

/-- Gangs of the crew in issue that stand at a collective and that a test picks, the issuing gang apart. -/
def State.standing (s : State) (p : Gang → Bool) : List (GangId × Collective) :=
  ((s.crewGangs s.cur.id.ctx s.cur.id.crew).filter fun g => g.id != s.cur.id && p g).filterMap fun g =>
    (g.collective?.filter fun c => !c.isOver (s.phaseOf (s.crewOf s.cur))).map fun c => (g.id, c)

/-- Gangs of the crew in issue that wait at a collective, the issuing gang apart: none waits at a complete quorum (R344). -/
def State.meeting (s : State) : List (GangId × Collective) := s.standing fun g => !s.quorumFull g

/-- MMAMATCH when either side is a matrix quorum, else SPAWNARG (R24). -/
def clashCode (c : Collective) (others : List (GangId × Collective)) : BitVec 8 :=
  if c.isQuorum || others.any fun p => p.2.isQuorum then codeMmaMatch else codeSpawnArg

/-- Faults every waiting gang and the arriving one when some wait does not fit (R24). -/
def State.checkMeeting (s : State) (c : Collective) : Try Unit :=
  let others := s.meeting
  if others.all fun p => c.fits p.2 then .ok ()
  else .error (.collective (clashCode c others) (others.map (fun p => p.1) ++ [s.cur.id]))

/-- A fault of a collective as a whole, taken by every gang of the crew: the model's choice, R26 and R143 do not say which gangs
take it (log 85). -/
def State.failCrew (s : State) (code : BitVec 8) : Stop :=
  .collective code ((s.crewGangs s.cur.id.ctx s.cur.id.crew).map fun g => g.id)

/-- Arrives at a collective of the whole crew: goes on when every other gang waits there, else waits. -/
def State.meet (s : State) (c : Collective) : Try Unit :=
  match s.checkMeeting c with
  | .error e => .error e
  | .ok _ =>
    if s.meeting.length + 1 = (s.crewGangs s.cur.id.ctx s.cur.id.crew).length then .ok ()
    else .error (.wait (.collective c))

/-! ## Retiring the other gangs of a collective -/

/-- The control after a unit of four bytes has retired. -/
def Ctl.passed (c : Ctl) (marks : List Nat) : Ctl :=
  let next := match c.redo with
    | some r => r.resume
    | none => c.pc + 4
  { c with pc := next, wait := .ready, redo := none, marks := marks }

/-- A gang passes the collective at which it waits, with or without the switch marker (R100). -/
def Gang.pass (g : Gang) (sw : Bool) : Gang :=
  let g := g.toCollective
  let ctl := g.ctl.passed (if sw then g.outstanding else [])
  { g with ctl := ctl, retired := if g.supervisor then g.retired else g.retired + 1 }.settle

/-- Counts a control unit of a gang that is not in issue. -/
def State.countOther (s : State) (g : Gang) : State :=
  let core := (s.crewOf g).core
  (s.modCore core fun c => { c with units := c.units + 1 }).count core g.id.ctx 1 1

/-- Every other gang of the crew that waits at a collective retires its unit. -/
def State.passOthers (s : State) (sw : Bool) : State :=
  s.meeting.foldl (fun s p => match s.gang? p.1 with
    | some g => (s.setGang (g.pass sw)).countOther g
    | none => s) s

/-! ## Rest -/

/-- Every access of the gang is complete, its receives too: what a release and a barrier wait for (R231, R278, R280, log 67). -/
def Gang.accessesDone (g : Gang) : Bool := g.flights.all fun f => f.finished || !(f.isAccess || f.op == .recv)

/-- An access under way outside the replay queue, or a receive: what a barrier comes after (R262, R278, R280). -/
def Flight.precedes (f : Flight) : Bool := !f.finished && (f.op == .recv || f.isAccess && f.flying)

/-- What a barrier comes after is complete. -/
def Gang.flown (g : Gang) : Bool := g.flights.all fun f => !f.precedes

/-- What a barrier comes after: the accesses with their lanes, and the receives. -/
def Gang.underWay (g : Gang) : List (Nat × Mask) :=
  (g.flights.filter Flight.precedes).map fun f => (f.id, maskOfList ((f.lanes.filter fun l => l.st == .flying).map fun l => l.lane))

/-- Nothing of the gang is in flight except receives (R69, R70). -/
def Gang.atRest (g : Gang) : Bool := g.flights.all fun f => f.finished || f.op == .recv

/-- Nothing of the gang is in flight (R146). -/
def Gang.idle (g : Gang) : Bool := g.flights.all fun f => f.finished

/-- A test over the gangs of the crew in issue. -/
def State.crewAll (s : State) (p : Gang → Bool) : Bool := (s.crewGangs s.cur.id.ctx s.cur.id.crew).all p

/-! ## Batches (R247, R314, R316) -/

/-- A matrix operation of a core's queue is not finished. -/
def State.matOpen (s : State) (op : Nat) : Bool := s.cores.any fun c => c.mats.any fun m => m.id == op && !m.finished

/-- The operations a covering wait for batch n covers; all of them for the open batch's number (R247). A number of no batch covers
nothing, and its wait retires: the model's choice (log 91). -/
def Gang.covered (g : Gang) (n : BitVec 8) : List Nat :=
  if n = g.mbatch.setWidth 8 then g.openBatch ++ g.closed.flatMap fun b => b.ops
  else ((g.closed.reverse.dropWhile fun b => b.num != n).flatMap fun b => b.ops)

/-- Every operation of the gang. -/
def Gang.allOps (g : Gang) : List Nat := g.openBatch ++ g.closed.flatMap fun b => b.ops

/-- The fault a covering wait takes first: traps of matrix work, else a refused peer-add (R314, R316, R336). -/
def matrixFault (g : Gang) (due : List MatDue) : Option PendFault :=
  let fault (code : BitVec 8) (d : MatDue) (rows : Dword) : PendFault :=
    { code := code, mask := g.ctl.mask, kind := 3, addr := rows, lim := false, count := 0, place := d.batch ++ d.tile, order := 0 }
  match sortBy (fun a b => decide (a.order < b.order)) (due.filter fun d => d.trapped) with
  | d :: rest => some (fault (if (d :: rest).any fun x => x.snan then codeSnan else codeFpx) d d.rows)
  | [] => match sortBy (fun a b => decide (a.order < b.order)) (due.filter fun d => d.refused) with
    | d :: _ => some (fault codeOpRange d (BitVec.allOnes 64))
    | [] => none

/-- What a trap delivered at a covering wait leaves due: it is delivered once (R314). -/
def Gang.delivered (g : Gang) (ops : List Nat) : Gang :=
  let trap := g.due.any fun d => ops.contains d.op && d.trapped
  let first := ((sortBy (fun a b => decide (a.order < b.order)) (g.due.filter fun d => ops.contains d.op && d.refused)).head?).map
    fun d => d.op
  let clear (d : MatDue) : MatDue :=
    if !ops.contains d.op then d
    else if trap then { d with trapped := false }
    else if some d.op = first then { d with refused := false }
    else d
  { g with due := g.due.map clear }

/-- The covering wait once its operations are complete (R314): the flags are merged; in user mode the batches covered
are done with, in supervisor mode what would trap stays due (R340). -/
def Gang.coveredDone (g : Gang) (ops : List Nat) : Gang :=
  let fl := (g.due.filter fun d => ops.contains d.op).foldl (fun f d => f ||| d.flags) 0
  let g := g.raise fl
  let quiet (d : MatDue) : MatDue := if ops.contains d.op then { d with flags := 0 } else d
  if g.supervisor then { g with due := g.due.map quiet }
  else
    { g with
      due := g.due.filter fun d => !ops.contains d.op
      openBatch := g.openBatch.filter fun o => !ops.contains o
      closed := (g.closed.map fun b => ({ b with ops := b.ops.filter fun o => !ops.contains o } : Batch)).dropWhile
        fun b => b.ops.isEmpty }

/-- A covering wait for some operations: it waits for them, takes the fault due and has then not executed, or goes on
with the rest of its unit. -/
def State.cover (s : State) (ops : List Nat) (rest : State → Try Done) : Try Done :=
  if ops.any s.matOpen then .error (.wait .retry)
  else
    let g := s.cur
    match (if g.supervisor then none else matrixFault g (g.due.filter fun d => ops.contains d.op)) with
    | some f =>
      let s := (s.modCur fun g => g.delivered ops).takeFault g.id f (g.ctl.pc + 4)
      .ok { done s with hold := some .ready }
    | none => rest (s.modCur fun g => g.coveredDone ops)

end Sys2Proof.Machine
end

