-- ==== Sys2Proof/Machine/Lanes.lean ====
section
/-! DEFINITION. Mask operations (R184, R185) and cross-lane instructions (R186 to R193). -/
namespace Sys2Proof.Machine

/-- `mand` (R184). -/
def execMand (o : FmtMMM) (s : State) : Host.Outcome State Fault Refusal :=
  runUnit vectorUnit o.sw s fun s => maskUnit s o.d.toNat [] [] fun g => g.mask o.a.toNat &&& g.mask o.b.toNat

/-- `mor` (R184). -/
def execMor (o : FmtMMM) (s : State) : Host.Outcome State Fault Refusal :=
  runUnit vectorUnit o.sw s fun s => maskUnit s o.d.toNat [] [] fun g => g.mask o.a.toNat ||| g.mask o.b.toNat

/-- `mxor` (R184). -/
def execMxor (o : FmtMMM) (s : State) : Host.Outcome State Fault Refusal :=
  runUnit vectorUnit o.sw s fun s => maskUnit s o.d.toNat [] [] fun g => g.mask o.a.toNat ^^^ g.mask o.b.toNat

/-- `mandn` (R184). -/
def execMandn (o : FmtMMM) (s : State) : Host.Outcome State Fault Refusal :=
  runUnit vectorUnit o.sw s fun s => maskUnit s o.d.toNat [] [] fun g => g.mask o.a.toNat &&& ~~~(g.mask o.b.toNat)

/-- `mnot` (R185). -/
def execMnot (o : FmtMM) (s : State) : Host.Outcome State Fault Refusal :=
  runUnit vectorUnit o.sw s fun s => maskUnit s o.d.toNat [] [] fun g => ~~~(g.mask o.a.toNat)

/-- `mpop`: counts within the execution mask; the guard decides only the lanes written (R185). -/
def execMpop (o : FmtDM) (s : State) : Host.Outcome State Fault Refusal :=
  runUnit vectorUnit o.sw s fun s => regUnit s o.d.toNat [] [] fun g =>
    .u (BitVec.ofNat 32 (countLanes (g.mask o.a.toNat &&& g.ctl.mask)))

/-- `mfirst`: the lowest lane, W if there is none (R185). -/
def execMfirst (o : FmtDM) (s : State) : Host.Outcome State Fault Refusal :=
  runUnit vectorUnit o.sw s fun s => regUnit s o.d.toNat [] [] fun g =>
    .u (BitVec.ofNat 32 (lowestLane (g.mask o.a.toNat &&& g.ctl.mask)))

/-- `ballot` (R185). -/
def execBallot (o : FmtMA) (s : State) : Host.Outcome State Fault Refusal :=
  runUnit vectorUnit o.sw s fun s => maskUnit s o.d.toNat [o.a.toNat] [] fun g =>
    maskOf fun l => g.lane o.a.toNat l != 0#32

/-- `mset` (R185). -/
def execMset (o : FmtMA) (s : State) : Host.Outcome State Fault Refusal :=
  runUnit vectorUnit o.sw s fun s => maskUnit s o.d.toNat [o.a.toNat] [o.a.toNat] fun g =>
    maskOf fun l => decide (l < (g.uni o.a.toNat).toNat)

/-! ## Cross-lane -/

/-- `vxsh` (R187). -/
def execVxsh (o : FmtXsh) (s : State) : Host.Outcome State Fault Refusal :=
  runUnit crossUnit o.sw s fun s => regUnit s o.d.toNat [o.a.toNat] [] fun g =>
    .ofFn fun l => g.lane o.a.toNat (l ^^^ (Config.width / 2 ^ o.k.toNat))

/-- `vrot` (R188). -/
def execVrot (o : FmtDAI) (s : State) : Host.Outcome State Fault Refusal :=
  runUnit crossUnit o.sw s fun s => regUnit s o.d.toNat [o.a.toNat] [] fun g =>
    .ofFn fun l => g.lane o.a.toNat ((l + o.imm.toNat) % Config.width)

/-- `vbcast` (R190). -/
def execVbcast (o : FmtBcast) (s : State) : Host.Outcome State Fault Refusal :=
  runUnit crossUnit o.sw s fun s => regUnit s o.d.toNat [o.a.toNat] [] fun g => .u (g.lane o.a.toNat o.lane.toNat)

/-- A flight of values computed at issue that return later (R158, R189). -/
def valueFlight (s : State) (vals : List (Nat × Nat)) : Flight :=
  { id := s.tick, op := .value, path := 4, size := 4, scope := 0,
    lanes := vals.map fun p => { lane := p.1, addr := 0, data := p.2, cmp := 0, st := .flying, track := false, ro := false },
    pc := s.cur.ctl.pc, lim := false, sup := s.cur.supervisor, ped := s.cur.ped, seq := 0, scratch := false,
    finished := false }

/-- Puts a unit in flight whose results go to registers made pending (R55, R225). -/
def State.launch (s : State) (f : Flight) (dst : List Nat) : Try State :=
  match s.pendRegs f.id dst with
  | .error e => .error e
  | .ok s => .ok ((s.modCur fun g => { g with flights := g.flights ++ [f] }).ticked)

/-- `vidx`: the values read are those at issue (R189). -/
def execVidx (o : FmtDAB) (s : State) : Host.Outcome State Fault Refusal :=
  runUnit crossUnit o.sw s fun s =>
    let g := s.cur
    match g.checkOperands [o.d.toNat, o.a.toNat, o.b.toNat] [] [o.a.toNat, o.b.toNat] with
    | .error e => .error e
    | .ok _ =>
      if g.act = 0 then .ok (done s)
      else match g.awaitDest [o.d.toNat] with
        | .error e => .error e
        | .ok _ =>
          let vals := (lanesOf g.act).map fun l =>
            (l, (g.lane o.a.toNat ((g.lane o.b.toNat l).toNat % Config.width)).toNat)
          match s.launch (valueFlight s vals) [o.d.toNat] with
          | .error e => .error e
          | .ok s => .ok (done s)

/-! ## `vstep` and `vscan` (R191 to R193) -/

/-- The identity of an operation (R191). -/
def laneIdentity (f : Fmt) (op : Nat) : Nat :=
  match op with
  | 0 => 0
  | 1 => 0x7FFFFFFF
  | 2 => 0x80000000
  | 3 => 0xFFFFFFFF
  | 4 => 0
  | 5 => withSign f true 0
  | 6 => if f.p = 0 then encInf f false else encMaxFin f false
  | _ => if f.p = 0 then encInf f true else encMaxFin f true

def intRes (v : Word) : FRes := { bits := v.toNat, flags := fxNone, snan := false }

/-- op(x, y) (R191). -/
def laneOp (f : Fmt) (rnd op x y : Nat) : FRes :=
  let a := BitVec.ofNat 32 x
  let b := BitVec.ofNat 32 y
  match op with
  | 0 => intRes (a + b)
  | 1 => intRes (if b.slt a then b else a)
  | 2 => intRes (if a.slt b then b else a)
  | 3 => intRes (if b.ult a then b else a)
  | 4 => intRes (if a.ult b then b else a)
  | 5 => faddBits f rnd x y
  | 6 => fminmaxBits f false false x y
  | _ => fminmaxBits f true false x y

/-- Checks and capture shared by `vstep` and `vscan`, then the results of the lanes (R82, R191). -/
def laneOpUnit (d a : BitVec 7) (op : Nat) (res : Gang → Fmt → Nat → Nat → FRes) (s : State) : Try Done :=
  let g := s.cur
  let fl := decide (5 ≤ op)
  let f := if fl then fmtOf (s.entry g.fmtIx) else fmtOf 0x000000020000B020
  let pair := fl && f.w == 64
  let ds := regsFor pair d.toNat
  let as := regsFor pair a.toNat
  match checkOdd pair [d.toNat, a.toNat] with
  | .error e => .error e
  | .ok _ => match g.checkRegs (ds ++ as) with
    | .error e => .error e
    | .ok _ => match (if fl then checkFormats [(f, f.forVector)] (op != 5 || g.rndOk) else .ok ()) with
      | .error e => .error e
      | .ok _ => match g.checkReady as with
        | .error e => .error e
        | .ok _ =>
          if g.act = 0 then .ok (done s)
          else match g.awaitDest ds with
            | .error e => .error e
            | .ok _ =>
              let r := res g f g.rnd.toNat
              let trapped := trappedLanes g.enables g.act r
              match s.writeLanes g.act (g.act &&& ~~~trapped) (resultRegs f.w d.toNat fun l => (r l).bits) with
              | .error e => .error e
              | .ok s => .ok (doneTrap (s.modCur fun h => h.raise (flagsOver (g.act &&& ~~~trapped) r))
                  (trapOf g.enables trapped r))

/-- `vstep` (R192): the lower lane's value is the first operand, an inactive partner gives the identity. -/
def execVstep (o : FmtStep) (s : State) : Host.Outcome State Fault Refusal :=
  runUnit crossUnit o.sw s (laneOpUnit o.d o.a o.op.toNat fun g f rnd l =>
    let p := l ^^^ 2 ^ o.k.toNat
    let x := g.operand f.w o.a.toNat l
    let y := if inMask g.act p then g.operand f.w o.a.toNat p else laneIdentity f o.op.toNat
    if l < p then laneOp f rnd o.op.toNat x y else laneOp f rnd o.op.toNat y x)

/-- The chain of a scan over the active lanes: each lane's result, the last lane of an exclusive scan not read (R193). -/
def scanChain (step : Nat → Nat → FRes) (x : Nat → Nat) (exclusive : Bool) : List Nat → FRes → Bool → List (Nat × FRes)
  | [], _, _ => []
  | l :: rest, acc, first =>
    if exclusive then
      (l, acc) :: scanChain step x exclusive rest (if rest.isEmpty then acc else step acc.bits (x l)) false
    else
      let r := if first then { bits := x l, flags := fxNone, snan := false } else step acc.bits (x l)
      (l, r) :: scanChain step x exclusive rest r false

/-- `vscan` (R193). -/
def execVscan (o : FmtScan) (s : State) : Host.Outcome State Fault Refusal :=
  runUnit crossUnit o.sw s (laneOpUnit o.d o.a o.op.toNat fun g f rnd =>
    let chain := scanChain (laneOp f rnd o.op.toNat) (g.operand f.w o.a.toNat) (o.e == 1#1) (lanesOf g.act)
      { bits := laneIdentity f o.op.toNat, flags := fxNone, snan := false } true
    fun l => ((chain.find? fun p => p.1 == l).map fun p => p.2).getD { bits := 0, flags := fxNone, snan := false })

end Sys2Proof.Machine
end

