-- ==== Sys2Proof/Machine/LoadStore.lean ====
section
/-! DEFINITION. Loads and stores at issue (R222 to R231): the address of each lane, its faults, the access in flight. -/
namespace Sys2Proof.Machine

/-! ## Lane addresses (R222, R223) -/

/-- A lane's intermediate address and its range, or the code of its address fault (R222). -/
def Context.laneAddr (c : Context) (va : Dword) (need : BitVec 5) (size : Nat) : Except (BitVec 8) (Nat × Range) :=
  match c.translate va need with
  | .error e => .error e
  | .ok p => if va.toNat % size = 0 then .ok p else .error codeAlign

/-- The code taken when lanes hold several (R223). -/
def firstCode (codes : List (BitVec 8)) : BitVec 8 :=
  ([codeRange, codePerm, codeAlign, codeOpRange].find? codes.contains).getD codeRange

/-- The lane fault of a unit, if some lane has one (R223). -/
def laneFault (bad : List (Nat × BitVec 8)) : Option (BitVec 8 × Mask) :=
  if bad.isEmpty then none else some (firstCode (bad.map fun p => p.2), maskOfList (bad.map fun p => p.1))

/-- Lanes with an access, and lanes with an address fault. -/
structure Plan where
  good : List LaneAcc
  bad : List (Nat × BitVec 8)
  deriving DecidableEq, Repr

/-- Adds a lane to a plan. -/
def Plan.add (p : Plan) (l : Nat) (data cmp : Nat) : Except (BitVec 8) (Nat × Bool × Bool) → Plan
  | .error e => { p with bad := p.bad ++ [(l, e)] }
  | .ok (a, track, ro) =>
    { p with good := p.good ++ [{ lane := l, addr := a, data := data, cmp := cmp, st := .flying, track := track, ro := ro }] }

/-- The plan of the lanes of act. -/
def planLanes (act : Mask) (at_ : Nat → Except (BitVec 8) (Nat × Bool × Bool)) (data cmp : Nat → Nat) : Plan :=
  (lanesOf act).foldl (fun p l => p.add l (data l) (cmp l) (at_ l)) { good := [], bad := [] }

/-- A global lane: its address with the flags of its range. -/
def Context.globalLane (c : Context) (need : BitVec 5) (size : Nat) (va : Dword) : Except (BitVec 8) (Nat × Bool × Bool) :=
  match c.laneAddr va need size with
  | .error e => .error e
  | .ok (ia, r) => .ok (ia, permits r.perm permTrack, !permits r.perm permW)

/-! ## Scratch (R230, R251) -/

/-- Offset of a crew's allocation in the scratch of its core: crews in ascending rank. -/
def State.scratchBase (s : State) (c : Crew) : Nat :=
  (s.crews.filter fun d => d.ctx == c.ctx && d.core == c.core && decide (d.rank < c.rank)).length * (s.ctx c.ctx).scratch

/-- The bytes up to an end offset of a crew's allocation lie in it, in ways that scratch holds. -/
def State.scratchEnd (s : State) (c : Crew) (fin : Nat) : Bool :=
  fin == 0 || (decide (fin ≤ (s.ctx c.ctx).scratch) &&
    decide (s.scratchBase c + fin ≤ 32768 * (s.core c.core).scratchWays c.ctx))

/-- A scratch lane (R230). -/
def State.scratchLane (s : State) (c : Crew) (off : Word) : Except (BitVec 8) (Nat × Bool × Bool) :=
  if off.toNat % 4 ≠ 0 then .error codeAlign
  else if s.scratchEnd c (off.toNat + 4) then .ok (off.toNat, false, false)
  else .error codeOpRange

/-! ## Issue (R225, R261) -/

/-- Finished flights that no earlier unfinished one of their path keeps counted are dropped. -/
def tidyFrom : List Nat → List Flight → List Flight
  | _, [] => []
  | held, f :: r =>
    if f.finished then (if decide (f.path < 4) && held.contains f.path then f :: tidyFrom held r else tidyFrom held r)
    else f :: tidyFrom (f.path :: held) r

def Gang.tidy (g : Gang) : Gang := { g with flights := tidyFrom [] g.flights }

/-- An access of the gang in issue, with its lanes. -/
def accessFlight (s : State) (op : FlightOp) (path size scope : Nat) (lanes : List LaneAcc) (scratch : Bool) : Flight :=
  { id := s.tick, op := op, path := path, size := size, scope := scope, lanes := lanes, pc := s.cur.ctl.pc, lim := false,
    sup := s.cur.supervisor, ped := s.cur.ped, seq := s.cur.datomSeq, scratch := scratch, finished := lanes.isEmpty }

/-- Event of a path (R347). -/
def pathEvent (path : Nat) : Nat := if path = 0 then 10 else 11

/-- Puts an access in flight: the waits for the replay queue, the path counter and a pending destination, then the
destinations made pending, the counters, and the lane fault the unit leaves. -/
def State.issueAccess (s : State) (f : Flight) (dst : List Nat) (bad : List (Nat × BitVec 8)) : Try Done :=
  let g := s.cur
  match await ((f.scratch || s.queueOpen g) && decide (g.pathCount f.path < 65535)) with
  | .error e => .error e
  | .ok _ => match g.awaitDest dst with
    | .error e => .error e
    | .ok _ => match s.launch f dst with
      | .error e => .error e
      | .ok s =>
        let s := s.modCur fun g => ((if f.finished then g.landed f.id else g).holdBehind (s.queueRoom g)).tidy
        let s := if f.path = 0 ∨ f.path = 2 then s.countHere (pathEvent f.path) 1 else s
        let s := if f.scratch then s.countHere 12 1 else s
        .ok { done s with lane := laneFault bad }

/-! ## `ld`, `ldx`, `st`, `stx` -/

/-- The data a store sends from a lane: the low bytes of the register, or the pair. -/
def Gang.storeData (g : Gang) (size d l : Nat) : Nat :=
  if size = 8 then (g.pair d l).toNat else (g.lane d l).toNat % 256 ^ size

/-- A load of `size` bytes at the addresses given; `addrRegs` are the registers of the address. -/
def loadUnit (op : FlightOp) (scope size d : Nat) (addrRegs : List Nat) (va : Gang → Nat → Dword) (s : State) : Try Done :=
  let g := s.cur
  let dst := regsFor (size == 8) d
  match g.checkOperands (dst ++ addrRegs) [] addrRegs with
  | .error e => .error e
  | .ok _ =>
    if g.act = 0 then .ok (done s)
    else
      let p := planLanes g.act (fun l => s.here.globalLane permR size (va g l)) (fun _ => 0) (fun _ => 0)
      s.issueAccess (accessFlight s op 0 size scope p.good false) dst p.bad

/-- A store of `size` bytes at the addresses given. -/
def storeUnit (op : FlightOp) (scope size d : Nat) (addrRegs : List Nat) (va : Gang → Nat → Dword) (s : State) : Try Done :=
  let g := s.cur
  let src := regsFor (size == 8) d
  match g.checkOperands (src ++ addrRegs) [] (src ++ addrRegs) with
  | .error e => .error e
  | .ok _ =>
    if g.act = 0 then .ok (done s)
    else
      let p := planLanes g.act (fun l => s.here.globalLane permW size (va g l)) (g.storeData size d) (fun _ => 0)
      s.issueAccess (accessFlight s op 2 size scope p.good false) [] p.bad

/-- `ld` at row(pa) + off (R222, R227). -/
def ldUnit (size : Nat) (d a : BitVec 7) (off : Dword) : State → Try Done :=
  loadUnit .load 0 size d.toNat (regsFor true a.toNat) fun g => g.addr a.toNat off

/-- `st` at row(pa) + off (R222, R227). -/
def stUnit (size : Nat) (d a : BitVec 7) (off : Dword) : State → Try Done :=
  storeUnit .store 0 size d.toNat (regsFor true a.toNat) fun g => g.addr a.toNat off

/-- `ld.b` (R227). -/
def execLdB (o : FmtDAI) (s : State) : Host.Outcome State Fault Refusal :=
  runUnit control o.sw s (ldUnit 1 o.d o.a (sextD o.imm))

/-- `ld.h` (R227). -/
def execLdH (o : FmtDAI) (s : State) : Host.Outcome State Fault Refusal :=
  runUnit control o.sw s (ldUnit 2 o.d o.a (sextD o.imm))

/-- `ld.w` (R227). -/
def execLdW (o : FmtDAI) (s : State) : Host.Outcome State Fault Refusal :=
  runUnit control o.sw s (ldUnit 4 o.d o.a (sextD o.imm))

/-- `ld.d` (R227). -/
def execLdD (o : FmtDAI) (s : State) : Host.Outcome State Fault Refusal :=
  runUnit control o.sw s (ldUnit 8 o.d o.a (sextD o.imm))

/-- `st.b` (R227). -/
def execStB (o : FmtDAI) (s : State) : Host.Outcome State Fault Refusal :=
  runUnit control o.sw s (stUnit 1 o.d o.a (sextD o.imm))

/-- `st.h` (R227). -/
def execStH (o : FmtDAI) (s : State) : Host.Outcome State Fault Refusal :=
  runUnit control o.sw s (stUnit 2 o.d o.a (sextD o.imm))

/-- `st.w` (R227). -/
def execStW (o : FmtDAI) (s : State) : Host.Outcome State Fault Refusal :=
  runUnit control o.sw s (stUnit 4 o.d o.a (sextD o.imm))

/-- `st.d` (R227). -/
def execStD (o : FmtDAI) (s : State) : Host.Outcome State Fault Refusal :=
  runUnit control o.sw s (stUnit 8 o.d o.a (sextD o.imm))

/-- The registers of an indexed address. -/
def indexedRegs (o : FmtLdx) : List Nat := regsFor true o.a.toNat ++ [o.b.toNat]

/-- `ldx` (R229). -/
def execLdx (o : FmtLdx) (s : State) : Host.Outcome State Fault Refusal :=
  runUnit control o.sw s (loadUnit .load 0 (sizeBytes o.size) o.d.toNat (indexedRegs o)
    fun g => g.addrX o.a.toNat o.b.toNat (sizeBytes o.size) (o.x == 1))

/-- `stx` (R229). -/
def execStx (o : FmtLdx) (s : State) : Host.Outcome State Fault Refusal :=
  runUnit control o.sw s (storeUnit .store 0 (sizeBytes o.size) o.d.toNat (indexedRegs o)
    fun g => g.addrX o.a.toNat o.b.toNat (sizeBytes o.size) (o.x == 1))

/-! ## `lds`, `sts` (R230) -/

/-- Scratch offset of a lane: row(va) + 4·i mod 2^32. -/
def Gang.scratchOff (g : Gang) (a : Nat) (i : Word) (l : Nat) : Word := g.lane a l + 4 * i

def ldsUnit (d a : BitVec 7) (i : Word) (s : State) : Try Done :=
  let g := s.cur
  match g.checkOperands [d.toNat, a.toNat] [] [a.toNat] with
  | .error e => .error e
  | .ok _ =>
    if g.act = 0 then .ok (done s)
    else
      let p := planLanes g.act (fun l => s.scratchLane (s.crewOf g) (g.scratchOff a.toNat i l)) (fun _ => 0) (fun _ => 0)
      s.issueAccess (accessFlight s .lds 1 4 0 p.good true) [d.toNat] p.bad

def stsUnit (d a : BitVec 7) (i : Word) (s : State) : Try Done :=
  let g := s.cur
  match g.checkOperands [d.toNat, a.toNat] [] [d.toNat, a.toNat] with
  | .error e => .error e
  | .ok _ =>
    if g.act = 0 then .ok (done s)
    else
      let p := planLanes g.act (fun l => s.scratchLane (s.crewOf g) (g.scratchOff a.toNat i l))
        (g.storeData 4 d.toNat) (fun _ => 0)
      s.issueAccess (accessFlight s .sts 2 4 0 p.good true) [] p.bad

/-- `lds` (R230). -/
def execLds (o : FmtDAI) (s : State) : Host.Outcome State Fault Refusal :=
  runUnit control o.sw s (ldsUnit o.d o.a (sextW o.imm))

/-- `sts` (R230). -/
def execSts (o : FmtDAI) (s : State) : Host.Outcome State Fault Refusal :=
  runUnit control o.sw s (stsUnit o.d o.a (sextW o.imm))

/-! ## `lda`, `str` (R231) -/

/-- `lda` (R231). -/
def execLda (o : FmtLda) (s : State) : Host.Outcome State Fault Refusal :=
  runUnit control o.sw s (loadUnit .lda o.scope.toNat (sizeBytes o.size) o.d.toNat (regsFor true o.a.toNat)
    fun g => g.addr o.a.toNat 0)

/-- `str` (R231). -/
def execStr (o : FmtLda) (s : State) : Host.Outcome State Fault Refusal :=
  runUnit control o.sw s (storeUnit .str o.scope.toNat (sizeBytes o.size) o.d.toNat (regsFor true o.a.toNat)
    fun g => g.addr o.a.toNat 0)

end Sys2Proof.Machine
end

