-- ==== Sys2Proof/Machine/Atomics.lean ====
section
/-! DEFINITION. Atomics (R232, R233) and deterministic rounds (R234, R235, R269 to R274). -/
namespace Sys2Proof.Machine

/-! ## Operations -/

/-- Signed value of an operand of k bytes. -/
def signedOf (k v : Nat) : Int :=
  let v := v % 256 ^ k
  if 2 * v < 256 ^ k then (v : Int) else (v : Int) - (256 ^ k : Nat)

/-- The entry of a floating atomic: entry 1 for word, entry 0 for dword (R232, R234). -/
def atomFmt (size : Nat) : Fmt := if size = 8 then bin64 else bin32

/-- The new value from the old one m and the operand x; `cmp` is the compare value of `cas` (R232). -/
def atomNew (op : BitVec 4) (size m x cmp : Nat) : Nat :=
  let top := 256 ^ size
  match op.toNat with
  | 0 => (m + x) % top
  | 1 => (m + top - x % top) % top
  | 2 => if signedOf size x < signedOf size m then x else m
  | 3 => if signedOf size m < signedOf size x then x else m
  | 4 => min m x
  | 5 => max m x
  | 6 => m &&& x
  | 7 => m ||| x
  | 8 => m ^^^ x
  | 9 => x
  | 10 => if m = cmp then x else m
  | _ => (faddBits (atomFmt size) rne m x).bits

/-- The new value of a held update (R234). -/
def datomNew (op : BitVec 4) (size m x : Nat) : Nat :=
  match op.toNat with
  | 0 => (m + x) % 256 ^ size
  | 1 => (faddBits (atomFmt size) rne m x).bits
  | 2 => if signedOf size x < signedOf size m then x else m
  | 3 => if signedOf size m < signedOf size x then x else m
  | 4 => (fminmaxBits (atomFmt size) false false m x).bits
  | _ => (fminmaxBits (atomFmt size) true false m x).bits

/-! ## `atom` at issue -/

/-- Registers that an `atom` reads besides its address: `cas` reads compare and new value (R232). -/
def atomSources (o : FmtAtom) : List Nat :=
  let w := if o.size = 3 then 2 else 1
  recordRegs o.d.toNat (if o.op = 10 then 2 * w else w)

/-- The operand of a lane; for `cas` the new value. -/
def Gang.atomData (g : Gang) (o : FmtAtom) (l : Nat) : Nat :=
  let size := sizeBytes o.size
  g.storeData size (if o.op = 10 then o.d.toNat + size / 4 else o.d.toNat) l

/-- `atom` (R232, R233): NONDET in strict mode. -/
def execAtom (o : FmtAtom) (s : State) : Host.Outcome State Fault Refusal :=
  runUnit control o.sw s fun s =>
    let g := s.cur
    let size := sizeBytes o.size
    let rs := regsFor true o.a.toNat ++ atomSources o
    match g.checkOperands rs [] rs with
    | .error e => .error e
    | .ok _ => match check (!s.here.strict) codeNonDet with
      | .error e => .error e
      | .ok _ =>
        if g.act = 0 then .ok (done s)
        else
          let p := planLanes g.act (fun l => s.here.globalLane (permR ||| permW) size (g.addr o.a.toNat 0 l)) (g.atomData o)
            (g.storeData size o.d.toNat)
          let ret := o.r == 1
          s.issueAccess (accessFlight s (.atom o.op ret) (if ret then 0 else 2) size o.scope.toNat p.good false)
            (if ret then regsFor (size == 8) o.d.toNat else []) p.bad

/-! ## `datom` -/

/-- `datom` (R234): opens the crew's round (R269) and counts in the gang's issue sequence. -/
def execDatom (o : FmtDatom) (s : State) : Host.Outcome State Fault Refusal :=
  runUnit control o.sw s fun s =>
    let g := s.cur
    let size := sizeBytes o.size
    let rs := regsFor true o.a.toNat ++ regsFor (size == 8) o.d.toNat
    match g.checkOperands rs [] rs with
    | .error e => .error e
    | .ok _ =>
      if g.act = 0 then .ok (done (s.modCur fun g => { g with datomSeq := g.datomSeq + 1 }))
      else
        let p := planLanes g.act (fun l => s.here.globalLane permDet size (g.addr o.a.toNat 0 l))
          (g.storeData size o.d.toNat) (fun _ => 0)
        match s.issueAccess (accessFlight s (.datom o.op) 2 size 0 p.good false) [] p.bad with
        | .error e => .error e
        | .ok d =>
          let st := d.st.modCur fun g => { g with datomSeq := g.datomSeq + 1 }
          .ok { d with st := if p.good.isEmpty then st else st.modCrew g.id.ctx g.id.crew fun c => { c with roundOpen := true } }

/-! ## Held updates (R270, R271, R274) -/

/-- Updates held for a dword of a crew's round. -/
def Context.heldFor (c : Context) (crew dword : Nat) : List HeldUpdate := c.held.filter fun h => h.crew == crew && h.dword == dword

/-- Address records in use at the home slice of a dword: one a (context, crew, dword) with updates outside the lists. -/
def State.recordsAt (s : State) (dev dword : Nat) : Nat :=
  let sl := s.homeSlice (dword * 8)
  let keys := (s.contexts.filter fun c => c.dev == dev).flatMap fun c =>
    (c.held.filter fun h => !h.outside && s.homeSlice (h.dword * 8) == sl).map fun h => (h.ctx, h.crew, h.dword)
  (keys.foldl (fun acc k => if acc.contains k then acc else k :: acc) []).length

/-- Holds one update, or answers the code it is refused with. -/
def State.holdUpdate (s : State) (u : HeldUpdate) : State × Option (BitVec 8) :=
  let c := s.ctx u.ctx
  let mine := c.heldFor u.crew u.dword
  let fits (n : Nat) : Bool := decide (c.overUsed + n ≤ c.overSize)
  if c.strict && c.held.any (fun h => h.dword == u.dword && h.crew != u.crew) then (s, some codeNonDet)
  else if c.overflowed.contains (u.crew, u.dword) then
    if fits 96 then (s.setCtx { c with held := c.held ++ [{ u with outside := true }], overUsed := c.overUsed + 96 }, none)
    else (s, some codeQuota)
  else if (if mine.isEmpty then decide (s.recordsAt c.dev u.dword < Config.roundRecords)
      else decide (mine.length < Config.roundUpdates)) then
    (s.setCtx { c with held := c.held ++ [{ u with outside := false }] }, none)
  else
    let n := 64 + 96 * (mine.length + 1)
    if fits n then
      let moved := updateWhere (fun h => h.crew == u.crew && h.dword == u.dword) (fun h => { h with outside := true }) c.held
      (s.setCtx
        { c with
          held := moved ++ [{ u with outside := true }]
          overUsed := c.overUsed + n
          overflowed := c.overflowed ++ [(u.crew, u.dword)] }, none)
    else (s, some codeQuota)

/-! ## `dafence` -/

/-- `dafence` (R235): every gang arrives and waits; ROUND_APPLY lets them go on. -/
def execDafence (o : Sw) (s : State) : Host.Outcome State Fault Refusal :=
  runUnit serialUnit o.sw s fun s =>
    match s.checkMeeting (.dafence o.sw) with
    | .error e => .error e
    | .ok _ => .ok { done s with hold := some (.collective (.dafence o.sw)) }

/-- Key order of two updates (R235). -/
def HeldUpdate.before (a b : HeldUpdate) : Bool :=
  if pedSerialLt a.ped b.ped then true
  else if pedSerialLt b.ped a.ped then false
  else if a.gang ≠ b.gang then decide (a.gang < b.gang)
  else if a.lane ≠ b.lane then decide (a.lane < b.lane)
  else decide (a.seq < b.seq)

/-- Applies one held update to the memory value, with its own op and size. -/
def State.applyUpdate (s : State) (u : HeldUpdate) : State :=
  let c := s.ctx u.ctx
  match c.physical u.addr with
  | none => s
  | some pa =>
    let s := s.touchL2 c.dev c.num (pieceOf u.addr) (pa / 64 * 64) true
    { s with mem := Memory.writeNat s.mem pa u.size (datomNew u.op u.size (Memory.readNat s.mem pa u.size) u.value) }.stamp
      c.dev u.addr

/-- Closes a crew's round: its updates are applied in key order, dword by dword, and its list space returns. -/
def State.closeRound (s : State) (ctx crew : Nat) : State :=
  let c := s.ctx ctx
  let mine := sortBy HeldUpdate.before (c.held.filter fun h => h.crew == crew)
  let s := mine.foldl State.applyUpdate s
  let lists := c.overflowed.filter fun p => p.1 == crew
  let freed := 64 * lists.length + 96 * (mine.filter fun h => h.outside).length
  let s := s.modCtx ctx fun c =>
    { c with
      held := c.held.filter fun h => h.crew != crew
      overflowed := c.overflowed.filter fun p => p.1 != crew
      overUsed := c.overUsed - freed }
  s.modCrew ctx crew fun c => { c with roundOpen := false }

/-- The gang passes the `dafence` at which it waits; its issue sequence starts again (R234). -/
def Gang.passRound (g : Gang) : Gang :=
  match g.collective? with
  | some (.dafence sw) => { g.pass sw with datomSeq := 0 }
  | _ => g

/-- Everything a gang issued before its `dafence` is complete, its updates held, and its replay queue empty (R235, R262). One that
has halted or is saved resumes its wait first (R326). -/
def State.roundReady (s : State) (g : Gang) : Bool :=
  (match g.collective? with
    | some (.dafence _) => true
    | _ => false) && g.accessesDone && s.queueEntries g == 0 && !g.away && !s.halts g

/-- ROUND_APPLY (R235, R272): a held dword whose page has no mapping leaves the round open, and the gang of rank 0 takes
PAGE before its `dafence`. The page it names is that of the first held update in order of arrival, and `$TMASK` has the lanes of
that gang's execution mask: the model's choices (log 93). A `dafence` with no round open acquires at device scope too (R278, log 92). -/
def execRoundApply (ctx crew : Nat) (s : State) : Host.Outcome State Fault Refusal :=
  runEvent s (
    let gangs := s.crewGangs ctx crew
    let c := s.ctx ctx
    let held := c.held.filter fun h => h.crew == crew
    if (s.crew ctx crew).stopped || gangs.isEmpty || !gangs.all s.roundReady || s.quarantined.any (fun q => q.dev == c.dev) then none
    else match held.find? fun h => (c.physical h.addr).isNone with
      | some h =>
        let id : GangId := { ctx := ctx, crew := crew, rank := 0 }
        match s.gang? id with
        | none => none
        | some g =>
          let g := g.toCollective
          let f := pageFault g.ctl.mask h.addr false
          if g.supervisor then some (s.stopOn id (faultRecord f) f.mask g.ctl.pc)
          else some (s.setGang (g.leave.saveFrag.pendFault f))
      | none =>
        if held.any fun h => s.owned ctx h.addr then none
        else
          let s := s.closeRound ctx crew
          let s := match gangs with
            | g :: _ => s.acquire g 5
            | [] => s
          some (gangs.foldl (fun s g => (s.modGang g.id Gang.passRound).countOther g) s))

end Sys2Proof.Machine
end

