-- ==== Sys2Proof/Machine/Barrier.lean ====
section
/-! DEFINITION. The crew barrier (R248). -/
namespace Sys2Proof.Machine

/-- Records an arrival; the last one of the crew completes the phase (R248). A gang that has arrived in this phase already, by
a `carr` before its `cbar`, does not arrive twice: the model's choice (log 73). -/
def State.arriveBarrier (s : State) : State :=
  let g := s.cur
  let c := s.crewOf g
  let n := (s.crewGangs g.id.ctx g.id.crew).length
  let all := if c.arrivals.contains g.id.rank then c.arrivals else c.arrivals ++ [g.id.rank]
  s.setCrew (if n ≤ all.length then { c with phase := c.phase + 1, arrivals := [] } else { c with arrivals := all })

/-- A gang goes on when the phase it waits for is complete and with it every access before the unit, but for those in the replay
queue (R262, R278), else it waits there. -/
def awaitPhase (s : State) (phase : Nat) (w : Collective) : Try Done :=
  if phase < s.phaseOf (s.crewOf s.cur) && s.cur.flown then .ok (done s)
  else .ok { done s with hold := some (.collective w) }

/-- The phase for which the `cbar` in issue has arrived already: it waits there, or it waited and a handler has run
(R248). -/
def Gang.arrivedFor (g : Gang) : Option Nat :=
  g.ctl.barrier?.or ((g.barAt.filter fun b => b.1 == g.ctl.pc).map fun b => b.2)

/-- The phase of the gang's last `carr`, while it is open (R248). -/
def State.openArrival (s : State) : Option Nat := s.cur.lastArr.filter fun p => decide (s.phaseOf (s.crewOf s.cur) ≤ p)

/-- `cbar`: what precedes it is complete, it arrives and waits, or waits for the phase at which a `carr` has arrived (R248, R280,
log 73). -/
def cbarUnit (s : State) : Try Done :=
  let g := s.cur
  match g.arrivedFor with
  | some p =>
    match s.checkMeeting (.cbar p) with
    | .error e => .error e
    | .ok _ => awaitPhase (s.modCur fun g => { g with barAt := none }) p (.cbar p)
  | none =>
    let p := s.openArrival.getD (s.crewOf g).phase
    match s.checkMeeting (.cbar p) with
    | .error e => .error e
    | .ok _ => match await g.flown with
      | .error e => .error e
      | .ok _ => awaitPhase (if p = (s.crewOf g).phase then s.arriveBarrier else s) p (.cbar p)

/-- `cbar` (R248). -/
def execCbar (o : Sw) (s : State) : Host.Outcome State Fault Refusal := runUnit serialUnit o.sw s cbarUnit

/-- `carr` is an arrival and disturbs only a matrix quorum; while its gang's previous arrival, by `carr` or by a `cbar` left
for a handler, is open it waits as `cwt` does (R24, R248, R305). It waits for nothing else: the phase is complete once what
the gang has under way now is complete too (R280, log 82). -/
def carrUnit (s : State) : Try Done :=
  let g := s.cur
  let c := s.crewOf g
  let before := if c.arrivals.contains g.id.rank then some c.phase else s.openArrival
  match before with
  | some p =>
    match s.checkMeeting (.carr p) with
    | .error e => .error e
    | .ok _ => .ok { done s with hold := some (.collective (.carr p)) }
  | none =>
    match (if s.meeting.any fun p => p.2.isQuorum then s.checkMeeting (.carr c.phase) else .ok ()) with
    | .error e => .error e
    | .ok _ => .ok (done (s.arriveBarrier.modCur fun g => { g with lastArr := some c.phase, owes := g.underWay }))

/-- `carr` (R248). -/
def execCarr (o : Sw) (s : State) : Host.Outcome State Fault Refusal := runUnit serialUnit o.sw s carrUnit

/-- Accesses after a `cwt` come after those before it, which may still be under way (R278). -/
def Gang.ordered (g : Gang) (now : Nat) : Gang :=
  if g.accessesDone then g
  else { g with orders := (g.orders.filter fun t => (g.before t).any Flight.isAccess) ++ [now] }

/-- `cwt` waits for the phase of the gang's last `carr` and retires when it is complete (R248). -/
def cwtUnit (s : State) : Try Done :=
  match s.openArrival with
  | none => .ok (done (s.modCur fun g => g.ordered s.tick))
  | some p => match s.checkMeeting (.cwt p) with
    | .error e => .error e
    | .ok _ => .ok { done s with hold := some (.collective (.cwt p)) }

/-- `cwt` (R248). -/
def execCwt (o : Sw) (s : State) : Host.Outcome State Fault Refusal := runUnit serialUnit o.sw s cwtUnit

end Sys2Proof.Machine
end

