-- ==== Sys2Proof/WellFormed.lean ====
section
/-! DEFINITION. Which instructions the encoding rules admit (R98, R103 to R109). A check here depends on the
instruction's own fields and on W = 128 only; the checks that need the state (an odd register for an operand whose
captured entry has W = 64, R107; the second word of a `lim` pair, R102) belong to the meanings. -/
namespace Sys2Proof

/-- The case of R109 a word or an instruction falls under. -/
inductive Illegal where
  /-- Case 1: reserved major opcode. -/
  | reservedMajor
  /-- Case 2: a selector value that is not listed. -/
  | selector
  /-- Case 4: a field that must be zero is not. -/
  | nonzeroField
  /-- Case 3: a sub-field code that R103 to R108 mark ILLEGAL. -/
  | subfield
  /-- Case 5: a pair or a record register that breaks R98. -/
  | registerField
  /-- Case 5: m0 as a destination. -/
  | maskZero
  /-- Case 6: a malformed `lim`. -/
  | limForm
  /-- Case 7: a special register or a word of one that does not exist. -/
  | specialRegister
  /-- Fewer than four bytes were given to the decoder. -/
  | tooShort
  /-- The operands of an event do not describe one (a message of other than 16 words, ...). -/
  | eventForm
  deriving DecidableEq, Repr

/-- A pair register is even (R98). -/
def isPair (r : BitVec 7) : Bool := r.toNat % 2 == 0
/-- A record of 4 registers (R98). -/
def isRec4 (r : BitVec 7) : Bool := r.toNat % 4 == 0
/-- A record of 16 registers (R98). -/
def isRec16 (r : BitVec 7) : Bool := r.toNat % 16 == 0
/-- A record of 6 registers within v0 to v127 (R98). -/
def isRec6 (r : BitVec 7) : Bool := r.toNat % 2 == 0 && r.toNat ≤ 122

/-- Words of special register `num` on the N8 (R195); none beyond 16 (R57). -/
def specialWords (num : Nat) : Nat :=
  if num = 4 then 16
  else if num = 9 ∨ num = 10 then 4
  else if num = 11 ∨ num = 13 ∨ num = 15 then 2
  else if num ≤ 16 then 1
  else 0

/-- `none` when the check holds, the case of R109 otherwise. -/
def need (ok : Bool) (c : Illegal) : Option Illegal := if ok then none else some c

/-- The first of several checks that fails. -/
def firstIllegal : List (Option Illegal) → Option Illegal
  | [] => none
  | some c :: _ => some c
  | none :: r => firstIllegal r

def pairD (r : BitVec 7) : Option Illegal := need (isPair r) .registerField
def rec4 (r : BitVec 7) : Option Illegal := need (isRec4 r) .registerField
def rec16 (r : BitVec 7) : Option Illegal := need (isRec16 r) .registerField
def maskDest (m : BitVec 3) : Option Illegal := need (m != 0#3) .maskZero
/-- A pair when the size code is dword (R104). -/
def pairIf (size : BitVec 2) (r : BitVec 7) : Option Illegal := need (size != 3#2 || isPair r) .registerField
/-- Scope codes 0 to 6 (R104). -/
def scopeOk (s : BitVec 3) : Option Illegal := need (s.toNat ≤ 6) .subfield
/-- A special register and a word of it that exist (R109 case 7). -/
def specialOk (num : BitVec 5) (w : BitVec 4) : Option Illegal :=
  need (w.toNat < specialWords num.toNat) .specialRegister

/-- The registers of `atom` (R232): the address is a pair; a dword operand is a pair; `cas` reads the swap value
from the register after the compare value. -/
def atomIllegal (o : FmtAtom) : Option Illegal :=
  firstIllegal [need (o.op.toNat ≤ 11) .subfield, need (2 ≤ o.size.toNat) .subfield, scopeOk o.scope, pairD o.a,
    need (if o.op = 10#4 then (if o.size = 3#2 then isRec4 o.d else isPair o.d)
          else (o.size != 3#2 || isPair o.d)) .registerField]

/-- A message has 16 words (R21). -/
def messageOk (m : List Word) : Option Illegal := need (m.length == 16) .eventForm

/-- The case of R109 that makes the instruction ILLEGAL whatever the state, or none. -/
def Instr.illegal : Instr → Option Illegal
  | .bcc o => need (o.cond.toNat ≤ 11) .subfield
  | .jtab o => pairD o.a
  | .callr o => pairD o.a
  | .callrM o => pairD o.a
  | .trap o => need (0x40 ≤ o.code.toNat) .subfield
  | .spawnr o => pairD o.a
  | .mbrecv o => rec16 o.d
  | .mbrecvP o => rec16 o.d
  | .mbsend o => rec16 o.a
  | .rlog o => pairD o.d
  | .rseed o => pairD o.a
  | .rjump o => pairD o.a
  | .icmp o => firstIllegal [need (o.c.toNat ≤ 9) .subfield, maskDest o.m]
  | .icmpD o => firstIllegal [need (o.c.toNat ≤ 9) .subfield, maskDest o.m, pairD o.a, pairD o.b]
  | .icmpi o => firstIllegal [need (o.c.toNat ≤ 9) .subfield, maskDest o.m]
  | .ucmpD o => firstIllegal [pairD o.a, pairD o.b]
  | .mand o => maskDest o.d
  | .mor o => maskDest o.d
  | .mxor o => maskDest o.d
  | .mandn o => maskDest o.d
  | .mnot o => maskDest o.d
  | .ballot o => maskDest o.d
  | .mset o => maskDest o.d
  | .vxsh o => need (o.k != 0#3) .subfield
  | .vstep o => need (o.k.toNat ≤ 6) .subfield
  | .mfs o => specialOk o.num o.w
  | .mts o => specialOk o.num o.w
  | .fcmp o => firstIllegal [need (o.c.toNat ≤ 7) .subfield, maskDest o.m]
  | .fcmpS o => firstIllegal [need (o.c.toNat ≤ 7) .subfield, maskDest o.m]
  | .fmtset o => pairD o.a
  | .fmtget o => pairD o.d
  | .ldB o => pairD o.a
  | .ldH o => pairD o.a
  | .ldW o => pairD o.a
  | .ldD o => firstIllegal [pairD o.a, pairD o.d]
  | .stB o => pairD o.a
  | .stH o => pairD o.a
  | .stW o => pairD o.a
  | .stD o => firstIllegal [pairD o.a, pairD o.d]
  | .ldx o => firstIllegal [pairD o.a, pairIf o.size o.d]
  | .stx o => firstIllegal [pairD o.a, pairIf o.size o.d]
  | .lda o => firstIllegal [scopeOk o.scope, pairD o.a, pairIf o.size o.d]
  | .str o => firstIllegal [scopeOk o.scope, pairD o.a, pairIf o.size o.d]
  | .atom o => atomIllegal o
  | .datom o => firstIllegal [need (o.op.toNat ≤ 5) .subfield, need (2 ≤ o.size.toNat) .subfield, pairD o.a,
      pairIf o.size o.d]
  | .fence o => firstIllegal [need (o.order.toNat ≤ 3) .subfield, scopeOk o.scope]
  | .pref o => firstIllegal [scopeOk o.scope, pairD o.a]
  | .cctlWb o => pairD o.a
  | .cctlInv o => pairD o.a
  | .cctlWbinv o => pairD o.a
  | .cpy o => firstIllegal [rec4 o.d, rec4 o.a]
  | .cpym o => firstIllegal [rec4 o.d, rec4 o.a]
  | .mma o => firstIllegal [need (o.shape.toNat ≤ 2) .subfield, rec4 o.a, pairD o.b]
  | .mmaO o => firstIllegal [need (o.shape.toNat ≤ 2) .subfield, rec4 o.a, pairD o.b]
  | .mmasF32 o => firstIllegal [rec4 o.a, pairD o.b]
  | .mmasS6 o => firstIllegal [rec4 o.a, rec4 o.b]
  | .mmasS7 o => firstIllegal [rec4 o.a, rec4 o.b]
  | .mmasS8 o => firstIllegal [rec4 o.a, rec4 o.b]
  | .mdrainS o => rec4 o.a
  | .mdrainG o => rec4 o.a
  | .mdrainP o => pairD o.a
  | .pmap o => firstIllegal [pairD o.a, pairD o.b]
  | .rrset o => need (isRec6 o.b) .registerField
  | .pmrd o => pairD o.d
  | .download _ _ c => need (c.length == 48) .eventForm
  | .hostPost _ _ m => messageOk m
  | .linkFlitReceive _ f _ => need (f.payload.length == 56) .eventForm
  | _ => none

/-- An instruction that is not ILLEGAL by its own fields. -/
def Instr.wf (i : Instr) : Bool := i.illegal.isNone

end Sys2Proof
end

