-- ==== Sys2Proof/Decode.lean ====
section
/-! DEFINITION. From words to instructions and back (R96 to R102, R105 to R109).
`decodeWord` reads one word: the major opcode fixes the format, the fn field or another selector the member.
Every word names one instruction or is refused with the case of R109 it falls under. -/
namespace Sys2Proof

/-! ## Fields (R96, R97) -/

/-- The switch marker S. -/
def fS (w : Word) : Bool := w.getLsbD 31
/-- The major opcode. -/
def fMajor (w : Word) : BitVec 7 := w.extractLsb' 24 7
def fD (w : Word) : BitVec 7 := w.extractLsb' 17 7
def fA (w : Word) : BitVec 7 := w.extractLsb' 10 7
def fB (w : Word) : BitVec 7 := w.extractLsb' 3 7
def fFn (w : Word) : BitVec 3 := w.extractLsb' 0 3
def fImm10 (w : Word) : BitVec 10 := w.extractLsb' 0 10

/-- Refuses a word whose field that must be zero is not (R109 case 4). -/
def zeroField {k : Nat} (x : BitVec k) (r : Except Illegal Instr) : Except Illegal Instr :=
  if x = 0#k then r else .error .nonzeroField

/-- Major 0x00. -/
def decode00 (w : Word) : Except Illegal Instr :=
  zeroField (w.extractLsb' 0 24) (.ok (.nop ⟨fS w⟩))

/-- Major 0x02. -/
def decode02 (w : Word) : Except Illegal Instr :=
  .ok (.br ⟨fS w, w.extractLsb' 0 24⟩)

/-- Major 0x03. -/
def decode03 (w : Word) : Except Illegal Instr :=
  .ok (.bcc ⟨fS w, w.extractLsb' 20 4, w.extractLsb' 0 20⟩)

/-- Major 0x04. -/
def decode04 (w : Word) : Except Illegal Instr :=
  match w.extractLsb' 20 1 with
  | 0#1 => .ok (.bmz ⟨fS w, w.extractLsb' 21 3, w.extractLsb' 0 20⟩)
  | 1#1 => .ok (.bmnz ⟨fS w, w.extractLsb' 21 3, w.extractLsb' 0 20⟩)

/-- Major 0x05. -/
def decode05 (w : Word) : Except Illegal Instr :=
  .ok (.jtab ⟨fS w, w.extractLsb' 17 7, w.extractLsb' 10 7, w.extractLsb' 0 10⟩)

/-- Major 0x06. -/
def decode06 (w : Word) : Except Illegal Instr :=
  match w.extractLsb' 0 1 with
  | 0#1 => .ok (.call ⟨fS w, w.extractLsb' 20 4, w.extractLsb' 16 4, w.extractLsb' 1 15⟩)
  | 1#1 => .ok (.callM ⟨fS w, w.extractLsb' 20 4, w.extractLsb' 16 4, w.extractLsb' 1 15⟩)

/-- Major 0x07. -/
def decode07 (w : Word) : Except Illegal Instr :=
  match w.extractLsb' 0 3 with
  | 0#3 => zeroField (w.extractLsb' 17 7) (.ok (.callr ⟨fS w, w.extractLsb' 10 7, w.extractLsb' 3 7⟩))
  | 1#3 => zeroField (w.extractLsb' 17 7) (.ok (.callrM ⟨fS w, w.extractLsb' 10 7, w.extractLsb' 3 7⟩))
  | _ => .error .selector

/-- Major 0x08. -/
def decode08 (w : Word) : Except Illegal Instr :=
  match w.extractLsb' 0 3 with
  | 0#3 => zeroField (w.extractLsb' 3 21) (.ok (.ret ⟨fS w⟩))
  | 1#3 => zeroField (w.extractLsb' 17 7) (zeroField (w.extractLsb' 3 7) (.ok (.unwind ⟨fS w, w.extractLsb' 10 7⟩)))
  | 2#3 => zeroField (w.extractLsb' 3 21) (.ok (.unwindM ⟨fS w⟩))
  | _ => .error .selector

/-- Major 0x09. -/
def decode09 (w : Word) : Except Illegal Instr :=
  zeroField (w.extractLsb' 8 16) (.ok (.trap ⟨fS w, w.extractLsb' 0 8⟩))

/-- Major 0x0A. -/
def decode0A (w : Word) : Except Illegal Instr :=
  match w.extractLsb' 0 3 with
  | 0#3 => zeroField (w.extractLsb' 3 21) (.ok (.rte ⟨fS w⟩))
  | 1#3 => zeroField (w.extractLsb' 3 21) (.ok (.rteSkip ⟨fS w⟩))
  | 2#3 => zeroField (w.extractLsb' 3 21) (.ok (.replay ⟨fS w⟩))
  | _ => .error .selector

/-- Major 0x0B. -/
def decode0B (w : Word) : Except Illegal Instr :=
  zeroField (w.extractLsb' 0 1) (.ok (.spawn ⟨fS w, w.extractLsb' 20 4, w.extractLsb' 16 4, w.extractLsb' 1 15⟩))

/-- Major 0x0C. -/
def decode0C (w : Word) : Except Illegal Instr :=
  match w.extractLsb' 0 3 with
  | 0#3 => zeroField (w.extractLsb' 17 7) (.ok (.spawnr ⟨fS w, w.extractLsb' 10 7, w.extractLsb' 3 7⟩))
  | _ => .error .selector

/-- Major 0x0D. -/
def decode0D (w : Word) : Except Illegal Instr :=
  match w.extractLsb' 0 3 with
  | 0#3 => zeroField (w.extractLsb' 3 21) (.ok (.join ⟨fS w⟩))
  | 1#3 => zeroField (w.extractLsb' 3 21) (.ok (.tdone ⟨fS w⟩))
  | 2#3 => zeroField (w.extractLsb' 3 21) (.ok (.yield ⟨fS w⟩))
  | _ => .error .selector

/-- Major 0x0E. -/
def decode0E (w : Word) : Except Illegal Instr :=
  zeroField (w.extractLsb' 5 12) (.ok (.pedq ⟨fS w, w.extractLsb' 17 7, w.extractLsb' 0 5⟩))

/-- Major 0x0F. -/
def decode0F (w : Word) : Except Illegal Instr :=
  match w.extractLsb' 0 3 with
  | 0#3 => zeroField (w.extractLsb' 3 14) (.ok (.pedkey ⟨fS w, w.extractLsb' 17 7⟩))
  | _ => .error .selector

/-- Major 0x10. -/
def decode10 (w : Word) : Except Illegal Instr :=
  match w.extractLsb' 0 3 with
  | 0#3 => zeroField (w.extractLsb' 3 7) (.ok (.mbrecv ⟨fS w, w.extractLsb' 17 7, w.extractLsb' 10 7⟩))
  | 1#3 => zeroField (w.extractLsb' 3 7) (.ok (.mbrecvP ⟨fS w, w.extractLsb' 17 7, w.extractLsb' 10 7⟩))
  | _ => .error .selector

/-- Major 0x11. -/
def decode11 (w : Word) : Except Illegal Instr :=
  match w.extractLsb' 0 3 with
  | 0#3 => zeroField (w.extractLsb' 17 7) (.ok (.mbsend ⟨fS w, w.extractLsb' 10 7, w.extractLsb' 3 7⟩))
  | _ => .error .selector

/-- Major 0x12. -/
def decode12 (w : Word) : Except Illegal Instr :=
  zeroField (w.extractLsb' 6 4) (.ok (.rupd ⟨fS w, w.extractLsb' 17 7, w.extractLsb' 10 7, w.extractLsb' 0 6⟩))

/-- Major 0x13. -/
def decode13 (w : Word) : Except Illegal Instr :=
  zeroField (w.extractLsb' 6 11) (.ok (.rlog ⟨fS w, w.extractLsb' 17 7, w.extractLsb' 0 6⟩))

/-- Major 0x14. -/
def decode14 (w : Word) : Except Illegal Instr :=
  zeroField (w.extractLsb' 6 4) (.ok (.rread ⟨fS w, w.extractLsb' 17 7, w.extractLsb' 10 7, w.extractLsb' 0 6⟩))

/-- Major 0x15. -/
def decode15 (w : Word) : Except Illegal Instr :=
  match w.extractLsb' 0 3 with
  | 0#3 => zeroField (w.extractLsb' 17 7) (zeroField (w.extractLsb' 3 7) (.ok (.rseed ⟨fS w, w.extractLsb' 10 7⟩)))
  | 1#3 => zeroField (w.extractLsb' 17 7) (zeroField (w.extractLsb' 3 7) (.ok (.rjump ⟨fS w, w.extractLsb' 10 7⟩)))
  | 2#3 => zeroField (w.extractLsb' 3 14) (.ok (.rdraw ⟨fS w, w.extractLsb' 17 7⟩))
  | _ => .error .selector

/-- Major 0x16. -/
def decode16 (w : Word) : Except Illegal Instr :=
  zeroField (w.extractLsb' 8 16) (.ok (.fgrow ⟨fS w, w.extractLsb' 0 8⟩))

/-- Major 0x17. -/
def decode17 (w : Word) : Except Illegal Instr :=
  zeroField (w.extractLsb' 8 16) (.ok (.fshrink ⟨fS w, w.extractLsb' 0 8⟩))

/-- Major 0x18. -/
def decode18 (w : Word) : Except Illegal Instr :=
  zeroField (w.extractLsb' 10 14) (.ok (.fgive ⟨fS w, w.extractLsb' 8 2, w.extractLsb' 0 8⟩))

/-- Major 0x19. -/
def decode19 (w : Word) : Except Illegal Instr :=
  zeroField (w.extractLsb' 10 14) (.ok (.ftake ⟨fS w, w.extractLsb' 8 2, w.extractLsb' 0 8⟩))

/-- Major 0x1A. -/
def decode1A (w : Word) : Except Illegal Instr :=
  match w.extractLsb' 0 3 with
  | 0#3 => zeroField (w.extractLsb' 3 7) (.ok (.ftag ⟨fS w, w.extractLsb' 17 7, w.extractLsb' 10 7⟩))
  | 1#3 => zeroField (w.extractLsb' 3 14) (.ok (.fmat ⟨fS w, w.extractLsb' 17 7⟩))
  | _ => .error .selector

/-- Major 0x20. -/
def decode20 (w : Word) : Except Illegal Instr :=
  match w.extractLsb' 0 3 with
  | 0#3 => .ok (.iadd ⟨fS w, w.extractLsb' 17 7, w.extractLsb' 10 7, w.extractLsb' 3 7⟩)
  | 1#3 => .ok (.isub ⟨fS w, w.extractLsb' 17 7, w.extractLsb' 10 7, w.extractLsb' 3 7⟩)
  | 2#3 => .ok (.iaddc ⟨fS w, w.extractLsb' 17 7, w.extractLsb' 10 7, w.extractLsb' 3 7⟩)
  | 3#3 => .ok (.isubb ⟨fS w, w.extractLsb' 17 7, w.extractLsb' 10 7, w.extractLsb' 3 7⟩)
  | _ => .error .selector

/-- Major 0x21. -/
def decode21 (w : Word) : Except Illegal Instr :=
  .ok (.iaddi ⟨fS w, w.extractLsb' 17 7, w.extractLsb' 10 7, w.extractLsb' 0 10⟩)

/-- Major 0x22. -/
def decode22 (w : Word) : Except Illegal Instr :=
  match w.extractLsb' 0 3 with
  | 0#3 => .ok (.imul ⟨fS w, w.extractLsb' 17 7, w.extractLsb' 10 7, w.extractLsb' 3 7⟩)
  | 1#3 => .ok (.imulh ⟨fS w, w.extractLsb' 17 7, w.extractLsb' 10 7, w.extractLsb' 3 7⟩)
  | 2#3 => .ok (.imulhu ⟨fS w, w.extractLsb' 17 7, w.extractLsb' 10 7, w.extractLsb' 3 7⟩)
  | 3#3 => .ok (.imad ⟨fS w, w.extractLsb' 17 7, w.extractLsb' 10 7, w.extractLsb' 3 7⟩)
  | _ => .error .selector

/-- Major 0x23. -/
def decode23 (w : Word) : Except Illegal Instr :=
  match w.extractLsb' 0 3 with
  | 0#3 => .ok (.and ⟨fS w, w.extractLsb' 17 7, w.extractLsb' 10 7, w.extractLsb' 3 7⟩)
  | 1#3 => .ok (.or ⟨fS w, w.extractLsb' 17 7, w.extractLsb' 10 7, w.extractLsb' 3 7⟩)
  | 2#3 => .ok (.xor ⟨fS w, w.extractLsb' 17 7, w.extractLsb' 10 7, w.extractLsb' 3 7⟩)
  | 3#3 => .ok (.andn ⟨fS w, w.extractLsb' 17 7, w.extractLsb' 10 7, w.extractLsb' 3 7⟩)
  | _ => .error .selector

/-- Major 0x24. -/
def decode24 (w : Word) : Except Illegal Instr :=
  .ok (.andi ⟨fS w, w.extractLsb' 17 7, w.extractLsb' 10 7, w.extractLsb' 0 10⟩)

/-- Major 0x25. -/
def decode25 (w : Word) : Except Illegal Instr :=
  .ok (.ori ⟨fS w, w.extractLsb' 17 7, w.extractLsb' 10 7, w.extractLsb' 0 10⟩)

/-- Major 0x26. -/
def decode26 (w : Word) : Except Illegal Instr :=
  .ok (.xori ⟨fS w, w.extractLsb' 17 7, w.extractLsb' 10 7, w.extractLsb' 0 10⟩)

/-- Major 0x27. -/
def decode27 (w : Word) : Except Illegal Instr :=
  match w.extractLsb' 0 3 with
  | 0#3 => .ok (.shl ⟨fS w, w.extractLsb' 17 7, w.extractLsb' 10 7, w.extractLsb' 3 7⟩)
  | 1#3 => .ok (.shr ⟨fS w, w.extractLsb' 17 7, w.extractLsb' 10 7, w.extractLsb' 3 7⟩)
  | 2#3 => .ok (.sar ⟨fS w, w.extractLsb' 17 7, w.extractLsb' 10 7, w.extractLsb' 3 7⟩)
  | 3#3 => .ok (.rot ⟨fS w, w.extractLsb' 17 7, w.extractLsb' 10 7, w.extractLsb' 3 7⟩)
  | _ => .error .selector

/-- Major 0x28. -/
def decode28 (w : Word) : Except Illegal Instr :=
  match w.extractLsb' 8 2 with
  | 0#2 => zeroField (w.extractLsb' 5 3) (.ok (.shli ⟨fS w, w.extractLsb' 17 7, w.extractLsb' 10 7, w.extractLsb' 0 5⟩))
  | 1#2 => zeroField (w.extractLsb' 5 3) (.ok (.shri ⟨fS w, w.extractLsb' 17 7, w.extractLsb' 10 7, w.extractLsb' 0 5⟩))
  | 2#2 => zeroField (w.extractLsb' 5 3) (.ok (.sari ⟨fS w, w.extractLsb' 17 7, w.extractLsb' 10 7, w.extractLsb' 0 5⟩))
  | 3#2 => zeroField (w.extractLsb' 5 3) (.ok (.roti ⟨fS w, w.extractLsb' 17 7, w.extractLsb' 10 7, w.extractLsb' 0 5⟩))

/-- Major 0x29. -/
def decode29 (w : Word) : Except Illegal Instr :=
  match w.extractLsb' 0 3 with
  | 0#3 => zeroField (w.extractLsb' 3 7) (.ok (.popc ⟨fS w, w.extractLsb' 17 7, w.extractLsb' 10 7⟩))
  | 1#3 => zeroField (w.extractLsb' 3 7) (.ok (.clz ⟨fS w, w.extractLsb' 17 7, w.extractLsb' 10 7⟩))
  | 2#3 => zeroField (w.extractLsb' 3 7) (.ok (.ctz ⟨fS w, w.extractLsb' 17 7, w.extractLsb' 10 7⟩))
  | 3#3 => zeroField (w.extractLsb' 3 7) (.ok (.brev ⟨fS w, w.extractLsb' 17 7, w.extractLsb' 10 7⟩))
  | 4#3 => zeroField (w.extractLsb' 3 7) (.ok (.ineg ⟨fS w, w.extractLsb' 17 7, w.extractLsb' 10 7⟩))
  | 5#3 => zeroField (w.extractLsb' 3 7) (.ok (.iabs ⟨fS w, w.extractLsb' 17 7, w.extractLsb' 10 7⟩))
  | _ => .error .selector

/-- Major 0x2A. -/
def decode2A (w : Word) : Except Illegal Instr :=
  match w.extractLsb' 0 3 with
  | 0#3 => .ok (.imin ⟨fS w, w.extractLsb' 17 7, w.extractLsb' 10 7, w.extractLsb' 3 7⟩)
  | 1#3 => .ok (.imax ⟨fS w, w.extractLsb' 17 7, w.extractLsb' 10 7, w.extractLsb' 3 7⟩)
  | 2#3 => .ok (.umin ⟨fS w, w.extractLsb' 17 7, w.extractLsb' 10 7, w.extractLsb' 3 7⟩)
  | 3#3 => .ok (.umax ⟨fS w, w.extractLsb' 17 7, w.extractLsb' 10 7, w.extractLsb' 3 7⟩)
  | _ => .error .selector

/-- Major 0x2B. -/
def decode2B (w : Word) : Except Illegal Instr :=
  match w.extractLsb' 0 3 with
  | 0#3 => .ok (.bfx ⟨fS w, w.extractLsb' 17 7, w.extractLsb' 10 7, w.extractLsb' 3 7⟩)
  | 1#3 => .ok (.bfxu ⟨fS w, w.extractLsb' 17 7, w.extractLsb' 10 7, w.extractLsb' 3 7⟩)
  | 2#3 => .ok (.bfi ⟨fS w, w.extractLsb' 17 7, w.extractLsb' 10 7, w.extractLsb' 3 7⟩)
  | _ => .error .selector

/-- Major 0x2C. -/
def decode2C (w : Word) : Except Illegal Instr :=
  match w.extractLsb' 0 3 with
  | 0#3 => .ok (.icmp ⟨fS w, w.extractLsb' 21 3, w.extractLsb' 17 4, w.extractLsb' 10 7, w.extractLsb' 3 7⟩)
  | 1#3 => .ok (.icmpD ⟨fS w, w.extractLsb' 21 3, w.extractLsb' 17 4, w.extractLsb' 10 7, w.extractLsb' 3 7⟩)
  | _ => .error .selector

/-- Major 0x2D. -/
def decode2D (w : Word) : Except Illegal Instr :=
  .ok (.icmpi ⟨fS w, w.extractLsb' 21 3, w.extractLsb' 17 4, w.extractLsb' 10 7, w.extractLsb' 0 10⟩)

/-- Major 0x2E. -/
def decode2E (w : Word) : Except Illegal Instr :=
  match w.extractLsb' 0 3 with
  | 0#3 => zeroField (w.extractLsb' 17 7) (.ok (.ucmp ⟨fS w, w.extractLsb' 10 7, w.extractLsb' 3 7⟩))
  | 1#3 => zeroField (w.extractLsb' 17 7) (.ok (.ucmpD ⟨fS w, w.extractLsb' 10 7, w.extractLsb' 3 7⟩))
  | _ => .error .selector

/-- Major 0x2F. -/
def decode2F (w : Word) : Except Illegal Instr :=
  .ok (.sel ⟨fS w, w.extractLsb' 17 7, w.extractLsb' 10 7, w.extractLsb' 3 7, w.extractLsb' 0 3⟩)

/-- Major 0x30. -/
def decode30 (w : Word) : Except Illegal Instr :=
  match w.extractLsb' 0 3 with
  | 0#3 => zeroField (w.extractLsb' 3 7) (.ok (.mov ⟨fS w, w.extractLsb' 17 7, w.extractLsb' 10 7⟩))
  | 1#3 => .ok (.movl ⟨fS w, w.extractLsb' 17 7, w.extractLsb' 10 7, w.extractLsb' 3 7⟩)
  | _ => .error .selector

/-- Major 0x31. -/
def decode31 (w : Word) : Except Illegal Instr :=
  .ok (.movi ⟨fS w, w.extractLsb' 17 7, w.extractLsb' 0 17⟩)

/-- Major 0x32. -/
def decode32 (w : Word) : Except Illegal Instr :=
  match w.extractLsb' 0 3 with
  | 0#3 => zeroField (w.extractLsb' 20 4) (zeroField (w.extractLsb' 13 4) (zeroField (w.extractLsb' 6 4) (.ok (.mand ⟨fS w, w.extractLsb' 17 3, w.extractLsb' 10 3, w.extractLsb' 3 3⟩))))
  | 1#3 => zeroField (w.extractLsb' 20 4) (zeroField (w.extractLsb' 13 4) (zeroField (w.extractLsb' 6 4) (.ok (.mor ⟨fS w, w.extractLsb' 17 3, w.extractLsb' 10 3, w.extractLsb' 3 3⟩))))
  | 2#3 => zeroField (w.extractLsb' 20 4) (zeroField (w.extractLsb' 13 4) (zeroField (w.extractLsb' 6 4) (.ok (.mxor ⟨fS w, w.extractLsb' 17 3, w.extractLsb' 10 3, w.extractLsb' 3 3⟩))))
  | 3#3 => zeroField (w.extractLsb' 20 4) (zeroField (w.extractLsb' 13 4) (zeroField (w.extractLsb' 6 4) (.ok (.mandn ⟨fS w, w.extractLsb' 17 3, w.extractLsb' 10 3, w.extractLsb' 3 3⟩))))
  | _ => .error .selector

/-- Major 0x33. -/
def decode33 (w : Word) : Except Illegal Instr :=
  match w.extractLsb' 0 3 with
  | 0#3 => zeroField (w.extractLsb' 20 4) (zeroField (w.extractLsb' 13 4) (zeroField (w.extractLsb' 3 7) (.ok (.mnot ⟨fS w, w.extractLsb' 17 3, w.extractLsb' 10 3⟩))))
  | 1#3 => zeroField (w.extractLsb' 13 4) (zeroField (w.extractLsb' 3 7) (.ok (.mpop ⟨fS w, w.extractLsb' 17 7, w.extractLsb' 10 3⟩)))
  | 2#3 => zeroField (w.extractLsb' 13 4) (zeroField (w.extractLsb' 3 7) (.ok (.mfirst ⟨fS w, w.extractLsb' 17 7, w.extractLsb' 10 3⟩)))
  | 3#3 => zeroField (w.extractLsb' 20 4) (zeroField (w.extractLsb' 3 7) (.ok (.ballot ⟨fS w, w.extractLsb' 17 3, w.extractLsb' 10 7⟩)))
  | 4#3 => zeroField (w.extractLsb' 20 4) (zeroField (w.extractLsb' 3 7) (.ok (.mset ⟨fS w, w.extractLsb' 17 3, w.extractLsb' 10 7⟩)))
  | _ => .error .selector

/-- Major 0x34. -/
def decode34 (w : Word) : Except Illegal Instr :=
  zeroField (w.extractLsb' 3 7) (.ok (.vxsh ⟨fS w, w.extractLsb' 17 7, w.extractLsb' 10 7, w.extractLsb' 0 3⟩))

/-- Major 0x35. -/
def decode35 (w : Word) : Except Illegal Instr :=
  .ok (.vrot ⟨fS w, w.extractLsb' 17 7, w.extractLsb' 10 7, w.extractLsb' 0 10⟩)

/-- Major 0x36. -/
def decode36 (w : Word) : Except Illegal Instr :=
  match w.extractLsb' 0 3 with
  | 0#3 => .ok (.vidx ⟨fS w, w.extractLsb' 17 7, w.extractLsb' 10 7, w.extractLsb' 3 7⟩)
  | _ => .error .selector

/-- Major 0x37. -/
def decode37 (w : Word) : Except Illegal Instr :=
  zeroField (w.extractLsb' 7 3) (.ok (.vbcast ⟨fS w, w.extractLsb' 17 7, w.extractLsb' 10 7, w.extractLsb' 0 7⟩))

/-- Major 0x38. -/
def decode38 (w : Word) : Except Illegal Instr :=
  zeroField (w.extractLsb' 6 4) (.ok (.vstep ⟨fS w, w.extractLsb' 17 7, w.extractLsb' 10 7, w.extractLsb' 3 3, w.extractLsb' 0 3⟩))

/-- Major 0x39. -/
def decode39 (w : Word) : Except Illegal Instr :=
  zeroField (w.extractLsb' 4 6) (.ok (.vscan ⟨fS w, w.extractLsb' 17 7, w.extractLsb' 10 7, w.extractLsb' 3 1, w.extractLsb' 0 3⟩))

/-- Major 0x3A. -/
def decode3A (w : Word) : Except Illegal Instr :=
  match w.extractLsb' 0 3 with
  | 0#3 => zeroField (w.extractLsb' 17 7) (.ok (.setmode ⟨fS w, w.extractLsb' 10 7, w.extractLsb' 3 7⟩))
  | 1#3 => zeroField (w.extractLsb' 3 14) (.ok (.getmode ⟨fS w, w.extractLsb' 17 7⟩))
  | _ => .error .selector

/-- Major 0x3B. -/
def decode3B (w : Word) : Except Illegal Instr :=
  zeroField (w.extractLsb' 9 8) (.ok (.mfs ⟨fS w, w.extractLsb' 17 7, w.extractLsb' 5 4, w.extractLsb' 0 5⟩))

/-- Major 0x3C. -/
def decode3C (w : Word) : Except Illegal Instr :=
  zeroField (w.extractLsb' 17 7) (zeroField (w.extractLsb' 9 1) (.ok (.mts ⟨fS w, w.extractLsb' 10 7, w.extractLsb' 5 4, w.extractLsb' 0 5⟩)))

/-- Major 0x3D. -/
def decode3D (w : Word) : Except Illegal Instr :=
  match w.extractLsb' 0 3 with
  | 0#3 => zeroField (w.extractLsb' 3 21) (.ok (.fclr ⟨fS w⟩))
  | _ => .error .selector

/-- Major 0x40. -/
def decode40 (w : Word) : Except Illegal Instr :=
  match w.extractLsb' 0 3 with
  | 0#3 => .ok (.fadd ⟨fS w, w.extractLsb' 17 7, w.extractLsb' 10 7, w.extractLsb' 3 7⟩)
  | 1#3 => .ok (.fsub ⟨fS w, w.extractLsb' 17 7, w.extractLsb' 10 7, w.extractLsb' 3 7⟩)
  | 2#3 => .ok (.fmul ⟨fS w, w.extractLsb' 17 7, w.extractLsb' 10 7, w.extractLsb' 3 7⟩)
  | 3#3 => .ok (.fdiv ⟨fS w, w.extractLsb' 17 7, w.extractLsb' 10 7, w.extractLsb' 3 7⟩)
  | _ => .error .selector

/-- Major 0x41. -/
def decode41 (w : Word) : Except Illegal Instr :=
  match w.extractLsb' 0 3 with
  | 0#3 => .ok (.fmac ⟨fS w, w.extractLsb' 17 7, w.extractLsb' 10 7, w.extractLsb' 3 7⟩)
  | 1#3 => .ok (.fmsc ⟨fS w, w.extractLsb' 17 7, w.extractLsb' 10 7, w.extractLsb' 3 7⟩)
  | 2#3 => .ok (.fnmac ⟨fS w, w.extractLsb' 17 7, w.extractLsb' 10 7, w.extractLsb' 3 7⟩)
  | 3#3 => .ok (.fnmsc ⟨fS w, w.extractLsb' 17 7, w.extractLsb' 10 7, w.extractLsb' 3 7⟩)
  | _ => .error .selector

/-- Major 0x42. -/
def decode42 (w : Word) : Except Illegal Instr :=
  match w.extractLsb' 0 3 with
  | 0#3 => zeroField (w.extractLsb' 3 7) (.ok (.fsqrt ⟨fS w, w.extractLsb' 17 7, w.extractLsb' 10 7⟩))
  | 1#3 => zeroField (w.extractLsb' 3 7) (.ok (.frcp ⟨fS w, w.extractLsb' 17 7, w.extractLsb' 10 7⟩))
  | 2#3 => zeroField (w.extractLsb' 3 7) (.ok (.frsq ⟨fS w, w.extractLsb' 17 7, w.extractLsb' 10 7⟩))
  | _ => .error .selector

/-- Major 0x43. -/
def decode43 (w : Word) : Except Illegal Instr :=
  match w.extractLsb' 0 3 with
  | 0#3 => .ok (.fmin ⟨fS w, w.extractLsb' 17 7, w.extractLsb' 10 7, w.extractLsb' 3 7⟩)
  | 1#3 => .ok (.fmax ⟨fS w, w.extractLsb' 17 7, w.extractLsb' 10 7, w.extractLsb' 3 7⟩)
  | 2#3 => .ok (.fminn ⟨fS w, w.extractLsb' 17 7, w.extractLsb' 10 7, w.extractLsb' 3 7⟩)
  | 3#3 => .ok (.fmaxn ⟨fS w, w.extractLsb' 17 7, w.extractLsb' 10 7, w.extractLsb' 3 7⟩)
  | _ => .error .selector

/-- Major 0x44. -/
def decode44 (w : Word) : Except Illegal Instr :=
  match w.extractLsb' 0 3 with
  | 0#3 => zeroField (w.extractLsb' 3 7) (.ok (.fabs ⟨fS w, w.extractLsb' 17 7, w.extractLsb' 10 7⟩))
  | 1#3 => zeroField (w.extractLsb' 3 7) (.ok (.fneg ⟨fS w, w.extractLsb' 17 7, w.extractLsb' 10 7⟩))
  | 2#3 => .ok (.fcpys ⟨fS w, w.extractLsb' 17 7, w.extractLsb' 10 7, w.extractLsb' 3 7⟩)
  | _ => .error .selector

/-- Major 0x45. -/
def decode45 (w : Word) : Except Illegal Instr :=
  match w.extractLsb' 0 3 with
  | 0#3 => .ok (.fcmp ⟨fS w, w.extractLsb' 21 3, w.extractLsb' 17 4, w.extractLsb' 10 7, w.extractLsb' 3 7⟩)
  | 1#3 => .ok (.fcmpS ⟨fS w, w.extractLsb' 21 3, w.extractLsb' 17 4, w.extractLsb' 10 7, w.extractLsb' 3 7⟩)
  | _ => .error .selector

/-- Major 0x46. -/
def decode46 (w : Word) : Except Illegal Instr :=
  match w.extractLsb' 0 3 with
  | 0#3 => zeroField (w.extractLsb' 3 7) (.ok (.fclass ⟨fS w, w.extractLsb' 17 7, w.extractLsb' 10 7⟩))
  | _ => .error .selector

/-- Major 0x47. -/
def decode47 (w : Word) : Except Illegal Instr :=
  match w.extractLsb' 0 3 with
  | 0#3 => zeroField (w.extractLsb' 3 7) (.ok (.frnd ⟨fS w, w.extractLsb' 17 7, w.extractLsb' 10 7⟩))
  | 1#3 => zeroField (w.extractLsb' 3 7) (.ok (.frndRne ⟨fS w, w.extractLsb' 17 7, w.extractLsb' 10 7⟩))
  | 2#3 => zeroField (w.extractLsb' 3 7) (.ok (.frndRtz ⟨fS w, w.extractLsb' 17 7, w.extractLsb' 10 7⟩))
  | 3#3 => zeroField (w.extractLsb' 3 7) (.ok (.frndRup ⟨fS w, w.extractLsb' 17 7, w.extractLsb' 10 7⟩))
  | 4#3 => zeroField (w.extractLsb' 3 7) (.ok (.frndRdn ⟨fS w, w.extractLsb' 17 7, w.extractLsb' 10 7⟩))
  | 5#3 => zeroField (w.extractLsb' 3 7) (.ok (.frndRna ⟨fS w, w.extractLsb' 17 7, w.extractLsb' 10 7⟩))
  | _ => .error .selector

/-- Major 0x48. -/
def decode48 (w : Word) : Except Illegal Instr :=
  match w.extractLsb' 0 3 with
  | 0#3 => .ok (.fscb ⟨fS w, w.extractLsb' 17 7, w.extractLsb' 10 7, w.extractLsb' 3 7⟩)
  | 1#3 => zeroField (w.extractLsb' 3 7) (.ok (.flgb ⟨fS w, w.extractLsb' 17 7, w.extractLsb' 10 7⟩))
  | _ => .error .selector

/-- Major 0x49. -/
def decode49 (w : Word) : Except Illegal Instr :=
  match w.extractLsb' 0 3 with
  | 0#3 => zeroField (w.extractLsb' 3 7) (.ok (.fexp2 ⟨fS w, w.extractLsb' 17 7, w.extractLsb' 10 7⟩))
  | 1#3 => zeroField (w.extractLsb' 3 7) (.ok (.flog2 ⟨fS w, w.extractLsb' 17 7, w.extractLsb' 10 7⟩))
  | 2#3 => zeroField (w.extractLsb' 3 7) (.ok (.fsinp ⟨fS w, w.extractLsb' 17 7, w.extractLsb' 10 7⟩))
  | 3#3 => zeroField (w.extractLsb' 3 7) (.ok (.fcosp ⟨fS w, w.extractLsb' 17 7, w.extractLsb' 10 7⟩))
  | 4#3 => zeroField (w.extractLsb' 3 7) (.ok (.ftanh ⟨fS w, w.extractLsb' 17 7, w.extractLsb' 10 7⟩))
  | _ => .error .selector

/-- Major 0x4A. -/
def decode4A (w : Word) : Except Illegal Instr :=
  .ok (.cvt ⟨fS w, w.extractLsb' 17 7, w.extractLsb' 10 7, w.extractLsb' 5 5, w.extractLsb' 0 5⟩)

/-- Major 0x4B. -/
def decode4B (w : Word) : Except Illegal Instr :=
  .ok (.cvti ⟨fS w, w.extractLsb' 17 7, w.extractLsb' 10 7, w.extractLsb' 5 5, w.extractLsb' 0 5⟩)

/-- Major 0x4C. -/
def decode4C (w : Word) : Except Illegal Instr :=
  .ok (.cvtf ⟨fS w, w.extractLsb' 17 7, w.extractLsb' 10 7, w.extractLsb' 5 5, w.extractLsb' 0 5⟩)

/-- Major 0x4D. -/
def decode4D (w : Word) : Except Illegal Instr :=
  zeroField (w.extractLsb' 1 2) (.ok (.bfpk ⟨fS w, w.extractLsb' 17 7, w.extractLsb' 10 7, w.extractLsb' 3 7, w.extractLsb' 0 1⟩))

/-- Major 0x4E. -/
def decode4E (w : Word) : Except Illegal Instr :=
  zeroField (w.extractLsb' 1 2) (.ok (.bfup ⟨fS w, w.extractLsb' 17 7, w.extractLsb' 10 7, w.extractLsb' 3 7, w.extractLsb' 0 1⟩))

/-- Major 0x4F. -/
def decode4F (w : Word) : Except Illegal Instr :=
  zeroField (w.extractLsb' 17 7) (zeroField (w.extractLsb' 5 5) (.ok (.fmtset ⟨fS w, w.extractLsb' 10 7, w.extractLsb' 0 5⟩)))

/-- Major 0x50. -/
def decode50 (w : Word) : Except Illegal Instr :=
  zeroField (w.extractLsb' 5 12) (.ok (.fmtget ⟨fS w, w.extractLsb' 17 7, w.extractLsb' 0 5⟩))

/-- Major 0x51. -/
def decode51 (w : Word) : Except Illegal Instr :=
  match w.extractLsb' 0 3 with
  | 0#3 => zeroField (w.extractLsb' 3 21) (.ok (.fmtsync ⟨fS w⟩))
  | _ => .error .selector

/-- Major 0x60. -/
def decode60 (w : Word) : Except Illegal Instr :=
  .ok (.ldB ⟨fS w, w.extractLsb' 17 7, w.extractLsb' 10 7, w.extractLsb' 0 10⟩)

/-- Major 0x61. -/
def decode61 (w : Word) : Except Illegal Instr :=
  .ok (.ldH ⟨fS w, w.extractLsb' 17 7, w.extractLsb' 10 7, w.extractLsb' 0 10⟩)

/-- Major 0x62. -/
def decode62 (w : Word) : Except Illegal Instr :=
  .ok (.ldW ⟨fS w, w.extractLsb' 17 7, w.extractLsb' 10 7, w.extractLsb' 0 10⟩)

/-- Major 0x63. -/
def decode63 (w : Word) : Except Illegal Instr :=
  .ok (.ldD ⟨fS w, w.extractLsb' 17 7, w.extractLsb' 10 7, w.extractLsb' 0 10⟩)

/-- Major 0x64. -/
def decode64 (w : Word) : Except Illegal Instr :=
  .ok (.stB ⟨fS w, w.extractLsb' 17 7, w.extractLsb' 10 7, w.extractLsb' 0 10⟩)

/-- Major 0x65. -/
def decode65 (w : Word) : Except Illegal Instr :=
  .ok (.stH ⟨fS w, w.extractLsb' 17 7, w.extractLsb' 10 7, w.extractLsb' 0 10⟩)

/-- Major 0x66. -/
def decode66 (w : Word) : Except Illegal Instr :=
  .ok (.stW ⟨fS w, w.extractLsb' 17 7, w.extractLsb' 10 7, w.extractLsb' 0 10⟩)

/-- Major 0x67. -/
def decode67 (w : Word) : Except Illegal Instr :=
  .ok (.stD ⟨fS w, w.extractLsb' 17 7, w.extractLsb' 10 7, w.extractLsb' 0 10⟩)

/-- Major 0x68. -/
def decode68 (w : Word) : Except Illegal Instr :=
  .ok (.ldx ⟨fS w, w.extractLsb' 17 7, w.extractLsb' 10 7, w.extractLsb' 3 7, w.extractLsb' 2 1, w.extractLsb' 0 2⟩)

/-- Major 0x69. -/
def decode69 (w : Word) : Except Illegal Instr :=
  .ok (.stx ⟨fS w, w.extractLsb' 17 7, w.extractLsb' 10 7, w.extractLsb' 3 7, w.extractLsb' 2 1, w.extractLsb' 0 2⟩)

/-- Major 0x6A. -/
def decode6A (w : Word) : Except Illegal Instr :=
  .ok (.lds ⟨fS w, w.extractLsb' 17 7, w.extractLsb' 10 7, w.extractLsb' 0 10⟩)

/-- Major 0x6B. -/
def decode6B (w : Word) : Except Illegal Instr :=
  .ok (.sts ⟨fS w, w.extractLsb' 17 7, w.extractLsb' 10 7, w.extractLsb' 0 10⟩)

/-- Major 0x6C. -/
def decode6C (w : Word) : Except Illegal Instr :=
  zeroField (w.extractLsb' 0 5) (.ok (.lda ⟨fS w, w.extractLsb' 17 7, w.extractLsb' 10 7, w.extractLsb' 8 2, w.extractLsb' 5 3⟩))

/-- Major 0x6D. -/
def decode6D (w : Word) : Except Illegal Instr :=
  zeroField (w.extractLsb' 0 5) (.ok (.str ⟨fS w, w.extractLsb' 17 7, w.extractLsb' 10 7, w.extractLsb' 8 2, w.extractLsb' 5 3⟩))

/-- Major 0x6E. -/
def decode6E (w : Word) : Except Illegal Instr :=
  .ok (.atom ⟨fS w, w.extractLsb' 17 7, w.extractLsb' 10 7, w.extractLsb' 6 4, w.extractLsb' 4 2, w.extractLsb' 3 1, w.extractLsb' 0 3⟩)

/-- Major 0x6F. -/
def decode6F (w : Word) : Except Illegal Instr :=
  zeroField (w.extractLsb' 0 4) (.ok (.datom ⟨fS w, w.extractLsb' 17 7, w.extractLsb' 10 7, w.extractLsb' 6 4, w.extractLsb' 4 2⟩))

/-- Major 0x70. -/
def decode70 (w : Word) : Except Illegal Instr :=
  zeroField (w.extractLsb' 6 18) (.ok (.fence ⟨fS w, w.extractLsb' 3 3, w.extractLsb' 0 3⟩))

/-- Major 0x71. -/
def decode71 (w : Word) : Except Illegal Instr :=
  match w.extractLsb' 0 3 with
  | 0#3 => zeroField (w.extractLsb' 3 21) (.ok (.dafence ⟨fS w⟩))
  | _ => .error .selector

/-- Major 0x72. -/
def decode72 (w : Word) : Except Illegal Instr :=
  zeroField (w.extractLsb' 10 14) (zeroField (w.extractLsb' 2 1) (.ok (.wait ⟨fS w, w.extractLsb' 3 7, w.extractLsb' 0 2⟩)))

/-- Major 0x73. -/
def decode73 (w : Word) : Except Illegal Instr :=
  match w.extractLsb' 0 3 with
  | 0#3 => zeroField (w.extractLsb' 17 7) (zeroField (w.extractLsb' 6 4) (.ok (.pref ⟨fS w, w.extractLsb' 10 7, w.extractLsb' 3 3⟩)))
  | 1#3 => zeroField (w.extractLsb' 17 7) (zeroField (w.extractLsb' 6 4) (.ok (.cctlWb ⟨fS w, w.extractLsb' 10 7, w.extractLsb' 3 3⟩)))
  | 2#3 => zeroField (w.extractLsb' 17 7) (zeroField (w.extractLsb' 6 4) (.ok (.cctlInv ⟨fS w, w.extractLsb' 10 7, w.extractLsb' 3 3⟩)))
  | 3#3 => zeroField (w.extractLsb' 17 7) (zeroField (w.extractLsb' 6 4) (.ok (.cctlWbinv ⟨fS w, w.extractLsb' 10 7, w.extractLsb' 3 3⟩)))
  | _ => .error .selector

/-- Major 0x74. -/
def decode74 (w : Word) : Except Illegal Instr :=
  zeroField (w.extractLsb' 2 8) (.ok (.cpy ⟨fS w, w.extractLsb' 17 7, w.extractLsb' 10 7, w.extractLsb' 0 2⟩))

/-- Major 0x75. -/
def decode75 (w : Word) : Except Illegal Instr :=
  match w.extractLsb' 0 3 with
  | 0#3 => .ok (.cpym ⟨fS w, w.extractLsb' 17 7, w.extractLsb' 10 7, w.extractLsb' 3 7⟩)
  | _ => .error .selector

/-- Major 0x76. -/
def decode76 (w : Word) : Except Illegal Instr :=
  match w.extractLsb' 0 3 with
  | 0#3 => .ok (.mma ⟨fS w, w.extractLsb' 20 4, w.extractLsb' 17 3, w.extractLsb' 10 7, w.extractLsb' 3 7⟩)
  | 1#3 => .ok (.mmaO ⟨fS w, w.extractLsb' 20 4, w.extractLsb' 17 3, w.extractLsb' 10 7, w.extractLsb' 3 7⟩)
  | _ => .error .selector

/-- Major 0x77. -/
def decode77 (w : Word) : Except Illegal Instr :=
  match w.extractLsb' 0 3 with
  | 0#3 => zeroField (w.extractLsb' 18 2) (.ok (.mmasF32 ⟨fS w, w.extractLsb' 20 4, w.extractLsb' 17 1, w.extractLsb' 10 7, w.extractLsb' 3 7⟩))
  | 1#3 => zeroField (w.extractLsb' 18 2) (.ok (.mmasS6 ⟨fS w, w.extractLsb' 20 4, w.extractLsb' 17 1, w.extractLsb' 10 7, w.extractLsb' 3 7⟩))
  | 2#3 => zeroField (w.extractLsb' 18 2) (.ok (.mmasS7 ⟨fS w, w.extractLsb' 20 4, w.extractLsb' 17 1, w.extractLsb' 10 7, w.extractLsb' 3 7⟩))
  | 3#3 => zeroField (w.extractLsb' 18 2) (.ok (.mmasS8 ⟨fS w, w.extractLsb' 20 4, w.extractLsb' 17 1, w.extractLsb' 10 7, w.extractLsb' 3 7⟩))
  | _ => .error .selector

/-- Major 0x78. -/
def decode78 (w : Word) : Except Illegal Instr :=
  match w.extractLsb' 0 3 with
  | 0#3 => zeroField (w.extractLsb' 3 17) (.ok (.mzero ⟨fS w, w.extractLsb' 20 4⟩))
  | _ => .error .selector

/-- Major 0x79. -/
def decode79 (w : Word) : Except Illegal Instr :=
  match w.extractLsb' 0 3 with
  | 0#3 => zeroField (w.extractLsb' 10 10) (.ok (.mdrainR ⟨fS w, w.extractLsb' 20 4, w.extractLsb' 3 7⟩))
  | 1#3 => zeroField (w.extractLsb' 17 3) (zeroField (w.extractLsb' 3 7) (.ok (.mdrainS ⟨fS w, w.extractLsb' 20 4, w.extractLsb' 10 7⟩)))
  | 2#3 => zeroField (w.extractLsb' 17 3) (zeroField (w.extractLsb' 3 7) (.ok (.mdrainG ⟨fS w, w.extractLsb' 20 4, w.extractLsb' 10 7⟩)))
  | 3#3 => zeroField (w.extractLsb' 17 3) (zeroField (w.extractLsb' 3 7) (.ok (.mdrainP ⟨fS w, w.extractLsb' 20 4, w.extractLsb' 10 7⟩)))
  | _ => .error .selector

/-- Major 0x7A. -/
def decode7A (w : Word) : Except Illegal Instr :=
  match w.extractLsb' 0 3 with
  | 0#3 => zeroField (w.extractLsb' 3 21) (.ok (.mfence ⟨fS w⟩))
  | 1#3 => zeroField (w.extractLsb' 10 14) (.ok (.mwait ⟨fS w, w.extractLsb' 3 7⟩))
  | _ => .error .selector

/-- Major 0x7B. -/
def decode7B (w : Word) : Except Illegal Instr :=
  match w.extractLsb' 0 3 with
  | 0#3 => zeroField (w.extractLsb' 3 21) (.ok (.cbar ⟨fS w⟩))
  | 1#3 => zeroField (w.extractLsb' 3 21) (.ok (.carr ⟨fS w⟩))
  | 2#3 => zeroField (w.extractLsb' 3 21) (.ok (.cwt ⟨fS w⟩))
  | _ => .error .selector

/-- Major 0x7C. -/
def decode7C (w : Word) : Except Illegal Instr :=
  match w.extractLsb' 0 3 with
  | 0#3 => zeroField (w.extractLsb' 17 7) (.ok (.pmap ⟨fS w, w.extractLsb' 10 7, w.extractLsb' 3 7⟩))
  | 1#3 => zeroField (w.extractLsb' 17 7) (.ok (.rrset ⟨fS w, w.extractLsb' 10 7, w.extractLsb' 3 7⟩))
  | 2#3 => zeroField (w.extractLsb' 17 7) (zeroField (w.extractLsb' 3 7) (.ok (.scratchcfg ⟨fS w, w.extractLsb' 10 7⟩)))
  | _ => .error .selector

/-- Major 0x7D. -/
def decode7D (w : Word) : Except Illegal Instr :=
  match w.extractLsb' 0 3 with
  | 0#3 => zeroField (w.extractLsb' 17 7) (.ok (.pmcfg ⟨fS w, w.extractLsb' 10 7, w.extractLsb' 3 7⟩))
  | 1#3 => zeroField (w.extractLsb' 3 7) (.ok (.pmrd ⟨fS w, w.extractLsb' 17 7, w.extractLsb' 10 7⟩))
  | 2#3 => zeroField (w.extractLsb' 17 7) (zeroField (w.extractLsb' 3 7) (.ok (.pmctlStop ⟨fS w, w.extractLsb' 10 7⟩)))
  | 3#3 => zeroField (w.extractLsb' 17 7) (zeroField (w.extractLsb' 3 7) (.ok (.psig ⟨fS w, w.extractLsb' 10 7⟩)))
  | _ => .error .selector

/-- The word's member by its selectors and zero fields (R109 cases 1, 2, 4, 8, and the `lim` bits of case 6). -/
def decodeShape (w : Word) : Except Illegal Instr :=
  match fMajor w with
  | 0x00#7 => decode00 w
  | 0x01#7 => if fS w = true ∨ w.extractLsb' 22 2 ≠ 0#2 then .error .limForm else .ok (.lim ⟨w.extractLsb' 0 22⟩)
  | 0x02#7 => decode02 w
  | 0x03#7 => decode03 w
  | 0x04#7 => decode04 w
  | 0x05#7 => decode05 w
  | 0x06#7 => decode06 w
  | 0x07#7 => decode07 w
  | 0x08#7 => decode08 w
  | 0x09#7 => decode09 w
  | 0x0A#7 => decode0A w
  | 0x0B#7 => decode0B w
  | 0x0C#7 => decode0C w
  | 0x0D#7 => decode0D w
  | 0x0E#7 => decode0E w
  | 0x0F#7 => decode0F w
  | 0x10#7 => decode10 w
  | 0x11#7 => decode11 w
  | 0x12#7 => decode12 w
  | 0x13#7 => decode13 w
  | 0x14#7 => decode14 w
  | 0x15#7 => decode15 w
  | 0x16#7 => decode16 w
  | 0x17#7 => decode17 w
  | 0x18#7 => decode18 w
  | 0x19#7 => decode19 w
  | 0x1A#7 => decode1A w
  | 0x20#7 => decode20 w
  | 0x21#7 => decode21 w
  | 0x22#7 => decode22 w
  | 0x23#7 => decode23 w
  | 0x24#7 => decode24 w
  | 0x25#7 => decode25 w
  | 0x26#7 => decode26 w
  | 0x27#7 => decode27 w
  | 0x28#7 => decode28 w
  | 0x29#7 => decode29 w
  | 0x2A#7 => decode2A w
  | 0x2B#7 => decode2B w
  | 0x2C#7 => decode2C w
  | 0x2D#7 => decode2D w
  | 0x2E#7 => decode2E w
  | 0x2F#7 => decode2F w
  | 0x30#7 => decode30 w
  | 0x31#7 => decode31 w
  | 0x32#7 => decode32 w
  | 0x33#7 => decode33 w
  | 0x34#7 => decode34 w
  | 0x35#7 => decode35 w
  | 0x36#7 => decode36 w
  | 0x37#7 => decode37 w
  | 0x38#7 => decode38 w
  | 0x39#7 => decode39 w
  | 0x3A#7 => decode3A w
  | 0x3B#7 => decode3B w
  | 0x3C#7 => decode3C w
  | 0x3D#7 => decode3D w
  | 0x40#7 => decode40 w
  | 0x41#7 => decode41 w
  | 0x42#7 => decode42 w
  | 0x43#7 => decode43 w
  | 0x44#7 => decode44 w
  | 0x45#7 => decode45 w
  | 0x46#7 => decode46 w
  | 0x47#7 => decode47 w
  | 0x48#7 => decode48 w
  | 0x49#7 => decode49 w
  | 0x4A#7 => decode4A w
  | 0x4B#7 => decode4B w
  | 0x4C#7 => decode4C w
  | 0x4D#7 => decode4D w
  | 0x4E#7 => decode4E w
  | 0x4F#7 => decode4F w
  | 0x50#7 => decode50 w
  | 0x51#7 => decode51 w
  | 0x60#7 => decode60 w
  | 0x61#7 => decode61 w
  | 0x62#7 => decode62 w
  | 0x63#7 => decode63 w
  | 0x64#7 => decode64 w
  | 0x65#7 => decode65 w
  | 0x66#7 => decode66 w
  | 0x67#7 => decode67 w
  | 0x68#7 => decode68 w
  | 0x69#7 => decode69 w
  | 0x6A#7 => decode6A w
  | 0x6B#7 => decode6B w
  | 0x6C#7 => decode6C w
  | 0x6D#7 => decode6D w
  | 0x6E#7 => decode6E w
  | 0x6F#7 => decode6F w
  | 0x70#7 => decode70 w
  | 0x71#7 => decode71 w
  | 0x72#7 => decode72 w
  | 0x73#7 => decode73 w
  | 0x74#7 => decode74 w
  | 0x75#7 => decode75 w
  | 0x76#7 => decode76 w
  | 0x77#7 => decode77 w
  | 0x78#7 => decode78 w
  | 0x79#7 => decode79 w
  | 0x7A#7 => decode7A w
  | 0x7B#7 => decode7B w
  | 0x7C#7 => decode7C w
  | 0x7D#7 => decode7D w
  | _ => .error .reservedMajor

/-- One instruction word: the member, refused where a field of it is not legal (R109). -/
def decodeWord (w : Word) : Except Illegal Instr :=
  match decodeShape w with
  | .error e => .error e
  | .ok i =>
    match i.illegal with
    | some e => .error e
    | none => .ok i

/-- The word at the head of a byte string, little-endian (R9), with the bytes after it. -/
def takeWord : List Byte → Option (Word × List Byte)
  | b0 :: b1 :: b2 :: b3 :: rest => some (b3 ++ b2 ++ b1 ++ b0, rest)
  | _ => none

/-- One instruction from any bytes: a `lim` gives its own constructor, whose meaning reads the word after it. -/
def decode (bytes : List Byte) : Except Illegal (Instr × List Byte) :=
  match takeWord bytes with
  | none => .error .tooShort
  | some (w, rest) =>
    match decodeWord w with
    | .error e => .error e
    | .ok i => .ok (i, rest)

/-- The four bytes of a word as memory holds them (R9). -/
def wordBytes (w : Word) : List Byte :=
  [w.extractLsb' 0 8, w.extractLsb' 8 8, w.extractLsb' 16 8, w.extractLsb' 24 8]

/-- What the decoder reads from an instruction whose bits are `w` (one 32-bit word, the bits above `nbits` zero). -/
def decodeTableWord (nbits w : Nat) : Option Instr :=
  match decode (wordBytes (BitVec.ofNat 32 (w % 2 ^ nbits))) with
  | .ok (i, _) => some i
  | .error _ => none

/-! ## The encoder -/

/-- The marker bit. -/
def bS (s : Bool) : BitVec 1 := BitVec.ofBool s

/-- A word from its fields, the highest first. -/
def ofFields {n : Nat} (x : BitVec n) : Word := x.setWidth 32

/-- The instruction its word decodes to: the four `pmctl` actions share one word, the operand selects among them (R253). -/
def Instr.spelling : Instr → Instr
  | .pmctlStart o => .pmctlStop o
  | .pmctlCapture o => .pmctlStop o
  | .pmctlAbort o => .pmctlStop o
  | i => i

/-- The word of an instruction, from the field layouts of R97 and the selectors of R105 to R108; an event has none. -/
def encode : Instr → Option Word
  | .lim o => some (ofFields (0#1 ++ 0x01#7 ++ 0#2 ++ o.imm))
  | .nop o => some (ofFields (bS o.sw ++ 0x00#7 ++ 0#24))
  | .br o => some (ofFields (bS o.sw ++ 0x02#7 ++ o.off))
  | .bcc o => some (ofFields (bS o.sw ++ 0x03#7 ++ o.cond ++ o.off))
  | .bmz o => some (ofFields (bS o.sw ++ 0x04#7 ++ o.m ++ 0#1 ++ o.off))
  | .bmnz o => some (ofFields (bS o.sw ++ 0x04#7 ++ o.m ++ 1#1 ++ o.off))
  | .jtab o => some (ofFields (bS o.sw ++ 0x05#7 ++ o.d ++ o.a ++ o.imm))
  | .call o => some (ofFields (bS o.sw ++ 0x06#7 ++ o.n ++ o.g ++ o.off ++ 0#1))
  | .callM o => some (ofFields (bS o.sw ++ 0x06#7 ++ o.n ++ o.g ++ o.off ++ 1#1))
  | .callr o => some (ofFields (bS o.sw ++ 0x07#7 ++ 0#7 ++ o.a ++ o.b ++ 0#3))
  | .callrM o => some (ofFields (bS o.sw ++ 0x07#7 ++ 0#7 ++ o.a ++ o.b ++ 1#3))
  | .ret o => some (ofFields (bS o.sw ++ 0x08#7 ++ 0#24))
  | .unwind o => some (ofFields (bS o.sw ++ 0x08#7 ++ 0#7 ++ o.a ++ 1#10))
  | .unwindM o => some (ofFields (bS o.sw ++ 0x08#7 ++ 2#24))
  | .trap o => some (ofFields (bS o.sw ++ 0x09#7 ++ 0#16 ++ o.code))
  | .rte o => some (ofFields (bS o.sw ++ 0x0A#7 ++ 0#24))
  | .rteSkip o => some (ofFields (bS o.sw ++ 0x0A#7 ++ 1#24))
  | .replay o => some (ofFields (bS o.sw ++ 0x0A#7 ++ 2#24))
  | .spawn o => some (ofFields (bS o.sw ++ 0x0B#7 ++ o.n ++ o.g ++ o.off ++ 0#1))
  | .spawnr o => some (ofFields (bS o.sw ++ 0x0C#7 ++ 0#7 ++ o.a ++ o.b ++ 0#3))
  | .join o => some (ofFields (bS o.sw ++ 0x0D#7 ++ 0#24))
  | .tdone o => some (ofFields (bS o.sw ++ 0x0D#7 ++ 1#24))
  | .yield o => some (ofFields (bS o.sw ++ 0x0D#7 ++ 2#24))
  | .pedq o => some (ofFields (bS o.sw ++ 0x0E#7 ++ o.d ++ 0#12 ++ o.i))
  | .pedkey o => some (ofFields (bS o.sw ++ 0x0F#7 ++ o.d ++ 0#17))
  | .mbrecv o => some (ofFields (bS o.sw ++ 0x10#7 ++ o.d ++ o.a ++ 0#10))
  | .mbrecvP o => some (ofFields (bS o.sw ++ 0x10#7 ++ o.d ++ o.a ++ 1#10))
  | .mbsend o => some (ofFields (bS o.sw ++ 0x11#7 ++ 0#7 ++ o.a ++ o.b ++ 0#3))
  | .rupd o => some (ofFields (bS o.sw ++ 0x12#7 ++ o.d ++ o.a ++ 0#4 ++ o.id))
  | .rlog o => some (ofFields (bS o.sw ++ 0x13#7 ++ o.d ++ 0#11 ++ o.id))
  | .rread o => some (ofFields (bS o.sw ++ 0x14#7 ++ o.d ++ o.a ++ 0#4 ++ o.id))
  | .rseed o => some (ofFields (bS o.sw ++ 0x15#7 ++ 0#7 ++ o.a ++ 0#10))
  | .rjump o => some (ofFields (bS o.sw ++ 0x15#7 ++ 0#7 ++ o.a ++ 1#10))
  | .rdraw o => some (ofFields (bS o.sw ++ 0x15#7 ++ o.d ++ 2#17))
  | .fgrow o => some (ofFields (bS o.sw ++ 0x16#7 ++ 0#16 ++ o.w))
  | .fshrink o => some (ofFields (bS o.sw ++ 0x17#7 ++ 0#16 ++ o.w))
  | .fgive o => some (ofFields (bS o.sw ++ 0x18#7 ++ 0#14 ++ o.role ++ o.blocks))
  | .ftake o => some (ofFields (bS o.sw ++ 0x19#7 ++ 0#14 ++ o.role ++ o.blocks))
  | .ftag o => some (ofFields (bS o.sw ++ 0x1A#7 ++ o.d ++ o.a ++ 0#10))
  | .fmat o => some (ofFields (bS o.sw ++ 0x1A#7 ++ o.d ++ 1#17))
  | .iadd o => some (ofFields (bS o.sw ++ 0x20#7 ++ o.d ++ o.a ++ o.b ++ 0#3))
  | .isub o => some (ofFields (bS o.sw ++ 0x20#7 ++ o.d ++ o.a ++ o.b ++ 1#3))
  | .iaddc o => some (ofFields (bS o.sw ++ 0x20#7 ++ o.d ++ o.a ++ o.b ++ 2#3))
  | .isubb o => some (ofFields (bS o.sw ++ 0x20#7 ++ o.d ++ o.a ++ o.b ++ 3#3))
  | .iaddi o => some (ofFields (bS o.sw ++ 0x21#7 ++ o.d ++ o.a ++ o.imm))
  | .imul o => some (ofFields (bS o.sw ++ 0x22#7 ++ o.d ++ o.a ++ o.b ++ 0#3))
  | .imulh o => some (ofFields (bS o.sw ++ 0x22#7 ++ o.d ++ o.a ++ o.b ++ 1#3))
  | .imulhu o => some (ofFields (bS o.sw ++ 0x22#7 ++ o.d ++ o.a ++ o.b ++ 2#3))
  | .imad o => some (ofFields (bS o.sw ++ 0x22#7 ++ o.d ++ o.a ++ o.b ++ 3#3))
  | .and o => some (ofFields (bS o.sw ++ 0x23#7 ++ o.d ++ o.a ++ o.b ++ 0#3))
  | .or o => some (ofFields (bS o.sw ++ 0x23#7 ++ o.d ++ o.a ++ o.b ++ 1#3))
  | .xor o => some (ofFields (bS o.sw ++ 0x23#7 ++ o.d ++ o.a ++ o.b ++ 2#3))
  | .andn o => some (ofFields (bS o.sw ++ 0x23#7 ++ o.d ++ o.a ++ o.b ++ 3#3))
  | .andi o => some (ofFields (bS o.sw ++ 0x24#7 ++ o.d ++ o.a ++ o.imm))
  | .ori o => some (ofFields (bS o.sw ++ 0x25#7 ++ o.d ++ o.a ++ o.imm))
  | .xori o => some (ofFields (bS o.sw ++ 0x26#7 ++ o.d ++ o.a ++ o.imm))
  | .shl o => some (ofFields (bS o.sw ++ 0x27#7 ++ o.d ++ o.a ++ o.b ++ 0#3))
  | .shr o => some (ofFields (bS o.sw ++ 0x27#7 ++ o.d ++ o.a ++ o.b ++ 1#3))
  | .sar o => some (ofFields (bS o.sw ++ 0x27#7 ++ o.d ++ o.a ++ o.b ++ 2#3))
  | .rot o => some (ofFields (bS o.sw ++ 0x27#7 ++ o.d ++ o.a ++ o.b ++ 3#3))
  | .shli o => some (ofFields (bS o.sw ++ 0x28#7 ++ o.d ++ o.a ++ 0#5 ++ o.amt))
  | .shri o => some (ofFields (bS o.sw ++ 0x28#7 ++ o.d ++ o.a ++ 8#5 ++ o.amt))
  | .sari o => some (ofFields (bS o.sw ++ 0x28#7 ++ o.d ++ o.a ++ 16#5 ++ o.amt))
  | .roti o => some (ofFields (bS o.sw ++ 0x28#7 ++ o.d ++ o.a ++ 24#5 ++ o.amt))
  | .popc o => some (ofFields (bS o.sw ++ 0x29#7 ++ o.d ++ o.a ++ 0#10))
  | .clz o => some (ofFields (bS o.sw ++ 0x29#7 ++ o.d ++ o.a ++ 1#10))
  | .ctz o => some (ofFields (bS o.sw ++ 0x29#7 ++ o.d ++ o.a ++ 2#10))
  | .brev o => some (ofFields (bS o.sw ++ 0x29#7 ++ o.d ++ o.a ++ 3#10))
  | .ineg o => some (ofFields (bS o.sw ++ 0x29#7 ++ o.d ++ o.a ++ 4#10))
  | .iabs o => some (ofFields (bS o.sw ++ 0x29#7 ++ o.d ++ o.a ++ 5#10))
  | .imin o => some (ofFields (bS o.sw ++ 0x2A#7 ++ o.d ++ o.a ++ o.b ++ 0#3))
  | .imax o => some (ofFields (bS o.sw ++ 0x2A#7 ++ o.d ++ o.a ++ o.b ++ 1#3))
  | .umin o => some (ofFields (bS o.sw ++ 0x2A#7 ++ o.d ++ o.a ++ o.b ++ 2#3))
  | .umax o => some (ofFields (bS o.sw ++ 0x2A#7 ++ o.d ++ o.a ++ o.b ++ 3#3))
  | .bfx o => some (ofFields (bS o.sw ++ 0x2B#7 ++ o.d ++ o.a ++ o.b ++ 0#3))
  | .bfxu o => some (ofFields (bS o.sw ++ 0x2B#7 ++ o.d ++ o.a ++ o.b ++ 1#3))
  | .bfi o => some (ofFields (bS o.sw ++ 0x2B#7 ++ o.d ++ o.a ++ o.b ++ 2#3))
  | .icmp o => some (ofFields (bS o.sw ++ 0x2C#7 ++ o.m ++ o.c ++ o.a ++ o.b ++ 0#3))
  | .icmpD o => some (ofFields (bS o.sw ++ 0x2C#7 ++ o.m ++ o.c ++ o.a ++ o.b ++ 1#3))
  | .icmpi o => some (ofFields (bS o.sw ++ 0x2D#7 ++ o.m ++ o.c ++ o.a ++ o.imm))
  | .ucmp o => some (ofFields (bS o.sw ++ 0x2E#7 ++ 0#7 ++ o.a ++ o.b ++ 0#3))
  | .ucmpD o => some (ofFields (bS o.sw ++ 0x2E#7 ++ 0#7 ++ o.a ++ o.b ++ 1#3))
  | .sel o => some (ofFields (bS o.sw ++ 0x2F#7 ++ o.d ++ o.a ++ o.b ++ o.k))
  | .mov o => some (ofFields (bS o.sw ++ 0x30#7 ++ o.d ++ o.a ++ 0#10))
  | .movl o => some (ofFields (bS o.sw ++ 0x30#7 ++ o.d ++ o.a ++ o.b ++ 1#3))
  | .movi o => some (ofFields (bS o.sw ++ 0x31#7 ++ o.d ++ o.imm))
  | .mand o => some (ofFields (bS o.sw ++ 0x32#7 ++ 0#4 ++ o.d ++ 0#4 ++ o.a ++ 0#4 ++ o.b ++ 0#3))
  | .mor o => some (ofFields (bS o.sw ++ 0x32#7 ++ 0#4 ++ o.d ++ 0#4 ++ o.a ++ 0#4 ++ o.b ++ 1#3))
  | .mxor o => some (ofFields (bS o.sw ++ 0x32#7 ++ 0#4 ++ o.d ++ 0#4 ++ o.a ++ 0#4 ++ o.b ++ 2#3))
  | .mandn o => some (ofFields (bS o.sw ++ 0x32#7 ++ 0#4 ++ o.d ++ 0#4 ++ o.a ++ 0#4 ++ o.b ++ 3#3))
  | .mnot o => some (ofFields (bS o.sw ++ 0x33#7 ++ 0#4 ++ o.d ++ 0#4 ++ o.a ++ 0#10))
  | .mpop o => some (ofFields (bS o.sw ++ 0x33#7 ++ o.d ++ 0#4 ++ o.a ++ 1#10))
  | .mfirst o => some (ofFields (bS o.sw ++ 0x33#7 ++ o.d ++ 0#4 ++ o.a ++ 2#10))
  | .ballot o => some (ofFields (bS o.sw ++ 0x33#7 ++ 0#4 ++ o.d ++ o.a ++ 3#10))
  | .mset o => some (ofFields (bS o.sw ++ 0x33#7 ++ 0#4 ++ o.d ++ o.a ++ 4#10))
  | .vxsh o => some (ofFields (bS o.sw ++ 0x34#7 ++ o.d ++ o.a ++ 0#7 ++ o.k))
  | .vrot o => some (ofFields (bS o.sw ++ 0x35#7 ++ o.d ++ o.a ++ o.imm))
  | .vidx o => some (ofFields (bS o.sw ++ 0x36#7 ++ o.d ++ o.a ++ o.b ++ 0#3))
  | .vbcast o => some (ofFields (bS o.sw ++ 0x37#7 ++ o.d ++ o.a ++ 0#3 ++ o.lane))
  | .vstep o => some (ofFields (bS o.sw ++ 0x38#7 ++ o.d ++ o.a ++ 0#4 ++ o.k ++ o.op))
  | .vscan o => some (ofFields (bS o.sw ++ 0x39#7 ++ o.d ++ o.a ++ 0#6 ++ o.e ++ o.op))
  | .setmode o => some (ofFields (bS o.sw ++ 0x3A#7 ++ 0#7 ++ o.a ++ o.b ++ 0#3))
  | .getmode o => some (ofFields (bS o.sw ++ 0x3A#7 ++ o.d ++ 1#17))
  | .mfs o => some (ofFields (bS o.sw ++ 0x3B#7 ++ o.d ++ 0#8 ++ o.w ++ o.num))
  | .mts o => some (ofFields (bS o.sw ++ 0x3C#7 ++ 0#7 ++ o.a ++ 0#1 ++ o.w ++ o.num))
  | .fclr o => some (ofFields (bS o.sw ++ 0x3D#7 ++ 0#24))
  | .fadd o => some (ofFields (bS o.sw ++ 0x40#7 ++ o.d ++ o.a ++ o.b ++ 0#3))
  | .fsub o => some (ofFields (bS o.sw ++ 0x40#7 ++ o.d ++ o.a ++ o.b ++ 1#3))
  | .fmul o => some (ofFields (bS o.sw ++ 0x40#7 ++ o.d ++ o.a ++ o.b ++ 2#3))
  | .fdiv o => some (ofFields (bS o.sw ++ 0x40#7 ++ o.d ++ o.a ++ o.b ++ 3#3))
  | .fmac o => some (ofFields (bS o.sw ++ 0x41#7 ++ o.d ++ o.a ++ o.b ++ 0#3))
  | .fmsc o => some (ofFields (bS o.sw ++ 0x41#7 ++ o.d ++ o.a ++ o.b ++ 1#3))
  | .fnmac o => some (ofFields (bS o.sw ++ 0x41#7 ++ o.d ++ o.a ++ o.b ++ 2#3))
  | .fnmsc o => some (ofFields (bS o.sw ++ 0x41#7 ++ o.d ++ o.a ++ o.b ++ 3#3))
  | .fsqrt o => some (ofFields (bS o.sw ++ 0x42#7 ++ o.d ++ o.a ++ 0#10))
  | .frcp o => some (ofFields (bS o.sw ++ 0x42#7 ++ o.d ++ o.a ++ 1#10))
  | .frsq o => some (ofFields (bS o.sw ++ 0x42#7 ++ o.d ++ o.a ++ 2#10))
  | .fmin o => some (ofFields (bS o.sw ++ 0x43#7 ++ o.d ++ o.a ++ o.b ++ 0#3))
  | .fmax o => some (ofFields (bS o.sw ++ 0x43#7 ++ o.d ++ o.a ++ o.b ++ 1#3))
  | .fminn o => some (ofFields (bS o.sw ++ 0x43#7 ++ o.d ++ o.a ++ o.b ++ 2#3))
  | .fmaxn o => some (ofFields (bS o.sw ++ 0x43#7 ++ o.d ++ o.a ++ o.b ++ 3#3))
  | .fabs o => some (ofFields (bS o.sw ++ 0x44#7 ++ o.d ++ o.a ++ 0#10))
  | .fneg o => some (ofFields (bS o.sw ++ 0x44#7 ++ o.d ++ o.a ++ 1#10))
  | .fcpys o => some (ofFields (bS o.sw ++ 0x44#7 ++ o.d ++ o.a ++ o.b ++ 2#3))
  | .fcmp o => some (ofFields (bS o.sw ++ 0x45#7 ++ o.m ++ o.c ++ o.a ++ o.b ++ 0#3))
  | .fcmpS o => some (ofFields (bS o.sw ++ 0x45#7 ++ o.m ++ o.c ++ o.a ++ o.b ++ 1#3))
  | .fclass o => some (ofFields (bS o.sw ++ 0x46#7 ++ o.d ++ o.a ++ 0#10))
  | .frnd o => some (ofFields (bS o.sw ++ 0x47#7 ++ o.d ++ o.a ++ 0#10))
  | .frndRne o => some (ofFields (bS o.sw ++ 0x47#7 ++ o.d ++ o.a ++ 1#10))
  | .frndRtz o => some (ofFields (bS o.sw ++ 0x47#7 ++ o.d ++ o.a ++ 2#10))
  | .frndRup o => some (ofFields (bS o.sw ++ 0x47#7 ++ o.d ++ o.a ++ 3#10))
  | .frndRdn o => some (ofFields (bS o.sw ++ 0x47#7 ++ o.d ++ o.a ++ 4#10))
  | .frndRna o => some (ofFields (bS o.sw ++ 0x47#7 ++ o.d ++ o.a ++ 5#10))
  | .fscb o => some (ofFields (bS o.sw ++ 0x48#7 ++ o.d ++ o.a ++ o.b ++ 0#3))
  | .flgb o => some (ofFields (bS o.sw ++ 0x48#7 ++ o.d ++ o.a ++ 1#10))
  | .fexp2 o => some (ofFields (bS o.sw ++ 0x49#7 ++ o.d ++ o.a ++ 0#10))
  | .flog2 o => some (ofFields (bS o.sw ++ 0x49#7 ++ o.d ++ o.a ++ 1#10))
  | .fsinp o => some (ofFields (bS o.sw ++ 0x49#7 ++ o.d ++ o.a ++ 2#10))
  | .fcosp o => some (ofFields (bS o.sw ++ 0x49#7 ++ o.d ++ o.a ++ 3#10))
  | .ftanh o => some (ofFields (bS o.sw ++ 0x49#7 ++ o.d ++ o.a ++ 4#10))
  | .cvt o => some (ofFields (bS o.sw ++ 0x4A#7 ++ o.d ++ o.a ++ o.fs ++ o.fd))
  | .cvti o => some (ofFields (bS o.sw ++ 0x4B#7 ++ o.d ++ o.a ++ o.fs ++ o.fd))
  | .cvtf o => some (ofFields (bS o.sw ++ 0x4C#7 ++ o.d ++ o.a ++ o.fs ++ o.fd))
  | .bfpk o => some (ofFields (bS o.sw ++ 0x4D#7 ++ o.d ++ o.a ++ o.b ++ 0#2 ++ o.q))
  | .bfup o => some (ofFields (bS o.sw ++ 0x4E#7 ++ o.d ++ o.a ++ o.b ++ 0#2 ++ o.q))
  | .fmtset o => some (ofFields (bS o.sw ++ 0x4F#7 ++ 0#7 ++ o.a ++ 0#5 ++ o.i))
  | .fmtget o => some (ofFields (bS o.sw ++ 0x50#7 ++ o.d ++ 0#12 ++ o.i))
  | .fmtsync o => some (ofFields (bS o.sw ++ 0x51#7 ++ 0#24))
  | .ldB o => some (ofFields (bS o.sw ++ 0x60#7 ++ o.d ++ o.a ++ o.imm))
  | .ldH o => some (ofFields (bS o.sw ++ 0x61#7 ++ o.d ++ o.a ++ o.imm))
  | .ldW o => some (ofFields (bS o.sw ++ 0x62#7 ++ o.d ++ o.a ++ o.imm))
  | .ldD o => some (ofFields (bS o.sw ++ 0x63#7 ++ o.d ++ o.a ++ o.imm))
  | .stB o => some (ofFields (bS o.sw ++ 0x64#7 ++ o.d ++ o.a ++ o.imm))
  | .stH o => some (ofFields (bS o.sw ++ 0x65#7 ++ o.d ++ o.a ++ o.imm))
  | .stW o => some (ofFields (bS o.sw ++ 0x66#7 ++ o.d ++ o.a ++ o.imm))
  | .stD o => some (ofFields (bS o.sw ++ 0x67#7 ++ o.d ++ o.a ++ o.imm))
  | .ldx o => some (ofFields (bS o.sw ++ 0x68#7 ++ o.d ++ o.a ++ o.b ++ o.x ++ o.size))
  | .stx o => some (ofFields (bS o.sw ++ 0x69#7 ++ o.d ++ o.a ++ o.b ++ o.x ++ o.size))
  | .lds o => some (ofFields (bS o.sw ++ 0x6A#7 ++ o.d ++ o.a ++ o.imm))
  | .sts o => some (ofFields (bS o.sw ++ 0x6B#7 ++ o.d ++ o.a ++ o.imm))
  | .lda o => some (ofFields (bS o.sw ++ 0x6C#7 ++ o.d ++ o.a ++ o.size ++ o.scope ++ 0#5))
  | .str o => some (ofFields (bS o.sw ++ 0x6D#7 ++ o.d ++ o.a ++ o.size ++ o.scope ++ 0#5))
  | .atom o => some (ofFields (bS o.sw ++ 0x6E#7 ++ o.d ++ o.a ++ o.op ++ o.size ++ o.r ++ o.scope))
  | .datom o => some (ofFields (bS o.sw ++ 0x6F#7 ++ o.d ++ o.a ++ o.op ++ o.size ++ 0#4))
  | .fence o => some (ofFields (bS o.sw ++ 0x70#7 ++ 0#18 ++ o.scope ++ o.order))
  | .dafence o => some (ofFields (bS o.sw ++ 0x71#7 ++ 0#24))
  | .wait o => some (ofFields (bS o.sw ++ 0x72#7 ++ 0#14 ++ o.b ++ 0#1 ++ o.path))
  | .pref o => some (ofFields (bS o.sw ++ 0x73#7 ++ 0#7 ++ o.a ++ 0#4 ++ o.scope ++ 0#3))
  | .cctlWb o => some (ofFields (bS o.sw ++ 0x73#7 ++ 0#7 ++ o.a ++ 0#4 ++ o.scope ++ 1#3))
  | .cctlInv o => some (ofFields (bS o.sw ++ 0x73#7 ++ 0#7 ++ o.a ++ 0#4 ++ o.scope ++ 2#3))
  | .cctlWbinv o => some (ofFields (bS o.sw ++ 0x73#7 ++ 0#7 ++ o.a ++ 0#4 ++ o.scope ++ 3#3))
  | .cpy o => some (ofFields (bS o.sw ++ 0x74#7 ++ o.d ++ o.a ++ 0#8 ++ o.kind))
  | .cpym o => some (ofFields (bS o.sw ++ 0x75#7 ++ o.d ++ o.a ++ o.b ++ 0#3))
  | .mma o => some (ofFields (bS o.sw ++ 0x76#7 ++ o.tile ++ o.shape ++ o.a ++ o.b ++ 0#3))
  | .mmaO o => some (ofFields (bS o.sw ++ 0x76#7 ++ o.tile ++ o.shape ++ o.a ++ o.b ++ 1#3))
  | .mmasF32 o => some (ofFields (bS o.sw ++ 0x77#7 ++ o.tile ++ 0#2 ++ o.o ++ o.a ++ o.b ++ 0#3))
  | .mmasS6 o => some (ofFields (bS o.sw ++ 0x77#7 ++ o.tile ++ 0#2 ++ o.o ++ o.a ++ o.b ++ 1#3))
  | .mmasS7 o => some (ofFields (bS o.sw ++ 0x77#7 ++ o.tile ++ 0#2 ++ o.o ++ o.a ++ o.b ++ 2#3))
  | .mmasS8 o => some (ofFields (bS o.sw ++ 0x77#7 ++ o.tile ++ 0#2 ++ o.o ++ o.a ++ o.b ++ 3#3))
  | .mzero o => some (ofFields (bS o.sw ++ 0x78#7 ++ o.tile ++ 0#20))
  | .mdrainR o => some (ofFields (bS o.sw ++ 0x79#7 ++ o.tile ++ 0#10 ++ o.b ++ 0#3))
  | .mdrainS o => some (ofFields (bS o.sw ++ 0x79#7 ++ o.tile ++ 0#3 ++ o.a ++ 1#10))
  | .mdrainG o => some (ofFields (bS o.sw ++ 0x79#7 ++ o.tile ++ 0#3 ++ o.a ++ 2#10))
  | .mdrainP o => some (ofFields (bS o.sw ++ 0x79#7 ++ o.tile ++ 0#3 ++ o.a ++ 3#10))
  | .mfence o => some (ofFields (bS o.sw ++ 0x7A#7 ++ 0#24))
  | .mwait o => some (ofFields (bS o.sw ++ 0x7A#7 ++ 0#14 ++ o.b ++ 1#3))
  | .cbar o => some (ofFields (bS o.sw ++ 0x7B#7 ++ 0#24))
  | .carr o => some (ofFields (bS o.sw ++ 0x7B#7 ++ 1#24))
  | .cwt o => some (ofFields (bS o.sw ++ 0x7B#7 ++ 2#24))
  | .pmap o => some (ofFields (bS o.sw ++ 0x7C#7 ++ 0#7 ++ o.a ++ o.b ++ 0#3))
  | .rrset o => some (ofFields (bS o.sw ++ 0x7C#7 ++ 0#7 ++ o.a ++ o.b ++ 1#3))
  | .scratchcfg o => some (ofFields (bS o.sw ++ 0x7C#7 ++ 0#7 ++ o.a ++ 2#10))
  | .pmcfg o => some (ofFields (bS o.sw ++ 0x7D#7 ++ 0#7 ++ o.a ++ o.b ++ 0#3))
  | .pmrd o => some (ofFields (bS o.sw ++ 0x7D#7 ++ o.d ++ o.a ++ 1#10))
  | .pmctlStop o => some (ofFields (bS o.sw ++ 0x7D#7 ++ 0#7 ++ o.a ++ 2#10))
  | .pmctlStart o => some (ofFields (bS o.sw ++ 0x7D#7 ++ 0#7 ++ o.a ++ 2#10))
  | .pmctlCapture o => some (ofFields (bS o.sw ++ 0x7D#7 ++ 0#7 ++ o.a ++ 2#10))
  | .pmctlAbort o => some (ofFields (bS o.sw ++ 0x7D#7 ++ 0#7 ++ o.a ++ 2#10))
  | .psig o => some (ofFields (bS o.sw ++ 0x7D#7 ++ 0#7 ++ o.a ++ 3#10))
  | .createContext _ _ => none
  | .destroyContext _ => none
  | .rreg _ _ _ _ _ _ _ => none
  | .mapPage _ _ _ => none
  | .unmapPage _ _ => none
  | .readStatus _ _ _ => none
  | .resumePart => none
  | .addPoolPages _ _ _ _ => none
  | .withdrawPoolPage _ _ => none
  | .bootStatus => none
  | .download _ _ _ => none
  | .hostPost _ _ _ => none
  | .hostWrite _ _ _ => none
  | .hostRead _ _ _ => none
  | .messageDelivery _ _ => none
  | .mbsendAccept _ => none
  | .loadReturn _ _ _ _ => none
  | .storeStamp _ _ _ => none
  | .pageReturn _ _ _ => none
  | .takeFault _ => none
  | .errorMessagePost _ => none
  | .copyComplete _ _ => none
  | .matrixOpStart _ _ => none
  | .matrixOpComplete _ _ => none
  | .peerAddArrival _ _ => none
  | .roundApply _ _ => none
  | .fmtsetApply _ _ => none
  | .steal _ _ _ => none
  | .pop _ _ => none
  | .taskStart _ _ => none
  | .blockFold _ _ => none
  | .resumeTask _ _ => none
  | .rootFold _ _ => none
  | .jtabRetry _ => none
  | .rowGrant _ => none
  | .stallDeclared _ => none
  | .escapeSpill _ => none
  | .spillReentry _ => none
  | .l2Eviction _ _ _ => none
  | .capturePassEnd _ => none
  | .quantumExpiry _ => none
  | .preemption _ _ => none
  | .contextSave _ _ => none
  | .contextRestore _ _ => none
  | .linkFlitReceive _ _ _ => none
  | .portDown _ _ => none
  | .e2eRetransmit _ _ _ => none
  | .linkReconnect _ => none
  | .powerUp => none
  | .coldReset => none
  | .warmReset => none
  | .supplyDroop _ => none
  | .supplyRecover _ => none
  | .eccCountReport => none
  | .hostReceive _ _ => none

end Sys2Proof
end

