-- ==== Sys2Proof/Machine/Integer.lean ====
section
/-! DEFINITION. Integer, shift, bit and select instructions (R163 to R182). Each meaning is one unit over the shared
register operations; the shape of each result is the row of R53 that its rule names. -/
namespace Sys2Proof.Machine

/-! ## Values -/

/-- Sum with the shapes of R167: A with U or A combines bases and strides. -/
def iaddVal : RegVal → RegVal → RegVal
  | .u a, .u b => .u (a + b)
  | .a b st, .u u => .a (b + u) st
  | .u u, .a b st => .a (u + b) st
  | .a b st, .a c tt => .a (b + c) (st + tt)
  | v, w => .ofFn fun l => v.lane l + w.lane l

/-- Difference with the shapes of R167. -/
def isubVal : RegVal → RegVal → RegVal
  | .u a, .u b => .u (a - b)
  | .a b st, .u u => .a (b - u) st
  | .u u, .a b st => .a (u - b) (-st)
  | .a b st, .a c tt => .a (b - c) (st - tt)
  | v, w => .ofFn fun l => v.lane l - w.lane l

/-- Low product with the shapes of R169. -/
def imulVal : RegVal → RegVal → RegVal
  | .u a, .u b => .u (a * b)
  | .a b st, .u u => .a (b * u) (st * u)
  | .u u, .a b st => .a (u * b) (u * st)
  | v, w => .ofFn fun l => v.lane l * w.lane l

/-- A register plus an immediate (R168). -/
def iaddiVal (i : Word) : RegVal → RegVal
  | .u a => .u (a + i)
  | .a b st => .a (b + i) st
  | .g row => .ofFn fun l => (RegVal.g row).lane l + i

/-- Carry and borrow of the low words (R167). -/
def carryW (a b : Word) : Word := if 2 ^ 32 ≤ a.toNat + b.toNat then 1 else 0
def borrowW (a b : Word) : Word := if a.toNat < b.toNat then 1 else 0

/-- High words of the signed and the unsigned product (R169). -/
def mulHighS (a b : Word) : Word := (a.signExtend 64 * b.signExtend 64).extractLsb' 32 32
def mulHighU (a b : Word) : Word := (a.setWidth 64 * b.setWidth 64).extractLsb' 32 32

/-- Shifts and rotates by an unsigned amount of any size (R172). -/
def shlW (a s : Word) : Word := if s.toNat < 32 then a <<< s.toNat else 0
def shrW (a s : Word) : Word := if s.toNat < 32 then a >>> s.toNat else 0
def sarW (a s : Word) : Word := if s.toNat < 32 then a.sshiftRight s.toNat else a.sshiftRight 31
def rotW (a s : Word) : Word := a.rotateLeft (s.toNat % 32)

/-- Bit counts and reversal (R174). -/
def popcW (a : Word) : Word := BitVec.ofNat 32 ((upto 32).filter fun i => a.getLsbD i).length
def clzW (a : Word) : Word := BitVec.ofNat 32 ((upto 32).takeWhile fun i => !a.getLsbD (31 - i)).length
def ctzW (a : Word) : Word := BitVec.ofNat 32 ((upto 32).takeWhile fun i => !a.getLsbD i).length
def brevW (a : Word) : Word := a.reverse
def iabsW (a : Word) : Word := if a.toNat < 2 ^ 31 then a else -a

/-- Lesser and greater (R175). -/
def iminW (a b : Word) : Word := if b.slt a then b else a
def imaxW (a b : Word) : Word := if a.slt b then b else a
def uminW (a b : Word) : Word := if b.ult a then b else a
def umaxW (a b : Word) : Word := if a.ult b then b else a

/-- Offset and width of a bit-field control word (R176). -/
def bfOffset (c : Word) : Nat := (c.extractLsb' 0 5).toNat
def bfWidth (c : Word) : Nat := (c.extractLsb' 8 5).toNat + 1

def bfxuW (a c : Word) : Word := BitVec.ofNat 32 (a.toNat / 2 ^ bfOffset c % 2 ^ bfWidth c)

def bfxW (a c : Word) : Word :=
  let f := ((a.signExtend 64).sshiftRight (bfOffset c)).toNat % 2 ^ bfWidth c
  if 2 ^ (bfWidth c - 1) ≤ f then BitVec.ofNat 32 f - BitVec.ofNat 32 (2 ^ bfWidth c) else BitVec.ofNat 32 f

def bfiW (a c old : Word) : Word :=
  let k := min (bfWidth c) (32 - bfOffset c)
  let m := BitVec.ofNat 32 ((2 ^ k - 1) * 2 ^ bfOffset c)
  (old &&& ~~~m) ||| ((a <<< bfOffset c) &&& m)

/-- `sel` (R180): U only under m0 with U sources. -/
def selVal (g : Gang) (m : Nat) (x y : RegVal) : RegVal :=
  match m, x, y with
  | 0, .u a, .u _ => .u a
  | _, _, _ => .ofFn fun l => if inMask (g.mask m) l then x.lane l else y.lane l

/-! ## Units -/

/-- Two register sources. -/
def aluUnit (d a b : BitVec 7) (f : RegVal → RegVal → RegVal) (s : State) : Try Done :=
  regUnit s d.toNat [a.toNat, b.toNat] [] fun g => f (g.val a.toNat) (g.val b.toNat)

/-- One register source. -/
def aluUnit1 (d a : BitVec 7) (f : RegVal → RegVal) (s : State) : Try Done :=
  regUnit s d.toNat [a.toNat] [] fun g => f (g.val a.toNat)

/-- Two register sources and the old destination. -/
def aluUnit3 (d a b : BitVec 7) (f : RegVal → RegVal → RegVal → RegVal) (s : State) : Try Done :=
  regUnit s d.toNat [a.toNat, b.toNat, d.toNat] [] fun g => f (g.val a.toNat) (g.val b.toNat) (g.val d.toNat)

/-- The immediate forms that take a `lim` (R102): the immediate is given as a word. -/
def iaddiUnit (d a : BitVec 7) (i : Word) : State → Try Done := aluUnit1 d a (iaddiVal i)
def andiUnit (d a : BitVec 7) (i : Word) : State → Try Done := aluUnit1 d a (lift1 fun x => x &&& i)
def oriUnit (d a : BitVec 7) (i : Word) : State → Try Done := aluUnit1 d a (lift1 fun x => x ||| i)
def xoriUnit (d a : BitVec 7) (i : Word) : State → Try Done := aluUnit1 d a (lift1 fun x => x ^^^ i)
def moviUnit (d : BitVec 7) (i : Word) (s : State) : Try Done := regUnit s d.toNat [] [] fun _ => .u i
def icmpiUnit (m : BitVec 3) (c : BitVec 4) (a : BitVec 7) (i : Word) (s : State) : Try Done :=
  maskUnit s m.toNat [a.toNat] [] fun g => maskOf fun l => icmpHolds c (g.lane a.toNat l) i

/-! ## Meanings -/

/-- `iadd` (R167). -/
def execIadd (o : FmtDAB) (s : State) : Host.Outcome State Fault Refusal :=
  runUnit vectorUnit o.sw s (aluUnit o.d o.a o.b iaddVal)

/-- `isub` (R167). -/
def execIsub (o : FmtDAB) (s : State) : Host.Outcome State Fault Refusal :=
  runUnit vectorUnit o.sw s (aluUnit o.d o.a o.b isubVal)

/-- `iaddc` (R167). -/
def execIaddc (o : FmtDAB) (s : State) : Host.Outcome State Fault Refusal :=
  runUnit vectorUnit o.sw s (aluUnit o.d o.a o.b (lift2 carryW))

/-- `isubb` (R167). -/
def execIsubb (o : FmtDAB) (s : State) : Host.Outcome State Fault Refusal :=
  runUnit vectorUnit o.sw s (aluUnit o.d o.a o.b (lift2 borrowW))

/-- `imul` (R169). -/
def execImul (o : FmtDAB) (s : State) : Host.Outcome State Fault Refusal :=
  runUnit vectorUnit o.sw s (aluUnit o.d o.a o.b imulVal)

/-- `imulh` (R169). -/
def execImulh (o : FmtDAB) (s : State) : Host.Outcome State Fault Refusal :=
  runUnit vectorUnit o.sw s (aluUnit o.d o.a o.b (lift2 mulHighS))

/-- `imulhu` (R169). -/
def execImulhu (o : FmtDAB) (s : State) : Host.Outcome State Fault Refusal :=
  runUnit vectorUnit o.sw s (aluUnit o.d o.a o.b (lift2 mulHighU))

/-- `and` (R170). -/
def execAnd (o : FmtDAB) (s : State) : Host.Outcome State Fault Refusal :=
  runUnit vectorUnit o.sw s (aluUnit o.d o.a o.b (lift2 fun a b => a &&& b))

/-- `or` (R170). -/
def execOr (o : FmtDAB) (s : State) : Host.Outcome State Fault Refusal :=
  runUnit vectorUnit o.sw s (aluUnit o.d o.a o.b (lift2 fun a b => a ||| b))

/-- `xor` (R170). -/
def execXor (o : FmtDAB) (s : State) : Host.Outcome State Fault Refusal :=
  runUnit vectorUnit o.sw s (aluUnit o.d o.a o.b (lift2 fun a b => a ^^^ b))

/-- `andn` (R170). -/
def execAndn (o : FmtDAB) (s : State) : Host.Outcome State Fault Refusal :=
  runUnit vectorUnit o.sw s (aluUnit o.d o.a o.b (lift2 fun a b => a &&& ~~~b))

/-- `shl` (R172). -/
def execShl (o : FmtDAB) (s : State) : Host.Outcome State Fault Refusal :=
  runUnit vectorUnit o.sw s (aluUnit o.d o.a o.b (lift2 shlW))

/-- `shr` (R172). -/
def execShr (o : FmtDAB) (s : State) : Host.Outcome State Fault Refusal :=
  runUnit vectorUnit o.sw s (aluUnit o.d o.a o.b (lift2 shrW))

/-- `sar` (R172). -/
def execSar (o : FmtDAB) (s : State) : Host.Outcome State Fault Refusal :=
  runUnit vectorUnit o.sw s (aluUnit o.d o.a o.b (lift2 sarW))

/-- `rot` (R172). -/
def execRot (o : FmtDAB) (s : State) : Host.Outcome State Fault Refusal :=
  runUnit vectorUnit o.sw s (aluUnit o.d o.a o.b (lift2 rotW))

/-- `imin` (R175). -/
def execImin (o : FmtDAB) (s : State) : Host.Outcome State Fault Refusal :=
  runUnit vectorUnit o.sw s (aluUnit o.d o.a o.b (lift2 iminW))

/-- `imax` (R175). -/
def execImax (o : FmtDAB) (s : State) : Host.Outcome State Fault Refusal :=
  runUnit vectorUnit o.sw s (aluUnit o.d o.a o.b (lift2 imaxW))

/-- `umin` (R175). -/
def execUmin (o : FmtDAB) (s : State) : Host.Outcome State Fault Refusal :=
  runUnit vectorUnit o.sw s (aluUnit o.d o.a o.b (lift2 uminW))

/-- `umax` (R175). -/
def execUmax (o : FmtDAB) (s : State) : Host.Outcome State Fault Refusal :=
  runUnit vectorUnit o.sw s (aluUnit o.d o.a o.b (lift2 umaxW))

/-- `bfx` (R176). -/
def execBfx (o : FmtDAB) (s : State) : Host.Outcome State Fault Refusal :=
  runUnit vectorUnit o.sw s (aluUnit o.d o.a o.b (lift2 bfxW))

/-- `bfxu` (R176). -/
def execBfxu (o : FmtDAB) (s : State) : Host.Outcome State Fault Refusal :=
  runUnit vectorUnit o.sw s (aluUnit o.d o.a o.b (lift2 bfxuW))

/-- `imad` (R169): the destination is read. -/
def execImad (o : FmtDAB) (s : State) : Host.Outcome State Fault Refusal :=
  runUnit vectorUnit o.sw s (aluUnit3 o.d o.a o.b (lift3 fun a b d => a * b + d))

/-- `bfi` (R176): the destination is read. -/
def execBfi (o : FmtDAB) (s : State) : Host.Outcome State Fault Refusal :=
  runUnit vectorUnit o.sw s (aluUnit3 o.d o.a o.b (lift3 bfiW))

/-- `iaddi` (R168). -/
def execIaddi (o : FmtDAI) (s : State) : Host.Outcome State Fault Refusal :=
  runUnit vectorUnit o.sw s (iaddiUnit o.d o.a (sextW o.imm))

/-- `andi` (R171). -/
def execAndi (o : FmtDAI) (s : State) : Host.Outcome State Fault Refusal :=
  runUnit vectorUnit o.sw s (andiUnit o.d o.a (sextW o.imm))

/-- `ori` (R171). -/
def execOri (o : FmtDAI) (s : State) : Host.Outcome State Fault Refusal :=
  runUnit vectorUnit o.sw s (oriUnit o.d o.a (sextW o.imm))

/-- `xori` (R171). -/
def execXori (o : FmtDAI) (s : State) : Host.Outcome State Fault Refusal :=
  runUnit vectorUnit o.sw s (xoriUnit o.d o.a (sextW o.imm))

/-- `shli` (R173). -/
def execShli (o : FmtShift) (s : State) : Host.Outcome State Fault Refusal :=
  runUnit vectorUnit o.sw s (aluUnit1 o.d o.a (lift1 fun x => shlW x (o.amt.setWidth 32)))

/-- `shri` (R173). -/
def execShri (o : FmtShift) (s : State) : Host.Outcome State Fault Refusal :=
  runUnit vectorUnit o.sw s (aluUnit1 o.d o.a (lift1 fun x => shrW x (o.amt.setWidth 32)))

/-- `sari` (R173). -/
def execSari (o : FmtShift) (s : State) : Host.Outcome State Fault Refusal :=
  runUnit vectorUnit o.sw s (aluUnit1 o.d o.a (lift1 fun x => sarW x (o.amt.setWidth 32)))

/-- `roti` (R173). -/
def execRoti (o : FmtShift) (s : State) : Host.Outcome State Fault Refusal :=
  runUnit vectorUnit o.sw s (aluUnit1 o.d o.a (lift1 fun x => rotW x (o.amt.setWidth 32)))

/-- `popc` (R174). -/
def execPopc (o : FmtDA) (s : State) : Host.Outcome State Fault Refusal :=
  runUnit vectorUnit o.sw s (aluUnit1 o.d o.a (lift1 (popcW)))

/-- `clz` (R174). -/
def execClz (o : FmtDA) (s : State) : Host.Outcome State Fault Refusal :=
  runUnit vectorUnit o.sw s (aluUnit1 o.d o.a (lift1 (clzW)))

/-- `ctz` (R174). -/
def execCtz (o : FmtDA) (s : State) : Host.Outcome State Fault Refusal :=
  runUnit vectorUnit o.sw s (aluUnit1 o.d o.a (lift1 (ctzW)))

/-- `brev` (R174). -/
def execBrev (o : FmtDA) (s : State) : Host.Outcome State Fault Refusal :=
  runUnit vectorUnit o.sw s (aluUnit1 o.d o.a (lift1 (brevW)))

/-- `ineg` (R174). -/
def execIneg (o : FmtDA) (s : State) : Host.Outcome State Fault Refusal :=
  runUnit vectorUnit o.sw s (aluUnit1 o.d o.a (lift1 (fun a => -a)))

/-- `iabs` (R174). -/
def execIabs (o : FmtDA) (s : State) : Host.Outcome State Fault Refusal :=
  runUnit vectorUnit o.sw s (aluUnit1 o.d o.a (lift1 (iabsW)))

/-- `icmp` on words (R177). -/
def execIcmp (o : FmtK) (s : State) : Host.Outcome State Fault Refusal :=
  runUnit vectorUnit o.sw s fun s => maskUnit s o.m.toNat [o.a.toNat, o.b.toNat] [] fun g =>
    maskOf fun l => icmpHolds o.c (g.lane o.a.toNat l) (g.lane o.b.toNat l)

/-- `icmp.d` on pairs (R177). -/
def execIcmpD (o : FmtK) (s : State) : Host.Outcome State Fault Refusal :=
  runUnit vectorUnit o.sw s fun s =>
    maskUnit s o.m.toNat (regsFor true o.a.toNat ++ regsFor true o.b.toNat) [] fun g =>
      maskOf fun l => icmpHolds o.c (g.pair o.a.toNat l) (g.pair o.b.toNat l)

/-- `icmpi` (R178). -/
def execIcmpi (o : FmtKI) (s : State) : Host.Outcome State Fault Refusal :=
  runUnit vectorUnit o.sw s (icmpiUnit o.m o.c o.a (sextW o.imm))

/-- `ucmp` on words: the whole of `$CC`, whatever act holds (R179). -/
def execUcmp (o : FmtAB) (s : State) : Host.Outcome State Fault Refusal :=
  runUnit crossUnit o.sw s fun s =>
    match s.cur.checkOperands [o.a.toNat, o.b.toNat] [o.a.toNat, o.b.toNat] [o.a.toNat, o.b.toNat] with
    | .error e => .error e
    | .ok _ => .ok (done (s.modCur fun g => { g with cc := ucmpWord (g.uni o.a.toNat) (g.uni o.b.toNat) }))

/-- `ucmp.d` on pairs (R179). -/
def execUcmpD (o : FmtAB) (s : State) : Host.Outcome State Fault Refusal :=
  runUnit crossUnit o.sw s fun s =>
    let rs := regsFor true o.a.toNat ++ regsFor true o.b.toNat
    match s.cur.checkOperands rs rs rs with
    | .error e => .error e
    | .ok _ => .ok (done (s.modCur fun g => { g with cc := ucmpWord (g.uniPair o.a.toNat) (g.uniPair o.b.toNat) }))

/-- `sel` (R180). -/
def execSel (o : FmtSel) (s : State) : Host.Outcome State Fault Refusal :=
  runUnit vectorUnit o.sw s fun s => regUnit s o.d.toNat [o.a.toNat, o.b.toNat] [] fun g =>
    selVal g o.k.toNat (g.val o.a.toNat) (g.val o.b.toNat)

/-- `mov`: the source's tag (R181). -/
def execMov (o : FmtDA) (s : State) : Host.Outcome State Fault Refusal :=
  runUnit vectorUnit o.sw s (aluUnit1 o.d o.a id)

/-- `movl`: A from a uniform base and stride (R181). -/
def execMovl (o : FmtDAB) (s : State) : Host.Outcome State Fault Refusal :=
  runUnit vectorUnit o.sw s fun s =>
    regUnit s o.d.toNat [o.a.toNat, o.b.toNat] [o.a.toNat, o.b.toNat] fun g => .a (g.uni o.a.toNat) (g.uni o.b.toNat)

/-- `movi` (R182). -/
def execMovi (o : FmtDI17) (s : State) : Host.Outcome State Fault Refusal :=
  runUnit vectorUnit o.sw s (moviUnit o.d (sextW o.imm))

/-- `nop`: no effect but the switch marker (R100, R109). -/
def execNop (o : Sw) (s : State) : Host.Outcome State Fault Refusal := runUnit control o.sw s fun s => .ok (done s)

end Sys2Proof.Machine
end

