-- ==== Sys2Proof/Machine/Fences.lean ====
section
/-! DEFINITION. `fence`, `wait`, `pref`, `cctl` (R236 to R238) and what cache operations do (R258, R264, R298). -/
namespace Sys2Proof.Machine

/-! ## `fence` and `wait` -/

/-- What the fence waits for (R236, R278): acq the earlier reads, but not for one in the replay queue (R262), the other orders
every earlier access of memory and scratch. -/
def Gang.fenceDone (g : Gang) (order : Nat) : Bool :=
  g.flights.all fun f => f.finished || !f.isAccess || (order == 0 && !(f.reads && f.flying))

/-- `fence` (R236): once complete it acts as an acquire on the L1 lines, but for rel (R264). -/
def execFence (o : FmtFence) (s : State) : Host.Outcome State Fault Refusal :=
  runUnit control o.sw s fun s =>
    match await (s.cur.fenceDone o.order.toNat) with
    | .error e => .error e
    | .ok _ => .ok (done (if o.order = 1 then s else s.acquire s.cur o.scope.toNat))

/-- A copy whose rows are held in its gang's replay queue: those left, or all of them when it has not started (R262). -/
def State.copyHeld (s : State) (g : Gang) (id : Nat) : Bool :=
  s.cores.any fun c => c.copies.any fun p => p.id == id && (p.queued || (p.rowsDone == 0 && s.queueEntries g != 0))

/-- In-flight units of a path that are not held in the replay queue (R263). -/
def State.pathCountSup (s : State) (g : Gang) (path : Nat) : Nat :=
  ((g.flights.filter fun f => f.path == path && !f.held && !s.copyHeld g f.id).dropWhile fun f => f.finished).length

/-- The counter as `wait` sees it (R237, R263). -/
def State.waitCount (s : State) (g : Gang) (path : Nat) : Nat := if g.supervisor then s.pathCountSup g path else g.pathCount path

/-- `wait` (R237). -/
def execWait (o : FmtWait) (s : State) : Host.Outcome State Fault Refusal :=
  runUnit control o.sw s fun s =>
    let g := s.cur
    let rs := [o.b.toNat]
    match g.checkOperands rs rs rs with
    | .error e => .error e
    | .ok _ => match await (decide (s.waitCount g o.path.toNat ≤ (g.uni o.b.toNat).toNat)) with
      | .error e => .error e
      | .ok _ => .ok (done s)

/-! ## `pref` -/

/-- Brings the piece of a lane's address into the cluster's L1, or into the home slice (R238); a lane that would fault,
or whose page has no mapping, is dropped, and so is one whose line an engine owns. It counts neither as a hit nor as a
miss (R354). -/
def State.prefetch (scope : Nat) (s : State) (va : Dword) : State :=
  let g := s.cur
  let c := s.here
  match c.laneAddr va permR 1 with
  | .error _ => s
  | .ok (ia, r) =>
    match c.physical (ia / 64 * 64) with
    | none => s
    | some pa =>
      if s.owned c.num ia then s
      else if scope ≤ 3 then s.bringLine g (pieceOf ia) (!permits r.perm permW)
      else (if (s.l1? c.num (s.clusterOfGang g) (pieceOf ia)).isSome then s else s.countHere 9 1).touchL2 c.dev c.num
        (pieceOf ia) pa false

/-- One address a piece: the lanes of a piece ask once. -/
def pieceLanes (va : Nat → Dword) (ls : List Nat) : List Dword :=
  ls.foldl (fun acc l => if acc.any fun a => a.toNat / 64 == (va l).toNat / 64 then acc else acc ++ [va l]) []

/-- `pref` (R238). -/
def execPref (o : FmtCc) (s : State) : Host.Outcome State Fault Refusal :=
  runUnit control o.sw s fun s =>
    let g := s.cur
    let rs := regsFor true o.a.toNat
    match g.checkOperands rs [] rs with
    | .error e => .error e
    | .ok _ => match await (g.act == 0 || s.queueOpen g) with
      | .error e => .error e
      | .ok _ => .ok (done ((pieceLanes (g.addr o.a.toNat 0) (lanesOf g.act)).foldl (State.prefetch o.scope.toNat) s))

/-! ## `cctl` -/

/-- Writes modified data of a physical piece through to HBM4: the slice's to the memory-side cache, the cache's to
memory (R238, R260). -/
def State.flushPiece (s : State) (pa : Nat) : State :=
  let s := if s.l2.any fun q => q.modified && q.pa == pa then
      let s := s.acceptModified pa
      { s with l2 := updateWhere (fun q => q.pa == pa) (fun q => { q with modified := false }) s.l2 }
    else s
  if s.msc.contains (pa / 64) then s.writeBack (pa / 64) else s

/-- Drops every cached copy of a physical piece. -/
def State.dropPiece (s : State) (pa : Nat) : State :=
  let s := s.dropL1 fun l => (s.ctx l.ctx).physical (l.piece * 64) == some pa
  { s with l2 := s.l2.filter fun q => q.pa != pa }

/-- The Owl entry of a piece is dropped and counts nothing (R298). -/
def State.dropOwl (s : State) (ctx piece : Nat) : State :=
  { s with owl := s.owl.filter fun e => !(e.ctx == ctx && e.piece == piece) }

/-- A line holds a piece of a context: by its own address, or as another context maps the same physical piece (R267). -/
def State.lineOf (s : State) (c : Context) (piece : Nat) (l : L1Line) : Bool :=
  l.ctx == c.num && l.piece == piece ||
    (c.physical (piece * 64)).isSome && (s.ctx l.ctx).physical (l.piece * 64) == c.physical (piece * 64)

/-- A cache operation on a piece: fn 1 wb, 2 inv, 3 wbinv (R238). -/
def State.cacheOp (s : State) (g : Gang) (fn scope piece : Nat) : State :=
  let c := s.ctx g.id.ctx
  let cluster := s.clusterOfGang g
  let inv := decide (2 ≤ fn)
  let s := if inv && decide (5 ≤ scope) then s.dropOwl c.num piece else s
  if scope ≤ 3 then
    if inv then s.dropL1 fun l => l.ctx == c.num && l.cluster == cluster && l.piece == piece else s
  else if scope ≤ 6 then
    if inv then s.dropL1 fun l => s.lineOf c piece l && scopeHolds scope cluster c.dev l else s
  else
    match c.physical (piece * 64) with
    | none => s.dropL1 fun l => l.ctx == c.num && l.piece == piece
    | some pa => if inv then (s.flushPiece pa).dropPiece pa else s.flushPiece pa

/-- `cctl` at issue: RANGE and ALIGN with size 1, no permission; it acts on the 64 B piece of each lane (R238). -/
def cctlUnit (fn : BitVec 3) (o : FmtCc) (s : State) : Try Done :=
  let g := s.cur
  let rs := regsFor true o.a.toNat
  match g.checkOperands rs [] rs with
  | .error e => .error e
  | .ok _ =>
    if g.act = 0 then .ok (done s)
    else
      let p := planLanes g.act (fun l => s.here.globalLane 0 1 (g.addr o.a.toNat 0 l)) (fun _ => 0) (fun _ => 0)
      let piece (l : LaneAcc) : LaneAcc := { l with addr := l.addr / 64 * 64 }
      s.issueAccess (accessFlight s (.cctl fn) 2 64 o.scope.toNat (p.good.map piece) false) [] p.bad

/-- `cctl.wb` (R238). -/
def execCctlWb (o : FmtCc) (s : State) : Host.Outcome State Fault Refusal := runUnit control o.sw s (cctlUnit 1 o)

/-- `cctl.inv` (R238). -/
def execCctlInv (o : FmtCc) (s : State) : Host.Outcome State Fault Refusal := runUnit control o.sw s (cctlUnit 2 o)

/-- `cctl.wbinv` (R238). -/
def execCctlWbinv (o : FmtCc) (s : State) : Host.Outcome State Fault Refusal := runUnit control o.sw s (cctlUnit 3 o)

end Sys2Proof.Machine
end

