-- ==== Sys2Proof/Machine/Returns.lean ====
section
/-! DEFINITION. What the memory system does with accesses in flight: LOAD_RETURN, STORE_STAMP, PAGE_RETURN (R225, R233,
R261, R266, R273, R280), with race reports (R298, R299) and ECC (R368). -/
namespace Sys2Proof.Machine

/-! ## Lanes of a flight -/

/-- A flight of a gang. -/
def Gang.flight? (g : Gang) (id : Nat) : Option Flight := g.flights.find? fun f => f.id == id && !f.finished

/-- Lanes not finished that a mask names, with those that share their address: they are one request (R228, R233). -/
def Flight.chosen (f : Flight) (m : Mask) : List LaneAcc :=
  let left := f.lanes.filter fun l => l.st != .done
  let named := left.filter fun l => inMask m l.lane
  left.filter fun l => inMask m l.lane || (f.isAccess && named.any fun k => k.addr == l.addr)

/-- Lanes as a mask. -/
def laneMask (ls : List LaneAcc) : Mask := maskOfList (ls.map fun l => l.lane)

/-- Pieces of some lanes that no finished lane of the flight lies in: each is counted once an instruction (R347). -/
def Flight.freshPieces (f : Flight) (ls : List LaneAcc) : List Nat :=
  let seen := (f.lanes.filter fun l => l.st == .done).map fun l => pieceOf l.addr
  (distinct (ls.map fun l => pieceOf l.addr)).filter fun p => !seen.contains p

/-- Marks lanes as finished. -/
def Flight.finishLanes (f : Flight) (m : Mask) : Flight :=
  let ls := f.lanes.map fun l => if inMask m l.lane then { l with st := LaneState.done } else l
  { f with lanes := ls, finished := ls.all fun l => l.st == .done }

/-- What a late floating-point unit leaves when its last lane has returned: its flags, and its trap (R82, R336). -/
def Gang.lateEffects (g : Gang) (f : Flight) : Gang :=
  match f.op with
  | .late flags trapped snan =>
    let g := g.raise flags
    if trapped = 0 then g
    else
      let code := if snan then codeSnan else codeFpx
      g.pendFault { unitFault code trapped f.pc f.lim with kind := 1, order := f.id }
  | _ => g

/-- Finishes lanes of a flight; with the last one the destinations are no longer pending and the path counter falls. -/
def Gang.finish (g : Gang) (f : Flight) (m : Mask) : Gang :=
  let f' := f.finishLanes m
  let g := { g with flights := updateWhere (fun h => h.id == f.id) (fun _ => f') g.flights }
  if f'.finished then ((g.landed f.id).lateEffects f).tidy else g

/-- Writes returned values to the destination, both registers of a pair for a dword. -/
def Gang.landValues (g : Gang) (f : Flight) (vals : List (Nat × Nat)) : Gang :=
  let low := vals.map fun p => (p.1, BitVec.ofNat 32 p.2)
  let g := g.landLanes f.id 0 low
  if f.size = 8 then g.landLanes f.id 1 (vals.map fun p => (p.1, BitVec.ofNat 32 (p.2 / 2 ^ 32))) else g

/-- Every lane named may take effect, on a mapped page unless it needs none. -/
def State.lanesReady (s : State) (g : Gang) (f : Flight) (mapped : Bool) (ls : List LaneAcc) : Bool :=
  !ls.isEmpty && ls.all fun l => s.laneReady g f l && (!mapped || ((s.ctx g.id.ctx).physical l.addr).isSome)

/-! ## ECC (R368) -/

/-- Counts an ECC event of a stack or spoke (R368). -/
def State.countEcc (s : State) (unit : Nat) : State :=
  let n := ((s.ecc.find? fun p => p.1 == unit).map fun p => p.2).getD 0
  { s with ecc := (unit, n + 1) :: s.ecc.filter fun p => p.1 != unit }

/-! ## LOAD_RETURN -/

/-- Brings the lines of some lanes into the cluster's L1. -/
def State.fillFor (s : State) (g : Gang) (f : Flight) (ls : List LaneAcc) : State :=
  (f.freshPieces ls).foldl (fun s p => s.fillLine g p (ls.any fun l => pieceOf l.addr == p && l.ro)) s

/-- Applies an atomic in its lanes, ascending, each to the value the one before left (R233). -/
def State.applyAtomic (s : State) (g : Gang) (f : Flight) (op : BitVec 4) (ls : List LaneAcc) : State × List (Nat × Nat) :=
  let s := s.count (s.crewOf g).core g.id.ctx 9 (f.freshPieces ls).length
  ls.foldl (fun r l =>
    let old := match (s.ctx g.id.ctx).physical l.addr with
      | some pa => Memory.readNat r.1.mem pa f.size
      | none => 0
    (r.1.atomicIa g l.addr f.size fun m => atomNew op f.size m l.data l.cmp, r.2 ++ [(l.lane, old)])) (s, [])

/-- The values that lanes of a flight return, with what returning them does to the caches and to memory. -/
def State.returnValues (s : State) (g : Gang) (f : Flight) (ls : List LaneAcc) : Option (State × List (Nat × Nat)) :=
  match f.op with
  | .load =>
    if s.lanesReady g f true ls then
      let s := s.fillFor g f ls
      some (s, ls.map fun l => (l.lane, g.forwarded f l (s.readIa g l.addr f.size)))
    else none
  | .lda =>
    if s.lanesReady g f true ls then
      let s := (s.acquire g f.scope).fillFor g f ls
      some (s, ls.map fun l => (l.lane, s.readIa g l.addr f.size))
    else none
  | .atom op true =>
    if s.lanesReady g f true ls then
      let r := s.applyAtomic g f op ls
      some (r.1.acquire g f.scope, r.2)
    else none
  | .lds =>
    if s.lanesReady g f false ls then
      some (s, ls.map fun l => (l.lane, Memory.readNat (s.crewOf g).scratch l.addr 4))
    else none
  | .value => if ls.isEmpty then none else some (s, ls.map fun l => (l.lane, l.data))
  | .late _ trapped _ =>
    if ls.isEmpty then none
    else some (s, (ls.filter fun l => !inMask trapped l.lane).map fun l => (l.lane, l.data))
  | _ => none

/-- Whether the data of a flight comes through memory or an SRAM, whose ECC checks it. -/
def Flight.checked (f : Flight) : Bool :=
  match f.op with
  | .load | .lda | .lds | .atom _ true => true
  | _ => false

/-- LOAD_RETURN (R225, R347, R368): values are written, pending bits cleared with the last lane. A double-bit error in the
data stops the crew; the lanes are finished and nothing is written. -/
def execLoadReturn (id : GangId) (op : Nat) (m : Mask) (ecc : Ecc) (s : State) : Host.Outcome State Fault Refusal :=
  runEvent s (
    match s.gang? id with
    | none => none
    | some g =>
      match g.flight? op with
      | none => none
      | some f =>
        let ls := f.chosen m
        match s.returnValues g f ls with
        | none => none
        | some (s, vals) =>
          let land (s : State) : State :=
            (s.count (s.crewOf g).core id.ctx 5 1).modGang id fun g => (g.landValues f vals).finish f (laneMask ls)
          match ecc, f.checked with
          | .double u, true =>
            let s := s.countEcc u
            let s := s.stopCrew id (stopMessage 2 g 0 (laneMask ls) g.ctl.pc)
            some (s.modGang id fun g => g.finish f (laneMask ls))
          | .single u, true => some (land (s.countEcc u))
          | _, _ => some (land s))

/-! ## STORE_STAMP -/

/-- Checks the tracked pieces of a write against the Owl entries; each race is reported and delivered (R298, R299). -/
def State.raceCheck (s : State) (g : Gang) (f : Flight) (ls : List LaneAcc) : State :=
  (distinct ((ls.filter fun l => l.track).map fun l => pieceOf l.addr)).foldl (fun s p =>
    match s.owlCheck g.id.ctx p f.ped with
    | (s, none) => s
    | (s, some old) =>
      let r := s.raceReport g.id.ctx p old f.ped
      let mask := laneMask (ls.filter fun l => pieceOf l.addr == p)
      r.1.deliver g.id f.sup (memoryFault codeRace mask r.2)) s

/-- Plain stores at their home slices, in ascending lane order (R228, R266). -/
def State.stampStores (s : State) (g : Gang) (f : Flight) (ls : List LaneAcc) : State :=
  let s := s.count (s.crewOf g).core g.id.ctx 9 (f.freshPieces ls).length
  (ls.foldl (fun s l => s.writeIa g l.addr f.size l.data) s).raceCheck g f ls

/-- `datom` lanes at their home slices, which obtain the pieces: held, or refused with NONDET or QUOTA (R234, R264, R270, R271,
R273). -/
def State.stampDatom (s : State) (g : Gang) (f : Flight) (op : BitVec 4) (ls : List LaneAcc) : State :=
  let cluster := s.clusterOfGang g
  let s := s.count (s.crewOf g).core g.id.ctx 9 (f.freshPieces ls).length
  let r := ls.foldl (fun r l =>
    let s := r.1.dropL1 fun x => x.ctx == g.id.ctx && x.cluster == cluster && x.piece == pieceOf l.addr
    let c := s.ctx g.id.ctx
    let s := match c.physical l.addr with
      | some pa => s.touchL2 c.dev c.num (pieceOf l.addr) (pa / 64 * 64) false
      | none => s
    let u : HeldUpdate :=
      { ctx := g.id.ctx, crew := g.id.crew, dword := l.addr / 8, addr := l.addr, size := f.size, op := op, value := l.data,
        ped := f.ped, gang := g.id.rank, lane := l.lane, seq := f.seq, outside := false }
    let h := s.holdUpdate u
    (h.1, r.2 ++ (h.2.toList.map fun c => (l.lane, c)))) (s, ([] : List (Nat × BitVec 8)))
  [codeNonDet, codeQuota].foldl (fun s code =>
    let mask := maskOfList ((r.2.filter fun p => p.2 == code).map fun p => p.1)
    if mask = 0 then s else s.deliver g.id f.sup (memoryFault code mask 0)) r.1

/-- `sts` lanes at the core's SRAM (R230). -/
def State.stampScratch (s : State) (g : Gang) (ls : List LaneAcc) : State :=
  s.modCrew g.id.ctx g.id.crew fun c =>
    { c with scratch := ls.foldl (fun m l => Memory.writeNat m l.addr 4 l.data) c.scratch }

/-- What lanes of a store, an atomic without return or a cache operation do (R225, R233, R238). -/
def State.stampLanes (s : State) (g : Gang) (f : Flight) (ls : List LaneAcc) : Option State :=
  match f.op with
  | .store | .str => if s.lanesReady g f true ls then some (s.stampStores g f ls) else none
  | .atom op false =>
    if s.lanesReady g f true ls then some ((s.applyAtomic g f op ls).1.acquire g f.scope) else none
  | .datom op => if s.lanesReady g f true ls then some (s.stampDatom g f op ls) else none
  | .sts => if s.lanesReady g f false ls then some (s.stampScratch g ls) else none
  | .cctl fn =>
    if s.lanesReady g f false ls then
      let s := s.count (s.crewOf g).core g.id.ctx 9 (f.freshPieces ls).length
      some ((distinct (ls.map fun l => pieceOf l.addr)).foldl (fun s p => s.cacheOp g fn.toNat f.scope p) s)
    else none
  | _ => none

/-- STORE_STAMP (R225, R266). -/
def execStoreStamp (id : GangId) (op : Nat) (m : Mask) (s : State) : Host.Outcome State Fault Refusal :=
  runEvent s (
    match s.gang? id with
    | none => none
    | some g =>
      match g.flight? op with
      | none => none
      | some f =>
        let ls := f.chosen m
        match s.stampLanes g f ls with
        | none => none
        | some s => some (s.modGang id fun g => g.finish f (laneMask ls)))

/-! ## PAGE_RETURN -/

/-- An access that needs a page mapped. A `cctl` lane does not: the model's choice, R238 names only RANGE and ALIGN for it
(R273, log 94). -/
def Flight.needsPage (f : Flight) : Bool :=
  f.isAccess && !f.scratch && match f.op with
    | .cctl _ => false
    | _ => true

/-- PAGE_RETURN (R261, R262, R263): lanes without a mapping join the replay queue, later accesses that must wait are
held behind them, and PAGE becomes pending; an access of a handler stops its crew instead. What a stopped crew would queue
is discarded (R342). With all 32 entries taken the return waits for a free one: the model's choice (log 71). -/
def execPageReturn (id : GangId) (op : Nat) (m : Mask) (s : State) : Host.Outcome State Fault Refusal :=
  runEvent s (
    match s.gang? id with
    | none => none
    | some g =>
      match g.flight? op with
      | none => none
      | some f =>
        let c := s.ctx id.ctx
        let ls := f.chosen m
        let lost := s.lanesReady g f false ls && ls.all fun l => (c.physical l.addr).isNone
        if !f.needsPage || !lost || (!f.held && !s.queueOpen g) then none
        else
          let mask := laneMask ls
          if (s.crewOf g).stopped then some (s.modGang id fun g => g.finish f mask)
          else if f.sup then some ((s.modGang id fun g => g.finish f mask).handlerPage id ls)
          else
            let s := if f.held then s else s.count (s.crewOf g).core id.ctx 22 1
            let queue (l : LaneAcc) : LaneAcc := if inMask mask l.lane then { l with st := .queued } else l
            let s := s.modGang id fun g =>
              { g with flights := updateWhere (fun h => h.id == op) (fun h => { h with lanes := h.lanes.map queue }) g.flights }
            some (s.modGang id fun g => (g.holdBehind (s.queueRoom g)).pendPage mask ((ls.head?.map fun l => l.addr).getD 0)))

end Sys2Proof.Machine
end

