-- ==== Sys2Proof/Machine/Engines.lean ====
section
/-! DEFINITION. What the copy engine and the drains share: operand records (R239, R240), rows of global and scratch bytes,
page stops (R240, R262), the start of an engine operation behind its gang's accesses (R284), race checks (R298). -/
namespace Sys2Proof.Machine

/-! ## Records at issue -/

/-- Checks a scratch record against a crew's allocation (R240). -/
def State.checkScratchRec (s : State) (c : Crew) (r : Rec) : Try Unit :=
  match check r.aligned codeAlign with
  | .error e => .error e
  | .ok _ => check (r.range == 0 && s.scratchEnd c r.endByte) codeOpRange

/-- Checks a global record (R240): a footprint past 2^32 is beyond any range; answers the intermediate address of its base and
the range. -/
def Context.checkGlobalRec (c : Context) (r : Rec) (need : BitVec 5) : Try (Nat × Range) :=
  match check r.aligned codeAlign with
  | .error e => .error e
  | .ok _ =>
    match c.ranges[r.range]? with
    | none => .error (.fault codeRange)
    | some g => match check (g.len != 0 && decide (r.endByte ≤ g.len) && decide (r.endByte ≤ 2 ^ 32)) codeRange with
      | .error e => .error e
      | .ok _ => match check (permits g.perm need) codePerm with
        | .error e => .error e
        | .ok _ => .ok (g.ibase + r.base, g)

/-- A record moves nothing (R240). -/
def Rec.empty (r : Rec) : Bool := r.rows == 0 || r.extent == 0

/-! ## Rows of bytes -/

/-- The first address of [a, a + n) without a mapping, page by page. -/
def Context.firstUnmapped (c : Context) (a n : Nat) : Option Nat :=
  if n = 0 then none
  else (a :: (upto ((a + n - 1) / 4096 - a / 4096)).map fun i => (a / 4096 + i + 1) * 4096).find? fun x => (c.physical x).isNone

/-- Bytes of a context's memory as an engine reads them. -/
def State.engineRead (s : State) (ctx a n : Nat) : List Byte :=
  (pieceChunks a n).flatMap fun p => match (s.ctx ctx).physical p.1 with
    | some pa => Memory.readBytes s.mem pa p.2
    | none => List.replicate p.2 0

/-- An engine's write of a row to memory (R241, R284). -/
def State.engineWriteRow (s : State) (op ctx a : Nat) (bytes : List Byte) : State :=
  (pieceChunks a bytes.length).foldl (fun s p => s.engineWrite op ctx p.1 ((bytes.drop (p.1 - a)).take p.2)) s

/-- Writes bytes into a crew's scratch. -/
def State.scratchWrite (s : State) (ctx crew off : Nat) (bytes : List Byte) : State :=
  s.modCrew ctx crew fun c => { c with scratch := Memory.writeBytes c.scratch off bytes }

/-- Race checks of an engine's row, piece by piece (R298): races go to the issuing gangs with their masks at issue. -/
def State.engineRaces (s : State) (ids : List GangId) (sup : Bool) (ped : BitVec 512) (act : Mask) (a n : Nat) : State :=
  match ids with
  | [] => s
  | id :: _ =>
    (pieceChunks a n).foldl (fun s p =>
      match s.owlCheck id.ctx (pieceOf p.1) ped with
      | (s, none) => s
      | (s, some old) =>
        let r := s.raceReport id.ctx (pieceOf p.1) old ped
        ids.foldl (fun s id => s.deliver id sup (memoryFault codeRace act r.2)) r.1) s

/-! ## Start -/

/-- Every access that a gang issued before an engine operation is complete, its receives too, and its replay queue is
empty: the operation observes them (R241, R262, R278, R284). -/
def State.engineClear (s : State) (g : Gang) (op : Nat) : Bool :=
  (g.before op).all (fun f => !f.isAccess) && !g.recvBefore op && s.queueEntries g == 0

/-- No operation issued before one owns a line of a row of bytes (R284). -/
def State.rowFree (s : State) (ctx op a n : Nat) : Bool := (pieceChunks a n).all fun p => !s.ownedBefore ctx op p.1

/-- PAGE of an engine operation for its gang; the crew stops when a handler issued it (R240, R263). -/
def State.enginePage (s : State) (id : GangId) (sup : Bool) (mask : Mask) (ia : Nat) : State :=
  if (s.crew id.ctx id.crew).stopped then s
  else if sup then s.deliver id true { memoryFault codePage mask (BitVec.ofNat 64 (pageBase ia)) with count := 1 }
  else match s.gang? id with
    | none => s
    | some g => (s.setGang (g.pendPage mask ia)).count (s.crewOf g).core id.ctx 22 1

/-! ## Peer-adds that are held -/

/-- A peer-add that never finishes while its target does not take it: it is held, or its target is not resident. -/
def State.peerStuck (s : State) (m : MatOp) : Bool :=
  m.sent && s.peerAdds.any fun p => p.op == m.id && (p.arrived || p.withdrawn || match m.kind with
    | .drainP core _ => (s.core core).resident != some m.ctx
    | _ => false)

end Sys2Proof.Machine
end

