-- ==== Sys2Proof/Machine/HostAccess.lean ====
section
/-! DEFINITION. What a host access does: the statuses that answer it, what holds it, its effect at system scope (R267, R349,
R355, R356, R359). -/
namespace Sys2Proof.Machine

/-- Status words of R359 that answer a post or an access. -/
def statusFull : Word := 1
def statusPart : Word := 2
def statusRom : Word := 3
def statusUnknown : Word := 7
def statusOperand : Word := 8

/-- Devices of the package; before a mode is chosen any number below 8 names one (R6). -/
def State.devices (s : State) : Nat := s.partition.getD 8

/-- A device is cut off from the bridge and has not posted its answer yet (R364). -/
def State.isCut (s : State) (dev : Nat) : Bool := s.quarantined.any fun q => q.dev == dev && !q.posted

/-- The whole package lies in the part that is cut off (R364). -/
def State.packageCut (s : State) : Bool := (upto s.devices).all s.isCut

/-- A device lies in the part that is cut off from the bridge (R364). -/
def State.cutOff (s : State) (dev : Nat) : Bool := s.isCut dev || s.packageCut

/-- Every byte of [ia, ia + n) is mapped. -/
def Context.mapsAll (c : Context) (ia n : Nat) : Bool := (c.firstUnmapped ia n).isNone

/-- Pages of a context hold a physical line. -/
def Context.mapsLine (c : Context) (line : Nat) : Bool :=
  c.maps.any fun m => decide (m.pa ≤ line * 64) && decide (line * 64 < m.pa + m.size)

/-- Some byte lies on a page of a context in a capture, which holds host accesses (R349 item 2). -/
def State.captured (s : State) (c : Context) (ia n : Nat) : Bool :=
  (pieceChunks ia n).any fun p => match c.physical p.1 with
    | some pa => s.contexts.any fun x => x.capture.isSome && x.mapsLine (pa / 64)
    | none => false

/-- Bytes that a host access moves. -/
def HostReq.size (r : HostReq) : Nat := if r.write then r.bytes.length else r.count

/-- No engine operation owns a line of a host access, which it would wait for (R284). -/
def State.hostFree (s : State) (r : HostReq) : Bool := (pieceChunks r.ia r.size).all fun p => !s.owned r.ctx p.1

/-- Two host accesses touch a byte in common, through whichever contexts. -/
def State.hostMeets (s : State) (a b : HostReq) : Bool :=
  (pieceChunks a.ia a.size).any fun p => (pieceChunks b.ia b.size).any fun q =>
    match (s.ctx a.ctx).physical p.1, (s.ctx b.ctx).physical q.1 with
    | some x, some y => overlaps x p.2 y q.2
    | _, _ => false

/-- A host access through a context (R355, R356): turned away with a status (R359), held by a capture, by an engine operation or
behind an earlier one that is held and has bytes in common (R278), or made. -/
def State.hostRequest (s : State) (r : HostReq) : State :=
  let refuse (v : Word) : State := { s with hostStatus := v, hostData := [] }
  if s.packageCut then refuse statusPart
  else if s.boot != .running then refuse statusRom
  else match s.ctx? r.ctx with
    | none => refuse statusUnknown
    | some c =>
      if s.cutOff c.dev then refuse statusPart
      else if !c.mapsAll r.ia r.size then refuse statusOperand
      else if s.captured c r.ia r.size || !s.hostFree r || s.heldHost.any (s.hostMeets r) then { s with heldHost := s.heldHost ++ [r] }
      else
        let s := { s with hostStatus := 0, hostData := [] }
        if r.write then s.systemWrite r.ctx r.ia r.bytes else { s with hostData := s.engineRead r.ctx r.ia r.count }

/-- Held accesses are made in their order; those that something still holds stay held (R351). -/
def State.releaseHost (s : State) : State := s.heldHost.foldl State.hostRequest { s with heldHost := [] }

end Sys2Proof.Machine
end

