-- ==== Sys2Proof/Machine/Mailbox.lean ====
section
/-! DEFINITION. Mailboxes: `mbrecv`, `mbrecv.p`, `mbsend` and the deliveries of queues (R21, R70, R150, R152, R322, R331,
R350, R356, R358). -/
namespace Sys2Proof.Machine

/-- The device queue of a grove queue of a context (R322). -/
def State.groveQueue (s : State) (ctx grove : Nat) : Option Queue :=
  (s.queue? (s.ctx ctx).dev ((s.ctx ctx).queueBase + grove)).filter fun q => q.ctx == ctx && q.grove == some grove

/-- An access of the gang, or another result, waits behind one of its receives. -/
def Gang.heldByRecv (g : Gang) : Bool := g.flights.any fun f => !f.finished && f.op != .recv && g.recvBefore f.id

/-- A gang whose registered receives the queues count: its frames are on its core, its crew runs, and it has not halted: it
goes on until its replay queue is empty (R326), and until what its receives hold up can complete (R21, R70, log 67). -/
def State.listens (s : State) (g : Gang) : Bool :=
  !g.spilled && !g.away && !s.isolated g && (s.mayRun g || g.heldByRecv) && !(s.crewOf g).stopped

/-- A receive stands before another at their queue: it waits longer, or on a core of lower index, or in a lower slot (R21). -/
def State.recvFirst (s : State) (a b : Gang × Receive) : Bool :=
  decide (a.2.since < b.2.since) || a.2.since == b.2.since &&
    (decide ((s.crewOf a.1).core < (s.crewOf b.1).core) ||
      (s.crewOf a.1).core == (s.crewOf b.1).core && decide (s.slotOf a.1 < s.slotOf b.1))

/-- Receives registered at a queue, with their gangs, longest waiting first (R21). -/
def State.waitingAt (s : State) (q : Queue) : List (GangId × Receive) :=
  let all := (s.gangs.filter fun g => g.id.ctx == q.ctx && s.listens g).flatMap fun g =>
    (g.recvs.filter fun r => q.grove == some r.grove).map fun r => (g, r)
  (sortBy s.recvFirst all).map fun p => (p.1.id, p.2)

/-- Checks on the queue index (R150, R152): MBOX beyond the grove's queues. -/
def State.checkQueue (s : State) (ix : Nat) : Try Unit := check (decide (ix < s.here.queues)) codeMbox

/-! ## `mbrecv` -/

/-- The checks of a receive, MBOX in a capture pass included (R150, R350). -/
def State.checkReceive (s : State) (o : FmtDA) : Try Unit :=
  let g := s.cur
  match g.checkOperands (recordRegs o.d.toNat 16 ++ [o.a.toNat]) [o.a.toNat] [o.a.toNat] with
  | .error e => .error e
  | .ok _ => match s.checkQueue (g.uni o.a.toNat).toNat with
    | .error e => .error e
    | .ok _ => check s.here.capture.isNone codeMbox

/-- Makes registers pending on an operation as they stand: a U result over every lane needs no row (R55). -/
def Gang.pendKeep (g : Gang) (op : Nat) (rs : List Nat) : Gang :=
  let mark (l : List Reg) (p : Nat × Nat) : List Reg := setAt l p.2 { (l[p.2]?.getD zeroReg) with pend := some ⟨op, p.1⟩ }
  g.modTop fun f => { f with regs := ((upto rs.length).zip rs).foldl mark f.regs }

/-- `mbrecv` (R150): registers a receive; the gang keeps issuing. -/
def execMbrecv (o : FmtDA) (s : State) : Host.Outcome State Fault Refusal :=
  runUnit control o.sw s fun s =>
    let g := s.cur
    let rs := recordRegs o.d.toNat 16
    match s.checkReceive o with
    | .error e => .error e
    | .ok _ =>
      if g.act = 0 then .ok (done s)
      else match g.awaitDest rs with
        | .error e => .error e
        | .ok _ =>
          let full := g.act == allLanes
          match (if full then .ok (s.modCur fun g => g.pendKeep s.tick rs) else s.pendRegs s.tick rs) with
          | .error e => .error e
          | .ok s =>
            let r : Receive :=
              { op := s.tick, grove := (g.uni o.a.toNat).toNat, since := s.tick, act := g.act, full := full, first := o.d,
                frameNo := g.frames.length - 1, old := rs.map g.val }
            let f := { valueFlight s [] with op := .recv }
            .ok (done ((s.modCur fun g => { g with recvs := g.recvs ++ [r], flights := g.flights ++ [f] }).ticked))

/-- The words of a message. -/
def messageWord (msg : List Word) (w : Nat) : Word := msg.getD w 0

/-- `mbrecv.p` (R150): it waits until messages already due to registered receives have gone to them. -/
def execMbrecvP (o : FmtDA) (s : State) : Host.Outcome State Fault Refusal :=
  runUnit control o.sw s fun s =>
    let g := s.cur
    let rs := recordRegs o.d.toNat 16
    match s.checkReceive o with
    | .error e => .error e
    | .ok _ =>
      if g.act = 0 then .ok (done s)
      else match g.awaitDest rs with
        | .error e => .error e
        | .ok _ => match s.groveQueue g.id.ctx (g.uni o.a.toNat).toNat with
          | none => .ok (done (s.modCur fun g => { g with cc := 0 }))
          | some q => match q.msgs with
            | [] => .ok (done (s.modCur fun g => { g with cc := 0 }))
            | msg :: rest => match await (s.waitingAt q).isEmpty with
              | .error e => .error e
              | .ok _ =>
                match s.writeRegs g.act ((upto 16).map fun w => (o.d.toNat + w, .u (messageWord msg w))) with
                | .error e => .error e
                | .ok s =>
                  let s := ((s.setQueue { q with msgs := rest }).acquire g 6).countHere 5 1
                  .ok (done (s.modCur fun g => { g with cc := 1 }))

/-! ## `mbsend` -/

/-- Whether sends are made: not in a capture pass before the last (R350). -/
def Context.sends (c : Context) : Bool :=
  match c.capture with
  | some k => k.pass == k.passes
  | none => true

/-- `mbsend` (R152): a release at system scope: it comes after every access and receive of its gang (R278), and waits for room
in the queue. -/
def mbsendUnit (o : FmtAB) (s : State) : Try Done :=
  let g := s.cur
  let rs := recordRegs o.a.toNat 16 ++ [o.b.toNat]
  match g.checkOperands rs rs rs with
  | .error e => .error e
  | .ok _ =>
    let ix := (g.uni o.b.toNat).toNat
    match s.checkQueue ix with
    | .error e => .error e
    | .ok _ =>
      if g.act = 0 || !s.here.sends then .ok (done s)
      else match await g.accessesDone with
        | .error e => .error e
        | .ok _ => match s.groveQueue g.id.ctx ix with
          | none => .ok (done s)
          | some q =>
            if q.msgs.length < Config.queueDepth then
              .ok (done (s.post q ((upto 16).map fun w => g.uni (o.a.toNat + w))))
            else match g.ctl.wait with
              | .queue d i t => .error (.wait (.queue d i t))
              | _ => .error (.wait (.queue q.dev q.ix s.tick))

/-- `mbsend` (R152). -/
def execMbsend (o : FmtAB) (s : State) : Host.Outcome State Fault Refusal := runUnit control o.sw s (mbsendUnit o)

/-! ## Deliveries -/

/-- Rows that a message over every lane releases: destinations that were G (R54). -/
def Gang.recvFrees (g : Gang) (op : Nat) : Nat :=
  (g.frames.flatMap fun f => f.regs.filter fun r => r.isG && (r.pend.map fun p => p.op) == some op).length

/-- Word w of a message lands in the register pending on it. -/
def landWord (r : Receive) (msg : List Word) (w : Nat) (x : Reg) : Reg :=
  { val := mergeVal x.val (.u (messageWord msg w)) r.act, pend := none }

/-- The gang after a message has been written to its receive's destinations (R150). -/
def Gang.receive (g : Gang) (r : Receive) (msg : List Word) : Gang :=
  let g := g.mapPending r.op (landWord r msg)
  ({ g with
    recvs := g.recvs.filter fun x => x.op != r.op
    flights := updateWhere (fun f => f.id == r.op) (fun f => { f with finished := true }) g.flights } : Gang).tidy

/-- Lent rows are unused reserved rows again, of the frames that lent them. -/
def Gang.unlend (g : Gang) : Gang :=
  let back (i : Nat) : Nat :=
    (g.lentBy.filter fun l => g.frames.length - 1 - l.1 == i).foldl (fun n l => n + l.2) 0
  let f (p : Nat × Frame) : Frame := { p.2 with spare := p.2.spare + back p.1 }
  { g with frames := ((upto g.frames.length).zip g.frames).map f, lent := 0, lentBy := [], owed := none }

/-- Rows lent while the gang was blocked come back at its delivery, at once or when their turn in R61 comes: the gang waits
for them until then (R331, log 13). -/
def State.retake (s : State) (id : GangId) : State :=
  match s.gang? id with
  | none => s
  | some g =>
    if g.lent = 0 then s
    else
      let c := s.coreOf g
      if g.lent ≤ c.pool ∧ ¬ s.bypasses g s.tick then (s.setCore { c with pool := c.pool - g.lent }).setGang g.unlend
      else (s.setGang { g with owed := some s.tick }).ticked

/-- MESSAGE_DELIVERY (R21, R150): the oldest message to the longest-waiting receive; held during a capture (R349). -/
def execMessageDelivery (dev queue : Nat) (s : State) : Host.Outcome State Fault Refusal :=
  runEvent s (
    match s.queue? dev queue with
    | none => none
    | some q =>
      if (s.ctx q.ctx).capture.isSome then none
      else match q.msgs, s.waitingAt q with
        | msg :: rest, (id, r) :: _ =>
          let s := s.setQueue { q with msgs := rest }
          match s.gang? id with
          | none => none
          | some g =>
            let freed := if r.full then g.recvFrees r.op else 0
            let s := (((s.setGang (g.receive r msg)).release id freed 0).acquire g 6).count (s.crewOf g).core id.ctx 5 1
            some (s.retake id)
        | _, _ => none)

/-- HOST_POST (R355, R356, R358, R364): enqueued, or answered with a status and not enqueued; without a bridge in the group
none comes. -/
def execHostPost (dev queue : Nat) (msg : List Word) (s : State) : Host.Outcome State Fault Refusal :=
  runEvent s (
    let answer (v : Word) : State := { s with hostStatus := v }
    if !s.bridged then none
    else if s.packageCut then some (answer statusPart)
    else if s.boot != .running then some (answer statusRom)
    else if s.mode ≤ dev then some (answer statusUnknown)
    else if s.cutOff dev then some (answer statusPart)
    else match s.queue? dev queue with
      | none => some (answer statusOperand)
      | some q =>
        if q.grove.isNone || msg.length != 16 then some (answer statusOperand)
        else if q.msgs.length < Config.queueDepth then some ((answer 0).post q msg)
        else some (answer statusFull))

/-- HOST_RECEIVE (R356): the host takes the oldest message of a queue; held for a grove queue during a capture. -/
def execHostReceive (dev : Nat) (queue : HostQueue) (s : State) : Host.Outcome State Fault Refusal :=
  let take (q : Queue) : Option State := match q.msgs with
    | msg :: rest => some { s.setQueue { q with msgs := rest } with hostInbox := s.hostInbox ++ [msg] }
    | [] => none
  runEvent s (match queue with
    | .grove i => match s.queue? dev i with
      | some q => if q.grove.isNone || (s.ctx q.ctx).capture.isSome || s.quarantined.any (fun k => k.dev == dev) then none else take q
      | none => none
    | .error ctx => match s.ctx? ctx with
      | some c => (s.queue? dev c.errQueue).bind fun q =>
          if q.ctx == ctx && q.grove.isNone && !s.quarantined.any (fun k => k.dev == dev) then take q else none
      | none => none
    | .management => match s.mgmtOut with
      | msg :: rest => some { s with mgmtOut := rest, hostInbox := s.hostInbox ++ [msg] }
      | [] => none)

/-- ERROR_MESSAGE_POST (R343): the oldest kept message, once the error queue has room. -/
def execErrorMessagePost (ctx : Nat) (s : State) : Host.Outcome State Fault Refusal :=
  runEvent s (
    match s.ctx? ctx with
    | none => none
    | some c => match c.errKept, s.queue? c.dev c.errQueue with
      | msg :: rest, some q =>
        if q.msgs.length < Config.queueDepth then some ((s.post q msg).setCtx { c with errKept := rest }) else none
      | _, _ => none)

end Sys2Proof.Machine
end

