-- ==== Sys2Proof/Machine/Reissue.lean ====
section
/-! DEFINITION. Units that read their own words: `lim` pairs (R101, R102, R183), and the units that an event lets a waiting
gang issue again: MBSEND_ACCEPT (R152), JTAB_RETRY (R50). -/
namespace Sys2Proof.Machine

/-! ## `lim` -/

/-- The unit that a `lim` and its second word make, none for a word of R102's other kind (R101, R102). -/
def limUnit (hi : BitVec 22) : Instr → Option (UnitKind × Bool × (State → Try Done))
  | .iaddi o => some (vectorUnit, o.sw, iaddiUnit o.d o.a (limImm hi o.imm))
  | .andi o => some (vectorUnit, o.sw, andiUnit o.d o.a (limImm hi o.imm))
  | .ori o => some (vectorUnit, o.sw, oriUnit o.d o.a (limImm hi o.imm))
  | .xori o => some (vectorUnit, o.sw, xoriUnit o.d o.a (limImm hi o.imm))
  | .icmpi o => some (vectorUnit, o.sw, icmpiUnit o.m o.c o.a (limImm hi o.imm))
  | .movi o =>
    if o.imm.extractLsb' 10 7 = 0#7 then some (vectorUnit, o.sw, moviUnit o.d (limImm hi (o.imm.extractLsb' 0 10))) else none
  | .ldB o => some (control, o.sw, ldUnit 1 o.d o.a (sextD (limImm hi o.imm)))
  | .ldH o => some (control, o.sw, ldUnit 2 o.d o.a (sextD (limImm hi o.imm)))
  | .ldW o => some (control, o.sw, ldUnit 4 o.d o.a (sextD (limImm hi o.imm)))
  | .ldD o => some (control, o.sw, ldUnit 8 o.d o.a (sextD (limImm hi o.imm)))
  | .stB o => some (control, o.sw, stUnit 1 o.d o.a (sextD (limImm hi o.imm)))
  | .stH o => some (control, o.sw, stUnit 2 o.d o.a (sextD (limImm hi o.imm)))
  | .stW o => some (control, o.sw, stUnit 4 o.d o.a (sextD (limImm hi o.imm)))
  | .stD o => some (control, o.sw, stUnit 8 o.d o.a (sextD (limImm hi o.imm)))
  | .lds o => some (control, o.sw, ldsUnit o.d o.a (limImm hi o.imm))
  | .sts o => some (control, o.sw, stsUnit o.d o.a (limImm hi o.imm))
  | _ => none

/-- A unit that stops: the kind of a `lim` pair (R101). -/
def limStop (s : State) (e : Stop) : Host.Outcome State Fault Refusal :=
  runUnit { control with len := 8 } false s fun _ => .error e

/-- `lim`: both words are one unit at the address of the first (R101, R102, R183). -/
def execLim (o : FmtLim) (s : State) : Host.Outcome State Fault Refusal :=
  match s.fetchWord s.cur (s.cur.ctl.pc + 4) s.cur.ctl.pc true with
  | .error e => limStop s e
  | .ok w =>
    match decodeWord w with
    | .error _ => limStop s (.fault codeIllegal)
    | .ok i =>
      match limUnit o.imm i with
      | none => limStop s (.fault codeIllegal)
      | some (k, sw, body) => runUnit { k with len := 8 } sw s body

/-! ## Waiting units issued again -/

/-- The first word of a `lim` pair. -/
def isLim : Instr → Bool
  | .lim _ => true
  | _ => false

/-- The instruction word at the PC of a gang. A unit that `rte` executes again is a `lim` pair when L says so, and nothing
else otherwise (R141, log 26). -/
def State.fetchInstr (s : State) (g : Gang) : Try Instr :=
  match s.fetchWord g g.ctl.pc g.ctl.pc false with
  | .error e => .error e
  | .ok w => match decodeWord w with
    | .error _ => .error (.fault codeIllegal)
    | .ok i => if g.ctl.redo.all fun r => r.lim == isLim i then .ok i else .error (.fault codeIllegal)

/-- The gang with each of its fragments whose control a test picks in issue, the oldest-created first (R43); a handler keeps to
the splits it made (R339). -/
def Gang.waiting (g : Gang) (p : Ctl → Bool) : List Gang :=
  if g.parts.isEmpty then if p g.ctl then [g] else []
  else (sortBy (fun a b => decide (g.ageOf b.2 < g.ageOf a.2)) (g.parts.filter fun q => q.2.st != .parked && p q.2.ctl)).map fun q =>
    g.loadFrag q.1

/-- The first of them. -/
def Gang.toWaiting (g : Gang) (p : Ctl → Bool) : Option Gang := (g.waiting p).head?

/-- The state with a waiting gang in issue at the unit it waits with. -/
def State.atWait (s : State) (id : GangId) (p : Ctl → Bool) : Option State :=
  match (s.gang? id).bind fun g => g.toWaiting p with
  | some g => some ((s.setGang g).focus id)
  | none => none

def Ctl.awaitsQueue (c : Ctl) : Bool :=
  match c.wait with
  | .queue _ _ _ => true
  | _ => false

def Ctl.awaitsEntries (c : Ctl) : Bool := c.wait == .entries

/-- The queue that a control waits for has room. -/
def State.queueRoomy (s : State) (c : Ctl) : Bool :=
  match c.wait with
  | .queue d i _ => match s.queue? d i with
    | some q => decide (q.msgs.length < Config.queueDepth)
    | none => false
  | _ => false

/-- MBSEND_ACCEPT (R152): a queue with room takes a waiting gang's message. -/
def execMbsendAccept (id : GangId) (s : State) : Host.Outcome State Fault Refusal :=
  match s.atWait id Ctl.awaitsQueue with
  | none => .next s
  | some t =>
    if !t.cur.live || t.cur.entering.isSome || !t.queueRoomy t.cur.ctl || !t.listens t.cur then .next s
    else match t.fetchInstr t.cur with
      | .ok (.mbsend o) => runUnit control o.sw t (mbsendUnit o)
      | _ => .next s

/-- A `jtab` still waits for entries. -/
def jtabWaits (o : FmtDAI) (t : State) : Bool :=
  match jtabUnit o t with
  | .error (.wait .entries) => true
  | _ => false

/-- A fragment that waits for entries evaluates its `jtab` again: what follows, unless it waits as before. -/
def retryJtab (t : State) : Option (Host.Outcome State Fault Refusal) :=
  match t.fetchInstr t.cur with
  | .ok (.jtab o) => if jtabWaits o t then none else some (runUnit control o.sw t fun s => jtabUnit o s)
  | _ => none

/-- JTAB_RETRY (R50): the fragments waiting for entries evaluate their `jtab`s again; the first that need not wait any more
goes on. -/
def execJtabRetry (id : GangId) (s : State) : Host.Outcome State Fault Refusal :=
  match s.gang? id with
  | none => .next s
  | some g =>
    if !g.live || g.outside || g.entering.isSome || !s.mayRun g || (s.crewOf g).stopped then .next s
    else ((g.waiting Ctl.awaitsEntries).findSome? fun h => retryJtab ((s.setGang h).focus id)).getD (.next s)

end Sys2Proof.Machine
end

