-- ==== Sys2Proof/Machine/FrameEvents.lean ====
section
/-! DEFINITION. The frame allocator's own steps: grants in order of age (R61), rows lent by gangs blocked in a receive (R331),
stalls and how they are broken (R62, R63), escape spills and re-entry (R63, R70). -/
namespace Sys2Proof.Machine

/-! ## Waiters -/

/-- Requests of a core: the gang, rows, compact store, age; the oldest first, then the lowest slot (R61, R64). -/
def State.waiters (s : State) (core : Nat) : List (Gang × Nat × Nat × Nat) :=
  sortBy (fun a b => decide (a.2.2.2 < b.2.2.2) || (a.2.2.2 == b.2.2.2 && decide (s.slotOf a.1 < s.slotOf b.1)))
    ((s.coreGangs core).filterMap fun g => (s.asks g).map fun r => (g, r))

/-- The requests in the order in which they are served: handler frames, then spilled gangs, then the others (R61, R63). -/
def State.askers (s : State) (core : Nat) : List (Gang × Nat × Nat × Nat) :=
  [0, 1, 2].flatMap fun n => (s.waiters core).filter fun p => p.1.waitClass == n

/-- The waiter to serve: one whose role has no headroom is passed over (R61). So is one whose request came to lie above what its gang
may ever hold while it waited, by a move of rows: the model's choice, R318 checks only later requests (log 89). -/
def State.nextAsker (s : State) (core : Nat) : Option (Gang × Nat × Nat × Nat) :=
  (s.askers core).find? fun p => s.roomFor p.1 p.2.1

/-- The gang with the control that waits for rows in issue. -/
def Gang.toRequest (g : Gang) : Gang := (g.toWaiting fun c => c.request.isSome).getD g

/-- A gang that has been given what it asked for: a new task's frames are there, lent rows are back, a waiting unit may
issue with its grant. -/
def Gang.granted (g : Gang) (rows compact : Nat) : Gang :=
  let own := rows - g.owedRows
  let g := if g.owed.isSome then g.unlend.toRequest else g.toRequest
  let ready : Gang := { g with ctl := { g.ctl with wait := .ready } }
  match g.ctl.wait with
  | .rows _ _ _ => { ready with grantRows := g.grantRows + own, grantCompact := g.grantCompact + compact, grantMade := true }
  | .taskFrame _ _ _ => ready
  | _ => g

/-! ## Spills (R63, R70) -/

/-- Spills every frame of a gang (R63, R70): its image goes to its frame area, for which the task area is charged (R27);
its rows and compact store are released, its receives withdrawn. -/
def State.spillGang (s : State) (id : GangId) : State :=
  match s.gang? id with
  | none => s
  | some g =>
    let image := Memory.cellsFrom 0 (s.gangImage g true)
    let s := (s.chargeAnyway id.ctx g.areaBytes).keepImage id.ctx (.spill id) g.areaBytes image
    let s := s.setGang { g with spilled := true, chosen := false, savedAt := s.tick }
    let s := s.release id g.frameRows g.frameCompact
    s.count (s.crewOf g).core id.ctx 21 1

/-- A frame area is free again when its gang has re-entered (R27). -/
def State.clearSpill (s : State) (id : GangId) : State :=
  (s.refund id.ctx ((s.ctx id.ctx).imageSize (.spill id))).modCtx id.ctx fun c => c.discard (.spill id)

/-! ## Grants -/

/-- Takes what a waiter asks for, when it is there: a handler frame from the reserve, everything else, and that too, from the
pool with what blocked gangs lend it (R61, R63, R331). -/
def State.supply (s : State) (core : Nat) (g : Gang) (rows compact : Nat) : Option State :=
  match (if g.entering.isSome && !g.spilled then s.fromReserve core rows compact else none) with
  | some s => some s
  | none => (s.fillPool core rows g.id).fromPool core rows compact

/-- A gang whose request has been supplied goes on: it enters its handler, or resumes at its request. It has waited for rows
(R347). -/
def State.resumeWith (s : State) (id : GangId) (rows compact : Nat) : State :=
  match s.gang? id with
  | none => s
  | some g =>
    let s := s.count (s.crewOf g).core id.ctx 20 1
    match g.entering with
    | some e => (s.count (s.crewOf g).core id.ctx 23 1).modGang id fun g =>
        { g with entering := none }.enterHandler e.handler e.record e.kind e.mask e.resume
    | none => s.modGang id fun g => g.granted rows compact

/-- ROW_GRANT (R61, R331): the first eligible waiter is served whole; a spilled gang re-enters by SPILL_REENTRY. -/
def execRowGrant (core : Nat) (s : State) : Host.Outcome State Fault Refusal :=
  runEvent s (
    match s.nextAsker core with
    | none => none
    | some (g, rows, compact, _) =>
      if g.spilled then none else (s.supply core g rows compact).map fun s => s.resumeWith g.id rows compact)

/-! ## Stalls (R62, R63) -/

/-- A spilled gang is back in its slot and resumes at its request. -/
def State.reenter (s : State) (id : GangId) : State :=
  let s := s.modGang id fun g => { g with spilled := false, chosen := false }.agedTo s.tick
  let s := match (s.gang? id).bind Gang.wants with
    | some (r, c, _) => s.resumeWith id r c
    | none => s
  s.clearSpill id

/-- The core can serve its first eligible waiter now. -/
def State.servable (s : State) (core : Nat) : Bool :=
  match s.nextAsker core with
  | some (g, rows, compact, _) => (s.supply core g rows compact).isSome
  | none => false

/-- The gang of a core that has waited longest for a handler frame (R63). -/
def State.nextEntering (s : State) (core : Nat) : Option Gang :=
  ((s.askers core).head?.map fun p => p.1).filter fun g => g.entering.isSome

/-- Every resident gang is in a state of R62 and some gang waits for rows or compact store. -/
def State.stalledCore (s : State) (core : Nat) : Bool :=
  !(s.askers core).isEmpty && !s.servable core && (s.coreGangs core).all fun g => g.spilled || s.mayStall g

/-- Gives a waiter its whole request from the reserve, outside its quota (R63). -/
def State.emergency (s : State) (g : Gang) (rows compact : Nat) : State :=
  let s := s.modCore (s.crewOf g).core fun c => { c with reserve := c.reserve - rows, reserveC := c.reserveC - compact }
  let s := s.modGang g.id fun g => { g with emergRows := g.emergRows + rows, emergCompact := g.emergCompact + compact }
  if g.spilled then s.reenter g.id else s.resumeWith g.id rows compact

/-- STALL_DECLARED (R62, R63): an emergency grant to the oldest waiter, else the choice of a gang to spill. While a gang waits for
a handler frame, ESCAPE_SPILL sees to that first. -/
def execStallDeclared (core : Nat) (s : State) : Host.Outcome State Fault Refusal :=
  runEvent s (
    if !s.stalledCore core || (s.nextEntering core).isSome || (s.coreGangs core).any (fun g => g.chosen) then none
    else match s.waiters core with
      | [] => none
      | (g, rows, compact, _) :: _ =>
        let c := s.core core
        if rows ≤ c.reserve ∧ compact ≤ c.reserveC then some (s.emergency g rows compact)
        else (s.spillChoice core).map fun h => s.setGang { h with chosen := true })

/-- For a handler frame that the core cannot supply another gang is chosen; with none left the crew stops (R63, R342). -/
def State.chooseFor (s : State) (core : Nat) (g : Gang) : State :=
  match s.spillOther core g.id, g.entering with
  | some h, _ => s.setGang { h with chosen := true }
  | none, some e => s.stopOn g.id e.record e.mask e.resume
  | none, none => s

/-- The spill of a chosen gang is still wanted: the core is stalled, or a gang that waits for a handler frame may spill it. -/
def State.spillWanted (s : State) (core : Nat) (h : Gang) : Bool :=
  match s.nextEntering core with
  | some g => g.id != h.id && s.mayStall h && !s.servable core
  | none => s.stalledCore core

/-- ESCAPE_SPILL (R63, R70): once the chosen gang's results are back; a stall that is over cancels the choice. Where a gang waits
for a handler frame and none is chosen, it makes the choice (log 22). -/
def execEscapeSpill (core : Nat) (s : State) : Host.Outcome State Fault Refusal :=
  runEvent s (
    match (s.coreGangs core).find? fun g => g.chosen with
    | none => if s.servable core then none else (s.nextEntering core).map fun g => s.chooseFor core g
    | some g =>
      if !s.spillWanted core g then some (s.setGang { g with chosen := false })
      else if g.pendingWork then none
      else some (s.spillGang g.id))

/-- SPILL_REENTRY (R63): all its frames and its request at once, before every waiter that is not spilled. -/
def execSpillReentry (id : GangId) (s : State) : Host.Outcome State Fault Refusal :=
  runEvent s (
    match s.gang? id with
    | none => none
    | some g =>
      if !g.spilled || g.away then none
      else
        let core := (s.crewOf g).core
        match s.nextAsker core with
        | some (h, rows, compact, _) =>
          if h.id != id then none else (s.supply core h rows compact).map fun s => s.reenter id
        | none => none)

end Sys2Proof.Machine
end

