-- ==== Sys2Proof/Machine/CopyEngine.lean ====
section
/-! DEFINITION. The copy engine: `cpy`, `cpym`, the rows of a copy and its completion (R239 to R242, R284, R317, R328). -/
namespace Sys2Proof.Machine

def CopyKind.fromGlobal : CopyKind → Bool
  | .sg | .gg | .multi => true
  | _ => false

def CopyKind.toGlobal : CopyKind → Bool
  | .gs | .gg => true
  | _ => false

/-- The kind of a function code (R241). -/
def copyKind (fn : BitVec 2) : CopyKind :=
  match fn.toNat with
  | 0 => .gs
  | 1 => .sg
  | 2 => .ss
  | _ => .gg

/-! ## Issue -/

/-- One side of a copy: its start, and whether its range is tracked. -/
def State.copySide (s : State) (isGlobal : Bool) (r : Rec) (need : BitVec 5) : Try (Nat × Bool) :=
  if isGlobal then
    match s.here.checkGlobalRec r need with
    | .error e => .error e
    | .ok p => .ok (p.1, permits p.2.perm permTrack)
  else match s.checkScratchRec (s.crewOf s.cur) r with
    | .error e => .error e
    | .ok _ => .ok (r.base, false)

/-- Puts a copy at its core, counted on path 3; one that moves nothing is complete at once. -/
def State.launchCopy (s : State) (c : CopyOp) : Try Done :=
  let g := s.cur
  match await (s.queueOpen g && decide (g.pathCount 3 < 65535)) with
  | .error e => .error e
  | .ok _ =>
    let moves := c.rows != 0 && c.extent != 0
    let f := { accessFlight s .copy 3 4 0 [] false with finished := !moves }
    let s := (s.modCur fun g => ({ g with flights := g.flights ++ [f] } : Gang).tidy).ticked
    .ok (done (if moves then s.modCore c.core fun k => { k with copies := k.copies ++ [c] } else s))

/-- A copy of the gang in issue between two records. -/
def copyOp (s : State) (kind : CopyKind) (src dst : Nat) (from_ to_ : Rec) (track : Bool) (crews : List Nat) : CopyOp :=
  { id := s.tick, gang := s.cur.id, core := (s.crewOf s.cur).core, kind := kind, src := src, dst := dst,
    srcStride := from_.stride, dstStride := to_.stride, extent := to_.extent, rows := to_.rows, rowsDone := 0, crews := crews,
    track := track, ped := s.cur.ped, act := s.cur.ctl.mask, queued := false, stopAt := 0, finished := false,
    sup := s.cur.supervisor }

/-- `cpy` (R240, R241). -/
def execCpy (o : FmtCpy) (s : State) : Host.Outcome State Fault Refusal :=
  runUnit serialUnit o.sw s fun s =>
    let g := s.cur
    let rs := recordRegs o.d.toNat 4 ++ recordRegs o.a.toNat 4
    match g.checkOperands rs rs rs with
    | .error e => .error e
    | .ok _ =>
      let kind := copyKind o.kind
      let d := g.record o.d.toNat
      let a := g.record o.a.toNat
      match s.copySide kind.toGlobal d permW with
      | .error e => .error e
      | .ok (dst, track) => match s.copySide kind.fromGlobal a permR with
        | .error e => .error e
        | .ok (src, _) => match check (d.extent == a.extent && d.rows == a.rows) codeOpRange with
          | .error e => .error e
          | .ok _ => s.launchCopy (copyOp s kind src dst a d track [g.id.crew])

/-- The crew of the grove on a core that holds a position, if there is one (R242, R316). -/
def State.crewAt (s : State) (ctx core pos : Nat) : Option Crew :=
  s.crews.find? fun c => c.ctx == ctx && c.core == core && c.pos == pos

/-- Receivers of a `cpym`, none when a selected core has no such crew (R242). -/
def State.receivers (s : State) (mask : Nat) : Option (List Crew) :=
  let me := s.crewOf s.cur
  let cores := ((upto 4).filter fun c => mask / 2 ^ c % 2 == 1).map fun c => me.core / 4 * 4 + c
  let found := cores.map fun k => s.crewAt me.ctx k me.pos
  if found.all Option.isSome then some (found.filterMap id) else none

/-- `cpym` (R242). Records of unequal extent or row count fault OPRANGE as R241 says of `cpy`: the model's choice (log 72). -/
def execCpym (o : FmtDAB) (s : State) : Host.Outcome State Fault Refusal :=
  runUnit serialUnit o.sw s fun s =>
    let g := s.cur
    let rs := recordRegs o.d.toNat 4 ++ recordRegs o.a.toNat 4 ++ [o.b.toNat]
    match g.checkOperands rs rs rs with
    | .error e => .error e
    | .ok _ =>
      let mask := (g.uni o.b.toNat).toNat
      match check (decide (mask < 16)) codeOpRange with
      | .error e => .error e
      | .ok _ =>
        if mask = 0 then .ok (done s)
        else match s.receivers mask with
          | none => .error (.fault codeOpRange)
          | some cs =>
            let d := g.record o.d.toNat
            let a := g.record o.a.toNat
            let bad := cs.find? fun c => match s.checkScratchRec c d with
              | .ok _ => false
              | .error _ => true
            match (match bad with
              | some c => s.checkScratchRec c d
              | none => .ok ()) with
            | .error e => .error e
            | .ok _ => match s.here.checkGlobalRec a permR with
              | .error e => .error e
              | .ok (src, _) => match check (d.extent == a.extent && d.rows == a.rows) codeOpRange with
                | .error e => .error e
                | .ok _ => s.launchCopy (copyOp s .multi src d.base a d false (cs.map fun c => c.rank))

/-! ## Rows -/

/-- The page of row r that stops a copy, if one has no mapping (R240). -/
def CopyOp.stopPage (c : CopyOp) (x : Context) (r : Nat) : Option Nat :=
  let src := if c.kind.fromGlobal then x.firstUnmapped (c.src + r * c.srcStride) c.extent else none
  match src with
  | some a => some a
  | none => if c.kind.toGlobal then x.firstUnmapped (c.dst + r * c.dstStride) c.extent else none

/-- The crew's state on its core is saved: a portion for it is owed until restore (R328). -/
def State.crewAway (s : State) (c : Crew) : Bool := (s.core c.core).saved.contains c.ctx

/-- Receivers of a `cpym` that are saved before their portion has landed get none of it: the copy becomes a fill of theirs
(R328). -/
def State.shedAway (s : State) (c : CopyOp) : State × CopyOp :=
  let away (rank : Nat) : Bool := c.kind == .multi && decide (c.rowsDone < c.rows) && s.crewAway (s.crew c.gang.ctx rank)
  let fill : Fill :=
    { src := c.src, srcStride := c.srcStride, dst := c.dst, dstStride := c.dstStride, extent := c.extent, rows := c.rows, core := c.core }
  ((c.crews.filter away).foldl (fun (s : State) rank => s.modCrew c.gang.ctx rank fun k => { k with fills := k.fills ++ [fill] }) s,
    { c with crews := c.crews.filter fun rank => !away rank })

/-- A row delivered to the receiving crews' scratch. -/
def State.deliverRow (s : State) (c : CopyOp) (r : Nat) (bytes : List Byte) : State :=
  c.crews.foldl (fun s rank => s.scratchWrite c.gang.ctx rank (c.dst + r * c.dstStride) bytes) s

/-- Moves row r: the source row is read in full, then written (R241). -/
def State.moveRow (s : State) (c : CopyOp) (r : Nat) : State :=
  let ctx := c.gang.ctx
  let from_ := c.src + r * c.srcStride
  let bytes := if c.kind.fromGlobal then s.engineRead ctx from_ c.extent
    else Memory.readBytes (s.crew ctx c.gang.crew).scratch from_ c.extent
  let s := s.count c.core ctx 13 ((c.extent + 63) / 64)
  if c.kind.toGlobal then
    let to_ := c.dst + r * c.dstStride
    let s := s.engineWriteRow c.id ctx to_ bytes
    if c.track then s.engineRaces [c.gang] c.sup c.ped c.act to_ c.extent else s
  else s.deliverRow c r bytes

def CoreSt.setCopy (k : CoreSt) (c : CopyOp) : CoreSt := { k with copies := updateWhere (fun d => d.id == c.id) (fun _ => c) k.copies }

/-- No earlier operation owns a line that row r reads or writes. -/
def State.rowTurn (s : State) (c : CopyOp) (r : Nat) : Bool :=
  (!c.kind.fromGlobal || s.rowFree c.gang.ctx c.id (c.src + r * c.srcStride) c.extent) &&
    (!c.kind.toGlobal || s.rowFree c.gang.ctx c.id (c.dst + r * c.dstStride) c.extent)

/-- Moves rows until one stops at a page or must wait for an earlier operation, or `n` are moved. A stopped crew's rows that
would wait for a page are discarded (R342). -/
def State.moveRows : Nat → State → CopyOp → State × CopyOp
  | 0, s, c => (s, c)
  | n + 1, s, c =>
    if c.rows ≤ c.rowsDone then (s, c)
    else match c.stopPage (s.ctx c.gang.ctx) c.rowsDone with
      | some ia =>
        let gone := c.sup || (s.crew c.gang.ctx c.gang.crew).stopped
        (s.enginePage c.gang c.sup c.act ia, { c with queued := !gone, stopAt := ia, finished := gone })
      | none =>
        if !s.rowTurn c c.rowsDone then (s, c) else
        let p := s.shedAway c
        State.moveRows n (p.1.moveRow p.2 c.rowsDone) { p.2 with rowsDone := c.rowsDone + 1 }

/-- A copy may move rows: it is one of the four in progress, not in a replay queue, and what its gang did before is
complete (R262, R284, R317). -/
def State.copyRuns (s : State) (k : CoreSt) (c : CopyOp) : Bool :=
  !c.finished && !c.queued && (k.copies.take Config.copySlots).any (fun d => d.id == c.id) &&
    match s.gang? c.gang with
    | some g => (c.rowsDone != 0 || s.engineClear g c.id) && s.queueOpen g
    | none => true

/-- The copy of an id at a core. -/
def CoreSt.copy? (k : CoreSt) (op : Nat) : Option CopyOp := k.copies.find? fun c => c.id == op

/-- One row of a copy in progress. -/
def State.copyRow (s : State) (core op : Nat) : Option State :=
  let k := s.core core
  match k.copy? op with
  | none => none
  | some c =>
    if !s.copyRuns k c || c.rows ≤ c.rowsDone then none
    else
      let r := State.moveRows 1 s c
      some (r.1.modCore core fun k => k.setCopy r.2)

/-- The copy leaves its engine: it is counted down on path 3. -/
def State.endCopy (s : State) (c : CopyOp) : State :=
  let s := s.modCore c.core fun k => { k with copies := k.copies.filter fun d => d.id != c.id }
  s.modGang c.gang fun g =>
    ({ g with flights := updateWhere (fun f => f.id == c.id) (fun f => { f with finished := true }) g.flights } : Gang).tidy

/-- COPY_COMPLETE (R241, R317): the remaining rows are written, or a page stops the copy. -/
def execCopyComplete (core op : Nat) (s : State) : Host.Outcome State Fault Refusal :=
  runEvent s (
    let k := s.core core
    match k.copy? op with
    | none => none
    | some c =>
      if !s.copyRuns k c then none
      else
        let r := State.moveRows (c.rows - c.rowsDone) s c
        if r.2.finished || r.2.rows ≤ r.2.rowsDone then some (r.1.endCopy r.2)
        else some (r.1.modCore core fun k => k.setCopy r.2))

end Sys2Proof.Machine
end

