-- ==== Sys2Proof/Machine/MatrixMath.lean ====
section
/-! DEFINITION. What the array computes: dot products rounded once (R87), three bf16 slices (R88), s signed 7-bit slices of
binary64 (R89, R90, R92), and where operands stand in records and registers (R311, R312). -/
namespace Sys2Proof.Machine

/-! ## Dot products (R87) -/

/-- The default NaN of fc, +0 under FINITE (R80, R87). -/
def matrixNan (fc : Fmt) (flags : BitVec 5) (snan : Bool) : FRes :=
  let n := defaultNan fc
  { bits := n.1, flags := if n.2 then flags ||| fxInvalid else flags, snan := snan }

/-- The sum of numbers as i 2^e, infinities and NaN left out. -/
def exactSum (vs : List Val) : Int × Int :=
  vs.foldl (fun acc v => match v with
    | .num s m e => dyadicAdd acc.1 acc.2 (signedInt s m) e
    | _ => acc) (0, 0)

/-- The sign of a zero sum: that of its terms when all are zeros of one sign, else by the mode (log 12). -/
def zeroTermsSign (mode : Nat) (vs : List Val) : Bool :=
  let allZero (s : Bool) : Bool := vs.all fun v => v == .zero s
  if allZero true then true else if allZero false then false else zeroSumSign mode

/-- C plus the sum of products, rounded once, under the special-value rules (R87). -/
def dotRes (fc : Fmt) (mode : Nat) (c : Val) (ps : List (Val × Val)) (inputs : List Val) : FRes :=
  let products := ps.map fun p => if p.1.isNan || p.2.isNan then none else mulVal p.1 p.2
  let sn := anySnan inputs
  let fl := snanFlag inputs
  let nan := inputs.any Val.isNan
  let zeroInf := (ps.zip products).any fun q => !q.1.1.isNan && !q.1.2.isNan && q.2.isNone
  let terms := c :: products.filterMap id
  let infs (s : Bool) : Bool := terms.any fun v => v == .inf s
  let clash := infs true && infs false
  let bad := if zeroInf || clash then fl ||| fxInvalid else fl
  if nan || zeroInf || clash then matrixNan fc bad sn
  else if infs true then finishOut fc mode [] (.inf true)
  else if infs false then finishOut fc mode [] (.inf false)
  else
    let r := exactSum terms
    finishOut fc mode [] (outOfInt r.1 r.2 (zeroTermsSign mode terms))

/-- The integer a value stands for. -/
def Val.toInt : Val → Int
  | .num s m _ => signedInt s m
  | _ => 0

/-- The INTEGER sum mod 2^32, without flags (R87). -/
def dotInt (c : Val) (ps : List (Val × Val)) : FRes :=
  let sum := ps.foldl (fun acc p => acc + p.1.toInt * p.2.toInt) c.toInt
  { bits := encInt 32 sum, flags := fxNone, snan := false }

/-- One element of `mma`. -/
def mmaElem (fc : Fmt) (mode : Nat) (c : Val) (row col : List Val) : FRes :=
  let ps := row.zip col
  if fc.p = 3 then dotInt c ps else dotRes fc mode c ps (c :: row ++ col)

/-! ## `mmas.f32` (R88) -/

/-- A finite value rounded toward zero to bf16. -/
def toBf16 : Val → Val
  | .num s m e => exact bf16 (rndRat bf16 s m 1 e rtz).1
  | v => v

/-- x - y of two finite values. -/
def subVal (x y : Val) : Val :=
  let r := exactSum [x, y.neg]
  if r.1 = 0 then .zero false else .num (decide (r.1 < 0)) r.1.natAbs r.2

/-- The three slices of a binary32 value. -/
def slices3 (x : Val) : Val × Val × Val :=
  match x with
  | .num _ _ _ =>
    let h := toBf16 x
    let r := subVal x h
    let m := toBf16 r
    (h, m, toBf16 (subVal r m))
  | v => (v, .zero false, .zero false)

/-- The six products of two sliced values, in R88's order. -/
def sixProducts (a b : Val × Val × Val) : List (Val × Val) :=
  [(a.1, b.1), (a.1, b.2.1), (a.2.1, b.1), (a.2.1, b.2.1), (a.1, b.2.2), (a.2.2, b.1)]

/-- One element of `mmas.f32`; `row` and `col` are already sliced. -/
def mmas32Elem (fc : Fmt) (mode : Nat) (c : Val) (row col : List (Val × Val × Val)) : FRes :=
  let ps := (row.zip col).flatMap fun p => sixProducts p.1 p.2
  dotRes fc mode c ps (c :: row.map (fun x => x.1) ++ col.map fun x => x.1)

/-! ## `mmas.s6` to `mmas.s8` (R89, R90) -/

/-- floor(log2 |x|) of a finite nonzero value. -/
def valLog2 : Val → Option Int
  | .num _ m e => some ((m.log2 : Int) + e)
  | _ => none

/-- ea of a row or column. -/
def scaleOf (xs : List Val) : Int :=
  match xs.filterMap valLog2 with
  | [] => 0
  | t :: r => r.foldl max t + 1

/-- Slices p to p + fuel - 1 of the remainder i 2^e. -/
def slicesFrom : Nat → Nat → Int → Int → List Int
  | 0, _, _, _ => []
  | fuel + 1, p, i, e =>
    let sc := ratShift i.natAbs 1 (e + 7 * p)
    let m : Int := min (roundInt sc.1 sc.2 rne false) 127
    let v := if i < 0 then -m else m
    let r := dyadicAdd i e (-v) (-7 * (p : Int))
    v :: slicesFrom fuel (p + 1) r.1 r.2

/-- The s slices of x 2^-ea. -/
def slicesOf (s : Nat) (ea : Int) : Val → List Int
  | .num sg m e => slicesFrom s 1 (signedInt sg m) (e - ea)
  | _ => List.replicate s 0

/-- S_ij times 2^(7(s + 1)): the pairs with p + q at most s + 1 (R90). -/
def sliceSum (s : Nat) (row col : List (List Int)) : Int :=
  (row.zip col).foldl (fun acc k =>
    (upto s).foldl (fun acc p => (upto (s - p)).foldl (fun acc q =>
      acc + k.1.getD p 0 * k.2.getD q 0 * 2 ^ (7 * (s - 1 - p - q))) acc) acc) 0

/-- A row or column of binary64 values with its scale and slices. -/
structure Sliced where
  vals : List Val
  scale : Int
  slices : List (List Int)

def sliced (s : Nat) (xs : List Val) : Sliced := { vals := xs, scale := scaleOf xs, slices := xs.map (slicesOf s (scaleOf xs)) }

/-- A value that is a number. -/
def Val.finite : Val → Bool
  | .num _ _ _ => true
  | .zero _ => true
  | _ => false

/-- One element of `mmas.s6`, `.s7`, `.s8` (R90, R92): always RNE. A sum S of 0 is the integer 0, which has no sign: it is taken
as +0, so that C = -0 gives +0 even where every product is -0 (log 12). -/
def mmasElem (s : Nat) (fc : Fmt) (c : Val) (row col : Sliced) : FRes :=
  if (c :: row.vals ++ col.vals).all Val.finite then
    let i := sliceSum s row.slices col.slices
    let v : Val := if i = 0 then .zero false else .num (decide (i < 0)) i.natAbs (row.scale + col.scale - 7 * (s + 1))
    finishOut fc rne [] (addOut rne c v)
  else dotRes fc rne c (row.vals.zip col.vals) (c :: row.vals ++ col.vals)

/-! ## Operands (R311, R312) -/

/-- Groups bytes into little-endian numbers of k bytes; `n` numbers. -/
def numbersOf (k : Nat) : Nat → List Byte → List Nat
  | 0, _ => []
  | n + 1, bytes => leNat (bytes.take k) :: numbersOf k n (bytes.drop k)

/-- Splits into n parts of k elements. -/
def partsOf {α : Type} (k : Nat) : Nat → List α → List (List α)
  | 0, _ => []
  | n + 1, l => l.take k :: partsOf k n (l.drop k)

/-- The word in a register of a quarter's B operand. -/
def bWord (b : List (List (List Word))) (q rho l : Nat) : Word := ((b.getD q []).getD rho []).getD l 0

/-- Bits of element B(k, j) where the entry has W = 16, 8, 32 or 64 (R312). -/
def bElem (b : List (List (List Word))) (w k j : Nat) : Nat :=
  let q := j / 16
  let c := j % 16
  match w with
  | 16 => bits (bWord b q (k / 16) (8 * (k % 16) + c / 2)).toNat (16 * (c % 2) + 15) (16 * (c % 2))
  | 8 => bits (bWord b q (k / 32) (4 * (k % 32) + c / 4)).toNat (8 * (c % 4) + 7) (8 * (c % 4))
  | 32 => (bWord b q (k / 8) (16 * (k % 8) + c)).toNat
  | _ => (pairOf (bWord b q (2 * (k / 8)) (16 * (k % 8) + c)) (bWord b q (2 * (k / 8) + 1) (16 * (k % 8) + c))).toNat

/-- The scale codes E0, E1 of block (q, c, h) of B (R243). -/
def bScale (b : List (List (List Word))) (j h : Nat) : Nat × Nat :=
  let q := j / 16
  let w := (bWord b q 2 ((32 * q + 2 * (j % 16) + h) % 128)).toNat
  (w % 256, w / 256 % 256)

/-- A BLOCK element under its codes (R84): the selector picks one. -/
def blockVal (elem : Nat) (codes : Nat × Nat) : Val := blockExact elem (if elem / 64 % 2 = 1 then codes.2 else codes.1)

/-- Rows of A under an entry of W bits, depth k, from the bytes of the record in row order. -/
def aRows (w k : Nat) (bytes : List Byte) : List (List Nat) := (partsOf (k * (w / 8)) 64 bytes).map (numbersOf (w / 8) k)

/-- Columns of B. -/
def bColumns (b : List (List (List Word))) (w k : Nat) : List (List Nat) :=
  (upto 64).map fun j => (upto k).map fun i => bElem b w i j

/-- Rows of a BLOCK A: 64 rows of 64 elements, then 256 B of codes (R243). -/
def aBlockRows (bytes : List Byte) : List (List Val) :=
  let codes := bytes.drop 4096
  ((upto 64).zip (aRows 8 64 bytes)).map fun p => ((upto 64).zip p.2).map fun e =>
    let b := 2 * p.1 + e.1 / 32
    blockVal e.2 ((codes.getD (2 * b) 0).toNat, (codes.getD (2 * b + 1) 0).toNat)

/-- Columns of a BLOCK B. -/
def bBlockColumns (b : List (List (List Word))) : List (List Val) :=
  (upto 64).map fun j => (upto 64).map fun k => blockVal (bElem b 8 k j) (bScale b j (k / 32))

end Sys2Proof.Machine
end

