-- ==== Sys2Proof/Machine/Matrix.lean ====
section
/-! DEFINITION. Matrix instructions at issue: `mma`, `mmas`, `mzero`, `mdrain`, `mfence`, `mwait` (R243 to R247, R303 to
R313, R344). -/
namespace Sys2Proof.Machine

/-! ## Tiles and queues (R306, R307) -/

/-- Tiles of a crew by its size (R307). -/
def tilesOf (size : Nat) : Nat := ([8, 4, 2, 1].find? fun t => decide (t * (16 / size) ≤ 16)).getD 1

/-- Bytes of a tile. -/
def tileBytes : Nat := 16384

/-- A tile number suits an entry of W bits (R307). -/
def tileFits (size w t : Nat) : Bool :=
  if w = 64 then t % 2 == 0 && decide (t + 1 < tilesOf size) else decide (t < tilesOf size)

/-- The core's matrix queue has room (R306); a peer-add that has left its tile holds no place. -/
def CoreSt.matRoom (k : CoreSt) : Bool :=
  decide ((k.mats.filter fun m => !m.finished && !m.sent).length < Config.matrixQueue)

/-- The operation joins its queue and the open batch of each gang that issued it (R247, R306). -/
def State.pushMat (s : State) (core : Nat) (m : MatOp) : State :=
  let s := s.modCore core fun k => { k with mats := k.mats ++ [m] }
  m.issuers.foldl (fun s id => s.modGang id fun g => { g with openBatch := g.openBatch ++ [m.id] }) s

/-! ## Entries (R76, R88, R89, R310) -/

/-- An entry of a gang's core. -/
def State.entryOf (s : State) (g : Gang) (ix : Nat) : Dword := (s.ctx g.id.ctx).formatAt (s.crewOf g).core ix

/-- An entry that accumulates (R76, R310). -/
def Fmt.forFc (f : Fmt) : Bool :=
  (f.isFloat && (f.w == 32 || f.w == 64)) || (f.isInt && f.w == 32 && f.s)

/-- The accepted combinations of `mma` (R310). -/
def mmaFormats (shape : Nat) (fa fb fc : Fmt) : Bool :=
  let acc := fc.isFloat && (fc.w == 32 || fc.w == 64)
  let float (w : Nat) (f : Fmt) : Bool := f.isFloat && f.w == w
  let int8 (f : Fmt) : Bool := f.isInt && f.w == 8
  match shape with
  | 0 => float 16 fa && float 16 fb && acc
  | 1 => (int8 fa && int8 fb && fc.isInt && fc.w == 32 && fc.s) || (float 8 fa && float 8 fb && acc)
  | _ => fa.isBlock && fb.isBlock && acc

/-- The entries that an operation of a kind names: a drain its source's and its destination's (R93, R246). -/
def MatKind.names (k : MatKind) (g : Gang) : List Nat :=
  match k with
  | .mma _ _ | .mmas _ _ | .mzero => [g.faIx, g.fbIx, g.fcIx]
  | .drainR | .drainS | .drainG | .drainP _ _ => [g.fcIx, g.fmtIx]

/-- An operation with what it captures from a gang at issue (R93, R304). -/
def matOp (s : State) (lead : Gang) (issuers : List GangId) (kind : MatKind) (tile : Nat) : MatOp :=
  { id := s.tick, kind := kind, ctx := lead.id.ctx, crew := lead.id.crew, issuers := issuers, tile := tile,
    fa := s.entryOf lead lead.faIx, fb := s.entryOf lead lead.fbIx, fc := s.entryOf lead lead.fcIx,
    fmt := s.entryOf lead lead.fmtIx, rnd := lead.rnd, ftrap := lead.enables, recd := [], ibase := 0, track := false,
    b := [], ped := lead.ped, act := lead.ctl.mask, started := false, aBytes := [], rowsDone := 0, queued := false,
    stopAt := 0, finished := false, sup := lead.supervisor, same := lead.fcIx == lead.fmtIx, sent := false,
    names := kind.names lead }

/-! ## `mma` and `mmas` -/

/-- One form of a collective matrix instruction: its word with S, and what R243 and R244 give each. -/
structure MatForm where
  unit : Word
  kind : MatKind
  tile : Nat
  a : Nat
  b : Nat
  /-- Registers per quarter, and a scale register after them. -/
  per : Nat
  scale : Bool
  /-- b is a multiple of this; the shape is one of R243's. -/
  align : Nat
  legal : Bool
  extent : Nat
  rows : Nat
  deriving DecidableEq, Repr

/-- Quarters that the gang at a position supplies (R312). -/
def quartersAt (c pos : Nat) : List Nat := (upto 4).filter fun q => q % c == pos

/-- The B registers of the gang of a rank (R243, R312). -/
def MatForm.bRegs (f : MatForm) (ranks : List Nat) (rank : Nat) : List Nat :=
  match ranks.idxOf? rank with
  | none => []
  | some p =>
    let n := (quartersAt ranks.length p).length
    recordRegs f.b (if n = 0 then 0 else n * f.per + if f.scale then 1 else 0)

/-- The entries of a captured operation, each with whether the form accepts it. -/
def MatForm.entries (f : MatForm) (m : MatOp) : List (Fmt × Bool) :=
  match f.kind with
  | .mma shape _ =>
    let ok := mmaFormats shape.toNat (fmtOf m.fa) (fmtOf m.fb) (fmtOf m.fc)
    [(fmtOf m.fa, ok), (fmtOf m.fb, ok), (fmtOf m.fc, ok)]
  | .mmas fn _ => [(fmtOf m.fc, m.fc == presetFormats.getD (if fn = 0 then 1 else 0) 0)]
  | _ => []

/-- The form rounds under the captured mode (R76, R90). -/
def MatForm.rounds (f : MatForm) : Bool :=
  match f.kind with
  | .mmas fn _ => fn == 0
  | _ => true

/-- The faults of the operation as a whole, in order (R304). -/
def State.matWhole (s : State) (f : MatForm) (m : MatOp) (r : Rec) : Try Unit :=
  let c := s.crewOf s.cur
  match checkFormats (f.entries m) (!f.rounds || decide (m.rnd.toNat ≤ 4)) with
  | .error e => .error e
  | .ok _ => match check (tileFits (s.ctx c.ctx).size (fmtOf m.fc).w f.tile) codeOpRange with
    | .error e => .error e
    | .ok _ => match s.checkScratchRec c r with
      | .error e => .error e
      | .ok _ => check (r.extent == f.extent && r.rows == f.rows) codeOpRange

/-- Field b of the unit at which a gang waits in the quorum. -/
def Gang.quorumB (g : Gang) : Nat :=
  match g.collective? with
  | some (.quorum u _) => (u.extractLsb' 3 7).toNat
  | _ => 0

/-- The B words of quarter q, from the gang that supplies it (R312). -/
def bWords (f : MatForm) (q : Nat) (gangs : List (Gang × Nat)) : List (List Word) :=
  match gangs[q % gangs.length]? with
  | none => []
  | some (g, b) =>
    let n := (quartersAt gangs.length (q % gangs.length)).length
    (recordRegs (b + f.per * (q / gangs.length)) f.per ++ if f.scale then [b + f.per * n] else []).map fun r => (g.val r).row

/-- Gangs of the crew that wait at the quorum, the issuing gang apart. -/
def State.quorumWaiters (s : State) : List (GangId × Collective) := (s.standing fun _ => true).filter fun p => p.2.isQuorum

/-- The gangs that waited at the quorum retire their units. -/
def State.passQuorum (s : State) : State :=
  s.quorumWaiters.foldl (fun s p => match s.gang? p.1 with
    | some g =>
      let sw := match p.2 with
        | .quorum u _ => u.getLsbD 31
        | _ => false
      (s.setGang (g.pass sw)).countOther g
    | none => s) s

/-- The operation issues: the quorum is complete (R304). -/
def State.issueMat (s : State) (f : MatForm) (ranks : List Nat) (r : Rec) : Try Done :=
  let g := s.cur
  let gangs := ranks.filterMap fun k =>
    if k = g.id.rank then some (g, f.b) else (s.gang? { g.id with rank := k }).map fun h => (h, h.quorumB)
  match gangs with
  | [] => .error (.fault codeMmaMatch)
  | (lead, _) :: _ =>
    let ids := gangs.map fun p => p.1.id
    let m := matOp s lead ids f.kind f.tile
    match s.matWhole f m r with
    | .error (.fault code) => .error (.collective code ids)
    | .error e => .error e
    | .ok _ => match await ((s.coreOf g).matRoom && gangs.all fun p => s.queueOpen p.1) with
      | .error e => .error e
      | .ok _ =>
        let m := { m with recd := [r.base, r.extent, r.stride, r.rows], b := (upto 4).map fun q => bWords f q gangs }
        .ok (done ((s.pushMat (s.crewOf g).core m).ticked.passQuorum))

/-- A collective matrix unit: the gang's own faults, the quorum, the issue (R243, R304, R305, R344). Field b names a register
also where its gang supplies no quarter (R51). -/
def matUnit (f : MatForm) (s : State) : Try Done :=
  let g := s.cur
  let ranks := s.here.quorumRanks
  let ra := recordRegs f.a 4
  let bs := f.bRegs ranks g.id.rank
  match check (f.legal && f.b % f.align == 0) codeIllegal with
  | .error e => .error e
  | .ok _ => match g.checkOperands (ra ++ f.b :: bs) ra (ra ++ bs) with
    | .error e => .error e
    | .ok _ =>
      let r := g.record f.a
      let w : Collective := .quorum f.unit (ra.map g.uni)
      if !ranks.contains g.id.rank then .error (.collective codeMmaMatch (s.meeting.map (fun p => p.1) ++ [g.id]))
      else
        let others := s.quorumWaiters
        if others.length + 1 = ranks.length ∧ others.all (fun p => w.fits p.2) then
          match s.issueMat f ranks r with
          | .error (.wait _) => .error (.wait (.collective w))
          | r => r
        else match s.checkMeeting w with
          | .error e => .error e
          | .ok _ => .error (.wait (.collective w))

/-- The form of `mma` (R243). -/
def mmaForm (o : FmtMma) (overwrite : Bool) (unit : Word) : MatForm :=
  { unit := unit, kind := .mma o.shape overwrite, tile := o.tile.toNat, a := o.a.toNat, b := o.b.toNat, per := 2,
    scale := o.shape == 2, align := 2, legal := decide (o.shape.toNat ≤ 2), extent := 64,
    rows := if o.shape = 2 then 68 else 64 }

/-- The form of `mmas` (R244). -/
def mmasForm (o : FmtMmas) (fn : BitVec 3) (unit : Word) : MatForm :=
  { unit := unit, kind := .mmas fn (o.o == 1), tile := o.tile.toNat, a := o.a.toNat, b := o.b.toNat,
    per := if fn = 0 then 2 else 4, scale := false, align := if fn = 0 then 2 else 4, legal := true,
    extent := if fn = 0 then 64 else 128, rows := 64 }

/-- The word of a matrix unit from its fields, as R243 and R244 lay it out. -/
def matWord (sw : Bool) (major : BitVec 7) (tile : BitVec 4) (sub : BitVec 3) (a b : BitVec 7) (fn : BitVec 3) : Word :=
  BitVec.ofBool sw ++ major ++ tile ++ sub ++ a ++ b ++ fn

/-- `mma` (R87, R243). -/
def execMma (o : FmtMma) (s : State) : Host.Outcome State Fault Refusal :=
  runUnit serialUnit o.sw s (matUnit (mmaForm o false (matWord o.sw 0x76 o.tile o.shape o.a o.b 0)))

/-- `mma.o` (R87, R243). -/
def execMmaO (o : FmtMma) (s : State) : Host.Outcome State Fault Refusal :=
  runUnit serialUnit o.sw s (matUnit (mmaForm o true (matWord o.sw 0x76 o.tile o.shape o.a o.b 1)))

/-- `mmas.f32` (R88, R244). -/
def execMmasF32 (o : FmtMmas) (s : State) : Host.Outcome State Fault Refusal :=
  runUnit serialUnit o.sw s (matUnit (mmasForm o 0 (matWord o.sw 0x77 o.tile (0#2 ++ o.o) o.a o.b 0)))

/-- `mmas.s6` (R89, R244). -/
def execMmasS6 (o : FmtMmas) (s : State) : Host.Outcome State Fault Refusal :=
  runUnit serialUnit o.sw s (matUnit (mmasForm o 1 (matWord o.sw 0x77 o.tile (0#2 ++ o.o) o.a o.b 1)))

/-- `mmas.s7` (R89, R244). -/
def execMmasS7 (o : FmtMmas) (s : State) : Host.Outcome State Fault Refusal :=
  runUnit serialUnit o.sw s (matUnit (mmasForm o 2 (matWord o.sw 0x77 o.tile (0#2 ++ o.o) o.a o.b 2)))

/-- `mmas.s8` (R89, R244). -/
def execMmasS8 (o : FmtMmas) (s : State) : Host.Outcome State Fault Refusal :=
  runUnit serialUnit o.sw s (matUnit (mmasForm o 3 (matWord o.sw 0x77 o.tile (0#2 ++ o.o) o.a o.b 3)))

/-! ## `mzero` and the drains -/

/-- Waits for room in the matrix queue, and in the replay queue of the gang (R261, R306). -/
def State.matWait (s : State) : Try Unit := await ((s.coreOf s.cur).matRoom && s.queueOpen s.cur)

/-- Queues an operation of the gang in issue alone. -/
def State.queueMat (s : State) (m : MatOp) : Try Done :=
  match s.matWait with
  | .error e => .error e
  | .ok _ => .ok (done (s.pushMat (s.crewOf s.cur).core m).ticked)

/-- `mzero` (R245). -/
def execMzero (o : FmtTile) (s : State) : Host.Outcome State Fault Refusal :=
  runUnit serialUnit o.sw s fun s =>
    let m := matOp s s.cur [s.cur.id] .mzero o.tile.toNat
    match checkFormats [(fmtOf m.fc, (fmtOf m.fc).forFc)] true with
    | .error e => .error e
    | .ok _ => match check (tileFits s.here.size (fmtOf m.fc).w o.tile.toNat) codeOpRange with
      | .error e => .error e
      | .ok _ => s.queueMat m

/-- What the drains through `$MODE.fmt` check of their entries (R76, R246). -/
def drainFormats (m : MatOp) : Try Unit :=
  checkFormats [(fmtOf m.fc, (fmtOf m.fc).forFc), (fmtOf m.fmt, decide ((fmtOf m.fmt).p ≤ 3))] (decide (m.rnd.toNat ≤ 4))

/-- `mdrain.r` (R246): the destinations are G and pending until written. -/
def execMdrainR (o : FmtTileB) (s : State) : Host.Outcome State Fault Refusal :=
  runUnit serialUnit o.sw s fun s =>
    let g := s.cur
    let m := matOp s g [g.id] .drainR o.tile.toNat
    let pair := (fmtOf m.fmt).w == 64
    let rs := recordRegs o.b.toNat (if pair then 64 else 32)
    match checkOdd pair [o.b.toNat] with
    | .error e => .error e
    | .ok _ => match g.checkRegs rs with
      | .error e => .error e
      | .ok _ => match drainFormats m with
        | .error e => .error e
        | .ok _ => match check (tileFits s.here.size (fmtOf m.fc).w o.tile.toNat) codeOpRange with
          | .error e => .error e
          | .ok _ => match s.matWait with
            | .error e => .error e
            | .ok _ => match g.awaitDest rs with
              | .error e => .error e
              | .ok _ => match s.launch { accessFlight s .drain 4 4 0 [] false with finished := false } rs with
                | .error e => .error e
                | .ok t => .ok (done (t.pushMat (s.crewOf g).core m))

/-- The record of a drain and its destination: the checks `mdrain.s` and `mdrain.g` share. -/
def recDrain (kind : MatKind) (tile : BitVec 4) (a : BitVec 7) (place : State → Rec → Try (Nat × Bool)) (s : State) : Try Done :=
  let g := s.cur
  let m := matOp s g [g.id] kind tile.toNat
  let ra := recordRegs a.toNat 4
  match g.checkRegs ra with
  | .error e => .error e
  | .ok _ => match drainFormats m with
    | .error e => .error e
    | .ok _ => match g.checkOperands ra ra ra with
      | .error e => .error e
      | .ok _ => match check (tileFits s.here.size (fmtOf m.fc).w tile.toNat) codeOpRange with
        | .error e => .error e
        | .ok _ =>
          let r := g.record a.toNat
          match place s r with
          | .error e => .error e
          | .ok (base, track) => match check (r.rows == 64 && r.extent == 8 * (fmtOf m.fmt).w) codeOpRange with
            | .error e => .error e
            | .ok _ => s.queueMat { m with recd := [r.base, r.extent, r.stride, r.rows], ibase := base, track := track }

/-- `mdrain.s` (R246). -/
def execMdrainS (o : FmtTileA) (s : State) : Host.Outcome State Fault Refusal :=
  runUnit serialUnit o.sw s (recDrain .drainS o.tile o.a fun s r =>
    match s.checkScratchRec (s.crewOf s.cur) r with
    | .error e => .error e
    | .ok _ => .ok (r.base, false))

/-- `mdrain.g` (R246). -/
def execMdrainG (o : FmtTileA) (s : State) : Host.Outcome State Fault Refusal :=
  runUnit serialUnit o.sw s (recDrain .drainG o.tile o.a fun s r =>
    match s.here.checkGlobalRec r permW with
    | .error e => .error e
    | .ok p => .ok (p.1, permits p.2.perm permTrack))

/-- `mdrain.p` (R246, R316): the peer is the crew of the same position on the named core of the device. -/
def execMdrainP (o : FmtTileA) (s : State) : Host.Outcome State Fault Refusal :=
  runUnit serialUnit o.sw s fun s =>
    let g := s.cur
    let c := s.crewOf g
    let ra := regsFor true o.a.toNat
    let lo := (g.uni o.a.toNat).toNat
    let hi := (g.uni (o.a.toNat + 1)).toNat
    let core := s.firstCore s.here.dev + lo
    let m := matOp s g [g.id] (.drainP core hi) o.tile.toNat
    let w := (fmtOf m.fc).w
    match g.checkRegs ra with
    | .error e => .error e
    | .ok _ => match checkFormats [(fmtOf m.fc, (fmtOf m.fc).forFc)] (decide (m.rnd.toNat ≤ 4)) with
      | .error e => .error e
      | .ok _ => match g.checkOperands ra ra ra with
        | .error e => .error e
        | .ok _ => match check (tileFits s.here.size w o.tile.toNat && decide (lo < s.devCores) && decide (hi < 16) &&
            tileFits s.here.size w hi && (s.crewAt c.ctx core c.pos).isSome) codeOpRange with
          | .error e => .error e
          | .ok _ => s.queueMat m

/-! ## Batches (R247) -/

/-- `mfence` (R247). -/
def execMfence (o : Sw) (s : State) : Host.Outcome State Fault Refusal :=
  runUnit serialUnit o.sw s fun s => .ok (done (s.modCur fun g =>
    { g with closed := g.closed ++ [{ num := g.mbatch, ops := g.openBatch }], openBatch := [], mbatch := g.mbatch + 1 }))

/-- `mwait` (R247, R314). -/
def execMwait (o : FmtB) (s : State) : Host.Outcome State Fault Refusal :=
  runUnit serialUnit o.sw s fun s =>
    let g := s.cur
    let rs := [o.b.toNat]
    match g.checkOperands rs rs rs with
    | .error e => .error e
    | .ok _ => s.cover (g.covered ((g.uni o.b.toNat).extractLsb' 0 8)) fun s => .ok (done s)

end Sys2Proof.Machine
end

