-- ==== Sys2Proof/Machine/SaveImages.lean ====
section
/-! DEFINITION. The image of a context save (R327): one core header, then a record for each crew with its fills, withdrawn
peer-adds, gang images, deque records, scratch and tiles. It is written to the task area as it is saved; the model restores from the state
that it was made of (log 9). -/
namespace Sys2Proof.Machine

/-! ## The collective of a crew (R326, R327) -/

/-- The code of a crew-collective wait; a wait at `cwt` is issued again after restore and records none (R326). -/
def Collective.saveCode : Collective → Nat
  | .cbar _ => 1
  | .carr _ => 2
  | .spawn _ _ | .join _ | .tdone _ => 3
  | .quorum _ _ => 4
  | .dafence _ => 5
  | .cwt _ => 0

/-- The collective that a crew record names: the one its gangs wait at, else an open barrier phase. -/
def collectiveCode (c : Crew) (gs : List Gang) : Nat :=
  match gs.findSome? fun g => g.collective?.filter fun w => w.saveCode != 0 with
  | some w => w.saveCode
  | none => if c.arrivals.isEmpty then 0 else 2

/-- A mask of gang ranks as a byte. -/
def rankByte (rs : List Nat) : Byte := rs.foldl (fun m r => m ||| (1#8 <<< r)) 0

/-- Gangs that have arrived at the collective of their crew. -/
def arrivalRanks (c : Crew) (gs : List Gang) (code : Nat) : List Nat :=
  let waiting := (gs.filter fun g => g.collective?.any fun w => w.saveCode == code).map fun g => g.id.rank
  if code = 1 ∨ code = 2 then c.arrivals ++ waiting else waiting

/-- The address of the collective unit: where the first gang waits, 0 when none waits (log 9). -/
def collectivePc (gs : List Gang) (code : Nat) : Pc :=
  ((gs.find? fun g => g.collective?.any fun w => w.saveCode == code).map fun g => g.toCollective.ctl.pc).getD 0

/-! ## A crew record (R327) -/

/-- An operand record (R239). -/
def recordBytes (base extent stride rows : Nat) : List Byte := leBytes 4 base ++ leBytes 4 extent ++ leBytes 4 stride ++ leBytes 4 rows

/-- A pending fill: destination record, source record, issuing core. The source is named in the first valid range that
holds it. -/
def Fill.image (c : Context) (f : Fill) : List Byte :=
  let from_ := (((upto c.ranges.length).zip c.ranges).find? fun p =>
    p.2.len != 0 && decide (p.2.ibase ≤ f.src) && decide (f.src < p.2.ibase + p.2.len)).map fun p => (p.1, p.2.ibase)
  let range := from_.getD (0, 0)
  recordBytes f.dst f.extent f.dstStride f.rows ++ recordBytes (f.src - range.2) f.extent f.srcStride (f.rows + 2 ^ 28 * range.1) ++
    leBytes 4 f.core ++ zeros 28

/-- A withdrawn peer-add: its header, then its tile (R308). -/
def MatOp.peerImage (m : MatOp) (rank : Nat) : List Byte :=
  let target : Nat × Nat := match m.kind with
    | .drainP core t => (core, t)
    | _ => (0, 0)
  leBytes 4 target.1 ++ leBytes 4 target.2 ++ leBytes 4 rank ++ leBytes 4 m.rnd.toNat ++ leBytes 8 m.fc.toNat ++ zeros 40 ++ m.aBytes

/-- Cells of a store moved up. -/
def shifted (off : Nat) (cells : List Host.Cell) : List Host.Cell := cells.map fun c => (c.1 + off, c.2)

/-- A crew record: its size and its cells from offset 0. -/
def State.crewImage (s : State) (w : Crew) : Nat × List Host.Cell :=
  let x := s.ctx w.ctx
  let gs := sortBy (fun a b => decide (a.id.rank < b.id.rank)) (s.crewGangs w.ctx w.rank)
  let adds := (s.core w.core).mats.filter fun m => m.ctx == w.ctx && m.crew == w.rank && m.sent
  let code := collectiveCode w gs
  let body := w.fills.flatMap (Fill.image x) ++ adds.flatMap (fun m => m.peerImage w.rank) ++
    (gs.filter fun g => !g.spilled).flatMap (fun g => padTo 64 (s.gangImage g false)) ++
    w.deque.flatMap x.recordImage
  let start := 0x100 + body.length
  let size := start + x.scratch + 16384 * tilesOf x.size
  let head := leBytes 4 w.rank ++ leBytes 1 x.size ++ leBytes 1 code ++ [rankByte (arrivalRanks w gs code),
      rankByte ((gs.filter fun g => g.spilled).map fun g => g.id.rank)] ++ leBytes 8 (collectivePc gs code).toNat ++
    leBytes 2 w.deque.length ++ leBytes 2 w.fills.length ++ leBytes 2 adds.length ++ leBytes 2 0 ++
    leBytes 8 size ++ w.peers.flatMap (leBytes 4) ++
    (upto 8).flatMap (fun r => match gs.find? fun g => g.id.rank == r with
      | some g => recvRecord s.tick g.recvs
      | none => zeros 16) ++ zeros 64
  (size, Memory.cellsFrom 0 (head ++ body) ++ shifted start w.scratch ++ shifted (start + x.scratch) w.tiles)

/-! ## The image of a core (R327) -/

/-- Crew records one after another. -/
def recordsFrom : Nat → List (Nat × List Host.Cell) → List Host.Cell
  | _, [] => []
  | at_, p :: rest => shifted at_ p.2 ++ recordsFrom (at_ + p.1) rest

/-- The image of a context's state on a core: its size and its cells. -/
def State.coreImage (s : State) (core ctx : Nat) : Nat × List Host.Cell :=
  let crews := sortBy (fun a b => decide (a.pos < b.pos)) (s.crews.filter fun c => c.ctx == ctx && c.core == core)
  let recs := crews.map s.crewImage
  let size := 64 + recs.foldl (fun n p => n + p.1) 0
  let head := leBytes 4 core ++ leBytes 4 crews.length ++ leBytes 8 size
  (size, Memory.cellsFrom 0 head ++ recordsFrom 64 recs)

/-- The task area takes the image (R27): its space is returned at the restore. -/
def State.keepCore (s : State) (core ctx : Nat) : State :=
  let img := s.coreImage core ctx
  (s.chargeAnyway ctx img.1).keepImage ctx (.save core) img.1 img.2

/-- The image is released. -/
def State.dropCore (s : State) (core ctx : Nat) : State :=
  (s.refund ctx ((s.ctx ctx).imageSize (.save core))).modCtx ctx fun c => c.discard (.save core)

end Sys2Proof.Machine
end

