-- ==== Sys2Proof/Machine/Status.lean ====
section
/-! DEFINITION. Mode and status words, special registers, the format table (R194 to R198, R218 to R220). -/
namespace Sys2Proof.Machine

/-- No variable-latency floating-point result is outstanding (R197). -/
def Gang.lateDone (g : Gang) : Bool :=
  g.flights.all fun f => f.finished || match f.op with
    | .late _ _ _ => false
    | _ => true

/-- `setmode` (R194). -/
def execSetmode (o : FmtAB) (s : State) : Host.Outcome State Fault Refusal :=
  runUnit serialUnit o.sw s fun s =>
    let rs := [o.a.toNat, o.b.toNat]
    match s.cur.checkOperands rs rs rs with
    | .error e => .error e
    | .ok _ => .ok (done (s.modCur fun g =>
        let m := g.uni o.b.toNat &&& 0x03FFFFFF#32
        { g with mode := (g.mode &&& ~~~m) ||| (g.uni o.a.toNat &&& m) }))

/-- `getmode` (R194). -/
def execGetmode (o : FmtD) (s : State) : Host.Outcome State Fault Refusal :=
  runUnit serialUnit o.sw s fun s => regUnit s o.d.toNat [] [] fun g => .u (s.modeWord g)

/-- `mfs` of these registers by a fragment is in serial-wait (R166). -/
def mfsSerial (num : Nat) : Bool := [5, 6, 7, 8, 9, 10, 11].contains num

/-- `mfs` (R195, R197). -/
def execMfs (o : FmtMfs) (s : State) : Host.Outcome State Fault Refusal :=
  runUnit { control with serial := mfsSerial o.num.toNat } o.sw s fun s =>
    let g := s.cur
    match g.checkRegs [o.d.toNat] with
    | .error e => .error e
    | .ok _ => match check (o.num.toNat != 16 || !s.here.strict) codeNonDet with
      | .error e => .error e
      | .ok _ => match await ((o.num.toNat != 7 && o.num.toNat != 8) || g.lateDone) with
        | .error e => .error e
        | .ok _ => regUnit s o.d.toNat [] [] fun g => .u (s.specialWord g o.num.toNat o.w.toNat)

/-- The bits of `$FAULT` that a write reaches: 63:44 and 15:12 read zero (R336). -/
def faultBits : BitVec 128 := ~~~(0xFFFFF#128 <<< 44 ||| 0xF#128 <<< 12)

/-- The gang after a write of word w of a special register (R196). -/
def Gang.writeSpecial (g : Gang) (num w : Nat) (v : Word) : Gang :=
  match num with
  | 5 => { g with mode := v &&& 0x03FFFFFF#32 }
  | 6 => { g with cc := v &&& 7#32 }
  | 7 => { g with fstat := v &&& 0x1F#32 }
  | 8 => { g with ftrap := v &&& 0x3F#32 }
  | 9 => { g with tmask := setWord g.tmask w v }
  | 10 => { g with faultRec := setWord g.faultRec w v &&& faultBits }
  | 11 => { g with rng := setWord g.rng w v }
  | _ => g

/-- `mts` (R196, R197): `$TMASK` and `$FAULT` only in supervisor mode. -/
def execMts (o : FmtMts) (s : State) : Host.Outcome State Fault Refusal :=
  runUnit { serialUnit with priv := o.num.toNat == 9 || o.num.toNat == 10 } o.sw s fun s =>
    let g := s.cur
    match g.checkOperands [o.a.toNat] [o.a.toNat] [o.a.toNat] with
    | .error e => .error e
    | .ok _ => match await ((o.num.toNat != 7 && o.num.toNat != 8) || g.lateDone) with
      | .error e => .error e
      | .ok _ => .ok (done (s.modCur fun g => g.writeSpecial o.num.toNat o.w.toNat (g.uni o.a.toNat)))

/-- `fclr` (R197, R198). -/
def execFclr (o : Sw) (s : State) : Host.Outcome State Fault Refusal :=
  runUnit serialUnit o.sw s fun s =>
    match await s.cur.lateDone with
    | .error e => .error e
    | .ok _ => .ok (done (s.modCur fun g => { g with fstat := g.fstat &&& ~~~(0x1F#32) }))

/-! ## The format table -/

/-- Cores on which a context has crews. -/
def State.coresOf (s : State) (ctx : Nat) : List Nat := distinct ((s.crews.filter fun c => c.ctx == ctx).map fun c => c.core)

/-- Updates a core has applied (R94). -/
def Context.seen (c : Context) (core : Nat) : Nat := ((c.fmtSeen.find? fun p => p.1 == core).map fun p => p.2).getD 0

def Context.setSeen (c : Context) (core n : Nat) : Context :=
  { c with fmtSeen := (core, n) :: c.fmtSeen.filter fun p => p.1 != core }

/-- Operations of a context that a core has issued and that name an entry have all retired (R94). -/
def State.entryFree (s : State) (ctx core ix : Nat) : Bool :=
  (s.gangs.all fun g => g.id.ctx != ctx || (s.crewOf g).core != core || g.flights.all fun f => f.finished || !f.names.contains ix) &&
    s.cores.all fun k => k.ix != core || k.mats.all fun m => m.ctx != ctx || m.finished || !m.names.contains ix

/-- The entries that a core has still to update, in hub order. -/
def Context.unseen (c : Context) (core : Nat) : List Nat := (c.fmtLog.drop (c.seen core)).map fun p => p.1

/-- `fmtset` (R94, R218): the hub takes the update, and the issuing core applies every update up to it, the core's earlier
operations that name the entries retiring first. Until they have, the hub does not have the update either: the model's choice
(log 80). -/
def execFmtset (o : FmtSet) (s : State) : Host.Outcome State Fault Refusal :=
  runUnit serialUnit o.sw s fun s =>
    let g := s.cur
    let rs := regsFor true o.a.toNat
    match g.checkOperands rs rs rs with
    | .error e => .error e
    | .ok _ =>
      let v := g.uniPair o.a.toNat
      match check (decide (8 ≤ o.i.toNat) && entryValid v) codeFmtBad with
      | .error e => .error e
      | .ok _ =>
        let core := (s.crewOf g).core
        match await ((o.i.toNat :: s.here.unseen core).all (s.entryFree g.id.ctx core)) with
        | .error e => .error e
        | .ok _ => .ok (done (s.modCtx g.id.ctx fun c =>
          let log := c.fmtLog ++ [(o.i.toNat, v, g.id)]
          ({ c with fmtLog := log } : Context).setSeen core log.length))

/-- `fmtget`: the entry as applied on the issuing core (R95, R219). -/
def execFmtget (o : FmtGet) (s : State) : Host.Outcome State Fault Refusal :=
  runUnit control o.sw s fun s =>
    let g := s.cur
    let rs := regsFor true o.d.toNat
    match g.checkRegs rs with
    | .error e => .error e
    | .ok _ =>
      if g.act = 0 then .ok (done s)
      else match g.awaitDest rs with
        | .error e => .error e
        | .ok _ =>
          let v := s.entry o.i.toNat
          match s.writeRegs g.act [(o.d.toNat, .u (v.extractLsb' 0 32)), (o.d.toNat + 1, .u (v.extractLsb' 32 32))] with
          | .error e => .error e
          | .ok s => .ok (done s)

/-- Number of hub updates up to the gang's last own `fmtset`. -/
def Context.lastSet (c : Context) (id : GangId) : Nat :=
  ((upto c.fmtLog.length).zip c.fmtLog).foldl (fun n p => if p.2.2.2 == id then p.1 + 1 else n) 0

/-- `fmtsync` (R94, R220). -/
def execFmtsync (o : Sw) (s : State) : Host.Outcome State Fault Refusal :=
  runUnit serialUnit o.sw s fun s =>
    let id := s.cur.id
    let c := s.ctx id.ctx
    match await ((s.coresOf id.ctx).all fun k => c.lastSet id ≤ c.seen k) with
    | .error e => .error e
    | .ok _ => .ok (done s)

/-- FMTSET_APPLY (R94): a core applies the next update it has not applied, once its operations that name the entry have
retired. -/
def execFmtsetApply (ctx core : Nat) (s : State) : Host.Outcome State Fault Refusal :=
  runEvent s (match s.ctx? ctx with
    | some c => if c.seen core < c.fmtLog.length ∧ ((c.unseen core).take 1).all (s.entryFree ctx core) then some (s.setCtx (c.setSeen core (c.seen core + 1))) else none
    | none => none)

end Sys2Proof.Machine
end

