-- ==== Sys2Proof/Machine/ContextEvents.lean ====
section
/-! DEFINITION. Contexts that share a core: priorities and readiness, quanta, pre-emption, save and restore (R95, R272, R291,
R325 to R329, R369). The image in the task area is that of SaveImages; what is restored is the state that it was made of
(log 9). -/
namespace Sys2Proof.Machine

/-! ## Priority and readiness (R325) -/

/-- Gangs of a context on a core. -/
def State.ctxGangs (s : State) (core ctx : Nat) : List Gang := s.gangs.filter fun g => g.id.ctx == ctx && (s.crewOf g).core == core

/-- Crews of a context on a core. -/
def State.ctxCrews (s : State) (core ctx : Nat) : List Crew := s.crews.filter fun c => c.ctx == ctx && c.core == core

/-- Effective priority of a context on a core. -/
def State.priority (s : State) (core ctx : Nat) : Nat :=
  let gs := s.ctxGangs core ctx
  let waits (q : Queue) : Bool := !q.msgs.isEmpty && gs.any fun g => g.recvs.any fun r => q.grove == some r.grove
  ((s.queues.filter fun q => q.ctx == ctx && waits q).map fun q => q.prio).foldl max (s.ctx ctx).prio

/-- A crew runs nothing and owes nothing. -/
def Crew.idle (c : Crew) : Bool := c.stopped || (c.task.isNone && c.taken.isNone && c.resuming.isNone && !c.folding)

/-- The results that the switch markers of a gang wait for, in whichever of its fragments. -/
def Gang.allMarks (g : Gang) : List Nat :=
  if g.parts.isEmpty then g.ctl.marks else g.parts.flatMap fun p => p.2.ctl.marks

/-- A gang waits in a blocking `mbrecv` on an empty queue, in each of its fragments that is not parked. -/
def State.waitsEmpty (s : State) (g : Gang) : Bool :=
  g.blocked && (g.recvs.filter fun r => g.allMarks.contains r.op).all fun r => match s.groveQueue g.id.ctx r.grove with
    | some q => q.msgs.isEmpty
    | none => true

/-- A context is ready on a core. -/
def State.readyOn (s : State) (core ctx : Nat) : Bool :=
  let idle := (s.ctxCrews core ctx).all Crew.idle &&
    s.crews.all fun c => c.ctx != ctx || (c.deque.isEmpty && c.overflow.isEmpty)
  !idle && !(s.ctxGangs core ctx).all s.waitsEmpty

/-- The saved context of a core that comes next: the highest effective priority, then the order of creation. -/
def State.bestSaved (s : State) (core : Nat) (ok : Nat → Bool) : Option Nat :=
  (sortBy (fun a b => decide (s.priority core b < s.priority core a) || (s.priority core a == s.priority core b && decide (a < b)))
    ((s.core core).saved.filter ok)).head?

/-- A device under quarantine takes no pre-emption and counts no quantum (R369). -/
def State.quarantinedCore (s : State) (core : Nat) : Bool := s.quarantined.any fun q => q.dev == core / s.devCores

/-! ## Quanta and pre-emption -/

/-- The next ready context of a priority after one, in order of creation, then from the first. -/
def State.nextInTurn (s : State) (core ctx : Nat) : Option Nat :=
  let eq := (s.core core).saved.filter fun c => s.readyOn core c && s.priority core c == s.priority core ctx
  let sorted := sortBy (fun a b => decide (a < b)) eq
  match sorted.find? fun c => decide (ctx < c) with
  | some c => some c
  | none => sorted.head?

/-- A pre-emption request: from here on the gangs halt at their boundaries (R326). -/
def State.requestSwitch (s : State) (core ctx : Nat) : State := s.modCore core fun k => { k with preempt := some ctx }

/-- A ready context of higher effective priority is there: it pre-empts at once (R325). -/
def State.outranked (s : State) (core here : Nat) : Bool :=
  (s.core core).saved.any fun c => s.readyOn core c && decide (s.priority core here < s.priority core c)

/-- QUANTUM_EXPIRY (R325): the core passes to a context of equal priority; one of higher priority pre-empts before. -/
def execQuantumExpiry (core : Nat) (s : State) : Host.Outcome State Fault Refusal :=
  runEvent s (
    let k := s.core core
    match k.resident with
    | none => none
    | some ctx =>
      if k.preempt.isSome || s.quarantinedCore core || k.units < Config.quantum || s.outranked core ctx then none
      else match s.nextInTurn core ctx with
        | some next => some (s.requestSwitch core next)
        | none => some (s.modCore core fun k => { k with units := 0 }))

/-- PREEMPTION (R325, R326). -/
def execPreemption (core ctx : Nat) (s : State) : Host.Outcome State Fault Refusal :=
  runEvent s (
    let k := s.core core
    match k.resident with
    | none => none
    | some here =>
      if k.preempt.isSome || s.quarantinedCore core || s.bestSaved core (s.readyOn core) != some ctx ||
          decide (s.priority core ctx ≤ s.priority core here) then none
      else some (s.requestSwitch core ctx))

/-! ## Save (R326 to R328) -/

/-- Every gang of the context has halted with nothing under way (R69, R326, R327, R328), and every core of the context has
applied the format updates (R95). -/
def State.maySave (s : State) (core ctx : Nat) : Bool :=
  let k := s.core core
  let c := s.ctx ctx
  (s.ctxGangs core ctx).all Gang.atRest &&
    (k.copies.all fun p => p.gang.ctx != ctx) &&
    (k.mats.all fun m => m.ctx != ctx || m.finished || s.peerStuck m) &&
    (s.coresOf ctx).all fun i => c.seen i == c.fmtLog.length

/-- A control stops before a unit that has not taken effect: it is issued again after restore (R326). -/
def Ctl.halted (c : Ctl) : Ctl :=
  match c.wait with
  | .rows _ _ _ | .queue _ _ _ | .retry => { c with wait := .ready }
  | _ => c

/-- A gang in its save image: a grant is given up, a spilled one resumes at its request after the restore too (R63). Rows that it has lent stay lent: the gangs that have them are saved too, and
hold them again after the restore (R329, R331). -/
def Gang.saved (g : Gang) : Gang :=
  let halt (e : Option Entry) : Option Entry := e.map fun e => { e with ctl := e.ctl.halted }
  let h := { g with away := true, chosen := false, grantRows := 0, grantCompact := 0, grantMade := false }
  if g.spilled then h else { h with ctl := g.ctl.halted, table := g.table.map halt }

/-- Takes a gang off its core: its rows and compact store go back; what it held from the emergency reserve is noted. -/
def State.saveGang (s : State) (id : GangId) : State :=
  match s.gang? id with
  | none => s
  | some g =>
    let s := s.release id g.heldRows g.heldCompact
    s.modGang id fun h =>
      { h.saved with emergRows := g.emergRows, emergCompact := g.emergCompact, savedAt := if g.spilled then g.savedAt else s.tick }

/-- Every held update that lies in an address record moves to its crew's overflow list, whether or not the area has room left
(R270, R272, log 59). -/
def Context.overflowHeld (c : Context) : Context :=
  let add (acc : List (Nat × Nat)) (h : HeldUpdate) : List (Nat × Nat) :=
    if h.outside || acc.contains (h.crew, h.dword) then acc else acc ++ [(h.crew, h.dword)]
  let keys := c.held.foldl add []
  keys.foldl (fun (c : Context) k =>
    let mine (h : HeldUpdate) : Bool := h.crew == k.1 && h.dword == k.2
    { c with
      held := c.held.map fun h => if mine h then { h with outside := true } else h
      overUsed := c.overUsed + 64 + 96 * (c.held.filter mine).length
      overflowed := c.overflowed ++ [k] }) c

/-- Every view of a core's crews moves to the task area, whether or not it has room left (R291, R327, log 59). -/
def State.saveViews (s : State) (core ctx : Nat) : State :=
  ((s.storeViews core).filter fun p => p.1 == ctx).foldl (fun (s : State) p =>
    (s.chargeAnyway ctx (s.bytesOf ctx p.2)).spillView ctx p.2) s

/-- Peer-adds of saved crews are withdrawn, with their element data kept (R328). -/
def State.withdrawPeers (s : State) (core ctx : Nat) : State :=
  let mine := (s.ctxCrews core ctx).map fun c => c.rank
  let back (p : PeerAdd) : PeerAdd :=
    if p.fromCtx == ctx && mine.contains p.fromCrew then { p with withdrawn := true, arrived := false } else p
  { s with peerAdds := s.peerAdds.map back }

/-- Copies under way that still owe a portion to a saved crew owe it a fill instead (R328). -/
def State.shedAll (s : State) : State :=
  (s.cores.flatMap fun k => k.copies).foldl (fun s c =>
    let r := s.shedAway c
    r.1.modCore c.core fun k => k.setCopy r.2) s

/-- CONTEXT_SAVE (R27, R272, R326 to R328); a device under quarantine makes none (R364, R369). -/
def execContextSave (core ctx : Nat) (s : State) : Host.Outcome State Fault Refusal :=
  runEvent s (
    let k := s.core core
    if k.resident != some ctx || k.preempt.isNone || s.quarantinedCore core || !s.maySave core ctx then none
    else
      let s := (s.syncCounters core s.freeIx).drawn
      let s := (s.ctxGangs core ctx).foldl (fun s g => s.saveGang g.id) s
      let s := (s.saveViews core ctx).modCtx ctx Context.overflowHeld
      let s := s.withdrawPeers core ctx
      let s := (s.modCore core fun k => { k with resident := none, saved := k.saved ++ [ctx], units := 0 }).shedAll
      some (s.keepCore core ctx))

/-! ## Restore (R329) -/

/-- Source rows of a fill are mapped. -/
def Fill.mapped (f : Fill) (c : Context) : Bool :=
  (upto f.rows).all fun r => (c.firstUnmapped (f.src + r * f.srcStride) f.extent).isNone

/-- A pending fill is reissued and completes: it reads its source as it stands. -/
def State.refill (s : State) (ctx rank : Nat) (f : Fill) : State :=
  (upto f.rows).foldl (fun (s : State) r =>
    let s := s.count f.core ctx 13 ((f.extent + 63) / 64)
    s.scratchWrite ctx rank (f.dst + r * f.dstStride) (s.engineRead ctx (f.src + r * f.srcStride) f.extent)) s

/-- A gang is back on its core with its frames; a spilled one stays spilled. -/
def State.restoreGang (s : State) (id : GangId) : State :=
  match s.gang? id with
  | none => s
  | some g =>
    let h : Gang := { (if g.spilled then g else g.agedTo s.tick) with away := false }
    let rows := h.heldRows - g.emergRows
    let compact := h.heldCompact - g.emergCompact
    let s := s.setGang h
    s.modCore (s.crewOf g).core fun k =>
      { k with
        pool := k.pool - rows, poolC := k.poolC - compact
        reserve := k.reserve - g.emergRows, reserveC := k.reserveC - g.emergCompact }

/-- Withdrawn peer-adds of restored crews are resent. -/
def State.resendPeers (s : State) (core ctx : Nat) : State :=
  let mine := (s.ctxCrews core ctx).map fun c => c.rank
  let again (p : PeerAdd) : PeerAdd := if p.fromCtx == ctx && mine.contains p.fromCrew then { p with withdrawn := false } else p
  { s with peerAdds := s.peerAdds.map again }

/-- The context that a core without a resident one restores: the one that pre-empted, else the best ready one, else the
best one. -/
def State.restoreChoice (s : State) (core : Nat) : Option Nat :=
  match (s.core core).preempt with
  | some c => some c
  | none => match s.bestSaved core (s.readyOn core) with
    | some c => some c
    | none => s.bestSaved core fun _ => true

/-- CONTEXT_RESTORE (R329): before any gang issues, fills are complete, receives count again, peer-adds are resent. The image is
released (R27), and the L1 loses the lines of ways that the context's scratch takes (R268). -/
def execContextRestore (core ctx : Nat) (s : State) : Host.Outcome State Fault Refusal :=
  runEvent s (
    let k := s.core core
    let crews := s.ctxCrews core ctx
    let c := s.ctx ctx
    if k.resident.isSome || s.quarantinedCore core || !k.saved.contains ctx || s.restoreChoice core != some ctx ||
        !(crews.all fun w => w.fills.all fun f => f.mapped c) then none
    else
      let s := (s.modCore core fun k =>
        { k with resident := some ctx, saved := k.saved.filter fun x => x != ctx, preempt := none, units := 0 }).trimL1 core
      let s := (s.dropCore core ctx).modCtx ctx fun x =>
        { x with capture := x.capture.map fun k => { k with awayAt := k.awayAt.filter fun i => i != core } }
      let s := (s.ctxGangs core ctx).foldl (fun s g => s.restoreGang g.id) s
      let s := crews.foldl (fun s w => w.fills.foldl (fun s f => s.refill ctx w.rank f) s) s
      let s := crews.foldl (fun s w => s.modCrew ctx w.rank fun w => { w with fills := [] }) s
      some (s.resendPeers core ctx))

end Sys2Proof.Machine
end

