-- ==== Sys2Proof/Machine/MatrixEngine.lean ====
section
/-! DEFINITION. What the array and the drains do: MATRIX_OP_START, MATRIX_OP_COMPLETE, PEER_ADD_ARRIVAL (R306, R308, R314
to R316). -/
namespace Sys2Proof.Machine

/-! ## Elements of a tile (R308) -/

/-- W of an operation's fc, in bits. -/
def MatOp.w (m : MatOp) : Nat := (fmtOf m.fc).w

/-- Bytes of the tile or tile pair an operation works on. -/
def MatOp.span (m : MatOp) : Nat := if m.w = 64 then 2 * tileBytes else tileBytes

/-- Tiles an operation reads or writes. -/
def MatOp.tiles (m : MatOp) : List Nat := if m.w = 64 then [m.tile, m.tile + 1] else [m.tile]

/-- Bytes of a tile of a crew. -/
def State.tileRead (s : State) (ctx crew t n : Nat) : List Byte := Memory.slice (s.crew ctx crew).tiles (tileBytes * t) n

def State.tileWrite (s : State) (ctx crew t : Nat) (bytes : List Byte) : State :=
  s.modCrew ctx crew fun c => { c with tiles := Memory.replace c.tiles (tileBytes * t) bytes }

/-- The 4,096 element encodings in the bytes of a tile of W bits, row after row. -/
def elements (w : Nat) (bytes : List Byte) : List Nat := numbersOf (w / 8) 4096 bytes

/-! ## Results with their traps (R314) -/

/-- Old and new encodings of the elements, the flags of those written, the trapped ones. -/
structure Outcomes where
  bits : List Nat
  flags : BitVec 5
  trapped : List Nat
  snan : Bool
  deriving DecidableEq, Repr

/-- Takes the results of the elements: a trapped one keeps its old bits. -/
def outcomes (en : BitVec 6) (old : List Nat) (res : List FRes) : Outcomes :=
  let rows := (upto res.length).zip (old.zip res)
  { bits := rows.map fun p => if p.2.2.traps en then p.2.1 else p.2.2.bits
    flags := rows.foldl (fun f p => if p.2.2.traps en then f else f ||| p.2.2.flags) 0
    trapped := (rows.filter fun p => p.2.2.traps en).map fun p => p.1
    snan := rows.any fun p => p.2.2.traps en && p.2.2.snan && en.getLsbD 5 }

/-- The map of rows that hold trapped elements (R336). -/
def Outcomes.rows (o : Outcomes) : Dword := o.trapped.foldl (fun m i => m ||| (1#64 <<< (i / 64))) 0

/-- Number of the batch of a gang that holds an operation. -/
def Gang.batchOf (g : Gang) (op : Nat) : BitVec 8 :=
  ((g.closed.find? fun b => b.ops.contains op).map fun b => b.num).getD g.mbatch

/-- What an operation still owes its gangs, at the first covering wait of each (R314). -/
def State.owe (s : State) (m : MatOp) (o : Outcomes) : State :=
  if o.flags = 0 ∧ o.trapped = [] then s
  else
    let due (g : Gang) : MatDue :=
      { op := m.id, batch := g.batchOf m.id, flags := o.flags, trapped := !o.trapped.isEmpty, snan := o.snan,
        refused := false, tile := BitVec.ofNat 4 m.tile, rows := o.rows, order := m.id }
    m.issuers.foldl (fun s id => s.modGang id fun g => { g with due := g.due ++ [due g] }) s

/-- The operation has left its queue. -/
def State.endMat (s : State) (core : Nat) (m : MatOp) : State :=
  s.modCore core fun k => { k with mats := k.mats.filter fun x => x.id != m.id }

def CoreSt.setMat (k : CoreSt) (m : MatOp) : CoreSt := { k with mats := updateWhere (fun x => x.id == m.id) (fun _ => m) k.mats }

def CoreSt.mat? (k : CoreSt) (op : Nat) : Option MatOp := k.mats.find? fun m => m.id == op

/-! ## Start (R284, R306) -/

/-- An earlier operation on a tile of the same crew is not finished with it. -/
def CoreSt.tileBusy (k : CoreSt) (m : MatOp) : Bool :=
  k.mats.any fun x => decide (x.id < m.id) && x.ctx == m.ctx && x.crew == m.crew && !x.finished && !x.sent &&
    x.tiles.any fun t => m.tiles.contains t

/-- What an operation reads when it starts: the rows of its A record, or the tile of a drain. -/
def State.matRead (s : State) (m : MatOp) : List Byte :=
  let rec_ (i : Nat) : Nat := m.recd.getD i 0
  match m.kind with
  | .mma _ _ | .mmas _ _ => (upto (rec_ 3)).flatMap fun r =>
      Memory.slice (s.crew m.ctx m.crew).scratch (rec_ 0 + r * rec_ 2) (rec_ 1)
  | .mzero => []
  | _ => s.tileRead m.ctx m.crew m.tile m.span

/-- An operation may start: its turn on its tiles, and what its gangs did before it is complete. -/
def State.matRuns (s : State) (k : CoreSt) (m : MatOp) : Bool :=
  !m.started && !m.finished && !m.queued && !k.tileBusy m && m.issuers.all fun id => match s.gang? id with
    | some g => s.engineClear g m.id
    | none => true

/-- MATRIX_OP_START (R306): the array reads the operands. -/
def execMatrixOpStart (core op : Nat) (s : State) : Host.Outcome State Fault Refusal :=
  runEvent s (
    let k := s.core core
    match k.mat? op with
    | none => none
    | some m =>
      if !s.matRuns k m then none
      else some ((s.modCore core fun k => k.setMat { m with started := true, aBytes := s.matRead m }).count core m.ctx 14 1))

/-! ## Products -/

/-- A in rows and B in columns, as values. -/
def mmaOperands (m : MatOp) (shape : Nat) : List (List Val) × List (List Val) :=
  if shape = 2 then (aBlockRows m.aBytes, bBlockColumns m.b)
  else
    let w := if shape = 0 then 16 else 8
    let k := if shape = 0 then 32 else 64
    ((aRows w k m.aBytes).map fun r => r.map (exact (fmtOf m.fa)), (bColumns m.b w k).map fun c => c.map (exact (fmtOf m.fb)))

/-- The results of all elements from those of a row and a column. -/
def product {α : Type} (rows cols : List α) (c : List Val) (f : Val → α → α → FRes) : List FRes :=
  ((rows.flatMap fun r => cols.map fun k => (r, k)).zip c).map fun p => f p.2 p.1.1 p.1.2

/-- The results of `mma` and `mmas` for C (R87 to R92). -/
def matResults (m : MatOp) (c : List Val) : List FRes :=
  let fc := fmtOf m.fc
  match m.kind with
  | .mma shape _ =>
    let p := mmaOperands m shape.toNat
    product p.1 p.2 c (mmaElem fc m.rnd.toNat)
  | .mmas fn _ =>
    if fn = 0 then
      let val (l : List Nat) : List (Val × Val × Val) := l.map fun x => slices3 (exact bin32 x)
      product ((aRows 32 16 m.aBytes).map val) ((bColumns m.b 32 16).map val) c (mmas32Elem fc m.rnd.toNat)
    else
      let n := 5 + fn.toNat
      let val (l : List Nat) : Sliced := sliced n (l.map (exact bin64))
      product ((aRows 64 16 m.aBytes).map val) ((bColumns m.b 64 16).map val) c (mmasElem n fc)
  | _ => []

/-- The operation overwrites (R87). -/
def MatOp.overwrites (m : MatOp) : Bool :=
  match m.kind with
  | .mma _ o => o
  | .mmas _ o => o
  | _ => false

/-- It resets the peer counters of its tiles: `mzero` and an overwriting `mma` (R316). -/
def MatOp.resets (m : MatOp) : Bool :=
  match m.kind with
  | .mma _ o => o
  | .mzero => true
  | _ => false

/-- Sets the peer counters of some tiles to 0. -/
def State.resetPeers (s : State) (m : MatOp) : State :=
  if m.resets then s.modCrew m.ctx m.crew fun c => { c with peers := m.tiles.foldl (fun l t => setAt l t 0) c.peers } else s

/-- `mma` and `mmas` write their tile. -/
def State.finishProduct (s : State) (m : MatOp) : State :=
  let old := elements m.w (s.tileRead m.ctx m.crew m.tile m.span)
  let c := if m.overwrites then old.map fun _ => Val.zero false else old.map (exact (fmtOf m.fc))
  let o := outcomes m.ftrap old (matResults m c)
  (s.tileWrite m.ctx m.crew m.tile (o.bits.flatMap (leBytes (m.w / 8)))).owe m o

/-! ## Drains (R246, R314) -/

/-- The converted elements i to i + n - 1 of a drain. -/
def drainPart (m : MatOp) (i n : Nat) : List FRes :=
  (numbersOf (m.w / 8) n (m.aBytes.drop (m.w / 8 * i))).map fun x =>
    convertBits (fmtOf m.fc) (fmtOf m.fmt) m.same x m.rnd.toNat

/-- Bytes of one destination row: trapped elements keep the old ones. -/
def drainRow (m : MatOp) (r : Nat) (old : List Byte) : List Byte :=
  let n := (fmtOf m.fmt).w / 8
  (outcomes m.ftrap (numbersOf n 64 old) (drainPart m (64 * r) 64)).bits.flatMap (leBytes n)

/-- What a drain owes its gang. -/
def State.oweDrain (s : State) (m : MatOp) : State :=
  let res := drainPart m 0 4096
  s.owe m (outcomes m.ftrap (res.map fun _ => 0) res)

/-- Lane values of the registers of a drain: register r holds rows 2r and 2r + 1. -/
def drainLanes (m : MatOp) (r : Nat) : List (Nat × Nat) :=
  (((upto 128).zip (drainPart m (128 * r) 128)).filter fun p => !p.2.traps m.ftrap).map fun p => (p.1, p.2.bits)

/-- `mdrain.r` writes its registers. -/
def State.finishDrainR (s : State) (m : MatOp) : State :=
  let wide := (fmtOf m.fmt).w = 64
  let land (g : Gang) (r : Nat) : Gang :=
    let vals := drainLanes m r
    let low := vals.map fun p => (p.1, BitVec.ofNat 32 p.2)
    if wide then (g.landLanes m.id (2 * r) low).landLanes m.id (2 * r + 1) (vals.map fun p => (p.1, BitVec.ofNat 32 (p.2 / 2 ^ 32)))
    else g.landLanes m.id r low
  let end_ (g : Gang) : Gang :=
    let g := (upto 32).foldl land g
    let g := { g with flights := updateWhere (fun f => f.id == m.id) (fun f => { f with finished := true }) g.flights }
    (g.landed m.id).tidy
  m.issuers.foldl (fun s id => s.modGang id end_) s

/-- `mdrain.s` writes its rows. -/
def State.finishDrainS (s : State) (m : MatOp) : State :=
  (upto 64).foldl (fun s r =>
    let a := m.recd.getD 0 0 + r * m.recd.getD 2 0
    s.scratchWrite m.ctx m.crew a (drainRow m r (Memory.readBytes (s.crew m.ctx m.crew).scratch a (m.recd.getD 1 0)))) s

/-- `mdrain.g` writes rows until a page stops it (R240) or a line is an earlier operation's (R284); the second part is the operation with its progress. -/
def State.drainRows : Nat → State → MatOp → State × MatOp
  | 0, s, m => (s, m)
  | n + 1, s, m =>
    if 64 ≤ m.rowsDone then (s, m)
    else
      let a := m.ibase + m.rowsDone * m.recd.getD 2 0
      let extent := m.recd.getD 1 0
      match (s.ctx m.ctx).firstUnmapped a extent with
      | some ia =>
        let gone := m.sup || (s.crew m.ctx m.crew).stopped
        let s := m.issuers.foldl (fun s id => s.enginePage id m.sup m.act ia) s
        (s, { m with queued := !gone, stopAt := ia, finished := gone })
      | none =>
        if !s.rowFree m.ctx m.id a extent then (s, m) else
        let s := s.engineWriteRow m.id m.ctx a (drainRow m m.rowsDone (s.engineRead m.ctx a extent))
        let s := if m.track then s.engineRaces m.issuers m.sup m.ped m.act a extent else s
        State.drainRows n s { m with rowsDone := m.rowsDone + 1 }

/-! ## Peer-adds (R316) -/

/-- A core and an operation of it that has left as a peer-add. -/
def State.sentMat? (s : State) (op : Nat) : Option (Nat × MatOp) :=
  s.cores.findSome? fun k => (k.mat? op).map fun m => (k.ix, m)

/-- The crew and the tile a peer-add goes to. -/
def State.peerTarget (s : State) (m : MatOp) : Option (Crew × Nat) :=
  match m.kind with
  | .drainP core t => (s.crewAt m.ctx core (s.crew m.ctx m.crew).pos).map fun c => (c, t)
  | _ => none

/-- One element of a peer-add: the sum under fc, mod 2^32 for an INTEGER fc. -/
def peerElem (m : MatOp) (peer own : Nat) : FRes :=
  if (fmtOf m.fc).isInt then { bits := (peer + own) % 2 ^ 32, flags := fxNone, snan := false }
  else faddBits (fmtOf m.fc) m.rnd.toNat peer own

/-- Applies a peer-add to its tile; the counter goes on to the next rank. -/
def State.applyPeer (s : State) (m : MatOp) (c : Crew) (t : Nat) : State :=
  let old := elements m.w (s.tileRead c.ctx c.rank t m.span)
  let o := outcomes m.ftrap old ((old.zip (elements m.w m.aBytes)).map fun p => peerElem m p.1 p.2)
  let s := s.tileWrite c.ctx c.rank t (o.bits.flatMap (leBytes (m.w / 8)))
  (s.modCrew c.ctx c.rank fun c => { c with peers := setAt c.peers t (m.crew + 1) }).owe m o

/-- A refused peer-add is discarded; its OPRANGE is due. -/
def State.refusePeer (s : State) (m : MatOp) : State :=
  let due (g : Gang) : MatDue :=
    { op := m.id, batch := g.batchOf m.id, flags := 0, trapped := false, snan := false, refused := true,
      tile := BitVec.ofNat 4 m.tile, rows := BitVec.allOnes 64, order := m.id }
  m.issuers.foldl (fun s id => s.modGang id fun g => { g with due := g.due ++ [due g] }) s

/-- The first peer-add in arrival order that has its turn. -/
def State.peerTurn (s : State) : Option (Nat × MatOp × Crew × Nat) :=
  (sortBy (fun a b => decide (a.order < b.order)) (s.peerAdds.filter fun p => p.arrived && !p.withdrawn)).findSome? fun p =>
    match s.sentMat? p.op with
    | none => none
    | some (core, m) => match s.peerTarget m with
      | none => none
      | some (c, t) => if m.crew ≤ c.peers.getD t 0 then some (core, m, c, t) else none

/-- Applies or refuses the held peer-adds whose turn has come, one after another; one that is applied is a drain completed
(R316, R347). -/
def State.settlePeers : Nat → State → State
  | 0, s => s
  | n + 1, s =>
    match s.peerTurn with
    | none => s
    | some (core, m, c, t) =>
      let s := { s with peerAdds := s.peerAdds.filter fun p => p.op != m.id }
      let s := if m.crew < c.peers.getD t 0 then s.refusePeer m else (s.applyPeer m c t).count core m.ctx 15 1
      State.settlePeers n (s.endMat core m)

/-- PEER_ADD_ARRIVAL (R316): it is queued in arrival order, and whatever may now be applied is. -/
def execPeerAddArrival (core op : Nat) (s : State) : Host.Outcome State Fault Refusal :=
  runEvent s (
    match s.peerAdds.find? fun p => p.op == op && !p.arrived && !p.withdrawn with
    | none => none
    | some _ => match (s.core core).mat? op with
      | none => none
      | some m => match s.peerTarget m with
        | none => none
        | some (c, _) =>
          if s.crewAway c then none
          else
            let adds := updateWhere (fun (p : PeerAdd) => p.op == op) (fun p => { p with arrived := true, order := s.tick }) s.peerAdds
            some (State.settlePeers s.peerAdds.length { s with peerAdds := adds }.ticked))

/-! ## Completion -/

/-- A drain is complete: it counts, and its queue place is free. -/
def State.endDrain (s : State) (core : Nat) (m : MatOp) : State := ((s.oweDrain m).endMat core m).count core m.ctx 15 1

/-- The results of a started operation. -/
def State.matFinish (s : State) (core : Nat) (m : MatOp) : State :=
  match m.kind with
  | .mma _ _ | .mmas _ _ =>
    let s := ((s.finishProduct m).resetPeers m).endMat core m
    State.settlePeers s.peerAdds.length s
  | .mzero =>
    let s := ((s.tileWrite m.ctx m.crew m.tile (List.replicate m.span 0)).resetPeers m).endMat core m
    State.settlePeers s.peerAdds.length s
  | .drainR => ((s.finishDrainR m).count core m.ctx 5 1).endDrain core m
  | .drainS => (s.finishDrainS m).endDrain core m
  | .drainG =>
    let r := State.drainRows 64 s m
    if r.2.finished || 64 ≤ r.2.rowsDone then r.1.endDrain core r.2
    else r.1.modCore core fun k => k.setMat r.2
  | .drainP _ _ =>
    let add : PeerAdd := { op := m.id, fromCtx := m.ctx, fromCrew := m.crew, arrived := false, withdrawn := false, order := 0 }
    let s := s.modCore core fun k => k.setMat { m with sent := true }
    { s with peerAdds := s.peerAdds ++ [add] }

/-- MATRIX_OP_COMPLETE (R314, R315, R347): an operation that has started writes its results; rows of a drain that wait for a page
wait for its gang's replay (R240, R262). -/
def execMatrixOpComplete (core op : Nat) (s : State) : Host.Outcome State Fault Refusal :=
  runEvent s (
    match (s.core core).mat? op with
    | none => none
    | some m =>
      let held := m.queued || (m.kind == .drainG && m.issuers.any fun id => match s.gang? id with
        | some g => !s.queueOpen g
        | none => false)
      if !m.started || m.sent || m.finished || held then none else some ((s.count core m.ctx 14 1).matFinish core m))

end Sys2Proof.Machine
end

