-- ==== Sys2Proof/Machine/System.lean ====
section
/-! DEFINITION. System instructions: `pmap`, `rrset`, `scratchcfg` (R249 to R251, R257, R268), and the page mappings that
they and the host's commands make (R360). -/
namespace Sys2Proof.Machine

/-! ## Pages (R249, R257, R260, R360) -/

/-- Bytes of a page-size code; the codes are 0 to 4. -/
def pageSize (code : Nat) : Nat :=
  match code with
  | 0 => 0x1000
  | 1 => 0x10000
  | 2 => 0x200000
  | 3 => 0x40000000
  | _ => 0x200000000

/-- A physical page in installed HBM4, within one spoke and outside its bitmap area. -/
def physicalOk (base size : Nat) : Bool :=
  decide (base + size ≤ 4 * Config.spokeBytes) && base / Config.spokeBytes == (base + size - 1) / Config.spokeBytes &&
    decide ((base + size - 1) % Config.spokeBytes < Config.spokeBytes - Config.bitmapBytes)

/-- A physical page lies, in whole or part, in a page of a pool: one on a list, or one that a snapshot holds. A page that a
mapping has taken may be shared (R249, R360). -/
def State.inPool (s : State) (base size : Nat) : Bool :=
  (s.pools.any fun p => overlaps p.base (pageSize p.size) base size) ||
    s.contexts.any fun c => match c.capture with
      | some cap => cap.snaps.any fun p => overlaps p.2 4096 base size
      | none => false

/-- Spokes that translate a part of a page (R259). -/
def pageSpokes (ia size : Nat) : List Nat := if size ≤ 0x200000 then [translatingSpoke ia] else [0, 1, 2, 3]

/-- A page is already validly mapped when one mapping covers all of it at every spoke concerned. -/
def Context.mapped (c : Context) (ia size : Nat) : Bool :=
  c.maps.any fun m => decide (m.ia ≤ ia) && decide (ia + size ≤ m.ia + m.size) && (pageSpokes ia size).all fun k => !m.gone.contains k

/-- The first free page of a size in a device's pool. -/
def State.poolHead (s : State) (dev code : Nat) : Option PoolPage := s.pools.find? fun p => p.dev == dev && p.size == code

/-- Installs a mapping for a context, or answers the fault of R249. -/
def State.installPage (s : State) (ctx : Nat) (ia ctl : Dword) : Except (BitVec 8) State :=
  let code := (ctl.extractLsb' 0 3).toNat
  let size := pageSize code
  let c := s.ctx ctx
  let add (s : State) (pa : Nat) (pooled : Bool) : State :=
    s.modCtx ctx fun c => { c with maps := c.maps ++ [{ ia := ia.toNat, size := size, pa := pa, pooled := pooled }] }
  if 4 < code ∨ ctl.extractLsb' 4 8 ≠ 0#8 ∨ ctl.extractLsb' 56 8 ≠ 0#8 then .error codeOpRange
  else if ia.toNat % size ≠ 0 then .error codeAlign
  else if 2 ^ 52 ≤ ia.toNat then .error codeOpRange
  else if c.mapped ia.toNat size then .ok s
  else if ctl.getLsbD 3 then
    match s.poolHead c.dev code with
    | none => .error codeQuota
    | some p => .ok (add { s with pools := s.pools.erase p } p.base true)
  else
    let pa := (ctl.extractLsb' 12 44).toNat * 4096
    if pa % size ≠ 0 then .error codeAlign
    else if physicalOk pa size ∧ ¬ s.inPool pa size then .ok (add s pa false)
    else .error codeOpRange

/-- `pmap` (R249). -/
def execPmap (o : FmtAB) (s : State) : Host.Outcome State Fault Refusal :=
  runUnit privUnit o.sw s fun s =>
    let g := s.cur
    let rs := regsFor true o.a.toNat ++ regsFor true o.b.toNat
    match g.checkOperands rs rs rs with
    | .error e => .error e
    | .ok _ => match s.installPage g.id.ctx (g.uniPair o.a.toNat) (g.uniPair o.b.toNat) with
      | .error code => .error (.fault code)
      | .ok s => .ok (done s)

/-! ## Range registers (R250, R255) -/

/-- The range that six words describe, none when they break R250. -/
def rangeOfWords (base len ibase : Dword) : Option Range :=
  let n := len.toNat / 4096 * 4096
  if base.extractLsb' 0 12 = 0#12 ∧ base.extractLsb' 57 7 = 0#7 ∧ len.extractLsb' 5 7 = 0#7 ∧
      ibase.extractLsb' 0 12 = 0#12 ∧ ibase.extractLsb' 52 12 = 0#12 ∧ ibase.toNat + n ≤ 2 ^ 52 then
    some { base := base.toNat, len := n, perm := len.extractLsb' 0 5, ibase := ibase.toNat }
  else none

/-- Two valid ranges share an address. -/
def Range.meets (a b : Range) : Bool := a.len != 0 && b.len != 0 && overlaps a.base a.len b.base b.len

/-- A range meets another valid one than register i. -/
def Context.rangeClash (c : Context) (i : Nat) (r : Range) : Bool :=
  ((upto c.ranges.length).zip c.ranges).any fun p => p.1 != i && p.2.meets r

/-- Writes a range register; the L1 lines of the context and the peer tables of its device are dropped (R264, R265). -/
def State.setRange (s : State) (ctx i : Nat) (r : Range) : State :=
  let dev := (s.ctx ctx).dev
  let s := (s.modCtx ctx fun c => { c with ranges := setAt c.ranges i r }).dropL1 fun l => l.ctx == ctx
  { s with peers := s.peers.filter fun p => p.dev != dev }

/-- A store of a gang of the context to a word that a range with X maps is on its way: fetches see it once `rrset` completes, so
`rrset` waits for it (R111). One in the replay queue takes its place at its replay (R278). -/
def State.codeStores (s : State) (ctx : Nat) (r : Range) : Bool :=
  permits r.perm permX && s.gangs.any fun g => g.id.ctx == ctx && g.flights.any fun f =>
    f.writes && !f.scratch && f.lanes.any fun l => l.st == .flying && decide (r.ibase ≤ l.addr) && decide (l.addr < r.ibase + r.len)

/-- `rrset` (R111, R250). A range that meets the task area is set like any other: the model's choice, R27 says that none covers it
and R250 names no fault for it (log 86). -/
def execRrset (o : FmtAB) (s : State) : Host.Outcome State Fault Refusal :=
  runUnit { serialUnit with priv := true } o.sw s fun s =>
    let g := s.cur
    let rs := o.a.toNat :: recordRegs o.b.toNat 6
    match g.checkOperands rs rs rs with
    | .error e => .error e
    | .ok _ =>
      let i := (g.uni o.a.toNat).toNat
      let pair (k : Nat) : Dword := g.uniPair (o.b.toNat + k)
      match rangeOfWords (pair 0) (pair 2) (pair 4) with
      | none => .error (.fault codeOpRange)
      | some r => match check (decide (i < 16) && !s.here.rangeClash i r) codeOpRange with
        | .error e => .error e
        | .ok _ => match await (!s.here.ranges[i]?.any fun old => s.codeStores g.id.ctx old) with
          | .error e => .error e
          | .ok _ => .ok (done (s.setRange g.id.ctx i r))

/-! ## Scratch ways (R251, R268) -/

/-- Sets the way mask of a context on a core. -/
def CoreSt.setWays (k : CoreSt) (ctx : Nat) (m : BitVec 16) : CoreSt :=
  { k with wayMasks := (ctx, m) :: k.wayMasks.filter fun p => p.1 != ctx }

/-- Bytes of one way. -/
def wayBytes : Nat := 32768

/-- The ways of a mask, ascending. -/
def waysOf (m : BitVec 16) : List Nat := (upto 16).filter fun i => m.getLsbD i

/-- Scratch way number k keeps its bytes where they are. -/
def wayStays (old new : BitVec 16) (k : Nat) : Bool :=
  match (waysOf old)[k]?, (waysOf new)[k]? with
  | some a, some b => a == b
  | _, _ => false

/-- The scratch ways whose bytes move or leave. -/
def waysLost (old new : BitVec 16) : List Nat := (upto (waysOf old).length).filter fun k => !wayStays old new k

/-- A copy that is not complete has a scratch source or destination in way k of a core, in whichever of its rows (R251). -/
def State.copyUses (s : State) (core : Nat) (c : CopyOp) (k : Nat) : Bool :=
  let meets (rank at_ stride : Nat) : Bool :=
    let cr := s.crew c.gang.ctx rank
    cr.core == core && rowsMeet (s.scratchBase cr + at_) stride c.extent 0 c.rows (wayBytes * k) wayBytes
  !c.finished && ((!c.kind.fromGlobal && meets c.gang.crew c.src c.srcStride) ||
    (!c.kind.toGlobal && c.crews.any fun r => meets r c.dst c.dstStride))

/-- A crew's scratch after its core's ways change: bytes of lost ways read zero. -/
def State.scratchAfter (s : State) (old new : BitVec 16) (c : Crew) : Crew :=
  let base := s.scratchBase c
  { c with scratch := c.scratch.filter fun b => wayStays old new ((base + b.1) / wayBytes) }

/-- `scratchcfg` (R251). -/
def execScratchcfg (o : FmtA) (s : State) : Host.Outcome State Fault Refusal :=
  runUnit { serialUnit with priv := true } o.sw s fun s =>
    let g := s.cur
    let rs := [o.a.toNat]
    match g.checkOperands rs rs rs with
    | .error e => .error e
    | .ok _ =>
      let w := g.uni o.a.toNat
      let k := s.coreOf g
      let new := w.extractLsb' 0 16
      match check (w.extractLsb' 16 16 == 0#16 && new != BitVec.allOnes 16) codeOpRange with
      | .error e => .error e
      | .ok _ =>
        let lost := waysLost (k.wayMask g.id.ctx) new
        match await (s.cores.all fun c => c.copies.all fun p => lost.all fun w => !s.copyUses k.ix p w) with
        | .error e => .error e
        | .ok _ =>
          let after (c : Crew) : Crew := 
            if c.core == k.ix && c.ctx == g.id.ctx then s.scratchAfter (k.wayMask g.id.ctx) new c else c
          let given := new &&& ~~~(k.wayMask g.id.ctx)
          let t := { s with crews := s.crews.map after }.dropL1 fun l => given != 0 && l.ofCore k.ix
          .ok (done ((t.modCore k.ix fun c => c.setWays g.id.ctx new).trimL1 k.ix))

end Sys2Proof.Machine
end

