-- ==== Sys2Proof/Machine/Tasks.lean ====
section
/-! DEFINITION. Tasks: records, `spawn`, `join`, `tdone`, `yield`, and the events that pop, steal, start, fold and resume
(R22 to R38, R143 to R147, R292 to R294, R301, R302). -/
namespace Sys2Proof.Machine

/-! ## Argument windows (R26) -/

/-- A trailing window register takes no word: it and every higher one are U 0. -/
def trailing : List RegVal → Bool
  | [] => true
  | v :: r => v == .u 0 && trailing r

/-- argmap codes and words of the window, none when it does not pack. -/
def packList : List RegVal → Option (List (BitVec 2) × List Word)
  | [] => some ([], [])
  | v :: r =>
    match packList r with
    | none => none
    | some (cs, ws) =>
      if trailing (v :: r) then some (2 :: cs, ws)
      else match v with
        | .u x => some (0 :: cs, x :: ws)
        | .a b st => some (1 :: cs, b :: st :: ws)
        | .g _ => none

/-- argmap and args of a record (R25, R26): none when a register is G or more than 8 words are needed. -/
def packArgs (win : List RegVal) : Option (BitVec 16 × List Word) :=
  match packList win with
  | none => none
  | some (cs, ws) =>
    if 8 < ws.length then none
    else
      let put (m : BitVec 16) (p : Nat × BitVec 2) : BitVec 16 := m ||| ((p.2.setWidth 16 : BitVec 16) <<< (2 * p.1))
      some (((upto 8).zip cs).foldl put 0#16, ws)

/-- The child's registers from argmap and args. -/
def unpackFrom (map : BitVec 16) : Nat → Nat → List Word → List RegVal
  | 0, _, _ => []
  | fuel + 1, i, ws =>
    match (map.extractLsb' (2 * i) 2).toNat with
    | 0 => .u (ws.headD 0) :: unpackFrom map fuel (i + 1) (ws.drop 1)
    | 1 => .a (ws.headD 0) (ws.getD 1 0) :: unpackFrom map fuel (i + 1) (ws.drop 2)
    | _ => .u 0 :: unpackFrom map fuel (i + 1) ws

def unpackArgs (map : BitVec 16) (ws : List Word) : List RegVal := unpackFrom map 8 0 ws

/-- Registers that hold values. -/
def asRegs (vs : List RegVal) : List Reg := vs.map fun v => { val := v, pend := none }

/-- The window: the top eight registers of the top frame (R64). -/
def Gang.window (g : Gang) : List Reg := g.regs.drop (g.regs.length - 8)

/-! ## Crews -/

/-- Changes the gangs of a crew. -/
def State.modCrewGangs (s : State) (ctx crew : Nat) (f : Gang → Gang) : State :=
  s.mapGangs fun g => if g.id.ctx == ctx && g.id.crew == crew then f g else g

/-- The crew of the gang in issue. -/
def State.myCrew (s : State) : Crew := s.crewOf s.cur

/-- Changes the crew of the gang in issue. -/
def State.modMyCrew (s : State) (f : Crew → Crew) : State := s.setCrew (f s.myCrew)

/-- The lead gang, rank 0 (R23). -/
def State.lead (s : State) : Gang := (s.gang? { s.cur.id with rank := 0 }).getD s.cur

/-! ## Spawn (R143, R144) -/

/-- The parent's last element advances and its stream is re-keyed (R144). -/
def Gang.advanced (seed : Dword) (flat : Bool) (g : Gang) : Gang :=
  let d := pedDepth g.ped
  let e := pedLast g.ped
  let p := setElem g.ped d (mkPos (posJ e) (posK e + 1))
  { g with ped := if flat then setHeader p d true else p, rng := rekey seed p }

/-- Makes room in a crew's full deque: the 16 oldest records go to the overflow list, 128 B each (R27); `pay` charges the
task area for them. -/
def State.makeDequeRoom (pay : State → Nat → Nat → Try State) (c : Crew) (s : State) : Try State :=
  if c.deque.length < 32 * (s.ctx c.ctx).size then .ok s
  else match pay s c.ctx (16 * 128) with
    | .error e => .error e
    | .ok s => .ok (s.setCrew { c with deque := c.deque.drop 16, overflow := c.overflow ++ c.deque.take 16 })

/-- The block's join record, created at its first spawn for 64 B (R27, R144). -/
def State.openBlock (s : State) : Try (State × Nat) :=
  let c := s.myCrew
  let t := c.task.getD emptyTask
  match t.block with
  | some id => .ok (s, id)
  | none =>
    match s.charge c.ctx 64 with
    | .error e => .error e
    | .ok s =>
      let id := s.tick
      let j : JoinRec := { id := id, addr := (s.ctx c.ctx).freshAddr 64, unfinished := 0, finals := [], suspended := none, folded := false, flags := 0, result := [] }
      let s := s.ticked.modCtx c.ctx fun x => { x with joins := x.joins ++ [j] }
      .ok (s.setCrew { c with task := some { t with block := some id } }, id)

/-- The child's pedigree (R32). -/
def childPed (p : BitVec 512) : BitVec 512 := setElem (setHeader p (pedDepth p + 1) false) (pedDepth p + 1) 0

/-- Pushes the child's record (R144). -/
def State.pushRecord (s : State) (block : Nat) (target : Pc) (nf gf : BitVec 4) (map : BitVec 16) (ws : List Word) : State :=
  let c := s.myCrew
  let t := c.task.getD emptyTask
  let ped := childPed s.lead.ped
  let mark := (s.here.plan.find? fun p => pedMatch p.ped ped).map fun p => p.thief
  let r : TaskRec :=
    { flags := 0, ped := ped, entry := target, join := some block, nf := nf, gf := gf, segment := t.spawned + 1, argmap := map,
      args := ws, mark := mark, lineage := t.lineage ++ [t.id], id := s.tick }
  let s := s.ticked.modCtx c.ctx fun x =>
    match x.joinRec? block with
    | some j => x.setJoin { j with unfinished := j.unfinished + 1 }
    | none => x
  let s := s.setCrew { c with deque := c.deque ++ [r], task := some { t with spawned := t.spawned + 1 } }
  s.countHere 16 1

/-- A gang enters a flattened invocation that its crew has completed (R34, R144). Its request was admitted at the spawn, so it
waits also where its role has been given less since. -/
def enterFlat (fc : FlatCall) (s : State) : Try Done :=
  match s.draw (demandRows fc.gf) (demandCompact fc.nf) with
  | .error (.fault _) => .error (.wait (.rows (demandRows fc.gf) (demandCompact fc.nf) s.tick))
  | .error e => .error e
  | .ok s =>
    let f := { newFrame (s.cur.ctl.pc + 4) fc.nf fc.gf with flattened := true }
    let left := fc.todo.filter fun r => r != s.cur.id.rank
    let s := s.modMyCrew fun c => { c with flat := if left.isEmpty then none else some { fc with todo := left } }
    .ok (jumped (s.modCur fun g => g.pushApart f (asRegs fc.args)) fc.target)

/-- A flattened spawn that is complete for the crew: the gang in issue enters at once or waits for its rows. -/
def startFlat (fc : FlatCall) (s : State) : Done :=
  match enterFlat fc s with
  | .ok d => d
  | .error (.wait w) => { done s.ticked with hold := some w }
  | .error _ => { done s with hold := some .retry }

/-- The collective part of `spawn` and `spawnr`: every gang of the crew has arrived (R143 items 2 to 4, R144). A flattened one
whose frame some gang's role could never hold does not issue (R58, R136, log 76). -/
def spawnAll (sw : Bool) (w : Collective) (target : Pc) (nf gf : BitVec 4) (s : State) : Try Done :=
  let lead := s.lead
  let win := lead.window
  match packArgs (win.map fun r => r.val) with
  | none => .error (s.failCrew codeSpawnArg)
  | some (map, ws) =>
    if posK (pedLast lead.ped) = 1023 then .error (s.failCrew codePedRank)
    else if win.any fun r => r.pend.isSome then .error (s.failCrew codeHazard)
    else if !s.crewAll Gang.accessesDone then .error (.wait (.collective w))
    else if pedDepth lead.ped = 31 ∧ !s.crewAll (fun g => decide (g.held + demandRows gf ≤ s.quotaRows g)) then
      .error (s.failCrew codeQuota)
    else
      let seed := s.here.seed
      let id := s.cur.id
      if pedDepth lead.ped = 31 then
        let fc : FlatCall :=
          { pc := s.cur.ctl.pc, target := target, nf := nf, gf := gf, args := unpackArgs map ws,
            todo := (s.crewGangs id.ctx id.crew).map fun g => g.id.rank }
        let s := s.meeting.foldl (fun s p => s.modGang p.1 fun g =>
          let h := g.toCollective
          ({ h with ctl := { h.ctl with wait := .ready } } : Gang).saveFrag) s
        let s := s.modCrewGangs id.ctx id.crew (Gang.advanced seed true)
        .ok (startFlat fc (s.modMyCrew fun c => { c with flat := some fc }))
      else match s.makeDequeRoom State.charge s.myCrew with
        | .error _ => .error (s.failCrew codeQuota)
        | .ok s1 => match s1.openBlock with
          | .error _ => .error (s.failCrew codeQuota)
          | .ok (s2, block) =>
            let s := s2.pushRecord block target nf gf map ws
            .ok (done ((s.modCrewGangs id.ctx id.crew (Gang.advanced seed false)).passOthers sw))

/-- `spawn` and `spawnr` once the gang's own checks are done. -/
def spawnUnit (sw : Bool) (opcode : BitVec 7) (target : Pc) (nf gf : BitVec 4) (s : State) : Try Done :=
  let g := s.cur
  let w : Collective := .spawn g.ctl.pc opcode
  match s.myCrew.flat with
  | some fc =>
    if fc.pc = g.ctl.pc ∧ fc.todo.contains g.id.rank then enterFlat fc s
    else match s.meet w with
      | .error e => .error e
      | .ok _ => spawnAll sw w target nf gf s
  | none =>
    match s.meet w with
    | .error e => .error e
    | .ok _ => spawnAll sw w target nf gf s

/-- `spawn` (R143, R144): only the lead's demand is checked, before serial-wait (R58). -/
def execSpawn (o : FmtCall) (s : State) : Host.Outcome State Fault Refusal :=
  runChecked serialUnit o.sw (fun s => check (s.cur.id.rank != 0 || fieldsOk o.n o.g) codeFrameDem) s fun s =>
    spawnUnit o.sw 0x0B (farTarget s.cur.ctl.pc o.off) o.n o.g s

/-- The lead's target and demand of a `spawnr`; the other gangs' registers are only named. -/
def State.spawnrOperands (s : State) (o : FmtAB) : Try (Pc × Word) :=
  let lead := s.lead
  let known : Pc × Word := ((lead.uniPair o.a.toNat).setWidth 57, lead.uni o.b.toNat)
  if s.cur.id.rank = 0 then s.cur.farOperands o.a o.b
  else match s.cur.checkRegs (regsFor true o.a.toNat ++ [o.b.toNat]) with
    | .error e => .error e
    | .ok _ => .ok known

/-- `spawnr` (R143, R144): every gang names the same registers, since it issues the same word. -/
def execSpawnr (o : FmtAB) (s : State) : Host.Outcome State Fault Refusal :=
  runChecked serialUnit o.sw (fun s => (s.spawnrOperands o).map fun _ => ()) s fun s =>
    match s.spawnrOperands o with
    | .error e => .error e
    | .ok (t, w) => spawnUnit o.sw 0x0C t (w.extractLsb' 0 4) (w.extractLsb' 4 4) s

/-! ## Blocks (R36, R292) -/

/-- Bytes of the task area that the spilled views of some segments take (R27). -/
def Context.spilledBytes (c : Context) (segs : List Segment) : Nat :=
  (segs.flatMap fun g => g.views.filter fun v => v.spilled).foldl
    (fun n v => n + ((c.reducer? v.id).map Reducer.viewBytes).getD 0) 0

/-- The task after its block has been folded: no block, and the folded views as its new seg0. -/
def Task.closed (t : Task) (views : List View) : Task :=
  { t with block := none, spawned := 0, segs := if views.isEmpty then [] else [{ num := 0, views := views }] }

/-- Views under new stamps. -/
def freshViews (since : Nat) (vs : List View) : List View :=
  ((upto vs.length).zip vs).map fun p => { p.2 with spilled := false, since := since + p.1 }

/-- Puts folded views into the view store of a crew's core as its task's seg0, one after another, with room made for each
(R291, R292). -/
def State.placeViews (pay : State → Nat → Nat → Try State) (ctx rank : Nat) : List View → State → Try State
  | [], s => .ok s
  | v :: rest, s =>
    match State.makeRoomBy pay 2048 s (s.crew ctx rank).core (s.bytesOf ctx v) with
    | .error e => .error e
    | .ok s =>
      State.placeViews pay ctx rank rest (s.modCrew ctx rank fun c => { c with task := c.task.map fun t => t.setView v })

/-- Folds the complete block of a running task (R292) and returns its join record's space: the state, the flags. -/
def State.closeBlock (s : State) (ctx rank : Nat) : Try (State × BitVec 5) :=
  let c := s.ctx ctx
  let cr := s.crew ctx rank
  match cr.task with
  | none => .ok (s, 0)
  | some t =>
    match t.block.bind c.joinRec? with
    | none => .ok (s.setCrew { cr with task := some (t.closed (t.segs.flatMap fun g => g.views)) }, 0)
    | some j =>
      let f := c.foldBlock t.segs j.finals t.spawned
      let freed := 64 + c.spilledBytes t.segs
      let s := (s.setCtx { c with joins := c.joins.filter fun k => k.id != j.id }).refund ctx freed
      let s := { s.setCrew { cr with task := some (t.closed []) } with tick := s.tick + 64 }
      match State.placeViews State.charge ctx rank (freshViews (s.tick - 64) f.1) s with
      | .error e => .error e
      | .ok s => .ok (s, f.2)

/-- The gangs' registers when a `join` completes (R145, R292). -/
def Gang.joined (seed : Dword) (flags : BitVec 5) (g : Gang) : Gang :=
  let d := pedDepth g.ped
  let p := setElem g.ped d (mkPos (posJ (pedLast g.ped) + 1) 0)
  ({ g with ped := p, rng := rekey seed p } : Gang).raise flags

/-- Tiles read zero and peer counters are 0 (R309). -/
def Crew.zeroTiles (c : Crew) : Crew := { c with tiles := [], peers := List.replicate 8 0 }

/-! ## Suspension (R37, R69) -/

/-- A gang in its slot before a task starts there: what belongs to the slot stays (R248, R234). -/
def Gang.fresh (g : Gang) : Gang := { emptyGang with id := g.id, live := true, lastArr := g.lastArr, datomSeq := g.datomSeq }

/-- An idle gang in its slot: no frame, nothing under way; its masks and special registers hold until the next task starts. -/
def Gang.vacant (g : Gang) : Gang :=
  { g.fresh with
    masks := g.masks, ped := g.ped, mode := g.mode, cc := g.cc, fstat := g.fstat, ftrap := g.ftrap, tmask := g.tmask,
    faultRec := g.faultRec, rng := g.rng, sig := g.sig, mbatch := g.mbatch }

/-- Empties the slots of a crew and returns what its gangs held. -/
def State.vacate (s : State) (ctx rank : Nat) : State :=
  let s := (s.crewGangs ctx rank).foldl (fun s g => s.release g.id g.heldRows g.heldCompact) s
  s.modCrewGangs ctx rank Gang.vacant

/-- A gang as a suspension saves it: a `join` is done with when the task goes on, a `tdone` is issued again. -/
def Gang.suspended (atDone sw : Bool) (g : Gang) : Gang :=
  let h := g.toCollective
  if atDone then ({ h with ctl := { h.ctl with wait := .ready } } : Gang).saveFrag
  else
    ({ h with
      ctl := h.ctl.passed (if sw then h.outstanding else [])
      retired := if h.supervisor then h.retired else h.retired + 1 } : Gang).saveFrag

/-- Suspends the task of the crew in issue (R37): the images of its gangs go to the task area, one after another by rank,
and their address into the join record. A block that waits for its fold alone is resumed by its own crew (log 68). -/
def State.suspendTask (s : State) (block : Nat) (atDone sw : Bool) : Try State :=
  let id := s.cur.id
  let gangs := sortBy (fun a b => decide (a.id.rank < b.id.rank)) (s.crewGangs id.ctx id.crew)
  let size := gangs.foldl (fun n g => n + g.areaBytes) 0
  match s.charge id.ctx size with
  | .error e => .error e
  | .ok s =>
    let bytes := gangs.flatMap fun g => padTo 64 (s.gangImage g true)
    let p : Suspended :=
      { gangs := gangs.map fun g => { g.suspended atDone sw with savedAt := s.tick }, task := s.myCrew.task.getD emptyTask, crew := id.crew, size := size,
        addr := s.here.freshAddr size, atDone := atDone }
    let left := (s.here.joinRec? block).map fun j => j.unfinished
    let s := s.modCtx id.ctx fun c => match c.joinRec? block with
      | some j => c.setJoin { j with suspended := some p }
      | none => c
    let s := s.keepImage id.ctx (.suspension block) size (Memory.cellsFrom 0 bytes)
    let s := (s.vacate id.ctx id.crew).modCrew id.ctx id.crew fun c =>
      ({ c with task := none, slowFold := false, resuming := if left = some 0 then some block else none } : Crew).zeroTiles
    .ok (s.count (s.crew id.ctx id.crew).core id.ctx 19 1)

/-- The join record of the open block, when its children are not all complete or its fold is not finished (R37). -/
def State.openJoin (s : State) : Option JoinRec :=
  match (s.myCrew.task.bind fun t => t.block).bind s.here.joinRec? with
  | some j => if j.unfinished = 0 ∧ !s.myCrew.slowFold then none else some j
  | none => none

/-- The fold of a crew's open block will not be finished when its next `join` looks (R37). -/
def State.slowFold (s : State) (ctx crew : Nat) : State :=
  if (s.crew ctx crew).task.any fun t => t.block.isSome then s.modCrew ctx crew fun c => { c with slowFold := true } else s

/-- Suspends once every gang of the crew is at rest, waiting at the collective until then. A `join` that suspends is counted
as a unit of each gang where it suspends; a `tdone` where it ends (R347, log 3). -/
def suspendAt (w : Collective) (j : JoinRec) (atDone sw : Bool) (s : State) : Try Done :=
  if !s.crewAll Gang.atRest then .ok { done s with hold := some (.collective w) }
  else
    let others := s.meeting
    match s.suspendTask j.id atDone sw with
    | .error _ => .error (s.failCrew codeQuota)
    | .ok s =>
      if atDone then .ok { done s with hold := some .ready }
      else .ok { done (others.foldl (fun s p => (s.gang? p.1).elim s s.countOther) s) with moved := true }

/-! ## `join` (R145) -/

/-- The collective part of `join`. In a flattened invocation it completes at once; the tiles and the peer counters are zero
after every `join` that completes (R34, R145, R309). -/
def joinAll (sw : Bool) (w : Collective) (s : State) : Try Done :=
  let id := s.cur.id
  if pedF s.lead.ped then .ok (done ((s.modMyCrew Crew.zeroTiles).passOthers sw))
  else match s.openJoin with
    | some j => suspendAt w j false sw s
    | none => match s.closeBlock id.ctx id.crew with
      | .error _ => .error (s.failCrew codeQuota)
      | .ok (s, flags) =>
        let s := s.modCrewGangs id.ctx id.crew (Gang.joined s.here.seed flags)
        let s := (s.modMyCrew Crew.zeroTiles).acquire s.cur 5
        .ok (done (s.passOthers sw))

/-- PEDRANK of a `join`, before any other effect (R33): each gang of the crew finds it by itself, since all have the same
`$PED`. R33 and R145 give it to every `join` whose last element has j = 63, R34 and R145 let one in a flattened invocation
complete at once: F decides first, and such a `join` completes (log 26). -/
def joinCheck (s : State) : Try Unit := check (pedF s.cur.ped || posJ (pedLast s.cur.ped) != 63) codePedRank

/-- `join` (R145, R309, R314). -/
def execJoin (o : Sw) (s : State) : Host.Outcome State Fault Refusal :=
  runChecked serialUnit o.sw joinCheck s fun s => s.cover s.cur.allOps fun s =>
    let w : Collective := .join s.cur.ctl.pc
    match s.meet w with
    | .error (.wait _) => .ok { done s with hold := some (.collective w) }
    | .error e => .error e
    | .ok _ => joinAll o.sw w s

/-! ## `tdone` (R146) -/

/-- A frame that `tdone` would leave is a handler's: that of the invocation it leaves as `ret` does, or any of the task's (R34,
R139, R340). -/
def Gang.tdoneInHandler (g : Gang) : Bool :=
  (if pedF g.ped then g.frames.take 1 else g.frames).any fun f => f.handler

/-- `tdone` in a flattened invocation acts as `ret` (R34). -/
def flatReturn (s : State) : Try Done :=
  let g := s.cur
  match g.frames with
  | f :: _ :: _ =>
    match await (!pendingIn [f] (!f.flattened)) with
    | .error e => .error e
    | .ok _ => .ok (jumped ((s.popFrame g.id).modCur Gang.clearFlat) f.ret)
  | _ => .error (.fault codeUnwind)

/-- Ranks whose folds count as applied, from n on (R302). -/
def skipAbsent (absent : List Nat) : Nat → Nat → Nat
  | 0, n => n
  | fuel + 1, n => if absent.contains n then skipAbsent absent fuel (n + 1) else n

/-- A root strand without a view: its fold is absent (R302). -/
def Context.addAbsent (c : Context) (rank : Nat) : Context :=
  if rank < c.folded ∨ c.absent.contains rank then c
  else
    let absent := c.absent ++ [rank]
    { c with absent := absent, folded := skipAbsent absent (absent.length + 1) c.folded }

/-- The final views of a task: those of its current segment (R291). -/
def Task.finals (t : Task) : List View := ((t.segs.find? fun g => g.num == t.spawned).map fun g => g.views).getD []

/-- Ends a child: its final views go to the parent's join record, whose count falls; when it was the last child of a
suspended block, this crew resumes the block (R37, R38, R291). -/
def State.completeChild (s : State) (ctx rank join : Nat) (t : Task) : State :=
  let c := s.ctx ctx
  match c.joinRec? join with
  | none => s
  | some j =>
    let views := t.finals.map fun v => ({ v with spilled := false } : View)
    let fin := if views.isEmpty then j.finals else j.finals ++ [{ num := t.segment, views := views }]
    let j : JoinRec := { j with unfinished := j.unfinished - 1, finals := fin }
    let s := (s.setCtx (c.setJoin j)).refund ctx (c.spilledBytes t.segs)
    if j.unfinished = 0 ∧ j.suspended.isSome then s.modCrew ctx rank fun c => { c with resuming := some j.id } else s

/-- The end of a task: signatures, the parent, the frames (R146, R352). -/
def State.endTask (s : State) (t : Task) : State :=
  let id := s.cur.id
  let s := s.modCrewGangs id.ctx id.crew fun g => g.addSig (BitVec.ofNat 64 g.retired) 4
  let total := (s.crewGangs id.ctx id.crew).foldl (fun n g => n + g.sig) 0#64
  let s := s.modCtx id.ctx fun c => { c with capture := c.capture.map fun k => { k with sig := k.sig + total } }
  let s := match t.join with
    | some j => s.completeChild id.ctx id.crew j t
    | none => s.modCtx id.ctx fun c => c.addAbsent t.rootOf
  let s := s.meeting.foldl (fun s p => match s.gang? p.1 with
    | some g => s.countOther g
    | none => s) s
  (s.vacate id.ctx id.crew).modCrew id.ctx id.crew fun c => { c with task := none, folding := false }

/-- What stands between a task whose implicit join is done and its end: results under way and faults not yet taken (R146,
R338), a capture pass that ends with it (R351), its own root fold (R294). -/
def finishTask (w : Collective) (s : State) : Try Done :=
  let id := s.cur.id
  match s.myCrew.task with
  | none => .ok { done s with moved := true }
  | some t =>
    if !s.crewAll (fun g => g.idle && g.pend.isEmpty) then .ok { done s with hold := some (.collective w) }
    else match s.here.capture with
      | some k =>
        if k.task = t.id then
          let s := s.modCtx id.ctx fun c => { c with capture := some { k with ended := true } }
          .ok { done s with hold := some (.collective w) }
        else .ok { done (s.endTask t) with moved := true }
      | none =>
        if t.root ∧ !t.finals.isEmpty then
          .ok { done (s.modMyCrew fun c => { c with folding := true }) with hold := some (.collective w) }
        else .ok { done (s.endTask t) with moved := true }

/-- The collective part of `tdone`: the implicit join, which does not advance j (R32, R146). -/
def tdoneAll (w : Collective) (s : State) : Try Done :=
  let id := s.cur.id
  match s.openJoin with
  | some j => suspendAt w j true false s
  | none =>
    if (s.myCrew.task.bind fun t => t.block).isSome then
      match s.closeBlock id.ctx id.crew with
      | .error _ => .error (s.failCrew codeQuota)
      | .ok (s, flags) => finishTask w ((s.modCrewGangs id.ctx id.crew fun g => g.raise flags).acquire s.cur 5)
    else finishTask w s

/-- `tdone` (R146, R34, R44, R340). -/
def execTdone (o : Sw) (s : State) : Host.Outcome State Fault Refusal :=
  runUnit control o.sw s fun s =>
    let g := s.cur
    match check (!g.tdoneInHandler && !g.splitInTop 1) codeUnwind with
    | .error e => .error e
    | .ok _ =>
      if pedF g.ped then flatReturn s
      else s.cover g.allOps fun s =>
        let w : Collective := .tdone s.cur.ctl.pc
        match s.meet w with
        | .error (.wait _) => .ok { done s with hold := some (.collective w) }
        | .error e => .error e
        | .ok _ => tdoneAll w s

/-- `yield` has no architectural effect; the other gangs have their turn (R147, R323, log 1). -/
def execYield (o : Sw) (s : State) : Host.Outcome State Fault Refusal :=
  runUnit control o.sw s fun s => .ok (done { s with streak := Config.turnUnits })

/-! ## Task start (R22, R57, R60, R295, R309) -/

/-- A gang at the start of a task; it waits for its frame. -/
def Gang.starting (g : Gang) (c : Context) (entry : Pc) (ped : BitVec 512) (nf gf : BitVec 4) (args : List RegVal)
    (since : Nat) : Gang :=
  let v := g.fresh
  let f : Frame := newFrame 0 nf gf
  { v.pushApart f (asRegs args) with
    ctl := { emptyCtl with pc := entry, wait := .taskFrame (demandRows gf) (demandCompact nf) since }
    ped := ped, mode := c.mode, ftrap := c.ftrap, rng := rekey c.seed ped, emergRows := 0 }

/-- Grants a gang that waits for its task's frames their rows and compact store, when the pool and its role allow it
(R60, R61). -/
def State.letIn (s : State) (id : GangId) : State :=
  match s.gang? id with
  | none => s
  | some g =>
    match g.ctl.wait with
    | .taskFrame rows compact since =>
      let c := s.coreOf g
      if rows ≤ c.pool ∧ compact ≤ c.poolC ∧ s.headroom g rows ∧ ¬ s.bypasses g since then
        (s.setCore { c with pool := c.pool - rows, poolC := c.poolC - compact }).setGang
          { g with ctl := { g.ctl with wait := .ready } }
      else s
    | _ => s

/-- Starts a task on a crew; a gang whose share of the frame can never be granted stops the crew, and no frame exists (R60,
R342). -/
def State.startTask (s : State) (ctx rank : Nat) (t : Task) (ped : BitVec 512) (nf gf : BitVec 4) (args : List RegVal) :
    State :=
  let c := s.ctx ctx
  let s := s.modCrew ctx rank fun k => ({ k with task := some t, taken := none } : Crew).zeroTiles
  let s := s.modCrewGangs ctx rank fun g => g.starting c t.entry ped nf gf args s.tick
  let s := s.ticked
  let gangs := sortBy (fun a b => decide (a.id.rank < b.id.rank)) (s.crewGangs ctx rank)
  match gangs.find? fun g => decide (s.quotaRows g < demandRows gf) with
  | some g =>
    let none_ (g : Gang) : Gang := { g with frames := [], ctl := { g.ctl with wait := .ready } }
    (s.modCrewGangs ctx rank none_).stopOn g.id (faultRecord (unitFault codeQuota allLanes t.entry false)) allLanes t.entry
  | none =>
    let s := match gangs with
      | g :: _ => s.acquire g 5
      | [] => s
    gangs.foldl (fun s g => s.letIn g.id) s

/-- A crew can take work: its context is resident on its core, it runs and owes nothing (R28). -/
def State.crewFree (s : State) (c : Crew) : Bool :=
  !c.stopped && c.task.isNone && c.taken.isNone && c.resuming.isNone && !c.folding &&
    (s.core c.core).resident == some c.ctx && (s.core c.core).preempt.isNone &&
    !s.quarantined.any fun q => q.dev == (s.ctx c.ctx).dev

/-- During a capture only records descended from the issuing task are taken (R349). -/
def Context.mayRun (c : Context) (r : TaskRec) : Bool :=
  match c.capture with
  | some k => r.lineage.contains k.task
  | none => true

/-- A record the owner's pops may take (R301). -/
def Context.mayPop (c : Context) (r : TaskRec) : Bool := r.mark.isNone && c.mayRun r

/-- A record a thief may take (R301). -/
def Context.maySteal (c : Context) (thief : Nat) (r : TaskRec) : Bool :=
  c.mayRun r && match r.mark with
    | some k => k == thief
    | none => !c.exclusive

/-- POP (R27): the owner takes the newest record it may take. -/
def execPop (ctx crew : Nat) (s : State) : Host.Outcome State Fault Refusal :=
  runEvent s (
    let c := s.crew ctx crew
    let x := s.ctx ctx
    if !s.crewFree c then none
    else match c.deque.reverse.find? x.mayPop with
      | some r => some (s.setCrew { c with deque := c.deque.erase r, taken := some r })
      | none => match c.overflow.reverse.find? x.mayPop with
          | some r => some ((s.setCrew { c with overflow := c.overflow.erase r, taken := some r }).refund ctx 128)
          | none => none)

/-- Search level of a victim (R28). -/
def stealLevel (a b : Nat) : Nat :=
  if a = b then 0 else if clusterOf a = clusterOf b then 1 else if stackOf a = stackOf b then 2 else 3

/-- The oldest record of a victim that a thief may take; the owner itself takes only what is marked for it (R301). -/
def State.stealable (s : State) (thief : Nat) (v : Crew) : Option TaskRec :=
  let x := s.ctx v.ctx
  (v.overflow ++ v.deque).find? fun r => x.maySteal thief r && (v.rank != thief || r.mark == some thief)

/-- The thief has no other work: its deque holds nothing but records marked for itself (R28, R301). -/
def Crew.idleFor (c : Crew) : Bool := (c.overflow ++ c.deque).all fun r => r.mark == some c.rank

/-- STEAL (R28, R301): from the nearest level that holds a record the thief may take; a probe that finds none counts. -/
def execSteal (ctx thief victim : Nat) (s : State) : Host.Outcome State Fault Refusal :=
  runEvent s (
    let t := s.crew ctx thief
    let v := s.crew ctx victim
    let near := s.crews.any fun w => w.ctx == ctx && (w.rank != thief || victim == thief) &&
      decide (stealLevel t.core w.core < stealLevel t.core v.core) && (s.stealable thief w).isSome
    if !s.crewFree t || !t.idleFor || near || !s.crews.any (fun w => w.ctx == ctx && w.rank == victim) then none
    else match s.stealable thief v with
      | none => if victim = thief then none else some (s.count t.core ctx 18 1)
      | some r =>
        let isOut := v.overflow.contains r
        let s := s.setCrew { v with deque := v.deque.erase r, overflow := v.overflow.erase r }
        let s := if isOut then s.refund ctx 128 else s
        some ((s.modCrew ctx thief fun c => { c with taken := some r }).count t.core ctx 17 1))

/-- TASK_START (R22, R60, R295). -/
def execTaskStart (ctx crew : Nat) (s : State) : Host.Outcome State Fault Refusal :=
  runEvent s (
    let c := s.crew ctx crew
    match c.taken with
    | none => none
    | some r =>
      if c.stopped || (s.core c.core).resident != some ctx || !(s.ctx ctx).mayRun r then none
      else
        let t : Task :=
          { emptyTask with
            root := r.join.isNone, rootOf := (pedElem r.ped 1).toNat, join := r.join, segment := r.segment, entry := r.entry,
            id := r.id, lineage := r.lineage }
        some (s.startTask ctx crew t r.ped r.nf r.gf (unpackArgs r.argmap r.args)))

/-! ## Folds and resumption -/

/-- BLOCK_FOLD (R292): the block of a suspended task whose children are complete. -/
def execBlockFold (ctx join : Nat) (s : State) : Host.Outcome State Fault Refusal :=
  runEvent s (
    let c := s.ctx ctx
    match c.joinRec? join with
    | none => none
    | some j => match j.suspended with
      | none => none
      | some p =>
        if j.unfinished ≠ 0 ∨ j.folded then none
        else
          let f := c.foldBlock p.task.segs j.finals p.task.spawned
          let freed := c.spilledBytes p.task.segs
          let views := freshViews s.tick f.1
          let p : Suspended := { p with task := { p.task with segs := [] } }
          let j : JoinRec := { j with folded := true, flags := f.2, result := views, suspended := some p, finals := [] }
          let s := (s.setCtx (c.setJoin j)).refund ctx freed
          some { s with tick := s.tick + 64 })

/-- A saved gang on the slot of the resuming crew's gang of its rank (R38, R70). -/
def Gang.restoredTo (slot saved : Gang) (since : Nat) : Gang :=
  { saved.agedTo since with
    id := slot.id, lastArr := slot.lastArr, owes := [], datomSeq := slot.datomSeq, emergRows := 0, emergCompact := 0
    grantRows := 0, grantCompact := 0, grantMade := false, spilled := false, chosen := false, halted := slot.halted
    ctl := { saved.ctl with wait := .taskFrame saved.frameRows saved.frameCompact since } }

/-- The resume record of a suspended block (R25, R38): the address of the save image as its entry, the parent's `$PED` before
the `join`. -/
def Suspended.record (p : Suspended) (id : Nat) : TaskRec :=
  { flags := 1, ped := (p.gangs.head?.map fun g => g.ped).getD 0, entry := BitVec.ofNat 57 p.addr, join := p.task.join,
    nf := 0, gf := 0, segment := p.task.segment, argmap := 0xAAAA, args := [], mark := none, lineage := p.task.lineage, id := id }

/-- The join record whose image a resume record names. -/
def Context.imageJoin? (c : Context) (r : TaskRec) : Option JoinRec :=
  c.joins.find? fun j => r.flags == 1 && j.suspended.any fun p => BitVec.ofNat 57 p.addr == r.entry

/-- The crew of the last child pushes the resume record at the bottom of its own deque, where 16 records give way when it is
full, and pops it at once (R27, R38). -/
def State.pushResume (s : State) (ctx crew : Nat) (p : Suspended) : State × TaskRec :=
  let s := match s.makeDequeRoom payAnyway (s.crew ctx crew) with
    | .ok t => t
    | .error _ => s
  let pushed := (s.crew ctx crew).deque ++ [p.record s.tick]
  let s := s.ticked.modCrew ctx crew fun c => { c with deque := pushed.dropLast, resuming := none }
  (s.count (s.crew ctx crew).core ctx 16 1, pushed.getLastD (p.record s.tick))

/-- Restores the gangs of an image on a crew; its `join` completes, where a fragment at its join address parks, and each gang then
waits for its frames (R38, R43, R145, R292). -/
def State.restoreTask (s : State) (ctx crew : Nat) (p : Suspended) (flags : BitVec 5) : State :=
  let seed := (s.ctx ctx).seed
  let put (s : State) (saved : Gang) : State :=
    s.modGang { ctx := ctx, crew := crew, rank := saved.id.rank } fun slot =>
      slot.restoredTo (if p.atDone then saved.raise flags else (saved.joined seed flags).settle) s.tick
  let s := (p.gangs.foldl put s).ticked
  let gangs := sortBy (fun a b => decide (a.id.rank < b.id.rank)) (s.crewGangs ctx crew)
  let s := match gangs with
    | g :: _ => s.acquire g 5
    | [] => s
  gangs.foldl (fun s g => s.letIn g.id) s

/-- RESUME_TASK (R38, R145, R309): the crew of the last child pushes and pops the resume record, the image that it names is
restored there and released, and the `join` completes. -/
def execResumeTask (ctx crew : Nat) (s : State) : Host.Outcome State Fault Refusal :=
  runEvent s (
    let c := s.ctx ctx
    let cr := s.crew ctx crew
    match cr.resuming.bind c.joinRec? with
    | none => none
    | some j => match j.suspended with
      | none => none
      | some p =>
        let held := c.capture.any fun k => p.task.id != k.task && !p.task.lineage.contains k.task
        if held || !j.folded || cr.stopped || cr.task.isSome || cr.taken.isSome || (s.core cr.core).resident != some ctx then none
        else
          let (s, r) := s.pushResume ctx crew p
          match (s.ctx ctx).imageJoin? r with
          | none => none
          | some j =>
            let s := (s.modCtx ctx fun c =>
              { c.discard (.suspension j.id) with joins := c.joins.filter fun k => k.id != j.id }).refund ctx (64 + p.size)
            let s := s.modCrew ctx crew fun c => ({ c with task := some (p.task.closed []) } : Crew).zeroTiles
            match State.placeViews payAnyway ctx crew j.result s with
            | .error _ => none
            | .ok s => some (s.restoreTask ctx crew p j.flags))

/-- An element of a home buffer, and the new contents. -/
def Context.homeByte (c : Context) (r : Reducer) (off : Nat) : Option Nat :=
  match c.translate (BitVec.ofNat 64 (r.home + off)) 0 with
  | .ok (ia, _) => (c.physical ia).map fun _ => ia
  | .error _ => none

/-- Bytes of a home buffer (R289). -/
def Reducer.homeBytes (r : Reducer) : Nat := if r.isList then 16 + 8 * r.len else r.len * (r.fmt.w / 8)

/-- Every page of the home buffer is mapped. -/
def Context.homeMapped (c : Context) (r : Reducer) : Bool :=
  (upto ((r.homeBytes + 4095) / 4096 + 1)).all fun k => (c.homeByte r (min (4096 * k) (r.homeBytes - 1))).isSome

/-- Reads n bytes of a home buffer. -/
def State.homeRead (s : State) (c : Context) (r : Reducer) (off n : Nat) : Nat :=
  leNat ((upto n).map fun i => match (c.homeByte r (off + i)).bind c.physical with
    | some pa => Memory.read s.mem pa
    | none => 0)

/-- H := H ⊕ V for one view (R289, R294): a write at system scope; the flags are discarded. -/
def State.foldHome (s : State) (ctx : Nat) (v : View) : State :=
  let c := s.ctx ctx
  match c.reducer? v.id with
  | none => s
  | some r =>
    let write (s : State) (bytes : List Byte) : State := match c.homeByte r 0 with
      | some ia => s.systemWrite ctx ia bytes
      | none => s
    if r.isList then
      let n := s.homeRead c r 0 4
      let h : View :=
        { id := v.id, elems := (upto (min n r.len)).map fun i => s.homeRead c r (16 + 8 * i) 8,
          dropped := s.homeRead c r 8 8, spilled := false, since := 0 }
      let m := (r.merge h v).1
      write s (leBytes 4 m.elems.length ++ leBytes 4 0 ++ leBytes 8 m.dropped ++ m.elems.flatMap (leBytes 8))
    else
      let k := r.fmt.w / 8
      let h : View :=
        { id := v.id, elems := (upto r.len).map fun i => s.homeRead c r (k * i) k, dropped := 0, spilled := false, since := 0 }
      write s ((r.merge h v).1.elems.flatMap (leBytes k))

/-- No engine operation owns a line of the home buffer (R284). -/
def State.homeFree (s : State) (c : Context) (r : Reducer) : Bool :=
  (upto (r.homeBytes / 64 + 2)).all fun k => match c.homeByte r (min (64 * k) (r.homeBytes - 1)) with
    | some ia => !s.owned c.num ia
    | none => true

/-- ROOT_FOLD (R294, R302): the views of a root strand that has reached its end, after every lower rank's. -/
def execRootFold (ctx crew : Nat) (s : State) : Host.Outcome State Fault Refusal :=
  runEvent s (
    let c := s.ctx ctx
    let cr := s.crew ctx crew
    match cr.task with
    | none => none
    | some t =>
      let vs := sortBy (fun a b => decide (a.id < b.id)) t.finals
      let may (r : Reducer) : Bool := c.homeMapped r && s.homeFree c r
      if !cr.folding || c.capture.isSome || c.folded ≠ t.rootOf || !(vs.all fun v => ((c.reducer? v.id).map may).getD true) then none
      else
        let s := (vs.foldl (fun s v => s.foldHome ctx v) s).refund ctx (c.spilledBytes t.segs)
        let s := s.modCtx ctx fun c =>
          { c with folded := skipAbsent c.absent (c.absent.length + 1) (c.folded + 1) }
        some (s.setCrew { cr with folding := false, task := some { t with segs := [] } }))

end Sys2Proof.Machine
end

