-- ==== Sys2Proof/Machine/Counters.lean ====
section
/-! DEFINITION. Event counters and capture: `pmcfg`, `pmrd`, `pmctl`, `psig`, the end of a pass (R252, R253, R345 to
R354). -/
namespace Sys2Proof.Machine

/-! ## Counters (R345 to R348) -/

/-- Starts the counters. -/
def CoreSt.startCounters (k : CoreSt) : CoreSt := { k with ctrRun := true, ctrRan := if k.ctrRun then k.ctrRan else 0 }

/-- Stops the counters, which are up to date: they hold what they have counted. -/
def CoreSt.stopCounters (k : CoreSt) : CoreSt := { k with ctrRun := false, ctrRan := 0 }

/-- Clears the counters and starts them (R349, R351). -/
def CoreSt.zeroAndStart (k : CoreSt) : CoreSt :=
  { k with ctrVal := List.replicate 4 0, ctrRun := true, ctrRan := 0 }

/-- `pmcfg` (R252): the core's owner becomes the issuing context (R345). It is counted itself before it clears the counter,
which counts what comes after it (R348). -/
def execPmcfg (o : FmtAB) (s : State) : Host.Outcome State Fault Refusal :=
  runUnit serialUnit o.sw s fun s =>
    let g := s.cur
    let rs := [o.a.toNat, o.b.toNat]
    match g.checkOperands rs rs rs with
    | .error e => .error e
    | .ok _ =>
      let i := (g.uni o.a.toNat).toNat
      let ev := (g.uni o.b.toNat).toNat
      match check (decide (i < 4) && decide (ev < 24)) codeOpRange with
      | .error e => .error e
      | .ok _ =>
        let bit : BitVec 4 := 1#4 <<< i
        let set (k : CoreSt) : CoreSt :=
          { k with
            ctrVal := setAt k.ctrVal i 0
            ctrSel := setAt k.ctrSel i (BitVec.ofNat 8 ev)
            ctrRan := k.ctrRan &&& ~~~bit
            ctrOwner := some g.id.ctx }
        .ok { done ((s.countHere 1 1).modCore (s.coreOf g).ix set) with counted := true }

/-- The cycle counter after some cycles. It does not reach 2^64 (log 3). -/
def CoreSt.clock (k : CoreSt) (passed : Nat) : CoreSt := { k with cycles := k.cycles + BitVec.ofNat 64 (passed % (2 ^ 64 - k.cycles.toNat)) }

/-- Brings the cycle counter of the issuing core up to date: how many cycles have passed is a free value (R346, log 3). -/
def State.readClock (s : State) : State := s.modCore (s.coreOf s.cur).ix fun k => k.clock (Config.cyclesPassed s.freeIx)

/-- The value that `pmrd` reads: a counter, or the cycle counter, as it has been brought up to date (R252, R346). -/
def State.counterValue (s : State) (i : Nat) : Dword :=
  if i = 4 then (s.coreOf s.cur).cycles else ((s.coreOf s.cur).ctrVal.getD i 0).setWidth 64

/-- `pmrd` (R252, R348). -/
def execPmrd (o : FmtDA) (s : State) : Host.Outcome State Fault Refusal :=
  runUnit control o.sw s fun s =>
    let g := s.cur
    let rd := regsFor true o.d.toNat
    match g.checkOperands (rd ++ [o.a.toNat]) [o.a.toNat] [o.a.toNat] with
    | .error e => .error e
    | .ok _ =>
      let i := (g.uni o.a.toNat).toNat
      match check (decide (i ≤ 4)) codeOpRange with
      | .error e => .error e
      | .ok _ =>
        if g.act = 0 then .ok (done s)
        else match g.awaitDest rd with
          | .error e => .error e
          | .ok _ =>
            let s := if i = 4 then s.readClock else s.syncCounters (s.coreOf g).ix s.freeIx
            let v := s.counterValue i
            match s.drawn.writeRegs g.act
                [(o.d.toNat, .u (v.extractLsb' 0 32)), (o.d.toNat + 1, .u (v.extractLsb' 32 32))] with
            | .error e => .error e
            | .ok s => .ok (done s)

/-- `psig` (R253, R352). -/
def execPsig (o : FmtA) (s : State) : Host.Outcome State Fault Refusal :=
  runUnit serialUnit o.sw s fun s =>
    let g := s.cur
    let rs := [o.a.toNat]
    match g.checkOperands rs rs rs with
    | .error e => .error e
    | .ok _ => .ok (done (s.modCur fun g => g.addSig ((g.uni o.a.toNat).setWidth 64) 3))

/-! ## The capture point (R349) -/

/-- Writes back and invalidates the caches for a context; what reaches the memory-side cache may take pre-images. -/
def State.flushContext (s : State) (ctx : Nat) : State :=
  let s := s.dropL1 fun l => l.ctx == ctx
  let s := (s.l2.filter fun q => q.ctx == ctx).foldl (fun s q => s.evictL2 q) s
  let c := s.ctx ctx
  (s.msc.filter c.mapsLine).foldl State.writeBack s

/-- Clears the dirty bits of the pages a context maps (R349). -/
def State.clearDirty (s : State) (ctx : Nat) : State :=
  let c := s.ctx ctx
  { s with dirty := s.dirty.filter fun p => !c.mapsLine (64 * p) }

/-- Cores of a device. -/
def State.coresOfDev (s : State) (dev : Nat) : List Nat := (upto s.devCores).map fun i => s.firstCore dev + i

/-- Zeroes and starts the counters of every core of a device (R349, R351). -/
def State.startPass (s : State) (dev : Nat) : State :=
  (s.coresOfDev dev).foldl (fun s k => s.modCore k CoreSt.zeroAndStart) s

/-- No copy, matrix operation or access of a context is under way, but for a peer-add that its target holds: every image of R69
may be taken, and R328 withdraws that one (R349, R351 item 1). -/
def State.contextQuiet (s : State) (ctx : Nat) : Bool :=
  (s.gangs.filter fun g => g.id.ctx == ctx).all Gang.atRest && s.cores.all fun k =>
    (k.copies.all fun c => c.gang.ctx != ctx) && k.mats.all fun m => m.ctx != ctx || s.peerStuck m

/-- Halts the other gangs of the issuing crew, and every crew that runs another task (R349 item 1); no descendant of the
issuing task exists. -/
def State.haltOthers (s : State) : State :=
  let id := s.cur.id
  s.mapGangs fun g =>
    if g.id.ctx == id.ctx && g.id != id && (g.id.crew == id.crew || (s.crewOf g).task.isSome) then { g with halted := true } else g

/-- The gangs that a capture halts have halted: their replay queues are empty, and nothing of theirs or of the issuing crew is
under way that would land in the first pass (R326, R349). -/
def State.allHalted (s : State) (ctx : Nat) : Bool :=
  s.contextQuiet ctx && s.gangs.all fun g => g.id.ctx != ctx || !g.halted || s.queueEntries g == 0

/-- The gangs of a context that a capture halted go on. -/
def State.unhalt (s : State) (p : GangId → Bool) : State := s.mapGangs fun g => if p g.id then { g with halted := false } else g

/-- Sets the capture point: caches, image, counters, `$PASS` (R349 items 3 to 5). -/
def State.setCapture (s : State) (passes : Nat) (sw : Bool) : State :=
  let id := s.cur.id
  let t := (s.crewOf s.cur).task.getD emptyTask
  let s := (s.haltOthers.flushContext id.ctx).clearDirty id.ctx
  let x := s.ctx id.ctx
  let s := s.unhalt fun g => g.ctx == id.ctx && g.crew == id.crew
  let issued (g : Gang) : Gang :=
    let h : Gang := { g with ctl := g.ctl.passed (if sw then g.outstanding else []), retired := if g.supervisor then g.retired else g.retired + 1 }
    h.settle
  let gangs := (s.crewGangs id.ctx id.crew).map fun g => { (if g.id == id then issued g else g) with savedAt := s.tick }
  let mine (k : CoreSt) : List (Nat × MatOp) :=
    (k.mats.filter fun m => m.sent && m.ctx == id.ctx && m.crew == id.crew).map fun m => (k.ix, m)
  let cap : Capture :=
    { crew := id.crew, task := t.id, pass := 1, passes := passes, sig := 0, first := 0, snapFull := false, aborted := false,
      snaps := [], crewAt := s.crewOf s.cur, gangsAt := gangs, addsAt := s.cores.flatMap mine, usedAt := x.taskUsed, overAt := x.overUsed,
      awayAt := (s.coresOf id.ctx).filter fun k => (s.core k).resident != some id.ctx,
      ended := false }
  (s.setCtx { x with capture := some cap, capState := .running, passes := [] }).startPass x.dev

/-- Action 2 (R253, R349): it waits until the gangs that must halt have halted. -/
def captureUnit (passes : Nat) (sw : Bool) (s : State) : Try Done :=
  let c := s.crewOf s.cur
  let t := c.task.getD emptyTask
  match check (s.here.capture.isNone && !c.roundOpen && t.spawned == 0 && t.block.isNone) codeOpRange with
  | .error e => .error e
  | .ok _ =>
    if s.haltOthers.allHalted c.ctx then .ok (done (s.setCapture passes sw))
    else .ok { done s.haltOthers with hold := some .retry }

/-- Changes the counters of the issuing core, whose owner the context becomes (R345). -/
def State.ownCounters (s : State) (f : CoreSt → CoreSt) : State :=
  s.modCore (s.coreOf s.cur).ix fun k => { f k with ctrOwner := some s.cur.id.ctx }

/-- Action 3 (R351, R253). -/
def State.abortCapture (s : State) : State :=
  let abort (k : Capture) : Capture := { k with passes := k.pass, aborted := true }
  s.modCtx s.cur.id.ctx fun c => { c with capture := c.capture.map abort }

/-- What `pmctl` does once its word is checked; the unit is counted before its effect (R348). -/
def pmctlAct (w : Word) (sw : Bool) (s : State) : Try Done :=
  match (w.extractLsb' 0 2).toNat with
  | 0 =>
    let s := (s.countHere 1 1).syncCounters (s.coreOf s.cur).ix s.freeIx
    .ok { done ((s.ownCounters CoreSt.stopCounters).drawn) with counted := true }
  | 1 => .ok { done ((s.countHere 1 1).ownCounters CoreSt.startCounters) with counted := true }
  | 2 => match captureUnit ((w.extractLsb' 4 4).toNat + 1) sw s with
    | .error e => .error e
    | .ok d => .ok (if d.hold.isSome then d else { d with st := d.st.ownCounters id, counted := true })
  | _ => .ok (done (s.abortCapture.ownCounters id))

/-- `pmctl` (R253): bits 1:0 select the action. -/
def pmctlUnit (o : FmtA) (s : State) : Try Done :=
  let g := s.cur
  let rs := [o.a.toNat]
  match g.checkOperands rs rs rs with
  | .error e => .error e
  | .ok _ =>
    let w := g.uni o.a.toNat
    match check (w.extractLsb' 2 2 == 0#2 && w.extractLsb' 8 24 == 0#24) codeOpRange with
    | .error e => .error e
    | .ok _ => pmctlAct w o.sw s

/-- `pmctl`, action 0 (R253). -/
def execPmctlStop (o : FmtA) (s : State) : Host.Outcome State Fault Refusal := runUnit serialUnit o.sw s (pmctlUnit o)

/-- `pmctl`, action 1 (R253): the same word, the operand decides. -/
def execPmctlStart (o : FmtA) (s : State) : Host.Outcome State Fault Refusal := runUnit serialUnit o.sw s (pmctlUnit o)

/-- `pmctl`, action 2 (R253, R349). -/
def execPmctlCapture (o : FmtA) (s : State) : Host.Outcome State Fault Refusal := runUnit serialUnit o.sw s (pmctlUnit o)

/-- `pmctl`, action 3 (R253, R351). -/
def execPmctlAbort (o : FmtA) (s : State) : Host.Outcome State Fault Refusal := runUnit serialUnit o.sw s (pmctlUnit o)

/-! ## The end of a pass (R351, R353, R354) -/

/-- The crew on which the issuing task has ended. -/
def State.endedCrew (s : State) (ctx : Nat) (k : Capture) : Option Crew :=
  s.crews.find? fun c => c.ctx == ctx && c.task.any fun t => t.id == k.task

/-- The signature of the pass, with what the ending gangs add at their `tdone` (R352). -/
def State.passSig (s : State) (c : Crew) (k : Capture) : Dword :=
  (s.crewGangs c.ctx c.rank).foldl (fun n g => n + (g.addSig (BitVec.ofNat 64 g.retired) 4).sig) k.sig

/-- The counters of the cores of a context are up to date. -/
def State.syncAll (s : State) (ctx : Nat) : State :=
  let t := (s.coresOf ctx).foldl (fun (t : State) k => t.syncCounters k (s.freeIx + k)) s
  { t with freeIx := s.freeIx + Config.packageCores }

/-- The record of a pass, over every core on which the context has crews: counters are read with the units of the `tdone`
included (R353, R354). -/
def State.passRecord (s : State) (ctx : Nat) (c : Crew) (k : Capture) : PassRec :=
  let t := s.count c.core ctx 1 (s.crewGangs ctx c.rank).length
  let sig := s.passSig c k
  let mine := sortBy (fun a b => decide (a.ix < b.ix)) (t.cores.filter fun x => (t.coresOf ctx).contains x.ix)
  let entry (x : CoreSt) : PassCore := { core := x.ix, sels := x.ctrSel, vals := x.ctrVal }
  { num := k.pass, mismatch := k.pass != 1 && sig != k.first, snapFull := k.snapFull, aborted := k.aborted, sig := sig,
    pages := k.snaps.length, cores := mine.map entry }

/-- Pre-images go back to their pages. -/
def State.restoreSnaps (s : State) (k : Capture) : State :=
  k.snaps.foldl (fun s p => s.putPhysical (p.1 * 4096) (Memory.slice s.mem p.2 4096)) s

/-- A page returns to its pool zeroed (R360). -/
def State.returnPage (s : State) (dev size base : Nat) : State :=
  { s with
    mem := Memory.clearRange s.mem base (pageSize size)
    side := Memory.clearRange s.side base (pageSize size)
    hbm := Memory.clearRange s.hbm base (pageSize size)
    pools := s.pools ++ [{ dev := dev, size := size, base := base }] }

/-- After the last pass: snapshot pages return, halted crews resume, held accesses are released (R351). -/
def State.endCapture (s : State) (ctx : Nat) (k : Capture) : State :=
  let dev := (s.ctx ctx).dev
  let owned := sortBy (fun a b => decide (a < b)) ((s.cores.filter fun x => x.ctrOwner == some ctx).map fun x => x.ix)
  let s := s.modCtx ctx fun c =>
    { c with capture := none, capState := if k.aborted then .aborted else .complete, capOwned := owned }
  let s := k.snaps.foldl (fun s p => s.returnPage dev 0 p.2) s
  (s.unhalt fun g => g.ctx == ctx).releaseHost

/-- The crew as the image has it; its deque and its quota, which the image does not hold, stay as they are (R327). -/
def Capture.crewBack (k : Capture) (now : Crew) : Crew :=
  { k.crewAt with deque := now.deque, overflow := now.overflow, quota := now.quota, fills := now.fills }

/-- A gang of the image: it re-enters its slot as a spilled gang does. -/
def Gang.fromImage (g : Gang) : Gang := { g with spilled := true, chosen := false, emergRows := 0, emergCompact := 0, halted := false }

/-- A peer-add of the capture image is sent again; it has been applied in the pass before, whose gangs have waited for it (R146,
R328). -/
def State.sendAgain (s : State) (p : Nat × MatOp) : State :=
  let add : PeerAdd := { op := p.2.id, fromCtx := p.2.ctx, fromCrew := p.2.crew, arrived := false, withdrawn := false, order := 0 }
  let s := s.modCore p.1 fun k => { k with mats := k.mats.filter (fun m => m.id != p.2.id) ++ [p.2] }
  { s with peerAdds := s.peerAdds.filter (fun q => q.op != p.2.id) ++ [add] }

/-- The next pass starts from the capture image (R351 items 3 to 6); the caches are written back. -/
def State.nextPass (s : State) (ctx : Nat) (c : Crew) (k : Capture) : State :=
  let s := (s.restoreSnaps k).clearDirty ctx
  let s := (s.vacate ctx c.rank).modCrew ctx c.rank fun c => { c with task := none, folding := false }
  let s := s.setCrew (k.crewBack (s.crew ctx k.crew))
  let s := k.addsAt.foldl State.sendAgain (k.gangsAt.foldl (fun s g => s.setGang g.fromImage) s)
  let s := s.modCtx ctx fun x =>
    { x with taskUsed := k.usedAt, overUsed := k.overAt, capture := some { k with pass := k.pass + 1, sig := 0, ended := false } }
  s.startPass (s.ctx ctx).dev

/-- The context is resident, with no switch under way, on every core where it has crews, but for those it was away from before
the capture: a pre-emption suspends the capture (R351). -/
def State.allResident (s : State) (ctx : Nat) : Bool :=
  let away := ((s.ctx ctx).capture.map fun k => k.awayAt).getD []
  (s.coresOf ctx).all fun k => away.contains k || ((s.core k).resident == some ctx && (s.core k).preempt.isNone)

/-- CAPTURE_PASS_END (R351): the record holds the snapshot pages with those that the writing back takes; a pool found empty
there makes the pass the last. -/
def execCapturePassEnd (ctx : Nat) (s : State) : Host.Outcome State Fault Refusal :=
  runEvent s (
    match (s.ctx ctx).capture with
    | none => none
    | some k => match s.endedCrew ctx k with
      | none => none
      | some c =>
        if !k.ended || !s.contextQuiet ctx || !s.allResident ctx then none
        else
          let s := (if k.passes ≤ k.pass then s else s.flushContext ctx).syncAll ctx
          let k := (s.ctx ctx).capture.getD k
          let r := s.passRecord ctx c k
          let k := if k.pass = 1 then { k with first := r.sig } else k
          let s := s.modCtx ctx fun x => { x with passes := x.passes ++ [r], capture := some k }
          some (if k.passes ≤ k.pass then s.endCapture ctx k else s.nextPass ctx c k))

end Sys2Proof.Machine
end

