-- ==== Sys2Proof/Machine/FaultEvents.lean ====
section
/-! DEFINITION. Taking a fault that waits for a boundary (R261, R263, R326, R336, R338, R339). -/
namespace Sys2Proof.Machine

/-- Place of a pending fault in the order of R338: a trap left by a unit with a lane fault, delivered faults in order of
arrival, late traps with the oldest unit first. -/
def PendFault.turn (f : PendFault) : Nat × Nat :=
  match f.kind.toNat with
  | 0 => (0, 0)
  | 2 => (1, 0)
  | 1 => (2, f.order)
  | _ => (3, 0)

/-- Pending faults in the order of R338. -/
def Gang.faultsDue (g : Gang) : List PendFault :=
  sortBy (fun a b => decide (a.turn.1 < b.turn.1) || (a.turn.1 == b.turn.1 && decide (a.turn.2 < b.turn.2))) g.pend

/-- The record of a pending fault as it is taken: PAGE names the queue as it stands (R263, R336), but for one that names its
own page (R272), and one whose queue has emptied since, which names what it arrived with (log 57). -/
def State.dueRecord (s : State) (g : Gang) (f : PendFault) : PendFault :=
  if f.code = codePage ∧ !f.own ∧ s.queueEntries g ≠ 0 then
    { f with
      mask := s.queueMask g, addr := BitVec.ofNat 64 (pageBase (s.queueHead g)), count := BitVec.ofNat 16 (s.queueEntries g) }
  else f

/-- The barrier phase that a control waits for is complete: it goes on before a fault is taken (R248). -/
def Ctl.barrierOver (c : Ctl) (phase : Nat) : Bool :=
  match c.collective? with
  | some w => w.isOver phase
  | none => false

/-- A gang may take a fault now: its frames are there, it runs in user mode, nothing halts it. -/
def State.mayTake (s : State) (g : Gang) : Bool :=
  !g.supervisor && !g.outside && g.entering.isNone && !g.frames.isEmpty && !(s.crewOf g).stopped && s.mayRun g

/-- The control at which a fault is taken is at a boundary: no re-execution is under way, but that a waiting one does not
hold up a fault of memory. -/
def Ctl.atBoundary (c : Ctl) (f : PendFault) (phase : Nat) : Bool :=
  (c.redo.isNone || (c.wait != .ready && f.kind == 2)) && !c.barrierOver phase

/-- The fault of a handler's access that arrived while the gang was halted (R326). -/
def Gang.heldStop (g : Gang) : Option PendFault := g.pend.find? fun f => f.sup

/-- TAKE_FAULT (R338, R339). A gang that waits at a collective goes back to it afterwards. A fault of a handler that waited for the
restore stops the crew then (R326, R340). -/
def execTakeFault (id : GangId) (s : State) : Host.Outcome State Fault Refusal :=
  runEvent s (
    match s.gang? id with
    | none => none
    | some g => match g.heldStop with
      | some f => if s.mayRun g && !g.away then some (s.stopOn id (faultRecord f) f.mask g.ctl.pc) else none
      | none => match g.faultsDue with
        | [] => none
        | f :: _ =>
          let left : Gang := { g with pend := g.pend.erase f }
          let r := s.dueRecord g f
          let h := if f.kind = 0 then left else left.faultFrag r.mask
          if !s.mayTake g || !h.ctl.atBoundary f (s.phaseOf (s.crewOf g)) then none
          else some ((s.setGang h.leave).takeFault id r h.ctl.pc))

end Sys2Proof.Machine
end

