-- ==== Sys2Proof/Machine/Float.lean ====
section
/-! DEFINITION. Floating-point instructions, conversion and block packing (R200 to R217). -/
namespace Sys2Proof.Machine

/-! ## Shared units -/

/-- A floating operand: its register, and whether it is held by the captured width (R200). -/
structure FOp where
  reg : Nat
  wide : Bool

/-- Registers of an operand under a width. -/
def FOp.regs (w : Nat) (o : FOp) : List Nat := regsFor (o.wide && w == 64) o.reg

/-- The checks of R201 for a unit in one captured entry: odd registers, FRAMEREG, the entry, HAZARD, then the wait for
a pending destination. -/
def fpChecks (g : Gang) (f : Fmt) (accept rndOk : Bool) (dst : List FOp) (srcs : List FOp) : Try Unit :=
  match checkOdd (f.w == 64) (((dst ++ srcs).filter FOp.wide).map FOp.reg) with
  | .error e => .error e
  | .ok _ => match g.checkRegs ((dst ++ srcs).flatMap (FOp.regs f.w)) with
    | .error e => .error e
    | .ok _ => match checkFormats [(f, accept)] rndOk with
      | .error e => .error e
      | .ok _ => match g.checkReady (srcs.flatMap (FOp.regs f.w)) with
        | .error e => .error e
        | .ok _ => if g.act = 0 then .ok () else g.awaitDest (dst.flatMap (FOp.regs f.w))

/-- A fixed-latency unit: every lane's result, flags and traps (R82). -/
def fpUnit (checksRnd : Bool) (dst : FOp) (srcs : List FOp) (res : Gang → Fmt → Nat → Nat → FRes) (s : State) : Try Done :=
  let g := s.cur
  let f := fmtOf (s.entry g.fmtIx)
  match fpChecks g f f.forVector (!checksRnd || g.rndOk) [dst] srcs with
  | .error e => .error e
  | .ok _ =>
    if g.act = 0 then .ok (done s)
    else
      let r := res g f g.rnd.toNat
      let trapped := trappedLanes g.enables g.act r
      let eff := g.act &&& ~~~trapped
      match s.writeLanes g.act eff (resultRegs (if dst.wide then f.w else 32) dst.reg fun l => (r l).bits) with
      | .error e => .error e
      | .ok s => .ok (doneTrap (s.modCur fun h => h.raise (flagsOver eff r)) (trapOf g.enables trapped r))

/-- A variable-latency unit: its results return later, its traps are taken late (R82, R203). -/
def fpLateUnit (dst : FOp) (srcs : List FOp) (res : Gang → Fmt → Nat → Nat → FRes) (s : State) : Try Done :=
  let g := s.cur
  let f := fmtOf (s.entry g.fmtIx)
  match fpChecks g f f.forVector g.rndOk [dst] srcs with
  | .error e => .error e
  | .ok _ =>
    if g.act = 0 then .ok (done s)
    else
      let r := res g f g.rnd.toNat
      let trapped := trappedLanes g.enables g.act r
      let eff := g.act &&& ~~~trapped
      let vals := (lanesOf g.act).map fun l => (l, (r l).bits)
      let fl : Flight :=
        { valueFlight s vals with
          op := .late (flagsOver eff r) trapped (trapCode g.enables trapped r == codeSnan)
          size := if f.w = 64 then 8 else 4
          names := [g.fmtIx] }
      match s.launch fl (dst.regs f.w) with
      | .error e => .error e
      | .ok s => .ok (done s)

/-- Two floating sources. -/
def fp2 (checksRnd : Bool) (d a b : BitVec 7) (op : Fmt → Nat → Nat → Nat → FRes) : State → Try Done :=
  fpUnit checksRnd ⟨d.toNat, true⟩ [⟨a.toNat, true⟩, ⟨b.toNat, true⟩] fun g f rnd l =>
    op f rnd (g.operand f.w a.toNat l) (g.operand f.w b.toNat l)

/-- One floating source. -/
def fp1 (checksRnd : Bool) (d a : BitVec 7) (op : Fmt → Nat → Nat → FRes) : State → Try Done :=
  fpUnit checksRnd ⟨d.toNat, true⟩ [⟨a.toNat, true⟩] fun g f rnd l => op f rnd (g.operand f.w a.toNat l)

/-- One floating source, variable latency. -/
def fpLate1 (d a : BitVec 7) (op : Fmt → Nat → Nat → FRes) : State → Try Done :=
  fpLateUnit ⟨d.toNat, true⟩ [⟨a.toNat, true⟩] fun g f rnd l => op f rnd (g.operand f.w a.toNat l)

/-- The fused forms: the destination is the addend (R205). -/
def fpFused (d a b : BitVec 7) (negP negQ : Bool) : State → Try Done :=
  fpUnit true ⟨d.toNat, true⟩ [⟨a.toNat, true⟩, ⟨b.toNat, true⟩, ⟨d.toNat, true⟩] fun g f rnd l =>
    fmaBits f rnd negP negQ (g.operand f.w a.toNat l) (g.operand f.w b.toNat l) (g.operand f.w d.toNat l)

/-- A result that raises nothing. -/
def plainRes (b : Nat) : FRes := { bits := b, flags := fxNone, snan := false }

/-! ## Meanings -/

/-- `fadd` (R204). -/
def execFadd (o : FmtDAB) (s : State) : Host.Outcome State Fault Refusal :=
  runUnit vectorUnit o.sw s (fp2 true o.d o.a o.b faddBits)

/-- `fsub` (R204). -/
def execFsub (o : FmtDAB) (s : State) : Host.Outcome State Fault Refusal :=
  runUnit vectorUnit o.sw s (fp2 true o.d o.a o.b fsubBits)

/-- `fmul` (R204). -/
def execFmul (o : FmtDAB) (s : State) : Host.Outcome State Fault Refusal :=
  runUnit vectorUnit o.sw s (fp2 true o.d o.a o.b fmulBits)

/-- `fdiv`, variable-latency (R204). -/
def execFdiv (o : FmtDAB) (s : State) : Host.Outcome State Fault Refusal :=
  runUnit vectorUnit o.sw s (fpLateUnit ⟨o.d.toNat, true⟩ [⟨o.a.toNat, true⟩, ⟨o.b.toNat, true⟩]
    fun g f rnd l => fdivBits f rnd (g.operand f.w o.a.toNat l) (g.operand f.w o.b.toNat l))

/-- `fmac` (R205). -/
def execFmac (o : FmtDAB) (s : State) : Host.Outcome State Fault Refusal :=
  runUnit vectorUnit o.sw s (fpFused o.d o.a o.b false false)

/-- `fmsc` (R205). -/
def execFmsc (o : FmtDAB) (s : State) : Host.Outcome State Fault Refusal :=
  runUnit vectorUnit o.sw s (fpFused o.d o.a o.b false true)

/-- `fnmac` (R205). -/
def execFnmac (o : FmtDAB) (s : State) : Host.Outcome State Fault Refusal :=
  runUnit vectorUnit o.sw s (fpFused o.d o.a o.b true true)

/-- `fnmsc` (R205). -/
def execFnmsc (o : FmtDAB) (s : State) : Host.Outcome State Fault Refusal :=
  runUnit vectorUnit o.sw s (fpFused o.d o.a o.b true false)

/-- `fsqrt`, variable-latency (R206). -/
def execFsqrt (o : FmtDA) (s : State) : Host.Outcome State Fault Refusal :=
  runUnit vectorUnit o.sw s (fpLate1 o.d o.a fsqrtBits)

/-- `frcp` (R206). -/
def execFrcp (o : FmtDA) (s : State) : Host.Outcome State Fault Refusal :=
  runUnit vectorUnit o.sw s (fp1 true o.d o.a frcpBits)

/-- `frsq` (R206). -/
def execFrsq (o : FmtDA) (s : State) : Host.Outcome State Fault Refusal :=
  runUnit vectorUnit o.sw s (fp1 true o.d o.a frsqBits)

/-- `fmin` (R207). -/
def execFmin (o : FmtDAB) (s : State) : Host.Outcome State Fault Refusal :=
  runUnit vectorUnit o.sw s (fp2 false o.d o.a o.b fun f _ => fminmaxBits f false false)

/-- `fmax` (R207). -/
def execFmax (o : FmtDAB) (s : State) : Host.Outcome State Fault Refusal :=
  runUnit vectorUnit o.sw s (fp2 false o.d o.a o.b fun f _ => fminmaxBits f true false)

/-- `fminn` (R207). -/
def execFminn (o : FmtDAB) (s : State) : Host.Outcome State Fault Refusal :=
  runUnit vectorUnit o.sw s (fp2 false o.d o.a o.b fun f _ => fminmaxBits f false true)

/-- `fmaxn` (R207). -/
def execFmaxn (o : FmtDAB) (s : State) : Host.Outcome State Fault Refusal :=
  runUnit vectorUnit o.sw s (fp2 false o.d o.a o.b fun f _ => fminmaxBits f true true)

/-- `fabs` (R208). -/
def execFabs (o : FmtDA) (s : State) : Host.Outcome State Fault Refusal :=
  runUnit vectorUnit o.sw s (fp1 false o.d o.a fun f _ a => plainRes (fabsBits f a))

/-- `fneg` (R208). -/
def execFneg (o : FmtDA) (s : State) : Host.Outcome State Fault Refusal :=
  runUnit vectorUnit o.sw s (fp1 false o.d o.a fun f _ a => plainRes (fnegBits f a))

/-- `fcpys` (R208). -/
def execFcpys (o : FmtDAB) (s : State) : Host.Outcome State Fault Refusal :=
  runUnit vectorUnit o.sw s (fp2 false o.d o.a o.b fun f _ a b => plainRes (fcpysBits f a b))

/-- `fclass`: one register whatever the width (R210). -/
def execFclass (o : FmtDA) (s : State) : Host.Outcome State Fault Refusal :=
  runUnit vectorUnit o.sw s (fpUnit false ⟨o.d.toNat, false⟩ [⟨o.a.toNat, true⟩] fun g f _ l =>
    plainRes (fclassBits f (g.operand f.w o.a.toNat l)))

/-- `frnd` under `$MODE.rnd` (R211). -/
def execFrnd (o : FmtDA) (s : State) : Host.Outcome State Fault Refusal :=
  runUnit vectorUnit o.sw s (fp1 true o.d o.a frndBits)

/-- `frnd.rne` (R211). -/
def execFrndRne (o : FmtDA) (s : State) : Host.Outcome State Fault Refusal :=
  runUnit vectorUnit o.sw s (fp1 false o.d o.a fun f _ => frndBits f 0)

/-- `frnd.rtz` (R211). -/
def execFrndRtz (o : FmtDA) (s : State) : Host.Outcome State Fault Refusal :=
  runUnit vectorUnit o.sw s (fp1 false o.d o.a fun f _ => frndBits f 1)

/-- `frnd.rup` (R211). -/
def execFrndRup (o : FmtDA) (s : State) : Host.Outcome State Fault Refusal :=
  runUnit vectorUnit o.sw s (fp1 false o.d o.a fun f _ => frndBits f 2)

/-- `frnd.rdn` (R211). -/
def execFrndRdn (o : FmtDA) (s : State) : Host.Outcome State Fault Refusal :=
  runUnit vectorUnit o.sw s (fp1 false o.d o.a fun f _ => frndBits f 3)

/-- `frnd.rna` (R211). -/
def execFrndRna (o : FmtDA) (s : State) : Host.Outcome State Fault Refusal :=
  runUnit vectorUnit o.sw s (fp1 false o.d o.a fun f _ => frndBits f 4)

/-- `fscb`: the count is one register, signed (R212). -/
def execFscb (o : FmtDAB) (s : State) : Host.Outcome State Fault Refusal :=
  runUnit vectorUnit o.sw s (fpUnit true ⟨o.d.toNat, true⟩ [⟨o.a.toNat, true⟩, ⟨o.b.toNat, false⟩] fun g f rnd l =>
    fscbBits f rnd (g.operand f.w o.a.toNat l) (g.lane o.b.toNat l).toInt)

/-- `flgb` (R212). -/
def execFlgb (o : FmtDA) (s : State) : Host.Outcome State Fault Refusal :=
  runUnit vectorUnit o.sw s (fp1 true o.d o.a flgbBits)

/-- `fexp2`, variable-latency (R213). -/
def execFexp2 (o : FmtDA) (s : State) : Host.Outcome State Fault Refusal :=
  runUnit vectorUnit o.sw s (fpLate1 o.d o.a fexp2Bits)

/-- `flog2`, variable-latency (R213). -/
def execFlog2 (o : FmtDA) (s : State) : Host.Outcome State Fault Refusal :=
  runUnit vectorUnit o.sw s (fpLate1 o.d o.a flog2Bits)

/-- `fsinp`, variable-latency (R213). -/
def execFsinp (o : FmtDA) (s : State) : Host.Outcome State Fault Refusal :=
  runUnit vectorUnit o.sw s (fpLate1 o.d o.a fsinpBits)

/-- `fcosp`, variable-latency (R213). -/
def execFcosp (o : FmtDA) (s : State) : Host.Outcome State Fault Refusal :=
  runUnit vectorUnit o.sw s (fpLate1 o.d o.a fcospBits)

/-- `ftanh`, variable-latency (R213). -/
def execFtanh (o : FmtDA) (s : State) : Host.Outcome State Fault Refusal :=
  runUnit vectorUnit o.sw s (fpLate1 o.d o.a ftanhBits)

/-- The unit of `fcmp`: a trapped lane keeps its bit (R209). -/
def fcmpUnit (m : BitVec 3) (c : BitVec 4) (a b : BitVec 7) (signalling : Bool) (s : State) : Try Done :=
  let g := s.cur
  let f := fmtOf (s.entry g.fmtIx)
  match fpChecks g f f.forVector true [] [⟨a.toNat, true⟩, ⟨b.toNat, true⟩] with
  | .error e => .error e
  | .ok _ =>
    let cmp (l : Nat) := fcmpBits f c.toNat signalling (g.operand f.w a.toNat l) (g.operand f.w b.toNat l)
    let r (l : Nat) : FRes := { bits := 0, flags := (cmp l).2.1, snan := (cmp l).2.2 }
    let trapped := trappedLanes g.enables g.act r
    let eff := g.act &&& ~~~trapped
    .ok (doneTrap (s.modCur fun h => (h.setMask m.toNat eff (maskOf fun l => (cmp l).1)).raise (flagsOver eff r))
      (trapOf g.enables trapped r))

/-- `fcmp`, quiet (R209). -/
def execFcmp (o : FmtK) (s : State) : Host.Outcome State Fault Refusal :=
  runUnit vectorUnit o.sw s (fcmpUnit o.m o.c o.a o.b false)

/-- `fcmp.s`, signalling (R209). -/
def execFcmpS (o : FmtK) (s : State) : Host.Outcome State Fault Refusal :=
  runUnit vectorUnit o.sw s (fcmpUnit o.m o.c o.a o.b true)

/-! ## Conversion (R214, R215) -/

/-- The unit of the conversions: each operand is held by its own entry. -/
def cvtUnit (o : FmtCvt) (dstOk : Fmt → Bool) (mode : Option Nat) (s : State) : Try Done :=
  let g := s.cur
  let fs := fmtOf (s.entry o.fs.toNat)
  let fd := fmtOf (s.entry o.fd.toNat)
  let ds := regsFor (fd.w == 64) o.d.toNat
  let as := regsFor (fs.w == 64) o.a.toNat
  match checkOdd (fs.w == 64) [o.a.toNat] with
  | .error e => .error e
  | .ok _ => match checkOdd (fd.w == 64) [o.d.toNat] with
    | .error e => .error e
    | .ok _ => match g.checkRegs (ds ++ as) with
      | .error e => .error e
      | .ok _ => match checkFormats [(fs, fs.isFloat || fs.isInt), (fd, dstOk fd)] (mode.isSome || g.rndOk) with
        | .error e => .error e
        | .ok _ => match g.checkReady as with
          | .error e => .error e
          | .ok _ =>
            if g.act = 0 then .ok (done s)
            else match g.awaitDest ds with
              | .error e => .error e
              | .ok _ =>
                let r (l : Nat) := convertBits fs fd (o.fs == o.fd) (g.operand fs.w o.a.toNat l) (mode.getD g.rnd.toNat)
                let trapped := trappedLanes g.enables g.act r
                let eff := g.act &&& ~~~trapped
                match s.writeLanes g.act eff (resultRegs fd.w o.d.toNat fun l => (r l).bits) with
                | .error e => .error e
                | .ok s => .ok (doneTrap (s.modCur fun h => h.raise (flagsOver eff r)) (trapOf g.enables trapped r))

/-- `cvt` under `$MODE.rnd` (R214). -/
def execCvt (o : FmtCvt) (s : State) : Host.Outcome State Fault Refusal :=
  runUnit vectorUnit o.sw s (cvtUnit o (fun f => f.isFloat || f.isInt) none)

/-- `cvti`: toward zero into an integer entry (R214). -/
def execCvti (o : FmtCvt) (s : State) : Host.Outcome State Fault Refusal :=
  runUnit vectorUnit o.sw s (cvtUnit o Fmt.isInt (some rtz))

/-- `cvtf`: to nearest even into a floating entry (R214). -/
def execCvtf (o : FmtCvt) (s : State) : Host.Outcome State Fault Refusal :=
  runUnit vectorUnit o.sw s (cvtUnit o Fmt.isFloat (some rne))

/-! ## Block packing (R86, R216) -/

/-- One packed element: its byte and the flags it raises. -/
structure Packed where
  byte : Nat
  res : FRes

/-- The magnitude of a finite value under a code, rounded (R86 step 3). -/
def packMag (v : Val) (code mode : Nat) : Nat × Bool :=
  match v with
  | .num s m e =>
    let sc := ratShift m 1 (e + 6 + 127 - code)
    (roundInt sc.1 sc.2 mode s, sc.1 % sc.2 != 0)
  | _ => (0, false)

/-- E1 for an E0 (R86 step 2). -/
def packE1 (c0 : Nat) : Nat := max (c0 - 6) 1

/-- The code an element takes: E1 if its magnitude under E1 stays below 2^F and E1 is not the NaN code. -/
def packUsesE1 (v : Val) (c0 mode : Nat) (special : Bool) : Bool := !special && decide ((packMag v (packE1 c0) mode).1 < 64)

/-- One element under the chosen codes (R86 steps 2 to 6). At c0 = 254 step 4 speaks of a magnitude that rounds to 2^F: one
that rounds above it is taken in the same way (log 12). -/
def packElem (c0 mode : Nat) (allZero special : Bool) (v : Val) : Packed :=
  let sg := if v.sign then 128 else 0
  match v with
  | .nan _ q _ _ => { byte := sg + 64, res := { bits := sg + 64, flags := if q then fxNone else fxInvalid, snan := !q } }
  | .inf _ => { byte := sg + 64, res := { bits := sg + 64, flags := fxInvalid, snan := false } }
  | .zero _ =>
    let b := sg + if special then 0 else 64
    { byte := b, res := plainRes b }
  | .num _ _ _ =>
    if allZero then { byte := sg, res := plainRes sg }
    else
      let e1 := packUsesE1 v c0 mode special
      let r := packMag v (if e1 then packE1 c0 else c0) mode
      let beyond := decide (64 ≤ r.1)
      let m := if beyond then 63 else r.1
      let fl : BitVec 5 := (if beyond then fxOverflow ||| fxInexact else if r.2 then fxInexact else fxNone) |||
        (if m = 0 then fxUnderflow ||| fxInexact else fxNone)
      let b := sg + (if e1 then 64 else 0) + m
      { byte := b, res := { bits := b, flags := fl, snan := false } }

/-- Raises c0 while some element under E0 rounds to 2^F (R86 step 4). -/
def packRaise : Nat → List Val → Nat → Bool → Nat → Nat
  | 0, _, _, _, c0 => c0
  | fuel + 1, vs, mode, special, c0 =>
    if c0 < 254 && vs.any (fun v => !packUsesE1 v c0 mode special && decide (64 ≤ (packMag v c0 mode).1))
    then packRaise fuel vs mode special (c0 + 1) else c0

/-- Floor of log2 of the largest finite magnitude, none when all are zero (R86 step 1), and, the model's choice, when no value is
finite (log 79). -/
def packTop (vs : List Val) : Option Int :=
  vs.foldl (fun acc v => match v with
    | .num _ m e =>
      let t : Int := (m.log2 : Int) + e
      some (match acc with
        | some a => if a < t then t else a
        | none => t)
    | _ => acc) none

/-- E0, E1 and the rule of the elements of a block (R86). A block with no finite value has E0 0x00 as if its values were zero: the
model's choice (log 79). -/
def packBlock (vs : List Val) (mode : Nat) : Nat × Nat × (Val → Packed) :=
  let special := vs.any fun v => match v with
    | .nan _ _ _ _ => true
    | .inf _ => true
    | _ => false
  match packTop vs with
  | none => (0, if special then 255 else 0, packElem 0 mode true special)
  | some t =>
    let c := t + 128
    let c0 := packRaise 4 vs mode special (if c < 1 then 1 else if 254 < c then 254 else c.toNat)
    (c0, if special then 255 else packE1 c0, packElem c0 mode false special)

/-- Replaces a byte of a word. -/
def setByte (w : Word) (i : Nat) (v : Nat) : Word :=
  (w &&& ~~~(0xFF#32 <<< (8 * i))) ||| (BitVec.ofNat 32 (v % 256) <<< (8 * i))

/-- `bfpk` (R216). With vd = vb the codes go into the lanes as the elements have left them, in the order of R216's text (log
69). -/
def bfpkUnit (o : FmtBf) (s : State) : Try Done :=
  let g := s.cur
  let f := fmtOf (s.entry g.fmtIx)
  match fpChecks g f f.forVector g.rndOk [⟨o.d.toNat, false⟩] [⟨o.a.toNat, true⟩, ⟨o.b.toNat, false⟩] with
  | .error e => .error e
  | .ok _ =>
    if g.act = 0 then .ok (done s)
    else
      let val (l : Nat) := exact f (g.operand f.w o.a.toNat l)
      let blocks := (upto 4).map fun b =>
        packBlock (((upto 32).filter fun i => inMask g.act (32 * b + i)).map fun i => val (32 * b + i)) g.rnd.toNat
      let some0 : Nat × Nat × (Val → Packed) := (0, 0, packElem 0 0 true false)
      let r (l : Nat) : FRes := ((blocks.getD (l / 32) some0).2.2 (val l)).res
      let trapped := trappedLanes g.enables g.act r
      let eff := g.act &&& ~~~trapped
      let live (l : Nat) : Bool := decide (l < 4) && g.act.extractLsb' (32 * l) 32 != 0#32
      let scale (l : Nat) : Word :=
        let b := blocks.getD l some0
        let held := if o.d = o.b ∧ inMask eff l then BitVec.ofNat 32 (r l).bits else g.lane o.b.toNat l
        setByte (setByte held (2 * o.q.toNat) b.1) (2 * o.q.toNat + 1) b.2.1
      let codes := maskOf live
      let elem : RegWrite :=
        { reg := o.d.toNat, val := .ofFn fun l => BitVec.ofNat 32 (r l).bits, act := g.act, eff := eff }
      match s.writeEach [elem, { reg := o.b.toNat, val := .ofFn scale, act := codes, eff := codes }] with
      | .error e => .error e
      | .ok s => .ok (doneTrap (s.modCur fun h => h.raise (flagsOver eff r)) (trapOf g.enables trapped r))

/-- `bfpk` (R216). -/
def execBfpk (o : FmtBf) (s : State) : Host.Outcome State Fault Refusal := runUnit vectorUnit o.sw s (bfpkUnit o)

/-- One unpacked element (R217). -/
def bfupBits (f : Fmt) (mode elem code : Nat) : FRes :=
  match blockExact elem code with
  | .nan _ _ _ _ => { bits := (defaultNan f).1, flags := if (defaultNan f).2 then fxInvalid else fxNone, snan := false }
  | v => finishOut f mode [] v.toOut

/-- `bfup` (R217): it accepts the entries that `bfpk` does, P 0 to 2 with W of 16, 32 or 64; R217 names none, and W = 8 is
FMTBAD (R76, log 69). -/
def execBfup (o : FmtBf) (s : State) : Host.Outcome State Fault Refusal :=
  runUnit vectorUnit o.sw s (fpUnit true ⟨o.d.toNat, true⟩ [⟨o.a.toNat, false⟩, ⟨o.b.toNat, false⟩] fun g f rnd l =>
    let elem := (g.lane o.a.toNat l).toNat % 256
    let codes := (g.lane o.b.toNat (l / 32)).toNat
    bfupBits f rnd elem (codes / 2 ^ (8 * (2 * o.q.toNat + elem / 64 % 2)) % 256))

end Sys2Proof.Machine
end

