-- ==== Sys2Proof/Machine/Descriptors.lean ====
section
/-! DEFINITION. What the command processor checks when a context is created: the context descriptor, the grove descriptor,
the steal plan, the handler table, placement and queues (R288, R301, R319 to R322, R337, R359). -/
namespace Sys2Proof.Machine

/-! ## Reading -/

/-- A little-endian field of some bytes. -/
def field (d : List Byte) (off n : Nat) : Nat := leNat ((d.drop off).take n)

/-- Bytes through a context's mappings, if every page is mapped. -/
def State.readMapped (s : State) (c : Context) (ia n : Nat) : Option (List Byte) :=
  if (c.firstUnmapped ia n).isSome then none
  else some ((pieceChunks ia n).flatMap fun p => match c.physical p.1 with
    | some pa => Memory.slice s.mem pa p.2
    | none => [])

/-- The parts of [a, a + n) that lie in one 4 KiB page each. -/
def pageChunks (a n : Nat) : List (Nat × Nat) :=
  if n = 0 then []
  else (upto ((a + n - 1) / 4096 - a / 4096 + 1)).map fun i =>
    let lo := max a ((a / 4096 + i) * 4096)
    (lo, min (a + n) ((a / 4096 + i + 1) * 4096) - lo)

/-- Bytes at a virtual address of a context, if they lie in readable mappings. -/
def State.readVirtual (s : State) (c : Context) (va n : Nat) : Option (List Byte) :=
  (pageChunks va n).foldl (fun acc p => acc.bind fun l =>
    match c.translate (BitVec.ofNat 64 p.1) permR with
    | .ok (ia, _) => if p.1 < 2 ^ 64 then (s.readMapped c ia p.2).map fun m => l ++ m else none
    | .error _ => none) (some [])

/-- The bytes [va, va + n) lie wholly in one range with some permissions. -/
def Context.wholly (c : Context) (va n : Nat) (need : BitVec 5) : Bool :=
  c.ranges.any fun r => r.len != 0 && decide (r.base ≤ va) && decide (va + n ≤ r.base + r.len) && permits r.perm need

/-- The status of the first check that fails. -/
def firstBad : List (Nat × Bool) → Option Nat
  | [] => none
  | (st, ok) :: r => if ok then firstBad r else some st

/-! ## The context descriptor (R319) -/

def descriptorBytes : Nat := 480
def groveBytes : Nat := 1280

/-- The sixteen range records. -/
def rangeRecords (d : List Byte) : List (Option Range) :=
  (upto 16).map fun i =>
    let w (k : Nat) : Dword := BitVec.ofNat 64 (field d (0x60 + 24 * i + 8 * k) 8)
    rangeOfWords (w 0) (w 1) (w 2)

/-- Two valid ranges of a list meet. -/
def rangesMeet : List Range → Bool
  | [] => false
  | r :: rest => rest.any r.meets || rangesMeet rest

def noRange : Range := { base := 0, len := 0, perm := 0, ibase := 0 }

/-- A context as its descriptor gives it, before the grove is known. -/
def contextOf (num : Nat) (d : List Byte) : Context :=
  let flags := field d 0x00B 1
  { emptyContext with
    num := num
    dev := field d 0x009 1
    prio := field d 0x00A 1
    strict := flags % 2 == 1
    owlWays := [0, 2, 4, 8].getD (flags / 2 % 4) 0
    seed := BitVec.ofNat 64 (field d 0x010 8)
    taskBase := field d 0x018 8
    taskSize := field d 0x020 8
    overSize := field d 0x030 8
    ringBase := field d 0x038 8
    ringSize := field d 0x040 8
    ranges := (rangeRecords d).map fun r => r.getD noRange
    formats := presetFormats }

/-- No range of the context covers an area (R27). -/
def Context.unreached (c : Context) (base size : Nat) : Bool :=
  c.ranges.all fun r => r.len == 0 || !overlaps r.ibase r.len base size

/-- The race ring is absent or lies wholly in one range with R and W, with room for a report (R299). -/
def Context.ringOk (c : Context) : Bool :=
  (c.ringBase == 0 && c.ringSize == 0) ||
    (decide (64 + 192 ≤ c.ringSize) && c.wholly c.ringBase c.ringSize (permR ||| permW))

/-- Bytes of a steal plan that the command processor reads. -/
def planBytes (head : List Byte) : Nat := 16 + 80 * min (field head 0 4) 64

/-- The steal plan's bytes: empty when there is none, none when it cannot be read. -/
def State.readPlan (s : State) (c : Context) (addr : Nat) : Option (List Byte) :=
  if addr = 0 then some []
  else (s.readMapped c addr 16).bind fun h => s.readMapped c addr (planBytes h)

/-- Step 1 of R319: the fields in ascending offset. -/
def State.checkDescriptor (s : State) (c : Context) (d : List Byte) : Option Nat :=
  let at_ (off : Nat) : Nat := 0x10000000 + off
  let area (off : Nat) : Bool := decide (field d off 8 + field d (off + 8) 8 ≤ 2 ^ 52)
  let ranges := rangeRecords d
  firstBad [
    (at_ 0x000, (s.readMapped c (field d 0 8) groveBytes).isSome),
    (at_ 0x008, [1, 2, 4, 8].contains (field d 0x008 1)),
    (at_ 0x009, decide (field d 0x009 1 < field d 0x008 1)),
    (at_ 0x00A, decide (field d 0x00A 1 ≤ 7)),
    (at_ 0x00B, decide (field d 0x00B 1 < 8)),
    (at_ 0x00C, field d 0x00C 4 == 0),
    (at_ 0x018, area 0x018 && c.unreached (field d 0x018 8) (field d 0x020 8)),
    (at_ 0x028, area 0x028),
    (at_ 0x038, c.ringOk),
    (at_ 0x048, (s.readPlan c (field d 0x048 8)).isSome),
    (at_ 0x050, (s.readVirtual c (field d 0x050 8) 4096).isSome),
    (at_ 0x058, field d 0x058 8 == 0),
    (at_ 0x060, ranges.all Option.isSome && !rangesMeet (ranges.filterMap id))]

/-! ## The grove descriptor (R320) -/

/-- The four role words. -/
def roleWords (g : List Byte) : List Nat := (upto 4).map fun i => field g (0x10 + 4 * i) 4

/-- The first role word that no role has (R121). -/
def badRole (ws : List Nat) : Option Nat :=
  (upto 4).find? fun i =>
    let w := ws.getD i 0
    w != 0 && (decide (2 ^ 16 ≤ w) || w / 256 % 256 == 0 || (i != 0 && ws.getD (i - 1) 0 == 0))

/-- Roles of the words. -/
def rolesOf (ws : List Nat) : List Role := (ws.filter fun w => w != 0).map fun w => { gangs := w % 256, blocks := w / 256 % 256 }

/-- Gangs of all roles. -/
def roleGangs (rs : List Role) : Nat := rs.foldl (fun n r => n + r.gangs) 0

/-- A demand word that does not fault FRAMEDEM (R58). -/
def demandWordOk (w : Nat) : Bool := decide (w < 256) && decide (demandRows (BitVec.ofNat 4 (w / 16)) ≤ demandRegs (BitVec.ofNat 4 w))

/-- The format table after the grove's own entries: one of zeros leaves what R71 presets. -/
def groveFormats (g : List Byte) : List Dword :=
  (upto 32).map fun i =>
    let own : Dword := if i < 8 then 0 else BitVec.ofNat 64 (field g (0x40 + 8 * (i - 8)) 8)
    if own = 0 then presetFormats.getD i 0 else own

/-- The number of R288's check that a registration fails, checks 2, 4 and 3 in that order. -/
def Context.badReducer (c : Context) (kind fmt rnd len home : Nat) : Option Nat :=
  let e := fmtOf (c.formats.getD fmt 0)
  let list := kind == 8
  let entryOk := list || (decide (fmt < 32) && (e.isInt || (decide (kind ≤ 4) && e.forVector)))
  let size := if list then 16 + 8 * len else len * (e.w / 8)
  firstBad [
    (2, decide (rnd ≤ 4)),
    (4, decide (1 ≤ kind) && decide (kind ≤ 8) && decide (1 ≤ len) && decide (len ≤ 4096) && entryOk),
    (3, c.wholly home size (permR ||| permW))]

/-- A registration (R288): it captures its entry. -/
def Context.newReducer (c : Context) (kind fmt rnd len home : Nat) : Reducer :=
  { kind := kind, entry := c.formats.getD fmt 0, rnd := BitVec.ofNat 3 rnd, len := len, home := home }

/-- The offset within a reducer record of the part that failed check n (R288). -/
def reducerOffset (n : Nat) : Nat := if n = 2 then 2 else if n = 3 then 8 else 0

/-- The fields of a reducer record: kind, format, rnd, byte 3, len, home. -/
def reducerField (g : List Byte) (id : Nat) : Nat × Nat × Nat × Nat × Nat × Nat :=
  let o := 0x100 + 16 * id
  (field g o 1, field g (o + 1) 1, field g (o + 2) 1, field g (o + 3) 1, field g (o + 4) 4, field g (o + 8) 8)

/-- Adds the grove's reducers from id 0 on, or answers the offset that fails. Byte 3 of a record, of kind 0 too, is looked at
before its home buffer: R288 moves only the kind behind rnd (R319, R320). -/
def Context.addReducers (c : Context) (g : List Byte) : Nat → Nat → Except Nat Context
  | 0, _ => .ok c
  | n + 1, id =>
    match reducerField g id with
    | (kind, fmt, rnd, pad, len, home) =>
      let padOff := 0x20000103 + 16 * id
      if kind = 0 then (if pad ≠ 0 then .error padOff else c.addReducers g n (id + 1))
      else match c.badReducer kind fmt rnd len home with
        | some k => .error (if k = 3 ∧ pad ≠ 0 then padOff else 0x20000100 + 16 * id + reducerOffset k)
        | none =>
          if pad ≠ 0 then .error padOff
          else ({ c with reducers := setAt c.reducers id (some (c.newReducer kind fmt rnd len home)) } : Context).addReducers g n (id + 1)

/-- Step 3 of R319 up to the formats: the fields in ascending offset. -/
def State.checkGrove (s : State) (c : Context) (g : List Byte) : Option Nat :=
  let at_ (off : Nat) : Nat := 0x20000000 + off
  let size := field g 0x006 1
  let ws := roleWords g
  let entry := field g 0x028 8
  let prio := s.readVirtual c (field g 0x038 8) (field g 0x024 2)
  firstBad ([
    (at_ 0x000, field g 0 4 == 0x00010000),
    (at_ 0x004, field g 4 2 != 0),
    (at_ 0x006, decide (1 ≤ size) && decide (size ≤ 8)),
    (at_ 0x007, field g 7 1 != 0 && decide (field g 7 1 < 2 ^ size)),
    (at_ 0x008, decide (field g 8 4 < 2 ^ 26)),
    (at_ 0x00C, decide (field g 12 4 < 64)),
    (at_ (0x010 + 4 * (badRole ws).getD 0), (badRole ws).isNone && roleGangs (rolesOf ws) == size),
    (at_ 0x020, field g 0x20 4 % 4096 == 0),
    (at_ 0x024, decide (1 ≤ field g 0x24 2) && decide (field g 0x24 2 ≤ 256)),
    (at_ 0x026, field g 0x26 2 == 0),
    (at_ 0x028, entry % 4 == 0 && (match c.translate (BitVec.ofNat 64 entry) permX with
      | .ok _ => true
      | .error _ => false)),
    (at_ 0x030, demandWordOk (field g 0x30 2)),
    (at_ 0x032, field g 0x32 6 == 0),
    (at_ 0x038, (match prio with
      | some l => l.all fun b => decide (b.toNat < 8)
      | none => false))] ++
    (upto 24).map fun i => (at_ (0x40 + 8 * i), entryValid (BitVec.ofNat 64 (field g (0x40 + 8 * i) 8))))

/-- The context with its grove (R320). -/
def State.withGrove (s : State) (c : Context) (g : List Byte) : Context :=
  let w := field g 0x30 2
  { c with
    crews := field g 4 2
    size := field g 6 1
    quorum := BitVec.ofNat 8 (field g 7 1)
    mode := BitVec.ofNat 32 (field g 8 4)
    ftrap := BitVec.ofNat 32 (field g 12 4)
    roles := rolesOf (roleWords g)
    scratch := field g 0x20 4
    queues := field g 0x24 2
    queuePrio := ((s.readVirtual c (field g 0x38 8) (field g 0x24 2)).getD []).map fun b => b.toNat
    entry := BitVec.ofNat 57 (field g 0x28 8)
    nf := BitVec.ofNat 4 w
    gf := BitVec.ofNat 4 (w / 16)
    formats := groveFormats g }

/-! ## Steal plan and handler table (R301, R337) -/

/-- Step 4: the plan's fields in ascending offset. -/
def checkPlan (p : List Byte) (crews : Nat) : Option Nat :=
  let at_ (off : Nat) : Nat := 0x50000000 + off
  let entry (e : Nat) : List (Nat × Bool) :=
    let depth := pedDepth (BitVec.ofNat 512 (field p (0x10 + 80 * e) 64))
    [(at_ (0x10 + 80 * e), decide (3 ≤ depth)),
     (at_ (0x50 + 80 * e), decide (field p (0x50 + 80 * e) 4 < crews)),
     (at_ (0x54 + 80 * e), field p (0x54 + 80 * e) 12 == 0)]
  firstBad ([(at_ 0, decide (field p 0 4 ≤ 64)), (at_ 4, decide (field p 4 4 ≤ 1)), (at_ 8, field p 8 8 == 0)] ++
    (upto (field p 0 4)).flatMap entry)

/-- The entries of a plan. -/
def planOf (p : List Byte) : List PlanEntry :=
  (upto (field p 0 4)).map fun e =>
    { ped := BitVec.ofNat 512 (field p (0x10 + 80 * e) 64), thief := field p (0x50 + 80 * e) 4 }

/-- Codes whose entries are read. -/
def handlerCode (c : Nat) : Bool := c != 0 && !(decide (0x19 ≤ c) && decide (c ≤ 0x3F))

/-- The first n entries of a table, sixteen bytes each. -/
def tableRows : Nat → List Byte → List (List Byte)
  | 0, _ => []
  | n + 1, t => t.take 16 :: tableRows n (t.drop 16)

/-- The entries that are read, each with its code. -/
def handlerRows (t : List Byte) : List (Nat × List Byte) :=
  ((upto 256).zip (tableRows 256 t)).filter fun p => handlerCode p.1

/-- An entry without a handler, or with one that may run. -/
def Context.handlerOk (c : Context) (r : List Byte) : Bool :=
  let e := field r 0 8
  let inX := match c.translate (BitVec.ofNat 64 e) permX with
    | .ok _ => true
    | .error _ => false
  e == 0 || (inX && e % 8 == 0 && demandWordOk (field r 8 2) && field r 10 6 == 0)

/-- Step 5: the handlers in ascending code. -/
def Context.checkHandlers (c : Context) (t : List Byte) : Option Nat :=
  firstBad ((handlerRows t).map fun p => (0x40000000 + p.1, c.handlerOk p.2))

/-- The handlers of a table. -/
def handlersOf (t : List Byte) : List Handler :=
  ((handlerRows t).filter fun p => field p.2 0 8 != 0).map fun p =>
    let w := field p.2 8 2
    { code := p.1, entry := BitVec.ofNat 57 (field p.2 0 8), nf := BitVec.ofNat 4 w, gf := BitVec.ofNat 4 (w / 16) }

/-! ## Placement and queues (R19, R321, R322, R358) -/

/-- Cores of a device in a partition mode. -/
def coresPer (mode : Nat) : Nat := Config.packageCores / mode

/-- Crews that one core can hold. -/
def Context.perCore (c : Context) : Nat :=
  let quota := c.roles.foldl (fun n r => n + r.blocks) 0
  min (16 / c.size) (min (124 / quota) (if c.scratch = 0 then 16 else 491520 / c.scratch))

/-- The grove can be placed. -/
def Context.placeable (c : Context) (mode : Nat) : Bool :=
  decide ((c.crews + coresPer mode - 1) / coresPer mode ≤ c.perCore)

/-- Queue indices in use on a device. -/
def State.usedQueues (s : State) (dev : Nat) : List Nat := (s.queues.filter fun q => q.dev == dev).map fun q => q.ix

/-- The lowest start of a run of n free queues at or above an index. -/
def lowestRun (used : List Nat) (n limit lo : Nat) : Option Nat :=
  let starts := sortBy (fun a b => decide (a < b)) (lo :: (used.map fun u => u + 1).filter fun u => decide (lo ≤ u))
  starts.find? fun b => decide (b + n ≤ limit) && used.all fun u => decide (u < b) || decide (b + n ≤ u)

/-- The grove's first queue and the error queue. -/
def State.findQueues (s : State) (c : Context) (mode : Nat) : Option (Nat × Nat) :=
  let used := s.usedQueues c.dev
  let limit := Config.packageQueues / mode
  (lowestRun used c.queues limit 0).bind fun base =>
    (lowestRun used 1 limit (base + c.queues)).map fun err => (base, err)

/-- All checks of R319 for a context whose pages are mapped: the context, or the status that refuses it. -/
def State.examine (s : State) (c : Context) (d : List Byte) : Except Nat Context :=
  match s.checkDescriptor c d with
  | some st => .error st
  | none =>
    let mode := field d 8 1
    let g := (s.readMapped c (field d 0 8) groveBytes).getD []
    let plan := (s.readPlan c (field d 0x48 8)).getD []
    let table := (s.readVirtual c (field d 0x50 8) 4096).getD []
    if !s.contexts.isEmpty && s.partition != some mode then .error 0x30000002
    else match s.checkGrove c g with
      | some st => .error st
      | none => match (s.withGrove c g).addReducers g 64 0 with
        | .error st => .error st
        | .ok c => match checkPlan plan c.crews with
          | some st => .error st
          | none => match c.checkHandlers table with
            | some st => .error st
            | none =>
              if !c.placeable mode then .error 0x30000000
              else match s.findQueues c mode with
                | none => .error 0x30000001
                | some (base, err) =>
                  .ok { c with
                    plan := planOf plan
                    exclusive := field plan 4 4 % 2 == 1
                    handlers := handlersOf table
                    queueBase := base
                    errQueue := err }

end Sys2Proof.Machine
end

