-- ==== Sys2Proof/Machine/Firmware.lean ====
section
/-! DEFINITION. The firmware image and its acceptance (R366): SHA-384, ECDSA over P-384, the layout of the image. R366 names
the two functions; their definitions are those of the standards it refers to (log 4). -/
namespace Sys2Proof.Machine

/-! ## SHA-384 (log 4) -/

/-- Trial division. -/
def isPrime (n : Nat) : Bool := decide (2 ≤ n) && (upto n).all fun d => decide (d < 2) || n % d != 0

/-- The first 80 primes. -/
def primes80 : List Nat := (upto 410).filter isPrime

/-- The largest r below 2^k with r^3 at most n. -/
def cubeRoot (n : Nat) : Nat → Nat → Nat
  | 0, r => r
  | k + 1, r => cubeRoot n k (if (r + 2 ^ k) ^ 3 ≤ n then r + 2 ^ k else r)

/-- The largest r below 2^k with r^2 at most n. -/
def squareRoot (n : Nat) : Nat → Nat → Nat
  | 0, r => r
  | k + 1, r => squareRoot n k (if (r + 2 ^ k) ^ 2 ≤ n then r + 2 ^ k else r)

/-- Round constants: 64 fraction bits of the cube roots of the primes. -/
def shaK : List Dword := primes80.map fun p => BitVec.ofNat 64 (cubeRoot (p * 2 ^ 192) 68 0)

/-- Initial hash: 64 fraction bits of the square roots of the ninth to sixteenth primes. -/
def shaInit : List Dword := ((primes80.drop 8).take 8).map fun p => BitVec.ofNat 64 (squareRoot (p * 2 ^ 128) 72 0)

def shaBig0 (x : Dword) : Dword := x.rotateRight 28 ^^^ x.rotateRight 34 ^^^ x.rotateRight 39
def shaBig1 (x : Dword) : Dword := x.rotateRight 14 ^^^ x.rotateRight 18 ^^^ x.rotateRight 41
def shaSmall0 (x : Dword) : Dword := x.rotateRight 1 ^^^ x.rotateRight 8 ^^^ (x >>> 7)
def shaSmall1 (x : Dword) : Dword := x.rotateRight 19 ^^^ x.rotateRight 61 ^^^ (x >>> 6)

/-- The next n schedule words; the list holds the last sixteen, newest first. -/
def shaSchedule : Nat → List Dword → List Dword
  | 0, _ => []
  | n + 1, w =>
    let v := shaSmall1 (w.getD 1 0) + w.getD 6 0 + shaSmall0 (w.getD 14 0) + w.getD 15 0
    v :: shaSchedule n (v :: w.take 15)

/-- One round over the eight working variables. -/
def shaRound (h : List Dword) (kw : Dword × Dword) : List Dword :=
  match h with
  | [a, b, c, d, e, f, g, i] =>
    let t1 := i + shaBig1 e + ((e &&& f) ^^^ (~~~e &&& g)) + kw.1 + kw.2
    let t2 := shaBig0 a + ((a &&& b) ^^^ (a &&& c) ^^^ (b &&& c))
    [t1 + t2, a, b, c, d + t1, e, f, g]
  | _ => h

/-- One block of sixteen words. -/
def shaBlock (h w : List Dword) : List Dword :=
  let all := w ++ shaSchedule 64 w.reverse
  ((h.zip ((shaK.zip all).foldl shaRound h)).map fun p => p.1 + p.2)

/-- The message with its padding. -/
def shaPadded (m : List Byte) : List Byte :=
  let fill := (239 - m.length % 128) % 128
  m ++ [0x80#8] ++ List.replicate fill 0#8 ++ beBytes 16 (8 * m.length)

/-- Blocks of words, hashed one after another. -/
def shaBlocks : Nat → List Dword → List Byte → List Dword
  | 0, h, _ => h
  | n + 1, h, m => shaBlocks n (shaBlock h ((upto 16).map fun i => BitVec.ofNat 64 (beNat ((m.drop (8 * i)).take 8)))) (m.drop 128)

/-- SHA-384 as a number. -/
def sha384 (m : List Byte) : Nat :=
  let p := shaPadded m
  beNat (((shaBlocks (p.length / 128) shaInit p).take 6).flatMap fun w => beBytes 8 w.toNat)

/-! ## ECDSA over P-384 (log 4) -/

def curveP : Nat := 2 ^ 384 - 2 ^ 128 - 2 ^ 96 + 2 ^ 32 - 1
def curveB : Nat := 0xb3312fa7e23ee7e4988e056be3f82d19181d9c6efe8141120314088f5013875ac656398d8a2ed19d2a85c8edd3ec2aef
def curveN : Nat := 0xffffffffffffffffffffffffffffffffffffffffffffffffc7634d81f4372ddf581a0db248b0a77aecec196accc52973
def curveG : Nat × Nat :=
  (0xaa87ca22be8b05378eb1c71ef320ad746e1d3b628ba79b9859f741e082542a385502f25dbf55296c3a545e3872760ab7,
   0x3617de4a96262c6f5d9e98bf9292dc29f8f41dbd289a147ce9da3113b5f0b8c00a60b1ce1d7e819d7a431d7c90ea0e5f)

/-- x^e mod m for e below 2^fuel. -/
def powMod (m : Nat) : Nat → Nat → Nat → Nat → Nat
  | 0, _, _, acc => acc
  | fuel + 1, x, e, acc => powMod m fuel (x * x % m) (e / 2) (if e % 2 = 1 then acc * x % m else acc)

/-- The inverse modulo a prime. -/
def invMod (m x : Nat) : Nat := powMod m 384 (x % m) (m - 2) 1

/-- The point on a line of slope l through two points. -/
def chord (l : Nat) (a b : Nat × Nat) : Nat × Nat :=
  let x := (l * l + 2 * curveP - a.1 - b.1) % curveP
  (x, (l * (a.1 + curveP - x) + curveP - a.2) % curveP)

/-- Addition of points; none is the point at infinity. -/
def addPoint : Option (Nat × Nat) → Option (Nat × Nat) → Option (Nat × Nat)
  | none, q => q
  | p, none => p
  | some a, some b =>
    if a.1 = b.1 then
      if a.2 = b.2 ∧ a.2 ≠ 0 then
        some (chord ((3 * a.1 * a.1 + curveP - 3) * invMod curveP (2 * a.2) % curveP) a a)
      else none
    else some (chord ((b.2 + curveP - a.2) * invMod curveP (b.1 + curveP - a.1) % curveP) a b)

/-- k P for k below 2^fuel. -/
def mulPoint : Nat → Nat → Option (Nat × Nat) → Option (Nat × Nat) → Option (Nat × Nat)
  | 0, _, _, acc => acc
  | fuel + 1, k, p, acc => mulPoint fuel (k / 2) (addPoint p p) (if k % 2 = 1 then addPoint acc p else acc)

/-- A public key as an uncompressed point on the curve. -/
def keyPoint (key : List Byte) : Option (Nat × Nat) :=
  let x := beNat ((key.drop 1).take 48)
  let y := beNat ((key.drop 49).take 48)
  if key.head? = some 4#8 ∧ x < curveP ∧ y < curveP ∧
      y * y % curveP = (x * x * x + (curveP - 3) * x + curveB) % curveP then some (x, y)
  else none

/-- A signature (r, s) of a hash under a key. -/
def ecdsaOk (key : List Byte) (r s hash : Nat) : Bool :=
  match keyPoint key with
  | none => false
  | some q =>
    if r = 0 ∨ curveN ≤ r ∨ s = 0 ∨ curveN ≤ s then false
    else
      let w := invMod curveN s
      let p := addPoint (mulPoint 384 (hash * w % curveN) (some curveG) none) (mulPoint 384 (r * w % curveN) (some q) none)
      match p with
      | some a => a.1 % curveN == r
      | none => false

/-! ## The image (R366) -/

/-- Bytes of an image before its body, and the largest image. -/
def imageHeader : Nat := 256
def imageLimit : Nat := 0x1000000

/-- Body length that an image states. -/
def imageBody (m : List Byte) : Nat := leNat ((m.drop 8).take 8)

/-- The collected bytes hold a whole image. -/
def imageWhole (m : List Byte) : Bool :=
  decide (imageHeader ≤ m.length) && decide (imageBody m ≤ imageLimit - imageHeader) &&
    decide (imageHeader + imageBody m ≤ m.length)

/-- The key is the one whose hash the boot ROM holds, and the signature is valid. -/
def imageSigned (m : List Byte) : Bool :=
  let key := (m.drop 0x10).take 97
  let body := (m.drop imageHeader).take (imageBody m)
  BitVec.ofNat 384 (sha384 key) == Config.bootKeyHash &&
    ecdsaOk key (beNat ((m.drop 0x80).take 48)) (beNat ((m.drop 0xB0).take 48)) (sha384 (m.take 0x80 ++ body))

/-- Version of an image. -/
def imageVersion (m : List Byte) : Word := BitVec.ofNat 32 (leNat (m.take 4))

end Sys2Proof.Machine
end

