-- ==== Sys2Proof/Machine/HostCommands.lean ====
section
/-! DEFINITION. The management queue: host commands and their answers (R357 to R360, R364, R366, R369), creation and
destruction of contexts (R20, R297, R319 to R322). -/
namespace Sys2Proof.Machine

/-! ## Answers (R357, R359) -/

/-- Posts an answer: the code with bit 31 set, the status, the answer words. -/
def State.answer (s : State) (code status : Nat) (words : List Word) : State :=
  let head : List Word := [BitVec.ofNat 32 (code + 2 ^ 31), BitVec.ofNat 32 status] ++ words
  { s with mgmtOut := s.mgmtOut ++ [head ++ List.replicate (16 - head.length) 0#32] }

/-- A command's answer is a status alone. -/
def State.refuse (s : State) (code status : Nat) : State := s.answer code status []

/-- Without a bridge in the link group no command is accepted (R355). -/
def State.accept (s : State) (body : State) : State := if s.bridged then body else s

/-- A command to a package that is cut off is answered with status 2; resuming a part names no device (R364, R369). -/
def State.reached (s : State) (code : Nat) (body : State) : State :=
  s.accept (if s.packageCut && code != 7 then s.refuse code 2 else body)

/-- A command that firmware runs: status 3 while only the boot ROM runs (R366). -/
def State.command (s : State) (code : Nat) (body : State) : State :=
  s.reached code (if s.boot = .running then body else s.refuse code 3)

/-- A command that names a context: status 7 when there is none, 2 when its device is cut off. -/
def State.onContext (s : State) (code ctx : Nat) (body : Context → State) : State :=
  s.command code (match s.ctx? ctx with
    | none => s.refuse code 7
    | some c => if s.cutOff c.dev then s.refuse code 2 else body c)

/-- A command that names a device. -/
def State.onDevice (s : State) (code dev : Nat) (body : State) : State :=
  s.command code (
    if s.devices ≤ dev then s.refuse code 7 else if s.cutOff dev then s.refuse code 2 else body)

/-! ## Create context -/

/-- Installs the page mappings that come with a creation. -/
def State.installAll (s : State) (ctx : Nat) : List (Nat × Dword) → Except (BitVec 8) State
  | [] => .ok s
  | (ia, ctl) :: r =>
    match s.installPage ctx (BitVec.ofNat 64 ia) ctl with
    | .error e => .error e
    | .ok s => s.installAll ctx r

/-- Core and position of a crew (R321). -/
def placeOf (dev mode rank : Nat) : Nat × Nat := (dev * coresPer mode + rank % coresPer mode, rank / coresPer mode)

/-- The root strand of a crew as a record to start (R20, R30). -/
def rootRecord (c : Context) (rank id : Nat) : TaskRec :=
  { flags := 0, ped := rootPed rank, entry := c.entry, join := none, nf := c.nf, gf := c.gf, segment := 0, argmap := 0xAAAA, args := [],
    mark := none, lineage := [], id := id }

/-- A crew of a new grove. -/
def newCrew (c : Context) (mode tick rank : Nat) : Crew :=
  let p := placeOf c.dev mode rank
  { emptyCrew with
    ctx := c.num
    rank := rank
    core := p.1
    pos := p.2
    quota := c.roles.map fun r => r.blocks
    taken := some (rootRecord c rank (tick + rank)) }

/-- The gangs of a new crew; on a core where another context is resident their state waits in the save image. -/
def State.newGangs (s : State) (c : Context) (k : Crew) : List Gang :=
  let away := (s.core k.core).resident.isSome
  (upto c.size).map fun r => { emptyGang with id := ⟨c.num, k.rank, r⟩, live := true, away := away }

/-- The lowest ways for the crews of a context on a core (R268). -/
def scratchMask (crews scratch : Nat) : BitVec 16 := BitVec.ofNat 16 (2 ^ ((crews * scratch + wayBytes - 1) / wayBytes) - 1)

/-- A core takes a new context: as the resident one, or as one that waits for its turn. -/
def CoreSt.admitContext (k : CoreSt) (ctx : Nat) (ways : BitVec 16) : CoreSt :=
  let k := k.setWays ctx ways
  if k.resident.isNone then { k with resident := some ctx, units := 0 } else { k with saved := k.saved ++ [ctx] }

/-- Queues of a grove and its error queue (R322, R358). -/
def queuesOf (c : Context) : List Queue :=
  ((upto c.queues).map fun i =>
    ({ dev := c.dev, ix := c.queueBase + i, ctx := c.num, grove := some i, prio := c.queuePrio.getD i 0, msgs := [] } : Queue)) ++
  [{ dev := c.dev, ix := c.errQueue, ctx := c.num, grove := none, prio := 0, msgs := [] }]

/-- Every set of a device's slices holds no more granules than its data ways (R297). -/
def State.trimL2 (s : State) (dev : Nat) : State :=
  let mine (q : L2Piece) : Bool := decide (s.firstCore dev ≤ q.slice) && decide (q.slice < s.firstCore dev + s.slicesOf)
  (s.l2.filter mine).foldl (fun s q => State.trimSet q.slice q.set (16 - s.owlWays dev) none 16 s) s

/-- Places a context that has passed every check; ways that it gives to Owl entries or to scratch hold no data any more (R268,
R297). -/
def State.addContext (s : State) (c : Context) (mode : Nat) : State :=
  let crews := (upto c.crews).map (newCrew c mode s.tick)
  let gangs := crews.flatMap (s.newGangs c)
  let s :=
    { s with
      contexts := s.contexts ++ [c]
      crews := s.crews ++ crews
      others := s.others ++ gangs
      queues := s.queues ++ queuesOf c
      partition := some mode
      nextCtx := s.nextCtx + 1
      tick := s.tick + c.crews }
  (distinct (crews.map fun k => k.core)).foldl (fun s ix =>
    let n := (crews.filter fun k => k.core == ix).length
    (s.modCore ix fun k => k.admitContext c.num (scratchMask n c.scratch)).trimL1 ix) (s.trimL2 c.dev)

/-- CREATE_CONTEXT (R319 to R322, R357); the mappings make the descriptors readable (log 7). -/
def execCreateContext (pa : Nat) (maps : List (Nat × Dword)) (s : State) : Host.Outcome State Fault Refusal :=
  runEvent s (some (s.command 1 (
    if 4 * Config.spokeBytes < pa + descriptorBytes then s.refuse 1 8
    else
      let d := Memory.slice s.mem pa descriptorBytes
      let c := contextOf s.nextCtx d
      if s.cutOff c.dev then s.refuse 1 2
      else match ({ s with contexts := s.contexts ++ [c] } : State).installAll c.num maps with
        | .error e => s.refuse 1 (if e = codeQuota then 10 else 8)
        | .ok t =>
          let c := t.ctx c.num
          let t := { t with contexts := s.contexts }
          match t.examine c d with
          | .error st => s.refuse 1 st
          | .ok c => (t.addContext c (field d 8 1)).answer 1 0 [BitVec.ofNat 32 c.num, BitVec.ofNat 32 c.errQueue])))

/-! ## Destroy context -/

/-- A page-size code from a size. -/
def sizeCode (size : Nat) : Nat := ((upto 5).find? fun k => pageSize k == size).getD 0

/-- What the gangs of a context hold goes back to their cores. -/
def State.releaseContext (s : State) (ctx : Nat) : State :=
  (s.gangs.filter fun g => g.id.ctx == ctx).foldl (fun s g => s.release g.id g.heldRows g.heldCompact) s

/-- A core without a context. -/
def CoreSt.dropContext (k : CoreSt) (ctx : Nat) : CoreSt :=
  { k with
    resident := if k.resident = some ctx then none else k.resident
    saved := k.saved.filter fun c => c != ctx
    preempt := if k.preempt = some ctx ∨ k.resident = some ctx then none else k.preempt
    copies := k.copies.filter fun c => c.gang.ctx != ctx
    mats := k.mats.filter fun m => m.ctx != ctx
    wayMasks := k.wayMasks.filter fun p => p.1 != ctx }

/-- Owl entries beyond the ways a device still reserves: the oldest of a set go and count as evicted (R297, log 6). -/
def State.trimOwl (s : State) (dev : Nat) : State :=
  let ways := s.owlWays dev
  let newer (e : OwlEntry) : Nat :=
    (s.owl.filter fun f => f.dev == dev && s.owlSet f.piece == s.owlSet e.piece && decide (e.since < f.since)).length
  let lost := s.owl.filter fun e => e.dev == dev && decide (ways ≤ newer e)
  let s := { s with owl := s.owl.filter fun e => !lost.contains e }
  lost.foldl (fun s e => s.modCtx e.ctx fun c => { c with owlEvicted := c.owlEvicted + 1 }) s

/-- Removes a context with all it has. Its device keeps its pool pages, under its number even when a later partition mode has fewer
devices: the model's choice (log 78). -/
def State.removeContext (s : State) (ctx : Nat) : State :=
  let c := s.ctx ctx
  let s : State := (s.releaseContext ctx).flushContext ctx
  let s : State := (c.maps.filter fun m => m.pooled).foldl (fun (s : State) m => s.returnPage c.dev (sizeCode m.size) m.pa) s
  let snaps := (((s.ctx ctx).capture.map Capture.snaps).getD [])
  let s : State := snaps.foldl (fun (s : State) p => s.returnPage c.dev 0 p.2) s
  let rest := s.contexts.filter fun x => x.num != ctx
  let s :=
    { s with
      cur := if s.cur.id.ctx == ctx then emptyGang else s.cur
      others := s.others.filter fun g => g.id.ctx != ctx
      crews := s.crews.filter fun k => k.ctx != ctx
      contexts := rest
      queues := s.queues.filter fun q => q.ctx != ctx
      peerAdds := s.peerAdds.filter fun p => p.fromCtx != ctx
      owl := s.owl.filter fun e => e.ctx != ctx
      readers := s.readers.filter fun r => r.ctx != ctx
      cores := s.cores.map fun (k : CoreSt) => k.dropContext ctx
      partition := if rest.isEmpty then none else s.partition }
  let last := !rest.any fun x => x.dev == c.dev
  (({ s with quarantined := if last then s.quarantined.filter fun q => q.dev != c.dev else s.quarantined } : State).trimOwl
    c.dev).releaseHost

/-- DESTROY_CONTEXT (R357, R360). -/
def execDestroyContext (ctx : Nat) (s : State) : Host.Outcome State Fault Refusal :=
  runEvent s (some (s.onContext 2 ctx fun _ => (s.removeContext ctx).answer 2 0 []))

/-! ## Reducers and pages -/

/-- RREG (R288): the entry is the one on the hub (R93, R94). -/
def execRreg (ctx id kind fmt rnd len : Nat) (home : Dword) (s : State) : Host.Outcome State Fault Refusal :=
  runEvent s (some (s.onContext 3 ctx fun c =>
    if 64 ≤ id then s.refuse 3 8
    else if (c.reducer? id).isSome then s.refuse 3 0x60000001
    else match ({ c with formats := c.hubFormats } : Context).badReducer kind fmt rnd len home.toNat with
      | some k => s.refuse 3 (0x60000000 + k)
      | none =>
        let r := ({ c with formats := c.hubFormats } : Context).newReducer kind fmt rnd len home.toNat
        (s.setCtx { c with reducers := setAt c.reducers id (some r) }).answer 3 0 []))

/-- MAP_PAGE (R249, R259, R360). -/
def execMapPage (ctx : Nat) (ia ctl : Dword) (s : State) : Host.Outcome State Fault Refusal :=
  runEvent s (some (s.onContext 4 ctx fun _ =>
    match s.installPage ctx ia ctl with
    | .error e => s.refuse 4 (if e = codeQuota then 10 else 8)
    | .ok s => s.answer 4 0 []))

/-- Writes back and invalidates every cached piece of a physical page that a test picks (R258). -/
def State.invalidatePage (s : State) (pa size : Nat) (pick : Nat → Bool) : State :=
  let inside (a : Nat) : Bool := decide (pa ≤ a) && decide (a < pa + size) && pick a
  let ps := (s.l2.filter fun q => inside q.pa).map fun q => q.pa
  let ms := (s.msc.filter fun l => inside (64 * l)).map fun l => 64 * l
  let ls := (s.l1.filterMap fun l => (s.ctx l.ctx).physical (64 * l.piece)).filter inside
  (distinct (ps ++ ms ++ ls)).foldl (fun s a => (s.flushPiece a).dropPiece a) s

/-- The mapping that an unmap command withdraws: the one in use for an address (R257). -/
def Context.mapAt (c : Context) (ia : Nat) : Option PageMap :=
  c.maps.find? fun m => decide (m.ia ≤ ia) && decide (ia < m.ia + m.size)

/-- A spoke is done with the invalidation of a page that the host's unmap command withdraws, before the others: it faults PAGE
for its regions of the page, and they may still translate (R259). -/
def State.unmapSpoke (s : State) (ctx ia spoke : Nat) : State :=
  match s.ctx? ctx with
  | none => s
  | some c => match c.mapAt ia with
    | none => s
    | some m =>
      if !s.bridged || s.boot != .running || s.cutOff c.dev || m.gone.contains spoke || !(pageSpokes m.ia m.size).contains spoke then s
      else
        let withdraw (x : PageMap) : PageMap := if x = m then { x with gone := x.gone ++ [spoke] } else x
        (s.invalidatePage m.pa m.size fun a => translatingSpoke (m.ia + (a - m.pa)) == spoke).modCtx ctx fun c =>
          { c with maps := c.maps.map withdraw }

/-- UNMAP_PAGE (R257 to R259, R360): the mapping in use is withdrawn at every spoke. -/
def execUnmapPage (ctx : Nat) (ia : Dword) (s : State) : Host.Outcome State Fault Refusal :=
  runEvent s (some (s.onContext 5 ctx fun c =>
    match c.mapAt ia.toNat with
    | none => s.answer 5 0 [0]
    | some m =>
      let s := (s.invalidatePage m.pa m.size fun _ => true).modCtx ctx fun c => { c with maps := c.maps.erase m }
      let s := { s with owl := s.owl.filter fun e => !(e.ctx == ctx && overlaps (64 * e.piece) 64 m.ia m.size) }
      (if m.pooled then s.returnPage c.dev (sizeCode m.size) m.pa else s).answer 5 0 [1]))

/-! ## Status (R353) -/

/-- The code of a capture state. -/
def CaptureState.code : CaptureState → Nat
  | .none => 0
  | .running => 1
  | .complete => 2
  | .aborted => 3

/-- Cores whose counters a context owns, as of the end of the last capture. -/
def State.ownedCores (s : State) (c : Context) : List Nat :=
  if c.capState = .complete ∨ c.capState = .aborted then c.capOwned
  else sortBy (fun a b => decide (a < b)) ((s.cores.filter fun k => k.ctrOwner == some c.num).map fun k => k.ix)

/-- A core entry of a pass record. -/
def PassCore.image (p : PassCore) : List Byte :=
  leBytes 4 p.core ++ p.sels ++ leBytes 8 0 ++ p.vals.flatMap fun v => leBytes 8 v.toNat

/-- A pass record. -/
def PassRec.image (p : PassRec) (owned : List Nat) : List Byte :=
  let flags := (if p.mismatch then 1 else 0) + (if p.snapFull then 2 else 0) + if p.aborted then 4 else 0
  let head := leBytes 4 p.num ++ leBytes 4 flags ++ leBytes 8 p.sig.toNat ++ leBytes 8 p.pages ++ leBytes 40 0
  head ++ owned.flatMap fun k => match p.cores.find? fun e => e.core == k with
    | some e => e.image
    | none => leBytes 4 k ++ leBytes 44 0

/-- The context status. -/
def State.statusImage (s : State) (c : Context) : List Byte :=
  let owned := s.ownedCores c
  leBytes 8 c.owlEvicted ++ leBytes 4 c.passes.length ++ leBytes 4 owned.length ++ leBytes 4 c.capState.code ++ leBytes 44 0 ++
    c.passes.flatMap fun p => p.image owned

/-- READ_STATUS (R353, R357). -/
def execReadStatus (ctx pa size : Nat) (s : State) : Host.Outcome State Fault Refusal :=
  runEvent s (some (s.onContext 6 ctx fun c =>
    let img := s.statusImage c
    if size % 4096 ≠ 0 ∨ 4 * Config.spokeBytes < pa + size then s.refuse 6 8
    else if size < img.length then s.answer 6 9 [BitVec.ofNat 32 img.length]
    else (s.putPhysical pa img).answer 6 0 [BitVec.ofNat 32 img.length]))

/-! ## Parts, pools -/

/-- RESUME_PART (R364, R369): devices that have posted their answer issue again. -/
def execResumePart (s : State) : Host.Outcome State Fault Refusal :=
  runEvent s (some (s.command 7 (
    let back := s.quarantined.filter fun q => q.posted
    ({ s with quarantined := s.quarantined.filter fun q => !q.posted } : State).answer 7 0 [BitVec.ofNat 32 back.length])))

/-- A page may enter a pool (R360): as an explicit base, and in no pool and no mapping. -/
def State.poolable (s : State) (base size : Nat) : Bool :=
  base % size == 0 && physicalOk base size && !s.inPool base size &&
    !s.contexts.any fun c => c.maps.any fun m => overlaps m.pa m.size base size

/-- ADD_POOL_PAGES (R360). -/
def execAddPoolPages (dev size base count : Nat) (s : State) : Host.Outcome State Fault Refusal :=
  runEvent s (some (s.onDevice 10 dev (
    let n := pageSize size
    if 4 < size ∨ 4 * Config.spokeBytes < base + count * n then s.refuse 10 8
    else
      let pages := (upto count).map fun i => base + i * n
      if pages.all fun p => s.poolable p n then
        (pages.foldl (fun s p => s.returnPage dev size p) s).answer 10 0 [BitVec.ofNat 32 count]
      else s.refuse 10 8)))

/-- WITHDRAW_POOL_PAGE (R360). -/
def execWithdrawPoolPage (dev size : Nat) (s : State) : Host.Outcome State Fault Refusal :=
  runEvent s (some (s.onDevice 11 dev (
    if 4 < size then s.refuse 11 8
    else match s.poolHead dev size with
      | none => s.refuse 11 10
      | some p =>
        let base : Dword := BitVec.ofNat 64 p.base
        ({ s with pools := s.pools.erase p } : State).answer 11 0 [base.extractLsb' 0 32, base.extractLsb' 32 32])))

/-! ## Firmware (R366) -/

/-- BOOT_STATUS (R366). -/
def execBootStatus (s : State) : Host.Outcome State Fault Refusal :=
  runEvent s (some (s.reached 16 (
    let st : Word := match s.boot with
      | .rom => 0
      | .running => 1
      | .refused => 2
    let version := if s.boot = .running then s.version else 0
    s.answer 16 0 [st, version, Config.fusedMinimum, BitVec.ofNat 32 s.image.length])))

/-- The last chunk is in: the image is accepted or refused. -/
def State.judgeImage (s : State) (m : List Byte) : State :=
  let refused (status : Nat) : State := ({ s with image := [], boot := .refused } : State).answer 17 status [0]
  if !imageWhole m then ({ s with image := [] } : State).answer 17 6 [0]
  else if !imageSigned m then refused 4
  else if (imageVersion m).ult Config.fusedMinimum then refused 5
  else ({ s with image := m, boot := .running, version := imageVersion m } : State).answer 17 0 [BitVec.ofNat 32 m.length]

/-- DOWNLOAD (R366): only the last chunk may reach past 16 MiB, and its bytes beyond are ignored. -/
def execDownload (last : Bool) (off : Nat) (chunk : List Byte) (s : State) : Host.Outcome State Fault Refusal :=
  runEvent s (some (s.reached 17 (
    let beyond := if last then imageLimit ≤ off else imageLimit < off + chunk.length
    if s.boot = .running then s.refuse 17 8
    else if off ≠ s.image.length ∨ beyond ∨ chunk.length ≠ 48 then
      ({ s with image := [] } : State).answer 17 6 [0]
    else
      let m := (s.image ++ chunk).take imageLimit
      if last then s.judgeImage m else ({ s with image := m } : State).answer 17 0 [BitVec.ofNat 32 m.length])))

/-! ## Raw commands (R357) -/

/-- The command of 16 words, none for an unknown code. -/
def commandOf (w : List Word) : Option Instr :=
  let at_ (i : Nat) : Nat := (w.getD i 0).toNat
  let pair (i : Nat) : Dword := pairOf (w.getD i 0) (w.getD (i + 1) 0)
  match at_ 0 with
  | 1 => some (.createContext (pair 2).toNat [])
  | 2 => some (.destroyContext (at_ 2))
  | 3 => some (.rreg (at_ 2) (at_ 3) (at_ 4) (at_ 5) (at_ 6) (at_ 7) (pair 8))
  | 4 => some (.mapPage (at_ 2) (pair 3) (pair 5))
  | 5 => some (.unmapPage (at_ 2) (pair 3))
  | 6 => some (.readStatus (at_ 2) (pair 3).toNat (at_ 5))
  | 7 => some .resumePart
  | 10 => some (.addPoolPages (at_ 2) (at_ 3) (pair 4).toNat (at_ 6))
  | 11 => some (.withdrawPoolPage (at_ 2) (at_ 3))
  | 16 => some .bootStatus
  | 17 => some (.download ((w.getD 2 0).getLsbD 0) (at_ 3) ((w.drop 4).flatMap fun x => leBytes 4 x.toNat))
  | _ => none

/-- The answer to a command of no known code: 3 while only the boot ROM runs, else 7 (R359, R366). -/
def State.unknownCommand (s : State) (w : List Word) : State :=
  let code := (w.getD 0 0).toNat % 2 ^ 31
  s.command code (s.refuse code 7)

end Sys2Proof.Machine
end

