-- ==== Sys2Proof/Machine/HostTraffic.lean ====
section
/-! DEFINITION. The events of host reads and writes through a context's mappings, at system scope (R267, R349, R355, R356,
R359). -/
namespace Sys2Proof.Machine

/-- A host access comes through the bridge (R355); what may go on of those held before it goes first. -/
def State.hostAccess (s : State) (r : HostReq) : Option State := if s.bridged then some (s.releaseHost.hostRequest r) else none

/-- HOST_WRITE (R355, R356): acknowledged once applied. -/
def execHostWrite (ctx ia : Nat) (bytes : List Byte) (s : State) : Host.Outcome State Fault Refusal :=
  runEvent s (s.hostAccess { ctx := ctx, ia := ia, write := true, bytes := bytes, count := 0 })

/-- HOST_READ (R355). -/
def execHostRead (ctx ia count : Nat) (s : State) : Host.Outcome State Fault Refusal :=
  runEvent s (s.hostAccess { ctx := ctx, ia := ia, write := false, bytes := [], count := count })

end Sys2Proof.Machine
end

