-- ==== Sys2Proof/Machine/LinkEvents.lean ====
section
/-! DEFINITION. Nyram Link (R355, R361 to R364): flits and their order at a port, replay, packets, transactions kept until they
are acknowledged and applied at most once, ports that go down, quarantine and reconnection (R364, R369): a device that is cut off
sends nothing. What a payload says is not stated: the agenda tells what a transaction asks for (log 10). -/
namespace Sys2Proof

/-! ## Headers (R361) -/

def Flit.field (f : Flit) (lo n : Nat) : Nat := f.header.toNat / 2 ^ lo % 2 ^ n
def Flit.tseq (f : Flit) : Nat := f.field 48 16
def Flit.src (f : Flit) : Nat := f.field 40 8
def Flit.dst (f : Flit) : Nat := f.field 32 8
def Flit.vc (f : Flit) : Nat := f.field 30 2
def Flit.kind (f : Flit) : Nat := f.field 24 6
def Flit.lseq (f : Flit) : Nat := f.field 16 8
def Flit.len (f : Flit) : Nat := f.field 8 8
def Flit.idx (f : Flit) : Nat := f.field 0 8

def kindRead : Nat := 1
def kindWrite : Nat := 2
def kindPost : Nat := 4
def kindCommand : Nat := 5
def kindResponse : Nat := 3
def kindAck : Nat := 6

/-- The channel that never waits for a data channel (R361, R362). -/
def channelEscape : Nat := 2

/-- The packet that a flit is of: numbers are per source and destination (R361). -/
def Flit.key (f : Flit) : Nat × Nat × Nat × Nat := (f.src, f.dst, f.tseq, f.kind)

/-- A header from its fields. -/
def linkHeader (tseq src dst vc kind len idx : Nat) : Dword :=
  BitVec.ofNat 64 (tseq % 2 ^ 16 * 2 ^ 48 + src % 256 * 2 ^ 40 + dst % 256 * 2 ^ 32 + vc % 4 * 2 ^ 30 + kind % 64 * 2 ^ 24 +
    len % 256 * 2 ^ 8 + idx % 256)

/-- A flit with the port's link sequence number. -/
def Flit.withSeq (f : Flit) (q : BitVec 8) : Flit :=
  { f with header := (f.header &&& ~~~(0xFF0000#64)) ||| ((q.setWidth 64 : Dword) <<< 16) }

/-- A flit on the escape channel. -/
def Flit.escape (f : Flit) : Flit := { f with header := (f.header &&& ~~~(0xC0000000#64)) ||| 0x80000000#64 }

end Sys2Proof

namespace Sys2Proof.Machine

/-! ## Ports (R355, R362) -/

def linkPorts : Nat := 18

/-- A port after training. -/
def freshPort (num : Nat) : Port :=
  { num := num, up := true, expect := 0, sendSeq := 0, unacked := [], waiting := [], escape := [], wire := [], parts := [] }

def State.port (s : State) (num : Nat) : Port := (s.ports.find? fun p => p.num == num).getD (freshPort num)

def State.setPort (s : State) (p : Port) : State := { s with ports := p :: s.ports.filter fun q => q.num != p.num }

/-- A flit goes out under the next link sequence number and stays in the replay buffer. -/
def Port.emit (p : Port) (f : Flit) : Port :=
  let g := f.withSeq p.sendSeq
  { p with unacked := p.unacked ++ [g], wire := p.wire ++ [g], sendSeq := p.sendSeq + 1 }

/-- Flits of the data channels that wait go out while the replay buffer has room beside the reserved slot (R362). -/
def Port.pumpData (p : Port) : Port :=
  let room := Config.replayFlits - Config.slotFlits - (p.unacked.filter fun f => f.vc != channelEscape).length
  (p.waiting.take room).foldl Port.emit { p with waiting := p.waiting.drop room }

/-- The flits of one packet go out by the reserved slot: of the packet that holds it, else of the first that waits; they never
wait for a data channel (R362; log 77). -/
def Port.pumpEscape (p : Port) : Port :=
  let held := p.unacked.filter fun f => f.vc == channelEscape
  match (held ++ p.escape).head? with
  | none => p
  | some h =>
    let mates := p.escape.filter fun f => f.key == h.key
    let room := Config.slotFlits - held.length
    (mates.take room).foldl Port.emit { p with escape := mates.drop room ++ p.escape.filter fun f => f.key != h.key }

/-- What may go out goes out. -/
def Port.pump (p : Port) : Port := p.pumpEscape.pumpData

/-- The far end acknowledges the first flits of the replay buffer. -/
def Port.acked (p : Port) (n : Nat) : Port := { p with unacked := p.unacked.drop n }

/-- A port that leads to other devices: any but the one in host mode (R355). -/
def State.toDevices (s : State) (port : Nat) : Bool := decide (port < linkPorts) && s.hostPort != some port

/-- Another port that is up and leads to other devices. -/
def State.otherPort (s : State) (port : Nat) : Option Nat :=
  (upto linkPorts).find? fun n => n != port && s.toDevices n && (s.port n).up

/-- A device number of the group is one of the package's (R355). -/
def State.isOurs (s : State) (dst : Nat) : Bool := decide (s.number ≤ dst) && decide (dst < s.number + s.mode)

/-- A device of the group that is not to be heard: a device of the package that is cut off, or while all of them are one of
another package, whose flits would pass through (R364, R369). -/
def State.isMute (s : State) (n : Nat) : Bool := if s.isOurs n then s.isCut (n - s.number) else s.packageCut

/-- A flit that waits for its source to be connected again (R369). -/
def State.mute (s : State) (f : Flit) : Bool := s.isMute f.src

/-- What may go out at a port goes out; flits of devices that are cut off stay behind (R362, R369). -/
def State.pump (s : State) (p : Port) : Port :=
  let q := ({ p with waiting := p.waiting.filter (fun f => !s.mute f), escape := p.escape.filter fun f => !s.mute f } : Port).pump
  { q with waiting := q.waiting ++ p.waiting.filter s.mute, escape := q.escape ++ p.escape.filter s.mute }

/-- Sends flits at a port, each behind those of its channel that wait there. -/
def State.sendAt (s : State) (port : Nat) (fs : List Flit) : State :=
  let p := s.port port
  if p.up then
    s.setPort (s.pump
      { p with
        waiting := p.waiting ++ fs.filter (fun f => f.vc != channelEscape)
        escape := p.escape ++ fs.filter (fun f => f.vc == channelEscape) })
  else s

/-- Sends flits by a port, or through a third device on the escape channel when that port is down (R362). Those of a device that
is cut off are not sent: their transactions wait in its buffer (R369). -/
def State.route (s : State) (port : Nat) (fs : List Flit) : State :=
  match fs.filter fun f => !s.mute f with
  | [] => s
  | out =>
    if (s.port port).up then s.sendAt port out
    else match s.otherPort port with
      | some n => s.sendAt n (out.map Flit.escape)
      | none => s

/-! ## Packets and transactions (R363) -/

/-- The flits of a whole packet, in order, that a flit completes. -/
def Port.packet (p : Port) (f : Flit) : Option (List Flit) :=
  let mine := p.parts.filter fun q => q.key == f.key
  let found := (upto f.len).map fun i => mine.find? fun q => q.idx == i
  if found.all Option.isSome then some (found.filterMap id) else none

/-- The answer to a transaction: an end-to-end acknowledgement. -/
def ackOf (f : Flit) : Flit :=
  { header := linkHeader f.tseq f.dst f.src f.vc kindAck 1 0, payload := List.replicate 56 0 }

/-- A destination acknowledges a transaction that it has applied, with a read's answer (R363). -/
def State.acknowledge (s : State) (t : Transaction) (port : Nat) : State :=
  match t.flits with
  | f :: _ => if t.done then s.route port (t.answer ++ [ackOf f]) else s
  | [] => s

/-- A packet has come in: an acknowledgement ends a transaction of ours, a response is kept with it; any other is kept once for its
source and number, to be applied, and once applied is acknowledged each time it comes, a read answered again. -/
def State.takePacket (s : State) (port : Nat) (f : Flit) (fs : List Flit) : State :=
  let mine (t : Transaction) : Bool := t.own == f.dst && t.peer == f.src && t.tseq.toNat == f.tseq
  if f.kind = kindAck then { s with sent := s.sent.filter fun t => !mine t }
  else if f.kind = kindResponse then { s with sent := updateWhere mine (fun t => { t with answer := fs }) s.sent }
  else
    match s.applied.find? mine with
    | some t => s.acknowledge t port
    | none => { s with applied := s.applied ++
        [{ own := f.dst, peer := f.src, tseq := BitVec.ofNat 16 f.tseq, flits := fs, port := port, answer := [] }] }

/-- A flit that arrived correct and in order: one of the reserved channel or an unknown kind is counted and discarded, a device
that is cut off accepts nothing (R364), one for a device of another package goes on by another port (R362). -/
def State.takeFlit (s : State) (port : Nat) (f : Flit) : State :=
  if f.vc = 3 ∨ f.kind = 0 ∨ 6 < f.kind ∨ f.len = 0 ∨ 9 < f.len ∨ f.len ≤ f.idx then { s with discarded := s.discarded + 1 }
  else if s.isMute f.dst then s
  else if !s.isOurs f.dst then
    match s.otherPort port with
    | some n => s.sendAt n [f]
    | none => s
  else
    let p := s.port port
    let p : Port := { p with parts := p.parts.filter (fun q => !(q.key == f.key && q.idx == f.idx)) ++ [f] }
    match p.packet f with
    | none => s.setPort p
    | some fs =>
      let left := p.parts.filter fun q => q.key != f.key
      (s.setPort { p with parts := left }).takePacket port f fs

/-- LINK_FLIT_RECEIVE (R361 to R363): a flit with a CRC error or out of order is dropped. -/
def execLinkFlitReceive (port : Nat) (flit : Flit) (crcOk : Bool) (s : State) : Host.Outcome State Fault Refusal :=
  runEvent s (
    let p := s.port port
    if linkPorts ≤ port || !p.up then none
    else if !crcOk || flit.lseq != p.expect.toNat then some s
    else some ((s.setPort { p with expect := p.expect + 1 }).takeFlit port flit))

/-- Flits of a port that is down go through a third device on the escape channel; those of packets that hold or wait for its
reserved slot are discarded (R362, R363). -/
def State.reroute (s : State) (port : Nat) : State :=
  let p := s.port port
  let s := s.setPort { p with up := false, unacked := [], waiting := [], escape := [], wire := [], parts := [] }
  s.route port ((p.unacked ++ p.waiting).filter fun f => f.vc != channelEscape)

/-- Every device of the package quarantines: the package is cut off from a bridge that is not its own (R355, R364). -/
def State.linkCut (s : State) : State :=
  if s.hostPort.isSome then s else { s with quarantined := (upto s.devices).map fun d => { dev := d, posted := false } }

/-- PORT_DOWN (R362 to R364): flits were outstanding; with the last way to the bridge the package is cut off, and they wait with
their transactions (R369). -/
def execPortDown (port : Nat) (cut : Bool) (s : State) : Host.Outcome State Fault Refusal :=
  runEvent s (
    let p := s.port port
    if linkPorts ≤ port || !p.up || p.unacked.isEmpty then none
    else some ((if cut then s.linkCut else s).reroute port))

/-- E2E_RETRANSMIT (R363): the same transaction number on another route; a device that is cut off waits until it is connected
again (R364, R369). -/
def execE2eRetransmit (dst tseq port : Nat) (s : State) : Host.Outcome State Fault Refusal :=
  let mine (t : Transaction) : Bool := t.peer == dst && t.tseq.toNat == tseq && t.port != port && !s.isMute t.own
  runEvent s (
    match s.sent.find? mine with
    | none => none
    | some t =>
      if !s.toDevices port || !(s.port port).up then none
      else
        let s := { s with sent := updateWhere (fun u => mine u && u.own == t.own) (fun t => { t with port := port }) s.sent }
        some (s.sendAt port t.flits))

/-- Ports that were down are up again, trained anew. -/
def State.retrain (s : State) : State := { s with ports := s.ports.map fun (p : Port) => if p.up then p else freshPort p.num }

/-- The flits that waited while their devices were cut off go out once those are not any more (R369). -/
def State.pumpAll (s : State) : State := { s with ports := s.ports.map s.pump }

/-- LINK_RECONNECT (R364): the links are up, the device posts its unsolicited answer with its number in the group; it issues again
after code 7 (R369). -/
def execLinkReconnect (dev : Nat) (s : State) : Host.Outcome State Fault Refusal :=
  runEvent s (
    if s.quarantined.any fun q => q.dev == dev && !q.posted then
      let mark (q : Quarantine) : Quarantine := if q.dev == dev then { q with posted := true } else q
      some (({ s.retrain with quarantined := s.quarantined.map mark } : State).pumpAll.answer 8 0 [BitVec.ofNat 32 (s.number + dev)])
    else none)

/-! ## What the package and its group do on the links (R355, R361 to R363) -/

/-- The link group's configuration, before firmware runs (R355): one device of the group has a port in host mode. -/
def State.linkGroup (s : State) (number : Nat) (hostPort : Option Nat) (bridged : Bool) : State :=
  if s.boot != .rom || 144 ≤ number || hostPort.any (fun p => decide (linkPorts ≤ p)) || (hostPort.isSome && !bridged) then s
  else { s with number := number, hostPort := hostPort, bridged := bridged }

/-- The flits of a packet (R361). -/
def packetFlits (tseq src dst kind : Nat) (payloads : List (List Byte)) : List Flit :=
  ((upto payloads.length).zip payloads).map fun p =>
    { header := linkHeader tseq src dst 0 kind payloads.length p.1, payload := (p.2 ++ List.replicate 56 0).take 56 }

/-- A packet has one to nine flits (R361). -/
def packetOk (payloads : List (List Byte)) : Bool := decide (1 ≤ payloads.length) && decide (payloads.length ≤ 9)

/-- A device of the package sends a transaction to a device of another: it takes the pair's next number and keeps the
transaction until it is acknowledged (R361, R363). -/
def State.linkSend (s : State) (src dst kind : Nat) (payloads : List (List Byte)) (port : Nat) : State :=
  if !s.toDevices port || !s.isOurs src || 144 ≤ dst || s.isOurs dst || !packetOk payloads || !([kindRead, kindWrite, kindPost, kindCommand].contains kind) then s
  else
    let tseq := ((s.tseqs.find? fun p => p.1 == (src, dst)).map fun p => p.2).getD 0
    let fs := packetFlits tseq.toNat src dst kind payloads
    let t : Transaction := { own := src, peer := dst, tseq := tseq, flits := fs, port := port, answer := [] }
    { s with sent := s.sent ++ [t], tseqs := ((src, dst), tseq + 1) :: s.tseqs.filter fun p => p.1 != (src, dst) }.route port fs

/-- The transaction of a number that a device of the package has taken in and not applied yet, with its kind. -/
def State.waitingHere (s : State) (own src tseq : Nat) : Option (Transaction × Nat) :=
  (s.applied.find? fun t => t.own == own && t.peer == src && t.tseq.toNat == tseq && !t.done && !s.isMute own).bind fun t =>
    t.flits.head?.map fun f => (t, f.kind)

/-- A transaction has been applied, with an answer to a read; it is acknowledged (R363). -/
def State.applied1 (s : State) (t : Transaction) (answer : List Flit) : State :=
  let u := { t with answer := answer, done := true }
  ({ s with applied := updateFirst (fun x => x.own == t.own && x.peer == t.peer && x.tseq == t.tseq) (fun _ => u) s.applied } : State).acknowledge
    u t.port

/-- A device of the package answers a read; the answer stays, for a duplicate (R363). -/
def State.linkAnswer (s : State) (own src tseq : Nat) (payloads : List (List Byte)) : State :=
  match s.waitingHere own src tseq with
  | some (t, k) =>
    if k ≠ kindRead ∨ !packetOk payloads then s else s.applied1 t (packetFlits tseq own src kindResponse payloads)
  | none => s

/-- The effect of a write or a post from another package, as of the host's (R267, R355): none while a capture or an engine holds
the bytes, or the queue is full. -/
def State.remote (s : State) (dev : Nat) (what : Remote) : Option State :=
  match what with
  | .write ctx ia bytes =>
    let r : HostReq := { ctx := ctx, ia := ia, write := true, bytes := bytes, count := 0 }
    match s.ctx? ctx with
    | some c =>
      if c.dev != dev || !c.mapsAll ia bytes.length || s.captured c ia bytes.length || !s.hostFree r then none
      else some (s.systemWrite ctx ia bytes)
    | none => none
  | .post queue msg => match s.queue? dev queue with
    | some q => if q.grove.isNone || msg.length != 16 || Config.queueDepth ≤ q.msgs.length then none else some (s.post q msg)
    | none => none
  | .command _ => none

/-- Its kind on the link. -/
def Remote.kind : Remote → Nat
  | .write _ _ _ => kindWrite
  | .post _ _ => kindPost
  | .command _ => kindCommand

/-- Changes a port that is up. -/
def State.atPort (s : State) (port : Nat) (f : Port → Port) : State :=
  if linkPorts ≤ port || !(s.port port).up then s else s.setPort (f (s.port port))

/-- A port hears the far end's acknowledgement; what waited goes out (R362). -/
def State.linkAck (s : State) (port count : Nat) : State := s.atPort port fun p => s.pump (p.acked count)

/-- The far end has dropped a flit: the port replays from the first unacknowledged one, but for those of devices that are cut off
(R362, R369). -/
def State.linkReplay (s : State) (port : Nat) : State :=
  s.atPort port fun p => { p with wire := p.wire ++ p.unacked.filter fun f => !s.mute f }

/-- A port that was down is trained again. -/
def State.portUp (s : State) (port : Nat) : State :=
  if linkPorts ≤ port || (s.port port).up then s else s.setPort (freshPort port)

end Sys2Proof.Machine
end

