-- ==== Sys2Proof/Machine/ResetEvents.lean ====
section
/-! DEFINITION. Reset, supply and soft errors (R346, R365 to R368), and the replacement of an L2 piece (R260, R266). -/
namespace Sys2Proof.Machine

/-- The package with everything cleared; what is outside it, and what the environment has still to do, stays: the host's side,
the package's place in the link group (R355). -/
def State.cleared (s : State) : State :=
  { State.reset with
    number := s.number, hostPort := s.hostPort, bridged := s.bridged
    hostInbox := s.hostInbox, hostStatus := s.hostStatus, hostData := s.hostData, stretched := s.stretched
    tick := s.tick, freeIx := s.freeIx, agenda := s.agenda }

/-- POWER_UP (R365, R366): HBM4 contents are undefined (log 2). -/
def execPowerUp (s : State) : Host.Outcome State Fault Refusal := runEvent s (some s.cleared)

/-- COLD_RESET (R365, R366): HBM4 keeps what it holds; what only caches held is lost. -/
def execColdReset (s : State) : Host.Outcome State Fault Refusal :=
  runEvent s (some { s.cleared with mem := s.hbm, side := s.hbm, hbm := s.hbm })

/-- WARM_RESET (R346, R360, R365): every context is gone without a save; caches, links, firmware and cycle counters stay. -/
def execWarmReset (s : State) : Host.Outcome State Fault Refusal :=
  runEvent s (some
    { s.cleared with
      cores := s.cores.map fun (k : CoreSt) => { freshCore k.ix with cycles := k.cycles }
      mem := s.mem, side := s.side, hbm := s.hbm, l1 := s.l1, l2 := s.l2, msc := s.msc, slices := s.slices, mgmtOut := s.mgmtOut
      boot := s.boot, version := s.version, image := s.image, ecc := s.ecc, ports := s.ports, tseqs := s.tseqs, sent := s.sent
      applied := s.applied, discarded := s.discarded, nextCtx := s.nextCtx })

/-- SUPPLY_DROOP (R367): the stack's clock is stretched; only time changes. -/
def execSupplyDroop (stack : Nat) (s : State) : Host.Outcome State Fault Refusal :=
  runEvent s (if Config.hbmStacks ≤ stack || s.stretched.contains stack then none else some { s with stretched := s.stretched ++ [stack] })

/-- SUPPLY_RECOVER (R367). -/
def execSupplyRecover (stack : Nat) (s : State) : Host.Outcome State Fault Refusal :=
  runEvent s (if s.stretched.contains stack then some { s with stretched := s.stretched.filter fun x => x != stack } else none)

/-- ECC count of a stack (0 to 7) or spoke (8 to 11). -/
def State.eccCount (s : State) (unit : Nat) : Nat := ((s.ecc.find? fun p => p.1 == unit).map fun p => p.2).getD 0

/-- ECC_COUNT_REPORT (R368): one unsolicited answer with the twelve counts, which are then cleared (log 8). -/
def execEccCountReport (s : State) : Host.Outcome State Fault Refusal :=
  runEvent s (
    let counts := (upto 12).map s.eccCount
    if counts.all fun n => n == 0 then none
    else some (({ s with ecc := [] } : State).answer 9 0 (counts.map (BitVec.ofNat 32))))

/-- A double-bit error in data delivered to a gang by its fetch, or to an engine that works for it: the crew stops (R368). -/
def State.eccStop (s : State) (unit : Nat) (id : GangId) (mask : Mask) : State :=
  match s.gang? id with
  | some g => (s.countEcc unit).stopCrew id (stopMessage 2 g 0 mask g.ctl.pc)
  | none => s.countEcc unit

/-- The gang and the lanes for which an engine of a core carries out an operation. -/
def CoreSt.issuer? (k : CoreSt) (op : Nat) : Option (GangId × Mask) :=
  match k.copy? op with
  | some c => some (c.gang, c.act)
  | none => (k.mat? op).bind fun m => m.issuers.head?.map fun id => (id, m.act)

/-- A double-bit error in what a copy or a matrix operation reads (R368); the operation completes (R342). -/
def State.eccEngine (s : State) (core op unit : Nat) : State :=
  match (s.core core).issuer? op with
  | some (id, mask) => if unit < 12 then s.eccStop unit id mask else s
  | none => s

/-- A double-bit error in an instruction word that a gang fetches (R368). -/
def State.eccFetch (s : State) (id : GangId) (unit : Nat) : State :=
  match s.gang? id with
  | some g => if unit < 12 then s.eccStop unit id g.ctl.mask else s
  | none => s

/-- An error in data that no agent is given is only counted (R368). -/
def State.eccOnly (s : State) (unit : Nat) : State := if unit < 12 then s.countEcc unit else s

/-- L2_EVICTION (R260, R266). -/
def execL2Eviction (dev ctx piece : Nat) (s : State) : Host.Outcome State Fault Refusal :=
  runEvent s ((s.l2.find? fun q => q.dev == dev && q.ctx == ctx && q.piece == piece).map s.evictL2)

end Sys2Proof.Machine
end

