-- ==== Sys2Proof/Machine/Streams.lean ====
section
/-! DEFINITION. Pedigree queries and random streams (R148, R149, R151, R157, R158). -/
namespace Sys2Proof.Machine

/-- The value of `pedq` (R148). -/
def pedQuery (p : BitVec 512) (i : Nat) : Word := if i ≤ pedDepth p then (pedElem p i).setWidth 32 else 0

/-- `pedq` (R148). -/
def execPedq (o : FmtPedq) (s : State) : Host.Outcome State Fault Refusal :=
  runUnit vectorUnit o.sw s fun s => regUnit s o.d.toNat [] [] fun g => .u (pedQuery g.ped o.i.toNat)

/-- `pedkey` (R149). -/
def execPedkey (o : FmtD) (s : State) : Host.Outcome State Fault Refusal :=
  runUnit vectorUnit o.sw s fun s => regUnit s o.d.toNat [] [] fun g => .u (pedKey g.ped)

/-- A change of `$RNG` by a uniform pair. -/
def rngUnit (a : BitVec 7) (next : Gang → Dword → Dword) (s : State) : Try Done :=
  let rs := regsFor true a.toNat
  match s.cur.checkOperands rs rs rs with
  | .error e => .error e
  | .ok _ => .ok (done (s.modCur fun g => { g with rng := next g (g.uniPair a.toNat) }))

/-- `rseed` (R157). -/
def execRseed (o : FmtA) (s : State) : Host.Outcome State Fault Refusal :=
  runUnit serialUnit o.sw s (rngUnit o.a fun g x => rekey x g.ped)

/-- `rjump` (R157). -/
def execRjump (o : FmtA) (s : State) : Host.Outcome State Fault Refusal :=
  runUnit serialUnit o.sw s (rngUnit o.a fun g d => jump g.rng d)

/-- The draws of the lanes in order, and the state after them (R158). -/
def draws : List Nat → Dword → List (Nat × Nat) × Dword
  | [], x => ([], x)
  | l :: rest, x =>
    let y := rngStep x
    let r := draws rest y
    ((l, (y.extractLsb' 32 32).toNat) :: r.1, r.2)

/-- `rdraw` (R158). -/
def execRdraw (o : FmtD) (s : State) : Host.Outcome State Fault Refusal :=
  runUnit crossUnit o.sw s fun s =>
    let g := s.cur
    let d := o.d.toNat
    match g.checkRegs [d] with
    | .error e => .error e
    | .ok _ =>
      if g.act = 0 then .ok (done s)
      else match g.awaitDest [d] with
        | .error e => .error e
        | .ok _ =>
          let r := draws (lanesOf g.act) g.rng
          match s.launch (valueFlight s r.1) [d] with
          | .error e => .error e
          | .ok s => .ok (done (s.modCur fun g => { g with rng := r.2 }))

end Sys2Proof.Machine
end

