-- ==== Sys2Proof/Machine/Dispatch.lean ====
section
/-! DEFINITION. One arm per constructor of Instr: the meaning it calls. -/
namespace Sys2Proof.Machine

/-- Runs an instruction of the gang in issue, or lets an event of the machine happen. -/
def exec (i : Instr) (s : State) : Host.Outcome State Fault Refusal :=
  match i with
  | .nop o => Sys2Proof.Machine.execNop o s
  | .lim o => Sys2Proof.Machine.execLim o s
  | .br o => Sys2Proof.Machine.execBr o s
  | .bcc o => Sys2Proof.Machine.execBcc o s
  | .bmz o => Sys2Proof.Machine.execBmz o s
  | .bmnz o => Sys2Proof.Machine.execBmnz o s
  | .jtab o => Sys2Proof.Machine.execJtab o s
  | .call o => Sys2Proof.Machine.execCall o s
  | .callM o => Sys2Proof.Machine.execCallM o s
  | .callr o => Sys2Proof.Machine.execCallr o s
  | .callrM o => Sys2Proof.Machine.execCallrM o s
  | .ret o => Sys2Proof.Machine.execRet o s
  | .unwind o => Sys2Proof.Machine.execUnwind o s
  | .unwindM o => Sys2Proof.Machine.execUnwindM o s
  | .trap o => Sys2Proof.Machine.execTrap o s
  | .rte o => Sys2Proof.Machine.execRte o s
  | .rteSkip o => Sys2Proof.Machine.execRteSkip o s
  | .replay o => Sys2Proof.Machine.execReplay o s
  | .spawn o => Sys2Proof.Machine.execSpawn o s
  | .spawnr o => Sys2Proof.Machine.execSpawnr o s
  | .join o => Sys2Proof.Machine.execJoin o s
  | .tdone o => Sys2Proof.Machine.execTdone o s
  | .yield o => Sys2Proof.Machine.execYield o s
  | .pedq o => Sys2Proof.Machine.execPedq o s
  | .pedkey o => Sys2Proof.Machine.execPedkey o s
  | .mbrecv o => Sys2Proof.Machine.execMbrecv o s
  | .mbrecvP o => Sys2Proof.Machine.execMbrecvP o s
  | .mbsend o => Sys2Proof.Machine.execMbsend o s
  | .rupd o => Sys2Proof.Machine.execRupd o s
  | .rlog o => Sys2Proof.Machine.execRlog o s
  | .rread o => Sys2Proof.Machine.execRread o s
  | .rseed o => Sys2Proof.Machine.execRseed o s
  | .rjump o => Sys2Proof.Machine.execRjump o s
  | .rdraw o => Sys2Proof.Machine.execRdraw o s
  | .fgrow o => Sys2Proof.Machine.execFgrow o s
  | .fshrink o => Sys2Proof.Machine.execFshrink o s
  | .fgive o => Sys2Proof.Machine.execFgive o s
  | .ftake o => Sys2Proof.Machine.execFtake o s
  | .ftag o => Sys2Proof.Machine.execFtag o s
  | .fmat o => Sys2Proof.Machine.execFmat o s
  | .iadd o => Sys2Proof.Machine.execIadd o s
  | .isub o => Sys2Proof.Machine.execIsub o s
  | .iaddc o => Sys2Proof.Machine.execIaddc o s
  | .isubb o => Sys2Proof.Machine.execIsubb o s
  | .iaddi o => Sys2Proof.Machine.execIaddi o s
  | .imul o => Sys2Proof.Machine.execImul o s
  | .imulh o => Sys2Proof.Machine.execImulh o s
  | .imulhu o => Sys2Proof.Machine.execImulhu o s
  | .imad o => Sys2Proof.Machine.execImad o s
  | .and o => Sys2Proof.Machine.execAnd o s
  | .or o => Sys2Proof.Machine.execOr o s
  | .xor o => Sys2Proof.Machine.execXor o s
  | .andn o => Sys2Proof.Machine.execAndn o s
  | .andi o => Sys2Proof.Machine.execAndi o s
  | .ori o => Sys2Proof.Machine.execOri o s
  | .xori o => Sys2Proof.Machine.execXori o s
  | .shl o => Sys2Proof.Machine.execShl o s
  | .shr o => Sys2Proof.Machine.execShr o s
  | .sar o => Sys2Proof.Machine.execSar o s
  | .rot o => Sys2Proof.Machine.execRot o s
  | .shli o => Sys2Proof.Machine.execShli o s
  | .shri o => Sys2Proof.Machine.execShri o s
  | .sari o => Sys2Proof.Machine.execSari o s
  | .roti o => Sys2Proof.Machine.execRoti o s
  | .popc o => Sys2Proof.Machine.execPopc o s
  | .clz o => Sys2Proof.Machine.execClz o s
  | .ctz o => Sys2Proof.Machine.execCtz o s
  | .brev o => Sys2Proof.Machine.execBrev o s
  | .ineg o => Sys2Proof.Machine.execIneg o s
  | .iabs o => Sys2Proof.Machine.execIabs o s
  | .imin o => Sys2Proof.Machine.execImin o s
  | .imax o => Sys2Proof.Machine.execImax o s
  | .umin o => Sys2Proof.Machine.execUmin o s
  | .umax o => Sys2Proof.Machine.execUmax o s
  | .bfx o => Sys2Proof.Machine.execBfx o s
  | .bfxu o => Sys2Proof.Machine.execBfxu o s
  | .bfi o => Sys2Proof.Machine.execBfi o s
  | .icmp o => Sys2Proof.Machine.execIcmp o s
  | .icmpD o => Sys2Proof.Machine.execIcmpD o s
  | .icmpi o => Sys2Proof.Machine.execIcmpi o s
  | .ucmp o => Sys2Proof.Machine.execUcmp o s
  | .ucmpD o => Sys2Proof.Machine.execUcmpD o s
  | .sel o => Sys2Proof.Machine.execSel o s
  | .mov o => Sys2Proof.Machine.execMov o s
  | .movl o => Sys2Proof.Machine.execMovl o s
  | .movi o => Sys2Proof.Machine.execMovi o s
  | .mand o => Sys2Proof.Machine.execMand o s
  | .mor o => Sys2Proof.Machine.execMor o s
  | .mxor o => Sys2Proof.Machine.execMxor o s
  | .mandn o => Sys2Proof.Machine.execMandn o s
  | .mnot o => Sys2Proof.Machine.execMnot o s
  | .mpop o => Sys2Proof.Machine.execMpop o s
  | .mfirst o => Sys2Proof.Machine.execMfirst o s
  | .ballot o => Sys2Proof.Machine.execBallot o s
  | .mset o => Sys2Proof.Machine.execMset o s
  | .vxsh o => Sys2Proof.Machine.execVxsh o s
  | .vrot o => Sys2Proof.Machine.execVrot o s
  | .vidx o => Sys2Proof.Machine.execVidx o s
  | .vbcast o => Sys2Proof.Machine.execVbcast o s
  | .vstep o => Sys2Proof.Machine.execVstep o s
  | .vscan o => Sys2Proof.Machine.execVscan o s
  | .setmode o => Sys2Proof.Machine.execSetmode o s
  | .getmode o => Sys2Proof.Machine.execGetmode o s
  | .mfs o => Sys2Proof.Machine.execMfs o s
  | .mts o => Sys2Proof.Machine.execMts o s
  | .fclr o => Sys2Proof.Machine.execFclr o s
  | .fadd o => Sys2Proof.Machine.execFadd o s
  | .fsub o => Sys2Proof.Machine.execFsub o s
  | .fmul o => Sys2Proof.Machine.execFmul o s
  | .fdiv o => Sys2Proof.Machine.execFdiv o s
  | .fmac o => Sys2Proof.Machine.execFmac o s
  | .fmsc o => Sys2Proof.Machine.execFmsc o s
  | .fnmac o => Sys2Proof.Machine.execFnmac o s
  | .fnmsc o => Sys2Proof.Machine.execFnmsc o s
  | .fsqrt o => Sys2Proof.Machine.execFsqrt o s
  | .frcp o => Sys2Proof.Machine.execFrcp o s
  | .frsq o => Sys2Proof.Machine.execFrsq o s
  | .fmin o => Sys2Proof.Machine.execFmin o s
  | .fmax o => Sys2Proof.Machine.execFmax o s
  | .fminn o => Sys2Proof.Machine.execFminn o s
  | .fmaxn o => Sys2Proof.Machine.execFmaxn o s
  | .fabs o => Sys2Proof.Machine.execFabs o s
  | .fneg o => Sys2Proof.Machine.execFneg o s
  | .fcpys o => Sys2Proof.Machine.execFcpys o s
  | .fcmp o => Sys2Proof.Machine.execFcmp o s
  | .fcmpS o => Sys2Proof.Machine.execFcmpS o s
  | .fclass o => Sys2Proof.Machine.execFclass o s
  | .frnd o => Sys2Proof.Machine.execFrnd o s
  | .frndRne o => Sys2Proof.Machine.execFrndRne o s
  | .frndRtz o => Sys2Proof.Machine.execFrndRtz o s
  | .frndRup o => Sys2Proof.Machine.execFrndRup o s
  | .frndRdn o => Sys2Proof.Machine.execFrndRdn o s
  | .frndRna o => Sys2Proof.Machine.execFrndRna o s
  | .fscb o => Sys2Proof.Machine.execFscb o s
  | .flgb o => Sys2Proof.Machine.execFlgb o s
  | .fexp2 o => Sys2Proof.Machine.execFexp2 o s
  | .flog2 o => Sys2Proof.Machine.execFlog2 o s
  | .fsinp o => Sys2Proof.Machine.execFsinp o s
  | .fcosp o => Sys2Proof.Machine.execFcosp o s
  | .ftanh o => Sys2Proof.Machine.execFtanh o s
  | .cvt o => Sys2Proof.Machine.execCvt o s
  | .cvti o => Sys2Proof.Machine.execCvti o s
  | .cvtf o => Sys2Proof.Machine.execCvtf o s
  | .bfpk o => Sys2Proof.Machine.execBfpk o s
  | .bfup o => Sys2Proof.Machine.execBfup o s
  | .fmtset o => Sys2Proof.Machine.execFmtset o s
  | .fmtget o => Sys2Proof.Machine.execFmtget o s
  | .fmtsync o => Sys2Proof.Machine.execFmtsync o s
  | .ldB o => Sys2Proof.Machine.execLdB o s
  | .ldH o => Sys2Proof.Machine.execLdH o s
  | .ldW o => Sys2Proof.Machine.execLdW o s
  | .ldD o => Sys2Proof.Machine.execLdD o s
  | .stB o => Sys2Proof.Machine.execStB o s
  | .stH o => Sys2Proof.Machine.execStH o s
  | .stW o => Sys2Proof.Machine.execStW o s
  | .stD o => Sys2Proof.Machine.execStD o s
  | .ldx o => Sys2Proof.Machine.execLdx o s
  | .stx o => Sys2Proof.Machine.execStx o s
  | .lds o => Sys2Proof.Machine.execLds o s
  | .sts o => Sys2Proof.Machine.execSts o s
  | .lda o => Sys2Proof.Machine.execLda o s
  | .str o => Sys2Proof.Machine.execStr o s
  | .atom o => Sys2Proof.Machine.execAtom o s
  | .datom o => Sys2Proof.Machine.execDatom o s
  | .fence o => Sys2Proof.Machine.execFence o s
  | .dafence o => Sys2Proof.Machine.execDafence o s
  | .wait o => Sys2Proof.Machine.execWait o s
  | .pref o => Sys2Proof.Machine.execPref o s
  | .cctlWb o => Sys2Proof.Machine.execCctlWb o s
  | .cctlInv o => Sys2Proof.Machine.execCctlInv o s
  | .cctlWbinv o => Sys2Proof.Machine.execCctlWbinv o s
  | .cpy o => Sys2Proof.Machine.execCpy o s
  | .cpym o => Sys2Proof.Machine.execCpym o s
  | .mma o => Sys2Proof.Machine.execMma o s
  | .mmaO o => Sys2Proof.Machine.execMmaO o s
  | .mmasF32 o => Sys2Proof.Machine.execMmasF32 o s
  | .mmasS6 o => Sys2Proof.Machine.execMmasS6 o s
  | .mmasS7 o => Sys2Proof.Machine.execMmasS7 o s
  | .mmasS8 o => Sys2Proof.Machine.execMmasS8 o s
  | .mzero o => Sys2Proof.Machine.execMzero o s
  | .mdrainR o => Sys2Proof.Machine.execMdrainR o s
  | .mdrainS o => Sys2Proof.Machine.execMdrainS o s
  | .mdrainG o => Sys2Proof.Machine.execMdrainG o s
  | .mdrainP o => Sys2Proof.Machine.execMdrainP o s
  | .mfence o => Sys2Proof.Machine.execMfence o s
  | .mwait o => Sys2Proof.Machine.execMwait o s
  | .cbar o => Sys2Proof.Machine.execCbar o s
  | .carr o => Sys2Proof.Machine.execCarr o s
  | .cwt o => Sys2Proof.Machine.execCwt o s
  | .pmap o => Sys2Proof.Machine.execPmap o s
  | .rrset o => Sys2Proof.Machine.execRrset o s
  | .scratchcfg o => Sys2Proof.Machine.execScratchcfg o s
  | .pmcfg o => Sys2Proof.Machine.execPmcfg o s
  | .pmrd o => Sys2Proof.Machine.execPmrd o s
  | .pmctlStop o => Sys2Proof.Machine.execPmctlStop o s
  | .pmctlStart o => Sys2Proof.Machine.execPmctlStart o s
  | .pmctlCapture o => Sys2Proof.Machine.execPmctlCapture o s
  | .pmctlAbort o => Sys2Proof.Machine.execPmctlAbort o s
  | .psig o => Sys2Proof.Machine.execPsig o s
  | .createContext pa maps => Sys2Proof.Machine.execCreateContext pa maps s
  | .destroyContext ctx => Sys2Proof.Machine.execDestroyContext ctx s
  | .rreg ctx id kind fmt rnd len home => Sys2Proof.Machine.execRreg ctx id kind fmt rnd len home s
  | .mapPage ctx ia ctl => Sys2Proof.Machine.execMapPage ctx ia ctl s
  | .unmapPage ctx ia => Sys2Proof.Machine.execUnmapPage ctx ia s
  | .readStatus ctx pa size => Sys2Proof.Machine.execReadStatus ctx pa size s
  | .resumePart => Sys2Proof.Machine.execResumePart s
  | .addPoolPages dev size base count => Sys2Proof.Machine.execAddPoolPages dev size base count s
  | .withdrawPoolPage dev size => Sys2Proof.Machine.execWithdrawPoolPage dev size s
  | .bootStatus => Sys2Proof.Machine.execBootStatus s
  | .download last off chunk => Sys2Proof.Machine.execDownload last off chunk s
  | .hostPost dev queue msg => Sys2Proof.Machine.execHostPost dev queue msg s
  | .hostWrite ctx ia bytes => Sys2Proof.Machine.execHostWrite ctx ia bytes s
  | .hostRead ctx ia count => Sys2Proof.Machine.execHostRead ctx ia count s
  | .messageDelivery dev queue => Sys2Proof.Machine.execMessageDelivery dev queue s
  | .mbsendAccept g => Sys2Proof.Machine.execMbsendAccept g s
  | .loadReturn g op lanes ecc => Sys2Proof.Machine.execLoadReturn g op lanes ecc s
  | .storeStamp g op lanes => Sys2Proof.Machine.execStoreStamp g op lanes s
  | .pageReturn g op lanes => Sys2Proof.Machine.execPageReturn g op lanes s
  | .takeFault g => Sys2Proof.Machine.execTakeFault g s
  | .errorMessagePost ctx => Sys2Proof.Machine.execErrorMessagePost ctx s
  | .copyComplete core op => Sys2Proof.Machine.execCopyComplete core op s
  | .matrixOpStart core op => Sys2Proof.Machine.execMatrixOpStart core op s
  | .matrixOpComplete core op => Sys2Proof.Machine.execMatrixOpComplete core op s
  | .peerAddArrival core op => Sys2Proof.Machine.execPeerAddArrival core op s
  | .roundApply ctx crew => Sys2Proof.Machine.execRoundApply ctx crew s
  | .fmtsetApply ctx core => Sys2Proof.Machine.execFmtsetApply ctx core s
  | .steal ctx thief victim => Sys2Proof.Machine.execSteal ctx thief victim s
  | .pop ctx crew => Sys2Proof.Machine.execPop ctx crew s
  | .taskStart ctx crew => Sys2Proof.Machine.execTaskStart ctx crew s
  | .blockFold ctx join => Sys2Proof.Machine.execBlockFold ctx join s
  | .resumeTask ctx crew => Sys2Proof.Machine.execResumeTask ctx crew s
  | .rootFold ctx crew => Sys2Proof.Machine.execRootFold ctx crew s
  | .jtabRetry g => Sys2Proof.Machine.execJtabRetry g s
  | .rowGrant core => Sys2Proof.Machine.execRowGrant core s
  | .stallDeclared core => Sys2Proof.Machine.execStallDeclared core s
  | .escapeSpill core => Sys2Proof.Machine.execEscapeSpill core s
  | .spillReentry g => Sys2Proof.Machine.execSpillReentry g s
  | .l2Eviction dev ctx piece => Sys2Proof.Machine.execL2Eviction dev ctx piece s
  | .capturePassEnd ctx => Sys2Proof.Machine.execCapturePassEnd ctx s
  | .quantumExpiry core => Sys2Proof.Machine.execQuantumExpiry core s
  | .preemption core ctx => Sys2Proof.Machine.execPreemption core ctx s
  | .contextSave core ctx => Sys2Proof.Machine.execContextSave core ctx s
  | .contextRestore core ctx => Sys2Proof.Machine.execContextRestore core ctx s
  | .linkFlitReceive port flit crcOk => Sys2Proof.Machine.execLinkFlitReceive port flit crcOk s
  | .portDown port cutOff => Sys2Proof.Machine.execPortDown port cutOff s
  | .e2eRetransmit dst tseq port => Sys2Proof.Machine.execE2eRetransmit dst tseq port s
  | .linkReconnect dev => Sys2Proof.Machine.execLinkReconnect dev s
  | .powerUp => Sys2Proof.Machine.execPowerUp s
  | .coldReset => Sys2Proof.Machine.execColdReset s
  | .warmReset => Sys2Proof.Machine.execWarmReset s
  | .supplyDroop stack => Sys2Proof.Machine.execSupplyDroop stack s
  | .supplyRecover stack => Sys2Proof.Machine.execSupplyRecover stack s
  | .eccCountReport => Sys2Proof.Machine.execEccCountReport s
  | .hostReceive dev queue => Sys2Proof.Machine.execHostReceive dev queue s

end Sys2Proof.Machine
end

