-- ==== Sys2Proof/Machine/Schedule.lean ====
section
/-! DEFINITION. What may happen next: which gangs and fragments may issue (R43, R323), the events of the table that the
machine brings about itself, in the order in which a step without an agenda tries them (log 1), and how an
instruction comes to stand where the next step fetches it (log 15). -/
namespace Sys2Proof.Machine

/-! ## Issue (R43, R323) -/

/-- A control may issue: it does not wait for rows or for a new task's frames, and the results its switch marker waits for are
there (R100). -/
def Gang.ctlReady (g : Gang) (c : Ctl) : Bool :=
  c.request.isNone && c.marks.all fun m => !g.flights.any fun f => f.id == m && !f.finished

/-- A gang whose units may issue: its task runs on its core with its frames there, nothing halts it, and it waits for no row
that it has lent (R331) and for no handler frame (R63). -/
def State.mayIssue (s : State) (g : Gang) : Bool :=
  g.live && !g.outside && !g.frames.isEmpty && (s.crewOf g).task.isSome && !(s.crewOf g).stopped && s.mayRun g && g.owed.isNone && g.entering.isNone

/-- The fragments of a gang that are ready, the oldest-created first, the lowest number on a tie (R43, R323): those of a handler
while one runs. -/
def Gang.readyParts (g : Gang) : List (Nat × Entry) :=
  sortBy (fun a b => decide (g.ageOf b.2 < g.ageOf a.2))
    (g.parts.filter fun p => p.2.st != .parked && p.2.st != .held && g.ctlReady p.2.ctl)

/-- The gang with each of its fragments that may issue in place, the oldest-created first; one whose control is a single one
as it is. -/
def Gang.turns (g : Gang) : List Gang :=
  if g.parts.isEmpty then if g.ctlReady g.ctl then [g] else []
  else g.readyParts.map fun p => g.saveFrag.loadFrag p.1

/-- What a gang may issue as it stands. -/
def State.turnsOf (s : State) (g : Gang) : List Gang := if s.mayIssue g then g.turns else []

/-- Bytes of the unit at the PC of a gang: a `lim` word begins a pair, well formed or not (R101, R109). -/
def State.unitBytes (s : State) (g : Gang) : Nat :=
  match s.fetchWord g g.ctl.pc g.ctl.pc false with
  | .ok w => if w.extractLsb' 24 7 = 0x01#7 then 8 else 4
  | .error _ => 4

/-- A unit that cannot be fetched or decoded stops as its fetch says (R111, R335). -/
def issueStop (s : State) (e : Stop) : Host.Outcome State Fault Refusal :=
  runUnit { control with len := s.unitBytes s.cur } false s fun _ => .error e

/-! ## Events the machine brings about -/

/-- Lanes by which the return of a flight is tried: all, those with and without a mapping, each one. -/
def Context.masksOf (c : Context) (f : Flight) : List Mask :=
  let left := f.lanes.filter fun l => l.st == .flying
  let there := left.filter fun l => (c.physical l.addr).isSome
  let gone := left.filter fun l => (c.physical l.addr).isNone
  [allLanes, laneMask there, laneMask gone] ++ left.map fun l => laneMask [l]

/-- Events of the accesses of a gang (R225, R261). -/
def State.accessEvents (s : State) (g : Gang) : List Instr :=
  (g.flights.filter fun f => !f.finished).flatMap fun f =>
    ((s.ctx g.id.ctx).masksOf f).flatMap fun m =>
      [.loadReturn g.id f.id m .clean, .storeStamp g.id f.id m, .pageReturn g.id f.id m]

/-- Events of a gang. -/
def State.gangEvents (s : State) (g : Gang) : List Instr :=
  (if g.pend.isEmpty then [] else [.takeFault g.id]) ++ s.accessEvents g ++ [.jtabRetry g.id, .mbsendAccept g.id] ++
    if g.spilled then [.spillReentry g.id] else []

/-- Events of a core: engines, frames, contexts. -/
def State.coreEvents (k : CoreSt) : List Instr :=
  (k.copies.map fun c => .copyComplete k.ix c.id) ++
  (k.mats.flatMap fun m => [.matrixOpStart k.ix m.id, .matrixOpComplete k.ix m.id]) ++
  [.rowGrant k.ix, .escapeSpill k.ix, .stallDeclared k.ix] ++
  (k.resident.toList.map fun c => .contextSave k.ix c) ++ (k.saved.map fun c => .contextRestore k.ix c) ++
  (k.saved.map fun c => .preemption k.ix c) ++ if k.units < Config.quantum then [] else [.quantumExpiry k.ix]

/-- Peer-adds on their way to a core (R316). -/
def State.peerEvents (s : State) : List Instr :=
  s.cores.flatMap fun k => (k.mats.filter fun m => m.sent).map fun m => .peerAddArrival k.ix m.id

/-- Thieves and victims with a record to take (R28, R301). -/
def State.stealEvents (s : State) (c : Crew) : List Instr :=
  let near (lv : Nat) : List Crew := s.crews.filter fun v =>
    v.ctx == c.ctx && stealLevel c.core v.core == lv && (s.stealable c.rank v).isSome
  if s.crewFree c then ([0, 1, 2, 3].flatMap near).map fun v => .steal c.ctx c.rank v.rank else []

/-- Events of a crew. -/
def State.crewEvents (s : State) (c : Crew) : List Instr :=
  [.taskStart c.ctx c.rank, .resumeTask c.ctx c.rank, .rootFold c.ctx c.rank, .roundApply c.ctx c.rank, .pop c.ctx c.rank] ++
    s.stealEvents c

/-- Events of a context. -/
def State.contextEvents (s : State) (c : Context) : List Instr :=
  ((s.coresOf c.num).map fun k => .fmtsetApply c.num k) ++ (c.joins.map fun j => .blockFold c.num j.id) ++
    [.capturePassEnd c.num, .errorMessagePost c.num]

/-- Every event that the machine may bring about, in the order in which they are tried. -/
def State.candidates (s : State) : List Instr :=
  (s.queues.map fun q => .messageDelivery q.dev q.ix) ++ s.gangs.flatMap s.gangEvents ++ s.peerEvents ++
    s.cores.flatMap State.coreEvents ++ s.crews.flatMap s.crewEvents ++ s.contexts.flatMap s.contextEvents

/-! ## A program in place (log 15) -/

/-- The words of an instruction as the memory holds them: the first, then zero. -/
def instrBytes (w : Word) : List Byte := leBytes 4 w.toNat ++ leBytes 4 0

/-- The physical address from which the gang in issue fetches next, if a step would issue it. -/
def State.fetchAt (s : State) : Option Nat :=
  let g := s.cur
  let c := s.here
  let page (pc : Pc) : Option Nat := match c.translate (pc.setWidth 64) (permR ||| permX) with
    | .ok (ia, _) => c.physical ia
    | .error _ => none
  if s.agenda.isEmpty && g.pend.isEmpty && g.frag.isNone && g.ctl.wait == .ready && g.ctlReady g.ctl && s.mayIssue g then
    match page g.ctl.pc, page (g.ctl.pc + 4) with
    | some a, some b => if b = a + 4 then some a else none
    | _, _ => none
  else none

/-- A core without a context. -/
def State.freeCore (s : State) : Nat :=
  ((upto Config.packageCores).find? fun k => (s.core k).resident.isNone && !s.crews.any fun c => c.core == k).getD 0

def loadedPc : Pc := 0x100

/-- The context of a loaded instruction: one page, mapped at 0, and the formats of R71. -/
def loadedContext (num : Nat) : Context :=
  { contextOf num [] with
    ranges := [{ base := 0, len := 4096, perm := 31, ibase := 0 }] ++ List.replicate 15 { base := 0, len := 0, perm := 0, ibase := 0 }
    maps := [{ ia := 0, size := 4096, pa := 0, pooled := false }]
    crews := 1, size := 1, quorum := 1, roles := [{ gangs := 1, blocks := 124 }], scratch := 4096
    taskBase := 0x100000, taskSize := 65536, overSize := 65536, queues := 1, queuePrio := [0]
    queueBase := 0, errQueue := 1, entry := loadedPc, nf := 0, gf := 0 }

/-- The gang of a loaded instruction: one frame of 128 registers, at its task's entry. -/
def loadedGang (c : Context) : Gang :=
  let g : Gang := { emptyGang with id := ⟨c.num, 0, 0⟩, live := true }
  { g.pushApart (newFrame 0 0 0) [] with
    ctl := { emptyCtl with pc := loadedPc }
    ped := rootPed 0, mode := c.mode, ftrap := c.ftrap, rng := rekey c.seed (rootPed 0) }

/-- Loads a context of one gang whose next unit is at the physical address 0x100, with an empty agenda. -/
def State.loadGang (s : State) : State :=
  let core := s.freeCore
  let c := loadedContext s.nextCtx
  let crew : Crew :=
    { emptyCrew with ctx := c.num, core := core, quota := [124], task := some { emptyTask with entry := loadedPc, id := s.tick } }
  let s := s.modCore core fun k => { k.setWays c.num 1 with resident := some c.num, poolC := k.poolC - demandCompact 0 }
  { s with
    cur := loadedGang c
    others := if s.cur.live then s.cur :: s.others else s.others
    crews := s.crews ++ [crew]
    contexts := s.contexts ++ [c]
    queues := s.queues ++ [{ dev := 0, ix := 0, ctx := c.num, grove := some 0, prio := 0, msgs := [] },
      { dev := 0, ix := 1, ctx := c.num, grove := none, prio := 0, msgs := [] }]
    nextCtx := s.nextCtx + 1
    tick := s.tick + 1
    agenda := [] }

/-- The state with an instruction where the next step fetches: in place, or with a gang loaded for it. -/
def State.placeWord (s : State) (w : Word) : State :=
  match s.fetchAt with
  | some pa => { s with mem := Memory.writeBytes s.mem pa (instrBytes w), streak := 0 }
  | none =>
    let t := s.loadGang
    { t with mem := Memory.writeBytes t.mem loadedPc.toNat (instrBytes w), streak := 0 }

end Sys2Proof.Machine
end

