-- ==== Sys2Proof/Machine/Step.lean ====
section
/-! DEFINITION. One step of the machine (log 1): what the agenda asks for, else the gang in issue, else an event, else another
gang. -/
namespace Sys2Proof.Machine

/-- Fetches, decodes and runs the unit at the PC of the gang in issue. -/
def issue (s : State) : Host.Outcome State Fault Refusal :=
  match s.fetchInstr s.cur with
  | .error e => issueStop s e
  | .ok i => exec i s

/-- Whether an outcome is other than the same state again. -/
def progressed (s : State) (r : Host.Outcome State Fault Refusal) : Bool :=
  match r with
  | .next t => !decide (t = s)
  | _ => true

/-- The first of some gangs, put in issue, whose unit does something, with what it does: a gang in place with a fragment whose
next unit can only wait gives way to the next (R43, R323). -/
def firstReady (s : State) : List Gang → Option (Gang × Host.Outcome State Fault Refusal)
  | [] => none
  | g :: r =>
    let t := (s.setGang g).focus g.id
    if progressed t (issue t) then some (g, issue t) else firstReady s r

/-- What the first of some gangs does. -/
def issueFirst (s : State) (gs : List Gang) : Option (Host.Outcome State Fault Refusal) := (firstReady s gs).map fun p => p.2

/-- The first of some events that is enabled. -/
def eventFirst (s : State) : List Instr → Option (Host.Outcome State Fault Refusal)
  | [] => none
  | i :: r => if progressed s (exec i s) then some (exec i s) else eventFirst s r

/-- A pending fault of the gang in issue comes before its next unit (R338). -/
def ownFault (s : State) : Option (Host.Outcome State Fault Refusal) :=
  if s.cur.live && !s.cur.pend.isEmpty then eventFirst s [.takeFault s.cur.id] else none

/-- One more unit of the turn (log 1). -/
def counted (r : Host.Outcome State Fault Refusal) : Host.Outcome State Fault Refusal :=
  match r with
  | .next t => .next { t with streak := t.streak + 1 }
  | r => r

/-- The turn of the events, then of the other gangs in their order, then of the gang in issue again: every ready gang
issues in the end (R46, R47, R323). -/
def othersTurn (s : State) : Host.Outcome State Fault Refusal :=
  match eventFirst s s.candidates with
  | some r => r
  | none =>
    let s := { s with streak := 0 }
    match issueFirst s (s.others.flatMap s.turnsOf ++ s.turnsOf s.cur) with
    | some r => counted r
    | none => .next s

/-- What happens when the agenda is empty: the gang in issue has its turn, then the rest. -/
def idle (s : State) : Host.Outcome State Fault Refusal :=
  match ownFault s with
  | some r => r
  | none =>
    match (if s.streak < Config.turnUnits then issueFirst s (s.turnsOf s.cur) else none) with
    | some r => counted r
    | none => othersTurn s

/-- Raw command words, from the host or from another package (R357). -/
def runCommand (s : State) (w : List Word) : Host.Outcome State Fault Refusal :=
  match commandOf w with
  | some i => exec i s
  | none => .next (s.unknownCommand w)

/-- A device of the package applies a transaction that it has taken in, once, and acknowledges it (R363, log 10). -/
def linkApply (s : State) (own src tseq : Nat) (what : Remote) : Host.Outcome State Fault Refusal :=
  match s.waitingHere own src tseq with
  | none => .next s
  | some (t, k) =>
    if k ≠ what.kind then .next s
    else match what with
      | .command w => match runCommand s w with
        | .next u => .next (u.applied1 t [])
        | r => r
      | _ => .next (((s.remote (own - s.number) what).map fun u => u.applied1 t []).getD s)

/-- What an action of the agenda does. Of a gang's fragments only the oldest-created that is ready competes (R323): another one
that the agenda names does not issue. -/
def perform (s : State) : Action → Host.Outcome State Fault Refusal
  | .event i => if (encode i).isNone then exec i s else .next s
  | .focus g => .next (s.focus g)
  | .fragment g i => match s.gang? g with
    | some h => match (if h.pend.isEmpty then firstReady s (s.turnsOf h) else none) with
      | some (t, r) => if t.frag = some i then r else .next s
      | none => .next s
    | none => .next s
  | .command w => runCommand s w
  | .evictL1 dev cluster piece => .next (s.dropL1 fun l => l.dev == dev && l.cluster == cluster && l.piece == piece)
  | .evictMsc line => .next (if s.msc.contains line then s.writeBack line else s)
  | .copyRow core op => .next ((s.copyRow core op).getD s)
  | .unmapSpoke ctx ia spoke => .next (s.unmapSpoke ctx ia spoke)
  | .slowFold ctx crew => .next (s.slowFold ctx crew)
  | .linkGroup number hostPort bridged => .next (s.linkGroup number hostPort bridged)
  | .linkSend src dst kind payloads port => .next (s.linkSend src dst kind payloads port)
  | .linkCut => .next s.linkCut
  | .linkAnswer own src tseq payloads => .next (s.linkAnswer own src tseq payloads)
  | .linkApply own src tseq what => linkApply s own src tseq what
  | .linkAck port count => .next (s.linkAck port count)
  | .linkReplay port => .next (s.linkReplay port)
  | .linkTake port => .next (s.atPort port fun p => { p with wire := p.wire.drop 1 })
  | .portUp port => .next (s.portUp port)
  | .eccCount unit => .next (s.eccOnly unit)
  | .eccEngine core op unit => .next (s.eccEngine core op unit)
  | .eccFetch g unit => .next (s.eccFetch g unit)

/-- One step. -/
def step (s : State) : Host.Outcome State Fault Refusal :=
  match s.agenda with
  | a :: rest => perform { s with agenda := rest } a
  | [] => idle s

/-- The state with the instruction of `nbits` bits `w` where `step` fetches next: its first word, the bits above zero. -/
def State.withFetchWord (s : State) (nbits w : Nat) : State := s.placeWord (BitVec.ofNat 32 (w % 2 ^ nbits))

end Sys2Proof.Machine
end

