-- ==== Sys2Proof/Laws/PerInstr.lean ====
section
/-! SUPPORT. The round trip of every instruction: what `encode` writes, `decodeWord` reads back. -/
namespace Sys2Proof.Laws.RoundTrip
open Sys2Proof
set_option linter.unusedSimpArgs false

/-- The word of an instruction decodes to it, when the encoding rules admit it (R96 to R109). -/
def Statement (i : Instr) : Prop := ∀ w, encode i = some w → i.illegal = none → decodeWord w = .ok i.spelling

theorem extract_ofFields {n : Nat} (x : BitVec n) (s l : Nat) (h : n = 32) : (ofFields x).extractLsb' s l = x.extractLsb' s l := by
  subst h; simp [ofFields]

theorem bit_ofFields {n : Nat} (x : BitVec n) (i : Nat) (h : n = 32) : (ofFields x).getLsbD i = x.getLsbD i := by
  subst h; simp [ofFields]

theorem bit_high {v w i : Nat} {x : BitVec v} {y : BitVec w} (h : w ≤ i) : (x ++ y).getLsbD i = x.getLsbD (i - w) := by
  rw [BitVec.getLsbD_append, if_neg (by omega)]

theorem bit_bS (b : Bool) : (bS b).getLsbD 0 = b := by simp [bS]

theorem zeroField_zero {k : Nat} (r : Except Illegal Instr) : zeroField (0#k) r = r := by simp [zeroField]

theorem of_shape {w : Word} {i : Instr} (h : decodeShape w = .ok i) (hi : i.illegal = none) : decodeWord w = .ok i := by
  simp only [decodeWord, h, hi]

theorem major00 {w : Word} (h : fMajor w = 0x00#7) : decodeShape w = decode00 w := by
  unfold decodeShape; rw [h]; rfl

theorem major02 {w : Word} (h : fMajor w = 0x02#7) : decodeShape w = decode02 w := by
  unfold decodeShape; rw [h]; rfl

theorem major03 {w : Word} (h : fMajor w = 0x03#7) : decodeShape w = decode03 w := by
  unfold decodeShape; rw [h]; rfl

theorem major04 {w : Word} (h : fMajor w = 0x04#7) : decodeShape w = decode04 w := by
  unfold decodeShape; rw [h]; rfl

theorem major05 {w : Word} (h : fMajor w = 0x05#7) : decodeShape w = decode05 w := by
  unfold decodeShape; rw [h]; rfl

theorem major06 {w : Word} (h : fMajor w = 0x06#7) : decodeShape w = decode06 w := by
  unfold decodeShape; rw [h]; rfl

theorem major07 {w : Word} (h : fMajor w = 0x07#7) : decodeShape w = decode07 w := by
  unfold decodeShape; rw [h]; rfl

theorem major08 {w : Word} (h : fMajor w = 0x08#7) : decodeShape w = decode08 w := by
  unfold decodeShape; rw [h]; rfl

theorem major09 {w : Word} (h : fMajor w = 0x09#7) : decodeShape w = decode09 w := by
  unfold decodeShape; rw [h]; rfl

theorem major0A {w : Word} (h : fMajor w = 0x0A#7) : decodeShape w = decode0A w := by
  unfold decodeShape; rw [h]; rfl

theorem major0B {w : Word} (h : fMajor w = 0x0B#7) : decodeShape w = decode0B w := by
  unfold decodeShape; rw [h]; rfl

theorem major0C {w : Word} (h : fMajor w = 0x0C#7) : decodeShape w = decode0C w := by
  unfold decodeShape; rw [h]; rfl

theorem major0D {w : Word} (h : fMajor w = 0x0D#7) : decodeShape w = decode0D w := by
  unfold decodeShape; rw [h]; rfl

theorem major0E {w : Word} (h : fMajor w = 0x0E#7) : decodeShape w = decode0E w := by
  unfold decodeShape; rw [h]; rfl

theorem major0F {w : Word} (h : fMajor w = 0x0F#7) : decodeShape w = decode0F w := by
  unfold decodeShape; rw [h]; rfl

theorem major10 {w : Word} (h : fMajor w = 0x10#7) : decodeShape w = decode10 w := by
  unfold decodeShape; rw [h]; rfl

theorem major11 {w : Word} (h : fMajor w = 0x11#7) : decodeShape w = decode11 w := by
  unfold decodeShape; rw [h]; rfl

theorem major12 {w : Word} (h : fMajor w = 0x12#7) : decodeShape w = decode12 w := by
  unfold decodeShape; rw [h]; rfl

theorem major13 {w : Word} (h : fMajor w = 0x13#7) : decodeShape w = decode13 w := by
  unfold decodeShape; rw [h]; rfl

theorem major14 {w : Word} (h : fMajor w = 0x14#7) : decodeShape w = decode14 w := by
  unfold decodeShape; rw [h]; rfl

theorem major15 {w : Word} (h : fMajor w = 0x15#7) : decodeShape w = decode15 w := by
  unfold decodeShape; rw [h]; rfl

theorem major16 {w : Word} (h : fMajor w = 0x16#7) : decodeShape w = decode16 w := by
  unfold decodeShape; rw [h]; rfl

theorem major17 {w : Word} (h : fMajor w = 0x17#7) : decodeShape w = decode17 w := by
  unfold decodeShape; rw [h]; rfl

theorem major18 {w : Word} (h : fMajor w = 0x18#7) : decodeShape w = decode18 w := by
  unfold decodeShape; rw [h]; rfl

theorem major19 {w : Word} (h : fMajor w = 0x19#7) : decodeShape w = decode19 w := by
  unfold decodeShape; rw [h]; rfl

theorem major1A {w : Word} (h : fMajor w = 0x1A#7) : decodeShape w = decode1A w := by
  unfold decodeShape; rw [h]; rfl

theorem major20 {w : Word} (h : fMajor w = 0x20#7) : decodeShape w = decode20 w := by
  unfold decodeShape; rw [h]; rfl

theorem major21 {w : Word} (h : fMajor w = 0x21#7) : decodeShape w = decode21 w := by
  unfold decodeShape; rw [h]; rfl

theorem major22 {w : Word} (h : fMajor w = 0x22#7) : decodeShape w = decode22 w := by
  unfold decodeShape; rw [h]; rfl

theorem major23 {w : Word} (h : fMajor w = 0x23#7) : decodeShape w = decode23 w := by
  unfold decodeShape; rw [h]; rfl

theorem major24 {w : Word} (h : fMajor w = 0x24#7) : decodeShape w = decode24 w := by
  unfold decodeShape; rw [h]; rfl

theorem major25 {w : Word} (h : fMajor w = 0x25#7) : decodeShape w = decode25 w := by
  unfold decodeShape; rw [h]; rfl

theorem major26 {w : Word} (h : fMajor w = 0x26#7) : decodeShape w = decode26 w := by
  unfold decodeShape; rw [h]; rfl

theorem major27 {w : Word} (h : fMajor w = 0x27#7) : decodeShape w = decode27 w := by
  unfold decodeShape; rw [h]; rfl

theorem major28 {w : Word} (h : fMajor w = 0x28#7) : decodeShape w = decode28 w := by
  unfold decodeShape; rw [h]; rfl

theorem major29 {w : Word} (h : fMajor w = 0x29#7) : decodeShape w = decode29 w := by
  unfold decodeShape; rw [h]; rfl

theorem major2A {w : Word} (h : fMajor w = 0x2A#7) : decodeShape w = decode2A w := by
  unfold decodeShape; rw [h]; rfl

theorem major2B {w : Word} (h : fMajor w = 0x2B#7) : decodeShape w = decode2B w := by
  unfold decodeShape; rw [h]; rfl

theorem major2C {w : Word} (h : fMajor w = 0x2C#7) : decodeShape w = decode2C w := by
  unfold decodeShape; rw [h]; rfl

theorem major2D {w : Word} (h : fMajor w = 0x2D#7) : decodeShape w = decode2D w := by
  unfold decodeShape; rw [h]; rfl

theorem major2E {w : Word} (h : fMajor w = 0x2E#7) : decodeShape w = decode2E w := by
  unfold decodeShape; rw [h]; rfl

theorem major2F {w : Word} (h : fMajor w = 0x2F#7) : decodeShape w = decode2F w := by
  unfold decodeShape; rw [h]; rfl

theorem major30 {w : Word} (h : fMajor w = 0x30#7) : decodeShape w = decode30 w := by
  unfold decodeShape; rw [h]; rfl

theorem major31 {w : Word} (h : fMajor w = 0x31#7) : decodeShape w = decode31 w := by
  unfold decodeShape; rw [h]; rfl

theorem major32 {w : Word} (h : fMajor w = 0x32#7) : decodeShape w = decode32 w := by
  unfold decodeShape; rw [h]; rfl

theorem major33 {w : Word} (h : fMajor w = 0x33#7) : decodeShape w = decode33 w := by
  unfold decodeShape; rw [h]; rfl

theorem major34 {w : Word} (h : fMajor w = 0x34#7) : decodeShape w = decode34 w := by
  unfold decodeShape; rw [h]; rfl

theorem major35 {w : Word} (h : fMajor w = 0x35#7) : decodeShape w = decode35 w := by
  unfold decodeShape; rw [h]; rfl

theorem major36 {w : Word} (h : fMajor w = 0x36#7) : decodeShape w = decode36 w := by
  unfold decodeShape; rw [h]; rfl

theorem major37 {w : Word} (h : fMajor w = 0x37#7) : decodeShape w = decode37 w := by
  unfold decodeShape; rw [h]; rfl

theorem major38 {w : Word} (h : fMajor w = 0x38#7) : decodeShape w = decode38 w := by
  unfold decodeShape; rw [h]; rfl

theorem major39 {w : Word} (h : fMajor w = 0x39#7) : decodeShape w = decode39 w := by
  unfold decodeShape; rw [h]; rfl

theorem major3A {w : Word} (h : fMajor w = 0x3A#7) : decodeShape w = decode3A w := by
  unfold decodeShape; rw [h]; rfl

theorem major3B {w : Word} (h : fMajor w = 0x3B#7) : decodeShape w = decode3B w := by
  unfold decodeShape; rw [h]; rfl

theorem major3C {w : Word} (h : fMajor w = 0x3C#7) : decodeShape w = decode3C w := by
  unfold decodeShape; rw [h]; rfl

theorem major3D {w : Word} (h : fMajor w = 0x3D#7) : decodeShape w = decode3D w := by
  unfold decodeShape; rw [h]; rfl

theorem major40 {w : Word} (h : fMajor w = 0x40#7) : decodeShape w = decode40 w := by
  unfold decodeShape; rw [h]; rfl

theorem major41 {w : Word} (h : fMajor w = 0x41#7) : decodeShape w = decode41 w := by
  unfold decodeShape; rw [h]; rfl

theorem major42 {w : Word} (h : fMajor w = 0x42#7) : decodeShape w = decode42 w := by
  unfold decodeShape; rw [h]; rfl

theorem major43 {w : Word} (h : fMajor w = 0x43#7) : decodeShape w = decode43 w := by
  unfold decodeShape; rw [h]; rfl

theorem major44 {w : Word} (h : fMajor w = 0x44#7) : decodeShape w = decode44 w := by
  unfold decodeShape; rw [h]; rfl

theorem major45 {w : Word} (h : fMajor w = 0x45#7) : decodeShape w = decode45 w := by
  unfold decodeShape; rw [h]; rfl

theorem major46 {w : Word} (h : fMajor w = 0x46#7) : decodeShape w = decode46 w := by
  unfold decodeShape; rw [h]; rfl

theorem major47 {w : Word} (h : fMajor w = 0x47#7) : decodeShape w = decode47 w := by
  unfold decodeShape; rw [h]; rfl

theorem major48 {w : Word} (h : fMajor w = 0x48#7) : decodeShape w = decode48 w := by
  unfold decodeShape; rw [h]; rfl

theorem major49 {w : Word} (h : fMajor w = 0x49#7) : decodeShape w = decode49 w := by
  unfold decodeShape; rw [h]; rfl

theorem major4A {w : Word} (h : fMajor w = 0x4A#7) : decodeShape w = decode4A w := by
  unfold decodeShape; rw [h]; rfl

theorem major4B {w : Word} (h : fMajor w = 0x4B#7) : decodeShape w = decode4B w := by
  unfold decodeShape; rw [h]; rfl

theorem major4C {w : Word} (h : fMajor w = 0x4C#7) : decodeShape w = decode4C w := by
  unfold decodeShape; rw [h]; rfl

theorem major4D {w : Word} (h : fMajor w = 0x4D#7) : decodeShape w = decode4D w := by
  unfold decodeShape; rw [h]; rfl

theorem major4E {w : Word} (h : fMajor w = 0x4E#7) : decodeShape w = decode4E w := by
  unfold decodeShape; rw [h]; rfl

theorem major4F {w : Word} (h : fMajor w = 0x4F#7) : decodeShape w = decode4F w := by
  unfold decodeShape; rw [h]; rfl

theorem major50 {w : Word} (h : fMajor w = 0x50#7) : decodeShape w = decode50 w := by
  unfold decodeShape; rw [h]; rfl

theorem major51 {w : Word} (h : fMajor w = 0x51#7) : decodeShape w = decode51 w := by
  unfold decodeShape; rw [h]; rfl

theorem major60 {w : Word} (h : fMajor w = 0x60#7) : decodeShape w = decode60 w := by
  unfold decodeShape; rw [h]; rfl

theorem major61 {w : Word} (h : fMajor w = 0x61#7) : decodeShape w = decode61 w := by
  unfold decodeShape; rw [h]; rfl

theorem major62 {w : Word} (h : fMajor w = 0x62#7) : decodeShape w = decode62 w := by
  unfold decodeShape; rw [h]; rfl

theorem major63 {w : Word} (h : fMajor w = 0x63#7) : decodeShape w = decode63 w := by
  unfold decodeShape; rw [h]; rfl

theorem major64 {w : Word} (h : fMajor w = 0x64#7) : decodeShape w = decode64 w := by
  unfold decodeShape; rw [h]; rfl

theorem major65 {w : Word} (h : fMajor w = 0x65#7) : decodeShape w = decode65 w := by
  unfold decodeShape; rw [h]; rfl

theorem major66 {w : Word} (h : fMajor w = 0x66#7) : decodeShape w = decode66 w := by
  unfold decodeShape; rw [h]; rfl

theorem major67 {w : Word} (h : fMajor w = 0x67#7) : decodeShape w = decode67 w := by
  unfold decodeShape; rw [h]; rfl

theorem major68 {w : Word} (h : fMajor w = 0x68#7) : decodeShape w = decode68 w := by
  unfold decodeShape; rw [h]; rfl

theorem major69 {w : Word} (h : fMajor w = 0x69#7) : decodeShape w = decode69 w := by
  unfold decodeShape; rw [h]; rfl

theorem major6A {w : Word} (h : fMajor w = 0x6A#7) : decodeShape w = decode6A w := by
  unfold decodeShape; rw [h]; rfl

theorem major6B {w : Word} (h : fMajor w = 0x6B#7) : decodeShape w = decode6B w := by
  unfold decodeShape; rw [h]; rfl

theorem major6C {w : Word} (h : fMajor w = 0x6C#7) : decodeShape w = decode6C w := by
  unfold decodeShape; rw [h]; rfl

theorem major6D {w : Word} (h : fMajor w = 0x6D#7) : decodeShape w = decode6D w := by
  unfold decodeShape; rw [h]; rfl

theorem major6E {w : Word} (h : fMajor w = 0x6E#7) : decodeShape w = decode6E w := by
  unfold decodeShape; rw [h]; rfl

theorem major6F {w : Word} (h : fMajor w = 0x6F#7) : decodeShape w = decode6F w := by
  unfold decodeShape; rw [h]; rfl

theorem major70 {w : Word} (h : fMajor w = 0x70#7) : decodeShape w = decode70 w := by
  unfold decodeShape; rw [h]; rfl

theorem major71 {w : Word} (h : fMajor w = 0x71#7) : decodeShape w = decode71 w := by
  unfold decodeShape; rw [h]; rfl

theorem major72 {w : Word} (h : fMajor w = 0x72#7) : decodeShape w = decode72 w := by
  unfold decodeShape; rw [h]; rfl

theorem major73 {w : Word} (h : fMajor w = 0x73#7) : decodeShape w = decode73 w := by
  unfold decodeShape; rw [h]; rfl

theorem major74 {w : Word} (h : fMajor w = 0x74#7) : decodeShape w = decode74 w := by
  unfold decodeShape; rw [h]; rfl

theorem major75 {w : Word} (h : fMajor w = 0x75#7) : decodeShape w = decode75 w := by
  unfold decodeShape; rw [h]; rfl

theorem major76 {w : Word} (h : fMajor w = 0x76#7) : decodeShape w = decode76 w := by
  unfold decodeShape; rw [h]; rfl

theorem major77 {w : Word} (h : fMajor w = 0x77#7) : decodeShape w = decode77 w := by
  unfold decodeShape; rw [h]; rfl

theorem major78 {w : Word} (h : fMajor w = 0x78#7) : decodeShape w = decode78 w := by
  unfold decodeShape; rw [h]; rfl

theorem major79 {w : Word} (h : fMajor w = 0x79#7) : decodeShape w = decode79 w := by
  unfold decodeShape; rw [h]; rfl

theorem major7A {w : Word} (h : fMajor w = 0x7A#7) : decodeShape w = decode7A w := by
  unfold decodeShape; rw [h]; rfl

theorem major7B {w : Word} (h : fMajor w = 0x7B#7) : decodeShape w = decode7B w := by
  unfold decodeShape; rw [h]; rfl

theorem major7C {w : Word} (h : fMajor w = 0x7C#7) : decodeShape w = decode7C w := by
  unfold decodeShape; rw [h]; rfl

theorem major7D {w : Word} (h : fMajor w = 0x7D#7) : decodeShape w = decode7D w := by
  unfold decodeShape; rw [h]; rfl

theorem lim (o : FmtLim) : Statement (.lim o) := by
  intro w hw hi
  cases hw
  refine of_shape ?_ hi
  simp (decide := true) only [decodeShape, fMajor, fS, extract_ofFields, bit_ofFields, bit_high, bit_bS, BitVec.extractLsb'_append_eq_of_add_le,
    BitVec.extractLsb'_append_eq_of_le, BitVec.extractLsb'_eq_self, -Nat.reduceAdd, Nat.reduceSub]
  rfl

theorem nop (o : Sw) : Statement (.nop o) := by
  intro w hw hi
  cases hw
  refine of_shape ?_ hi
  rw [major00 (by simp (decide := true) only [fMajor, extract_ofFields, bit_ofFields, bit_high, bit_bS, BitVec.extractLsb'_append_eq_of_add_le,
    BitVec.extractLsb'_append_eq_of_le, BitVec.extractLsb'_eq_self, -Nat.reduceAdd, Nat.reduceSub])]
  simp (decide := true) only [decode00, fS, zeroField_zero, extract_ofFields, bit_ofFields, bit_high, bit_bS, BitVec.extractLsb'_append_eq_of_add_le,
    BitVec.extractLsb'_append_eq_of_le, BitVec.extractLsb'_eq_self, -Nat.reduceAdd, Nat.reduceSub]
  all_goals rfl

theorem br (o : FmtBr) : Statement (.br o) := by
  intro w hw hi
  cases hw
  refine of_shape ?_ hi
  rw [major02 (by simp (decide := true) only [fMajor, extract_ofFields, bit_ofFields, bit_high, bit_bS, BitVec.extractLsb'_append_eq_of_add_le,
    BitVec.extractLsb'_append_eq_of_le, BitVec.extractLsb'_eq_self, -Nat.reduceAdd, Nat.reduceSub])]
  simp (decide := true) only [decode02, fS, zeroField_zero, extract_ofFields, bit_ofFields, bit_high, bit_bS, BitVec.extractLsb'_append_eq_of_add_le,
    BitVec.extractLsb'_append_eq_of_le, BitVec.extractLsb'_eq_self, -Nat.reduceAdd, Nat.reduceSub]
  all_goals rfl

theorem bcc (o : FmtBcc) : Statement (.bcc o) := by
  intro w hw hi
  cases hw
  refine of_shape ?_ hi
  rw [major03 (by simp (decide := true) only [fMajor, extract_ofFields, bit_ofFields, bit_high, bit_bS, BitVec.extractLsb'_append_eq_of_add_le,
    BitVec.extractLsb'_append_eq_of_le, BitVec.extractLsb'_eq_self, -Nat.reduceAdd, Nat.reduceSub])]
  simp (decide := true) only [decode03, fS, zeroField_zero, extract_ofFields, bit_ofFields, bit_high, bit_bS, BitVec.extractLsb'_append_eq_of_add_le,
    BitVec.extractLsb'_append_eq_of_le, BitVec.extractLsb'_eq_self, -Nat.reduceAdd, Nat.reduceSub]
  all_goals rfl

theorem bmz (o : FmtBm) : Statement (.bmz o) := by
  intro w hw hi
  cases hw
  refine of_shape ?_ hi
  rw [major04 (by simp (decide := true) only [fMajor, extract_ofFields, bit_ofFields, bit_high, bit_bS, BitVec.extractLsb'_append_eq_of_add_le,
    BitVec.extractLsb'_append_eq_of_le, BitVec.extractLsb'_eq_self, -Nat.reduceAdd, Nat.reduceSub])]
  simp (decide := true) only [decode04, fS, zeroField_zero, extract_ofFields, bit_ofFields, bit_high, bit_bS, BitVec.extractLsb'_append_eq_of_add_le,
    BitVec.extractLsb'_append_eq_of_le, BitVec.extractLsb'_eq_self, -Nat.reduceAdd, Nat.reduceSub]
  all_goals rfl

theorem bmnz (o : FmtBm) : Statement (.bmnz o) := by
  intro w hw hi
  cases hw
  refine of_shape ?_ hi
  rw [major04 (by simp (decide := true) only [fMajor, extract_ofFields, bit_ofFields, bit_high, bit_bS, BitVec.extractLsb'_append_eq_of_add_le,
    BitVec.extractLsb'_append_eq_of_le, BitVec.extractLsb'_eq_self, -Nat.reduceAdd, Nat.reduceSub])]
  simp (decide := true) only [decode04, fS, zeroField_zero, extract_ofFields, bit_ofFields, bit_high, bit_bS, BitVec.extractLsb'_append_eq_of_add_le,
    BitVec.extractLsb'_append_eq_of_le, BitVec.extractLsb'_eq_self, -Nat.reduceAdd, Nat.reduceSub]
  all_goals rfl

theorem jtab (o : FmtDAI) : Statement (.jtab o) := by
  intro w hw hi
  cases hw
  refine of_shape ?_ hi
  rw [major05 (by simp (decide := true) only [fMajor, extract_ofFields, bit_ofFields, bit_high, bit_bS, BitVec.extractLsb'_append_eq_of_add_le,
    BitVec.extractLsb'_append_eq_of_le, BitVec.extractLsb'_eq_self, -Nat.reduceAdd, Nat.reduceSub])]
  simp (decide := true) only [decode05, fS, zeroField_zero, extract_ofFields, bit_ofFields, bit_high, bit_bS, BitVec.extractLsb'_append_eq_of_add_le,
    BitVec.extractLsb'_append_eq_of_le, BitVec.extractLsb'_eq_self, -Nat.reduceAdd, Nat.reduceSub]
  all_goals rfl

theorem call (o : FmtCall) : Statement (.call o) := by
  intro w hw hi
  cases hw
  refine of_shape ?_ hi
  rw [major06 (by simp (decide := true) only [fMajor, extract_ofFields, bit_ofFields, bit_high, bit_bS, BitVec.extractLsb'_append_eq_of_add_le,
    BitVec.extractLsb'_append_eq_of_le, BitVec.extractLsb'_eq_self, -Nat.reduceAdd, Nat.reduceSub])]
  simp (decide := true) only [decode06, fS, zeroField_zero, extract_ofFields, bit_ofFields, bit_high, bit_bS, BitVec.extractLsb'_append_eq_of_add_le,
    BitVec.extractLsb'_append_eq_of_le, BitVec.extractLsb'_eq_self, -Nat.reduceAdd, Nat.reduceSub]
  all_goals rfl

theorem callM (o : FmtCall) : Statement (.callM o) := by
  intro w hw hi
  cases hw
  refine of_shape ?_ hi
  rw [major06 (by simp (decide := true) only [fMajor, extract_ofFields, bit_ofFields, bit_high, bit_bS, BitVec.extractLsb'_append_eq_of_add_le,
    BitVec.extractLsb'_append_eq_of_le, BitVec.extractLsb'_eq_self, -Nat.reduceAdd, Nat.reduceSub])]
  simp (decide := true) only [decode06, fS, zeroField_zero, extract_ofFields, bit_ofFields, bit_high, bit_bS, BitVec.extractLsb'_append_eq_of_add_le,
    BitVec.extractLsb'_append_eq_of_le, BitVec.extractLsb'_eq_self, -Nat.reduceAdd, Nat.reduceSub]
  all_goals rfl

theorem callr (o : FmtAB) : Statement (.callr o) := by
  intro w hw hi
  cases hw
  refine of_shape ?_ hi
  rw [major07 (by simp (decide := true) only [fMajor, extract_ofFields, bit_ofFields, bit_high, bit_bS, BitVec.extractLsb'_append_eq_of_add_le,
    BitVec.extractLsb'_append_eq_of_le, BitVec.extractLsb'_eq_self, -Nat.reduceAdd, Nat.reduceSub])]
  simp (decide := true) only [decode07, fS, zeroField_zero, extract_ofFields, bit_ofFields, bit_high, bit_bS, BitVec.extractLsb'_append_eq_of_add_le,
    BitVec.extractLsb'_append_eq_of_le, BitVec.extractLsb'_eq_self, -Nat.reduceAdd, Nat.reduceSub]
  all_goals rfl

theorem callrM (o : FmtAB) : Statement (.callrM o) := by
  intro w hw hi
  cases hw
  refine of_shape ?_ hi
  rw [major07 (by simp (decide := true) only [fMajor, extract_ofFields, bit_ofFields, bit_high, bit_bS, BitVec.extractLsb'_append_eq_of_add_le,
    BitVec.extractLsb'_append_eq_of_le, BitVec.extractLsb'_eq_self, -Nat.reduceAdd, Nat.reduceSub])]
  simp (decide := true) only [decode07, fS, zeroField_zero, extract_ofFields, bit_ofFields, bit_high, bit_bS, BitVec.extractLsb'_append_eq_of_add_le,
    BitVec.extractLsb'_append_eq_of_le, BitVec.extractLsb'_eq_self, -Nat.reduceAdd, Nat.reduceSub]
  all_goals rfl

theorem ret (o : Sw) : Statement (.ret o) := by
  intro w hw hi
  cases hw
  refine of_shape ?_ hi
  rw [major08 (by simp (decide := true) only [fMajor, extract_ofFields, bit_ofFields, bit_high, bit_bS, BitVec.extractLsb'_append_eq_of_add_le,
    BitVec.extractLsb'_append_eq_of_le, BitVec.extractLsb'_eq_self, -Nat.reduceAdd, Nat.reduceSub])]
  simp (decide := true) only [decode08, fS, zeroField_zero, extract_ofFields, bit_ofFields, bit_high, bit_bS, BitVec.extractLsb'_append_eq_of_add_le,
    BitVec.extractLsb'_append_eq_of_le, BitVec.extractLsb'_eq_self, -Nat.reduceAdd, Nat.reduceSub]
  all_goals rfl

theorem unwind (o : FmtA) : Statement (.unwind o) := by
  intro w hw hi
  cases hw
  refine of_shape ?_ hi
  rw [major08 (by simp (decide := true) only [fMajor, extract_ofFields, bit_ofFields, bit_high, bit_bS, BitVec.extractLsb'_append_eq_of_add_le,
    BitVec.extractLsb'_append_eq_of_le, BitVec.extractLsb'_eq_self, -Nat.reduceAdd, Nat.reduceSub])]
  simp (decide := true) only [decode08, fS, zeroField_zero, extract_ofFields, bit_ofFields, bit_high, bit_bS, BitVec.extractLsb'_append_eq_of_add_le,
    BitVec.extractLsb'_append_eq_of_le, BitVec.extractLsb'_eq_self, -Nat.reduceAdd, Nat.reduceSub]
  all_goals rfl

theorem unwindM (o : Sw) : Statement (.unwindM o) := by
  intro w hw hi
  cases hw
  refine of_shape ?_ hi
  rw [major08 (by simp (decide := true) only [fMajor, extract_ofFields, bit_ofFields, bit_high, bit_bS, BitVec.extractLsb'_append_eq_of_add_le,
    BitVec.extractLsb'_append_eq_of_le, BitVec.extractLsb'_eq_self, -Nat.reduceAdd, Nat.reduceSub])]
  simp (decide := true) only [decode08, fS, zeroField_zero, extract_ofFields, bit_ofFields, bit_high, bit_bS, BitVec.extractLsb'_append_eq_of_add_le,
    BitVec.extractLsb'_append_eq_of_le, BitVec.extractLsb'_eq_self, -Nat.reduceAdd, Nat.reduceSub]
  all_goals rfl

theorem trap (o : FmtTrap) : Statement (.trap o) := by
  intro w hw hi
  cases hw
  refine of_shape ?_ hi
  rw [major09 (by simp (decide := true) only [fMajor, extract_ofFields, bit_ofFields, bit_high, bit_bS, BitVec.extractLsb'_append_eq_of_add_le,
    BitVec.extractLsb'_append_eq_of_le, BitVec.extractLsb'_eq_self, -Nat.reduceAdd, Nat.reduceSub])]
  simp (decide := true) only [decode09, fS, zeroField_zero, extract_ofFields, bit_ofFields, bit_high, bit_bS, BitVec.extractLsb'_append_eq_of_add_le,
    BitVec.extractLsb'_append_eq_of_le, BitVec.extractLsb'_eq_self, -Nat.reduceAdd, Nat.reduceSub]
  all_goals rfl

theorem rte (o : Sw) : Statement (.rte o) := by
  intro w hw hi
  cases hw
  refine of_shape ?_ hi
  rw [major0A (by simp (decide := true) only [fMajor, extract_ofFields, bit_ofFields, bit_high, bit_bS, BitVec.extractLsb'_append_eq_of_add_le,
    BitVec.extractLsb'_append_eq_of_le, BitVec.extractLsb'_eq_self, -Nat.reduceAdd, Nat.reduceSub])]
  simp (decide := true) only [decode0A, fS, zeroField_zero, extract_ofFields, bit_ofFields, bit_high, bit_bS, BitVec.extractLsb'_append_eq_of_add_le,
    BitVec.extractLsb'_append_eq_of_le, BitVec.extractLsb'_eq_self, -Nat.reduceAdd, Nat.reduceSub]
  all_goals rfl

theorem rteSkip (o : Sw) : Statement (.rteSkip o) := by
  intro w hw hi
  cases hw
  refine of_shape ?_ hi
  rw [major0A (by simp (decide := true) only [fMajor, extract_ofFields, bit_ofFields, bit_high, bit_bS, BitVec.extractLsb'_append_eq_of_add_le,
    BitVec.extractLsb'_append_eq_of_le, BitVec.extractLsb'_eq_self, -Nat.reduceAdd, Nat.reduceSub])]
  simp (decide := true) only [decode0A, fS, zeroField_zero, extract_ofFields, bit_ofFields, bit_high, bit_bS, BitVec.extractLsb'_append_eq_of_add_le,
    BitVec.extractLsb'_append_eq_of_le, BitVec.extractLsb'_eq_self, -Nat.reduceAdd, Nat.reduceSub]
  all_goals rfl

theorem replay (o : Sw) : Statement (.replay o) := by
  intro w hw hi
  cases hw
  refine of_shape ?_ hi
  rw [major0A (by simp (decide := true) only [fMajor, extract_ofFields, bit_ofFields, bit_high, bit_bS, BitVec.extractLsb'_append_eq_of_add_le,
    BitVec.extractLsb'_append_eq_of_le, BitVec.extractLsb'_eq_self, -Nat.reduceAdd, Nat.reduceSub])]
  simp (decide := true) only [decode0A, fS, zeroField_zero, extract_ofFields, bit_ofFields, bit_high, bit_bS, BitVec.extractLsb'_append_eq_of_add_le,
    BitVec.extractLsb'_append_eq_of_le, BitVec.extractLsb'_eq_self, -Nat.reduceAdd, Nat.reduceSub]
  all_goals rfl

theorem spawn (o : FmtCall) : Statement (.spawn o) := by
  intro w hw hi
  cases hw
  refine of_shape ?_ hi
  rw [major0B (by simp (decide := true) only [fMajor, extract_ofFields, bit_ofFields, bit_high, bit_bS, BitVec.extractLsb'_append_eq_of_add_le,
    BitVec.extractLsb'_append_eq_of_le, BitVec.extractLsb'_eq_self, -Nat.reduceAdd, Nat.reduceSub])]
  simp (decide := true) only [decode0B, fS, zeroField_zero, extract_ofFields, bit_ofFields, bit_high, bit_bS, BitVec.extractLsb'_append_eq_of_add_le,
    BitVec.extractLsb'_append_eq_of_le, BitVec.extractLsb'_eq_self, -Nat.reduceAdd, Nat.reduceSub]
  all_goals rfl

theorem spawnr (o : FmtAB) : Statement (.spawnr o) := by
  intro w hw hi
  cases hw
  refine of_shape ?_ hi
  rw [major0C (by simp (decide := true) only [fMajor, extract_ofFields, bit_ofFields, bit_high, bit_bS, BitVec.extractLsb'_append_eq_of_add_le,
    BitVec.extractLsb'_append_eq_of_le, BitVec.extractLsb'_eq_self, -Nat.reduceAdd, Nat.reduceSub])]
  simp (decide := true) only [decode0C, fS, zeroField_zero, extract_ofFields, bit_ofFields, bit_high, bit_bS, BitVec.extractLsb'_append_eq_of_add_le,
    BitVec.extractLsb'_append_eq_of_le, BitVec.extractLsb'_eq_self, -Nat.reduceAdd, Nat.reduceSub]
  all_goals rfl

theorem join (o : Sw) : Statement (.join o) := by
  intro w hw hi
  cases hw
  refine of_shape ?_ hi
  rw [major0D (by simp (decide := true) only [fMajor, extract_ofFields, bit_ofFields, bit_high, bit_bS, BitVec.extractLsb'_append_eq_of_add_le,
    BitVec.extractLsb'_append_eq_of_le, BitVec.extractLsb'_eq_self, -Nat.reduceAdd, Nat.reduceSub])]
  simp (decide := true) only [decode0D, fS, zeroField_zero, extract_ofFields, bit_ofFields, bit_high, bit_bS, BitVec.extractLsb'_append_eq_of_add_le,
    BitVec.extractLsb'_append_eq_of_le, BitVec.extractLsb'_eq_self, -Nat.reduceAdd, Nat.reduceSub]
  all_goals rfl

theorem tdone (o : Sw) : Statement (.tdone o) := by
  intro w hw hi
  cases hw
  refine of_shape ?_ hi
  rw [major0D (by simp (decide := true) only [fMajor, extract_ofFields, bit_ofFields, bit_high, bit_bS, BitVec.extractLsb'_append_eq_of_add_le,
    BitVec.extractLsb'_append_eq_of_le, BitVec.extractLsb'_eq_self, -Nat.reduceAdd, Nat.reduceSub])]
  simp (decide := true) only [decode0D, fS, zeroField_zero, extract_ofFields, bit_ofFields, bit_high, bit_bS, BitVec.extractLsb'_append_eq_of_add_le,
    BitVec.extractLsb'_append_eq_of_le, BitVec.extractLsb'_eq_self, -Nat.reduceAdd, Nat.reduceSub]
  all_goals rfl

theorem yield (o : Sw) : Statement (.yield o) := by
  intro w hw hi
  cases hw
  refine of_shape ?_ hi
  rw [major0D (by simp (decide := true) only [fMajor, extract_ofFields, bit_ofFields, bit_high, bit_bS, BitVec.extractLsb'_append_eq_of_add_le,
    BitVec.extractLsb'_append_eq_of_le, BitVec.extractLsb'_eq_self, -Nat.reduceAdd, Nat.reduceSub])]
  simp (decide := true) only [decode0D, fS, zeroField_zero, extract_ofFields, bit_ofFields, bit_high, bit_bS, BitVec.extractLsb'_append_eq_of_add_le,
    BitVec.extractLsb'_append_eq_of_le, BitVec.extractLsb'_eq_self, -Nat.reduceAdd, Nat.reduceSub]
  all_goals rfl

theorem pedq (o : FmtPedq) : Statement (.pedq o) := by
  intro w hw hi
  cases hw
  refine of_shape ?_ hi
  rw [major0E (by simp (decide := true) only [fMajor, extract_ofFields, bit_ofFields, bit_high, bit_bS, BitVec.extractLsb'_append_eq_of_add_le,
    BitVec.extractLsb'_append_eq_of_le, BitVec.extractLsb'_eq_self, -Nat.reduceAdd, Nat.reduceSub])]
  simp (decide := true) only [decode0E, fS, zeroField_zero, extract_ofFields, bit_ofFields, bit_high, bit_bS, BitVec.extractLsb'_append_eq_of_add_le,
    BitVec.extractLsb'_append_eq_of_le, BitVec.extractLsb'_eq_self, -Nat.reduceAdd, Nat.reduceSub]
  all_goals rfl

theorem pedkey (o : FmtD) : Statement (.pedkey o) := by
  intro w hw hi
  cases hw
  refine of_shape ?_ hi
  rw [major0F (by simp (decide := true) only [fMajor, extract_ofFields, bit_ofFields, bit_high, bit_bS, BitVec.extractLsb'_append_eq_of_add_le,
    BitVec.extractLsb'_append_eq_of_le, BitVec.extractLsb'_eq_self, -Nat.reduceAdd, Nat.reduceSub])]
  simp (decide := true) only [decode0F, fS, zeroField_zero, extract_ofFields, bit_ofFields, bit_high, bit_bS, BitVec.extractLsb'_append_eq_of_add_le,
    BitVec.extractLsb'_append_eq_of_le, BitVec.extractLsb'_eq_self, -Nat.reduceAdd, Nat.reduceSub]
  all_goals rfl

theorem mbrecv (o : FmtDA) : Statement (.mbrecv o) := by
  intro w hw hi
  cases hw
  refine of_shape ?_ hi
  rw [major10 (by simp (decide := true) only [fMajor, extract_ofFields, bit_ofFields, bit_high, bit_bS, BitVec.extractLsb'_append_eq_of_add_le,
    BitVec.extractLsb'_append_eq_of_le, BitVec.extractLsb'_eq_self, -Nat.reduceAdd, Nat.reduceSub])]
  simp (decide := true) only [decode10, fS, zeroField_zero, extract_ofFields, bit_ofFields, bit_high, bit_bS, BitVec.extractLsb'_append_eq_of_add_le,
    BitVec.extractLsb'_append_eq_of_le, BitVec.extractLsb'_eq_self, -Nat.reduceAdd, Nat.reduceSub]
  all_goals rfl

theorem mbrecvP (o : FmtDA) : Statement (.mbrecvP o) := by
  intro w hw hi
  cases hw
  refine of_shape ?_ hi
  rw [major10 (by simp (decide := true) only [fMajor, extract_ofFields, bit_ofFields, bit_high, bit_bS, BitVec.extractLsb'_append_eq_of_add_le,
    BitVec.extractLsb'_append_eq_of_le, BitVec.extractLsb'_eq_self, -Nat.reduceAdd, Nat.reduceSub])]
  simp (decide := true) only [decode10, fS, zeroField_zero, extract_ofFields, bit_ofFields, bit_high, bit_bS, BitVec.extractLsb'_append_eq_of_add_le,
    BitVec.extractLsb'_append_eq_of_le, BitVec.extractLsb'_eq_self, -Nat.reduceAdd, Nat.reduceSub]
  all_goals rfl

theorem mbsend (o : FmtAB) : Statement (.mbsend o) := by
  intro w hw hi
  cases hw
  refine of_shape ?_ hi
  rw [major11 (by simp (decide := true) only [fMajor, extract_ofFields, bit_ofFields, bit_high, bit_bS, BitVec.extractLsb'_append_eq_of_add_le,
    BitVec.extractLsb'_append_eq_of_le, BitVec.extractLsb'_eq_self, -Nat.reduceAdd, Nat.reduceSub])]
  simp (decide := true) only [decode11, fS, zeroField_zero, extract_ofFields, bit_ofFields, bit_high, bit_bS, BitVec.extractLsb'_append_eq_of_add_le,
    BitVec.extractLsb'_append_eq_of_le, BitVec.extractLsb'_eq_self, -Nat.reduceAdd, Nat.reduceSub]
  all_goals rfl

theorem rupd (o : FmtRed) : Statement (.rupd o) := by
  intro w hw hi
  cases hw
  refine of_shape ?_ hi
  rw [major12 (by simp (decide := true) only [fMajor, extract_ofFields, bit_ofFields, bit_high, bit_bS, BitVec.extractLsb'_append_eq_of_add_le,
    BitVec.extractLsb'_append_eq_of_le, BitVec.extractLsb'_eq_self, -Nat.reduceAdd, Nat.reduceSub])]
  simp (decide := true) only [decode12, fS, zeroField_zero, extract_ofFields, bit_ofFields, bit_high, bit_bS, BitVec.extractLsb'_append_eq_of_add_le,
    BitVec.extractLsb'_append_eq_of_le, BitVec.extractLsb'_eq_self, -Nat.reduceAdd, Nat.reduceSub]
  all_goals rfl

theorem rlog (o : FmtRlog) : Statement (.rlog o) := by
  intro w hw hi
  cases hw
  refine of_shape ?_ hi
  rw [major13 (by simp (decide := true) only [fMajor, extract_ofFields, bit_ofFields, bit_high, bit_bS, BitVec.extractLsb'_append_eq_of_add_le,
    BitVec.extractLsb'_append_eq_of_le, BitVec.extractLsb'_eq_self, -Nat.reduceAdd, Nat.reduceSub])]
  simp (decide := true) only [decode13, fS, zeroField_zero, extract_ofFields, bit_ofFields, bit_high, bit_bS, BitVec.extractLsb'_append_eq_of_add_le,
    BitVec.extractLsb'_append_eq_of_le, BitVec.extractLsb'_eq_self, -Nat.reduceAdd, Nat.reduceSub]
  all_goals rfl

theorem rread (o : FmtRed) : Statement (.rread o) := by
  intro w hw hi
  cases hw
  refine of_shape ?_ hi
  rw [major14 (by simp (decide := true) only [fMajor, extract_ofFields, bit_ofFields, bit_high, bit_bS, BitVec.extractLsb'_append_eq_of_add_le,
    BitVec.extractLsb'_append_eq_of_le, BitVec.extractLsb'_eq_self, -Nat.reduceAdd, Nat.reduceSub])]
  simp (decide := true) only [decode14, fS, zeroField_zero, extract_ofFields, bit_ofFields, bit_high, bit_bS, BitVec.extractLsb'_append_eq_of_add_le,
    BitVec.extractLsb'_append_eq_of_le, BitVec.extractLsb'_eq_self, -Nat.reduceAdd, Nat.reduceSub]
  all_goals rfl

theorem rseed (o : FmtA) : Statement (.rseed o) := by
  intro w hw hi
  cases hw
  refine of_shape ?_ hi
  rw [major15 (by simp (decide := true) only [fMajor, extract_ofFields, bit_ofFields, bit_high, bit_bS, BitVec.extractLsb'_append_eq_of_add_le,
    BitVec.extractLsb'_append_eq_of_le, BitVec.extractLsb'_eq_self, -Nat.reduceAdd, Nat.reduceSub])]
  simp (decide := true) only [decode15, fS, zeroField_zero, extract_ofFields, bit_ofFields, bit_high, bit_bS, BitVec.extractLsb'_append_eq_of_add_le,
    BitVec.extractLsb'_append_eq_of_le, BitVec.extractLsb'_eq_self, -Nat.reduceAdd, Nat.reduceSub]
  all_goals rfl

theorem rjump (o : FmtA) : Statement (.rjump o) := by
  intro w hw hi
  cases hw
  refine of_shape ?_ hi
  rw [major15 (by simp (decide := true) only [fMajor, extract_ofFields, bit_ofFields, bit_high, bit_bS, BitVec.extractLsb'_append_eq_of_add_le,
    BitVec.extractLsb'_append_eq_of_le, BitVec.extractLsb'_eq_self, -Nat.reduceAdd, Nat.reduceSub])]
  simp (decide := true) only [decode15, fS, zeroField_zero, extract_ofFields, bit_ofFields, bit_high, bit_bS, BitVec.extractLsb'_append_eq_of_add_le,
    BitVec.extractLsb'_append_eq_of_le, BitVec.extractLsb'_eq_self, -Nat.reduceAdd, Nat.reduceSub]
  all_goals rfl

theorem rdraw (o : FmtD) : Statement (.rdraw o) := by
  intro w hw hi
  cases hw
  refine of_shape ?_ hi
  rw [major15 (by simp (decide := true) only [fMajor, extract_ofFields, bit_ofFields, bit_high, bit_bS, BitVec.extractLsb'_append_eq_of_add_le,
    BitVec.extractLsb'_append_eq_of_le, BitVec.extractLsb'_eq_self, -Nat.reduceAdd, Nat.reduceSub])]
  simp (decide := true) only [decode15, fS, zeroField_zero, extract_ofFields, bit_ofFields, bit_high, bit_bS, BitVec.extractLsb'_append_eq_of_add_le,
    BitVec.extractLsb'_append_eq_of_le, BitVec.extractLsb'_eq_self, -Nat.reduceAdd, Nat.reduceSub]
  all_goals rfl

theorem fgrow (o : FmtDemand) : Statement (.fgrow o) := by
  intro w hw hi
  cases hw
  refine of_shape ?_ hi
  rw [major16 (by simp (decide := true) only [fMajor, extract_ofFields, bit_ofFields, bit_high, bit_bS, BitVec.extractLsb'_append_eq_of_add_le,
    BitVec.extractLsb'_append_eq_of_le, BitVec.extractLsb'_eq_self, -Nat.reduceAdd, Nat.reduceSub])]
  simp (decide := true) only [decode16, fS, zeroField_zero, extract_ofFields, bit_ofFields, bit_high, bit_bS, BitVec.extractLsb'_append_eq_of_add_le,
    BitVec.extractLsb'_append_eq_of_le, BitVec.extractLsb'_eq_self, -Nat.reduceAdd, Nat.reduceSub]
  all_goals rfl

theorem fshrink (o : FmtDemand) : Statement (.fshrink o) := by
  intro w hw hi
  cases hw
  refine of_shape ?_ hi
  rw [major17 (by simp (decide := true) only [fMajor, extract_ofFields, bit_ofFields, bit_high, bit_bS, BitVec.extractLsb'_append_eq_of_add_le,
    BitVec.extractLsb'_append_eq_of_le, BitVec.extractLsb'_eq_self, -Nat.reduceAdd, Nat.reduceSub])]
  simp (decide := true) only [decode17, fS, zeroField_zero, extract_ofFields, bit_ofFields, bit_high, bit_bS, BitVec.extractLsb'_append_eq_of_add_le,
    BitVec.extractLsb'_append_eq_of_le, BitVec.extractLsb'_eq_self, -Nat.reduceAdd, Nat.reduceSub]
  all_goals rfl

theorem fgive (o : FmtQuota) : Statement (.fgive o) := by
  intro w hw hi
  cases hw
  refine of_shape ?_ hi
  rw [major18 (by simp (decide := true) only [fMajor, extract_ofFields, bit_ofFields, bit_high, bit_bS, BitVec.extractLsb'_append_eq_of_add_le,
    BitVec.extractLsb'_append_eq_of_le, BitVec.extractLsb'_eq_self, -Nat.reduceAdd, Nat.reduceSub])]
  simp (decide := true) only [decode18, fS, zeroField_zero, extract_ofFields, bit_ofFields, bit_high, bit_bS, BitVec.extractLsb'_append_eq_of_add_le,
    BitVec.extractLsb'_append_eq_of_le, BitVec.extractLsb'_eq_self, -Nat.reduceAdd, Nat.reduceSub]
  all_goals rfl

theorem ftake (o : FmtQuota) : Statement (.ftake o) := by
  intro w hw hi
  cases hw
  refine of_shape ?_ hi
  rw [major19 (by simp (decide := true) only [fMajor, extract_ofFields, bit_ofFields, bit_high, bit_bS, BitVec.extractLsb'_append_eq_of_add_le,
    BitVec.extractLsb'_append_eq_of_le, BitVec.extractLsb'_eq_self, -Nat.reduceAdd, Nat.reduceSub])]
  simp (decide := true) only [decode19, fS, zeroField_zero, extract_ofFields, bit_ofFields, bit_high, bit_bS, BitVec.extractLsb'_append_eq_of_add_le,
    BitVec.extractLsb'_append_eq_of_le, BitVec.extractLsb'_eq_self, -Nat.reduceAdd, Nat.reduceSub]
  all_goals rfl

theorem ftag (o : FmtDA) : Statement (.ftag o) := by
  intro w hw hi
  cases hw
  refine of_shape ?_ hi
  rw [major1A (by simp (decide := true) only [fMajor, extract_ofFields, bit_ofFields, bit_high, bit_bS, BitVec.extractLsb'_append_eq_of_add_le,
    BitVec.extractLsb'_append_eq_of_le, BitVec.extractLsb'_eq_self, -Nat.reduceAdd, Nat.reduceSub])]
  simp (decide := true) only [decode1A, fS, zeroField_zero, extract_ofFields, bit_ofFields, bit_high, bit_bS, BitVec.extractLsb'_append_eq_of_add_le,
    BitVec.extractLsb'_append_eq_of_le, BitVec.extractLsb'_eq_self, -Nat.reduceAdd, Nat.reduceSub]
  all_goals rfl

theorem fmat (o : FmtD) : Statement (.fmat o) := by
  intro w hw hi
  cases hw
  refine of_shape ?_ hi
  rw [major1A (by simp (decide := true) only [fMajor, extract_ofFields, bit_ofFields, bit_high, bit_bS, BitVec.extractLsb'_append_eq_of_add_le,
    BitVec.extractLsb'_append_eq_of_le, BitVec.extractLsb'_eq_self, -Nat.reduceAdd, Nat.reduceSub])]
  simp (decide := true) only [decode1A, fS, zeroField_zero, extract_ofFields, bit_ofFields, bit_high, bit_bS, BitVec.extractLsb'_append_eq_of_add_le,
    BitVec.extractLsb'_append_eq_of_le, BitVec.extractLsb'_eq_self, -Nat.reduceAdd, Nat.reduceSub]
  all_goals rfl

theorem iadd (o : FmtDAB) : Statement (.iadd o) := by
  intro w hw hi
  cases hw
  refine of_shape ?_ hi
  rw [major20 (by simp (decide := true) only [fMajor, extract_ofFields, bit_ofFields, bit_high, bit_bS, BitVec.extractLsb'_append_eq_of_add_le,
    BitVec.extractLsb'_append_eq_of_le, BitVec.extractLsb'_eq_self, -Nat.reduceAdd, Nat.reduceSub])]
  simp (decide := true) only [decode20, fS, zeroField_zero, extract_ofFields, bit_ofFields, bit_high, bit_bS, BitVec.extractLsb'_append_eq_of_add_le,
    BitVec.extractLsb'_append_eq_of_le, BitVec.extractLsb'_eq_self, -Nat.reduceAdd, Nat.reduceSub]
  all_goals rfl

theorem isub (o : FmtDAB) : Statement (.isub o) := by
  intro w hw hi
  cases hw
  refine of_shape ?_ hi
  rw [major20 (by simp (decide := true) only [fMajor, extract_ofFields, bit_ofFields, bit_high, bit_bS, BitVec.extractLsb'_append_eq_of_add_le,
    BitVec.extractLsb'_append_eq_of_le, BitVec.extractLsb'_eq_self, -Nat.reduceAdd, Nat.reduceSub])]
  simp (decide := true) only [decode20, fS, zeroField_zero, extract_ofFields, bit_ofFields, bit_high, bit_bS, BitVec.extractLsb'_append_eq_of_add_le,
    BitVec.extractLsb'_append_eq_of_le, BitVec.extractLsb'_eq_self, -Nat.reduceAdd, Nat.reduceSub]
  all_goals rfl

theorem iaddc (o : FmtDAB) : Statement (.iaddc o) := by
  intro w hw hi
  cases hw
  refine of_shape ?_ hi
  rw [major20 (by simp (decide := true) only [fMajor, extract_ofFields, bit_ofFields, bit_high, bit_bS, BitVec.extractLsb'_append_eq_of_add_le,
    BitVec.extractLsb'_append_eq_of_le, BitVec.extractLsb'_eq_self, -Nat.reduceAdd, Nat.reduceSub])]
  simp (decide := true) only [decode20, fS, zeroField_zero, extract_ofFields, bit_ofFields, bit_high, bit_bS, BitVec.extractLsb'_append_eq_of_add_le,
    BitVec.extractLsb'_append_eq_of_le, BitVec.extractLsb'_eq_self, -Nat.reduceAdd, Nat.reduceSub]
  all_goals rfl

theorem isubb (o : FmtDAB) : Statement (.isubb o) := by
  intro w hw hi
  cases hw
  refine of_shape ?_ hi
  rw [major20 (by simp (decide := true) only [fMajor, extract_ofFields, bit_ofFields, bit_high, bit_bS, BitVec.extractLsb'_append_eq_of_add_le,
    BitVec.extractLsb'_append_eq_of_le, BitVec.extractLsb'_eq_self, -Nat.reduceAdd, Nat.reduceSub])]
  simp (decide := true) only [decode20, fS, zeroField_zero, extract_ofFields, bit_ofFields, bit_high, bit_bS, BitVec.extractLsb'_append_eq_of_add_le,
    BitVec.extractLsb'_append_eq_of_le, BitVec.extractLsb'_eq_self, -Nat.reduceAdd, Nat.reduceSub]
  all_goals rfl

theorem iaddi (o : FmtDAI) : Statement (.iaddi o) := by
  intro w hw hi
  cases hw
  refine of_shape ?_ hi
  rw [major21 (by simp (decide := true) only [fMajor, extract_ofFields, bit_ofFields, bit_high, bit_bS, BitVec.extractLsb'_append_eq_of_add_le,
    BitVec.extractLsb'_append_eq_of_le, BitVec.extractLsb'_eq_self, -Nat.reduceAdd, Nat.reduceSub])]
  simp (decide := true) only [decode21, fS, zeroField_zero, extract_ofFields, bit_ofFields, bit_high, bit_bS, BitVec.extractLsb'_append_eq_of_add_le,
    BitVec.extractLsb'_append_eq_of_le, BitVec.extractLsb'_eq_self, -Nat.reduceAdd, Nat.reduceSub]
  all_goals rfl

theorem imul (o : FmtDAB) : Statement (.imul o) := by
  intro w hw hi
  cases hw
  refine of_shape ?_ hi
  rw [major22 (by simp (decide := true) only [fMajor, extract_ofFields, bit_ofFields, bit_high, bit_bS, BitVec.extractLsb'_append_eq_of_add_le,
    BitVec.extractLsb'_append_eq_of_le, BitVec.extractLsb'_eq_self, -Nat.reduceAdd, Nat.reduceSub])]
  simp (decide := true) only [decode22, fS, zeroField_zero, extract_ofFields, bit_ofFields, bit_high, bit_bS, BitVec.extractLsb'_append_eq_of_add_le,
    BitVec.extractLsb'_append_eq_of_le, BitVec.extractLsb'_eq_self, -Nat.reduceAdd, Nat.reduceSub]
  all_goals rfl

theorem imulh (o : FmtDAB) : Statement (.imulh o) := by
  intro w hw hi
  cases hw
  refine of_shape ?_ hi
  rw [major22 (by simp (decide := true) only [fMajor, extract_ofFields, bit_ofFields, bit_high, bit_bS, BitVec.extractLsb'_append_eq_of_add_le,
    BitVec.extractLsb'_append_eq_of_le, BitVec.extractLsb'_eq_self, -Nat.reduceAdd, Nat.reduceSub])]
  simp (decide := true) only [decode22, fS, zeroField_zero, extract_ofFields, bit_ofFields, bit_high, bit_bS, BitVec.extractLsb'_append_eq_of_add_le,
    BitVec.extractLsb'_append_eq_of_le, BitVec.extractLsb'_eq_self, -Nat.reduceAdd, Nat.reduceSub]
  all_goals rfl

theorem imulhu (o : FmtDAB) : Statement (.imulhu o) := by
  intro w hw hi
  cases hw
  refine of_shape ?_ hi
  rw [major22 (by simp (decide := true) only [fMajor, extract_ofFields, bit_ofFields, bit_high, bit_bS, BitVec.extractLsb'_append_eq_of_add_le,
    BitVec.extractLsb'_append_eq_of_le, BitVec.extractLsb'_eq_self, -Nat.reduceAdd, Nat.reduceSub])]
  simp (decide := true) only [decode22, fS, zeroField_zero, extract_ofFields, bit_ofFields, bit_high, bit_bS, BitVec.extractLsb'_append_eq_of_add_le,
    BitVec.extractLsb'_append_eq_of_le, BitVec.extractLsb'_eq_self, -Nat.reduceAdd, Nat.reduceSub]
  all_goals rfl

theorem imad (o : FmtDAB) : Statement (.imad o) := by
  intro w hw hi
  cases hw
  refine of_shape ?_ hi
  rw [major22 (by simp (decide := true) only [fMajor, extract_ofFields, bit_ofFields, bit_high, bit_bS, BitVec.extractLsb'_append_eq_of_add_le,
    BitVec.extractLsb'_append_eq_of_le, BitVec.extractLsb'_eq_self, -Nat.reduceAdd, Nat.reduceSub])]
  simp (decide := true) only [decode22, fS, zeroField_zero, extract_ofFields, bit_ofFields, bit_high, bit_bS, BitVec.extractLsb'_append_eq_of_add_le,
    BitVec.extractLsb'_append_eq_of_le, BitVec.extractLsb'_eq_self, -Nat.reduceAdd, Nat.reduceSub]
  all_goals rfl

theorem and (o : FmtDAB) : Statement (.and o) := by
  intro w hw hi
  cases hw
  refine of_shape ?_ hi
  rw [major23 (by simp (decide := true) only [fMajor, extract_ofFields, bit_ofFields, bit_high, bit_bS, BitVec.extractLsb'_append_eq_of_add_le,
    BitVec.extractLsb'_append_eq_of_le, BitVec.extractLsb'_eq_self, -Nat.reduceAdd, Nat.reduceSub])]
  simp (decide := true) only [decode23, fS, zeroField_zero, extract_ofFields, bit_ofFields, bit_high, bit_bS, BitVec.extractLsb'_append_eq_of_add_le,
    BitVec.extractLsb'_append_eq_of_le, BitVec.extractLsb'_eq_self, -Nat.reduceAdd, Nat.reduceSub]
  all_goals rfl

theorem or (o : FmtDAB) : Statement (.or o) := by
  intro w hw hi
  cases hw
  refine of_shape ?_ hi
  rw [major23 (by simp (decide := true) only [fMajor, extract_ofFields, bit_ofFields, bit_high, bit_bS, BitVec.extractLsb'_append_eq_of_add_le,
    BitVec.extractLsb'_append_eq_of_le, BitVec.extractLsb'_eq_self, -Nat.reduceAdd, Nat.reduceSub])]
  simp (decide := true) only [decode23, fS, zeroField_zero, extract_ofFields, bit_ofFields, bit_high, bit_bS, BitVec.extractLsb'_append_eq_of_add_le,
    BitVec.extractLsb'_append_eq_of_le, BitVec.extractLsb'_eq_self, -Nat.reduceAdd, Nat.reduceSub]
  all_goals rfl

theorem xor (o : FmtDAB) : Statement (.xor o) := by
  intro w hw hi
  cases hw
  refine of_shape ?_ hi
  rw [major23 (by simp (decide := true) only [fMajor, extract_ofFields, bit_ofFields, bit_high, bit_bS, BitVec.extractLsb'_append_eq_of_add_le,
    BitVec.extractLsb'_append_eq_of_le, BitVec.extractLsb'_eq_self, -Nat.reduceAdd, Nat.reduceSub])]
  simp (decide := true) only [decode23, fS, zeroField_zero, extract_ofFields, bit_ofFields, bit_high, bit_bS, BitVec.extractLsb'_append_eq_of_add_le,
    BitVec.extractLsb'_append_eq_of_le, BitVec.extractLsb'_eq_self, -Nat.reduceAdd, Nat.reduceSub]
  all_goals rfl

theorem andn (o : FmtDAB) : Statement (.andn o) := by
  intro w hw hi
  cases hw
  refine of_shape ?_ hi
  rw [major23 (by simp (decide := true) only [fMajor, extract_ofFields, bit_ofFields, bit_high, bit_bS, BitVec.extractLsb'_append_eq_of_add_le,
    BitVec.extractLsb'_append_eq_of_le, BitVec.extractLsb'_eq_self, -Nat.reduceAdd, Nat.reduceSub])]
  simp (decide := true) only [decode23, fS, zeroField_zero, extract_ofFields, bit_ofFields, bit_high, bit_bS, BitVec.extractLsb'_append_eq_of_add_le,
    BitVec.extractLsb'_append_eq_of_le, BitVec.extractLsb'_eq_self, -Nat.reduceAdd, Nat.reduceSub]
  all_goals rfl

theorem andi (o : FmtDAI) : Statement (.andi o) := by
  intro w hw hi
  cases hw
  refine of_shape ?_ hi
  rw [major24 (by simp (decide := true) only [fMajor, extract_ofFields, bit_ofFields, bit_high, bit_bS, BitVec.extractLsb'_append_eq_of_add_le,
    BitVec.extractLsb'_append_eq_of_le, BitVec.extractLsb'_eq_self, -Nat.reduceAdd, Nat.reduceSub])]
  simp (decide := true) only [decode24, fS, zeroField_zero, extract_ofFields, bit_ofFields, bit_high, bit_bS, BitVec.extractLsb'_append_eq_of_add_le,
    BitVec.extractLsb'_append_eq_of_le, BitVec.extractLsb'_eq_self, -Nat.reduceAdd, Nat.reduceSub]
  all_goals rfl

theorem ori (o : FmtDAI) : Statement (.ori o) := by
  intro w hw hi
  cases hw
  refine of_shape ?_ hi
  rw [major25 (by simp (decide := true) only [fMajor, extract_ofFields, bit_ofFields, bit_high, bit_bS, BitVec.extractLsb'_append_eq_of_add_le,
    BitVec.extractLsb'_append_eq_of_le, BitVec.extractLsb'_eq_self, -Nat.reduceAdd, Nat.reduceSub])]
  simp (decide := true) only [decode25, fS, zeroField_zero, extract_ofFields, bit_ofFields, bit_high, bit_bS, BitVec.extractLsb'_append_eq_of_add_le,
    BitVec.extractLsb'_append_eq_of_le, BitVec.extractLsb'_eq_self, -Nat.reduceAdd, Nat.reduceSub]
  all_goals rfl

theorem xori (o : FmtDAI) : Statement (.xori o) := by
  intro w hw hi
  cases hw
  refine of_shape ?_ hi
  rw [major26 (by simp (decide := true) only [fMajor, extract_ofFields, bit_ofFields, bit_high, bit_bS, BitVec.extractLsb'_append_eq_of_add_le,
    BitVec.extractLsb'_append_eq_of_le, BitVec.extractLsb'_eq_self, -Nat.reduceAdd, Nat.reduceSub])]
  simp (decide := true) only [decode26, fS, zeroField_zero, extract_ofFields, bit_ofFields, bit_high, bit_bS, BitVec.extractLsb'_append_eq_of_add_le,
    BitVec.extractLsb'_append_eq_of_le, BitVec.extractLsb'_eq_self, -Nat.reduceAdd, Nat.reduceSub]
  all_goals rfl

theorem shl (o : FmtDAB) : Statement (.shl o) := by
  intro w hw hi
  cases hw
  refine of_shape ?_ hi
  rw [major27 (by simp (decide := true) only [fMajor, extract_ofFields, bit_ofFields, bit_high, bit_bS, BitVec.extractLsb'_append_eq_of_add_le,
    BitVec.extractLsb'_append_eq_of_le, BitVec.extractLsb'_eq_self, -Nat.reduceAdd, Nat.reduceSub])]
  simp (decide := true) only [decode27, fS, zeroField_zero, extract_ofFields, bit_ofFields, bit_high, bit_bS, BitVec.extractLsb'_append_eq_of_add_le,
    BitVec.extractLsb'_append_eq_of_le, BitVec.extractLsb'_eq_self, -Nat.reduceAdd, Nat.reduceSub]
  all_goals rfl

theorem shr (o : FmtDAB) : Statement (.shr o) := by
  intro w hw hi
  cases hw
  refine of_shape ?_ hi
  rw [major27 (by simp (decide := true) only [fMajor, extract_ofFields, bit_ofFields, bit_high, bit_bS, BitVec.extractLsb'_append_eq_of_add_le,
    BitVec.extractLsb'_append_eq_of_le, BitVec.extractLsb'_eq_self, -Nat.reduceAdd, Nat.reduceSub])]
  simp (decide := true) only [decode27, fS, zeroField_zero, extract_ofFields, bit_ofFields, bit_high, bit_bS, BitVec.extractLsb'_append_eq_of_add_le,
    BitVec.extractLsb'_append_eq_of_le, BitVec.extractLsb'_eq_self, -Nat.reduceAdd, Nat.reduceSub]
  all_goals rfl

theorem sar (o : FmtDAB) : Statement (.sar o) := by
  intro w hw hi
  cases hw
  refine of_shape ?_ hi
  rw [major27 (by simp (decide := true) only [fMajor, extract_ofFields, bit_ofFields, bit_high, bit_bS, BitVec.extractLsb'_append_eq_of_add_le,
    BitVec.extractLsb'_append_eq_of_le, BitVec.extractLsb'_eq_self, -Nat.reduceAdd, Nat.reduceSub])]
  simp (decide := true) only [decode27, fS, zeroField_zero, extract_ofFields, bit_ofFields, bit_high, bit_bS, BitVec.extractLsb'_append_eq_of_add_le,
    BitVec.extractLsb'_append_eq_of_le, BitVec.extractLsb'_eq_self, -Nat.reduceAdd, Nat.reduceSub]
  all_goals rfl

theorem rot (o : FmtDAB) : Statement (.rot o) := by
  intro w hw hi
  cases hw
  refine of_shape ?_ hi
  rw [major27 (by simp (decide := true) only [fMajor, extract_ofFields, bit_ofFields, bit_high, bit_bS, BitVec.extractLsb'_append_eq_of_add_le,
    BitVec.extractLsb'_append_eq_of_le, BitVec.extractLsb'_eq_self, -Nat.reduceAdd, Nat.reduceSub])]
  simp (decide := true) only [decode27, fS, zeroField_zero, extract_ofFields, bit_ofFields, bit_high, bit_bS, BitVec.extractLsb'_append_eq_of_add_le,
    BitVec.extractLsb'_append_eq_of_le, BitVec.extractLsb'_eq_self, -Nat.reduceAdd, Nat.reduceSub]
  all_goals rfl

theorem shli (o : FmtShift) : Statement (.shli o) := by
  intro w hw hi
  cases hw
  refine of_shape ?_ hi
  rw [major28 (by simp (decide := true) only [fMajor, extract_ofFields, bit_ofFields, bit_high, bit_bS, BitVec.extractLsb'_append_eq_of_add_le,
    BitVec.extractLsb'_append_eq_of_le, BitVec.extractLsb'_eq_self, -Nat.reduceAdd, Nat.reduceSub])]
  simp (decide := true) only [decode28, fS, zeroField_zero, extract_ofFields, bit_ofFields, bit_high, bit_bS, BitVec.extractLsb'_append_eq_of_add_le,
    BitVec.extractLsb'_append_eq_of_le, BitVec.extractLsb'_eq_self, -Nat.reduceAdd, Nat.reduceSub]
  all_goals rfl

theorem shri (o : FmtShift) : Statement (.shri o) := by
  intro w hw hi
  cases hw
  refine of_shape ?_ hi
  rw [major28 (by simp (decide := true) only [fMajor, extract_ofFields, bit_ofFields, bit_high, bit_bS, BitVec.extractLsb'_append_eq_of_add_le,
    BitVec.extractLsb'_append_eq_of_le, BitVec.extractLsb'_eq_self, -Nat.reduceAdd, Nat.reduceSub])]
  simp (decide := true) only [decode28, fS, zeroField_zero, extract_ofFields, bit_ofFields, bit_high, bit_bS, BitVec.extractLsb'_append_eq_of_add_le,
    BitVec.extractLsb'_append_eq_of_le, BitVec.extractLsb'_eq_self, -Nat.reduceAdd, Nat.reduceSub]
  all_goals rfl

theorem sari (o : FmtShift) : Statement (.sari o) := by
  intro w hw hi
  cases hw
  refine of_shape ?_ hi
  rw [major28 (by simp (decide := true) only [fMajor, extract_ofFields, bit_ofFields, bit_high, bit_bS, BitVec.extractLsb'_append_eq_of_add_le,
    BitVec.extractLsb'_append_eq_of_le, BitVec.extractLsb'_eq_self, -Nat.reduceAdd, Nat.reduceSub])]
  simp (decide := true) only [decode28, fS, zeroField_zero, extract_ofFields, bit_ofFields, bit_high, bit_bS, BitVec.extractLsb'_append_eq_of_add_le,
    BitVec.extractLsb'_append_eq_of_le, BitVec.extractLsb'_eq_self, -Nat.reduceAdd, Nat.reduceSub]
  all_goals rfl

theorem roti (o : FmtShift) : Statement (.roti o) := by
  intro w hw hi
  cases hw
  refine of_shape ?_ hi
  rw [major28 (by simp (decide := true) only [fMajor, extract_ofFields, bit_ofFields, bit_high, bit_bS, BitVec.extractLsb'_append_eq_of_add_le,
    BitVec.extractLsb'_append_eq_of_le, BitVec.extractLsb'_eq_self, -Nat.reduceAdd, Nat.reduceSub])]
  simp (decide := true) only [decode28, fS, zeroField_zero, extract_ofFields, bit_ofFields, bit_high, bit_bS, BitVec.extractLsb'_append_eq_of_add_le,
    BitVec.extractLsb'_append_eq_of_le, BitVec.extractLsb'_eq_self, -Nat.reduceAdd, Nat.reduceSub]
  all_goals rfl

theorem popc (o : FmtDA) : Statement (.popc o) := by
  intro w hw hi
  cases hw
  refine of_shape ?_ hi
  rw [major29 (by simp (decide := true) only [fMajor, extract_ofFields, bit_ofFields, bit_high, bit_bS, BitVec.extractLsb'_append_eq_of_add_le,
    BitVec.extractLsb'_append_eq_of_le, BitVec.extractLsb'_eq_self, -Nat.reduceAdd, Nat.reduceSub])]
  simp (decide := true) only [decode29, fS, zeroField_zero, extract_ofFields, bit_ofFields, bit_high, bit_bS, BitVec.extractLsb'_append_eq_of_add_le,
    BitVec.extractLsb'_append_eq_of_le, BitVec.extractLsb'_eq_self, -Nat.reduceAdd, Nat.reduceSub]
  all_goals rfl

theorem clz (o : FmtDA) : Statement (.clz o) := by
  intro w hw hi
  cases hw
  refine of_shape ?_ hi
  rw [major29 (by simp (decide := true) only [fMajor, extract_ofFields, bit_ofFields, bit_high, bit_bS, BitVec.extractLsb'_append_eq_of_add_le,
    BitVec.extractLsb'_append_eq_of_le, BitVec.extractLsb'_eq_self, -Nat.reduceAdd, Nat.reduceSub])]
  simp (decide := true) only [decode29, fS, zeroField_zero, extract_ofFields, bit_ofFields, bit_high, bit_bS, BitVec.extractLsb'_append_eq_of_add_le,
    BitVec.extractLsb'_append_eq_of_le, BitVec.extractLsb'_eq_self, -Nat.reduceAdd, Nat.reduceSub]
  all_goals rfl

theorem ctz (o : FmtDA) : Statement (.ctz o) := by
  intro w hw hi
  cases hw
  refine of_shape ?_ hi
  rw [major29 (by simp (decide := true) only [fMajor, extract_ofFields, bit_ofFields, bit_high, bit_bS, BitVec.extractLsb'_append_eq_of_add_le,
    BitVec.extractLsb'_append_eq_of_le, BitVec.extractLsb'_eq_self, -Nat.reduceAdd, Nat.reduceSub])]
  simp (decide := true) only [decode29, fS, zeroField_zero, extract_ofFields, bit_ofFields, bit_high, bit_bS, BitVec.extractLsb'_append_eq_of_add_le,
    BitVec.extractLsb'_append_eq_of_le, BitVec.extractLsb'_eq_self, -Nat.reduceAdd, Nat.reduceSub]
  all_goals rfl

theorem brev (o : FmtDA) : Statement (.brev o) := by
  intro w hw hi
  cases hw
  refine of_shape ?_ hi
  rw [major29 (by simp (decide := true) only [fMajor, extract_ofFields, bit_ofFields, bit_high, bit_bS, BitVec.extractLsb'_append_eq_of_add_le,
    BitVec.extractLsb'_append_eq_of_le, BitVec.extractLsb'_eq_self, -Nat.reduceAdd, Nat.reduceSub])]
  simp (decide := true) only [decode29, fS, zeroField_zero, extract_ofFields, bit_ofFields, bit_high, bit_bS, BitVec.extractLsb'_append_eq_of_add_le,
    BitVec.extractLsb'_append_eq_of_le, BitVec.extractLsb'_eq_self, -Nat.reduceAdd, Nat.reduceSub]
  all_goals rfl

theorem ineg (o : FmtDA) : Statement (.ineg o) := by
  intro w hw hi
  cases hw
  refine of_shape ?_ hi
  rw [major29 (by simp (decide := true) only [fMajor, extract_ofFields, bit_ofFields, bit_high, bit_bS, BitVec.extractLsb'_append_eq_of_add_le,
    BitVec.extractLsb'_append_eq_of_le, BitVec.extractLsb'_eq_self, -Nat.reduceAdd, Nat.reduceSub])]
  simp (decide := true) only [decode29, fS, zeroField_zero, extract_ofFields, bit_ofFields, bit_high, bit_bS, BitVec.extractLsb'_append_eq_of_add_le,
    BitVec.extractLsb'_append_eq_of_le, BitVec.extractLsb'_eq_self, -Nat.reduceAdd, Nat.reduceSub]
  all_goals rfl

theorem iabs (o : FmtDA) : Statement (.iabs o) := by
  intro w hw hi
  cases hw
  refine of_shape ?_ hi
  rw [major29 (by simp (decide := true) only [fMajor, extract_ofFields, bit_ofFields, bit_high, bit_bS, BitVec.extractLsb'_append_eq_of_add_le,
    BitVec.extractLsb'_append_eq_of_le, BitVec.extractLsb'_eq_self, -Nat.reduceAdd, Nat.reduceSub])]
  simp (decide := true) only [decode29, fS, zeroField_zero, extract_ofFields, bit_ofFields, bit_high, bit_bS, BitVec.extractLsb'_append_eq_of_add_le,
    BitVec.extractLsb'_append_eq_of_le, BitVec.extractLsb'_eq_self, -Nat.reduceAdd, Nat.reduceSub]
  all_goals rfl

theorem imin (o : FmtDAB) : Statement (.imin o) := by
  intro w hw hi
  cases hw
  refine of_shape ?_ hi
  rw [major2A (by simp (decide := true) only [fMajor, extract_ofFields, bit_ofFields, bit_high, bit_bS, BitVec.extractLsb'_append_eq_of_add_le,
    BitVec.extractLsb'_append_eq_of_le, BitVec.extractLsb'_eq_self, -Nat.reduceAdd, Nat.reduceSub])]
  simp (decide := true) only [decode2A, fS, zeroField_zero, extract_ofFields, bit_ofFields, bit_high, bit_bS, BitVec.extractLsb'_append_eq_of_add_le,
    BitVec.extractLsb'_append_eq_of_le, BitVec.extractLsb'_eq_self, -Nat.reduceAdd, Nat.reduceSub]
  all_goals rfl

theorem imax (o : FmtDAB) : Statement (.imax o) := by
  intro w hw hi
  cases hw
  refine of_shape ?_ hi
  rw [major2A (by simp (decide := true) only [fMajor, extract_ofFields, bit_ofFields, bit_high, bit_bS, BitVec.extractLsb'_append_eq_of_add_le,
    BitVec.extractLsb'_append_eq_of_le, BitVec.extractLsb'_eq_self, -Nat.reduceAdd, Nat.reduceSub])]
  simp (decide := true) only [decode2A, fS, zeroField_zero, extract_ofFields, bit_ofFields, bit_high, bit_bS, BitVec.extractLsb'_append_eq_of_add_le,
    BitVec.extractLsb'_append_eq_of_le, BitVec.extractLsb'_eq_self, -Nat.reduceAdd, Nat.reduceSub]
  all_goals rfl

theorem umin (o : FmtDAB) : Statement (.umin o) := by
  intro w hw hi
  cases hw
  refine of_shape ?_ hi
  rw [major2A (by simp (decide := true) only [fMajor, extract_ofFields, bit_ofFields, bit_high, bit_bS, BitVec.extractLsb'_append_eq_of_add_le,
    BitVec.extractLsb'_append_eq_of_le, BitVec.extractLsb'_eq_self, -Nat.reduceAdd, Nat.reduceSub])]
  simp (decide := true) only [decode2A, fS, zeroField_zero, extract_ofFields, bit_ofFields, bit_high, bit_bS, BitVec.extractLsb'_append_eq_of_add_le,
    BitVec.extractLsb'_append_eq_of_le, BitVec.extractLsb'_eq_self, -Nat.reduceAdd, Nat.reduceSub]
  all_goals rfl

theorem umax (o : FmtDAB) : Statement (.umax o) := by
  intro w hw hi
  cases hw
  refine of_shape ?_ hi
  rw [major2A (by simp (decide := true) only [fMajor, extract_ofFields, bit_ofFields, bit_high, bit_bS, BitVec.extractLsb'_append_eq_of_add_le,
    BitVec.extractLsb'_append_eq_of_le, BitVec.extractLsb'_eq_self, -Nat.reduceAdd, Nat.reduceSub])]
  simp (decide := true) only [decode2A, fS, zeroField_zero, extract_ofFields, bit_ofFields, bit_high, bit_bS, BitVec.extractLsb'_append_eq_of_add_le,
    BitVec.extractLsb'_append_eq_of_le, BitVec.extractLsb'_eq_self, -Nat.reduceAdd, Nat.reduceSub]
  all_goals rfl

theorem bfx (o : FmtDAB) : Statement (.bfx o) := by
  intro w hw hi
  cases hw
  refine of_shape ?_ hi
  rw [major2B (by simp (decide := true) only [fMajor, extract_ofFields, bit_ofFields, bit_high, bit_bS, BitVec.extractLsb'_append_eq_of_add_le,
    BitVec.extractLsb'_append_eq_of_le, BitVec.extractLsb'_eq_self, -Nat.reduceAdd, Nat.reduceSub])]
  simp (decide := true) only [decode2B, fS, zeroField_zero, extract_ofFields, bit_ofFields, bit_high, bit_bS, BitVec.extractLsb'_append_eq_of_add_le,
    BitVec.extractLsb'_append_eq_of_le, BitVec.extractLsb'_eq_self, -Nat.reduceAdd, Nat.reduceSub]
  all_goals rfl

theorem bfxu (o : FmtDAB) : Statement (.bfxu o) := by
  intro w hw hi
  cases hw
  refine of_shape ?_ hi
  rw [major2B (by simp (decide := true) only [fMajor, extract_ofFields, bit_ofFields, bit_high, bit_bS, BitVec.extractLsb'_append_eq_of_add_le,
    BitVec.extractLsb'_append_eq_of_le, BitVec.extractLsb'_eq_self, -Nat.reduceAdd, Nat.reduceSub])]
  simp (decide := true) only [decode2B, fS, zeroField_zero, extract_ofFields, bit_ofFields, bit_high, bit_bS, BitVec.extractLsb'_append_eq_of_add_le,
    BitVec.extractLsb'_append_eq_of_le, BitVec.extractLsb'_eq_self, -Nat.reduceAdd, Nat.reduceSub]
  all_goals rfl

theorem bfi (o : FmtDAB) : Statement (.bfi o) := by
  intro w hw hi
  cases hw
  refine of_shape ?_ hi
  rw [major2B (by simp (decide := true) only [fMajor, extract_ofFields, bit_ofFields, bit_high, bit_bS, BitVec.extractLsb'_append_eq_of_add_le,
    BitVec.extractLsb'_append_eq_of_le, BitVec.extractLsb'_eq_self, -Nat.reduceAdd, Nat.reduceSub])]
  simp (decide := true) only [decode2B, fS, zeroField_zero, extract_ofFields, bit_ofFields, bit_high, bit_bS, BitVec.extractLsb'_append_eq_of_add_le,
    BitVec.extractLsb'_append_eq_of_le, BitVec.extractLsb'_eq_self, -Nat.reduceAdd, Nat.reduceSub]
  all_goals rfl

theorem icmp (o : FmtK) : Statement (.icmp o) := by
  intro w hw hi
  cases hw
  refine of_shape ?_ hi
  rw [major2C (by simp (decide := true) only [fMajor, extract_ofFields, bit_ofFields, bit_high, bit_bS, BitVec.extractLsb'_append_eq_of_add_le,
    BitVec.extractLsb'_append_eq_of_le, BitVec.extractLsb'_eq_self, -Nat.reduceAdd, Nat.reduceSub])]
  simp (decide := true) only [decode2C, fS, zeroField_zero, extract_ofFields, bit_ofFields, bit_high, bit_bS, BitVec.extractLsb'_append_eq_of_add_le,
    BitVec.extractLsb'_append_eq_of_le, BitVec.extractLsb'_eq_self, -Nat.reduceAdd, Nat.reduceSub]
  all_goals rfl

theorem icmpD (o : FmtK) : Statement (.icmpD o) := by
  intro w hw hi
  cases hw
  refine of_shape ?_ hi
  rw [major2C (by simp (decide := true) only [fMajor, extract_ofFields, bit_ofFields, bit_high, bit_bS, BitVec.extractLsb'_append_eq_of_add_le,
    BitVec.extractLsb'_append_eq_of_le, BitVec.extractLsb'_eq_self, -Nat.reduceAdd, Nat.reduceSub])]
  simp (decide := true) only [decode2C, fS, zeroField_zero, extract_ofFields, bit_ofFields, bit_high, bit_bS, BitVec.extractLsb'_append_eq_of_add_le,
    BitVec.extractLsb'_append_eq_of_le, BitVec.extractLsb'_eq_self, -Nat.reduceAdd, Nat.reduceSub]
  all_goals rfl

theorem icmpi (o : FmtKI) : Statement (.icmpi o) := by
  intro w hw hi
  cases hw
  refine of_shape ?_ hi
  rw [major2D (by simp (decide := true) only [fMajor, extract_ofFields, bit_ofFields, bit_high, bit_bS, BitVec.extractLsb'_append_eq_of_add_le,
    BitVec.extractLsb'_append_eq_of_le, BitVec.extractLsb'_eq_self, -Nat.reduceAdd, Nat.reduceSub])]
  simp (decide := true) only [decode2D, fS, zeroField_zero, extract_ofFields, bit_ofFields, bit_high, bit_bS, BitVec.extractLsb'_append_eq_of_add_le,
    BitVec.extractLsb'_append_eq_of_le, BitVec.extractLsb'_eq_self, -Nat.reduceAdd, Nat.reduceSub]
  all_goals rfl

theorem ucmp (o : FmtAB) : Statement (.ucmp o) := by
  intro w hw hi
  cases hw
  refine of_shape ?_ hi
  rw [major2E (by simp (decide := true) only [fMajor, extract_ofFields, bit_ofFields, bit_high, bit_bS, BitVec.extractLsb'_append_eq_of_add_le,
    BitVec.extractLsb'_append_eq_of_le, BitVec.extractLsb'_eq_self, -Nat.reduceAdd, Nat.reduceSub])]
  simp (decide := true) only [decode2E, fS, zeroField_zero, extract_ofFields, bit_ofFields, bit_high, bit_bS, BitVec.extractLsb'_append_eq_of_add_le,
    BitVec.extractLsb'_append_eq_of_le, BitVec.extractLsb'_eq_self, -Nat.reduceAdd, Nat.reduceSub]
  all_goals rfl

theorem ucmpD (o : FmtAB) : Statement (.ucmpD o) := by
  intro w hw hi
  cases hw
  refine of_shape ?_ hi
  rw [major2E (by simp (decide := true) only [fMajor, extract_ofFields, bit_ofFields, bit_high, bit_bS, BitVec.extractLsb'_append_eq_of_add_le,
    BitVec.extractLsb'_append_eq_of_le, BitVec.extractLsb'_eq_self, -Nat.reduceAdd, Nat.reduceSub])]
  simp (decide := true) only [decode2E, fS, zeroField_zero, extract_ofFields, bit_ofFields, bit_high, bit_bS, BitVec.extractLsb'_append_eq_of_add_le,
    BitVec.extractLsb'_append_eq_of_le, BitVec.extractLsb'_eq_self, -Nat.reduceAdd, Nat.reduceSub]
  all_goals rfl

theorem sel (o : FmtSel) : Statement (.sel o) := by
  intro w hw hi
  cases hw
  refine of_shape ?_ hi
  rw [major2F (by simp (decide := true) only [fMajor, extract_ofFields, bit_ofFields, bit_high, bit_bS, BitVec.extractLsb'_append_eq_of_add_le,
    BitVec.extractLsb'_append_eq_of_le, BitVec.extractLsb'_eq_self, -Nat.reduceAdd, Nat.reduceSub])]
  simp (decide := true) only [decode2F, fS, zeroField_zero, extract_ofFields, bit_ofFields, bit_high, bit_bS, BitVec.extractLsb'_append_eq_of_add_le,
    BitVec.extractLsb'_append_eq_of_le, BitVec.extractLsb'_eq_self, -Nat.reduceAdd, Nat.reduceSub]
  all_goals rfl

theorem mov (o : FmtDA) : Statement (.mov o) := by
  intro w hw hi
  cases hw
  refine of_shape ?_ hi
  rw [major30 (by simp (decide := true) only [fMajor, extract_ofFields, bit_ofFields, bit_high, bit_bS, BitVec.extractLsb'_append_eq_of_add_le,
    BitVec.extractLsb'_append_eq_of_le, BitVec.extractLsb'_eq_self, -Nat.reduceAdd, Nat.reduceSub])]
  simp (decide := true) only [decode30, fS, zeroField_zero, extract_ofFields, bit_ofFields, bit_high, bit_bS, BitVec.extractLsb'_append_eq_of_add_le,
    BitVec.extractLsb'_append_eq_of_le, BitVec.extractLsb'_eq_self, -Nat.reduceAdd, Nat.reduceSub]
  all_goals rfl

theorem movl (o : FmtDAB) : Statement (.movl o) := by
  intro w hw hi
  cases hw
  refine of_shape ?_ hi
  rw [major30 (by simp (decide := true) only [fMajor, extract_ofFields, bit_ofFields, bit_high, bit_bS, BitVec.extractLsb'_append_eq_of_add_le,
    BitVec.extractLsb'_append_eq_of_le, BitVec.extractLsb'_eq_self, -Nat.reduceAdd, Nat.reduceSub])]
  simp (decide := true) only [decode30, fS, zeroField_zero, extract_ofFields, bit_ofFields, bit_high, bit_bS, BitVec.extractLsb'_append_eq_of_add_le,
    BitVec.extractLsb'_append_eq_of_le, BitVec.extractLsb'_eq_self, -Nat.reduceAdd, Nat.reduceSub]
  all_goals rfl

theorem movi (o : FmtDI17) : Statement (.movi o) := by
  intro w hw hi
  cases hw
  refine of_shape ?_ hi
  rw [major31 (by simp (decide := true) only [fMajor, extract_ofFields, bit_ofFields, bit_high, bit_bS, BitVec.extractLsb'_append_eq_of_add_le,
    BitVec.extractLsb'_append_eq_of_le, BitVec.extractLsb'_eq_self, -Nat.reduceAdd, Nat.reduceSub])]
  simp (decide := true) only [decode31, fS, zeroField_zero, extract_ofFields, bit_ofFields, bit_high, bit_bS, BitVec.extractLsb'_append_eq_of_add_le,
    BitVec.extractLsb'_append_eq_of_le, BitVec.extractLsb'_eq_self, -Nat.reduceAdd, Nat.reduceSub]
  all_goals rfl

theorem mand (o : FmtMMM) : Statement (.mand o) := by
  intro w hw hi
  cases hw
  refine of_shape ?_ hi
  rw [major32 (by simp (decide := true) only [fMajor, extract_ofFields, bit_ofFields, bit_high, bit_bS, BitVec.extractLsb'_append_eq_of_add_le,
    BitVec.extractLsb'_append_eq_of_le, BitVec.extractLsb'_eq_self, -Nat.reduceAdd, Nat.reduceSub])]
  simp (decide := true) only [decode32, fS, zeroField_zero, extract_ofFields, bit_ofFields, bit_high, bit_bS, BitVec.extractLsb'_append_eq_of_add_le,
    BitVec.extractLsb'_append_eq_of_le, BitVec.extractLsb'_eq_self, -Nat.reduceAdd, Nat.reduceSub]
  all_goals rfl

theorem mor (o : FmtMMM) : Statement (.mor o) := by
  intro w hw hi
  cases hw
  refine of_shape ?_ hi
  rw [major32 (by simp (decide := true) only [fMajor, extract_ofFields, bit_ofFields, bit_high, bit_bS, BitVec.extractLsb'_append_eq_of_add_le,
    BitVec.extractLsb'_append_eq_of_le, BitVec.extractLsb'_eq_self, -Nat.reduceAdd, Nat.reduceSub])]
  simp (decide := true) only [decode32, fS, zeroField_zero, extract_ofFields, bit_ofFields, bit_high, bit_bS, BitVec.extractLsb'_append_eq_of_add_le,
    BitVec.extractLsb'_append_eq_of_le, BitVec.extractLsb'_eq_self, -Nat.reduceAdd, Nat.reduceSub]
  all_goals rfl

theorem mxor (o : FmtMMM) : Statement (.mxor o) := by
  intro w hw hi
  cases hw
  refine of_shape ?_ hi
  rw [major32 (by simp (decide := true) only [fMajor, extract_ofFields, bit_ofFields, bit_high, bit_bS, BitVec.extractLsb'_append_eq_of_add_le,
    BitVec.extractLsb'_append_eq_of_le, BitVec.extractLsb'_eq_self, -Nat.reduceAdd, Nat.reduceSub])]
  simp (decide := true) only [decode32, fS, zeroField_zero, extract_ofFields, bit_ofFields, bit_high, bit_bS, BitVec.extractLsb'_append_eq_of_add_le,
    BitVec.extractLsb'_append_eq_of_le, BitVec.extractLsb'_eq_self, -Nat.reduceAdd, Nat.reduceSub]
  all_goals rfl

theorem mandn (o : FmtMMM) : Statement (.mandn o) := by
  intro w hw hi
  cases hw
  refine of_shape ?_ hi
  rw [major32 (by simp (decide := true) only [fMajor, extract_ofFields, bit_ofFields, bit_high, bit_bS, BitVec.extractLsb'_append_eq_of_add_le,
    BitVec.extractLsb'_append_eq_of_le, BitVec.extractLsb'_eq_self, -Nat.reduceAdd, Nat.reduceSub])]
  simp (decide := true) only [decode32, fS, zeroField_zero, extract_ofFields, bit_ofFields, bit_high, bit_bS, BitVec.extractLsb'_append_eq_of_add_le,
    BitVec.extractLsb'_append_eq_of_le, BitVec.extractLsb'_eq_self, -Nat.reduceAdd, Nat.reduceSub]
  all_goals rfl

theorem mnot (o : FmtMM) : Statement (.mnot o) := by
  intro w hw hi
  cases hw
  refine of_shape ?_ hi
  rw [major33 (by simp (decide := true) only [fMajor, extract_ofFields, bit_ofFields, bit_high, bit_bS, BitVec.extractLsb'_append_eq_of_add_le,
    BitVec.extractLsb'_append_eq_of_le, BitVec.extractLsb'_eq_self, -Nat.reduceAdd, Nat.reduceSub])]
  simp (decide := true) only [decode33, fS, zeroField_zero, extract_ofFields, bit_ofFields, bit_high, bit_bS, BitVec.extractLsb'_append_eq_of_add_le,
    BitVec.extractLsb'_append_eq_of_le, BitVec.extractLsb'_eq_self, -Nat.reduceAdd, Nat.reduceSub]
  all_goals rfl

theorem mpop (o : FmtDM) : Statement (.mpop o) := by
  intro w hw hi
  cases hw
  refine of_shape ?_ hi
  rw [major33 (by simp (decide := true) only [fMajor, extract_ofFields, bit_ofFields, bit_high, bit_bS, BitVec.extractLsb'_append_eq_of_add_le,
    BitVec.extractLsb'_append_eq_of_le, BitVec.extractLsb'_eq_self, -Nat.reduceAdd, Nat.reduceSub])]
  simp (decide := true) only [decode33, fS, zeroField_zero, extract_ofFields, bit_ofFields, bit_high, bit_bS, BitVec.extractLsb'_append_eq_of_add_le,
    BitVec.extractLsb'_append_eq_of_le, BitVec.extractLsb'_eq_self, -Nat.reduceAdd, Nat.reduceSub]
  all_goals rfl

theorem mfirst (o : FmtDM) : Statement (.mfirst o) := by
  intro w hw hi
  cases hw
  refine of_shape ?_ hi
  rw [major33 (by simp (decide := true) only [fMajor, extract_ofFields, bit_ofFields, bit_high, bit_bS, BitVec.extractLsb'_append_eq_of_add_le,
    BitVec.extractLsb'_append_eq_of_le, BitVec.extractLsb'_eq_self, -Nat.reduceAdd, Nat.reduceSub])]
  simp (decide := true) only [decode33, fS, zeroField_zero, extract_ofFields, bit_ofFields, bit_high, bit_bS, BitVec.extractLsb'_append_eq_of_add_le,
    BitVec.extractLsb'_append_eq_of_le, BitVec.extractLsb'_eq_self, -Nat.reduceAdd, Nat.reduceSub]
  all_goals rfl

theorem ballot (o : FmtMA) : Statement (.ballot o) := by
  intro w hw hi
  cases hw
  refine of_shape ?_ hi
  rw [major33 (by simp (decide := true) only [fMajor, extract_ofFields, bit_ofFields, bit_high, bit_bS, BitVec.extractLsb'_append_eq_of_add_le,
    BitVec.extractLsb'_append_eq_of_le, BitVec.extractLsb'_eq_self, -Nat.reduceAdd, Nat.reduceSub])]
  simp (decide := true) only [decode33, fS, zeroField_zero, extract_ofFields, bit_ofFields, bit_high, bit_bS, BitVec.extractLsb'_append_eq_of_add_le,
    BitVec.extractLsb'_append_eq_of_le, BitVec.extractLsb'_eq_self, -Nat.reduceAdd, Nat.reduceSub]
  all_goals rfl

theorem mset (o : FmtMA) : Statement (.mset o) := by
  intro w hw hi
  cases hw
  refine of_shape ?_ hi
  rw [major33 (by simp (decide := true) only [fMajor, extract_ofFields, bit_ofFields, bit_high, bit_bS, BitVec.extractLsb'_append_eq_of_add_le,
    BitVec.extractLsb'_append_eq_of_le, BitVec.extractLsb'_eq_self, -Nat.reduceAdd, Nat.reduceSub])]
  simp (decide := true) only [decode33, fS, zeroField_zero, extract_ofFields, bit_ofFields, bit_high, bit_bS, BitVec.extractLsb'_append_eq_of_add_le,
    BitVec.extractLsb'_append_eq_of_le, BitVec.extractLsb'_eq_self, -Nat.reduceAdd, Nat.reduceSub]
  all_goals rfl

theorem vxsh (o : FmtXsh) : Statement (.vxsh o) := by
  intro w hw hi
  cases hw
  refine of_shape ?_ hi
  rw [major34 (by simp (decide := true) only [fMajor, extract_ofFields, bit_ofFields, bit_high, bit_bS, BitVec.extractLsb'_append_eq_of_add_le,
    BitVec.extractLsb'_append_eq_of_le, BitVec.extractLsb'_eq_self, -Nat.reduceAdd, Nat.reduceSub])]
  simp (decide := true) only [decode34, fS, zeroField_zero, extract_ofFields, bit_ofFields, bit_high, bit_bS, BitVec.extractLsb'_append_eq_of_add_le,
    BitVec.extractLsb'_append_eq_of_le, BitVec.extractLsb'_eq_self, -Nat.reduceAdd, Nat.reduceSub]
  all_goals rfl

theorem vrot (o : FmtDAI) : Statement (.vrot o) := by
  intro w hw hi
  cases hw
  refine of_shape ?_ hi
  rw [major35 (by simp (decide := true) only [fMajor, extract_ofFields, bit_ofFields, bit_high, bit_bS, BitVec.extractLsb'_append_eq_of_add_le,
    BitVec.extractLsb'_append_eq_of_le, BitVec.extractLsb'_eq_self, -Nat.reduceAdd, Nat.reduceSub])]
  simp (decide := true) only [decode35, fS, zeroField_zero, extract_ofFields, bit_ofFields, bit_high, bit_bS, BitVec.extractLsb'_append_eq_of_add_le,
    BitVec.extractLsb'_append_eq_of_le, BitVec.extractLsb'_eq_self, -Nat.reduceAdd, Nat.reduceSub]
  all_goals rfl

theorem vidx (o : FmtDAB) : Statement (.vidx o) := by
  intro w hw hi
  cases hw
  refine of_shape ?_ hi
  rw [major36 (by simp (decide := true) only [fMajor, extract_ofFields, bit_ofFields, bit_high, bit_bS, BitVec.extractLsb'_append_eq_of_add_le,
    BitVec.extractLsb'_append_eq_of_le, BitVec.extractLsb'_eq_self, -Nat.reduceAdd, Nat.reduceSub])]
  simp (decide := true) only [decode36, fS, zeroField_zero, extract_ofFields, bit_ofFields, bit_high, bit_bS, BitVec.extractLsb'_append_eq_of_add_le,
    BitVec.extractLsb'_append_eq_of_le, BitVec.extractLsb'_eq_self, -Nat.reduceAdd, Nat.reduceSub]
  all_goals rfl

theorem vbcast (o : FmtBcast) : Statement (.vbcast o) := by
  intro w hw hi
  cases hw
  refine of_shape ?_ hi
  rw [major37 (by simp (decide := true) only [fMajor, extract_ofFields, bit_ofFields, bit_high, bit_bS, BitVec.extractLsb'_append_eq_of_add_le,
    BitVec.extractLsb'_append_eq_of_le, BitVec.extractLsb'_eq_self, -Nat.reduceAdd, Nat.reduceSub])]
  simp (decide := true) only [decode37, fS, zeroField_zero, extract_ofFields, bit_ofFields, bit_high, bit_bS, BitVec.extractLsb'_append_eq_of_add_le,
    BitVec.extractLsb'_append_eq_of_le, BitVec.extractLsb'_eq_self, -Nat.reduceAdd, Nat.reduceSub]
  all_goals rfl

theorem vstep (o : FmtStep) : Statement (.vstep o) := by
  intro w hw hi
  cases hw
  refine of_shape ?_ hi
  rw [major38 (by simp (decide := true) only [fMajor, extract_ofFields, bit_ofFields, bit_high, bit_bS, BitVec.extractLsb'_append_eq_of_add_le,
    BitVec.extractLsb'_append_eq_of_le, BitVec.extractLsb'_eq_self, -Nat.reduceAdd, Nat.reduceSub])]
  simp (decide := true) only [decode38, fS, zeroField_zero, extract_ofFields, bit_ofFields, bit_high, bit_bS, BitVec.extractLsb'_append_eq_of_add_le,
    BitVec.extractLsb'_append_eq_of_le, BitVec.extractLsb'_eq_self, -Nat.reduceAdd, Nat.reduceSub]
  all_goals rfl

theorem vscan (o : FmtScan) : Statement (.vscan o) := by
  intro w hw hi
  cases hw
  refine of_shape ?_ hi
  rw [major39 (by simp (decide := true) only [fMajor, extract_ofFields, bit_ofFields, bit_high, bit_bS, BitVec.extractLsb'_append_eq_of_add_le,
    BitVec.extractLsb'_append_eq_of_le, BitVec.extractLsb'_eq_self, -Nat.reduceAdd, Nat.reduceSub])]
  simp (decide := true) only [decode39, fS, zeroField_zero, extract_ofFields, bit_ofFields, bit_high, bit_bS, BitVec.extractLsb'_append_eq_of_add_le,
    BitVec.extractLsb'_append_eq_of_le, BitVec.extractLsb'_eq_self, -Nat.reduceAdd, Nat.reduceSub]
  all_goals rfl

theorem setmode (o : FmtAB) : Statement (.setmode o) := by
  intro w hw hi
  cases hw
  refine of_shape ?_ hi
  rw [major3A (by simp (decide := true) only [fMajor, extract_ofFields, bit_ofFields, bit_high, bit_bS, BitVec.extractLsb'_append_eq_of_add_le,
    BitVec.extractLsb'_append_eq_of_le, BitVec.extractLsb'_eq_self, -Nat.reduceAdd, Nat.reduceSub])]
  simp (decide := true) only [decode3A, fS, zeroField_zero, extract_ofFields, bit_ofFields, bit_high, bit_bS, BitVec.extractLsb'_append_eq_of_add_le,
    BitVec.extractLsb'_append_eq_of_le, BitVec.extractLsb'_eq_self, -Nat.reduceAdd, Nat.reduceSub]
  all_goals rfl

theorem getmode (o : FmtD) : Statement (.getmode o) := by
  intro w hw hi
  cases hw
  refine of_shape ?_ hi
  rw [major3A (by simp (decide := true) only [fMajor, extract_ofFields, bit_ofFields, bit_high, bit_bS, BitVec.extractLsb'_append_eq_of_add_le,
    BitVec.extractLsb'_append_eq_of_le, BitVec.extractLsb'_eq_self, -Nat.reduceAdd, Nat.reduceSub])]
  simp (decide := true) only [decode3A, fS, zeroField_zero, extract_ofFields, bit_ofFields, bit_high, bit_bS, BitVec.extractLsb'_append_eq_of_add_le,
    BitVec.extractLsb'_append_eq_of_le, BitVec.extractLsb'_eq_self, -Nat.reduceAdd, Nat.reduceSub]
  all_goals rfl

theorem mfs (o : FmtMfs) : Statement (.mfs o) := by
  intro w hw hi
  cases hw
  refine of_shape ?_ hi
  rw [major3B (by simp (decide := true) only [fMajor, extract_ofFields, bit_ofFields, bit_high, bit_bS, BitVec.extractLsb'_append_eq_of_add_le,
    BitVec.extractLsb'_append_eq_of_le, BitVec.extractLsb'_eq_self, -Nat.reduceAdd, Nat.reduceSub])]
  simp (decide := true) only [decode3B, fS, zeroField_zero, extract_ofFields, bit_ofFields, bit_high, bit_bS, BitVec.extractLsb'_append_eq_of_add_le,
    BitVec.extractLsb'_append_eq_of_le, BitVec.extractLsb'_eq_self, -Nat.reduceAdd, Nat.reduceSub]
  all_goals rfl

theorem mts (o : FmtMts) : Statement (.mts o) := by
  intro w hw hi
  cases hw
  refine of_shape ?_ hi
  rw [major3C (by simp (decide := true) only [fMajor, extract_ofFields, bit_ofFields, bit_high, bit_bS, BitVec.extractLsb'_append_eq_of_add_le,
    BitVec.extractLsb'_append_eq_of_le, BitVec.extractLsb'_eq_self, -Nat.reduceAdd, Nat.reduceSub])]
  simp (decide := true) only [decode3C, fS, zeroField_zero, extract_ofFields, bit_ofFields, bit_high, bit_bS, BitVec.extractLsb'_append_eq_of_add_le,
    BitVec.extractLsb'_append_eq_of_le, BitVec.extractLsb'_eq_self, -Nat.reduceAdd, Nat.reduceSub]
  all_goals rfl

theorem fclr (o : Sw) : Statement (.fclr o) := by
  intro w hw hi
  cases hw
  refine of_shape ?_ hi
  rw [major3D (by simp (decide := true) only [fMajor, extract_ofFields, bit_ofFields, bit_high, bit_bS, BitVec.extractLsb'_append_eq_of_add_le,
    BitVec.extractLsb'_append_eq_of_le, BitVec.extractLsb'_eq_self, -Nat.reduceAdd, Nat.reduceSub])]
  simp (decide := true) only [decode3D, fS, zeroField_zero, extract_ofFields, bit_ofFields, bit_high, bit_bS, BitVec.extractLsb'_append_eq_of_add_le,
    BitVec.extractLsb'_append_eq_of_le, BitVec.extractLsb'_eq_self, -Nat.reduceAdd, Nat.reduceSub]
  all_goals rfl

theorem fadd (o : FmtDAB) : Statement (.fadd o) := by
  intro w hw hi
  cases hw
  refine of_shape ?_ hi
  rw [major40 (by simp (decide := true) only [fMajor, extract_ofFields, bit_ofFields, bit_high, bit_bS, BitVec.extractLsb'_append_eq_of_add_le,
    BitVec.extractLsb'_append_eq_of_le, BitVec.extractLsb'_eq_self, -Nat.reduceAdd, Nat.reduceSub])]
  simp (decide := true) only [decode40, fS, zeroField_zero, extract_ofFields, bit_ofFields, bit_high, bit_bS, BitVec.extractLsb'_append_eq_of_add_le,
    BitVec.extractLsb'_append_eq_of_le, BitVec.extractLsb'_eq_self, -Nat.reduceAdd, Nat.reduceSub]
  all_goals rfl

theorem fsub (o : FmtDAB) : Statement (.fsub o) := by
  intro w hw hi
  cases hw
  refine of_shape ?_ hi
  rw [major40 (by simp (decide := true) only [fMajor, extract_ofFields, bit_ofFields, bit_high, bit_bS, BitVec.extractLsb'_append_eq_of_add_le,
    BitVec.extractLsb'_append_eq_of_le, BitVec.extractLsb'_eq_self, -Nat.reduceAdd, Nat.reduceSub])]
  simp (decide := true) only [decode40, fS, zeroField_zero, extract_ofFields, bit_ofFields, bit_high, bit_bS, BitVec.extractLsb'_append_eq_of_add_le,
    BitVec.extractLsb'_append_eq_of_le, BitVec.extractLsb'_eq_self, -Nat.reduceAdd, Nat.reduceSub]
  all_goals rfl

theorem fmul (o : FmtDAB) : Statement (.fmul o) := by
  intro w hw hi
  cases hw
  refine of_shape ?_ hi
  rw [major40 (by simp (decide := true) only [fMajor, extract_ofFields, bit_ofFields, bit_high, bit_bS, BitVec.extractLsb'_append_eq_of_add_le,
    BitVec.extractLsb'_append_eq_of_le, BitVec.extractLsb'_eq_self, -Nat.reduceAdd, Nat.reduceSub])]
  simp (decide := true) only [decode40, fS, zeroField_zero, extract_ofFields, bit_ofFields, bit_high, bit_bS, BitVec.extractLsb'_append_eq_of_add_le,
    BitVec.extractLsb'_append_eq_of_le, BitVec.extractLsb'_eq_self, -Nat.reduceAdd, Nat.reduceSub]
  all_goals rfl

theorem fdiv (o : FmtDAB) : Statement (.fdiv o) := by
  intro w hw hi
  cases hw
  refine of_shape ?_ hi
  rw [major40 (by simp (decide := true) only [fMajor, extract_ofFields, bit_ofFields, bit_high, bit_bS, BitVec.extractLsb'_append_eq_of_add_le,
    BitVec.extractLsb'_append_eq_of_le, BitVec.extractLsb'_eq_self, -Nat.reduceAdd, Nat.reduceSub])]
  simp (decide := true) only [decode40, fS, zeroField_zero, extract_ofFields, bit_ofFields, bit_high, bit_bS, BitVec.extractLsb'_append_eq_of_add_le,
    BitVec.extractLsb'_append_eq_of_le, BitVec.extractLsb'_eq_self, -Nat.reduceAdd, Nat.reduceSub]
  all_goals rfl

theorem fmac (o : FmtDAB) : Statement (.fmac o) := by
  intro w hw hi
  cases hw
  refine of_shape ?_ hi
  rw [major41 (by simp (decide := true) only [fMajor, extract_ofFields, bit_ofFields, bit_high, bit_bS, BitVec.extractLsb'_append_eq_of_add_le,
    BitVec.extractLsb'_append_eq_of_le, BitVec.extractLsb'_eq_self, -Nat.reduceAdd, Nat.reduceSub])]
  simp (decide := true) only [decode41, fS, zeroField_zero, extract_ofFields, bit_ofFields, bit_high, bit_bS, BitVec.extractLsb'_append_eq_of_add_le,
    BitVec.extractLsb'_append_eq_of_le, BitVec.extractLsb'_eq_self, -Nat.reduceAdd, Nat.reduceSub]
  all_goals rfl

theorem fmsc (o : FmtDAB) : Statement (.fmsc o) := by
  intro w hw hi
  cases hw
  refine of_shape ?_ hi
  rw [major41 (by simp (decide := true) only [fMajor, extract_ofFields, bit_ofFields, bit_high, bit_bS, BitVec.extractLsb'_append_eq_of_add_le,
    BitVec.extractLsb'_append_eq_of_le, BitVec.extractLsb'_eq_self, -Nat.reduceAdd, Nat.reduceSub])]
  simp (decide := true) only [decode41, fS, zeroField_zero, extract_ofFields, bit_ofFields, bit_high, bit_bS, BitVec.extractLsb'_append_eq_of_add_le,
    BitVec.extractLsb'_append_eq_of_le, BitVec.extractLsb'_eq_self, -Nat.reduceAdd, Nat.reduceSub]
  all_goals rfl

theorem fnmac (o : FmtDAB) : Statement (.fnmac o) := by
  intro w hw hi
  cases hw
  refine of_shape ?_ hi
  rw [major41 (by simp (decide := true) only [fMajor, extract_ofFields, bit_ofFields, bit_high, bit_bS, BitVec.extractLsb'_append_eq_of_add_le,
    BitVec.extractLsb'_append_eq_of_le, BitVec.extractLsb'_eq_self, -Nat.reduceAdd, Nat.reduceSub])]
  simp (decide := true) only [decode41, fS, zeroField_zero, extract_ofFields, bit_ofFields, bit_high, bit_bS, BitVec.extractLsb'_append_eq_of_add_le,
    BitVec.extractLsb'_append_eq_of_le, BitVec.extractLsb'_eq_self, -Nat.reduceAdd, Nat.reduceSub]
  all_goals rfl

theorem fnmsc (o : FmtDAB) : Statement (.fnmsc o) := by
  intro w hw hi
  cases hw
  refine of_shape ?_ hi
  rw [major41 (by simp (decide := true) only [fMajor, extract_ofFields, bit_ofFields, bit_high, bit_bS, BitVec.extractLsb'_append_eq_of_add_le,
    BitVec.extractLsb'_append_eq_of_le, BitVec.extractLsb'_eq_self, -Nat.reduceAdd, Nat.reduceSub])]
  simp (decide := true) only [decode41, fS, zeroField_zero, extract_ofFields, bit_ofFields, bit_high, bit_bS, BitVec.extractLsb'_append_eq_of_add_le,
    BitVec.extractLsb'_append_eq_of_le, BitVec.extractLsb'_eq_self, -Nat.reduceAdd, Nat.reduceSub]
  all_goals rfl

theorem fsqrt (o : FmtDA) : Statement (.fsqrt o) := by
  intro w hw hi
  cases hw
  refine of_shape ?_ hi
  rw [major42 (by simp (decide := true) only [fMajor, extract_ofFields, bit_ofFields, bit_high, bit_bS, BitVec.extractLsb'_append_eq_of_add_le,
    BitVec.extractLsb'_append_eq_of_le, BitVec.extractLsb'_eq_self, -Nat.reduceAdd, Nat.reduceSub])]
  simp (decide := true) only [decode42, fS, zeroField_zero, extract_ofFields, bit_ofFields, bit_high, bit_bS, BitVec.extractLsb'_append_eq_of_add_le,
    BitVec.extractLsb'_append_eq_of_le, BitVec.extractLsb'_eq_self, -Nat.reduceAdd, Nat.reduceSub]
  all_goals rfl

theorem frcp (o : FmtDA) : Statement (.frcp o) := by
  intro w hw hi
  cases hw
  refine of_shape ?_ hi
  rw [major42 (by simp (decide := true) only [fMajor, extract_ofFields, bit_ofFields, bit_high, bit_bS, BitVec.extractLsb'_append_eq_of_add_le,
    BitVec.extractLsb'_append_eq_of_le, BitVec.extractLsb'_eq_self, -Nat.reduceAdd, Nat.reduceSub])]
  simp (decide := true) only [decode42, fS, zeroField_zero, extract_ofFields, bit_ofFields, bit_high, bit_bS, BitVec.extractLsb'_append_eq_of_add_le,
    BitVec.extractLsb'_append_eq_of_le, BitVec.extractLsb'_eq_self, -Nat.reduceAdd, Nat.reduceSub]
  all_goals rfl

theorem frsq (o : FmtDA) : Statement (.frsq o) := by
  intro w hw hi
  cases hw
  refine of_shape ?_ hi
  rw [major42 (by simp (decide := true) only [fMajor, extract_ofFields, bit_ofFields, bit_high, bit_bS, BitVec.extractLsb'_append_eq_of_add_le,
    BitVec.extractLsb'_append_eq_of_le, BitVec.extractLsb'_eq_self, -Nat.reduceAdd, Nat.reduceSub])]
  simp (decide := true) only [decode42, fS, zeroField_zero, extract_ofFields, bit_ofFields, bit_high, bit_bS, BitVec.extractLsb'_append_eq_of_add_le,
    BitVec.extractLsb'_append_eq_of_le, BitVec.extractLsb'_eq_self, -Nat.reduceAdd, Nat.reduceSub]
  all_goals rfl

theorem fmin (o : FmtDAB) : Statement (.fmin o) := by
  intro w hw hi
  cases hw
  refine of_shape ?_ hi
  rw [major43 (by simp (decide := true) only [fMajor, extract_ofFields, bit_ofFields, bit_high, bit_bS, BitVec.extractLsb'_append_eq_of_add_le,
    BitVec.extractLsb'_append_eq_of_le, BitVec.extractLsb'_eq_self, -Nat.reduceAdd, Nat.reduceSub])]
  simp (decide := true) only [decode43, fS, zeroField_zero, extract_ofFields, bit_ofFields, bit_high, bit_bS, BitVec.extractLsb'_append_eq_of_add_le,
    BitVec.extractLsb'_append_eq_of_le, BitVec.extractLsb'_eq_self, -Nat.reduceAdd, Nat.reduceSub]
  all_goals rfl

theorem fmax (o : FmtDAB) : Statement (.fmax o) := by
  intro w hw hi
  cases hw
  refine of_shape ?_ hi
  rw [major43 (by simp (decide := true) only [fMajor, extract_ofFields, bit_ofFields, bit_high, bit_bS, BitVec.extractLsb'_append_eq_of_add_le,
    BitVec.extractLsb'_append_eq_of_le, BitVec.extractLsb'_eq_self, -Nat.reduceAdd, Nat.reduceSub])]
  simp (decide := true) only [decode43, fS, zeroField_zero, extract_ofFields, bit_ofFields, bit_high, bit_bS, BitVec.extractLsb'_append_eq_of_add_le,
    BitVec.extractLsb'_append_eq_of_le, BitVec.extractLsb'_eq_self, -Nat.reduceAdd, Nat.reduceSub]
  all_goals rfl

theorem fminn (o : FmtDAB) : Statement (.fminn o) := by
  intro w hw hi
  cases hw
  refine of_shape ?_ hi
  rw [major43 (by simp (decide := true) only [fMajor, extract_ofFields, bit_ofFields, bit_high, bit_bS, BitVec.extractLsb'_append_eq_of_add_le,
    BitVec.extractLsb'_append_eq_of_le, BitVec.extractLsb'_eq_self, -Nat.reduceAdd, Nat.reduceSub])]
  simp (decide := true) only [decode43, fS, zeroField_zero, extract_ofFields, bit_ofFields, bit_high, bit_bS, BitVec.extractLsb'_append_eq_of_add_le,
    BitVec.extractLsb'_append_eq_of_le, BitVec.extractLsb'_eq_self, -Nat.reduceAdd, Nat.reduceSub]
  all_goals rfl

theorem fmaxn (o : FmtDAB) : Statement (.fmaxn o) := by
  intro w hw hi
  cases hw
  refine of_shape ?_ hi
  rw [major43 (by simp (decide := true) only [fMajor, extract_ofFields, bit_ofFields, bit_high, bit_bS, BitVec.extractLsb'_append_eq_of_add_le,
    BitVec.extractLsb'_append_eq_of_le, BitVec.extractLsb'_eq_self, -Nat.reduceAdd, Nat.reduceSub])]
  simp (decide := true) only [decode43, fS, zeroField_zero, extract_ofFields, bit_ofFields, bit_high, bit_bS, BitVec.extractLsb'_append_eq_of_add_le,
    BitVec.extractLsb'_append_eq_of_le, BitVec.extractLsb'_eq_self, -Nat.reduceAdd, Nat.reduceSub]
  all_goals rfl

theorem fabs (o : FmtDA) : Statement (.fabs o) := by
  intro w hw hi
  cases hw
  refine of_shape ?_ hi
  rw [major44 (by simp (decide := true) only [fMajor, extract_ofFields, bit_ofFields, bit_high, bit_bS, BitVec.extractLsb'_append_eq_of_add_le,
    BitVec.extractLsb'_append_eq_of_le, BitVec.extractLsb'_eq_self, -Nat.reduceAdd, Nat.reduceSub])]
  simp (decide := true) only [decode44, fS, zeroField_zero, extract_ofFields, bit_ofFields, bit_high, bit_bS, BitVec.extractLsb'_append_eq_of_add_le,
    BitVec.extractLsb'_append_eq_of_le, BitVec.extractLsb'_eq_self, -Nat.reduceAdd, Nat.reduceSub]
  all_goals rfl

theorem fneg (o : FmtDA) : Statement (.fneg o) := by
  intro w hw hi
  cases hw
  refine of_shape ?_ hi
  rw [major44 (by simp (decide := true) only [fMajor, extract_ofFields, bit_ofFields, bit_high, bit_bS, BitVec.extractLsb'_append_eq_of_add_le,
    BitVec.extractLsb'_append_eq_of_le, BitVec.extractLsb'_eq_self, -Nat.reduceAdd, Nat.reduceSub])]
  simp (decide := true) only [decode44, fS, zeroField_zero, extract_ofFields, bit_ofFields, bit_high, bit_bS, BitVec.extractLsb'_append_eq_of_add_le,
    BitVec.extractLsb'_append_eq_of_le, BitVec.extractLsb'_eq_self, -Nat.reduceAdd, Nat.reduceSub]
  all_goals rfl

theorem fcpys (o : FmtDAB) : Statement (.fcpys o) := by
  intro w hw hi
  cases hw
  refine of_shape ?_ hi
  rw [major44 (by simp (decide := true) only [fMajor, extract_ofFields, bit_ofFields, bit_high, bit_bS, BitVec.extractLsb'_append_eq_of_add_le,
    BitVec.extractLsb'_append_eq_of_le, BitVec.extractLsb'_eq_self, -Nat.reduceAdd, Nat.reduceSub])]
  simp (decide := true) only [decode44, fS, zeroField_zero, extract_ofFields, bit_ofFields, bit_high, bit_bS, BitVec.extractLsb'_append_eq_of_add_le,
    BitVec.extractLsb'_append_eq_of_le, BitVec.extractLsb'_eq_self, -Nat.reduceAdd, Nat.reduceSub]
  all_goals rfl

theorem fcmp (o : FmtK) : Statement (.fcmp o) := by
  intro w hw hi
  cases hw
  refine of_shape ?_ hi
  rw [major45 (by simp (decide := true) only [fMajor, extract_ofFields, bit_ofFields, bit_high, bit_bS, BitVec.extractLsb'_append_eq_of_add_le,
    BitVec.extractLsb'_append_eq_of_le, BitVec.extractLsb'_eq_self, -Nat.reduceAdd, Nat.reduceSub])]
  simp (decide := true) only [decode45, fS, zeroField_zero, extract_ofFields, bit_ofFields, bit_high, bit_bS, BitVec.extractLsb'_append_eq_of_add_le,
    BitVec.extractLsb'_append_eq_of_le, BitVec.extractLsb'_eq_self, -Nat.reduceAdd, Nat.reduceSub]
  all_goals rfl

theorem fcmpS (o : FmtK) : Statement (.fcmpS o) := by
  intro w hw hi
  cases hw
  refine of_shape ?_ hi
  rw [major45 (by simp (decide := true) only [fMajor, extract_ofFields, bit_ofFields, bit_high, bit_bS, BitVec.extractLsb'_append_eq_of_add_le,
    BitVec.extractLsb'_append_eq_of_le, BitVec.extractLsb'_eq_self, -Nat.reduceAdd, Nat.reduceSub])]
  simp (decide := true) only [decode45, fS, zeroField_zero, extract_ofFields, bit_ofFields, bit_high, bit_bS, BitVec.extractLsb'_append_eq_of_add_le,
    BitVec.extractLsb'_append_eq_of_le, BitVec.extractLsb'_eq_self, -Nat.reduceAdd, Nat.reduceSub]
  all_goals rfl

theorem fclass (o : FmtDA) : Statement (.fclass o) := by
  intro w hw hi
  cases hw
  refine of_shape ?_ hi
  rw [major46 (by simp (decide := true) only [fMajor, extract_ofFields, bit_ofFields, bit_high, bit_bS, BitVec.extractLsb'_append_eq_of_add_le,
    BitVec.extractLsb'_append_eq_of_le, BitVec.extractLsb'_eq_self, -Nat.reduceAdd, Nat.reduceSub])]
  simp (decide := true) only [decode46, fS, zeroField_zero, extract_ofFields, bit_ofFields, bit_high, bit_bS, BitVec.extractLsb'_append_eq_of_add_le,
    BitVec.extractLsb'_append_eq_of_le, BitVec.extractLsb'_eq_self, -Nat.reduceAdd, Nat.reduceSub]
  all_goals rfl

theorem frnd (o : FmtDA) : Statement (.frnd o) := by
  intro w hw hi
  cases hw
  refine of_shape ?_ hi
  rw [major47 (by simp (decide := true) only [fMajor, extract_ofFields, bit_ofFields, bit_high, bit_bS, BitVec.extractLsb'_append_eq_of_add_le,
    BitVec.extractLsb'_append_eq_of_le, BitVec.extractLsb'_eq_self, -Nat.reduceAdd, Nat.reduceSub])]
  simp (decide := true) only [decode47, fS, zeroField_zero, extract_ofFields, bit_ofFields, bit_high, bit_bS, BitVec.extractLsb'_append_eq_of_add_le,
    BitVec.extractLsb'_append_eq_of_le, BitVec.extractLsb'_eq_self, -Nat.reduceAdd, Nat.reduceSub]
  all_goals rfl

theorem frndRne (o : FmtDA) : Statement (.frndRne o) := by
  intro w hw hi
  cases hw
  refine of_shape ?_ hi
  rw [major47 (by simp (decide := true) only [fMajor, extract_ofFields, bit_ofFields, bit_high, bit_bS, BitVec.extractLsb'_append_eq_of_add_le,
    BitVec.extractLsb'_append_eq_of_le, BitVec.extractLsb'_eq_self, -Nat.reduceAdd, Nat.reduceSub])]
  simp (decide := true) only [decode47, fS, zeroField_zero, extract_ofFields, bit_ofFields, bit_high, bit_bS, BitVec.extractLsb'_append_eq_of_add_le,
    BitVec.extractLsb'_append_eq_of_le, BitVec.extractLsb'_eq_self, -Nat.reduceAdd, Nat.reduceSub]
  all_goals rfl

theorem frndRtz (o : FmtDA) : Statement (.frndRtz o) := by
  intro w hw hi
  cases hw
  refine of_shape ?_ hi
  rw [major47 (by simp (decide := true) only [fMajor, extract_ofFields, bit_ofFields, bit_high, bit_bS, BitVec.extractLsb'_append_eq_of_add_le,
    BitVec.extractLsb'_append_eq_of_le, BitVec.extractLsb'_eq_self, -Nat.reduceAdd, Nat.reduceSub])]
  simp (decide := true) only [decode47, fS, zeroField_zero, extract_ofFields, bit_ofFields, bit_high, bit_bS, BitVec.extractLsb'_append_eq_of_add_le,
    BitVec.extractLsb'_append_eq_of_le, BitVec.extractLsb'_eq_self, -Nat.reduceAdd, Nat.reduceSub]
  all_goals rfl

theorem frndRup (o : FmtDA) : Statement (.frndRup o) := by
  intro w hw hi
  cases hw
  refine of_shape ?_ hi
  rw [major47 (by simp (decide := true) only [fMajor, extract_ofFields, bit_ofFields, bit_high, bit_bS, BitVec.extractLsb'_append_eq_of_add_le,
    BitVec.extractLsb'_append_eq_of_le, BitVec.extractLsb'_eq_self, -Nat.reduceAdd, Nat.reduceSub])]
  simp (decide := true) only [decode47, fS, zeroField_zero, extract_ofFields, bit_ofFields, bit_high, bit_bS, BitVec.extractLsb'_append_eq_of_add_le,
    BitVec.extractLsb'_append_eq_of_le, BitVec.extractLsb'_eq_self, -Nat.reduceAdd, Nat.reduceSub]
  all_goals rfl

theorem frndRdn (o : FmtDA) : Statement (.frndRdn o) := by
  intro w hw hi
  cases hw
  refine of_shape ?_ hi
  rw [major47 (by simp (decide := true) only [fMajor, extract_ofFields, bit_ofFields, bit_high, bit_bS, BitVec.extractLsb'_append_eq_of_add_le,
    BitVec.extractLsb'_append_eq_of_le, BitVec.extractLsb'_eq_self, -Nat.reduceAdd, Nat.reduceSub])]
  simp (decide := true) only [decode47, fS, zeroField_zero, extract_ofFields, bit_ofFields, bit_high, bit_bS, BitVec.extractLsb'_append_eq_of_add_le,
    BitVec.extractLsb'_append_eq_of_le, BitVec.extractLsb'_eq_self, -Nat.reduceAdd, Nat.reduceSub]
  all_goals rfl

theorem frndRna (o : FmtDA) : Statement (.frndRna o) := by
  intro w hw hi
  cases hw
  refine of_shape ?_ hi
  rw [major47 (by simp (decide := true) only [fMajor, extract_ofFields, bit_ofFields, bit_high, bit_bS, BitVec.extractLsb'_append_eq_of_add_le,
    BitVec.extractLsb'_append_eq_of_le, BitVec.extractLsb'_eq_self, -Nat.reduceAdd, Nat.reduceSub])]
  simp (decide := true) only [decode47, fS, zeroField_zero, extract_ofFields, bit_ofFields, bit_high, bit_bS, BitVec.extractLsb'_append_eq_of_add_le,
    BitVec.extractLsb'_append_eq_of_le, BitVec.extractLsb'_eq_self, -Nat.reduceAdd, Nat.reduceSub]
  all_goals rfl

theorem fscb (o : FmtDAB) : Statement (.fscb o) := by
  intro w hw hi
  cases hw
  refine of_shape ?_ hi
  rw [major48 (by simp (decide := true) only [fMajor, extract_ofFields, bit_ofFields, bit_high, bit_bS, BitVec.extractLsb'_append_eq_of_add_le,
    BitVec.extractLsb'_append_eq_of_le, BitVec.extractLsb'_eq_self, -Nat.reduceAdd, Nat.reduceSub])]
  simp (decide := true) only [decode48, fS, zeroField_zero, extract_ofFields, bit_ofFields, bit_high, bit_bS, BitVec.extractLsb'_append_eq_of_add_le,
    BitVec.extractLsb'_append_eq_of_le, BitVec.extractLsb'_eq_self, -Nat.reduceAdd, Nat.reduceSub]
  all_goals rfl

theorem flgb (o : FmtDA) : Statement (.flgb o) := by
  intro w hw hi
  cases hw
  refine of_shape ?_ hi
  rw [major48 (by simp (decide := true) only [fMajor, extract_ofFields, bit_ofFields, bit_high, bit_bS, BitVec.extractLsb'_append_eq_of_add_le,
    BitVec.extractLsb'_append_eq_of_le, BitVec.extractLsb'_eq_self, -Nat.reduceAdd, Nat.reduceSub])]
  simp (decide := true) only [decode48, fS, zeroField_zero, extract_ofFields, bit_ofFields, bit_high, bit_bS, BitVec.extractLsb'_append_eq_of_add_le,
    BitVec.extractLsb'_append_eq_of_le, BitVec.extractLsb'_eq_self, -Nat.reduceAdd, Nat.reduceSub]
  all_goals rfl

theorem fexp2 (o : FmtDA) : Statement (.fexp2 o) := by
  intro w hw hi
  cases hw
  refine of_shape ?_ hi
  rw [major49 (by simp (decide := true) only [fMajor, extract_ofFields, bit_ofFields, bit_high, bit_bS, BitVec.extractLsb'_append_eq_of_add_le,
    BitVec.extractLsb'_append_eq_of_le, BitVec.extractLsb'_eq_self, -Nat.reduceAdd, Nat.reduceSub])]
  simp (decide := true) only [decode49, fS, zeroField_zero, extract_ofFields, bit_ofFields, bit_high, bit_bS, BitVec.extractLsb'_append_eq_of_add_le,
    BitVec.extractLsb'_append_eq_of_le, BitVec.extractLsb'_eq_self, -Nat.reduceAdd, Nat.reduceSub]
  all_goals rfl

theorem flog2 (o : FmtDA) : Statement (.flog2 o) := by
  intro w hw hi
  cases hw
  refine of_shape ?_ hi
  rw [major49 (by simp (decide := true) only [fMajor, extract_ofFields, bit_ofFields, bit_high, bit_bS, BitVec.extractLsb'_append_eq_of_add_le,
    BitVec.extractLsb'_append_eq_of_le, BitVec.extractLsb'_eq_self, -Nat.reduceAdd, Nat.reduceSub])]
  simp (decide := true) only [decode49, fS, zeroField_zero, extract_ofFields, bit_ofFields, bit_high, bit_bS, BitVec.extractLsb'_append_eq_of_add_le,
    BitVec.extractLsb'_append_eq_of_le, BitVec.extractLsb'_eq_self, -Nat.reduceAdd, Nat.reduceSub]
  all_goals rfl

theorem fsinp (o : FmtDA) : Statement (.fsinp o) := by
  intro w hw hi
  cases hw
  refine of_shape ?_ hi
  rw [major49 (by simp (decide := true) only [fMajor, extract_ofFields, bit_ofFields, bit_high, bit_bS, BitVec.extractLsb'_append_eq_of_add_le,
    BitVec.extractLsb'_append_eq_of_le, BitVec.extractLsb'_eq_self, -Nat.reduceAdd, Nat.reduceSub])]
  simp (decide := true) only [decode49, fS, zeroField_zero, extract_ofFields, bit_ofFields, bit_high, bit_bS, BitVec.extractLsb'_append_eq_of_add_le,
    BitVec.extractLsb'_append_eq_of_le, BitVec.extractLsb'_eq_self, -Nat.reduceAdd, Nat.reduceSub]
  all_goals rfl

theorem fcosp (o : FmtDA) : Statement (.fcosp o) := by
  intro w hw hi
  cases hw
  refine of_shape ?_ hi
  rw [major49 (by simp (decide := true) only [fMajor, extract_ofFields, bit_ofFields, bit_high, bit_bS, BitVec.extractLsb'_append_eq_of_add_le,
    BitVec.extractLsb'_append_eq_of_le, BitVec.extractLsb'_eq_self, -Nat.reduceAdd, Nat.reduceSub])]
  simp (decide := true) only [decode49, fS, zeroField_zero, extract_ofFields, bit_ofFields, bit_high, bit_bS, BitVec.extractLsb'_append_eq_of_add_le,
    BitVec.extractLsb'_append_eq_of_le, BitVec.extractLsb'_eq_self, -Nat.reduceAdd, Nat.reduceSub]
  all_goals rfl

theorem ftanh (o : FmtDA) : Statement (.ftanh o) := by
  intro w hw hi
  cases hw
  refine of_shape ?_ hi
  rw [major49 (by simp (decide := true) only [fMajor, extract_ofFields, bit_ofFields, bit_high, bit_bS, BitVec.extractLsb'_append_eq_of_add_le,
    BitVec.extractLsb'_append_eq_of_le, BitVec.extractLsb'_eq_self, -Nat.reduceAdd, Nat.reduceSub])]
  simp (decide := true) only [decode49, fS, zeroField_zero, extract_ofFields, bit_ofFields, bit_high, bit_bS, BitVec.extractLsb'_append_eq_of_add_le,
    BitVec.extractLsb'_append_eq_of_le, BitVec.extractLsb'_eq_self, -Nat.reduceAdd, Nat.reduceSub]
  all_goals rfl

theorem cvt (o : FmtCvt) : Statement (.cvt o) := by
  intro w hw hi
  cases hw
  refine of_shape ?_ hi
  rw [major4A (by simp (decide := true) only [fMajor, extract_ofFields, bit_ofFields, bit_high, bit_bS, BitVec.extractLsb'_append_eq_of_add_le,
    BitVec.extractLsb'_append_eq_of_le, BitVec.extractLsb'_eq_self, -Nat.reduceAdd, Nat.reduceSub])]
  simp (decide := true) only [decode4A, fS, zeroField_zero, extract_ofFields, bit_ofFields, bit_high, bit_bS, BitVec.extractLsb'_append_eq_of_add_le,
    BitVec.extractLsb'_append_eq_of_le, BitVec.extractLsb'_eq_self, -Nat.reduceAdd, Nat.reduceSub]
  all_goals rfl

theorem cvti (o : FmtCvt) : Statement (.cvti o) := by
  intro w hw hi
  cases hw
  refine of_shape ?_ hi
  rw [major4B (by simp (decide := true) only [fMajor, extract_ofFields, bit_ofFields, bit_high, bit_bS, BitVec.extractLsb'_append_eq_of_add_le,
    BitVec.extractLsb'_append_eq_of_le, BitVec.extractLsb'_eq_self, -Nat.reduceAdd, Nat.reduceSub])]
  simp (decide := true) only [decode4B, fS, zeroField_zero, extract_ofFields, bit_ofFields, bit_high, bit_bS, BitVec.extractLsb'_append_eq_of_add_le,
    BitVec.extractLsb'_append_eq_of_le, BitVec.extractLsb'_eq_self, -Nat.reduceAdd, Nat.reduceSub]
  all_goals rfl

theorem cvtf (o : FmtCvt) : Statement (.cvtf o) := by
  intro w hw hi
  cases hw
  refine of_shape ?_ hi
  rw [major4C (by simp (decide := true) only [fMajor, extract_ofFields, bit_ofFields, bit_high, bit_bS, BitVec.extractLsb'_append_eq_of_add_le,
    BitVec.extractLsb'_append_eq_of_le, BitVec.extractLsb'_eq_self, -Nat.reduceAdd, Nat.reduceSub])]
  simp (decide := true) only [decode4C, fS, zeroField_zero, extract_ofFields, bit_ofFields, bit_high, bit_bS, BitVec.extractLsb'_append_eq_of_add_le,
    BitVec.extractLsb'_append_eq_of_le, BitVec.extractLsb'_eq_self, -Nat.reduceAdd, Nat.reduceSub]
  all_goals rfl

theorem bfpk (o : FmtBf) : Statement (.bfpk o) := by
  intro w hw hi
  cases hw
  refine of_shape ?_ hi
  rw [major4D (by simp (decide := true) only [fMajor, extract_ofFields, bit_ofFields, bit_high, bit_bS, BitVec.extractLsb'_append_eq_of_add_le,
    BitVec.extractLsb'_append_eq_of_le, BitVec.extractLsb'_eq_self, -Nat.reduceAdd, Nat.reduceSub])]
  simp (decide := true) only [decode4D, fS, zeroField_zero, extract_ofFields, bit_ofFields, bit_high, bit_bS, BitVec.extractLsb'_append_eq_of_add_le,
    BitVec.extractLsb'_append_eq_of_le, BitVec.extractLsb'_eq_self, -Nat.reduceAdd, Nat.reduceSub]
  all_goals rfl

theorem bfup (o : FmtBf) : Statement (.bfup o) := by
  intro w hw hi
  cases hw
  refine of_shape ?_ hi
  rw [major4E (by simp (decide := true) only [fMajor, extract_ofFields, bit_ofFields, bit_high, bit_bS, BitVec.extractLsb'_append_eq_of_add_le,
    BitVec.extractLsb'_append_eq_of_le, BitVec.extractLsb'_eq_self, -Nat.reduceAdd, Nat.reduceSub])]
  simp (decide := true) only [decode4E, fS, zeroField_zero, extract_ofFields, bit_ofFields, bit_high, bit_bS, BitVec.extractLsb'_append_eq_of_add_le,
    BitVec.extractLsb'_append_eq_of_le, BitVec.extractLsb'_eq_self, -Nat.reduceAdd, Nat.reduceSub]
  all_goals rfl

theorem fmtset (o : FmtSet) : Statement (.fmtset o) := by
  intro w hw hi
  cases hw
  refine of_shape ?_ hi
  rw [major4F (by simp (decide := true) only [fMajor, extract_ofFields, bit_ofFields, bit_high, bit_bS, BitVec.extractLsb'_append_eq_of_add_le,
    BitVec.extractLsb'_append_eq_of_le, BitVec.extractLsb'_eq_self, -Nat.reduceAdd, Nat.reduceSub])]
  simp (decide := true) only [decode4F, fS, zeroField_zero, extract_ofFields, bit_ofFields, bit_high, bit_bS, BitVec.extractLsb'_append_eq_of_add_le,
    BitVec.extractLsb'_append_eq_of_le, BitVec.extractLsb'_eq_self, -Nat.reduceAdd, Nat.reduceSub]
  all_goals rfl

theorem fmtget (o : FmtGet) : Statement (.fmtget o) := by
  intro w hw hi
  cases hw
  refine of_shape ?_ hi
  rw [major50 (by simp (decide := true) only [fMajor, extract_ofFields, bit_ofFields, bit_high, bit_bS, BitVec.extractLsb'_append_eq_of_add_le,
    BitVec.extractLsb'_append_eq_of_le, BitVec.extractLsb'_eq_self, -Nat.reduceAdd, Nat.reduceSub])]
  simp (decide := true) only [decode50, fS, zeroField_zero, extract_ofFields, bit_ofFields, bit_high, bit_bS, BitVec.extractLsb'_append_eq_of_add_le,
    BitVec.extractLsb'_append_eq_of_le, BitVec.extractLsb'_eq_self, -Nat.reduceAdd, Nat.reduceSub]
  all_goals rfl

theorem fmtsync (o : Sw) : Statement (.fmtsync o) := by
  intro w hw hi
  cases hw
  refine of_shape ?_ hi
  rw [major51 (by simp (decide := true) only [fMajor, extract_ofFields, bit_ofFields, bit_high, bit_bS, BitVec.extractLsb'_append_eq_of_add_le,
    BitVec.extractLsb'_append_eq_of_le, BitVec.extractLsb'_eq_self, -Nat.reduceAdd, Nat.reduceSub])]
  simp (decide := true) only [decode51, fS, zeroField_zero, extract_ofFields, bit_ofFields, bit_high, bit_bS, BitVec.extractLsb'_append_eq_of_add_le,
    BitVec.extractLsb'_append_eq_of_le, BitVec.extractLsb'_eq_self, -Nat.reduceAdd, Nat.reduceSub]
  all_goals rfl

theorem ldB (o : FmtDAI) : Statement (.ldB o) := by
  intro w hw hi
  cases hw
  refine of_shape ?_ hi
  rw [major60 (by simp (decide := true) only [fMajor, extract_ofFields, bit_ofFields, bit_high, bit_bS, BitVec.extractLsb'_append_eq_of_add_le,
    BitVec.extractLsb'_append_eq_of_le, BitVec.extractLsb'_eq_self, -Nat.reduceAdd, Nat.reduceSub])]
  simp (decide := true) only [decode60, fS, zeroField_zero, extract_ofFields, bit_ofFields, bit_high, bit_bS, BitVec.extractLsb'_append_eq_of_add_le,
    BitVec.extractLsb'_append_eq_of_le, BitVec.extractLsb'_eq_self, -Nat.reduceAdd, Nat.reduceSub]
  all_goals rfl

theorem ldH (o : FmtDAI) : Statement (.ldH o) := by
  intro w hw hi
  cases hw
  refine of_shape ?_ hi
  rw [major61 (by simp (decide := true) only [fMajor, extract_ofFields, bit_ofFields, bit_high, bit_bS, BitVec.extractLsb'_append_eq_of_add_le,
    BitVec.extractLsb'_append_eq_of_le, BitVec.extractLsb'_eq_self, -Nat.reduceAdd, Nat.reduceSub])]
  simp (decide := true) only [decode61, fS, zeroField_zero, extract_ofFields, bit_ofFields, bit_high, bit_bS, BitVec.extractLsb'_append_eq_of_add_le,
    BitVec.extractLsb'_append_eq_of_le, BitVec.extractLsb'_eq_self, -Nat.reduceAdd, Nat.reduceSub]
  all_goals rfl

theorem ldW (o : FmtDAI) : Statement (.ldW o) := by
  intro w hw hi
  cases hw
  refine of_shape ?_ hi
  rw [major62 (by simp (decide := true) only [fMajor, extract_ofFields, bit_ofFields, bit_high, bit_bS, BitVec.extractLsb'_append_eq_of_add_le,
    BitVec.extractLsb'_append_eq_of_le, BitVec.extractLsb'_eq_self, -Nat.reduceAdd, Nat.reduceSub])]
  simp (decide := true) only [decode62, fS, zeroField_zero, extract_ofFields, bit_ofFields, bit_high, bit_bS, BitVec.extractLsb'_append_eq_of_add_le,
    BitVec.extractLsb'_append_eq_of_le, BitVec.extractLsb'_eq_self, -Nat.reduceAdd, Nat.reduceSub]
  all_goals rfl

theorem ldD (o : FmtDAI) : Statement (.ldD o) := by
  intro w hw hi
  cases hw
  refine of_shape ?_ hi
  rw [major63 (by simp (decide := true) only [fMajor, extract_ofFields, bit_ofFields, bit_high, bit_bS, BitVec.extractLsb'_append_eq_of_add_le,
    BitVec.extractLsb'_append_eq_of_le, BitVec.extractLsb'_eq_self, -Nat.reduceAdd, Nat.reduceSub])]
  simp (decide := true) only [decode63, fS, zeroField_zero, extract_ofFields, bit_ofFields, bit_high, bit_bS, BitVec.extractLsb'_append_eq_of_add_le,
    BitVec.extractLsb'_append_eq_of_le, BitVec.extractLsb'_eq_self, -Nat.reduceAdd, Nat.reduceSub]
  all_goals rfl

theorem stB (o : FmtDAI) : Statement (.stB o) := by
  intro w hw hi
  cases hw
  refine of_shape ?_ hi
  rw [major64 (by simp (decide := true) only [fMajor, extract_ofFields, bit_ofFields, bit_high, bit_bS, BitVec.extractLsb'_append_eq_of_add_le,
    BitVec.extractLsb'_append_eq_of_le, BitVec.extractLsb'_eq_self, -Nat.reduceAdd, Nat.reduceSub])]
  simp (decide := true) only [decode64, fS, zeroField_zero, extract_ofFields, bit_ofFields, bit_high, bit_bS, BitVec.extractLsb'_append_eq_of_add_le,
    BitVec.extractLsb'_append_eq_of_le, BitVec.extractLsb'_eq_self, -Nat.reduceAdd, Nat.reduceSub]
  all_goals rfl

theorem stH (o : FmtDAI) : Statement (.stH o) := by
  intro w hw hi
  cases hw
  refine of_shape ?_ hi
  rw [major65 (by simp (decide := true) only [fMajor, extract_ofFields, bit_ofFields, bit_high, bit_bS, BitVec.extractLsb'_append_eq_of_add_le,
    BitVec.extractLsb'_append_eq_of_le, BitVec.extractLsb'_eq_self, -Nat.reduceAdd, Nat.reduceSub])]
  simp (decide := true) only [decode65, fS, zeroField_zero, extract_ofFields, bit_ofFields, bit_high, bit_bS, BitVec.extractLsb'_append_eq_of_add_le,
    BitVec.extractLsb'_append_eq_of_le, BitVec.extractLsb'_eq_self, -Nat.reduceAdd, Nat.reduceSub]
  all_goals rfl

theorem stW (o : FmtDAI) : Statement (.stW o) := by
  intro w hw hi
  cases hw
  refine of_shape ?_ hi
  rw [major66 (by simp (decide := true) only [fMajor, extract_ofFields, bit_ofFields, bit_high, bit_bS, BitVec.extractLsb'_append_eq_of_add_le,
    BitVec.extractLsb'_append_eq_of_le, BitVec.extractLsb'_eq_self, -Nat.reduceAdd, Nat.reduceSub])]
  simp (decide := true) only [decode66, fS, zeroField_zero, extract_ofFields, bit_ofFields, bit_high, bit_bS, BitVec.extractLsb'_append_eq_of_add_le,
    BitVec.extractLsb'_append_eq_of_le, BitVec.extractLsb'_eq_self, -Nat.reduceAdd, Nat.reduceSub]
  all_goals rfl

theorem stD (o : FmtDAI) : Statement (.stD o) := by
  intro w hw hi
  cases hw
  refine of_shape ?_ hi
  rw [major67 (by simp (decide := true) only [fMajor, extract_ofFields, bit_ofFields, bit_high, bit_bS, BitVec.extractLsb'_append_eq_of_add_le,
    BitVec.extractLsb'_append_eq_of_le, BitVec.extractLsb'_eq_self, -Nat.reduceAdd, Nat.reduceSub])]
  simp (decide := true) only [decode67, fS, zeroField_zero, extract_ofFields, bit_ofFields, bit_high, bit_bS, BitVec.extractLsb'_append_eq_of_add_le,
    BitVec.extractLsb'_append_eq_of_le, BitVec.extractLsb'_eq_self, -Nat.reduceAdd, Nat.reduceSub]
  all_goals rfl

theorem ldx (o : FmtLdx) : Statement (.ldx o) := by
  intro w hw hi
  cases hw
  refine of_shape ?_ hi
  rw [major68 (by simp (decide := true) only [fMajor, extract_ofFields, bit_ofFields, bit_high, bit_bS, BitVec.extractLsb'_append_eq_of_add_le,
    BitVec.extractLsb'_append_eq_of_le, BitVec.extractLsb'_eq_self, -Nat.reduceAdd, Nat.reduceSub])]
  simp (decide := true) only [decode68, fS, zeroField_zero, extract_ofFields, bit_ofFields, bit_high, bit_bS, BitVec.extractLsb'_append_eq_of_add_le,
    BitVec.extractLsb'_append_eq_of_le, BitVec.extractLsb'_eq_self, -Nat.reduceAdd, Nat.reduceSub]
  all_goals rfl

theorem stx (o : FmtLdx) : Statement (.stx o) := by
  intro w hw hi
  cases hw
  refine of_shape ?_ hi
  rw [major69 (by simp (decide := true) only [fMajor, extract_ofFields, bit_ofFields, bit_high, bit_bS, BitVec.extractLsb'_append_eq_of_add_le,
    BitVec.extractLsb'_append_eq_of_le, BitVec.extractLsb'_eq_self, -Nat.reduceAdd, Nat.reduceSub])]
  simp (decide := true) only [decode69, fS, zeroField_zero, extract_ofFields, bit_ofFields, bit_high, bit_bS, BitVec.extractLsb'_append_eq_of_add_le,
    BitVec.extractLsb'_append_eq_of_le, BitVec.extractLsb'_eq_self, -Nat.reduceAdd, Nat.reduceSub]
  all_goals rfl

theorem lds (o : FmtDAI) : Statement (.lds o) := by
  intro w hw hi
  cases hw
  refine of_shape ?_ hi
  rw [major6A (by simp (decide := true) only [fMajor, extract_ofFields, bit_ofFields, bit_high, bit_bS, BitVec.extractLsb'_append_eq_of_add_le,
    BitVec.extractLsb'_append_eq_of_le, BitVec.extractLsb'_eq_self, -Nat.reduceAdd, Nat.reduceSub])]
  simp (decide := true) only [decode6A, fS, zeroField_zero, extract_ofFields, bit_ofFields, bit_high, bit_bS, BitVec.extractLsb'_append_eq_of_add_le,
    BitVec.extractLsb'_append_eq_of_le, BitVec.extractLsb'_eq_self, -Nat.reduceAdd, Nat.reduceSub]
  all_goals rfl

theorem sts (o : FmtDAI) : Statement (.sts o) := by
  intro w hw hi
  cases hw
  refine of_shape ?_ hi
  rw [major6B (by simp (decide := true) only [fMajor, extract_ofFields, bit_ofFields, bit_high, bit_bS, BitVec.extractLsb'_append_eq_of_add_le,
    BitVec.extractLsb'_append_eq_of_le, BitVec.extractLsb'_eq_self, -Nat.reduceAdd, Nat.reduceSub])]
  simp (decide := true) only [decode6B, fS, zeroField_zero, extract_ofFields, bit_ofFields, bit_high, bit_bS, BitVec.extractLsb'_append_eq_of_add_le,
    BitVec.extractLsb'_append_eq_of_le, BitVec.extractLsb'_eq_self, -Nat.reduceAdd, Nat.reduceSub]
  all_goals rfl

theorem lda (o : FmtLda) : Statement (.lda o) := by
  intro w hw hi
  cases hw
  refine of_shape ?_ hi
  rw [major6C (by simp (decide := true) only [fMajor, extract_ofFields, bit_ofFields, bit_high, bit_bS, BitVec.extractLsb'_append_eq_of_add_le,
    BitVec.extractLsb'_append_eq_of_le, BitVec.extractLsb'_eq_self, -Nat.reduceAdd, Nat.reduceSub])]
  simp (decide := true) only [decode6C, fS, zeroField_zero, extract_ofFields, bit_ofFields, bit_high, bit_bS, BitVec.extractLsb'_append_eq_of_add_le,
    BitVec.extractLsb'_append_eq_of_le, BitVec.extractLsb'_eq_self, -Nat.reduceAdd, Nat.reduceSub]
  all_goals rfl

theorem str (o : FmtLda) : Statement (.str o) := by
  intro w hw hi
  cases hw
  refine of_shape ?_ hi
  rw [major6D (by simp (decide := true) only [fMajor, extract_ofFields, bit_ofFields, bit_high, bit_bS, BitVec.extractLsb'_append_eq_of_add_le,
    BitVec.extractLsb'_append_eq_of_le, BitVec.extractLsb'_eq_self, -Nat.reduceAdd, Nat.reduceSub])]
  simp (decide := true) only [decode6D, fS, zeroField_zero, extract_ofFields, bit_ofFields, bit_high, bit_bS, BitVec.extractLsb'_append_eq_of_add_le,
    BitVec.extractLsb'_append_eq_of_le, BitVec.extractLsb'_eq_self, -Nat.reduceAdd, Nat.reduceSub]
  all_goals rfl

theorem atom (o : FmtAtom) : Statement (.atom o) := by
  intro w hw hi
  cases hw
  refine of_shape ?_ hi
  rw [major6E (by simp (decide := true) only [fMajor, extract_ofFields, bit_ofFields, bit_high, bit_bS, BitVec.extractLsb'_append_eq_of_add_le,
    BitVec.extractLsb'_append_eq_of_le, BitVec.extractLsb'_eq_self, -Nat.reduceAdd, Nat.reduceSub])]
  simp (decide := true) only [decode6E, fS, zeroField_zero, extract_ofFields, bit_ofFields, bit_high, bit_bS, BitVec.extractLsb'_append_eq_of_add_le,
    BitVec.extractLsb'_append_eq_of_le, BitVec.extractLsb'_eq_self, -Nat.reduceAdd, Nat.reduceSub]
  all_goals rfl

theorem datom (o : FmtDatom) : Statement (.datom o) := by
  intro w hw hi
  cases hw
  refine of_shape ?_ hi
  rw [major6F (by simp (decide := true) only [fMajor, extract_ofFields, bit_ofFields, bit_high, bit_bS, BitVec.extractLsb'_append_eq_of_add_le,
    BitVec.extractLsb'_append_eq_of_le, BitVec.extractLsb'_eq_self, -Nat.reduceAdd, Nat.reduceSub])]
  simp (decide := true) only [decode6F, fS, zeroField_zero, extract_ofFields, bit_ofFields, bit_high, bit_bS, BitVec.extractLsb'_append_eq_of_add_le,
    BitVec.extractLsb'_append_eq_of_le, BitVec.extractLsb'_eq_self, -Nat.reduceAdd, Nat.reduceSub]
  all_goals rfl

theorem fence (o : FmtFence) : Statement (.fence o) := by
  intro w hw hi
  cases hw
  refine of_shape ?_ hi
  rw [major70 (by simp (decide := true) only [fMajor, extract_ofFields, bit_ofFields, bit_high, bit_bS, BitVec.extractLsb'_append_eq_of_add_le,
    BitVec.extractLsb'_append_eq_of_le, BitVec.extractLsb'_eq_self, -Nat.reduceAdd, Nat.reduceSub])]
  simp (decide := true) only [decode70, fS, zeroField_zero, extract_ofFields, bit_ofFields, bit_high, bit_bS, BitVec.extractLsb'_append_eq_of_add_le,
    BitVec.extractLsb'_append_eq_of_le, BitVec.extractLsb'_eq_self, -Nat.reduceAdd, Nat.reduceSub]
  all_goals rfl

theorem dafence (o : Sw) : Statement (.dafence o) := by
  intro w hw hi
  cases hw
  refine of_shape ?_ hi
  rw [major71 (by simp (decide := true) only [fMajor, extract_ofFields, bit_ofFields, bit_high, bit_bS, BitVec.extractLsb'_append_eq_of_add_le,
    BitVec.extractLsb'_append_eq_of_le, BitVec.extractLsb'_eq_self, -Nat.reduceAdd, Nat.reduceSub])]
  simp (decide := true) only [decode71, fS, zeroField_zero, extract_ofFields, bit_ofFields, bit_high, bit_bS, BitVec.extractLsb'_append_eq_of_add_le,
    BitVec.extractLsb'_append_eq_of_le, BitVec.extractLsb'_eq_self, -Nat.reduceAdd, Nat.reduceSub]
  all_goals rfl

theorem wait (o : FmtWait) : Statement (.wait o) := by
  intro w hw hi
  cases hw
  refine of_shape ?_ hi
  rw [major72 (by simp (decide := true) only [fMajor, extract_ofFields, bit_ofFields, bit_high, bit_bS, BitVec.extractLsb'_append_eq_of_add_le,
    BitVec.extractLsb'_append_eq_of_le, BitVec.extractLsb'_eq_self, -Nat.reduceAdd, Nat.reduceSub])]
  simp (decide := true) only [decode72, fS, zeroField_zero, extract_ofFields, bit_ofFields, bit_high, bit_bS, BitVec.extractLsb'_append_eq_of_add_le,
    BitVec.extractLsb'_append_eq_of_le, BitVec.extractLsb'_eq_self, -Nat.reduceAdd, Nat.reduceSub]
  all_goals rfl

theorem pref (o : FmtCc) : Statement (.pref o) := by
  intro w hw hi
  cases hw
  refine of_shape ?_ hi
  rw [major73 (by simp (decide := true) only [fMajor, extract_ofFields, bit_ofFields, bit_high, bit_bS, BitVec.extractLsb'_append_eq_of_add_le,
    BitVec.extractLsb'_append_eq_of_le, BitVec.extractLsb'_eq_self, -Nat.reduceAdd, Nat.reduceSub])]
  simp (decide := true) only [decode73, fS, zeroField_zero, extract_ofFields, bit_ofFields, bit_high, bit_bS, BitVec.extractLsb'_append_eq_of_add_le,
    BitVec.extractLsb'_append_eq_of_le, BitVec.extractLsb'_eq_self, -Nat.reduceAdd, Nat.reduceSub]
  all_goals rfl

theorem cctlWb (o : FmtCc) : Statement (.cctlWb o) := by
  intro w hw hi
  cases hw
  refine of_shape ?_ hi
  rw [major73 (by simp (decide := true) only [fMajor, extract_ofFields, bit_ofFields, bit_high, bit_bS, BitVec.extractLsb'_append_eq_of_add_le,
    BitVec.extractLsb'_append_eq_of_le, BitVec.extractLsb'_eq_self, -Nat.reduceAdd, Nat.reduceSub])]
  simp (decide := true) only [decode73, fS, zeroField_zero, extract_ofFields, bit_ofFields, bit_high, bit_bS, BitVec.extractLsb'_append_eq_of_add_le,
    BitVec.extractLsb'_append_eq_of_le, BitVec.extractLsb'_eq_self, -Nat.reduceAdd, Nat.reduceSub]
  all_goals rfl

theorem cctlInv (o : FmtCc) : Statement (.cctlInv o) := by
  intro w hw hi
  cases hw
  refine of_shape ?_ hi
  rw [major73 (by simp (decide := true) only [fMajor, extract_ofFields, bit_ofFields, bit_high, bit_bS, BitVec.extractLsb'_append_eq_of_add_le,
    BitVec.extractLsb'_append_eq_of_le, BitVec.extractLsb'_eq_self, -Nat.reduceAdd, Nat.reduceSub])]
  simp (decide := true) only [decode73, fS, zeroField_zero, extract_ofFields, bit_ofFields, bit_high, bit_bS, BitVec.extractLsb'_append_eq_of_add_le,
    BitVec.extractLsb'_append_eq_of_le, BitVec.extractLsb'_eq_self, -Nat.reduceAdd, Nat.reduceSub]
  all_goals rfl

theorem cctlWbinv (o : FmtCc) : Statement (.cctlWbinv o) := by
  intro w hw hi
  cases hw
  refine of_shape ?_ hi
  rw [major73 (by simp (decide := true) only [fMajor, extract_ofFields, bit_ofFields, bit_high, bit_bS, BitVec.extractLsb'_append_eq_of_add_le,
    BitVec.extractLsb'_append_eq_of_le, BitVec.extractLsb'_eq_self, -Nat.reduceAdd, Nat.reduceSub])]
  simp (decide := true) only [decode73, fS, zeroField_zero, extract_ofFields, bit_ofFields, bit_high, bit_bS, BitVec.extractLsb'_append_eq_of_add_le,
    BitVec.extractLsb'_append_eq_of_le, BitVec.extractLsb'_eq_self, -Nat.reduceAdd, Nat.reduceSub]
  all_goals rfl

theorem cpy (o : FmtCpy) : Statement (.cpy o) := by
  intro w hw hi
  cases hw
  refine of_shape ?_ hi
  rw [major74 (by simp (decide := true) only [fMajor, extract_ofFields, bit_ofFields, bit_high, bit_bS, BitVec.extractLsb'_append_eq_of_add_le,
    BitVec.extractLsb'_append_eq_of_le, BitVec.extractLsb'_eq_self, -Nat.reduceAdd, Nat.reduceSub])]
  simp (decide := true) only [decode74, fS, zeroField_zero, extract_ofFields, bit_ofFields, bit_high, bit_bS, BitVec.extractLsb'_append_eq_of_add_le,
    BitVec.extractLsb'_append_eq_of_le, BitVec.extractLsb'_eq_self, -Nat.reduceAdd, Nat.reduceSub]
  all_goals rfl

theorem cpym (o : FmtDAB) : Statement (.cpym o) := by
  intro w hw hi
  cases hw
  refine of_shape ?_ hi
  rw [major75 (by simp (decide := true) only [fMajor, extract_ofFields, bit_ofFields, bit_high, bit_bS, BitVec.extractLsb'_append_eq_of_add_le,
    BitVec.extractLsb'_append_eq_of_le, BitVec.extractLsb'_eq_self, -Nat.reduceAdd, Nat.reduceSub])]
  simp (decide := true) only [decode75, fS, zeroField_zero, extract_ofFields, bit_ofFields, bit_high, bit_bS, BitVec.extractLsb'_append_eq_of_add_le,
    BitVec.extractLsb'_append_eq_of_le, BitVec.extractLsb'_eq_self, -Nat.reduceAdd, Nat.reduceSub]
  all_goals rfl

theorem mma (o : FmtMma) : Statement (.mma o) := by
  intro w hw hi
  cases hw
  refine of_shape ?_ hi
  rw [major76 (by simp (decide := true) only [fMajor, extract_ofFields, bit_ofFields, bit_high, bit_bS, BitVec.extractLsb'_append_eq_of_add_le,
    BitVec.extractLsb'_append_eq_of_le, BitVec.extractLsb'_eq_self, -Nat.reduceAdd, Nat.reduceSub])]
  simp (decide := true) only [decode76, fS, zeroField_zero, extract_ofFields, bit_ofFields, bit_high, bit_bS, BitVec.extractLsb'_append_eq_of_add_le,
    BitVec.extractLsb'_append_eq_of_le, BitVec.extractLsb'_eq_self, -Nat.reduceAdd, Nat.reduceSub]
  all_goals rfl

theorem mmaO (o : FmtMma) : Statement (.mmaO o) := by
  intro w hw hi
  cases hw
  refine of_shape ?_ hi
  rw [major76 (by simp (decide := true) only [fMajor, extract_ofFields, bit_ofFields, bit_high, bit_bS, BitVec.extractLsb'_append_eq_of_add_le,
    BitVec.extractLsb'_append_eq_of_le, BitVec.extractLsb'_eq_self, -Nat.reduceAdd, Nat.reduceSub])]
  simp (decide := true) only [decode76, fS, zeroField_zero, extract_ofFields, bit_ofFields, bit_high, bit_bS, BitVec.extractLsb'_append_eq_of_add_le,
    BitVec.extractLsb'_append_eq_of_le, BitVec.extractLsb'_eq_self, -Nat.reduceAdd, Nat.reduceSub]
  all_goals rfl

theorem mmasF32 (o : FmtMmas) : Statement (.mmasF32 o) := by
  intro w hw hi
  cases hw
  refine of_shape ?_ hi
  rw [major77 (by simp (decide := true) only [fMajor, extract_ofFields, bit_ofFields, bit_high, bit_bS, BitVec.extractLsb'_append_eq_of_add_le,
    BitVec.extractLsb'_append_eq_of_le, BitVec.extractLsb'_eq_self, -Nat.reduceAdd, Nat.reduceSub])]
  simp (decide := true) only [decode77, fS, zeroField_zero, extract_ofFields, bit_ofFields, bit_high, bit_bS, BitVec.extractLsb'_append_eq_of_add_le,
    BitVec.extractLsb'_append_eq_of_le, BitVec.extractLsb'_eq_self, -Nat.reduceAdd, Nat.reduceSub]
  all_goals rfl

theorem mmasS6 (o : FmtMmas) : Statement (.mmasS6 o) := by
  intro w hw hi
  cases hw
  refine of_shape ?_ hi
  rw [major77 (by simp (decide := true) only [fMajor, extract_ofFields, bit_ofFields, bit_high, bit_bS, BitVec.extractLsb'_append_eq_of_add_le,
    BitVec.extractLsb'_append_eq_of_le, BitVec.extractLsb'_eq_self, -Nat.reduceAdd, Nat.reduceSub])]
  simp (decide := true) only [decode77, fS, zeroField_zero, extract_ofFields, bit_ofFields, bit_high, bit_bS, BitVec.extractLsb'_append_eq_of_add_le,
    BitVec.extractLsb'_append_eq_of_le, BitVec.extractLsb'_eq_self, -Nat.reduceAdd, Nat.reduceSub]
  all_goals rfl

theorem mmasS7 (o : FmtMmas) : Statement (.mmasS7 o) := by
  intro w hw hi
  cases hw
  refine of_shape ?_ hi
  rw [major77 (by simp (decide := true) only [fMajor, extract_ofFields, bit_ofFields, bit_high, bit_bS, BitVec.extractLsb'_append_eq_of_add_le,
    BitVec.extractLsb'_append_eq_of_le, BitVec.extractLsb'_eq_self, -Nat.reduceAdd, Nat.reduceSub])]
  simp (decide := true) only [decode77, fS, zeroField_zero, extract_ofFields, bit_ofFields, bit_high, bit_bS, BitVec.extractLsb'_append_eq_of_add_le,
    BitVec.extractLsb'_append_eq_of_le, BitVec.extractLsb'_eq_self, -Nat.reduceAdd, Nat.reduceSub]
  all_goals rfl

theorem mmasS8 (o : FmtMmas) : Statement (.mmasS8 o) := by
  intro w hw hi
  cases hw
  refine of_shape ?_ hi
  rw [major77 (by simp (decide := true) only [fMajor, extract_ofFields, bit_ofFields, bit_high, bit_bS, BitVec.extractLsb'_append_eq_of_add_le,
    BitVec.extractLsb'_append_eq_of_le, BitVec.extractLsb'_eq_self, -Nat.reduceAdd, Nat.reduceSub])]
  simp (decide := true) only [decode77, fS, zeroField_zero, extract_ofFields, bit_ofFields, bit_high, bit_bS, BitVec.extractLsb'_append_eq_of_add_le,
    BitVec.extractLsb'_append_eq_of_le, BitVec.extractLsb'_eq_self, -Nat.reduceAdd, Nat.reduceSub]
  all_goals rfl

theorem mzero (o : FmtTile) : Statement (.mzero o) := by
  intro w hw hi
  cases hw
  refine of_shape ?_ hi
  rw [major78 (by simp (decide := true) only [fMajor, extract_ofFields, bit_ofFields, bit_high, bit_bS, BitVec.extractLsb'_append_eq_of_add_le,
    BitVec.extractLsb'_append_eq_of_le, BitVec.extractLsb'_eq_self, -Nat.reduceAdd, Nat.reduceSub])]
  simp (decide := true) only [decode78, fS, zeroField_zero, extract_ofFields, bit_ofFields, bit_high, bit_bS, BitVec.extractLsb'_append_eq_of_add_le,
    BitVec.extractLsb'_append_eq_of_le, BitVec.extractLsb'_eq_self, -Nat.reduceAdd, Nat.reduceSub]
  all_goals rfl

theorem mdrainR (o : FmtTileB) : Statement (.mdrainR o) := by
  intro w hw hi
  cases hw
  refine of_shape ?_ hi
  rw [major79 (by simp (decide := true) only [fMajor, extract_ofFields, bit_ofFields, bit_high, bit_bS, BitVec.extractLsb'_append_eq_of_add_le,
    BitVec.extractLsb'_append_eq_of_le, BitVec.extractLsb'_eq_self, -Nat.reduceAdd, Nat.reduceSub])]
  simp (decide := true) only [decode79, fS, zeroField_zero, extract_ofFields, bit_ofFields, bit_high, bit_bS, BitVec.extractLsb'_append_eq_of_add_le,
    BitVec.extractLsb'_append_eq_of_le, BitVec.extractLsb'_eq_self, -Nat.reduceAdd, Nat.reduceSub]
  all_goals rfl

theorem mdrainS (o : FmtTileA) : Statement (.mdrainS o) := by
  intro w hw hi
  cases hw
  refine of_shape ?_ hi
  rw [major79 (by simp (decide := true) only [fMajor, extract_ofFields, bit_ofFields, bit_high, bit_bS, BitVec.extractLsb'_append_eq_of_add_le,
    BitVec.extractLsb'_append_eq_of_le, BitVec.extractLsb'_eq_self, -Nat.reduceAdd, Nat.reduceSub])]
  simp (decide := true) only [decode79, fS, zeroField_zero, extract_ofFields, bit_ofFields, bit_high, bit_bS, BitVec.extractLsb'_append_eq_of_add_le,
    BitVec.extractLsb'_append_eq_of_le, BitVec.extractLsb'_eq_self, -Nat.reduceAdd, Nat.reduceSub]
  all_goals rfl

theorem mdrainG (o : FmtTileA) : Statement (.mdrainG o) := by
  intro w hw hi
  cases hw
  refine of_shape ?_ hi
  rw [major79 (by simp (decide := true) only [fMajor, extract_ofFields, bit_ofFields, bit_high, bit_bS, BitVec.extractLsb'_append_eq_of_add_le,
    BitVec.extractLsb'_append_eq_of_le, BitVec.extractLsb'_eq_self, -Nat.reduceAdd, Nat.reduceSub])]
  simp (decide := true) only [decode79, fS, zeroField_zero, extract_ofFields, bit_ofFields, bit_high, bit_bS, BitVec.extractLsb'_append_eq_of_add_le,
    BitVec.extractLsb'_append_eq_of_le, BitVec.extractLsb'_eq_self, -Nat.reduceAdd, Nat.reduceSub]
  all_goals rfl

theorem mdrainP (o : FmtTileA) : Statement (.mdrainP o) := by
  intro w hw hi
  cases hw
  refine of_shape ?_ hi
  rw [major79 (by simp (decide := true) only [fMajor, extract_ofFields, bit_ofFields, bit_high, bit_bS, BitVec.extractLsb'_append_eq_of_add_le,
    BitVec.extractLsb'_append_eq_of_le, BitVec.extractLsb'_eq_self, -Nat.reduceAdd, Nat.reduceSub])]
  simp (decide := true) only [decode79, fS, zeroField_zero, extract_ofFields, bit_ofFields, bit_high, bit_bS, BitVec.extractLsb'_append_eq_of_add_le,
    BitVec.extractLsb'_append_eq_of_le, BitVec.extractLsb'_eq_self, -Nat.reduceAdd, Nat.reduceSub]
  all_goals rfl

theorem mfence (o : Sw) : Statement (.mfence o) := by
  intro w hw hi
  cases hw
  refine of_shape ?_ hi
  rw [major7A (by simp (decide := true) only [fMajor, extract_ofFields, bit_ofFields, bit_high, bit_bS, BitVec.extractLsb'_append_eq_of_add_le,
    BitVec.extractLsb'_append_eq_of_le, BitVec.extractLsb'_eq_self, -Nat.reduceAdd, Nat.reduceSub])]
  simp (decide := true) only [decode7A, fS, zeroField_zero, extract_ofFields, bit_ofFields, bit_high, bit_bS, BitVec.extractLsb'_append_eq_of_add_le,
    BitVec.extractLsb'_append_eq_of_le, BitVec.extractLsb'_eq_self, -Nat.reduceAdd, Nat.reduceSub]
  all_goals rfl

theorem mwait (o : FmtB) : Statement (.mwait o) := by
  intro w hw hi
  cases hw
  refine of_shape ?_ hi
  rw [major7A (by simp (decide := true) only [fMajor, extract_ofFields, bit_ofFields, bit_high, bit_bS, BitVec.extractLsb'_append_eq_of_add_le,
    BitVec.extractLsb'_append_eq_of_le, BitVec.extractLsb'_eq_self, -Nat.reduceAdd, Nat.reduceSub])]
  simp (decide := true) only [decode7A, fS, zeroField_zero, extract_ofFields, bit_ofFields, bit_high, bit_bS, BitVec.extractLsb'_append_eq_of_add_le,
    BitVec.extractLsb'_append_eq_of_le, BitVec.extractLsb'_eq_self, -Nat.reduceAdd, Nat.reduceSub]
  all_goals rfl

theorem cbar (o : Sw) : Statement (.cbar o) := by
  intro w hw hi
  cases hw
  refine of_shape ?_ hi
  rw [major7B (by simp (decide := true) only [fMajor, extract_ofFields, bit_ofFields, bit_high, bit_bS, BitVec.extractLsb'_append_eq_of_add_le,
    BitVec.extractLsb'_append_eq_of_le, BitVec.extractLsb'_eq_self, -Nat.reduceAdd, Nat.reduceSub])]
  simp (decide := true) only [decode7B, fS, zeroField_zero, extract_ofFields, bit_ofFields, bit_high, bit_bS, BitVec.extractLsb'_append_eq_of_add_le,
    BitVec.extractLsb'_append_eq_of_le, BitVec.extractLsb'_eq_self, -Nat.reduceAdd, Nat.reduceSub]
  all_goals rfl

theorem carr (o : Sw) : Statement (.carr o) := by
  intro w hw hi
  cases hw
  refine of_shape ?_ hi
  rw [major7B (by simp (decide := true) only [fMajor, extract_ofFields, bit_ofFields, bit_high, bit_bS, BitVec.extractLsb'_append_eq_of_add_le,
    BitVec.extractLsb'_append_eq_of_le, BitVec.extractLsb'_eq_self, -Nat.reduceAdd, Nat.reduceSub])]
  simp (decide := true) only [decode7B, fS, zeroField_zero, extract_ofFields, bit_ofFields, bit_high, bit_bS, BitVec.extractLsb'_append_eq_of_add_le,
    BitVec.extractLsb'_append_eq_of_le, BitVec.extractLsb'_eq_self, -Nat.reduceAdd, Nat.reduceSub]
  all_goals rfl

theorem cwt (o : Sw) : Statement (.cwt o) := by
  intro w hw hi
  cases hw
  refine of_shape ?_ hi
  rw [major7B (by simp (decide := true) only [fMajor, extract_ofFields, bit_ofFields, bit_high, bit_bS, BitVec.extractLsb'_append_eq_of_add_le,
    BitVec.extractLsb'_append_eq_of_le, BitVec.extractLsb'_eq_self, -Nat.reduceAdd, Nat.reduceSub])]
  simp (decide := true) only [decode7B, fS, zeroField_zero, extract_ofFields, bit_ofFields, bit_high, bit_bS, BitVec.extractLsb'_append_eq_of_add_le,
    BitVec.extractLsb'_append_eq_of_le, BitVec.extractLsb'_eq_self, -Nat.reduceAdd, Nat.reduceSub]
  all_goals rfl

theorem pmap (o : FmtAB) : Statement (.pmap o) := by
  intro w hw hi
  cases hw
  refine of_shape ?_ hi
  rw [major7C (by simp (decide := true) only [fMajor, extract_ofFields, bit_ofFields, bit_high, bit_bS, BitVec.extractLsb'_append_eq_of_add_le,
    BitVec.extractLsb'_append_eq_of_le, BitVec.extractLsb'_eq_self, -Nat.reduceAdd, Nat.reduceSub])]
  simp (decide := true) only [decode7C, fS, zeroField_zero, extract_ofFields, bit_ofFields, bit_high, bit_bS, BitVec.extractLsb'_append_eq_of_add_le,
    BitVec.extractLsb'_append_eq_of_le, BitVec.extractLsb'_eq_self, -Nat.reduceAdd, Nat.reduceSub]
  all_goals rfl

theorem rrset (o : FmtAB) : Statement (.rrset o) := by
  intro w hw hi
  cases hw
  refine of_shape ?_ hi
  rw [major7C (by simp (decide := true) only [fMajor, extract_ofFields, bit_ofFields, bit_high, bit_bS, BitVec.extractLsb'_append_eq_of_add_le,
    BitVec.extractLsb'_append_eq_of_le, BitVec.extractLsb'_eq_self, -Nat.reduceAdd, Nat.reduceSub])]
  simp (decide := true) only [decode7C, fS, zeroField_zero, extract_ofFields, bit_ofFields, bit_high, bit_bS, BitVec.extractLsb'_append_eq_of_add_le,
    BitVec.extractLsb'_append_eq_of_le, BitVec.extractLsb'_eq_self, -Nat.reduceAdd, Nat.reduceSub]
  all_goals rfl

theorem scratchcfg (o : FmtA) : Statement (.scratchcfg o) := by
  intro w hw hi
  cases hw
  refine of_shape ?_ hi
  rw [major7C (by simp (decide := true) only [fMajor, extract_ofFields, bit_ofFields, bit_high, bit_bS, BitVec.extractLsb'_append_eq_of_add_le,
    BitVec.extractLsb'_append_eq_of_le, BitVec.extractLsb'_eq_self, -Nat.reduceAdd, Nat.reduceSub])]
  simp (decide := true) only [decode7C, fS, zeroField_zero, extract_ofFields, bit_ofFields, bit_high, bit_bS, BitVec.extractLsb'_append_eq_of_add_le,
    BitVec.extractLsb'_append_eq_of_le, BitVec.extractLsb'_eq_self, -Nat.reduceAdd, Nat.reduceSub]
  all_goals rfl

theorem pmcfg (o : FmtAB) : Statement (.pmcfg o) := by
  intro w hw hi
  cases hw
  refine of_shape ?_ hi
  rw [major7D (by simp (decide := true) only [fMajor, extract_ofFields, bit_ofFields, bit_high, bit_bS, BitVec.extractLsb'_append_eq_of_add_le,
    BitVec.extractLsb'_append_eq_of_le, BitVec.extractLsb'_eq_self, -Nat.reduceAdd, Nat.reduceSub])]
  simp (decide := true) only [decode7D, fS, zeroField_zero, extract_ofFields, bit_ofFields, bit_high, bit_bS, BitVec.extractLsb'_append_eq_of_add_le,
    BitVec.extractLsb'_append_eq_of_le, BitVec.extractLsb'_eq_self, -Nat.reduceAdd, Nat.reduceSub]
  all_goals rfl

theorem pmrd (o : FmtDA) : Statement (.pmrd o) := by
  intro w hw hi
  cases hw
  refine of_shape ?_ hi
  rw [major7D (by simp (decide := true) only [fMajor, extract_ofFields, bit_ofFields, bit_high, bit_bS, BitVec.extractLsb'_append_eq_of_add_le,
    BitVec.extractLsb'_append_eq_of_le, BitVec.extractLsb'_eq_self, -Nat.reduceAdd, Nat.reduceSub])]
  simp (decide := true) only [decode7D, fS, zeroField_zero, extract_ofFields, bit_ofFields, bit_high, bit_bS, BitVec.extractLsb'_append_eq_of_add_le,
    BitVec.extractLsb'_append_eq_of_le, BitVec.extractLsb'_eq_self, -Nat.reduceAdd, Nat.reduceSub]
  all_goals rfl

theorem pmctlStop (o : FmtA) : Statement (.pmctlStop o) := by
  intro w hw hi
  cases hw
  refine of_shape ?_ hi
  rw [major7D (by simp (decide := true) only [fMajor, extract_ofFields, bit_ofFields, bit_high, bit_bS, BitVec.extractLsb'_append_eq_of_add_le,
    BitVec.extractLsb'_append_eq_of_le, BitVec.extractLsb'_eq_self, -Nat.reduceAdd, Nat.reduceSub])]
  simp (decide := true) only [decode7D, fS, zeroField_zero, extract_ofFields, bit_ofFields, bit_high, bit_bS, BitVec.extractLsb'_append_eq_of_add_le,
    BitVec.extractLsb'_append_eq_of_le, BitVec.extractLsb'_eq_self, -Nat.reduceAdd, Nat.reduceSub]
  all_goals rfl

theorem pmctlStart (o : FmtA) : Statement (.pmctlStart o) := by
  intro w hw hi
  cases hw
  refine of_shape ?_ hi
  rw [major7D (by simp (decide := true) only [fMajor, extract_ofFields, bit_ofFields, bit_high, bit_bS, BitVec.extractLsb'_append_eq_of_add_le,
    BitVec.extractLsb'_append_eq_of_le, BitVec.extractLsb'_eq_self, -Nat.reduceAdd, Nat.reduceSub])]
  simp (decide := true) only [decode7D, fS, zeroField_zero, extract_ofFields, bit_ofFields, bit_high, bit_bS, BitVec.extractLsb'_append_eq_of_add_le,
    BitVec.extractLsb'_append_eq_of_le, BitVec.extractLsb'_eq_self, -Nat.reduceAdd, Nat.reduceSub]
  all_goals rfl

theorem pmctlCapture (o : FmtA) : Statement (.pmctlCapture o) := by
  intro w hw hi
  cases hw
  refine of_shape ?_ hi
  rw [major7D (by simp (decide := true) only [fMajor, extract_ofFields, bit_ofFields, bit_high, bit_bS, BitVec.extractLsb'_append_eq_of_add_le,
    BitVec.extractLsb'_append_eq_of_le, BitVec.extractLsb'_eq_self, -Nat.reduceAdd, Nat.reduceSub])]
  simp (decide := true) only [decode7D, fS, zeroField_zero, extract_ofFields, bit_ofFields, bit_high, bit_bS, BitVec.extractLsb'_append_eq_of_add_le,
    BitVec.extractLsb'_append_eq_of_le, BitVec.extractLsb'_eq_self, -Nat.reduceAdd, Nat.reduceSub]
  all_goals rfl

theorem pmctlAbort (o : FmtA) : Statement (.pmctlAbort o) := by
  intro w hw hi
  cases hw
  refine of_shape ?_ hi
  rw [major7D (by simp (decide := true) only [fMajor, extract_ofFields, bit_ofFields, bit_high, bit_bS, BitVec.extractLsb'_append_eq_of_add_le,
    BitVec.extractLsb'_append_eq_of_le, BitVec.extractLsb'_eq_self, -Nat.reduceAdd, Nat.reduceSub])]
  simp (decide := true) only [decode7D, fS, zeroField_zero, extract_ofFields, bit_ofFields, bit_high, bit_bS, BitVec.extractLsb'_append_eq_of_add_le,
    BitVec.extractLsb'_append_eq_of_le, BitVec.extractLsb'_eq_self, -Nat.reduceAdd, Nat.reduceSub]
  all_goals rfl

theorem psig (o : FmtA) : Statement (.psig o) := by
  intro w hw hi
  cases hw
  refine of_shape ?_ hi
  rw [major7D (by simp (decide := true) only [fMajor, extract_ofFields, bit_ofFields, bit_high, bit_bS, BitVec.extractLsb'_append_eq_of_add_le,
    BitVec.extractLsb'_append_eq_of_le, BitVec.extractLsb'_eq_self, -Nat.reduceAdd, Nat.reduceSub])]
  simp (decide := true) only [decode7D, fS, zeroField_zero, extract_ofFields, bit_ofFields, bit_high, bit_bS, BitVec.extractLsb'_append_eq_of_add_le,
    BitVec.extractLsb'_append_eq_of_le, BitVec.extractLsb'_eq_self, -Nat.reduceAdd, Nat.reduceSub]
  all_goals rfl

theorem createContext (x0 : Nat) (x1 : List (Nat × Dword)) : Statement (.createContext x0 x1) := by intro w hw; cases hw

theorem destroyContext (x0 : Nat) : Statement (.destroyContext x0) := by intro w hw; cases hw

theorem rreg (x0 : Nat) (x1 : Nat) (x2 : Nat) (x3 : Nat) (x4 : Nat) (x5 : Nat) (x6 : Dword) : Statement (.rreg x0 x1 x2 x3 x4 x5 x6) := by intro w hw; cases hw

theorem mapPage (x0 : Nat) (x1 : Dword) (x2 : Dword) : Statement (.mapPage x0 x1 x2) := by intro w hw; cases hw

theorem unmapPage (x0 : Nat) (x1 : Dword) : Statement (.unmapPage x0 x1) := by intro w hw; cases hw

theorem readStatus (x0 : Nat) (x1 : Nat) (x2 : Nat) : Statement (.readStatus x0 x1 x2) := by intro w hw; cases hw

theorem resumePart : Statement (.resumePart) := by intro w hw; cases hw

theorem addPoolPages (x0 : Nat) (x1 : Nat) (x2 : Nat) (x3 : Nat) : Statement (.addPoolPages x0 x1 x2 x3) := by intro w hw; cases hw

theorem withdrawPoolPage (x0 : Nat) (x1 : Nat) : Statement (.withdrawPoolPage x0 x1) := by intro w hw; cases hw

theorem bootStatus : Statement (.bootStatus) := by intro w hw; cases hw

theorem download (x0 : Bool) (x1 : Nat) (x2 : List Byte) : Statement (.download x0 x1 x2) := by intro w hw; cases hw

theorem hostPost (x0 : Nat) (x1 : Nat) (x2 : List Word) : Statement (.hostPost x0 x1 x2) := by intro w hw; cases hw

theorem hostWrite (x0 : Nat) (x1 : Nat) (x2 : List Byte) : Statement (.hostWrite x0 x1 x2) := by intro w hw; cases hw

theorem hostRead (x0 : Nat) (x1 : Nat) (x2 : Nat) : Statement (.hostRead x0 x1 x2) := by intro w hw; cases hw

theorem messageDelivery (x0 : Nat) (x1 : Nat) : Statement (.messageDelivery x0 x1) := by intro w hw; cases hw

theorem mbsendAccept (x0 : GangId) : Statement (.mbsendAccept x0) := by intro w hw; cases hw

theorem loadReturn (x0 : GangId) (x1 : Nat) (x2 : Mask) (x3 : Ecc) : Statement (.loadReturn x0 x1 x2 x3) := by intro w hw; cases hw

theorem storeStamp (x0 : GangId) (x1 : Nat) (x2 : Mask) : Statement (.storeStamp x0 x1 x2) := by intro w hw; cases hw

theorem pageReturn (x0 : GangId) (x1 : Nat) (x2 : Mask) : Statement (.pageReturn x0 x1 x2) := by intro w hw; cases hw

theorem takeFault (x0 : GangId) : Statement (.takeFault x0) := by intro w hw; cases hw

theorem errorMessagePost (x0 : Nat) : Statement (.errorMessagePost x0) := by intro w hw; cases hw

theorem copyComplete (x0 : Nat) (x1 : Nat) : Statement (.copyComplete x0 x1) := by intro w hw; cases hw

theorem matrixOpStart (x0 : Nat) (x1 : Nat) : Statement (.matrixOpStart x0 x1) := by intro w hw; cases hw

theorem matrixOpComplete (x0 : Nat) (x1 : Nat) : Statement (.matrixOpComplete x0 x1) := by intro w hw; cases hw

theorem peerAddArrival (x0 : Nat) (x1 : Nat) : Statement (.peerAddArrival x0 x1) := by intro w hw; cases hw

theorem roundApply (x0 : Nat) (x1 : Nat) : Statement (.roundApply x0 x1) := by intro w hw; cases hw

theorem fmtsetApply (x0 : Nat) (x1 : Nat) : Statement (.fmtsetApply x0 x1) := by intro w hw; cases hw

theorem steal (x0 : Nat) (x1 : Nat) (x2 : Nat) : Statement (.steal x0 x1 x2) := by intro w hw; cases hw

theorem pop (x0 : Nat) (x1 : Nat) : Statement (.pop x0 x1) := by intro w hw; cases hw

theorem taskStart (x0 : Nat) (x1 : Nat) : Statement (.taskStart x0 x1) := by intro w hw; cases hw

theorem blockFold (x0 : Nat) (x1 : Nat) : Statement (.blockFold x0 x1) := by intro w hw; cases hw

theorem resumeTask (x0 : Nat) (x1 : Nat) : Statement (.resumeTask x0 x1) := by intro w hw; cases hw

theorem rootFold (x0 : Nat) (x1 : Nat) : Statement (.rootFold x0 x1) := by intro w hw; cases hw

theorem jtabRetry (x0 : GangId) : Statement (.jtabRetry x0) := by intro w hw; cases hw

theorem rowGrant (x0 : Nat) : Statement (.rowGrant x0) := by intro w hw; cases hw

theorem stallDeclared (x0 : Nat) : Statement (.stallDeclared x0) := by intro w hw; cases hw

theorem escapeSpill (x0 : Nat) : Statement (.escapeSpill x0) := by intro w hw; cases hw

theorem spillReentry (x0 : GangId) : Statement (.spillReentry x0) := by intro w hw; cases hw

theorem l2Eviction (x0 : Nat) (x1 : Nat) (x2 : Nat) : Statement (.l2Eviction x0 x1 x2) := by intro w hw; cases hw

theorem capturePassEnd (x0 : Nat) : Statement (.capturePassEnd x0) := by intro w hw; cases hw

theorem quantumExpiry (x0 : Nat) : Statement (.quantumExpiry x0) := by intro w hw; cases hw

theorem preemption (x0 : Nat) (x1 : Nat) : Statement (.preemption x0 x1) := by intro w hw; cases hw

theorem contextSave (x0 : Nat) (x1 : Nat) : Statement (.contextSave x0 x1) := by intro w hw; cases hw

theorem contextRestore (x0 : Nat) (x1 : Nat) : Statement (.contextRestore x0 x1) := by intro w hw; cases hw

theorem linkFlitReceive (x0 : Nat) (x1 : Flit) (x2 : Bool) : Statement (.linkFlitReceive x0 x1 x2) := by intro w hw; cases hw

theorem portDown (x0 : Nat) (x1 : Bool) : Statement (.portDown x0 x1) := by intro w hw; cases hw

theorem e2eRetransmit (x0 : Nat) (x1 : Nat) (x2 : Nat) : Statement (.e2eRetransmit x0 x1 x2) := by intro w hw; cases hw

theorem linkReconnect (x0 : Nat) : Statement (.linkReconnect x0) := by intro w hw; cases hw

theorem powerUp : Statement (.powerUp) := by intro w hw; cases hw

theorem coldReset : Statement (.coldReset) := by intro w hw; cases hw

theorem warmReset : Statement (.warmReset) := by intro w hw; cases hw

theorem supplyDroop (x0 : Nat) : Statement (.supplyDroop x0) := by intro w hw; cases hw

theorem supplyRecover (x0 : Nat) : Statement (.supplyRecover x0) := by intro w hw; cases hw

theorem eccCountReport : Statement (.eccCountReport) := by intro w hw; cases hw

theorem hostReceive (x0 : Nat) (x1 : HostQueue) : Statement (.hostReceive x0 x1) := by intro w hw; cases hw

end Sys2Proof.Laws.RoundTrip
end

