-- ==== Sys2Proof/Safety.lean ====
section
/-! DEFINITION. The terms statements use: what a safe run is, what a unit may change besides its result, where it goes on,
and when it issues. -/
namespace Sys2Proof.Safety
open Sys2Proof.Machine

/-- The scratch and the tiles of a crew are in canonical form. -/
def crewOk (c : Crew) : Bool := Memory.wf c.scratch && Memory.wf c.tiles

/-- Every store of bytes is in canonical form: physical memory, what the memory-side caches and HBM4 hold of it, the scratch and
the tiles of each crew, those that a capture holds included. -/
def memoryOk (s : State) : Bool :=
  Memory.wf s.mem && Memory.wf s.side && Memory.wf s.hbm && s.crews.all crewOk &&
    s.contexts.all fun c => (c.capture.map fun k => crewOk k.crewAt).getD true

/-- The machine goes on. -/
def goesOn (r : Host.Outcome State Fault Refusal) : Prop := ∃ t, r = .next t

/-- Every one of n steps answers a next state. -/
def safeFor : Nat → State → Prop
  | 0, _ => True
  | n + 1, s => ∃ t, step s = .next t ∧ safeFor n t

/-! ## When a unit issues, and where it goes on -/

/-- The gang in issue is there and may run a unit of that kind: privileged only in supervisor mode, a serial one only in
its turn (R44, R109). -/
def mayRun (k : UnitKind) (s : State) : Prop :=
  s.cur.live = true ∧ (k.priv = true → s.cur.supervisor = true) ∧ (k.serial = true → s.cur.serialTurn = true)

/-- The address after a unit: the resume address under a re-execution (R141), else the next one. -/
def after (g : Gang) (len : Nat) : Pc :=
  match g.ctl.redo with
  | some r => r.resume
  | none => g.ctl.pc + BitVec.ofNat 57 len

/-- The fragment in issue parks at an address: it is the join address of its split (R43). A handler does not park in the
split of the fragment that it serves. -/
def parks (g : Gang) (pc : Pc) : Bool :=
  match g.frag.bind g.entry? with
  | some e => g.liveSplit e.split && pc == e.join
  | none => false

/-- Control goes on at an address under the same execution mask, unless the fragment parks there. -/
def goesTo (s t : State) (pc : Pc) : Prop :=
  parks s.cur pc = false → t.cur.ctl.pc = pc ∧ t.cur.ctl.mask = s.cur.ctl.mask ∧ t.cur.frag = s.cur.frag ∧ t.cur.ctl.wait = .ready

/-! ## What a unit leaves alone -/

/-- A gang without its control, its place in a split, its place at a barrier and its count of units. -/
def calmGang (g : Gang) : Gang :=
  { g with ctl := emptyCtl, frag := none, table := [], splits := [], retired := 0, barAt := none }

/-- A core without its counts. -/
def calmCore (c : CoreSt) : CoreSt := { c with units := 0, ctrVal := [], ctrRan := 0 }

/-- The machine without the gang in issue's control and counts, without its cores, and without the model's own note of what the
clusters have seen (log 83). -/
def calm (s : State) : State := { s with cur := calmGang s.cur, cores := [], fetches := 0, floors := [] }

/-- Between two states only control of the gang in issue and counts differ. -/
def calmly (s t : State) : Prop := calm t = calm s ∧ ∀ n, calmCore (t.core n) = calmCore (s.core n)

/-- A frame without its registers and unused rows. -/
def bareFrame (f : Frame) : Frame := { f with regs := [], spare := 0 }

/-- A gang without the contents of its top frame and what it has of the allocator's rows. -/
def bareGang (g : Gang) : Gang :=
  { calmGang (g.modTop bareFrame) with
    emergRows := 0, emergCompact := 0, grantRows := 0, grantCompact := 0, grantMade := false, chosen := false }

/-- A core without its counts and free rows. -/
def bareCore (c : CoreSt) : CoreSt := { calmCore c with pool := 0, reserve := 0, poolC := 0, reserveC := 0 }

/-- The machine without what a unit that writes registers may change besides them, and without its cores. -/
def bare (s : State) : State :=
  { s with
    cur := bareGang s.cur
    others := s.others.map fun g => { g with chosen := false }
    cores := [], fetches := 0, floors := [] }

/-- Between two states only control of the gang in issue, the registers of its top frame, rows and counts differ. -/
def barely (s t : State) : Prop := bare t = bare s ∧ ∀ n, bareCore (t.core n) = bareCore (s.core n)

/-- Between two states only the registers ds of the top frame differ, with control, counts and rows: every other register,
mask, status, special and exception register, every byte of memory and every other part of the machine is as it was. -/
def onlyRegs (ds : List Nat) (s t : State) : Prop :=
  barely s t ∧ t.cur.regs.length = s.cur.regs.length ∧ ∀ r, r ∉ ds → t.cur.reg r = s.cur.reg r

/-! ## Rows (R55, R58, R61) -/

/-- The gang in issue obtains n rows at once: unused rows of its frame, a grant made for it, or the pool within its quota
and without passing an older waiter. -/
def rowsFree (s : State) (n : Nat) : Prop :=
  let own := min n ((s.cur.frames.head?.map Frame.spare).getD 0)
  n - own = 0 ∨ (s.cur.grantMade = true ∧ n - own ≤ s.cur.grantRows) ∨
    (s.cur.held + (n - own) ≤ s.quotaRows s.cur ∧ n - own ≤ (s.coreOf s.cur).pool ∧ s.headroom s.cur (n - own) = true ∧
      s.bypasses s.cur s.tick = false)

end Sys2Proof.Safety
end

