-- ==== Sys2Proof/Spec.lean ====
section
/-! DEFINITION. Results as the rules of the spec give them, lane by lane, for the statements: exact arithmetic on numbers,
narrowed at the end. -/
namespace Sys2Proof.Spec
open Sys2Proof.Machine

/-! ## Results of the integer instructions (R167 to R182) -/

/-- A number narrowed to a word. -/
def word (x : Int) : Word := BitVec.ofInt 32 x

/-- The n bits that a function gives. -/
def fromBits : (n : Nat) → (Nat → Bool) → BitVec n
  | 0, _ => 0#0
  | n + 1, f => BitVec.cons (f n) (fromBits n f)

/-- Number of bits set (R174). -/
def onesOf (x : Word) : Nat := (List.range 32).countP fun i => x.getLsbD i

/-- Zero bits above the highest one, 32 of zero (R174). -/
def leadingZeros (x : Word) : Nat := if x.toNat = 0 then 32 else 31 - x.toNat.log2

/-- Zero bits below the lowest one, 32 of zero (R174). -/
def trailingZeros (x : Word) : Nat := ((List.range 32).find? fun i => x.getLsbD i).getD 32

/-- Offset and width of a control word (R176). -/
def fieldAt (c : Word) : Nat := c.toNat % 32
def fieldWidth (c : Word) : Nat := c.toNat / 256 % 32 + 1

/-- A number of w bits read as two's complement. -/
def signedField (w : Nat) (x : Int) : Int := if x % 2 ^ w < 2 ^ (w - 1) then x % 2 ^ w else x % 2 ^ w - 2 ^ w

/-- The result tag of an instruction whose result is U for U sources and G otherwise (R53). -/
def plainTag (tags : List (BitVec 2)) : BitVec 2 := if tags.all fun t => t == 0 then 0 else 2

/-- The result tag of a sum or difference (R53): U, else A when no source is G. -/
def sumTag (tags : List (BitVec 2)) : BitVec 2 :=
  if tags.all fun t => t == 0 then 0 else if tags.all fun t => t != 2 then 1 else 2

/-- The result tag of `imul` (R53): A for A with U. -/
def productTag (a b : BitVec 2) : BitVec 2 :=
  if a = 0 ∧ b = 0 then 0 else if (a = 1 ∧ b = 0) ∨ (a = 0 ∧ b = 1) then 1 else 2

/-! ## Instructions with one register result, of fixed latency -/

/-- What an instruction reads and what it leaves in its destination. -/
structure LaneRule where
  kind : UnitKind
  dst : BitVec 7
  /-- Registers read, which must be ready (R128). -/
  reads : List (BitVec 7)
  /-- Registers that must be U (R128). -/
  uniform : List (BitVec 7)
  /-- The result in a lane. -/
  val : Gang → Nat → Word
  /-- The tag of the result before a partial write promotes it (R53, R54). -/
  tag : Gang → BitVec 2

/-- Two sources, lane by lane, with the tag rule. -/
def rule2 (o : FmtDAB) (tag : List (BitVec 2) → BitVec 2) (f : Word → Word → Word) : LaneRule :=
  { kind := vectorUnit, dst := o.d, reads := [o.a, o.b], uniform := []
    val := fun g l => f (g.lane o.a.toNat l) (g.lane o.b.toNat l)
    tag := fun g => tag [(g.val o.a.toNat).tag, (g.val o.b.toNat).tag] }

/-- Two sources and the old destination. -/
def rule3 (o : FmtDAB) (f : Word → Word → Word → Word) : LaneRule :=
  { kind := vectorUnit, dst := o.d, reads := [o.a, o.b, o.d], uniform := []
    val := fun g l => f (g.lane o.a.toNat l) (g.lane o.b.toNat l) (g.lane o.d.toNat l)
    tag := fun g => plainTag [(g.val o.a.toNat).tag, (g.val o.b.toNat).tag, (g.val o.d.toNat).tag] }

/-- One source. -/
def rule1 (d a : BitVec 7) (tag : List (BitVec 2) → BitVec 2) (f : Word → Word) : LaneRule :=
  { kind := vectorUnit, dst := d, reads := [a], uniform := []
    val := fun g l => f (g.lane a.toNat l)
    tag := fun g => tag [(g.val a.toNat).tag] }

/-- A uniform value that depends on the gang. -/
def ruleU (kind : UnitKind) (d : BitVec 7) (f : Gang → Word) : LaneRule :=
  { kind := kind, dst := d, reads := [], uniform := [], val := fun g _ => f g, tag := fun _ => 0 }

/-- `sel`: the mask chooses, U only under m0 with U sources (R180). -/
def selRule (o : FmtSel) : LaneRule :=
  { kind := vectorUnit, dst := o.d, reads := [o.a, o.b], uniform := []
    val := fun g l => if inMask (g.mask o.k.toNat) l then g.lane o.a.toNat l else g.lane o.b.toNat l
    tag := fun g => if o.k = 0 then plainTag [(g.val o.a.toNat).tag, (g.val o.b.toNat).tag] else 2 }

/-- `movl`: base and stride (R181). -/
def movlRule (o : FmtDAB) : LaneRule :=
  { kind := vectorUnit, dst := o.d, reads := [o.a, o.b], uniform := [o.a, o.b]
    val := fun g l => word ((g.lane o.a.toNat 0).toNat + l * (g.lane o.b.toNat 0).toNat)
    tag := fun _ => 1 }

/-- Lanes of the source exchanged or repeated. -/
def crossRule (d a : BitVec 7) (tag : BitVec 2) (src : Nat → Nat) : LaneRule :=
  { kind := crossUnit, dst := d, reads := [a], uniform := [], val := fun g l => g.lane a.toNat (src l), tag := fun _ => tag }

/-- Left shift, the two right shifts and the rotation by any amount (R172). -/
def shlTo (x s : Word) : Word := word (x.toNat * 2 ^ s.toNat)
def shrTo (x s : Word) : Word := word (x.toNat / 2 ^ s.toNat)
def sarTo (x s : Word) : Word := word (x.toInt / 2 ^ s.toNat)
def rotTo (x s : Word) : Word := word (x.toNat * 2 ^ (s.toNat % 32) + x.toNat / 2 ^ (32 - s.toNat % 32))

/-- The integer rules, R167 to R182. -/
def integerRule : Instr → Option LaneRule
  | .iadd o => some (rule2 o sumTag fun x y => word (x.toNat + y.toNat))
  | .isub o => some (rule2 o sumTag fun x y => word (x.toNat - y.toNat))
  | .iaddc o => some (rule2 o plainTag fun x y => if 2 ^ 32 ≤ x.toNat + y.toNat then 1 else 0)
  | .isubb o => some (rule2 o plainTag fun x y => if x.toNat < y.toNat then 1 else 0)
  | .iaddi o => some (rule1 o.d o.a sumTag fun x => word (x.toNat + o.imm.toInt))
  | .imul o => some (rule2 o (fun t => productTag (t.getD 0 0) (t.getD 1 0)) fun x y => word (x.toNat * y.toNat))
  | .imulh o => some (rule2 o plainTag fun x y => word (x.toInt * y.toInt / 2 ^ 32))
  | .imulhu o => some (rule2 o plainTag fun x y => word (x.toNat * y.toNat / 2 ^ 32))
  | .imad o => some (rule3 o fun x y d => word (x.toNat * y.toNat + d.toNat))
  | .and o => some (rule2 o plainTag fun x y => x &&& y)
  | .or o => some (rule2 o plainTag fun x y => x ||| y)
  | .xor o => some (rule2 o plainTag fun x y => x ^^^ y)
  | .andn o => some (rule2 o plainTag fun x y => x &&& ~~~y)
  | .andi o => some (rule1 o.d o.a plainTag fun x => x &&& word o.imm.toInt)
  | .ori o => some (rule1 o.d o.a plainTag fun x => x ||| word o.imm.toInt)
  | .xori o => some (rule1 o.d o.a plainTag fun x => x ^^^ word o.imm.toInt)
  | .shl o => some (rule2 o plainTag shlTo)
  | .shr o => some (rule2 o plainTag shrTo)
  | .sar o => some (rule2 o plainTag sarTo)
  | .rot o => some (rule2 o plainTag rotTo)
  | .shli o => some (rule1 o.d o.a plainTag fun x => shlTo x (o.amt.setWidth 32))
  | .shri o => some (rule1 o.d o.a plainTag fun x => shrTo x (o.amt.setWidth 32))
  | .sari o => some (rule1 o.d o.a plainTag fun x => sarTo x (o.amt.setWidth 32))
  | .roti o => some (rule1 o.d o.a plainTag fun x => rotTo x (o.amt.setWidth 32))
  | .popc o => some (rule1 o.d o.a plainTag fun x => word (onesOf x))
  | .clz o => some (rule1 o.d o.a plainTag fun x => word (leadingZeros x))
  | .ctz o => some (rule1 o.d o.a plainTag fun x => word (trailingZeros x))
  | .brev o => some (rule1 o.d o.a plainTag fun x => fromBits 32 fun i => x.getLsbD (31 - i))
  | .ineg o => some (rule1 o.d o.a plainTag fun x => word (2 ^ 32 - x.toNat))
  | .iabs o => some (rule1 o.d o.a plainTag fun x => word (if x.toNat < 2 ^ 31 then x.toNat else 2 ^ 32 - x.toNat))
  | .imin o => some (rule2 o plainTag fun x y => word (min x.toInt y.toInt))
  | .imax o => some (rule2 o plainTag fun x y => word (max x.toInt y.toInt))
  | .umin o => some (rule2 o plainTag fun x y => word (min x.toNat y.toNat))
  | .umax o => some (rule2 o plainTag fun x y => word (max x.toNat y.toNat))
  | .bfx o => some (rule2 o plainTag fun x c => word (signedField (fieldWidth c) (x.toInt / 2 ^ fieldAt c)))
  | .bfxu o => some (rule2 o plainTag fun x c => word (x.toNat / 2 ^ fieldAt c % 2 ^ fieldWidth c))
  | .bfi o => some (rule3 o fun x c d => fromBits 32 fun i =>
      if fieldAt c ≤ i ∧ i < fieldAt c + fieldWidth c then x.getLsbD (i - fieldAt c) else d.getLsbD i)
  | .sel o => some (selRule o)
  | .mov o => some (rule1 o.d o.a (fun t => t.getD 0 0) id)
  | .movl o => some (movlRule o)
  | .movi o => some (ruleU vectorUnit o.d fun _ => word o.imm.toInt)
  | _ => none

/-- The cross-lane and gang-wide rules: R148, R149, R185, R187, R188, R190, R194. -/
def gangRule (s : State) : Instr → Option LaneRule
  | .vxsh o => some (crossRule o.d o.a 2 fun l => l ^^^ 128 / 2 ^ o.k.toNat)
  | .vrot o => some (crossRule o.d o.a 2 fun l => (l + o.imm.toNat) % 128)
  | .vbcast o => some (crossRule o.d o.a 0 fun _ => o.lane.toNat)
  | .mpop o => some (ruleU vectorUnit o.d fun g =>
      word (((List.range 128).filter fun l => inMask (g.mask o.a.toNat) l && inMask g.ctl.mask l).length))
  | .mfirst o => some (ruleU vectorUnit o.d fun g =>
      word ((((List.range 128).find? fun l => inMask (g.mask o.a.toNat) l && inMask g.ctl.mask l).getD 128 : Nat)))
  | .pedq o => some (ruleU vectorUnit o.d fun g =>
      if o.i.toNat ≤ pedDepth g.ped then (pedElem g.ped o.i.toNat).setWidth 32 else 0)
  | .pedkey o => some (ruleU vectorUnit o.d fun g => pedKey g.ped)
  | .getmode o => some (ruleU serialUnit o.d fun g =>
      (g.mode &&& 0x03FFFFFF#32) ||| if (s.ctx g.id.ctx).strict then 0x04000000#32 else 0)
  | _ => none

/-- What a register-result instruction needs to complete: its registers are in the frame, those it reads are ready, the
uniform ones U, its destination not pending, and the row it may need is free (R51, R55, R128, R164). -/
def LaneRule.ready (r : LaneRule) (s : State) : Prop :=
  (∀ x ∈ r.dst :: r.reads, x.toNat < s.cur.regs.length) ∧ (∀ x ∈ r.uniform, (s.cur.val x.toNat).tag = 0) ∧
    (∀ x ∈ r.reads, (s.cur.reg x.toNat).pend = none) ∧
    (s.cur.act ≠ 0 → (s.cur.reg r.dst.toNat).pend = none ∧
      ((s.cur.val r.dst.toNat).tag ≠ 2 → (r.tag s.cur = 2 ∨ s.cur.act ≠ allLanes) → Safety.rowsFree s 1))

/-- What it leaves in its destination: in every lane of act the value of the rule, the old value elsewhere; the tag of
R53, G when some lane keeps its value (R54); nothing at all when no lane is active. -/
def LaneRule.result (r : LaneRule) (s t : State) : Prop :=
  (s.cur.act = 0 → t.cur.reg r.dst.toNat = s.cur.reg r.dst.toNat) ∧
    (s.cur.act ≠ 0 → (t.cur.reg r.dst.toNat).pend = none ∧
      (t.cur.val r.dst.toNat).tag = (if s.cur.act = allLanes then r.tag s.cur else 2) ∧
      ∀ l, l < 128 → t.cur.lane r.dst.toNat l = if inMask s.cur.act l then r.val s.cur l else s.cur.lane r.dst.toNat l)

/-! ## Instructions whose result is a mask (R177, R178, R184, R185) -/

/-- What an instruction reads and the bit it gives each lane of act. -/
structure MaskRule where
  dst : BitVec 3
  reads : List Nat
  uniform : List Nat
  bit : Gang → Nat → Bool

/-- The comparison of R103 on two numbers and their unsigned values. -/
def compares (c : BitVec 4) (x y : Int) (ux uy : Nat) : Bool :=
  match c.toNat with
  | 0 => decide (x = y)
  | 1 => decide (x ≠ y)
  | 2 => decide (x < y)
  | 3 => decide (x ≤ y)
  | 4 => decide (y < x)
  | 5 => decide (y ≤ x)
  | 6 => decide (ux < uy)
  | 7 => decide (ux ≤ uy)
  | 8 => decide (uy < ux)
  | 9 => decide (uy ≤ ux)
  | 10 => true
  | _ => false

/-- A comparison of words or pairs. -/
def comparesWords {k : Nat} (c : BitVec 4) (x y : BitVec k) : Bool := compares c x.toInt y.toInt x.toNat y.toNat

/-- An operation on masks. -/
def maskRule (d : BitVec 3) (f : Gang → Nat → Bool) : MaskRule := { dst := d, reads := [], uniform := [], bit := f }

/-- The rules of the mask results. -/
def maskResult : Instr → Option MaskRule
  | .icmp o => some
      { dst := o.m, reads := [o.a.toNat, o.b.toNat], uniform := [], bit := fun g l => comparesWords o.c (g.lane o.a.toNat l) (g.lane o.b.toNat l) }
  | .icmpD o => some
      { dst := o.m, reads := [o.a.toNat, o.a.toNat + 1, o.b.toNat, o.b.toNat + 1], uniform := []
        bit := fun g l => comparesWords o.c (g.lane (o.a.toNat + 1) l ++ g.lane o.a.toNat l) (g.lane (o.b.toNat + 1) l ++ g.lane o.b.toNat l) }
  | .icmpi o => some
      { dst := o.m, reads := [o.a.toNat], uniform := [], bit := fun g l => comparesWords o.c (g.lane o.a.toNat l) (word o.imm.toInt) }
  | .mand o => some (maskRule o.d fun g l => inMask (g.mask o.a.toNat) l && inMask (g.mask o.b.toNat) l)
  | .mor o => some (maskRule o.d fun g l => inMask (g.mask o.a.toNat) l || inMask (g.mask o.b.toNat) l)
  | .mxor o => some (maskRule o.d fun g l => inMask (g.mask o.a.toNat) l != inMask (g.mask o.b.toNat) l)
  | .mandn o => some (maskRule o.d fun g l => inMask (g.mask o.a.toNat) l && !inMask (g.mask o.b.toNat) l)
  | .mnot o => some (maskRule o.d fun g l => !inMask (g.mask o.a.toNat) l)
  | .ballot o => some { dst := o.d, reads := [o.a.toNat], uniform := [], bit := fun g l => g.lane o.a.toNat l != 0 }
  | .mset o => some
      { dst := o.d, reads := [o.a.toNat], uniform := [o.a.toNat], bit := fun g l => decide (l < (g.lane o.a.toNat 0).toNat) }
  | _ => none

/-- What a mask-result instruction needs to complete. -/
def MaskRule.ready (r : MaskRule) (s : State) : Prop :=
  (∀ x ∈ r.reads, x < s.cur.regs.length ∧ (s.cur.reg x).pend = none) ∧ ∀ x ∈ r.uniform, (s.cur.val x).tag = 0

/-- What it leaves: the bits of the lanes of act in its mask (m0 is never written); nothing else but control and counts. -/
def MaskRule.result (r : MaskRule) (s t : State) : Prop :=
  Safety.calmly s { t with cur := { t.cur with masks := s.cur.masks } } ∧
    ∀ m l, m ≤ 7 → l < 128 → inMask (t.cur.mask m) l =
      if m = r.dst.toNat ∧ m ≠ 0 ∧ inMask s.cur.act l = true then r.bit s.cur l else inMask (s.cur.mask m) l

/-! ## Instructions that change status, streams or nothing -/

/-- What an instruction without register or mask result needs, and the state it leaves but for control and counts. -/
structure EffectRule where
  kind : UnitKind
  needs : State → Prop
  effect : State → State

/-- U registers that exist and are ready (R51, R128). -/
def uniformReady (s : State) (rs : List Nat) : Prop :=
  ∀ r ∈ rs, r < s.cur.regs.length ∧ (s.cur.val r).tag = 0 ∧ (s.cur.reg r).pend = none

/-- The registers of a pair. -/
def both (r : BitVec 7) : List Nat := [r.toNat, r.toNat + 1]

/-- The value of a uniform pair. -/
def pairAt (s : State) (r : BitVec 7) : Dword := s.cur.lane (r.toNat + 1) 0 ++ s.cur.lane r.toNat 0

/-- `$CC` after a comparison: bit 0 equal, bit 1 less as signed, bit 2 less as unsigned numbers (R67, R179). -/
def comparedCc {k : Nat} (x y : BitVec k) : Word :=
  fromBits 32 fun i => match i with
    | 0 => decide (x.toNat = y.toNat)
    | 1 => decide (x.toInt < y.toInt)
    | 2 => decide (x.toNat < y.toNat)
    | _ => false

/-- No late floating-point result is outstanding (R197). -/
def lateQuiet (s : State) : Prop :=
  ∀ f ∈ s.cur.flights, f.finished = true ∨ ∀ fl tr sn, f.op ≠ .late fl tr sn

/-- Word w of a register of 64 or 128 bits replaced. -/
def withWord {k : Nat} (x : BitVec k) (w : Nat) (v : Word) : BitVec k :=
  fromBits k fun i => if 32 * w ≤ i ∧ i < 32 * w + 32 then v.getLsbD (i - 32 * w) else x.getLsbD i

/-- What `mts` writes, by the number of the register (R57, R196): the bits that exist; bits 15:12 and 63:44 of `$FAULT` do
not (R336). -/
def specialWritten (g : Gang) (num : BitVec 5) (w : Nat) (v : Word) : Gang :=
  match num.toNat with
  | 5 => { g with mode := v &&& 0x03FFFFFF }
  | 6 => { g with cc := v &&& 0x7 }
  | 7 => { g with fstat := v &&& 0x1F }
  | 8 => { g with ftrap := v &&& 0x3F }
  | 9 => { g with tmask := withWord g.tmask w v }
  | 10 => { g with faultRec := fromBits 128 fun i =>
      (withWord g.faultRec w v).getLsbD i && !(12 ≤ i && i < 16) && !(44 ≤ i && i < 64) }
  | 11 => { g with rng := withWord g.rng w v }
  | _ => g

/-- The mode word after `setmode`: the bits below 26 that the mask selects come from the value (R194). -/
def maskedMode (mode v m : Word) : Word :=
  fromBits 32 fun i => if i < 26 ∧ m.getLsbD i = true then v.getLsbD i else mode.getLsbD i

/-- One step of the random stream (R151). -/
def streamStep (x : Dword) : Dword := 0xB5AD4ECEDA1CE2A9 * x + 0x6A4D

/-- The stream after n steps (R151). -/
def streamAfter (x : Dword) : Nat → Dword
  | 0 => x
  | n + 1 => streamStep (streamAfter x n)

/-- The rules of status and streams: R100, R147, R151, R157, R179, R194, R196, R198, R295. `yield` ends the turn of the gang
in issue: that turn is the model's choice (log 1), R147 gives `yield` no other effect. -/
def statusRule : Instr → Option EffectRule
  | .nop _ => some { kind := control, needs := fun _ => True, effect := id }
  | .ucmp o => some
      { kind := crossUnit, needs := fun s => uniformReady s [o.a.toNat, o.b.toNat]
        effect := fun s => s.modCur fun g => { g with cc := comparedCc (g.lane o.a.toNat 0) (g.lane o.b.toNat 0) } }
  | .ucmpD o => some
      { kind := crossUnit, needs := fun s => uniformReady s (both o.a ++ both o.b)
        effect := fun s => s.modCur fun g => { g with cc := comparedCc (pairAt s o.a) (pairAt s o.b) } }
  | .setmode o => some
      { kind := serialUnit, needs := fun s => uniformReady s [o.a.toNat, o.b.toNat]
        effect := fun s => s.modCur fun g => { g with mode := maskedMode g.mode (g.lane o.a.toNat 0) (g.lane o.b.toNat 0) } }
  | .mts o => some
      { kind := { serialUnit with priv := o.num.toNat == 9 || o.num.toNat == 10 }
        needs := fun s => uniformReady s [o.a.toNat] ∧ (o.num.toNat = 7 ∨ o.num.toNat = 8 → lateQuiet s)
        effect := fun s => s.modCur fun g => specialWritten g o.num o.w.toNat (g.lane o.a.toNat 0) }
  | .fclr _ => some
      { kind := serialUnit, needs := lateQuiet
        effect := fun s => s.modCur fun g => { g with fstat := g.fstat &&& 0xFFFFFFE0 } }
  | .rseed o => some
      { kind := serialUnit, needs := fun s => uniformReady s (both o.a)
        effect := fun s => s.modCur fun g =>
          { g with rng := streamAfter (pairAt s o.a) (2 ^ 32 * (pedKey g.ped).toNat) } }
  | .rjump o => some
      { kind := serialUnit, needs := fun s => uniformReady s (both o.a)
        effect := fun s => s.modCur fun g => { g with rng := streamAfter g.rng (pairAt s o.a).toNat } }
  | .yield _ => some { kind := control, needs := fun _ => True, effect := fun s => { s with streak := Config.turnUnits } }
  | _ => none

/-! ## Control transfers (R131 to R139) -/

/-- The conditions of `bcc` (R103) on the EQ, LT and LTU bits of `$CC`. -/
def condition (cc : Word) (c : BitVec 4) : Bool :=
  match c.toNat with
  | 0 => cc.getLsbD 0
  | 1 => !cc.getLsbD 0
  | 2 => cc.getLsbD 1
  | 3 => cc.getLsbD 1 || cc.getLsbD 0
  | 4 => !cc.getLsbD 1 && !cc.getLsbD 0
  | 5 => !cc.getLsbD 1
  | 6 => cc.getLsbD 2
  | 7 => cc.getLsbD 2 || cc.getLsbD 0
  | 8 => !cc.getLsbD 2 && !cc.getLsbD 0
  | 9 => !cc.getLsbD 2
  | 10 => true
  | _ => false

/-- No lane of a mask register is in the execution mask (R133). -/
def maskEmpty (g : Gang) (m : BitVec 3) : Bool :=
  (List.range 128).all fun l => !(inMask (g.mask m.toNat) l && inMask g.ctl.mask l)

/-- A branch: whether it is taken, its word offset, whether `$SIG` counts it (R352). -/
structure Branch where
  taken : Bool
  offset : Int
  signed : Bool

def branchOf (s : State) : Instr → Option Branch
  | .br o => some { taken := true, offset := o.off.toInt, signed := false }
  | .bcc o => some { taken := condition s.cur.cc o.cond, offset := o.off.toInt, signed := true }
  | .bmz o => some { taken := maskEmpty s.cur o.m, offset := o.off.toInt, signed := true }
  | .bmnz o => some { taken := !maskEmpty s.cur o.m, offset := o.off.toInt, signed := true }
  | _ => none

/-- The mixing step of `$SIG` (R352). -/
def mixed (x : Dword) : Dword := (x ^^^ (x >>> 31)) * 0x9C6D2E51B3A70F43

/-- `$SIG` after a contribution in user mode (R352). -/
def contributed (g : Gang) (a : Dword) (tag : Nat) : Gang :=
  if g.supervisor then g else { g with sig := g.sig + mixed (a * 8 + BitVec.ofNat 64 tag) }

/-- Rows and compact store for a frame are there at once: a grant made for it, or the pool within the quota and without
passing an older waiter (R58, R60, R61). -/
def frameFree (s : State) (rows compact : Nat) : Prop :=
  (rows = 0 ∧ compact = 0) ∨ (s.cur.grantMade = true ∧ rows ≤ s.cur.grantRows ∧ compact ≤ s.cur.grantCompact) ∨
    (s.cur.held + rows ≤ s.quotaRows s.cur ∧ rows ≤ (s.coreOf s.cur).pool ∧ compact ≤ (s.coreOf s.cur).poolC ∧
      s.headroom s.cur rows = true ∧ s.bypasses s.cur s.tick = false)

/-- Registers and rows of a demand field (R58): 0 stands for 128 registers. -/
def regsOf (nf : BitVec 4) : Nat := if nf = 0 then 128 else 8 * nf.toNat
def rowsOf (gf : BitVec 4) : Nat := 8 * gf.toNat

/-- A register that nothing has written in its frame: U with value 0 (R60). -/
def freshReg : Reg := { val := .u 0, pend := none }

/-- The frames after pushing one that shares the caller's top eight registers (R60). -/
def pushed (fs : List Frame) (f : Frame) : List Frame :=
  match fs with
  | [] => [{ f with regs := List.replicate (regsOf f.nf) freshReg }]
  | c :: r =>
    { f with regs := c.regs.drop (c.regs.length - 8) ++ List.replicate (regsOf f.nf - 8) freshReg } ::
      { c with regs := c.regs.take (c.regs.length - 8) } :: r

/-- The header of a callee's frame (R66, R136). -/
def calleeFrame (ret : Pc) (nf gf : BitVec 4) (mark : Bool) : Frame :=
  { ret := ret, nf := nf, gf := gf, marked := mark, flattened := false, handler := false, splitMade := false,
    spare := rowsOf gf, regs := [], save := noSave }

/-- A call: target, demand, mark, and what its operands need (R136, R137). -/
structure CallRule where
  target : Pc
  nf : BitVec 4
  gf : BitVec 4
  mark : Bool
  needs : Prop

/-- The target of a far call or branch: eight-byte units from the PC rounded down (R99). -/
def farFrom (pc : Pc) (off : Int) : Pc := BitVec.ofInt 57 ((pc.toNat / 8 * 8 : Nat) + 8 * off)

/-- A call through registers: its pair and its demand word are uniform and ready, the target is below 2^57 and a multiple
of 8, the demand has no bit above 7 (R137). -/
def callThrough (s : State) (o : FmtAB) (mark : Bool) : CallRule :=
  let w := s.cur.lane o.b.toNat 0
  let p := pairAt s o.a
  { target := p.setWidth 57, nf := w.extractLsb' 0 4, gf := w.extractLsb' 4 4, mark := mark
    needs := uniformReady s (both o.a ++ [o.b.toNat]) ∧ w.toNat < 256 ∧ p.toNat < 2 ^ 57 ∧ p.toNat % 8 = 0 }

def callOf (s : State) : Instr → Option CallRule
  | .call o => some { target := farFrom s.cur.ctl.pc o.off.toInt, nf := o.n, gf := o.g, mark := false, needs := True }
  | .callM o => some { target := farFrom s.cur.ctl.pc o.off.toInt, nf := o.n, gf := o.g, mark := true, needs := True }
  | .callr o => some (callThrough s o false)
  | .callrM o => some (callThrough s o true)
  | _ => none

/-- Between two states only control, frames, rows and counts differ. -/
def framesOnly (s t : State) : Prop := Safety.barely { s with cur := { s.cur with frames := t.cur.frames } } t

/-- The split of the fragment in issue was made in one of its top k frames (R44). -/
def splitWithin (s : State) (k : Nat) : Prop :=
  ∃ e sp, s.cur.frag.bind s.cur.entry? = some e ∧ s.cur.split? e.split = some sp ∧ s.cur.frames.length < sp.depth + k

/-- A pedigree with another F and otherwise the same (R30, R34). -/
def withFlag (p q : BitVec 512) (f : Bool) : Prop :=
  pedF q = f ∧ pedDepth q = pedDepth p ∧ ∀ i, 1 ≤ i → i < 32 → pedElem q i = pedElem p i

/-- A pop of frames leaves F set while a flattened frame is left (R34). -/
def popsFlag (s t : State) (rest : List Frame) : Prop :=
  withFlag s.cur.ped t.cur.ped (pedF s.cur.ped && rest.any Frame.flattened)

/-- The frames after popping k (R65): the top eight registers go back to the caller unless the lowest frame popped was
flattened. -/
def poppedFrames (fs : List Frame) (k : Nat) : List Frame :=
  match fs.head?, (fs.take k).getLast?, fs.drop k with
  | some top, some low, c :: r => if low.flattened then c :: r else { c with regs := c.regs ++ top.regs.take 8 } :: r
  | _, _, rest => rest

/-- Some register that a pop of k frames throws away still waits for a result (R65, R139). -/
def losesPending (fs : List Frame) (k : Nat) : Prop :=
  ∃ i f, i < k ∧ fs[i]? = some f ∧
    ∃ r ∈ (if i = 0 ∧ ((fs.take k).getLast?.map Frame.flattened) = some false then f.regs.drop 8 else f.regs), r.pend ≠ none

/-! ## Taking a fault (R335, R336, R339) -/

/-- The record of a fault of a unit (kind 0): code, `lim` bit, address of the unit (R336). -/
def unitRecord (code : BitVec 8) (pc : Pc) (lim : Bool) : BitVec 128 :=
  pc.setWidth 64 ++ (0#49 ++ BitVec.ofBool lim ++ 0#6 ++ code)

/-- The frame of a handler (R339): where to resume, what to restore. -/
def handlerFrameOf (h : Handler) (resume : Pc) (save : HandlerSave) : Frame :=
  { ret := resume, nf := h.nf, gf := h.gf, marked := false, flattened := false, handler := true, splitMade := false,
    spare := rowsOf h.gf, regs := [], save := save }

/-- What a handler's frame keeps for the return (R339, R341): the kind of the fault, the fragment, its execution mask and its
switch marker. -/
def keeps (s : State) (kind : BitVec 3) (save : HandlerSave) : Prop :=
  save.kind = kind ∧ save.frag = s.cur.frag ∧ save.ctl.mask = s.cur.ctl.mask ∧ save.ctl.marks = s.cur.ctl.marks ∧
    save.ctl.redo = none

/-- A gang can take a fault of a code: its table has the handler, no handler runs yet or is waited for, and the reserve holds its
frame (R337, R339, R342). -/
def canHandle (s : State) (code : BitVec 8) (h : Handler) : Prop :=
  s.cur.live = true ∧ s.cur.supervisor = false ∧ s.cur.frames ≠ [] ∧ s.cur.spilled = false ∧ s.cur.entering = none ∧
    ((s.ctx s.cur.id.ctx).handlers.find? fun x => x.code == code.toNat) = some h ∧
    rowsOf h.gf ≤ (s.coreOf s.cur).reserve ∧ 64 + 8 * regsOf h.nf ≤ (s.coreOf s.cur).reserveC

/-- The handler has been entered: record and lanes saved, supervisor mode, the PC at the handler under the faulting lanes,
a handler frame that resumes at an address; every other register, mask and status, all of memory and every other gang are as
they were. -/
def entered (s t : State) (h : Handler) (record : BitVec 128) (kind : BitVec 3) (mask : Mask) (resume : Pc) : Prop :=
  t.cur.faultRec = record ∧ t.cur.tmask = mask ∧ t.cur.supervisor = true ∧ t.cur.ctl.pc = h.entry ∧ t.cur.ctl.mask = mask ∧
    t.cur.ctl.wait = .ready ∧ (∃ save, keeps s kind save ∧ t.cur.frames = pushed s.cur.frames (handlerFrameOf h resume save)) ∧
    Safety.barely { s with cur := { s.cur with
      frames := t.cur.frames, faultRec := record, tmask := mask, supervisor := true } } t

end Sys2Proof.Spec
end

