-- ==== Sys2Proof/SpecFloat.lean ====
section
/-! DEFINITION. Terms of the statements about floating point: what a unit reads, what it leaves in its lanes, when it traps,
and the exact values that results are rounded from. -/
namespace Sys2Proof.Spec
open Sys2Proof.Machine

/-! ## Results in lanes with flags (R75, R82, R200, R201) -/

/-- What a unit with flags reads and leaves: destinations (low word first), registers read, registers that must be even,
whether its entries and its rounding mode are accepted, the result of a lane. -/
structure FloatRule where
  kind : UnitKind
  dsts : List Nat
  reads : List Nat
  even : List Nat
  accepted : Prop
  res : Nat → FRes

/-- The entry that `$MODE.fmt` selects. -/
def ownEntry (s : State) : Fmt := fmtOf (s.entry (s.cur.mode.extractLsb' 0 5).toNat)

/-- The rounding mode of `$MODE` as a number. -/
def modeRnd (s : State) : Nat := (s.cur.mode.extractLsb' 20 3).toNat

/-- A vector instruction accepts an entry: valid, P 0 to 2, not 8 bits wide (R76). -/
def vectorEntry (f : Fmt) : Prop := f.valid = true ∧ f.p ≤ 2 ∧ f.w ≠ 8

/-- A register, or a pair under W = 64 (R75). -/
def span (w : Nat) (r : BitVec 7) : List Nat := if w = 64 then both r else [r.toNat]

/-- The bits of an operand of w bits in a lane (R75). -/
def operandAt (g : Gang) (w : Nat) (r : BitVec 7) (l : Nat) : Nat :=
  if w = 64 then (g.lane r.toNat l).toNat + 2 ^ 32 * (g.lane (r.toNat + 1) l).toNat else (g.lane r.toNat l).toNat % 2 ^ w

/-- A unit in the captured entry: wide operands, further one-register operands, a wide or narrow destination. -/
def inEntry (s : State) (d : BitVec 7) (dWide : Bool) (wide narrow : List (BitVec 7)) (usesRnd : Bool)
    (res : Fmt → Nat → FRes) : FloatRule :=
  let f := ownEntry s
  { kind := vectorUnit
    dsts := if dWide then span f.w d else [d.toNat]
    reads := wide.flatMap (span f.w) ++ narrow.map BitVec.toNat
    even := if f.w = 64 then ((if dWide then [d] else []) ++ wide).map BitVec.toNat else []
    accepted := vectorEntry f ∧ (usesRnd = true → modeRnd s ≤ 4)
    res := res f }

/-- Two operands. -/
def float2 (s : State) (o : FmtDAB) (usesRnd : Bool) (op : Fmt → Nat → Nat → Nat → FRes) : FloatRule :=
  inEntry s o.d true [o.a, o.b] [] usesRnd fun f l => op f (modeRnd s) (operandAt s.cur f.w o.a l) (operandAt s.cur f.w o.b l)

/-- One operand. -/
def float1 (s : State) (o : FmtDA) (usesRnd : Bool) (op : Fmt → Nat → Nat → FRes) : FloatRule :=
  inEntry s o.d true [o.a] [] usesRnd fun f l => op f (modeRnd s) (operandAt s.cur f.w o.a l)

/-- Product and addend with their signs (R205). -/
def floatFused (s : State) (o : FmtDAB) (negP negQ : Bool) : FloatRule :=
  inEntry s o.d true [o.a, o.b, o.d] [] true fun f l =>
    fmaBits f (modeRnd s) negP negQ (operandAt s.cur f.w o.a l) (operandAt s.cur f.w o.b l) (operandAt s.cur f.w o.d l)

/-- Bits without flags. -/
def quiet (b : Nat) : FRes := { bits := b, flags := 0, snan := false }

/-- A conversion between two entries (R214). -/
def convertRule (s : State) (o : FmtCvt) (dstOk : Fmt → Prop) (mode : Option Nat) : FloatRule :=
  let fs := fmtOf (s.entry o.fs.toNat)
  let fd := fmtOf (s.entry o.fd.toNat)
  { kind := vectorUnit
    dsts := span fd.w o.d
    reads := span fs.w o.a
    even := (if fs.w = 64 then [o.a.toNat] else []) ++ (if fd.w = 64 then [o.d.toNat] else [])
    accepted := fs.valid = true ∧ fs.p ≤ 3 ∧ fd.valid = true ∧ dstOk fd ∧ (mode = none → modeRnd s ≤ 4)
    res := fun l => convertBits fs fd (o.fs == o.fd) (operandAt s.cur fs.w o.a l) (mode.getD (modeRnd s)) }

/-- A unit over lanes: integer operations in words, floating ones in the captured entry (R191). -/
def acrossRule (s : State) (d a : BitVec 7) (op : Nat) (res : Fmt → Nat → FRes) : FloatRule :=
  let f := if 5 ≤ op then ownEntry s else fmtOf 0x000000020000B020
  let w := if 5 ≤ op then f.w else 32
  { kind := crossUnit
    dsts := span w d
    reads := span w a
    even := if w = 64 then [d.toNat, a.toNat] else []
    accepted := 5 ≤ op → vectorEntry f ∧ (op = 5 → modeRnd s ≤ 4)
    res := res f }

/-- One step of a butterfly (R192): the lower lane of a pair gives the first operand, an inactive partner the identity. -/
def stepResult (s : State) (o : FmtStep) (f : Fmt) (l : Nat) : FRes :=
  let p := l ^^^ 2 ^ o.k.toNat
  let x := operandAt s.cur f.w o.a l
  let y := if inMask s.cur.act p then operandAt s.cur f.w o.a p else laneIdentity f o.op.toNat
  if l < p then laneOp f (modeRnd s) o.op.toNat x y else laneOp f (modeRnd s) o.op.toNat y x

/-- What a lane of a scan receives (R193): op over the lanes of act below it in lane order, from the identity (exclusive) or
from the first lane's value, and with its own value (inclusive). -/
def scanResult (s : State) (o : FmtScan) (f : Fmt) (l : Nat) : FRes :=
  let x := operandAt s.cur f.w o.a
  let op := laneOp f (modeRnd s) o.op.toNat
  let upTo := (List.range (if o.e = 1 then l else l + 1)).filter (inMask s.cur.act)
  let start : Nat := laneIdentity f o.op.toNat
  if o.e = 1 then upTo.foldl (fun acc k => op acc.bits (x k)) (quiet start)
  else match upTo with
    | [] => quiet 0
    | k :: rest => rest.foldl (fun acc j => op acc.bits (x j)) (quiet (x k))

/-- The fixed-latency floating-point rules (R192, R193, R204 to R208, R210 to R212, R214, R217). -/
def floatRule (s : State) : Instr → Option FloatRule
  | .fadd o => some (float2 s o true faddBits)
  | .fsub o => some (float2 s o true fsubBits)
  | .fmul o => some (float2 s o true fmulBits)
  | .fmac o => some (floatFused s o false false)
  | .fmsc o => some (floatFused s o false true)
  | .fnmac o => some (floatFused s o true true)
  | .fnmsc o => some (floatFused s o true false)
  | .frcp o => some (float1 s o true frcpBits)
  | .frsq o => some (float1 s o true frsqBits)
  | .fmin o => some (float2 s o false fun f _ => fminmaxBits f false false)
  | .fmax o => some (float2 s o false fun f _ => fminmaxBits f true false)
  | .fminn o => some (float2 s o false fun f _ => fminmaxBits f false true)
  | .fmaxn o => some (float2 s o false fun f _ => fminmaxBits f true true)
  | .fabs o => some (float1 s o false fun f _ a => quiet (a % 2 ^ (f.w - 1)))
  | .fneg o => some (float1 s o false fun f _ a => quiet ((a + 2 ^ (f.w - 1)) % 2 ^ f.w))
  | .fcpys o => some (float2 s o false fun f _ a b => quiet (a % 2 ^ (f.w - 1) + b / 2 ^ (f.w - 1) * 2 ^ (f.w - 1)))
  | .fclass o => some (inEntry s o.d false [o.a] [] false fun f l => quiet (fclassBits f (operandAt s.cur f.w o.a l)))
  | .frnd o => some (float1 s o true frndBits)
  | .frndRne o => some (float1 s o false fun f _ => frndBits f 0)
  | .frndRtz o => some (float1 s o false fun f _ => frndBits f 1)
  | .frndRup o => some (float1 s o false fun f _ => frndBits f 2)
  | .frndRdn o => some (float1 s o false fun f _ => frndBits f 3)
  | .frndRna o => some (float1 s o false fun f _ => frndBits f 4)
  | .fscb o => some (inEntry s o.d true [o.a] [o.b] true fun f l =>
      fscbBits f (modeRnd s) (operandAt s.cur f.w o.a l) (s.cur.lane o.b.toNat l).toInt)
  | .flgb o => some (float1 s o true flgbBits)
  | .bfup o => some (inEntry s o.d true [] [o.a, o.b] true fun f l =>
      let elem := (s.cur.lane o.a.toNat l).toNat % 256
      let codes := (s.cur.lane o.b.toNat (l / 32)).toNat
      bfupBits f (modeRnd s) elem (codes / 256 ^ (2 * o.q.toNat + elem / 64 % 2) % 256))
  | .cvt o => some (convertRule s o (fun f => f.p ≤ 3) none)
  | .cvti o => some (convertRule s o (fun f => f.p = 3) (some 1))
  | .cvtf o => some (convertRule s o (fun f => f.p ≤ 2) (some 0))
  | .vstep o => some (acrossRule s o.d o.a o.op.toNat (stepResult s o))
  | .vscan o => some (acrossRule s o.d o.a o.op.toNat (scanResult s o))
  | _ => none

/-- The entries that a floating-point instruction names (R76, R191, R214): integer lane operations name none. -/
def entriesOf (s : State) : Instr → List Fmt
  | .cvt o | .cvti o | .cvtf o => [fmtOf (s.entry o.fs.toNat), fmtOf (s.entry o.fd.toNat)]
  | .vstep o => if 5 ≤ o.op.toNat then [ownEntry s] else []
  | .vscan o => if 5 ≤ o.op.toNat then [ownEntry s] else []
  | _ => [ownEntry s]

/-- The variable-latency floating-point rules (R203, R204, R206, R213). -/
def lateRule (s : State) : Instr → Option FloatRule
  | .fdiv o => some (float2 s o true fdivBits)
  | .fsqrt o => some (float1 s o true fsqrtBits)
  | .fexp2 o => some (float1 s o true fexp2Bits)
  | .flog2 o => some (float1 s o true flog2Bits)
  | .fsinp o => some (float1 s o true fsinpBits)
  | .fcosp o => some (float1 s o true fcospBits)
  | .ftanh o => some (float1 s o true ftanhBits)
  | _ => none

/-- What a unit with flags needs: accepted entries and mode, even registers for pairs, registers in the frame, those it reads
ready; with an active lane its destinations not pending and rows for those that hold none. -/
def FloatRule.ready (r : FloatRule) (s : State) : Prop :=
  r.accepted ∧ (∀ x ∈ r.even, x % 2 = 0) ∧ (∀ x ∈ r.dsts ++ r.reads, x < s.cur.regs.length) ∧
    (∀ x ∈ r.reads, (s.cur.reg x).pend = none) ∧
    (s.cur.act ≠ 0 → (∀ x ∈ r.dsts, (s.cur.reg x).pend = none) ∧
      Safety.rowsFree s (r.dsts.countP fun x => (s.cur.val x).tag ≠ 2))

/-- A result traps: an enabled flag, or a signalling NaN with that enable; never in supervisor mode (R82, R340). -/
def laneTraps (g : Gang) (r : FRes) : Bool :=
  !g.supervisor && (r.flags &&& g.ftrap.setWidth 5 != 0 || (r.snan && g.ftrap.getLsbD 5))

/-- The lanes of act whose results trap. -/
def FloatRule.trapped (r : FloatRule) (s : State) : Mask :=
  fromBits 128 fun l => inMask s.cur.act l && laneTraps s.cur (r.res l)

/-- The flags of the lanes of a mask, in the places of `$FSTAT` (R67). -/
def flagsIn (m : Mask) (res : Nat → FRes) : Word :=
  fromBits 32 fun i => decide (i < 5) && (List.range 128).any fun l => inMask m l && (res l).flags.getLsbD i

/-- What it leaves: the lanes of act that do not trap hold their results in general registers, all others what they held;
their flags are merged into `$FSTAT`; every other register, mask and status and all of memory stay (R54, R75, R82). -/
def FloatRule.result (r : FloatRule) (s t : State) : Prop :=
  let eff := s.cur.act &&& ~~~r.trapped s
  t.cur.fstat = s.cur.fstat ||| flagsIn eff r.res ∧
    Safety.onlyRegs r.dsts (s.modCur fun g => { g with fstat := t.cur.fstat }) t ∧
    (s.cur.act = 0 → ∀ x ∈ r.dsts, t.cur.reg x = s.cur.reg x) ∧
    (s.cur.act ≠ 0 → ∀ i x, r.dsts[i]? = some x → (t.cur.reg x).pend = none ∧ (t.cur.val x).tag = 2 ∧
      ∀ l, l < 128 → t.cur.lane x l =
        if inMask eff l then BitVec.ofNat 32 ((r.res l).bits / 2 ^ (32 * i)) else s.cur.lane x l)

/-- SNAN when a trapped lane read a signalling NaN with that enable, else FPX (R82). -/
def FloatRule.trapCode (r : FloatRule) (s : State) : BitVec 8 :=
  if (List.range 128).any fun l => inMask (r.trapped s) l && (r.res l).snan && s.cur.ftrap.getLsbD 5 then 0x13 else 0x12

/-! ## Units in flight (R128, R225) -/

/-- Registers pending on an operation: general, their lanes as they were. -/
def pendingOn (s t : State) (op : Nat) (rs : List Nat) : Prop :=
  ∀ i r, rs[i]? = some r → (t.cur.reg r).pend = some ⟨op, i⟩ ∧ (t.cur.val r).tag = 2 ∧
    ∀ l, l < 128 → t.cur.lane r l = s.cur.lane r l

/-- A unit is in flight after those in flight before; its destinations are pending on it; every other register, mask, status
and special register and all of memory stay. -/
def launched (s t : State) (f : Flight) (rs : List Nat) : Prop :=
  t.cur.flights = s.cur.flights ++ [f] ∧ t.tick = s.tick + 1 ∧ pendingOn s t f.id rs ∧
    Safety.onlyRegs rs { s with tick := t.tick, cur := { s.cur with flights := t.cur.flights } } t

/-- Values that return later, one a lane of act. -/
def valuesFlight (s : State) (size : Nat) (op : FlightOp) (val : Nat → Nat) : Flight :=
  { id := s.tick, op := op, path := 4, size := size, scope := 0,
    lanes := (lanesOf s.cur.act).map fun l =>
      { lane := l, addr := 0, data := val l, cmp := 0, st := .flying, track := false, ro := false },
    pc := s.cur.ctl.pc, lim := false, sup := s.cur.supervisor, ped := s.cur.ped, seq := 0, scratch := false, finished := false }

/-- The flags of R67 as the five bits that a late unit carries. -/
def lateFlags (m : Mask) (res : Nat → FRes) : BitVec 5 := (flagsIn m res).setWidth 5

/-- The flight of a late unit: results of the lanes of act, flags of those that do not trap, the lanes that do; it names the
entry of `$MODE.fmt` (R93). -/
def FloatRule.flight (r : FloatRule) (s : State) : Flight :=
  { valuesFlight s (if r.dsts.length = 2 then 8 else 4)
    (.late (lateFlags (s.cur.act &&& ~~~r.trapped s) r.res) (r.trapped s) (r.trapCode s == 0x13)) fun l => (r.res l).bits with
    names := [(s.cur.mode.extractLsb' 0 5).toNat] }

/-- A comparison unit: destination mask, condition, operands, signalling (R209). -/
def floatCompare (s : State) : Instr → Option (BitVec 3 × FloatRule × (Nat → Bool))
  | .fcmp o => some (compare o false)
  | .fcmpS o => some (compare o true)
  | _ => none
where
  compare (o : FmtK) (sig : Bool) : BitVec 3 × FloatRule × (Nat → Bool) :=
    let r (f : Fmt) (l : Nat) := fcmpBits f o.c.toNat sig (operandAt s.cur f.w o.a l) (operandAt s.cur f.w o.b l)
    let f := ownEntry s
    (o.m, { kind := vectorUnit, dsts := [], reads := span f.w o.a ++ span f.w o.b,
            even := if f.w = 64 then [o.a.toNat, o.b.toNat] else [], accepted := vectorEntry f,
            res := fun l => { bits := 0, flags := (r f l).2.1, snan := (r f l).2.2 } }, fun l => (r f l).1)

/-! ## Exact values and their rounding (R74, R77 to R79, R83) -/

/-- The real number of a finite value. -/
def Val.real : Val → Option Rat
  | .zero _ => some 0
  | .num s m e => some ((if s then -1 else 1) * m * (2 : Rat) ^ e)
  | _ => none

/-- The real number of a result before rounding. -/
def Out.real : Out → Option Rat
  | .zero _ => some 0
  | .rat s p q e => some ((if s then -1 else 1) * p / q * (2 : Rat) ^ e)
  | _ => none

/-- The magnitude of a number, with a sign. -/
def magnitude (x : Rat) : Rat := if x < 0 then -x else x
def signedAs (neg : Bool) (y : Rat) : Rat := if neg then -y else y

/-- The largest finite magnitude of an entry (R74). -/
def largest (f : Fmt) : Rat :=
  let top : Int := 2 ^ f.e - 1
  match f.p with
  | 0 => (2 ^ (f.f + 1) - 1) * (2 : Rat) ^ (top - 1 - f.bias - f.f)
  | 1 => (2 ^ (f.f + 1) - 2) * (2 : Rat) ^ (top - f.bias - f.f)
  | _ => (2 ^ (f.f + 1) - 1) * (2 : Rat) ^ (top - f.bias - f.f)

/-- Whether a mode rounds a magnitude with a sign down. -/
def roundsDown (mode : Nat) (neg : Bool) : Bool := mode == 1 || (mode == 2 && neg) || (mode == 3 && !neg)

/-- The integer m to which a mode rounds the magnitude v with v ^ n = w, n being 1, or 2 for a root, and a sign (R77): the
nearest, on a tie the even one (0) or the larger (4); the next below (1) or the next on a side of the sign (2, 3). -/
def nearRoot (mode : Nat) (neg : Bool) (n : Nat) (w : Rat) (m : Nat) : Prop :=
  (m = 0 ∨ ((m : Rat) - 1) ^ n < w) ∧ w < ((m : Rat) + 1) ^ n ∧
    (mode = 0 → (m = 0 ∨ (2 * (m : Rat) - 1) ^ n ≤ 2 ^ n * w) ∧ 2 ^ n * w ≤ (2 * (m : Rat) + 1) ^ n ∧
      ((m ≠ 0 ∧ (2 * (m : Rat) - 1) ^ n = 2 ^ n * w) ∨ 2 ^ n * w = (2 * (m : Rat) + 1) ^ n → m % 2 = 0)) ∧
    (mode = 4 → (m = 0 ∨ (2 * (m : Rat) - 1) ^ n ≤ 2 ^ n * w) ∧ 2 ^ n * w < (2 * (m : Rat) + 1) ^ n) ∧
    (roundsDown mode neg = true → (m : Rat) ^ n ≤ w) ∧
    ((mode = 2 ∧ neg = false) ∨ (mode = 3 ∧ neg = true) → w ≤ (m : Rat) ^ n)

/-- The integer to which a mode rounds a magnitude with a sign. -/
def nearInt (mode : Nat) (neg : Bool) (v : Rat) (m : Nat) : Prop := nearRoot mode neg 1 v m

/-- The encoding lies in the W bits of its entry and stands for a value; no signalling NaN was read (R75). -/
def encodes (f : Fmt) (r : FRes) (v : Val) : Prop := r.bits < 2 ^ f.w ∧ exact f r.bits = v ∧ r.snan = false

/-- The same for a number with a sign. -/
def encodesReal (f : Fmt) (r : FRes) (neg : Bool) (y : Rat) : Prop :=
  r.bits < 2 ^ f.w ∧ Val.real (exact f r.bits) = some (signedAs neg y) ∧ (exact f r.bits).sign = neg ∧ r.snan = false

/-- An infinity, in an entry without them the largest magnitude (R77, R202). -/
def infinityOr (f : Fmt) (neg : Bool) (r : FRes) : Prop :=
  if f.p = 0 then encodes f r (.inf neg) else encodesReal f r neg (largest f)

/-- What lies beyond the largest magnitude under a mode (R77). -/
def overflowed (f : Fmt) (mode : Nat) (neg : Bool) (r : FRes) : Prop :=
  if roundsDown mode neg = true then encodesReal f r neg (largest f) else infinityOr f neg r

/-- A result is a number of a sign, whose magnitude's n-th power is y, not 0, rounded into an entry (R77): the magnitude lies
between 2^k and 2^(k+1), it is rounded to a multiple of the unit there, in an entry with subnormals not below that of the
smallest normal; what an entry without them cannot hold becomes zero, what is beyond the largest magnitude the infinity or
that magnitude. Flags: 16 inexact, 8 underflow, 4 overflow. -/
def roundedRoot (f : Fmt) (mode : Nat) (neg : Bool) (n : Nat) (y : Rat) (r : FRes) : Prop :=
  ∃ (k : Int) (m : Nat), ((2 : Rat) ^ k) ^ n ≤ y ∧ y < ((2 : Rat) ^ (k + 1)) ^ n ∧
    let unit := (2 : Rat) ^ ((if f.d = true ∧ k < 1 - f.bias then 1 - f.bias else k) - f.f)
    let z : Rat := m * unit
    let small := (2 : Rat) ^ (1 - f.bias)
    let flags : BitVec 5 := (if z ^ n = y then 0 else 16) ||| (if y < small ^ n ∧ z ^ n ≠ y then 8 else 0)
    nearRoot mode neg n (y / unit ^ n) m ∧
      (if f.d = false ∧ z < small then encodes f r (.zero neg) ∧ r.flags = 24
      else if largest f < z then overflowed f mode neg r ∧ r.flags = flags ||| 20
      else encodesReal f r neg z ∧ r.flags = flags)

/-- A result is a nonzero number rounded into an entry (R77). -/
def roundedTo (f : Fmt) (mode : Nat) (x : Rat) (r : FRes) : Prop := roundedRoot f mode (decide (x < 0)) 1 (magnitude x) r

/-- A reciprocal or its root (R206): beyond the largest magnitude it overflows under the mode, else it is rounded toward
zero. -/
def towardZero (f : Fmt) (mode : Nat) (neg : Bool) (n : Nat) (y : Rat) (r : FRes) : Prop :=
  if largest f ^ n < y then overflowed f mode neg r ∧ r.flags = 20 else roundedRoot f 1 neg n y r

/-- The result is a zero of a sign, with no flag. -/
def zeroResult (f : Fmt) (neg : Bool) (r : FRes) : Prop := encodes f r (.zero neg) ∧ r.flags = 0

/-- The result is an infinity, with the flag of a division by zero or none (R202). -/
def infiniteResult (f : Fmt) (neg : Bool) (flags : BitVec 5) (r : FRes) : Prop := infinityOr f neg r ∧ r.flags = flags

/-- The default NaN, in an entry that has none +0 with invalid (R80). -/
def defaulted (f : Fmt) (flags : BitVec 5) (r : FRes) : Prop :=
  encodes f r (if f.p = 2 then .zero false else .nan false true 0 (if f.p = 0 then f.f - 1 else 0)) ∧
    r.flags = if f.p = 2 then flags ||| 1 else flags

/-- The first NaN of the operands, quieted, with its sign and payload; invalid when one of them is signalling (R80). -/
def nanPassed (f : Fmt) (xs : List Val) (flags : BitVec 5) (r : FRes) : Prop :=
  (∀ s q p n, xs.find? Val.isNan = some (.nan s q p n) → r.bits < 2 ^ f.w ∧ exact f r.bits = .nan s true p n) ∧
    r.flags = flags ||| (if xs.any Val.isSnan then 1 else 0) ∧ r.snan = xs.any Val.isSnan

/-- The sum of two numbers, rounded; an exact zero has the sign of two like zeros, else minus under RDN only (R79). -/
def summed (f : Fmt) (mode : Nat) (x y : Val) (a b : Rat) (r : FRes) : Prop :=
  if a + b = 0 then zeroResult f (if x.sign = y.sign then x.sign else decide (mode = 3)) r else roundedTo f mode (a + b) r

/-- The range of an integer entry, and its W bits of a number in two's complement (R74). -/
def lowest (f : Fmt) : Int := if f.s then -(2 ^ (f.w - 1)) else 0
def highest (f : Fmt) : Int := if f.s then 2 ^ (f.w - 1) - 1 else 2 ^ f.w - 1
def heldAs (f : Fmt) (r : FRes) (v : Int) : Prop := r.bits = (v % 2 ^ f.w).toNat

/-- A number converted to an integer entry (R78): rounded, out of range at the nearer end with invalid, else inexact when it
changed. -/
def integerOf (f : Fmt) (mode : Nat) (x : Rat) (r : FRes) : Prop :=
  ∃ m : Nat, nearInt mode (decide (x < 0)) (magnitude x) m ∧
    let n : Int := if x < 0 then -(m : Int) else m
    if n < lowest f then heldAs f r (lowest f) ∧ r.flags = 1
    else if highest f < n then heldAs f r (highest f) ∧ r.flags = 1
    else heldAs f r n ∧ r.flags = if (n : Rat) = x then 0 else 16

/-- What is no nonzero number, converted to an integer entry (R78): a NaN gives 0 and an infinity its end of the range, both
with invalid; a zero of either sign gives 0. -/
def integerEnd (f : Fmt) (r : FRes) : Val → Prop
  | .nan _ _ _ _ => r.bits = 0 ∧ r.flags = 1
  | .inf s => heldAs f r (if s then lowest f else highest f) ∧ r.flags = 1
  | .zero _ => r.bits = 0 ∧ r.flags = 0
  | .num _ _ _ => True

/-- An entry of P 0 to 2 that the table can hold, and a legal mode (R73, R76). -/
def roundsIn (e : Dword) (mode : Nat) : Prop := entryValid e = true ∧ (fmtOf e).valid = true ∧ (fmtOf e).p ≤ 2 ∧ mode ≤ 4

/-! ## The other results of floating-point instructions (R206, R207, R209 to R213, R217) -/

/-- Order of two values that are no NaN. -/
def Val.below : Val → Val → Prop
  | .inf s, .inf t => s = true ∧ t = false
  | .inf s, _ => s = true
  | _, .inf t => t = false
  | x, y => (Val.real x).getD 0 < (Val.real y).getD 0

/-- NaN operands of the operations of one, two and three operands (R80). -/
def nansPass (f : Fmt) (mode p q c : Nat) (count : Int) : Prop :=
  let x := exact f p
  let y := exact f q
  let z := exact f c
  let zeroTimesInf : Prop := (∃ s t, x = .zero s ∧ y = .inf t) ∨ ∃ s t, x = .inf s ∧ y = .zero t
  (x.isNan = true → ∀ op ∈ [frcpBits f mode, frsqBits f mode, fsqrtBits f mode, frndBits f mode, flgbBits f mode,
      fexp2Bits f mode, flog2Bits f mode, fsinpBits f mode, fcospBits f mode, ftanhBits f mode, fun a => fscbBits f mode a count],
    nanPassed f [x] 0 (op p)) ∧
    (x.isNan = true ∨ y.isNan = true → ∀ op ∈ [faddBits f mode, fsubBits f mode, fmulBits f mode, fdivBits f mode],
      nanPassed f [x, y] 0 (op p q)) ∧
    ∀ negP negQ, (zeroTimesInf → z.isNan = true → nanPassed f [x, y, z] 1 (fmaBits f mode negP negQ p q c)) ∧
      (¬zeroTimesInf → x.isNan = true ∨ y.isNan = true ∨ z.isNan = true → nanPassed f [x, y, z] 0 (fmaBits f mode negP negQ p q c))

/-- Infinite operands and zero divisors of the four operations (R79, R202, R204). -/
def infinitiesPass (f : Fmt) (mode p q : Nat) : Prop :=
  let x := exact f p
  let y := exact f q
  (∀ s, x = .inf s → ∀ t, y = .inf t → (if s = t then infiniteResult f s 0 (faddBits f mode p q) ∧ defaulted f 1 (fsubBits f mode p q)
      else defaulted f 1 (faddBits f mode p q) ∧ infiniteResult f s 0 (fsubBits f mode p q)) ∧
      infiniteResult f (s != t) 0 (fmulBits f mode p q) ∧ defaulted f 1 (fdivBits f mode p q)) ∧
    (∀ s b, x = .inf s → Val.real y = some b → infiniteResult f s 0 (faddBits f mode p q) ∧
      infiniteResult f s 0 (fsubBits f mode p q) ∧ infiniteResult f (s != y.sign) 0 (fdivBits f mode p q) ∧
      if b = 0 then defaulted f 1 (fmulBits f mode p q) else infiniteResult f (s != y.sign) 0 (fmulBits f mode p q)) ∧
    (∀ a t, Val.real x = some a → y = .inf t → infiniteResult f t 0 (faddBits f mode p q) ∧
      infiniteResult f (!t) 0 (fsubBits f mode p q) ∧ zeroResult f (x.sign != t) (fdivBits f mode p q) ∧
      if a = 0 then defaulted f 1 (fmulBits f mode p q) else infiniteResult f (x.sign != t) 0 (fmulBits f mode p q)) ∧
    ∀ a t, Val.real x = some a → y = .zero t →
      if a = 0 then defaulted f 1 (fdivBits f mode p q) else infiniteResult f (x.sign != t) 2 (fdivBits f mode p q)

/-- `frcp`, `frsq` and `fsqrt` (R206). -/
def rootsRight (f : Fmt) (mode p : Nat) : Prop :=
  let v := exact f p
  let rcp := frcpBits f mode p
  let rsq := frsqBits f mode p
  let sqrt := fsqrtBits f mode p
  (∀ s, v = .zero s → infiniteResult f s 2 rcp ∧ infiniteResult f s 2 rsq ∧ zeroResult f s sqrt) ∧
    (∀ s, v = .inf s → zeroResult f s rcp ∧
      if s = true then defaulted f 1 rsq ∧ defaulted f 1 sqrt else zeroResult f false rsq ∧ infiniteResult f false 0 sqrt) ∧
    ∀ x, Val.real v = some x → (x ≠ 0 → towardZero f mode (decide (x < 0)) 1 (1 / magnitude x) rcp) ∧
      (x < 0 → defaulted f 1 rsq ∧ defaulted f 1 sqrt) ∧
      (0 < x → towardZero f mode false 2 (1 / x) rsq ∧ roundedRoot f mode false 2 x sqrt)

/-- `fmin`, `fmax` and, with `number`, `fminn`, `fmaxn` (R207): −0 lies below +0, and of two equal operands the first is taken. -/
def pickedRight (f : Fmt) (greater number : Bool) (p q : Nat) : Prop :=
  let r := fminmaxBits f greater number p q
  let x := exact f p
  let y := exact f q
  let lower (a b : Val) : Prop := Val.below a b ∨ (a = .zero true ∧ b = .zero false)
  let first : Prop := r.bits = p % 2 ^ f.w
  let second : Prop := r.bits = q % 2 ^ f.w
  ((if number = true then x.isNan = true ∧ y.isNan = true else x.isNan = true ∨ y.isNan = true) → nanPassed f [x, y] 0 r) ∧
    (number = true → x.isNan = true → y.isNan = false → second) ∧ (number = true → x.isNan = false → y.isNan = true → first) ∧
    (x.isNan = false → y.isNan = false → (¬lower x y → ¬lower y x → first) ∧
      (lower x y → if greater = true then second else first) ∧ (lower y x → if greater = true then first else second)) ∧
    r.flags = (if x.isSnan || y.isSnan then 1 else 0) ∧ r.snan = (x.isSnan || y.isSnan)

/-- `fcmp` and, signalling, `fcmp.s` (R209). -/
def comparedRight (f : Fmt) (c : Nat) (signalling : Bool) (p q : Nat) : Prop :=
  let r := fcmpBits f c signalling p q
  let x := exact f p
  let y := exact f q
  let unordered := x.isNan || y.isNan
  let holds : Prop := match c with
    | 0 => ¬Val.below x y ∧ ¬Val.below y x
    | 1 => Val.below x y ∨ Val.below y x
    | 2 => Val.below x y
    | 3 => ¬Val.below y x
    | 4 => Val.below y x
    | 5 => ¬Val.below x y
    | 6 => False
    | _ => True
  (r.1 = true ↔ if unordered = true then c = 1 ∨ c = 6 else holds) ∧
    r.2.1 = (if x.isSnan || y.isSnan || (signalling && unordered) then 1 else 0) ∧ r.2.2 = (x.isSnan || y.isSnan)

/-- `fclass` (R210): one bit by the class of the value. -/
def classedRight (f : Fmt) (p : Nat) : Prop :=
  match exact f p with
  | .nan _ quiet _ _ => fclassBits f p = if quiet = true then 2 ^ 1 else 2 ^ 0
  | .inf s => fclassBits f p = if s = true then 2 ^ 2 else 2 ^ 9
  | .zero s => fclassBits f p = if s = true then 2 ^ 5 else 2 ^ 6
  | v => ∀ x, Val.real v = some x →
      let tiny := decide (magnitude x < (2 : Rat) ^ (1 - f.bias))
      fclassBits f p = if x < 0 then (if tiny = true then 2 ^ 4 else 2 ^ 3) else if tiny = true then 2 ^ 7 else 2 ^ 8

/-- `frnd` under a mode (R211), `fscb` of a count and `flgb` (R212); an integer beyond the entry's largest number is not pinned. -/
def scaledRight (f : Fmt) (mode p : Nat) (count : Int) : Prop :=
  let v := exact f p
  let rnd := frndBits f mode p
  let scb := fscbBits f mode p count
  let lgb := flgbBits f mode p
  (∀ s, v = .zero s → zeroResult f s rnd ∧ zeroResult f s scb ∧ infiniteResult f true 2 lgb) ∧
    (∀ s, v = .inf s → infiniteResult f s 0 rnd ∧ infiniteResult f s 0 scb ∧ infiniteResult f false 0 lgb) ∧
    ∀ x, Val.real v = some x → x ≠ 0 →
      (∃ m : Nat, nearInt mode (decide (x < 0)) (magnitude x) m ∧ rnd.flags = 0 ∧
        ((m : Rat) ≤ largest f → encodesReal f rnd (decide (x < 0)) m)) ∧
      roundedTo f mode (x * (2 : Rat) ^ count) scb ∧
      ∀ k : Int, (2 : Rat) ^ k ≤ magnitude x → magnitude x < (2 : Rat) ^ (k + 1) →
        if k = 0 then zeroResult f false lgb else roundedTo f mode k lgb

/-- `bfup` of an element under the code it selects (R84, R217). -/
def unpackedRight (f : Fmt) (mode elem code : Nat) : Prop :=
  let r := bfupBits f mode elem code
  let neg := decide (elem / 128 % 2 = 1)
  (code = 255 → defaulted f 0 r) ∧ (code ≠ 255 → code = 0 ∨ elem % 64 = 0 → zeroResult f neg r) ∧
    (code ≠ 255 → code ≠ 0 → elem % 64 ≠ 0 → roundedTo f mode (signedAs neg ((elem % 64 : Nat) * (2 : Rat) ^ ((code : Int) - 133))) r)

/-- A packed element: its byte, its flags, whether it was a signalling NaN. -/
def packedAs (p : Packed) (byte : Nat) (flags : BitVec 5) (snan : Bool) : Prop :=
  p.byte = byte ∧ p.res = { bits := byte, flags := flags, snan := snan }

/-- The codes and elements of a block of values (R84, R86): E0 from the largest finite magnitude, raised while an element under
it rounds to 64, E1 six below, or the NaN code where a value is not finite; each element under E1 when it fits there, with its
flags: 16 when it changed, 8 when it became zero, 4 when it is beyond E0's range. -/
def blockPacked (vs : List Val) (mode : Nat) : Prop :=
  let r := packBlock vs mode
  let special : Prop := ∃ v ∈ vs, v.isNan = true ∨ ∃ s, v = .inf s
  let finite (v : Val) (x : Rat) : Prop := v ∈ vs ∧ Val.real v = some x
  let sign (v : Val) : Nat := if v.sign = true then 128 else 0
  let under (code : Nat) (x : Rat) (m : Nat) : Prop :=
    nearInt mode (decide (x < 0)) (magnitude x * (2 : Rat) ^ (133 - (code : Int))) m
  let finer (c0 : Nat) (x : Rat) : Prop := ¬special ∧ ∃ m, under (max (c0 - 6) 1) x m ∧ m < 64
  let full (c0 : Nat) : Prop := ∃ v x m, finite v x ∧ ¬finer c0 x ∧ under c0 x m ∧ 64 ≤ m
  (∀ s q p n, .nan s q p n ∈ vs → packedAs (r.2.2 (.nan s q p n)) ((if s then 128 else 0) + 64) (if q then 0 else 1) (!q)) ∧
    (∀ s, .inf s ∈ vs → packedAs (r.2.2 (.inf s)) ((if s then 128 else 0) + 64) 1 false) ∧
    (∀ s, .zero s ∈ vs → (special → packedAs (r.2.2 (.zero s)) (if s then 128 else 0) 0 false) ∧
      (¬special → packedAs (r.2.2 (.zero s)) ((if s then 128 else 0) + 64) 0 false)) ∧
    (special → r.2.1 = 255) ∧
    ((∀ v x, finite v x → x = 0) → r.1 = 0 ∧ (¬special → r.2.1 = 0)) ∧
    ∀ w y, finite w y → y ≠ 0 → (∀ v x, finite v x → magnitude x ≤ magnitude y) →
      ∀ k : Int, (2 : Rat) ^ k ≤ magnitude y → magnitude y < (2 : Rat) ^ (k + 1) →
        let least : Nat := if k + 128 < 1 then 1 else if 254 < k + 128 then 254 else (k + 128).toNat
        let c0 := r.1
        least ≤ c0 ∧ c0 ≤ 254 ∧ (¬special → r.2.1 = max (c0 - 6) 1) ∧
          (∀ c, least ≤ c → c < c0 → full c) ∧ (c0 < 254 → ¬full c0) ∧
          ∀ v x, finite v x → x ≠ 0 →
            (∀ m, finer c0 x → under (max (c0 - 6) 1) x m →
              let same := decide ((m : Rat) * (2 : Rat) ^ (((max (c0 - 6) 1 : Nat) : Int) - 133) = magnitude x)
              packedAs (r.2.2 v) (sign v + 64 + m) (if m = 0 then 24 else if same = true then 0 else 16) false) ∧
            ∀ m, ¬finer c0 x → under c0 x m →
              let same := decide ((m : Rat) * (2 : Rat) ^ ((c0 : Int) - 133) = magnitude x)
              packedAs (r.2.2 v) (sign v + min m 63)
                (if 64 ≤ m then 20 else if m = 0 then 24 else if same = true then 0 else 16) false

/-- The values that R213 gives for the five transcendentals: infinities, zeros, integers, halves and powers of two. -/
def elementaryRight (f : Fmt) (mode p : Nat) : Prop :=
  let v := exact f p
  (∀ s, v = .zero s → roundedTo f mode 1 (fexp2Bits f mode p) ∧ infiniteResult f true 2 (flog2Bits f mode p) ∧
    zeroResult f s (fsinpBits f mode p) ∧ roundedTo f mode 1 (fcospBits f mode p) ∧ zeroResult f s (ftanhBits f mode p)) ∧
    (∀ s, v = .inf s →
      (if s = true then zeroResult f false (fexp2Bits f mode p) ∧ defaulted f 1 (flog2Bits f mode p)
        else infiniteResult f false 0 (fexp2Bits f mode p) ∧ infiniteResult f false 0 (flog2Bits f mode p)) ∧
      defaulted f 1 (fsinpBits f mode p) ∧ defaulted f 1 (fcospBits f mode p) ∧
      roundedTo f mode (signedAs s 1) (ftanhBits f mode p)) ∧
    ∀ x, Val.real v = some x → x ≠ 0 → (x < 0 → defaulted f 1 (flog2Bits f mode p)) ∧
      ∀ n : Int, (x = n → roundedTo f mode ((2 : Rat) ^ n) (fexp2Bits f mode p) ∧
          zeroResult f (decide (x < 0)) (fsinpBits f mode p) ∧ roundedTo f mode (signedAs (decide (n % 2 = 1)) 1) (fcospBits f mode p)) ∧
        (2 * x = 2 * n + 1 → roundedTo f mode (signedAs (decide (n % 2 = 1)) 1) (fsinpBits f mode p) ∧
          zeroResult f false (fcospBits f mode p)) ∧
        (x = (2 : Rat) ^ n → if n = 0 then zeroResult f false (flog2Bits f mode p) else roundedTo f mode n (flog2Bits f mode p))

end Sys2Proof.Spec
end

