-- ==== Sys2Proof/SpecMemory.lean ====
section
/-! DEFINITION. Terms of the statements about special registers, formats, frames and memory: what instructions read, where
their lanes go, what is in flight. -/
namespace Sys2Proof.Spec
open Sys2Proof.Machine

/-! ## Special registers and tags (R52, R57, R161, R195) -/

/-- The value of a special register by its number (R57). -/
def specialValue (s : State) (num : Nat) : BitVec 512 :=
  let g := s.cur
  match num with
  | 0 => 128
  | 1 => BitVec.ofNat 512 g.id.rank
  | 2 => BitVec.ofNat 512 (s.roleOf g)
  | 3 => BitVec.ofNat 512 g.id.crew
  | 4 => g.ped
  | 5 => ((g.mode &&& 0x03FFFFFF#32) ||| if (s.ctx g.id.ctx).strict then 0x04000000#32 else 0).setWidth 512
  | 6 => g.cc.setWidth 512
  | 7 => g.fstat.setWidth 512
  | 8 => g.ftrap.setWidth 512
  | 9 => g.tmask.setWidth 512
  | 10 => g.faultRec.setWidth 512
  | 11 => g.rng.setWidth 512
  | 12 => g.mbatch.setWidth 512
  | 13 => BitVec.ofNat 512 ((List.range 4).foldr (fun p n => g.pathCount p % 65536 + 65536 * n) 0)
  | 14 => BitVec.ofNat 512 (((s.ctx g.id.ctx).capture.map Capture.pass).getD 0)
  | 15 => g.sig.setWidth 512
  | 16 => BitVec.ofNat 512 ((s.crewOf g).core % 2048 + 2048 * (s.slotOf g % 16))
  | _ => 0

/-- Words 32·w to 32·w + 31 of a special register. -/
def specialWordOf (s : State) (num w : Nat) : Word := word ((specialValue s num).toNat / 2 ^ (32 * w) : Nat)

/-- `ftag` and `mfs`: a uniform result, and what they need besides their destination (R161, R166, R195, R197). -/
def shapeRule (s : State) : Instr → Option (LaneRule × Prop)
  | .ftag o => some (ruleU vectorUnit o.d fun g => word (g.val o.a.toNat).tag.toNat, o.a.toNat < s.cur.regs.length)
  | .mfs o => some
      (ruleU { control with serial := decide (5 ≤ o.num.toNat ∧ o.num.toNat ≤ 11) } o.d
          fun _ => specialWordOf s o.num.toNat o.w.toNat,
        (o.num.toNat = 16 → s.here.strict = false) ∧ (o.num.toNat = 7 ∨ o.num.toNat = 8 → lateQuiet s))
  | _ => none

/-! ## Lanes of an access (R222, R223, R255) -/

/-- The range of a virtual address: the first valid one that covers it, below 2^57 (R255). -/
def rangeAt (s : State) (va : Dword) : Option Range :=
  if va.toNat < 2 ^ 57 then s.here.ranges.find? fun r => decide (r.len ≠ 0 ∧ r.base ≤ va.toNat ∧ va.toNat < r.base + r.len) else none

/-- A permission set of five bits holds another. -/
def holds (perm need : BitVec 5) : Bool := (List.range 5).all fun i => !need.getLsbD i || perm.getLsbD i

/-- Where a lane of an access goes: its intermediate address with the race-track flag and the lack of W, or its fault:
RANGE 0x0A, PERM 0x0C, ALIGN 0x0D (R222, R255, R265, R298). -/
def laneAt (s : State) (need : BitVec 5) (size : Nat) (va : Dword) : Except (BitVec 8) (Nat × Bool × Bool) :=
  match rangeAt s va with
  | none => .error 0x0A
  | some r =>
    if holds r.perm need then
      (if va.toNat % size = 0 then .ok (r.ibase + (va.toNat - r.base), r.perm.getLsbD 3, !r.perm.getLsbD 1) else .error 0x0D)
    else .error 0x0C

/-- Where a lane of a scratch access goes: within the crew's allocation and its ways, else OPRANGE 0x0E (R230). -/
def scratchAt (s : State) (off : Word) : Except (BitVec 8) (Nat × Bool × Bool) :=
  if off.toNat % 4 = 0 then
    (if off.toNat + 4 ≤ s.here.scratch ∧
        s.scratchBase (s.crewOf s.cur) + off.toNat + 4 ≤ 32768 * (s.coreOf s.cur).scratchWays s.cur.id.ctx
      then .ok (off.toNat, false, false) else .error 0x0E)
  else .error 0x0D

/-! ## Accesses at issue (R225 to R234, R238) -/

/-- What an access does at issue: kind, path, size, scope; destinations, registers read; where its lanes go and the data they
carry; what the unit does besides. -/
structure AccessRule where
  op : FlightOp
  path : Nat
  size : Nat
  scope : Nat
  dsts : List Nat
  reads : List Nat
  place : Nat → Except (BitVec 8) (Nat × Bool × Bool)
  data : Nat → Nat
  cmp : Nat → Nat
  scratch : Bool
  allowed : Prop
  also : State → State

/-- A register for up to four bytes, a pair for eight (R227). -/
def sized (size : Nat) (r : BitVec 7) : List Nat := if size = 8 then both r else [r.toNat]

/-- The low bytes of a register or pair (R227). -/
def dataOf (s : State) (size r l : Nat) : Nat :=
  ((s.cur.lane r l).toNat + if size = 8 then 2 ^ 32 * (s.cur.lane (r + 1) l).toNat else 0) % 256 ^ size

/-- The address of a pair plus an offset, modulo 2^64 (R222). -/
def pairAddr (s : State) (a : BitVec 7) (off : Int) (l : Nat) : Dword :=
  BitVec.ofInt 64 ((s.cur.lane a.toNat l).toNat + 2 ^ 32 * (s.cur.lane (a.toNat + 1) l).toNat + off)

/-- A load. -/
def loadRule (s : State) (op : FlightOp) (size scope : Nat) (d : BitVec 7) (reads : List Nat) (va : Nat → Dword) : AccessRule :=
  { op := op, path := 0, size := size, scope := scope, dsts := sized size d, reads := reads
    place := fun l => laneAt s 1 size (va l), data := fun _ => 0, cmp := fun _ => 0, scratch := false, allowed := True, also := id }

/-- A store. -/
def storeRule (s : State) (op : FlightOp) (size scope : Nat) (d : BitVec 7) (reads : List Nat) (va : Nat → Dword) : AccessRule :=
  { op := op, path := 2, size := size, scope := scope, dsts := [], reads := sized size d ++ reads
    place := fun l => laneAt s 2 size (va l), data := dataOf s size d.toNat, cmp := fun _ => 0, scratch := false
    allowed := True, also := id }

/-- Pair plus immediate, in bytes (R227). -/
def directRule (s : State) (store : Bool) (size : Nat) (o : FmtDAI) : AccessRule :=
  if store then storeRule s .store size 0 o.d (both o.a) (pairAddr s o.a o.imm.toInt)
  else loadRule s .load size 0 o.d (both o.a) (pairAddr s o.a o.imm.toInt)

/-- Pair plus index register, scaled by the size when asked (R229). -/
def indexedAddr (s : State) (o : FmtLdx) (l : Nat) : Dword :=
  pairAddr s o.a ((s.cur.lane o.b.toNat l).toInt * if o.x = 1 then 2 ^ o.size.toNat else 1) l

/-- Scratch (R230). -/
def scratchRule (s : State) (store : Bool) (o : FmtDAI) : AccessRule :=
  { op := if store then .sts else .lds, path := if store then 2 else 1, size := 4, scope := 0
    dsts := if store then [] else [o.d.toNat], reads := if store then [o.d.toNat, o.a.toNat] else [o.a.toNat]
    place := fun l => scratchAt s (word ((s.cur.lane o.a.toNat l).toNat + 4 * o.imm.toInt))
    data := if store then dataOf s 4 o.d.toNat else fun _ => 0, cmp := fun _ => 0, scratch := true, allowed := True, also := id }

/-- `atom` (R232, R233): `cas` has its compare value in the first and its new value in the next register or pair. -/
def atomRule (s : State) (o : FmtAtom) : AccessRule :=
  let size := 2 ^ o.size.toNat
  let n := if size = 8 then 2 else 1
  { op := .atom o.op (o.r == 1), path := if o.r = 1 then 0 else 2, size := size, scope := o.scope.toNat
    dsts := if o.r = 1 then sized size o.d else []
    reads := both o.a ++ (List.range (if o.op = 10 then 2 * n else n)).map fun i => o.d.toNat + i
    place := fun l => laneAt s 3 size (pairAddr s o.a 0 l)
    data := dataOf s size (if o.op = 10 then o.d.toNat + size / 4 else o.d.toNat), cmp := dataOf s size o.d.toNat
    scratch := false, allowed := s.here.strict = false, also := id }

/-- `datom` (R234): it counts in the gang's sequence, and opens its crew's round (R269). -/
def datomRule (s : State) (o : FmtDatom) : AccessRule :=
  let size := 2 ^ o.size.toNat
  { op := .datom o.op, path := 2, size := size, scope := 0, dsts := [], reads := both o.a ++ sized size o.d
    place := fun l => laneAt s 16 size (pairAddr s o.a 0 l), data := dataOf s size o.d.toNat, cmp := fun _ => 0
    scratch := false, allowed := True
    also := fun s =>
      let u := s.modCur fun g => { g with datomSeq := g.datomSeq + 1 }
      if (List.range 128).any fun l => inMask s.cur.act l && (laneAt s 16 size (pairAddr s o.a 0 l)).isOk then
        u.modCrew s.cur.id.ctx s.cur.id.crew fun c => { c with roundOpen := true }
      else u }

/-- `cctl` on the 64 B pieces of its lanes, without a permission (R238). -/
def cacheRule (s : State) (fn : BitVec 3) (o : FmtCc) : AccessRule :=
  { op := .cctl fn, path := 2, size := 64, scope := o.scope.toNat, dsts := [], reads := both o.a
    place := fun l => (laneAt s 0 1 (pairAddr s o.a 0 l)).map fun p => (p.1 / 64 * 64, p.2)
    data := fun _ => 0, cmp := fun _ => 0, scratch := false, allowed := True, also := id }

/-- The accesses of the table. -/
def accessRule (s : State) : Instr → Option AccessRule
  | .ldB o => some (directRule s false 1 o)
  | .ldH o => some (directRule s false 2 o)
  | .ldW o => some (directRule s false 4 o)
  | .ldD o => some (directRule s false 8 o)
  | .ldx o => some (loadRule s .load (2 ^ o.size.toNat) 0 o.d (both o.a ++ [o.b.toNat]) (indexedAddr s o))
  | .lda o => some (loadRule s .lda (2 ^ o.size.toNat) o.scope.toNat o.d (both o.a) (pairAddr s o.a 0))
  | .lds o => some (scratchRule s false o)
  | .stB o => some (directRule s true 1 o)
  | .stH o => some (directRule s true 2 o)
  | .stW o => some (directRule s true 4 o)
  | .stD o => some (directRule s true 8 o)
  | .stx o => some (storeRule s .store (2 ^ o.size.toNat) 0 o.d (both o.a ++ [o.b.toNat]) (indexedAddr s o))
  | .str o => some (storeRule s .str (2 ^ o.size.toNat) o.scope.toNat o.d (both o.a) (pairAddr s o.a 0))
  | .sts o => some (scratchRule s true o)
  | .atom o => some (atomRule s o)
  | .datom o => some (datomRule s o)
  | .cctlWb o => some (cacheRule s 1 o)
  | .cctlInv o => some (cacheRule s 2 o)
  | .cctlWbinv o => some (cacheRule s 3 o)
  | _ => none

/-- What an access needs to issue: registers in the frame, those it reads ready; room on its path and in the replay queue;
with an active lane its destinations not pending and rows for those that hold none. -/
def AccessRule.ready (r : AccessRule) (s : State) : Prop :=
  r.allowed ∧ (∀ x ∈ r.dsts ++ r.reads, x < s.cur.regs.length) ∧ (∀ x ∈ r.reads, (s.cur.reg x).pend = none) ∧
    (s.cur.act ≠ 0 → (r.scratch = true ∨ s.queueEntries s.cur < 32) ∧ s.cur.pathCount r.path < 65535 ∧
      (∀ x ∈ r.dsts, (s.cur.reg x).pend = none) ∧ Safety.rowsFree s (r.dsts.countP fun x => (s.cur.val x).tag ≠ 2)) ∧
    ∀ f ∈ s.cur.flights, ∀ l ∈ f.lanes, l.st ≠ .queued

/-- The lanes of act in ascending order. -/
def activeLanes (s : State) : List Nat := (List.range 128).filter (inMask s.cur.act)

/-- The lane of an access where it has an address. -/
def AccessRule.lane (r : AccessRule) (l : Nat) : Option LaneAcc :=
  match r.place l with
  | .ok (a, track, ro) => some { lane := l, addr := a, data := r.data l, cmp := r.cmp l, st := .flying, track := track, ro := ro }
  | .error _ => none

/-- The access in flight: the lanes of act that have an address. -/
def AccessRule.flight (r : AccessRule) (s : State) : Flight :=
  let ls := (activeLanes s).filterMap r.lane
  { id := s.tick, op := r.op, path := r.path, size := r.size, scope := r.scope, lanes := ls, pc := s.cur.ctl.pc, lim := false,
    sup := s.cur.supervisor, ped := s.cur.ped, seq := s.cur.datomSeq, scratch := r.scratch, finished := ls.isEmpty }

/-- The codes of the lanes of act without an address. -/
def AccessRule.faults (r : AccessRule) (s : State) : List (Nat × BitVec 8) :=
  (activeLanes s).filterMap fun l => match r.place l with
    | .error c => some (l, c)
    | .ok _ => none

/-- Unfinished units in flight. -/
def underWay (g : Gang) : List Flight := g.flights.filter fun f => !f.finished

/-- The access is in flight after those under way; its destinations are pending on it; every other register, mask, status
and special register and all of memory stay. -/
def AccessRule.issued (r : AccessRule) (s t : State) : Prop :=
  underWay t.cur = underWay s.cur ++ [r.flight s] ∧ pendingOn s t s.tick r.dsts ∧
    Safety.onlyRegs r.dsts { r.also s with tick := s.tick + 1, cur := { (r.also s).cur with flights := t.cur.flights } } t

/-- The code of a unit whose lanes hold several: RANGE, then PERM, ALIGN, OPRANGE (R223). -/
def worstCode (cs : List (BitVec 8)) : BitVec 8 :=
  if cs.contains 0x0A then 0x0A else if cs.contains 0x0C then 0x0C else if cs.contains 0x0D then 0x0D else 0x0E

/-- A mask by its lanes. -/
def lanesMask (ls : List Nat) : Mask := fromBits 128 fun l => ls.contains l

/-- The good lanes of an access are in flight as if no other were; destinations wait for them, and for nothing when there is
none. -/
def AccessRule.partly (r : AccessRule) (s u : State) : Prop :=
  let f := r.flight s
  underWay u.cur = underWay s.cur ++ (if f.lanes = [] then [] else [f]) ∧
    (∀ i x, r.dsts[i]? = some x → (u.cur.reg x).pend = (if f.lanes = [] then none else some ⟨s.tick, i⟩) ∧
      (u.cur.val x).tag = 2 ∧ ∀ l, l < 128 → u.cur.lane x l = s.cur.lane x l) ∧
    Safety.onlyRegs r.dsts { r.also s with tick := s.tick + 1, cur := { (r.also s).cur with flights := u.cur.flights } } u

/-! ## Fences and waits (R236, R237, R264) -/

/-- Lines of the clusters that an acquire of a scope reaches: stack 4, device 5, system 6 and 7 (R264). -/
def inScope (scope cluster dev : Nat) (l : L1Line) : Bool :=
  decide (4 ≤ scope) && (decide (6 ≤ scope) || (l.dev == dev && (scope == 5 || l.cluster / 40 == cluster / 40)))

/-- The machine after an acquire of the gang in issue. -/
def acquired (s : State) (scope : Nat) : State :=
  { s with l1 := s.l1.filter fun l => !inScope scope ((s.coreOf s.cur).ix / 4) s.here.dev l }

/-- Accesses of memory and scratch, and the reads among them. -/
def accessOp : FlightOp → Bool
  | .load | .lda | .store | .str | .atom _ _ | .datom _ | .cctl _ | .lds | .sts => true
  | _ => false
def readOp : FlightOp → Bool
  | .load | .lda | .lds | .atom _ _ => true
  | _ => false

/-- The rules of `fence` (0 acq, 1 rel) and `wait`: acq does not wait for what the replay queue holds (R262). -/
def orderRule : Instr → Option EffectRule
  | .fence o => some
      { kind := control
        needs := fun s => ∀ f ∈ s.cur.flights, f.finished = true ∨ accessOp f.op = false ∨
          (o.order = 0 ∧ (readOp f.op = false ∨ ∀ l ∈ f.lanes, l.st ≠ .flying))
        effect := fun s => if o.order = 1 then s else acquired s o.scope.toNat }
  | .wait o => some
      { kind := control
        needs := fun s => uniformReady s [o.b.toNat] ∧
          (if s.cur.supervisor then s.pathCountSup s.cur o.path.toNat else s.cur.pathCount o.path.toNat) ≤
            (s.cur.lane o.b.toNat 0).toNat
        effect := id }
  | _ => none

/-! ## Atomic operations (R232) -/

/-- A number of k bytes as two's complement. -/
def signedBytes (k v : Nat) : Int := signedField (8 * k) v

/-- New value of `atom` from the old one m, the operand x and the compare value c, in k bytes (R232): add, sub, min, max,
minu, maxu, and, or, xor, swap, cas; 11 is the floating sum. -/
def atomValue (op k m x c : Nat) : Nat :=
  match op with
  | 0 => (m + x) % 256 ^ k
  | 1 => (((m : Int) - x) % (256 ^ k : Nat)).toNat
  | 2 => if signedBytes k m ≤ signedBytes k x then m else x
  | 3 => if signedBytes k x ≤ signedBytes k m then m else x
  | 4 => if m ≤ x then m else x
  | 5 => if x ≤ m then m else x
  | 6 => m &&& x
  | 7 => m ||| x
  | 8 => m ^^^ x
  | 9 => x
  | 10 => if m = c then x else m
  | _ => (faddBits (if k = 8 then bin64 else bin32) 0 m x).bits

/-! ## What reaches memory -/

/-- The machine with the caches of another, and with what HBM4 under them holds. -/
def cached (s t : State) : State :=
  { s with
    l1 := t.l1, l2 := t.l2, peers := t.peers, readers := t.readers, msc := t.msc, side := t.side, hbm := t.hbm, dirty := t.dirty }

/-- No context is in a capture (R349, R350). -/
def uncaptured (s : State) : Prop := ∀ x ∈ s.contexts, x.capture = none

/-- Physical memory as it is, as the memory-side caches hold it, and HBM4: in canonical form. -/
def memoryWhole (s : State) : Prop := Memory.wf s.mem = true ∧ Memory.wf s.side = true ∧ Memory.wf s.hbm = true

/-- Every page of a context is a whole number of 4 KiB pages, in both address spaces (R257). -/
def pagesWhole (c : Context) : Prop := ∀ m ∈ c.maps, m.ia % 4096 = 0 ∧ m.size % 4096 = 0 ∧ m.pa % 4096 = 0

/-- The lanes of a flight may take effect: they are the ones an event names, each may go before the gang's other accesses and
is on a mapped page (R225, R262). -/
def landing (s : State) (f : Flight) (m : Mask) (ls : List LaneAcc) : Prop :=
  s.cur.live = true ∧ s.cur.flight? f.id = some f ∧ f.chosen m = ls ∧ s.lanesReady s.cur f true ls = true

/-- A lane is aligned to the size of its access, and the pieces of several lanes have no copy in any L1. -/
def uncached (s : State) (f : Flight) (ls : List LaneAcc) : Prop :=
  ∀ l ∈ ls, l.addr % f.size = 0 ∧ ∀ x ∈ s.l1, ¬ (x.ctx = s.cur.id.ctx ∧ x.piece = l.addr / 64)

/-- The physical address of a lane. -/
def physOf (s : State) (l : LaneAcc) : Nat := (s.here.physical l.addr).getD 0

/-- Lanes of an access of scratch may take effect. -/
def landingHere (s : State) (f : Flight) (m : Mask) (ls : List LaneAcc) : Prop :=
  s.cur.live = true ∧ s.cur.flight? f.id = some f ∧ f.chosen m = ls ∧ s.lanesReady s.cur f false ls = true

/-- The lanes of a flight that are not finished after some have returned. -/
def lanesLeft (f : Flight) (ls : List LaneAcc) : List LaneAcc :=
  f.lanes.filter fun l => l.st != .done && !ls.any fun k => k.lane == l.lane

/-- The machine with the caches of another, the access finished and the registers as that leaves them. -/
def returned (s t : State) : State :=
  { cached s t with cur := { s.cur with frames := t.cur.frames, flights := t.cur.flights } }

/-- Registers that do not wait for a flight stay. -/
def otherRegs (s t : State) (f : Flight) : Prop := ∀ x, (∀ p, (s.cur.reg x).pend = some p → p.op ≠ f.id) → t.cur.reg x = s.cur.reg x

/-- Values have arrived for lanes of a flight: they are in the lanes of its destinations, which wait for it until the last
lane is there; every other lane and register stays. -/
def arrived (s t : State) (f : Flight) (ls : List LaneAcc) (val : LaneAcc → Nat) : Prop :=
  otherRegs s t f ∧ ∀ x i, (s.cur.reg x).pend = some ⟨f.id, i⟩ → i = 0 ∨ (i = 1 ∧ f.size = 8) →
    (t.cur.reg x).pend = (if lanesLeft f ls = [] then none else some ⟨f.id, i⟩) ∧
      (∀ l ∈ ls, t.cur.lane x l.lane = BitVec.ofNat 32 (val l / 2 ^ (32 * i))) ∧
      ∀ k, k < 128 → (∀ l ∈ ls, l.lane ≠ k) → t.cur.lane x k = s.cur.lane x k

/-- The bytes of lanes have been written, little-endian, at their places, a higher lane over a lower one; every other byte is
as it was (R228). -/
def lanesWritten (old new : List Host.Cell) (place : LaneAcc → Nat) (size : Nat) (ls : List LaneAcc) : Prop :=
  (∀ a, (∀ l ∈ ls, a < place l ∨ place l + size ≤ a) → Memory.read new a = Memory.read old a) ∧
    (∀ (i : Nat) (l : LaneAcc), ls[i]? = some l →
      (∀ (j : Nat) (k : LaneAcc), i < j → ls[j]? = some k → place k + size ≤ place l ∨ place l + size ≤ place k) →
      Memory.readNat new (place l) size = l.data % 256 ^ size) ∧
    Memory.wf new = true

/-- The lines of an L1 that hold a piece of some lanes hold its bytes of memory (R264). -/
def linesFresh (s t : State) (ls : List LaneAcc) : Prop :=
  ∀ x ∈ t.l1, x.ctx = s.cur.id.ctx → (∃ l ∈ ls, x.piece = l.addr / 64) →
    ∀ i, i < 64 → x.bytes.getD i 0 = Memory.read s.mem ((s.here.physical (64 * x.piece)).getD 0 + i)

/-- A store has been made: its bytes are in memory, its access is finished, nothing else changed but caches, stamps and
counts. -/
def stored (s t : State) (f : Flight) (ls : List LaneAcc) : Prop :=
  lanesWritten s.mem t.mem (physOf s) f.size ls ∧ otherRegs s t f ∧
    Safety.barely { returned s t with
      mem := t.mem, slices := t.slices, owl := t.owl, tick := t.tick
      cur := { (returned s t).cur with pend := t.cur.pend } } t

/-! ## Cache operations (R238, R260, R264, R298) -/

/-- What `cctl` with fn (1 wb, 2 inv, 3 wbinv) leaves of the piece of a lane: the lines that its scope reaches are dropped by inv, those of
other contexts that map the piece too (R267);
scope memory writes modified data through to HBM4, and its dirty bit is set; inv drops the piece's race entry from scope device
on. -/
def pieceDone (s t : State) (fn scope : Nat) (l : LaneAcc) : Prop :=
  let ctx := s.cur.id.ctx
  let cluster := (s.coreOf s.cur).ix / 4
  (2 ≤ fn → ∀ x ∈ t.l1, x.ctx = ctx → x.piece = l.addr / 64 →
      ¬(scope ≤ 3 ∧ x.cluster = cluster) ∧ ¬(scope ≤ 6 ∧ inScope scope cluster s.here.dev x = true)) ∧
    (2 ≤ fn → scope ≤ 6 → ∀ pa, s.here.physical (l.addr / 64 * 64) = some pa → ∀ x ∈ t.l1,
      (s.ctx x.ctx).physical (64 * x.piece) = some pa → inScope scope cluster s.here.dev x = false) ∧
    (2 ≤ fn → 5 ≤ scope → ∀ e ∈ t.owl, e.ctx = ctx → e.piece ≠ l.addr / 64) ∧
    (scope = 7 → ∀ pa, s.here.physical (l.addr / 64 * 64) = some pa →
      (2 ≤ fn → (∀ x ∈ t.l1, (s.ctx x.ctx).physical (64 * x.piece) ≠ some pa) ∧ ∀ q ∈ t.l2, q.pa ≠ pa) ∧
      ((∃ q ∈ s.l2, q.modified = true ∧ q.pa = pa) → t.dirty.contains (pa / 4096) = true ∧
        ∀ i, i < 64 → Memory.read t.hbm (pa / 64 * 64 + i) = Memory.read s.mem (pa / 64 * 64 + i)))

/-! ## The race filter (R35, R297 to R299) -/

/-- Two pedigrees agree below a level. -/
def agreeBelow (p q : BitVec 512) (l : Nat) : Prop := ∀ i, 1 ≤ i → i < l → pedElem p i = pedElem q i

/-- Two pedigrees part at a level above the first (R35). -/
def partAt (p q : BitVec 512) (l : Nat) : Prop :=
  2 ≤ l ∧ l ≤ pedDepth p ∧ l ≤ pedDepth q ∧ agreeBelow p q l ∧ pedElem p l ≠ pedElem q l

/-- Joins and spawns of an element (R31). -/
def joinsAt (p : BitVec 512) (l : Nat) : Nat := (pedElem p l).toNat / 1024
def spawnsAt (p : BitVec 512) (l : Nat) : Nat := (pedElem p l).toNat % 1024

/-- Neither strand comes before the other (R35): different crews, or siblings of one block. -/
def parallelStrands (p q : BitVec 512) : Prop :=
  pedElem p 1 ≠ pedElem q 1 ∨ ∃ l, partAt p q l ∧ joinsAt p l = joinsAt q l ∧
    ¬(l = pedDepth p ∧ spawnsAt p l ≤ spawnsAt q l) ∧ ¬(l = pedDepth q ∧ spawnsAt q l ≤ spawnsAt p l)

/-- The first strand comes after the second (R35). -/
def comesAfter (p q : BitVec 512) : Prop :=
  pedElem p 1 = pedElem q 1 ∧ ((pedDepth q < pedDepth p ∧ agreeBelow p q (pedDepth q + 1)) ∨
    ∃ l, partAt p q l ∧ (joinsAt q l < joinsAt p l ∨ (joinsAt p l = joinsAt q l ∧
      ¬(l = pedDepth p ∧ spawnsAt p l ≤ spawnsAt q l) ∧ l = pedDepth q ∧ spawnsAt q l ≤ spawnsAt p l)))

/-- The entry of a piece in the filter. -/
def owlEntry? (s : State) (ctx piece : Nat) : Option OwlEntry := s.owl.find? fun e => e.ctx == ctx && e.piece == piece

/-- n bytes of the race ring from an offset on are at a physical address. -/
def ringThere (c : Context) (off n pa : Nat) : Prop :=
  (∀ i, i < n → c.ringAt (off + i) = some (pa + i)) ∧
    ∃ a r, c.translate (BitVec.ofNat 64 (c.ringBase + off)) 0 = .ok (a, r) ∧ ∀ i, i < n → c.physical (a + i) = some (pa + i)

/-- Two stretches of bytes do not meet. -/
def apart (a n b m : Nat) : Prop := a + n ≤ b ∨ b + m ≤ a

/-- A report lies at pa, W at the ring's head counts it (R299). -/
def raceReported (t : State) (c : Context) (old new : BitVec 512) (piece pa hd : Nat) : Prop :=
  Memory.readNat t.mem pa 64 = old.toNat ∧ Memory.readNat t.mem (pa + 64) 64 = new.toNat ∧
    Memory.readNat t.mem (pa + 128) 8 = 64 * piece % 2 ^ 64 ∧ Memory.readNat t.mem (pa + 136) 56 = 0 ∧
    Memory.readNat t.mem hd 8 = (c.raceSeen + 1) % 2 ^ 64 ∧ (t.ctx c.num).raceSeen = c.raceSeen + 1

/-- RACE in lanes, with the report's offset or all ones in `$FAULT` (R299, R336). -/
def raceFault (mask : Mask) (addr : Dword) : PendFault :=
  { code := 0x14, mask := mask, kind := 2, addr := addr, lim := false, count := 0, place := 0, order := 0 }

end Sys2Proof.Spec
end

