-- ==== Sys2Proof/SpecSplit.lean ====
section
/-! DEFINITION. Terms of the statements about split gangs (R40 to R44, R50): where a `jtab` sends the lanes, what the table
holds then, fragments that park and fuse. -/
namespace Sys2Proof.Spec
open Sys2Proof.Machine

/-! ## A `jtab` that splits (R40 to R42, R135) -/

/-- A `jtab` that does not send all lanes to one place: the next address of each lane that has one, the lanes out of range. -/
structure Fork where
  next : Nat → Pc
  out : Mask
  /-- The address of the `jtab`, and the join address of the split. -/
  origin : Pc
  join : Pc

/-- The lanes with a next address, ascending. -/
def Fork.lanes (k : Fork) (s : State) : List Nat :=
  (List.range 128).filter fun l => inMask s.cur.ctl.mask l && !inMask k.out l

/-- The lowest lane of each target. -/
def Fork.firsts (k : Fork) (s : State) : List Nat :=
  (k.lanes s).filter fun l => (k.lanes s).all fun i => !(decide (i < l) && k.next i == k.next l)

/-- The place of a lane's target in the order of lowest lanes (R40). -/
def Fork.place (k : Fork) (s : State) (l : Nat) : Nat :=
  ((k.firsts s).filter fun i => decide (i < ((k.lanes s).find? fun j => k.next j == k.next l).getD l)).length

/-- The entries that a split may take: all eight of an unsplit gang, the fragment's own and the free ones else (R41). -/
def freeSlots (s : State) : Nat :=
  match s.cur.frag.bind s.cur.entry? with
  | none => 8
  | some _ => 1 + ((List.range 8).filter fun i => (s.cur.entry? i).isNone).length

/-- The fragments with a next address that there is room for: one entry is for the lanes out of range (R41, R42). -/
def Fork.room (k : Fork) (s : State) : Nat := freeSlots s - if k.out = 0 then 0 else 1

/-- Fragments needed. -/
def Fork.needs (k : Fork) (s : State) : Nat := (k.firsts s).length + if k.out = 0 then 0 else 1

/-- The part of a lane: with too many targets the last ones stay together (R41). -/
def Fork.part (k : Fork) (s : State) (l : Nat) : Nat :=
  if (k.firsts s).length ≤ k.room s then k.place s l else min (k.place s l) (k.room s - 1)

/-- Where a lane goes on: its target, or the `jtab` again with the last ones (R41). -/
def Fork.goes (k : Fork) (s : State) (l : Nat) : Pc :=
  if (k.firsts s).length ≤ k.room s ∨ k.place s l < k.room s - 1 then k.next l else k.origin

/-- The split that the fragments belong to: a new one, or the fragment's own when the same `jtab` goes on with it (R41). -/
def Fork.split (k : Fork) (s : State) : Nat :=
  match s.cur.frag.bind s.cur.entry? with
  | some e => if (s.cur.split? e.split).any fun p =>
      p.origin == k.origin && p.join == k.join && p.depth == s.cur.frames.length then e.split else s.cur.nextSplit
  | none => s.cur.nextSplit

/-- Variable-latency results outstanding, which a marked `jtab` makes each fragment wait for (R100). -/
def resultsDue (g : Gang) : List Nat :=
  (g.flights.filter fun f => !f.finished && match f.op with
    | .load | .lda | .lds | .value | .late _ _ _ | .drain | .recv => true
    | .atom _ ret => ret
    | _ => false).map Flight.id

/-- The control of a fragment as a split leaves it. -/
def startsAt (pc : Pc) (mask : Mask) (marks : List Nat) : Ctl :=
  { pc := pc, mask := mask, wait := .ready, marks := marks, redo := none, turn := false }

/-- The table after a split: each lane is in one entry with the lanes of its part, at its address, parked when that is the
join address; the lanes out of range are held at the `jtab`; the entries of other fragments are as they were. The held entry
is in issue, else one that runs: in a gang that was not split the one with the lowest lane. -/
def Fork.made (k : Fork) (s : State) (marks : List Nat) (u : State) : Prop :=
  (∀ l ∈ k.lanes s, ∃ i e, u.cur.entry? i = some e ∧ inMask e.ctl.mask l = true ∧
      e.ctl = startsAt (k.goes s l) e.ctl.mask marks ∧ e.join = k.join ∧ e.split = k.split s ∧
      e.st = (if k.goes s l = k.join then .parked else .run) ∧
      ∀ x, x < 128 → (inMask e.ctl.mask x = true ↔ x ∈ k.lanes s ∧ k.part s x = k.part s l)) ∧
    (k.out ≠ 0 → ∃ i e, u.cur.entry? i = some e ∧ e.ctl = startsAt k.origin k.out marks ∧ e.join = k.join ∧ e.st = .held) ∧
    (∀ i e, s.cur.entry? i = some e → s.cur.frag ≠ some i → s.cur.frag.bind s.cur.entry? ≠ none → u.cur.entry? i = some e) ∧
    ∃ i e, u.cur.frag = some i ∧ u.cur.entry? i = some e ∧ u.cur.ctl = e.ctl ∧
      (k.out ≠ 0 → e.ctl.mask = k.out ∧ e.st = .held) ∧
      (k.out = 0 → e.st = .run ∧ (s.cur.frag.bind s.cur.entry? = none → s.cur.table = List.replicate 8 none → ∃ l ∈ k.lanes s,
        inMask e.ctl.mask l = true ∧ ∀ x ∈ k.lanes s, k.goes s x ≠ k.join → l ≤ x))

/-- The gang but for its control: the fragments are numbered, the frame is marked (R66), each target has contributed to
`$SIG` (R352). -/
def Fork.frame (k : Fork) (s : State) (u : State) (v : State) : State :=
  v.modCur fun g =>
    ((k.firsts s).foldl (fun g l => contributed g ((k.next l).setWidth 64) 2)
      { g with
        nextSeq := u.cur.nextSeq, nextSplit := u.cur.nextSplit
        frames := match g.frames with
          | [] => []
          | f :: r => { f with splitMade := true } :: r })

/-- A split table as splits leave it: eight entries, the fragment in issue is one of them, none is held for a handler, no split
has the next number, and the frame in which the fragment's split was made is marked (R40, R41, R66). -/
def tableSound (s : State) : Prop :=
  s.cur.table.length = 8 ∧ (∀ i, s.cur.frag = some i → i < 8 ∧ s.cur.entry? i ≠ none) ∧
    (∀ i e, s.cur.entry? i = some e → e.st ≠ .held) ∧ (∀ sp ∈ s.cur.splits, sp.id ≠ s.cur.nextSplit) ∧
    ∀ e sp f, s.cur.frag.bind s.cur.entry? = some e → s.cur.split? e.split = some sp → sp.depth = s.cur.frames.length →
      s.cur.frames.head? = some f → f.splitMade = true

/-- The table of a `jtab` has been read and gives each lane of act that is in range its target; the caches may have changed on
the way (R134, R135). -/
def readsTable (s : State) (o : FmtDAI) (v : State) (count : Nat) (ts : List (Nat × Pc)) : Prop :=
  s.cur.live = true ∧ uniformReady s (both o.a) ∧ o.d.toNat < s.cur.regs.length ∧ (s.cur.reg o.d.toNat).pend = none ∧
    (pairAt s o.a).toNat % 4 = 0 ∧ ∃ u w p, s.tableWord [] (pairAt s o.a) = .ok (u, w, p) ∧ count = w.toNat ∧
      tableTargets (pairAt s o.a) count (fun l => (s.cur.lane o.d.toNat l).toNat) [p] (activeLanes s) u = .ok (v, ts)

/-- The fork of a `jtab`: lanes of act go to their targets, the lanes that the guard leaves out to the join address; those with
an index not below the count are out of range (R135). -/
def forks (s : State) (o : FmtDAI) (count : Nat) (ts : List (Nat × Pc)) (k : Fork) : Prop :=
  k.origin = s.cur.ctl.pc ∧ k.join = s.cur.ctl.pc + 4 + 4 * o.imm.setWidth 57 ∧
    (∀ p ∈ ts, k.next p.1 = p.2) ∧ (∀ l, l < 128 → inMask s.cur.ctl.mask l = true → inMask s.cur.act l = false → k.next l = k.join) ∧
    ∀ l, l < 128 → (inMask k.out l = true ↔ inMask s.cur.act l = true ∧ count ≤ (s.cur.lane o.d.toNat l).toNat)

/-- The table has no free entry, and the fragments parked in the split of the one in issue make one at most (R50). -/
def tableFull (s : State) : Prop :=
  ∃ e, s.cur.frag.bind s.cur.entry? = some e ∧ (∀ i, i < 8 → s.cur.entry? i ≠ none) ∧
    ∀ (i j : Nat) (a b : Entry), s.cur.entry? i = some a → s.cur.entry? j = some b → a.split = e.split → b.split = e.split →
      a.st = .parked → b.st = .parked → i = j

/-- Every fragment but the one in issue is parked (R50). -/
def othersParked (s : State) : Prop :=
  ∀ i e, s.cur.entry? i = some e → s.cur.frag ≠ some i → s.cur.liveSplit e.split = true → e.st = .parked

/-- Some other fragment is not parked and does not wait for entries, so that an entry may become free (R50). -/
def otherMoves (s : State) : Prop :=
  ∃ i e, i < 8 ∧ s.cur.entry? i = some e ∧ s.cur.frag ≠ some i ∧ s.cur.liveSplit e.split = true ∧ e.st ≠ .parked ∧
    e.ctl.wait ≠ .entries

/-- The record of JTRANGE (R42, R336): kind 4, the address of the `jtab`. -/
def rangeRecord (pc : Pc) : BitVec 128 := pc.setWidth 64 ++ (0#53 ++ 4#3 ++ 0x07#8)

/-! ## Parking and serial turns (R43, R44) -/

/-- The fragment in issue is entry e of split sp, which issues now. -/
def inSplit (s : State) (i : Nat) (e : Entry) (sp : Split) : Prop :=
  s.cur.live = true ∧ s.cur.table.length = 8 ∧ i < 8 ∧ s.cur.frag = some i ∧ s.cur.entry? i = some e ∧ s.cur.split? e.split = some sp ∧
    s.cur.liveSplit e.split = true

/-- The lanes of a split: those of its entries, the fragment in issue with its own control. -/
def lanesOfSplit (s : State) (i : Nat) (e : Entry) (l : Nat) : Prop :=
  ∃ j x, s.cur.entry? j = some x ∧ x.split = e.split ∧ inMask (if j = i then s.cur.ctl.mask else x.ctl.mask) l = true

/-- Some other fragment of the split has not parked, or has split again. -/
def someRuns (s : State) (i : Nat) (e : Entry) : Prop :=
  (∃ j x, j ≠ i ∧ s.cur.entry? j = some x ∧ x.split = e.split ∧ x.st ≠ .parked) ∨ ∃ q ∈ s.cur.splits, q.parent = some e.split

/-- What a fragment that comes to its join address leaves (R43): it is parked there, or, with every other fragment of the split
parked, the lanes of the split go on together, the enclosing fragment's or the whole gang. -/
def parked (s t : State) (i : Nat) (e : Entry) (sp : Split) : Prop :=
  (someRuns s i e → ∃ x, t.cur.frag = some i ∧ t.cur.entry? i = some x ∧ x.st = .parked ∧ x.ctl.pc = e.join ∧
      x.ctl.mask = s.cur.ctl.mask ∧ x.split = e.split ∧ ∀ j, j ≠ i → t.cur.entry? j = s.cur.entry? j) ∧
    (¬ someRuns s i e →
      t.cur.ctl.pc = sp.join ∧ (∀ l, l < 128 → (inMask t.cur.ctl.mask l = true ↔ lanesOfSplit s i e l)) ∧
      t.cur.splits = (if sp.parent = none then [] else s.cur.splits.filter fun x => x.id != e.split) ∧
      (sp.parent = none → t.cur.frag = none ∧ ∀ j, t.cur.entry? j = none) ∧
      (sp.parent ≠ none → ∃ j x, t.cur.frag = some j ∧ t.cur.entry? j = some x ∧ some x.split = sp.parent ∧ x.st = .run ∧
        x.ctl = t.cur.ctl ∧ x.seq = sp.outerSeq))

end Sys2Proof.Spec
end

