-- ==== Sys2Proof/SpecSystem.lean ====
section
/-! DEFINITION. Terms of the statements about faults, the system instructions, counters and tasks. -/
namespace Sys2Proof.Spec
open Sys2Proof.Machine

/-! ## Privilege and handlers (R44, R141, R343, R345) -/

/-- The privileged instructions: those of a handler, of mappings and ranges, and `mts` to `$TMASK` and `$FAULT`. -/
def privileged : Instr → Bool
  | .rte _ | .rteSkip _ | .replay _ | .pmap _ | .rrset _ | .scratchcfg _ => true
  | .mts o => o.num.toNat == 9 || o.num.toNat == 10
  | _ => false

/-- The words of a number, low word first. -/
def wordsOf {k : Nat} (n : Nat) (x : BitVec k) : List Word := (List.range n).map fun i => word (x.toNat / 2 ^ (32 * i) : Nat)

/-- The error message of a crew that a fault stops (R343): reason 1, crew, rank with the supervisor bit, the record, the PC to
resume at, the lanes, the low word of the pedigree and its key. -/
def errorMessage (s : State) (record : BitVec 128) (mask : Mask) (resume : Pc) : List Word :=
  [1, word s.cur.id.crew, word (s.cur.id.rank + (if s.cur.supervisor then 256 else 0) : Nat), 0] ++ wordsOf 4 record ++
    wordsOf 2 (resume.setWidth 64) ++ wordsOf 4 mask ++ wordsOf 1 s.cur.ped ++ [pedKey s.cur.ped]

/-- The record of a pending fault (R336). -/
def pendRecord (f : PendFault) : BitVec 128 :=
  f.addr ++ (0#20 ++ f.place ++ f.count ++ 0#4 ++ BitVec.ofBool f.lim ++ f.kind ++ f.code)

/-- A crew that may be stopped, its context, and the context's error queue with room for the message. -/
def stoppable (s : State) (c : Crew) (x : Context) (q : Queue) : Prop :=
  s.cur.live = true ∧ s.crews.find? (fun k => k.ctx == s.cur.id.ctx && k.rank == s.cur.id.crew) = some c ∧ c.stopped = false ∧
    s.contexts.find? (fun k => k.num == s.cur.id.ctx) = some x ∧ s.queue? x.dev x.errQueue = some q ∧ q.msgs.length < 32 ∧ x.errKept = []

/-- No handler may run for a code: the table has none, or a handler is running, or the gang has no frame (R342). -/
def noHandler (s : State) (x : Context) (code : BitVec 8) : Prop :=
  (∀ h ∈ x.handlers, h.code ≠ code.toNat) ∨ s.cur.supervisor = true ∨ s.cur.frames = []

/-- The crew has been stopped: the record and the lanes are left, the message is in the error queue (R342, R343). -/
def stoppedWith (s t : State) (x : Context) (q : Queue) (record : BitVec 128) (mask : Mask) (resume : Pc) : Prop :=
  (t.crewOf s.cur).stopped = true ∧ t.cur.faultRec = record ∧ t.cur.tmask = mask ∧
    (t.queue? x.dev x.errQueue).map Queue.msgs = some (q.msgs ++ [errorMessage s record mask resume]) ∧
    t.mem = s.mem ∧ t.cur.frames = s.cur.frames

/-- A pending fault is alone, and the gang is at a boundary where it may take it (R338, R339). -/
def faultDue (s : State) (f : PendFault) : Prop :=
  s.cur.pend = [f] ∧ f.sup = false ∧ s.cur.frag = none ∧ s.cur.ctl.redo = none ∧ s.cur.ctl.wait = .ready ∧ s.mayTake s.cur = true

/-- No operation of an engine waits in a replay queue. -/
def enginesFree (s : State) : Prop := ∀ k ∈ s.cores, (∀ c ∈ k.copies, c.queued = false) ∧ ∀ m ∈ k.mats, m.queued = false

/-- A pending fault is taken with the record it came with: any but PAGE of a replay queue that still holds something (R336, log 57). -/
def namesItself (s : State) (f : PendFault) : Prop :=
  f.code ≠ 0x0B ∨ f.own = true ∨ (enginesFree s ∧ ∀ x ∈ s.cur.flights, ∀ l ∈ x.lanes, l.st ≠ .queued)

/-- The queued lanes of the gang in issue are on mapped pages, and no engine waits in a replay queue. -/
def replayable (s : State) : Prop :=
  enginesFree s ∧ ∀ x ∈ s.cur.flights, ∀ l ∈ x.lanes, l.st = .queued → x.scratch = true ∨ s.here.physical l.addr ≠ none

/-- The accesses of the gang in issue after a replay: the queued lanes are under way again (R142, R263). -/
def replayed (s : State) : List Flight :=
  s.cur.flights.map fun x => { x with lanes := x.lanes.map fun l => if l.st = .queued then { l with st := .flying } else l }

/-- The queue has been replayed, and the unit waits where it is. -/
def replaysAndWaits (s t : State) : Prop :=
  t.cur.ctl.wait = .retry ∧ t.cur.ctl.pc = s.cur.ctl.pc ∧
    Safety.calmly { s with cur := { s.cur with flights := replayed s } } t

/-- Accesses with a lane in the replay queue, and those lanes. -/
def heldFlights (g : Gang) : List Flight := g.flights.filter fun x => x.lanes.any fun l => l.st == .queued
def heldLanes (g : Gang) : List Nat := g.flights.flatMap fun x => (x.lanes.filter fun l => l.st == .queued).map LaneAcc.lane

/-- A handler is about to return: its frame is on top, its crew runs, no split of its own. -/
def returning (s : State) (f c : Frame) (r : List Frame) : Prop :=
  s.cur.live = true ∧ s.cur.supervisor = true ∧ s.cur.frames = f :: c :: r ∧ f.handler = true ∧ f.flattened = false ∧
    ¬ splitWithin s 1 ∧ (s.crewOf s.cur).stopped = false ∧ replayable s

/-- The fragment that a handler's frame saved does not stand at its own join address (R43). -/
def notJoining (f : Frame) (pc : Pc) : Prop := f.save.frag = none ∨ ∃ e, f.save.entry = some e ∧ e.join ≠ pc

/-- The control that a return restores (R141, R341): the one saved, at an address; a marked return waits for the results
outstanding (R100). -/
def restoredAt (s : State) (f : Frame) (sw : Bool) (pc : Pc) : Ctl :=
  { f.save.ctl with pc := pc, marks := if sw then resultsDue s.cur else f.save.ctl.marks }

/-- The handler has been left: the queue has been replayed, user mode, its frame popped with the window back, the fragment and
the control as given; everything else but rows and counts as it was. -/
def left (s t : State) (f c : Frame) (r : List Frame) (ctl : Ctl) : Prop :=
  t.cur.supervisor = false ∧ t.cur.frames = { c with regs := c.regs ++ f.regs.take 8 } :: r ∧ t.cur.frag = f.save.frag ∧
    t.cur.ctl = ctl ∧ t.cur.flights = replayed s ∧
    Safety.barely { s with cur := { s.cur with frames := t.cur.frames, supervisor := false, flights := t.cur.flights } } t

/-- The re-execution that `rte` asks for (R141): the unit at the address of `$FAULT`, whose low two bits take no part (R96, log 74),
a `lim` pair as bit L says, for the lanes of `$TMASK` in the mask saved. -/
def redoOf (s : State) (f : Frame) : Redo :=
  { act := s.cur.tmask &&& f.save.ctl.mask, resume := f.ret, pc := BitVec.ofNat 57 (s.cur.faultRec.toNat / 2 ^ 64 / 4 * 4), lim := s.cur.faultRec.getLsbD 11 }

/-! ## `lim` pairs (R101, R102) -/

/-- The words that may follow `lim` (R102): the instructions with a ten-bit immediate, and `movi` with the other bits of its
immediate zero. -/
def followsLim : Instr → Bool
  | .iaddi _ | .andi _ | .ori _ | .xori _ | .icmpi _ | .ldB _ | .ldH _ | .ldW _ | .ldD _ | .stB _ | .stH _ | .stW _ | .stD _
  | .lds _ | .sts _ => true
  | .movi o => o.imm.toNat / 1024 % 128 == 0
  | _ => false

/-- The instruction of a pair with its 32-bit immediate in place of its own: the integer forms. -/
def pairRule (imm : Word) : Instr → Option LaneRule
  | .iaddi o => some (rule1 o.d o.a sumTag fun x => word (x.toNat + imm.toNat))
  | .andi o => some (rule1 o.d o.a plainTag fun x => x &&& imm)
  | .ori o => some (rule1 o.d o.a plainTag fun x => x ||| imm)
  | .xori o => some (rule1 o.d o.a plainTag fun x => x ^^^ imm)
  | .movi o => if o.imm.toNat / 1024 % 128 = 0 then some (ruleU vectorUnit o.d fun _ => imm) else none
  | _ => none

/-- The comparison of a pair (R183). -/
def pairMask (imm : Word) : Instr → Option MaskRule
  | .icmpi o => some
      { dst := o.m, reads := [o.a.toNat], uniform := [], bit := fun g l => comparesWords o.c (g.lane o.a.toNat l) imm }
  | _ => none

/-- The access of a pair: the immediate is an offset in bytes from the address pair, in words within scratch (R101). -/
def pairAccess (s : State) (imm : Word) : Instr → Option AccessRule
  | .ldB o => some (loadRule s .load 1 0 o.d (both o.a) (pairAddr s o.a imm.toInt))
  | .ldH o => some (loadRule s .load 2 0 o.d (both o.a) (pairAddr s o.a imm.toInt))
  | .ldW o => some (loadRule s .load 4 0 o.d (both o.a) (pairAddr s o.a imm.toInt))
  | .ldD o => some (loadRule s .load 8 0 o.d (both o.a) (pairAddr s o.a imm.toInt))
  | .stB o => some (storeRule s .store 1 0 o.d (both o.a) (pairAddr s o.a imm.toInt))
  | .stH o => some (storeRule s .store 2 0 o.d (both o.a) (pairAddr s o.a imm.toInt))
  | .stW o => some (storeRule s .store 4 0 o.d (both o.a) (pairAddr s o.a imm.toInt))
  | .stD o => some (storeRule s .store 8 0 o.d (both o.a) (pairAddr s o.a imm.toInt))
  | .lds o => some { scratchRule s false o with place := fun l => scratchAt s (word ((s.cur.lane o.a.toNat l).toNat + 4 * imm.toNat)) }
  | .sts o => some { scratchRule s true o with place := fun l => scratchAt s (word ((s.cur.lane o.a.toNat l).toNat + 4 * imm.toNat)) }
  | _ => none

/-- The low part of the immediate that a pair takes from its second word. -/
def lowImm : Instr → BitVec 10
  | .iaddi o => o.imm
  | .andi o => o.imm
  | .ori o => o.imm
  | .xori o => o.imm
  | .movi o => o.imm.setWidth 10
  | .icmpi o => o.imm
  | .ldB o | .ldH o | .ldW o | .ldD o | .stB o | .stH o | .stW o | .stD o | .lds o | .sts o => o.imm
  | _ => 0

/-! ## System instructions (R249 to R251, R94, R218 to R220, R252, R253) -/

/-- A mapping added to a context. -/
def mapped (s : State) (ctx ia size pa : Nat) (pooled : Bool) : State :=
  s.modCtx ctx fun c => { c with maps := c.maps ++ [{ ia := ia, size := size, pa := pa, pooled := pooled }] }

/-- One mapping of a context covers a page at every spoke that translates a part of it: 2 MiB are one spoke's (R256, R259). -/
def pageThere (c : Context) (ia size : Nat) : Bool :=
  c.maps.any fun m => decide (m.ia ≤ ia ∧ ia + size ≤ m.ia + m.size) &&
    (List.range 4).all fun k => (decide (size ≤ 2 ^ 21) && k != ia / 2 ^ 21 % 4) || !m.gone.contains k

/-- The first free page of a device's pool of a size. -/
def poolPage (s : State) (dev code : Nat) : Option PoolPage := s.pools.find? fun p => p.dev == dev && p.size == code

/-- A page and its control word are good for a context (R249, R360): the reserved bits zero, the size one of five, the page
aligned below 2^52; where it is not mapped yet, a page in the pool or the one named, in installed memory and in no pool. -/
def mapGood (s : State) (c : Context) (ia ctl : Dword) : Prop :=
  let size := pageSize (ctl.toNat % 8)
  let named := ctl.toNat / 4096 % 2 ^ 44 * 4096
  ctl.toNat % 8 ≤ 4 ∧ ctl.toNat / 16 % 256 = 0 ∧ ctl.toNat / 2 ^ 56 = 0 ∧ ia.toNat % size = 0 ∧ ia.toNat < 2 ^ 52 ∧
    (pageThere c ia.toNat size = false → if ctl.getLsbD 3 then poolPage s c.dev (ctl.toNat % 8) ≠ none else
      named % size = 0 ∧ physicalOk named size = true ∧ s.inPool named size = false)

/-- The page mapped: one already there stays as it is; else the first free page of the pool, or the page named. -/
def mapDone (s : State) (c : Context) (ctx : Nat) (ia ctl : Dword) : State :=
  let size := pageSize (ctl.toNat % 8)
  if pageThere c ia.toNat size then s
  else if ctl.getLsbD 3 then
    match poolPage s c.dev (ctl.toNat % 8) with
    | some p => mapped { s with pools := s.pools.erase p } ctx ia.toNat size p.base true
    | none => s
  else mapped s ctx ia.toNat size (ctl.toNat / 4096 % 2 ^ 44 * 4096) false

/-- `pmap` (R249). -/
def mapRule (o : FmtAB) : EffectRule :=
  { kind := privUnit
    needs := fun s => uniformReady s (both o.a ++ both o.b) ∧ mapGood s s.here (pairAt s o.a) (pairAt s o.b)
    effect := fun s => mapDone s s.here s.cur.id.ctx (pairAt s o.a) (pairAt s o.b) }

/-- `rrset`: range register i gets base, length, permissions and intermediate base of three pairs; the context's L1 lines and
the peer tables of its device are dropped (R250, R264, R265). -/
def rangeRule (o : FmtAB) : EffectRule :=
  let pair (s : State) (k : Nat) : Nat := (s.cur.lane (o.b.toNat + k) 0).toNat + 2 ^ 32 * (s.cur.lane (o.b.toNat + k + 1) 0).toNat
  let r (s : State) : Range :=
    { base := pair s 0, len := pair s 2 / 4096 * 4096, perm := BitVec.ofNat 5 (pair s 2), ibase := pair s 4 }
  let i (s : State) : Nat := (s.cur.lane o.a.toNat 0).toNat
  let clear (a b : Range) : Prop := a.len = 0 ∨ b.len = 0 ∨ a.base + a.len ≤ b.base ∨ b.base + b.len ≤ a.base
  { kind := { serialUnit with priv := true }
    needs := fun s => uniformReady s (o.a.toNat :: (List.range 6).map fun k => o.b.toNat + k) ∧ i s < 16 ∧
      pair s 0 % 4096 = 0 ∧ pair s 0 < 2 ^ 57 ∧ pair s 2 / 32 % 128 = 0 ∧ pair s 4 % 4096 = 0 ∧ pair s 4 < 2 ^ 52 ∧
      pair s 4 + (r s).len ≤ 2 ^ 52 ∧ ∀ j x, s.here.ranges[j]? = some x → j ≠ i s → clear x (r s)
    effect := fun s =>
      let dev := s.here.dev
      let u := s.modCtx s.cur.id.ctx fun c => { c with ranges := c.ranges.set (i s) (r s) }
      { u with l1 := u.l1.filter fun l => l.ctx != s.cur.id.ctx, peers := u.peers.filter fun p => p.dev != dev } }

/-- The update that `fmtset` sends to the hub, applied by the issuing core with all before it (R94, R218). -/
def setFormat (s : State) (i : Nat) (v : Dword) : State :=
  s.modCtx s.cur.id.ctx fun c =>
    let n := c.fmtLog.length + 1
    let core := (s.crewOf s.cur).core
    { c with
      fmtLog := c.fmtLog ++ [(i, v, s.cur.id)]
      fmtSeen := (core, n) :: c.fmtSeen.filter fun p => p.1 != core }

/-- No operation of a context that a core has issued and that is not finished names an entry (R93, R94). -/
def unnamed (s : State) (ctx core ix : Nat) : Prop :=
  (∀ g ∈ s.gangs, g.id.ctx = ctx → (s.crewOf g).core = core → ∀ f ∈ g.flights, f.finished = true ∨ ix ∉ f.names) ∧
    ∀ k ∈ s.cores, k.ix = core → ∀ m ∈ k.mats, m.ctx = ctx → m.finished = true ∨ ix ∉ m.names

/-- Way number k of scratch is way i of the core: k set bits of the mask lie below it (R251). -/
def scratchWay (m : BitVec 16) (k i : Nat) : Prop := m.getLsbD i = true ∧ ((List.range i).filter m.getLsbD).length = k

/-- A scratch byte of a core keeps its place when the mask changes. -/
def byteStays (old new : BitVec 16) (at_ : Nat) : Prop :=
  ∃ i, i < 16 ∧ scratchWay old (at_ / 32768) i ∧ scratchWay new (at_ / 32768) i

/-- Updates of the log that a core has applied. -/
def appliedBy (c : Context) (core : Nat) : Nat := ((c.fmtSeen.find? fun p => p.1 == core).map Prod.snd).getD 0

/-- The rules of the remaining system instructions without a register result; for `pmcfg` and `pmctl` the counters are stated
apart, and their core is left out here. -/
def systemRule : Instr → Option EffectRule
  | .pmap o => some (mapRule o)
  | .rrset o => some (rangeRule o)
  | .fmtset o => some
      { kind := serialUnit
        needs := fun s => uniformReady s (both o.a) ∧ 8 ≤ o.i.toNat ∧ entryValid (pairAt s o.a) = true ∧
          let core := (s.crewOf s.cur).core
          unnamed s s.cur.id.ctx core o.i.toNat ∧
            ∀ p ∈ s.here.fmtLog.drop (appliedBy s.here core), unnamed s s.cur.id.ctx core p.1
        effect := fun s => setFormat s o.i.toNat (pairAt s o.a) }
  | .fmtsync _ => some
      { kind := serialUnit
        needs := fun s => ∀ c ∈ s.crews, c.ctx = s.cur.id.ctx → ∀ n p, s.here.fmtLog[n]? = some p → p.2.2 = s.cur.id →
          n < appliedBy s.here c.core
        effect := id }
  | .psig o => some
      { kind := serialUnit, needs := fun s => uniformReady s [o.a.toNat]
        effect := fun s => s.modCur fun g => contributed g ((g.lane o.a.toNat 0).setWidth 64) 3 }
  | _ => none

/-! ## Counters (R345 to R347) -/

/-- Counter i of a core runs for its owner, which is resident, and counts time that has passed since it was brought up to date:
cycles and cycles without a unit always, slot waits, the array and row waits when there was one (R347, log 3). -/
def timeCounted (s : State) (k : CoreSt) (i : Nat) : Prop :=
  let e := (k.ctrSel.getD i 0).toNat
  k.ctrRun = true ∧ ∃ ctx, k.ctrOwner = some ctx ∧ k.resident = some ctx ∧
    (e = 0 ∨ e = 4 ∨ ((e = 5 ∨ e = 14 ∨ e = 20) ∧ (k.ctrRan.getLsbD i = true ∨ s.timeRuns k ctx e = true)))

/-! ## Tasks (R22 to R38, R143 to R146) -/

/-- The positions of a pedigree: depth, F, elements 1 to the depth (R30). -/
def pedIs (p : BitVec 512) (depth : Nat) (f : Bool) (elem : Nat → BitVec 16) : Prop :=
  pedDepth p = depth ∧ pedF p = f ∧ ∀ i, 1 ≤ i → i ≤ depth → pedElem p i = elem i

/-- Joins and spawns of the last element (R31). -/
def joinsOf (p : BitVec 512) : Nat := (pedElem p (pedDepth p)).toNat / 1024
def spawnsOf (p : BitVec 512) : Nat := (pedElem p (pedDepth p)).toNat % 1024

/-- The pedigree with its last element replaced by (j, k). -/
def movedTo (p q : BitVec 512) (j k : Nat) : Prop :=
  pedIs q (pedDepth p) (pedF p) fun i => if i = pedDepth p then BitVec.ofNat 16 (1024 * j + k) else pedElem p i

/-- The stream of a strand at a position (R151, R295). -/
def streamAt (s : State) (p : BitVec 512) : Dword := streamAfter s.here.seed (2 ^ 32 * (pedKey p).toNat)

/-- The gang in issue is the only one of its name, and every other gang of its crew waits at the same collective (R24). -/
def gathered (s : State) (w : Collective) : Prop :=
  (∀ g ∈ s.others, g.id ≠ s.cur.id) ∧
    ∀ g ∈ s.others, g.id.ctx = s.cur.id.ctx → g.id.crew = s.cur.id.crew → g.collective? = some w

/-- The crew of the gang in issue exists with its task, alone under its name. -/
def onTask (s : State) (c : Crew) (k : Task) : Prop :=
  s.crews.find? (fun x => x.ctx == s.cur.id.ctx && x.rank == s.cur.id.crew) = some c ∧ c.task = some k ∧
    (∃ x, s.contexts.find? (fun x => x.num == s.cur.id.ctx) = some x)

/-- What a spawn needs besides its target and demand: the crew gathered, the lead's window packs into a record (R26) and waits
for nothing, the crew's accesses complete, positions left. -/
def spawnChecked (s : State) (w : Collective) (c : Crew) (k : Task) (map : BitVec 16) (ws : List Word) : Prop :=
  Safety.mayRun serialUnit s ∧ s.cur.id.rank = 0 ∧ gathered s w ∧ onTask s c k ∧ c.flat = none ∧
    packArgs ((s.cur.regs.drop (s.cur.regs.length - 8)).map Reg.val) = some (map, ws) ∧
    (∀ x ∈ s.cur.regs.drop (s.cur.regs.length - 8), x.pend = none) ∧
    (∀ g ∈ s.crewGangs s.cur.id.ctx s.cur.id.crew, ∀ f ∈ g.flights, f.finished = true ∨ (accessOp f.op = false ∧ f.op ≠ .recv)) ∧
    spawnsOf s.cur.ped ≠ 1023

/-- The crew's deque is full: the 16 oldest records go to the overflow list (R27). -/
def dequeFull (s : State) (c : Crew) : Bool := decide (32 * s.here.size ≤ c.deque.length)

/-- A spawn that pushes a record, with room in the task area for the join record of a block's first spawn and for the records
that leave a full deque (R27). -/
def spawnReady (s : State) (w : Collective) (c : Crew) (k : Task) (map : BitVec 16) (ws : List Word) : Prop :=
  spawnChecked s w c k map ws ∧ 1 ≤ pedDepth s.cur.ped ∧ pedDepth s.cur.ped < 31 ∧ (k.block = none → ∀ j ∈ s.here.joins, j.id < s.tick) ∧
    let need := (if k.block = none then 64 else 0) + if dequeFull s c = true then 2048 else 0
    need = 0 ∨ s.here.taskUsed + need ≤ s.here.taskSize

/-- The record has been pushed and the spawner's position has advanced (R144): the child belongs to the open block, or to a new
one that the first spawn opens. -/
def spawnDone (s t : State) (c : Crew) (k : Task) (target : Pc) (nf gf : BitVec 4) (map : BitVec 16) (ws : List Word) : Prop :=
  ∃ block, (k.block = some block ∨ (k.block = none ∧ ∀ j ∈ s.here.joins, j.id ≠ block)) ∧
    ((t.crewOf s.cur).task.map fun x => (x.block, x.spawned)) = some (some block, k.spawned + 1) ∧
    (t.crewOf s.cur).overflow = c.overflow ++ (if dequeFull s c = true then c.deque.take 16 else []) ∧
    (∃ r, (t.crewOf s.cur).deque = (if dequeFull s c = true then c.deque.drop 16 else c.deque) ++ [r] ∧ r.entry = target ∧
      r.nf = nf ∧ r.gf = gf ∧ r.argmap = map ∧ r.args = ws ∧ r.join = some block ∧ r.segment = k.spawned + 1 ∧
      pedIs r.ped (pedDepth s.cur.ped + 1) false fun i => if i = pedDepth s.cur.ped + 1 then 0 else pedElem s.cur.ped i) ∧
    movedTo s.cur.ped t.cur.ped (joinsOf s.cur.ped) (spawnsOf s.cur.ped + 1) ∧ t.cur.rng = streamAt s t.cur.ped ∧
    (∀ j, s.here.joinRec? block = some j → (t.here.joinRec? block).map JoinRec.unfinished = some (j.unfinished + 1)) ∧
    (k.block = none → (t.here.joinRec? block).map JoinRec.unfinished = some 1) ∧
    t.cur.frames = s.cur.frames ∧ t.mem = s.mem

/-- The frame of a flattened invocation over the spawner's frames, which keep their window: v0 to v7 are those that a child would
get (R26, R34). -/
def flatFrames (s : State) (nf gf : BitVec 4) (args : List RegVal) : List Frame :=
  { calleeFrame (s.cur.ctl.pc + 4) nf gf false with
    flattened := true, regs := asRegs args ++ List.replicate (regsOf nf - 8) freshReg } :: s.cur.frames

/-- A flattened spawn at depth 31 has been entered (R34, R144): position and stream advanced with F set; the other gangs of the
crew have yet to enter. -/
def flatDone (s t : State) (target : Pc) (nf gf : BitVec 4) (args : List RegVal) : Prop :=
  pedIs t.cur.ped 31 true (fun i =>
      if i = 31 then BitVec.ofNat 16 (1024 * joinsOf s.cur.ped + (spawnsOf s.cur.ped + 1)) else pedElem s.cur.ped i) ∧
    t.cur.rng = streamAt s t.cur.ped ∧ t.cur.frames = flatFrames s nf gf args ∧ t.mem = s.mem ∧
    (t.crewOf s.cur).deque = (s.crewOf s.cur).deque ∧ (t.crewOf s.cur).task = (s.crewOf s.cur).task ∧
    ((t.crewOf s.cur).flat.map fun f => (f.target, f.args, f.todo)).getD (target, args, []) =
      (target, args, ((s.crewGangs s.cur.id.ctx s.cur.id.crew).map fun g => g.id.rank).filter fun r => r != 0)

/-! ## Reducers (R153 to R156, R291) -/

/-- A reducer instruction may use its reducer: registered, of the kind asked for, its value registers even and in the frame with
the index register, the view of the current segment there or new with room in the view store. -/
def reducerReady (s : State) (r : Reducer) (id : Nat) (list : Bool) (val : BitVec 7) (idx : List Nat) (k : Task) (c : Crew) : Prop :=
  Safety.mayRun serialUnit s ∧ onTask s c k ∧ s.here.reducer? id = some r ∧ (r.kind = 8 ↔ list = true) ∧
    (r.fmt.w = 64 ∧ list = false → val.toNat % 2 = 0) ∧
    (∀ x ∈ idx ++ (if list = true ∨ r.fmt.w = 64 then both val else [val.toNat]), x < s.cur.regs.length) ∧
    (∀ x ∈ idx, (s.cur.reg x).pend = none) ∧
    match k.current id with
    | some v => v.spilled = false
    | none => s.storeUsed c.core + r.viewBytes ≤ 65536

/-- The elements of the current segment's view, or those of a new one (R291). -/
def viewElems (k : Task) (r : Reducer) (id : Nat) : List Nat :=
  match k.current id with
  | some v => v.elems
  | none => if r.kind = 8 then [] else List.replicate r.len r.identity

/-- The view of an id in the current segment of the gang's task. -/
def currentView (t : State) (id : Nat) : Option View := (t.crewOf t.cur).task.bind fun k => k.current id

/-! ## Mailboxes (R150, R152) -/

/-- The registers of a record of n. -/
def recordOf (r : BitVec 7) (n : Nat) : List Nat := (List.range n).map fun i => r.toNat + i

/-- The device queue of grove queue ix of the context of the gang in issue holds messages. -/
def queueHolds (s : State) (ix : Nat) (q : Queue) : Prop :=
  ix < s.here.queues ∧ s.queues.find? (fun p => p.dev == s.here.dev && p.ix == s.here.queueBase + ix) = some q ∧
    q.ctx = s.cur.id.ctx ∧ q.grove = some ix

/-- A receive instruction may go ahead: its sixteen registers and its queue register, outside a capture. -/
def receiveReady (s : State) (o : FmtDA) : Prop :=
  s.cur.live = true ∧ (∀ x ∈ recordOf o.d 16, x < s.cur.regs.length ∧ (s.cur.reg x).pend = none) ∧ uniformReady s [o.a.toNat] ∧
    s.here.capture = none ∧ s.cur.act = allLanes

/-- Of the fragments of the gang in issue only the one in issue waits in a way; its entry is up to date (R40). -/
def waitsAlone (s : State) (p : Wait → Prop) : Prop :=
  (∀ n, s.cur.frag = some n → ∃ e, s.cur.entry? n = some e ∧ e.ctl = s.cur.ctl ∧ e.st ≠ .parked) ∧
    ∀ i e, s.cur.entry? i = some e → s.cur.frag ≠ some i → ¬p e.ctl.wait

/-! ## Images in the task area (R27, R69, R327) -/

/-- Physical memory is as it was outside the images that the task area of a context has come to hold; where in the area they lie
is the model's choice (log 9). -/
def onlyImages (s t : State) (ctx : Nat) : Prop :=
  ∀ a, (∀ im ∈ (t.ctx ctx).images, im ∉ (s.ctx ctx).images → ∀ i, i < im.size → (s.ctx ctx).physical (im.addr + i) ≠ some a) →
    Memory.read t.mem a = Memory.read s.mem a

/-- The receives of a gang that comes back from its image, with the ages that they had when it was made (R70, R329). -/
def agedRecvs (s : State) : List Receive := s.cur.recvs.map fun r => { r with since := r.since + (s.tick - s.cur.savedAt) }

/-! ## Collectives and the barrier (R24, R235, R248) -/

/-- The gang in issue is alone under its name, and no other gang of its crew waits at a collective. -/
def unmet (s : State) : Prop :=
  (∀ g ∈ s.others, g.id ≠ s.cur.id) ∧
    ∀ g ∈ s.others, g.id.ctx = s.cur.id.ctx → g.id.crew = s.cur.id.crew → g.collective? = none

/-- The gang in issue is alone under its name, and the collectives at which other gangs of its crew wait all pass a test. -/
def metOnly (s : State) (p : Collective → Prop) : Prop :=
  (∀ g ∈ s.others, g.id ≠ s.cur.id) ∧
    ∀ g ∈ s.others, g.id.ctx = s.cur.id.ctx → g.id.crew = s.cur.id.crew → ∀ w, g.collective? = some w → p w

/-- No access of the gang in issue is under way outside the replay queue and no receive is: what a barrier comes after (R262, R278). -/
def flown (s : State) : Prop :=
  ∀ f ∈ s.cur.flights, f.finished = true ∨ (f.op ≠ .recv ∧ (accessOp f.op = false ∨ ∀ l ∈ f.lanes, l.st ≠ .flying))

/-- Something that the arrival of a gang at a phase came after is still under way (R280, log 82). -/
def owesFor (g : Gang) (phase : Nat) : Prop :=
  g.lastArr = some phase ∧ ∃ o ∈ g.owes, ∃ f ∈ g.flights, f.id = o.1 ∧ f.finished = false ∧
    (f.op = .recv ∨ ∃ l ∈ f.lanes, l.st = .flying ∧ inMask o.2 l.lane = true)

/-- The phase of a crew's barrier that is open: the last one at which every gang has arrived stays open while what came before
an arrival is under way (R248, R280, log 82). -/
def openPhase (s : State) (c : Crew) (p : Nat) : Prop :=
  (p + 1 = c.phase ∧ ∃ g ∈ s.crewGangs c.ctx c.rank, owesFor g p) ∨
    (p = c.phase ∧ ∀ g ∈ s.crewGangs c.ctx c.rank, ∀ q, q + 1 = c.phase → ¬owesFor g q)

/-- Waits at the barrier that a wait for a phase does not disturb: arrivals that wait, waits for a phase, and those of a phase
that is complete (R24, log 65). -/
def besideCwt (phase : Nat) (w : Collective) : Prop := ∃ q, w = .cwt q ∨ w = .carr q ∨ (w = .cbar q ∧ q < phase)

/-- The key order of held updates (R235): pedigrees in serial order, a proper prefix first, then gang, lane, sequence. -/
def serialBefore (p q : BitVec 512) : Prop :=
  (pedDepth p < pedDepth q ∧ agreeBelow p q (pedDepth p + 1)) ∨
    ∃ l, 1 ≤ l ∧ l ≤ pedDepth p ∧ l ≤ pedDepth q ∧ agreeBelow p q l ∧ (pedElem p l).toNat < (pedElem q l).toNat
def keyBefore (a b : HeldUpdate) : Prop :=
  serialBefore a.ped b.ped ∨ (¬serialBefore b.ped a.ped ∧
    (a.gang < b.gang ∨ (a.gang = b.gang ∧ (a.lane < b.lane ∨ (a.lane = b.lane ∧ a.seq < b.seq)))))

/-- New value of a held update from the old one m and the operand x in k bytes (R234): add, floating sum, min, max of signed
numbers, floating min and max. -/
def datomValue (op k m x : Nat) : Nat :=
  match op with
  | 0 => (m + x) % 256 ^ k
  | 1 => (faddBits (if k = 8 then bin64 else bin32) 0 m x).bits
  | 2 => if signedBytes k m ≤ signedBytes k x then m else x
  | 3 => if signedBytes k x ≤ signedBytes k m then m else x
  | 4 => (fminmaxBits (if k = 8 then bin64 else bin32) false false m x).bits
  | _ => (fminmaxBits (if k = 8 then bin64 else bin32) true false m x).bits

/-- Every access and every receive of the gang in issue is complete, which releases, barriers and engine operations wait for (R241,
R278, R280, R284). -/
def settled (s : State) : Prop := ∀ f ∈ s.cur.flights, f.finished = true ∨ (accessOp f.op = false ∧ f.op ≠ .recv)

end Sys2Proof.Spec
end

