-- ==== Sys2Proof/SpecEngines.lean ====
section
/-! DEFINITION. Terms of the statements about the copy engine and the matrix array: records, copies, matrix operations as
they queue, tiles. -/
namespace Sys2Proof.Spec
open Sys2Proof.Machine

/-! ## Records (R239, R240) -/

/-- The four words of a record: base, extent, stride, rows, range register. -/
structure Record where
  base : Nat
  extent : Nat
  stride : Nat
  rows : Nat
  range : Nat

/-- The record in four registers. -/
def recordIn (g : Gang) (r : BitVec 7) : Record :=
  { base := (g.lane r.toNat 0).toNat, extent := (g.lane (r.toNat + 1) 0).toNat, stride := (g.lane (r.toNat + 2) 0).toNat
    rows := (g.lane (r.toNat + 3) 0).toNat % 2 ^ 28, range := (g.lane (r.toNat + 3) 0).toNat / 2 ^ 28 }

/-- It moves something. -/
def Record.moves (r : Record) : Prop := r.rows ≠ 0 ∧ r.extent ≠ 0

/-- Where it ends, from the start of its space. -/
def Record.fin (r : Record) : Nat := r.base + (r.rows - 1) * r.stride + r.extent

def Record.aligned (r : Record) : Prop := r.base % 4 = 0 ∧ r.extent % 4 = 0 ∧ r.stride % 4 = 0

/-- A scratch record of a crew is good. -/
def scratchGood (s : State) (c : Crew) (r : Record) : Prop :=
  r.aligned ∧ r.range = 0 ∧ (r.moves → r.fin ≤ (s.ctx c.ctx).scratch ∧
    s.scratchBase c + r.fin ≤ 32768 * (s.core c.core).scratchWays c.ctx)

/-- A global record is good for a use. -/
def globalGood (s : State) (r : Record) (need : BitVec 5) : Prop :=
  r.aligned ∧ ∃ g, s.here.ranges[r.range]? = some g ∧ g.len ≠ 0 ∧ (r.moves → r.fin ≤ g.len ∧ r.fin ≤ 2 ^ 32) ∧
    holds g.perm need = true

/-- The range of a global record. -/
def rangeIn (s : State) (r : Record) : Range := s.here.ranges.getD r.range ⟨0, 0, 0, 0⟩

/-! ## Copies at issue (R241, R242) -/

/-- A copy: what its two records are, where it starts, for which crews. -/
structure CopyRule where
  src : Record
  dst : Record
  srcGlobal : Bool
  dstGlobal : Bool
  kind : CopyKind
  crews : List Nat
  good : Prop

/-- `cpy` of a kind: 0 scratch to global, 1 global to scratch, 2 within scratch, 3 within global. -/
def copyRule (s : State) (o : FmtCpy) : CopyRule :=
  let d := recordIn s.cur o.d
  let a := recordIn s.cur o.a
  let k := o.kind.toNat
  let toGlobal := k == 0 || k == 3
  let fromGlobal := k == 1 || k == 3
  { src := a, dst := d, srcGlobal := fromGlobal, dstGlobal := toGlobal
    kind := if k = 0 then .gs else if k = 1 then .sg else if k = 2 then .ss else .gg
    crews := [s.cur.id.crew]
    good := (if toGlobal then globalGood s d 2 else scratchGood s (s.crewOf s.cur) d) ∧
      (if fromGlobal then globalGood s a 1 else scratchGood s (s.crewOf s.cur) a) }

/-- `cpym` to receivers: each selected core's crew of the same grove and position. -/
def copyManyRule (s : State) (o : FmtDAB) (cs : List Crew) : CopyRule :=
  let me := s.crewOf s.cur
  let mask := (s.cur.lane o.b.toNat 0).toNat
  { src := recordIn s.cur o.a, dst := recordIn s.cur o.d, srcGlobal := true, dstGlobal := false, kind := .multi
    crews := cs.map Crew.rank
    good := mask < 16 ∧ mask ≠ 0 ∧ globalGood s (recordIn s.cur o.a) 1 ∧ (∀ c ∈ cs, scratchGood s c (recordIn s.cur o.d)) ∧
      ((List.range 4).filter fun i => mask.testBit i).map (fun i =>
        s.crews.find? fun c => c.ctx == me.ctx && c.core == me.core / 4 * 4 + i && c.pos == me.pos) = cs.map some }

/-- What a copy needs to issue. -/
def CopyRule.ready (r : CopyRule) (s : State) (regs : List Nat) : Prop :=
  uniformReady s regs ∧ r.good ∧ r.dst.extent = r.src.extent ∧ r.dst.rows = r.src.rows ∧ s.queueEntries s.cur < 32 ∧
    s.cur.pathCount 3 < 65535

/-- The copy at its core. -/
def CopyRule.op (r : CopyRule) (s : State) : CopyOp :=
  { id := s.tick, gang := s.cur.id, core := (s.crewOf s.cur).core, kind := r.kind
    src := if r.srcGlobal then (rangeIn s r.src).ibase + r.src.base else r.src.base
    dst := if r.dstGlobal then (rangeIn s r.dst).ibase + r.dst.base else r.dst.base
    srcStride := r.src.stride, dstStride := r.dst.stride, extent := r.dst.extent, rows := r.dst.rows, rowsDone := 0
    crews := r.crews, track := r.dstGlobal && (rangeIn s r.dst).perm.getLsbD 3, ped := s.cur.ped, act := s.cur.ctl.mask
    queued := false, stopAt := 0, finished := false, sup := s.cur.supervisor }

/-- Memory after the first rows of a copy: each row is read in full, then written (R241). Where two bytes of a row land in one
place, the later one stays. -/
def rowsPut (into : Nat → Nat → Nat) (value : (Nat → Byte) → Nat → Nat → Byte) (extent : Nat) : Nat → (Nat → Byte) → Nat → Byte
  | 0, m, a => m a
  | r + 1, m, a =>
    let before := rowsPut into value extent r m
    match (List.range extent).reverse.find? fun i => into r i == a with
    | some i => value before r i
    | none => before a

/-- The address of byte i of row r on each side of a copy. -/
def copyFrom (c : CopyOp) (r i : Nat) : Nat := c.src + r * c.srcStride + i
def copyInto (c : CopyOp) (r i : Nat) : Nat := c.dst + r * c.dstStride + i

/-- The sides of a copy that lie in global memory (R241, R242). -/
def readsGlobal (c : CopyOp) : Prop := c.kind = .sg ∨ c.kind = .gg ∨ c.kind = .multi
def writesGlobal (c : CopyOp) : Prop := c.kind = .gs ∨ c.kind = .gg

/-- The physical address of an intermediate one that has a mapping. -/
def landsAt (c : Context) (ia : Nat) : Nat := (c.physical ia).getD 0

/-- What a copy of the gang in issue puts at a byte, given its destination's memory as the rows before left it. -/
def copied (s : State) (c : CopyOp) (m : Nat → Byte) (r i : Nat) : Byte :=
  match c.kind with
  | .sg | .multi => Memory.read s.mem (landsAt s.here (copyFrom c r i))
  | .gs => Memory.read (s.crewOf s.cur).scratch (copyFrom c r i)
  | .ss => m (copyFrom c r i)
  | .gg => m (landsAt s.here (copyFrom c r i))

/-- A crew of the gang's grove has a canonical scratch, and its core has not saved it. -/
def receives (s : State) (rank : Nat) : Prop :=
  ∃ k, s.crews.find? (fun x => x.ctx == s.cur.id.ctx && x.rank == rank) = some k ∧ Memory.wf k.scratch = true ∧
    s.cur.id.ctx ∉ (s.core k.core).saved

/-- The machine with one more copy at the core of the gang in issue. -/
def withCopy (s : State) (c : CopyOp) : State :=
  s.modCore (s.crewOf s.cur).core fun k => { k with copies := k.copies ++ [c] }

/-- The copy is at its core after the others and counted on path 3; one that moves nothing is complete. Nothing else
changes. -/
def CopyRule.issued (r : CopyRule) (s t : State) : Prop :=
  (r.dst.moves → (∃ f, underWay t.cur = underWay s.cur ++ [f] ∧ f.id = s.tick ∧ f.op = .copy ∧ f.path = 3) ∧
    Safety.calmly { withCopy s (r.op s) with tick := s.tick + 1, cur := { s.cur with flights := t.cur.flights } } t) ∧
  (¬ r.dst.moves → underWay t.cur = underWay s.cur ∧
    Safety.calmly { s with tick := s.tick + 1, cur := { s.cur with flights := t.cur.flights } } t)

/-! ## Matrix operations at issue (R243 to R246, R304, R306, R307) -/

/-- Entry number i of the mode word's fields: 0 fmt, 1 fa, 2 fb, 3 fc. -/
def modeEntry (s : State) (i : Nat) : Dword := s.entry (s.cur.mode.toNat / 2 ^ (5 * i) % 32)

/-- Tiles of a crew by its size (R307). -/
def tileCount (size : Nat) : Nat := [0, 1, 2, 2, 4, 4].getD size 8

/-- A tile number suits an accumulator width. -/
def tileGood (s : State) (w t : Nat) : Prop :=
  if w = 64 then t % 2 = 0 ∧ t + 1 < tileCount s.here.size else t < tileCount s.here.size

/-- An entry accumulates: float of 32 or 64 bits, signed INTEGER of 32. -/
def accumulates (f : Fmt) : Prop :=
  f.valid = true ∧ ((f.p ≤ 2 ∧ (f.w = 32 ∨ f.w = 64)) ∨ (f.p = 3 ∧ f.w = 32 ∧ f.s = true))

/-- The entries that an operation names (R93): a drain fc and fmt, the others fa, fb and fc. -/
def entriesNamed (g : Gang) (kind : MatKind) : List Nat :=
  let field (i : Nat) : Nat := g.mode.toNat / 2 ^ (5 * i) % 32
  match kind with
  | .mma _ _ | .mmas _ _ | .mzero => [field 1, field 2, field 3]
  | _ => [field 3, field 0]

/-- An operation with what it captures from the gang in issue: its entries, rounding mode, trap enables. -/
def captured (s : State) (kind : MatKind) (tile : Nat) : MatOp :=
  { id := s.tick, kind := kind, ctx := s.cur.id.ctx, crew := s.cur.id.crew, issuers := [s.cur.id], tile := tile
    fa := modeEntry s 1, fb := modeEntry s 2, fc := modeEntry s 3, fmt := modeEntry s 0, rnd := s.cur.mode.extractLsb' 20 3
    ftrap := if s.cur.supervisor then 0 else s.cur.ftrap.setWidth 6, recd := [], ibase := 0, track := false, b := []
    ped := s.cur.ped, act := s.cur.ctl.mask, started := false, aBytes := [], rowsDone := 0, queued := false, stopAt := 0
    finished := false, sup := s.cur.supervisor, same := s.cur.mode.toNat / 2 ^ 15 % 32 == s.cur.mode.toNat % 32, sent := false
    names := entriesNamed s.cur kind }

/-- The words of a record as an operation keeps them. -/
def Record.words (r : Record) : List Nat := [r.base, r.extent, r.stride, r.rows]

/-- A matrix instruction of one gang: the operation it queues, what it needs, registers that must be uniform. -/
structure MatRule where
  op : MatOp
  uniform : List Nat
  good : Prop

/-- Entries, rounding mode and tile of a drain under `$MODE.fmt`. -/
def drainGood (s : State) (t : Nat) : Prop :=
  accumulates (fmtOf (modeEntry s 3)) ∧ (fmtOf (modeEntry s 0)).valid = true ∧ (fmtOf (modeEntry s 0)).p ≤ 3 ∧ modeRnd s ≤ 4 ∧
    tileGood s (fmtOf (modeEntry s 3)).w t

/-- `mzero` and the drains to scratch, to memory and to a peer (R245, R246, R316). -/
def matRule (s : State) : Instr → Option MatRule
  | .mzero o => some
      { op := captured s .mzero o.tile.toNat, uniform := []
        good := accumulates (fmtOf (modeEntry s 3)) ∧ tileGood s (fmtOf (modeEntry s 3)).w o.tile.toNat }
  | .mdrainS o =>
    let r := recordIn s.cur o.a
    some
      { op := { captured s .drainS o.tile.toNat with recd := r.words, ibase := r.base }, uniform := recordOf o.a 4
        good := drainGood s o.tile.toNat ∧ scratchGood s (s.crewOf s.cur) r ∧ r.rows = 64 ∧
          r.extent = 8 * (fmtOf (modeEntry s 0)).w }
  | .mdrainG o =>
    let r := recordIn s.cur o.a
    some
      { op :=
          { captured s .drainG o.tile.toNat with
            recd := r.words, ibase := (rangeIn s r).ibase + r.base, track := (rangeIn s r).perm.getLsbD 3 }
        uniform := recordOf o.a 4
        good := drainGood s o.tile.toNat ∧ globalGood s r 2 ∧ r.rows = 64 ∧ r.extent = 8 * (fmtOf (modeEntry s 0)).w }
  | .mdrainP o =>
    let core := s.firstCore s.here.dev + (s.cur.lane o.a.toNat 0).toNat
    let tile := (s.cur.lane (o.a.toNat + 1) 0).toNat
    let me := s.crewOf s.cur
    let w := (fmtOf (modeEntry s 3)).w
    some
      { op := captured s (.drainP core tile) o.tile.toNat, uniform := both o.a
        good := accumulates (fmtOf (modeEntry s 3)) ∧ modeRnd s ≤ 4 ∧ tileGood s w o.tile.toNat ∧ tileGood s w tile ∧
          (s.cur.lane o.a.toNat 0).toNat < s.devCores ∧
          ∃ c ∈ s.crews, c.ctx = me.ctx ∧ c.core = core ∧ c.pos = me.pos }
  | _ => none

/-- Room in the core's matrix queue and in the gang's replay queue (R261, R306). -/
def matRoomy (s : State) : Prop :=
  ((s.coreOf s.cur).mats.filter fun m => !m.finished && !m.sent).length < 8 ∧ s.queueEntries s.cur < 32

/-- The machine with one more operation in the matrix queue of the gang in issue's core and in the gang's open batch. -/
def withMat (s : State) (m : MatOp) : State :=
  (s.modCore (s.crewOf s.cur).core fun k => { k with mats := k.mats ++ [m] }).modCur fun g =>
    { g with openBatch := g.openBatch ++ [m.id] }

/-- The operation is queued; nothing else changes. -/
def matQueued (s t : State) (m : MatOp) : Prop := Safety.calmly { withMat s m with tick := s.tick + 1 } t

/-- The shape of a collective matrix instruction: its kind, tile, A and B registers, B registers a quarter, a scale register,
bytes of an A row, rows of A, whether the captured entries are accepted. -/
structure MmaRule where
  kind : MatKind
  tile : Nat
  a : BitVec 7
  b : BitVec 7
  per : Nat
  scale : Nat
  extent : Nat
  rows : Nat
  good : Prop

/-- Entries that `mma` accepts by shape (R310). -/
def mmaAccepts (shape : Nat) (fa fb fc : Fmt) : Prop :=
  fa.valid = true ∧ fb.valid = true ∧ fc.valid = true ∧
    match shape with
    | 0 => fa.p ≤ 2 ∧ fb.p ≤ 2 ∧ fa.w = 16 ∧ fb.w = 16 ∧ fc.p ≤ 2 ∧ (fc.w = 32 ∨ fc.w = 64)
    | 1 => (fa.p = 3 ∧ fb.p = 3 ∧ fa.w = 8 ∧ fb.w = 8 ∧ fc.p = 3 ∧ fc.w = 32 ∧ fc.s = true) ∨
        (fa.p ≤ 2 ∧ fb.p ≤ 2 ∧ fa.w = 8 ∧ fb.w = 8 ∧ fc.p ≤ 2 ∧ (fc.w = 32 ∨ fc.w = 64))
    | 2 => fa.p = 4 ∧ fb.p = 4 ∧ fc.p ≤ 2 ∧ (fc.w = 32 ∨ fc.w = 64)
    | _ => False

/-- `mma`, accumulating or overwriting (R243). -/
def mmaRule (s : State) (o : FmtMma) (overwrite : Bool) : MmaRule :=
  { kind := .mma o.shape overwrite, tile := o.tile.toNat, a := o.a, b := o.b, per := 2, scale := if o.shape = 2 then 1 else 0
    extent := 64, rows := if o.shape = 2 then 68 else 64
    good := o.b.toNat % 2 = 0 ∧ modeRnd s ≤ 4 ∧
      mmaAccepts o.shape.toNat (fmtOf (modeEntry s 1)) (fmtOf (modeEntry s 2)) (fmtOf (modeEntry s 3)) }

/-- `mmas` (R244): 0 binary32 slices under the preset binary32 entry, 1 to 3 six to eight slices under binary64. -/
def mmasRule (s : State) (o : FmtMmas) (fn : BitVec 3) : MmaRule :=
  { kind := .mmas fn (o.o == 1), tile := o.tile.toNat, a := o.a, b := o.b, per := if fn = 0 then 2 else 4, scale := 0
    extent := if fn = 0 then 64 else 128, rows := 64
    good := (if fn = 0 then o.b.toNat % 2 = 0 ∧ modeRnd s ≤ 4 ∧ modeEntry s 3 = presetFormats.getD 1 0
      else o.b.toNat % 4 = 0 ∧ modeEntry s 3 = presetFormats.getD 0 0) ∧ (fmtOf (modeEntry s 3)).valid = true }

/-- The collective instructions. -/
def collectiveRule (s : State) : Instr → Option MmaRule
  | .mma o => some (mmaRule s o false)
  | .mmaO o => some (mmaRule s o true)
  | .mmasF32 o => some (mmasRule s o 0)
  | .mmasS6 o => some (mmasRule s o 1)
  | .mmasS7 o => some (mmasRule s o 2)
  | .mmasS8 o => some (mmasRule s o 3)
  | _ => none

/-- The operation of a quorum of one gang: it supplies all four quarters of B (R312). -/
def MmaRule.op (r : MmaRule) (s : State) : MatOp :=
  { captured s r.kind r.tile with
    recd := (recordIn s.cur r.a).words
    b := (List.range 4).map fun q => ((List.range r.per).map (fun i => r.b.toNat + r.per * q + i) ++
      (List.range r.scale).map fun i => r.b.toNat + 4 * r.per + i).map fun x => (s.cur.val x).row }

/-- What the gang that is its crew's whole quorum needs (R303, R304). -/
def MmaRule.ready (r : MmaRule) (s : State) : Prop :=
  Safety.mayRun serialUnit s ∧ unmet s ∧ r.good ∧ s.cur.id.rank < s.here.size ∧
    (∀ k, k < s.here.size → (s.here.quorum.getLsbD k = true ↔ k = s.cur.id.rank)) ∧ uniformReady s (recordOf r.a 4) ∧
    (∀ x ∈ recordOf r.b (4 * r.per + r.scale), x < s.cur.regs.length ∧ (s.cur.reg x).pend = none) ∧
    tileGood s (fmtOf (modeEntry s 3)).w r.tile ∧ scratchGood s (s.crewOf s.cur) (recordIn s.cur r.a) ∧
    (recordIn s.cur r.a).extent = r.extent ∧ (recordIn s.cur r.a).rows = r.rows ∧ matRoomy s

/-! ## Batches (R247) -/

/-- A covering wait for batch n covers an operation: every one when n is the open batch, else those of the last closed batch
of that number and of every batch closed before it. -/
def covers (g : Gang) (n : BitVec 8) (op : Nat) : Prop :=
  if n = g.mbatch then op ∈ g.openBatch ∨ ∃ b ∈ g.closed, op ∈ b.ops
  else ∃ (i j : Nat) (b c : Batch), i ≤ j ∧ g.closed[i]? = some b ∧ g.closed[j]? = some c ∧ c.num = n ∧ op ∈ b.ops

/-! ## Tiles (R307, R308, R316) -/

/-- Element n of tile t of a crew, w bits wide. -/
def tileElem (c : Crew) (t w n : Nat) : Nat := Memory.readNat c.tiles (16384 * t + w / 8 * n) (w / 8)

/-- Bytes of the tile or the tile pair of an accumulator width. -/
def tileSpan (w : Nat) : Nat := if w = 64 then 32768 else 16384

/-- The tiles an operation works on. -/
def tilesUsed (w t : Nat) : List Nat := if w = 64 then [t, t + 1] else [t]

/-! ## Elements of a product (R84, R87 to R92, R243, R311, R312) -/

/-- The word in a lane of a register of a quarter of B. -/
def wordOfB (m : MatOp) (q rho l : Nat) : Nat := (((m.b.getD q []).getD rho []).getD l 0).toNat

/-- The bits of element (i, k) of A and of element (k, j) of B, w bits wide, A of a depth. -/
def bitsOfA (m : MatOp) (w depth i k : Nat) : Nat := leNat ((m.aBytes.drop (w / 8 * (depth * i + k))).take (w / 8))
def bitsOfB (m : MatOp) (w k j : Nat) : Nat :=
  match w with
  | 8 => wordOfB m (j / 16) (k / 32) (4 * (k % 32) + j % 16 / 4) / 2 ^ (8 * (j % 4)) % 2 ^ 8
  | 16 => wordOfB m (j / 16) (k / 16) (8 * (k % 16) + j % 16 / 2) / 2 ^ (16 * (j % 2)) % 2 ^ 16
  | 32 => wordOfB m (j / 16) (k / 8) (16 * (k % 8) + j % 16)
  | _ => wordOfB m (j / 16) (2 * (k / 8)) (16 * (k % 8) + j % 16) +
      2 ^ 32 * wordOfB m (j / 16) (2 * (k / 8) + 1) (16 * (k % 8) + j % 16)

/-- A BLOCK element under the one of two codes that it selects. -/
def elementOf (e0 e1 x : Nat) : Val :=
  let code := if x / 64 % 2 = 1 then e1 else e0
  let neg := decide (x / 128 % 2 = 1)
  if code = 0 then .zero neg
  else if code = 255 then .nan false true 0 0
  else if x % 64 = 0 then .zero neg
  else .num neg (x % 64) ((code : Int) - 133)

/-- The elements of row i of A and of column j of B of an `mma`, by its shape. -/
def rowOfA (m : MatOp) (shape : Nat) (i : Nat) : List Val :=
  match shape with
  | 0 => (List.range 32).map fun k => exact (fmtOf m.fa) (bitsOfA m 16 32 i k)
  | 1 => (List.range 64).map fun k => exact (fmtOf m.fa) (bitsOfA m 8 64 i k)
  | _ => (List.range 64).map fun k =>
      let code (n : Nat) : Nat := ((m.aBytes.getD (4096 + 2 * (2 * i + k / 32) + n) 0)).toNat
      elementOf (code 0) (code 1) (bitsOfA m 8 64 i k)
def columnOfB (m : MatOp) (shape : Nat) (j : Nat) : List Val :=
  match shape with
  | 0 => (List.range 32).map fun k => exact (fmtOf m.fb) (bitsOfB m 16 k j)
  | 1 => (List.range 64).map fun k => exact (fmtOf m.fb) (bitsOfB m 8 k j)
  | _ => (List.range 64).map fun k =>
      let w := wordOfB m (j / 16) 2 (32 * (j / 16) + 2 * (j % 16) + k / 32)
      elementOf (w % 256) (w / 256 % 256) (bitsOfB m 8 k j)

/-- A number, 0 where there is none. -/
def realOf (v : Val) : Rat := (Val.real v).getD 0

/-- C plus the sum of the products of pairs, rounded once (R87): a NaN among the inputs, 0 times infinity and unlike infinities
give the default NaN, an infinity the infinity. An exact zero has the sign that all terms have, else minus under RDN only. -/
def dotRight (fc : Fmt) (mode : Nat) (c : Val) (pairs : List (Val × Val)) (inputs : List Val) (r : FRes) : Prop :=
  let nan := inputs.any Val.isNan
  let snan := inputs.any Val.isSnan
  let zeroTimesInf : Prop := ∃ p ∈ pairs, ∃ s t, p = (.zero s, .inf t) ∨ p = (.inf s, .zero t)
  let infinite (s : Bool) : Prop := c = .inf s ∨ ∃ p ∈ pairs, p.1.isNan = false ∧ p.2.isNan = false ∧
    ((∃ t, p.1 = .inf t ∧ ∀ u, p.2 ≠ .zero u) ∨ (∃ t, p.2 = .inf t ∧ ∀ u, p.1 ≠ .zero u)) ∧ (p.1.sign != p.2.sign) = s
  let clash : Prop := infinite true ∧ infinite false
  let total : Rat := realOf c + (pairs.map fun p => realOf p.1 * realOf p.2).sum
  let zeros (s : Bool) : Prop := c = .zero s ∧ ∀ p ∈ pairs, realOf p.1 * realOf p.2 = 0 ∧ (p.1.sign != p.2.sign) = s
  (nan = true ∨ zeroTimesInf ∨ clash → r.bits < 2 ^ fc.w ∧ r.snan = snan ∧
    exact fc r.bits = (if fc.p = 2 then .zero false else .nan false true 0 (if fc.p = 0 then fc.f - 1 else 0)) ∧
    (snan = true ∨ zeroTimesInf ∨ clash ∨ fc.p = 2 → r.flags = 1) ∧
    (¬(snan = true ∨ zeroTimesInf ∨ clash ∨ fc.p = 2) → r.flags = 0)) ∧
    (nan = false → ¬zeroTimesInf → ¬clash → (∀ s, infinite s → infiniteResult fc s 0 r) ∧
      ((∀ s, ¬infinite s) → (total ≠ 0 → roundedTo fc mode total r) ∧
        (total = 0 → (zeros true → zeroResult fc true r) ∧ (zeros false → zeroResult fc false r) ∧
          (¬zeros true → ¬zeros false → zeroResult fc (mode == 3) r))))

/-- A number cut toward zero to the eight significant bits of bf16 (R88). -/
def cutTo8 (x y : Rat) : Prop :=
  if x = 0 then y = 0
  else ∃ (k : Int) (m : Nat), (2 : Rat) ^ k ≤ magnitude x ∧ magnitude x < (2 : Rat) ^ (k + 1) ∧
    let unit := (2 : Rat) ^ ((if k < -126 then -126 else k) - 7)
    m * unit ≤ magnitude x ∧ magnitude x < (m + 1) * unit ∧ y = signedAs (decide (x < 0)) (m * unit)

/-- The three slices of a value (R88). -/
def thirdsOf (x : Val) (h : Val × Val × Val) : Prop :=
  match Val.real x with
  | some v => ∃ p q r, Val.real h.1 = some p ∧ Val.real h.2.1 = some q ∧ Val.real h.2.2 = some r ∧ cutTo8 v p ∧
      cutTo8 (v - p) q ∧ cutTo8 (v - p - q) r
  | none => h.1 = x ∧ Val.real h.2.1 = some 0 ∧ Val.real h.2.2 = some 0

/-- The exponent that scales a row or column below 1 (R89). -/
def scalesTo (xs : List Rat) (e : Int) : Prop :=
  ((∀ x ∈ xs, x = 0) → e = 0) ∧
    ((∃ x ∈ xs, x ≠ 0) → (∃ x ∈ xs, (2 : Rat) ^ (e - 1) ≤ magnitude x) ∧ ∀ x ∈ xs, magnitude x < (2 : Rat) ^ e)

/-- The signed 7-bit slices 1 to s of a number (R89). -/
def slicesTo (s : Nat) (x : Rat) (sigma : Nat → Int) : Prop :=
  ∀ p, p < s →
    let rem : Rat := x - ((List.range p).map fun q => (sigma (q + 1) : Rat) * (2 : Rat) ^ (-7 * ((q : Int) + 1))).sum
    ∃ m : Nat, nearInt 0 false (magnitude rem * (2 : Rat) ^ (7 * (p + 1))) m ∧
      sigma (p + 1) = if rem < 0 then -(min m 127 : Int) else (min m 127 : Int)

/-- A result of `mma` or `mmas` for the C of its element (i, j) (R87 to R90, R92). -/
def productRight (m : MatOp) (c i j : Nat) (r : FRes) : Prop :=
  let fc := fmtOf m.fc
  match m.kind with
  | .mma shape fresh =>
    if fc.p = 3 then
      let int (f : Fmt) (x : Nat) : Int := if f.s then signedField f.w x else x
      let sum : Int := (if fresh then 0 else signedField 32 c) + ((List.range 64).map fun k =>
        int (fmtOf m.fa) (bitsOfA m 8 64 i k) * int (fmtOf m.fb) (bitsOfB m 8 k j)).sum
      r = quiet (sum % 2 ^ 32).toNat
    else
      let cv := if fresh then .zero false else exact fc c
      let a := rowOfA m shape.toNat i
      let b := columnOfB m shape.toNat j
      dotRight fc m.rnd.toNat cv (a.zip b) (cv :: a ++ b) r
  | .mmas fn fresh =>
    let cv := if fresh then .zero false else exact fc c
    if fn = 0 then
      let a (k : Nat) : Val := exact (fmtOf (presetFormats.getD 1 0)) (bitsOfA m 32 16 i k)
      let b (k : Nat) : Val := exact (fmtOf (presetFormats.getD 1 0)) (bitsOfB m 32 k j)
      ∃ x y : Nat → Val × Val × Val, (∀ k, k < 16 → thirdsOf (a k) (x k) ∧ thirdsOf (b k) (y k)) ∧
        dotRight fc m.rnd.toNat cv ((List.range 16).flatMap fun k =>
          [((x k).1, (y k).1), ((x k).1, (y k).2.1), ((x k).2.1, (y k).1), ((x k).2.1, (y k).2.1), ((x k).1, (y k).2.2),
            ((x k).2.2, (y k).1)]) (cv :: (List.range 16).map a ++ (List.range 16).map b) r
    else
      let s := 5 + fn.toNat
      let a := (List.range 16).map fun k => exact (fmtOf (presetFormats.getD 0 0)) (bitsOfA m 64 16 i k)
      let b := (List.range 16).map fun k => exact (fmtOf (presetFormats.getD 0 0)) (bitsOfB m 64 k j)
      let x (k : Nat) : Rat := realOf (a.getD k (.zero false))
      let y (k : Nat) : Rat := realOf (b.getD k (.zero false))
      (¬(∀ v ∈ cv :: a ++ b, Val.real v ≠ none) → dotRight fc 0 cv (a.zip b) (cv :: a ++ b) r) ∧
        ((∀ v ∈ cv :: a ++ b, Val.real v ≠ none) →
          ∃ (ea eb : Int) (sa sb : Nat → Nat → Int), scalesTo ((List.range 16).map x) ea ∧ scalesTo ((List.range 16).map y) eb ∧
            (∀ k, k < 16 → slicesTo s (x k * (2 : Rat) ^ (-ea)) (sa k) ∧ slicesTo s (y k * (2 : Rat) ^ (-eb)) (sb k)) ∧
            let pairs : Rat := ((List.range 16).map fun k => ((List.range s).map fun p => ((List.range (s - p)).map fun q =>
              ((sa k (p + 1) * sb k (q + 1) : Int) : Rat) * (2 : Rat) ^ (-7 * ((p : Int) + q + 2))).sum).sum).sum
            let total : Rat := realOf cv + (2 : Rat) ^ (ea + eb) * pairs
            if total = 0 then zeroResult fc false r else roundedTo fc 0 total r)
  | _ => True

/-- The entries that an operation captured are ones that its instruction accepts (R88, R89, R310). -/
def productGood (m : MatOp) : Prop :=
  match m.kind with
  | .mma shape _ => (∀ e ∈ [m.fa, m.fb, m.fc], entryValid e = true) ∧ mmaAccepts shape.toNat (fmtOf m.fa) (fmtOf m.fb) (fmtOf m.fc) ∧
      m.rnd.toNat ≤ 4
  | .mmas fn _ => fn.toNat ≤ 3 ∧ m.fc = presetFormats.getD (if fn = 0 then 1 else 0) 0 ∧ (fn = 0 → m.rnd.toNat ≤ 4)
  | _ => False

/-- The results of an operation's elements for C (R87 to R92, R316). -/
def resultsOf (m : MatOp) (c : Nat → Nat) : List FRes :=
  let fc := fmtOf m.fc
  let overwrite : Bool := match m.kind with
    | .mma _ o => o
    | .mmas _ o => o
    | _ => false
  matResults m ((List.range 4096).map fun n => if overwrite then Val.zero false else exact fc (c n))

end Sys2Proof.Spec
end

