-- ==== Sys2Proof/SpecEvents.lean ====
section
/-! DEFINITION. Terms of the statements about the events of the table: host commands and their answers, queues, links, the
supply, resets. -/
namespace Sys2Proof.Spec
open Sys2Proof.Machine

/-- What an event needs to happen, and the state it leaves. -/
structure EventRule where
  needs : State → Prop
  effect : State → State

/-! ## Host commands (R353, R357 to R360, R364, R366) -/

/-- An answer: the command with bit 31 set, the status, the answer words, zeros up to sixteen words. -/
def reply (s : State) (code status : Nat) (words : List Word) : State :=
  { s with mgmtOut := s.mgmtOut ++
      [[word (code + 2 ^ 31 : Nat), word status] ++ words ++ List.replicate (14 - words.length) 0] }

/-- A device, or the whole package, is cut off from the bridge (R364). -/
def deviceCut (s : State) (dev : Nat) : Bool := s.quarantined.any fun q => q.dev == dev && !q.posted
def packageLost (s : State) : Bool := (List.range (s.partition.getD 8)).all (deviceCut s)

/-- Firmware runs, the link group has a bridge (R355), and neither the device nor the whole package is cut off from it (R364). -/
def reachable (s : State) (dev : Nat) : Prop :=
  s.boot = .running ∧ s.bridged = true ∧ (∀ q ∈ s.quarantined, q.dev = dev → q.posted = true) ∧ packageLost s = false

/-- A context that a command names. -/
def contextFor (s : State) (ctx : Nat) (c : Context) : Prop :=
  s.contexts.find? (fun x => x.num == ctx) = some c ∧ reachable s c.dev

/-- The context of a number. -/
def contextNo (s : State) (ctx : Nat) : Context := (s.contexts.find? fun x => x.num == ctx).getD emptyContext

/-- An entry of the format table on the hub: the last update that names it, else the one of the descriptor (R93, R94). -/
def hubEntry (c : Context) (i : Nat) : Dword :=
  if i < 32 then ((c.fmtLog.reverse.find? fun p => p.1 == i).map fun p => p.2.1).getD (c.formats.getD i 0) else 0

/-- A registration passes its checks (R288): rounding mode, kind, length, entry, home buffer within one range of R and W. -/
def reducerGood (c : Context) (kind fmt rnd len home : Nat) : Prop :=
  let f := fmtOf (hubEntry c fmt)
  rnd ≤ 4 ∧ 1 ≤ kind ∧ kind ≤ 8 ∧ 1 ≤ len ∧ len ≤ 4096 ∧
    (kind ≠ 8 → fmt < 32 ∧ f.valid = true ∧ (f.p = 3 ∨ (kind ≤ 4 ∧ f.p ≤ 2 ∧ f.w ≠ 8))) ∧
    ∃ r ∈ c.ranges, r.len ≠ 0 ∧ holds r.perm 3 = true ∧ r.base ≤ home ∧
      home + (if kind = 8 then 16 + 8 * len else len * (f.w / 8)) ≤ r.base + r.len

/-! ## The context status (R353) -/

/-- The code of the capture state. -/
def captureCode (c : Context) : Nat :=
  match c.capState with
  | .none => 0
  | .running => 1
  | .complete => 2
  | .aborted => 3

/-- Zeros in [a, a + n). -/
def zerosAt (m : List Host.Cell) (a n : Nat) : Prop := ∀ i, i < n → Memory.read m (a + i) = 0

/-- A core entry: its index, selections and values, or zeros for a core that the pass has none of. -/
def coreEntryAt (m : List Host.Cell) (a core : Nat) (e : Option PassCore) : Prop :=
  Memory.readNat m a 4 = core % 2 ^ 32 ∧ zerosAt m (a + 8) 8 ∧ ∀ i, i < 4 →
    Memory.read m (a + 4 + i) = (e.bind fun x => x.sels[i]?).getD 0 ∧
      Memory.readNat m (a + 16 + 8 * i) 8 = ((e.bind fun x => x.vals[i]?).getD 0).toNat

/-- A pass record: the header and an entry for each core. -/
def passAt (m : List Host.Cell) (a : Nat) (r : PassRec) (own : List Nat) : Prop :=
  Memory.readNat m a 4 = r.num % 2 ^ 32 ∧
    Memory.readNat m (a + 4) 4 = (if r.mismatch then 1 else 0) + (if r.snapFull then 2 else 0) + (if r.aborted then 4 else 0) ∧
    Memory.readNat m (a + 8) 8 = r.sig.toNat ∧ Memory.readNat m (a + 16) 8 = r.pages % 2 ^ 64 ∧ zerosAt m (a + 24) 40 ∧
    ∀ j k, own[j]? = some k → coreEntryAt m (a + 64 + 48 * j) k (r.cores.find? fun e => e.core == k)

/-- The status of a context with the cores whose counters it owns. -/
def statusAt (m : List Host.Cell) (a : Nat) (c : Context) (own : List Nat) : Prop :=
  Memory.readNat m a 8 = c.owlEvicted % 2 ^ 64 ∧ Memory.readNat m (a + 8) 4 = c.passes.length % 2 ^ 32 ∧
    Memory.readNat m (a + 12) 4 = own.length % 2 ^ 32 ∧ Memory.readNat m (a + 16) 4 = captureCode c ∧ zerosAt m (a + 20) 44 ∧
    ∀ p r, c.passes[p]? = some r → passAt m (a + 64 + (64 + 48 * own.length) * p) r own

/-- The cores of a status in ascending order: those at the end of the last capture, else those that the context owns now. -/
def ownersAre (s : State) (c : Context) (own : List Nat) : Prop :=
  if c.capState = .complete ∨ c.capState = .aborted then own = c.capOwned
  else own.Pairwise (fun a b => a ≤ b) ∧ own.length = s.cores.countP (fun k => k.ctrOwner == some c.num) ∧
    ∀ i, i ∈ own ↔ ∃ k ∈ s.cores, k.ix = i ∧ k.ctrOwner = some c.num

/-! ## What a created context holds (R319, R320) -/

/-- A field of some bytes, least significant first. -/
def bytesAt (d : List Byte) (off n : Nat) : Nat := ((d.drop off).take n).foldr (fun b v => b.toNat + 256 * v) 0

/-- The context has what its descriptor says. -/
def fromDescriptor (c : Context) (d : List Byte) : Prop :=
  c.dev = bytesAt d 9 1 ∧ c.prio = bytesAt d 0xA 1 ∧ c.strict = decide (bytesAt d 0xB 1 % 2 = 1) ∧
    (bytesAt d 0xB 1 / 2 % 4 = 0 → c.owlWays = 0) ∧ (bytesAt d 0xB 1 / 2 % 4 ≠ 0 → c.owlWays = 2 ^ (bytesAt d 0xB 1 / 2 % 4)) ∧
    c.seed.toNat = bytesAt d 0x10 8 ∧ c.taskBase = bytesAt d 0x18 8 ∧ c.taskSize = bytesAt d 0x20 8 ∧ c.overSize = bytesAt d 0x30 8 ∧
    c.ringBase = bytesAt d 0x38 8 ∧ c.ringSize = bytesAt d 0x40 8 ∧ c.ranges.length = 16 ∧
    ∀ i, i < 16 → ∃ r, c.ranges[i]? = some r ∧ r.base = bytesAt d (0x60 + 24 * i) 8 ∧ r.len = bytesAt d (0x68 + 24 * i) 8 / 4096 * 4096 ∧
      r.perm.toNat = bytesAt d (0x68 + 24 * i) 1 % 32 ∧ r.ibase = bytesAt d (0x70 + 24 * i) 8

/-- The context has what its grove's descriptor says. -/
def fromGrove (c : Context) (g : List Byte) : Prop :=
  (c.crews = bytesAt g 4 2 ∧ c.size = bytesAt g 6 1 ∧ c.quorum.toNat = bytesAt g 7 1 ∧ c.mode.toNat = bytesAt g 8 4 ∧ c.ftrap.toNat = bytesAt g 12 4) ∧
    (c.scratch = bytesAt g 0x20 4 ∧ c.queues = bytesAt g 0x24 2 ∧ c.entry.toNat = bytesAt g 0x28 8 ∧ c.nf.toNat = bytesAt g 0x30 1 % 16 ∧
      c.gf.toNat = bytesAt g 0x30 1 / 16) ∧
    (c.roles.map fun r => r.gangs + 256 * r.blocks) = ((List.range 4).map fun i => bytesAt g (16 + 4 * i) 4).filter (fun w => w != 0) ∧
    (∀ i, i < 24 → bytesAt g (0x40 + 8 * i) 8 ≠ 0 → (c.formats.getD (8 + i) 0).toNat = bytesAt g (0x40 + 8 * i) 8) ∧
    ∀ i, i < 64 →
      let a := 0x100 + 16 * i
      match (c.reducers[i]?).join with
      | none => bytesAt g a 1 = 0
      | some r => r.kind = bytesAt g a 1 ∧ r.entry = c.formats.getD (bytesAt g (a + 1) 1) 0 ∧ r.rnd.toNat = bytesAt g (a + 2) 1 ∧
          r.len = bytesAt g (a + 4) 4 ∧ r.home = bytesAt g (a + 8) 8

/-- The grove's descriptor, as the mappings of a context show it (R319). -/
def groveOf (s : State) (c : Context) (d : List Byte) : List Byte :=
  (List.range 1280).map fun i => Memory.read s.mem ((c.physical (bytesAt d 0 8 + i)).getD 0)

/-- The commands whose effect is stated whole. -/
def commandRule : Instr → Option EventRule
  | .rreg ctx id kind fmt rnd len home => some
      { needs := fun s => ∃ c, contextFor s ctx c ∧ id < 64 ∧ (c.reducers[id]?).join = none ∧ reducerGood c kind fmt rnd len home.toNat
        effect := fun s =>
          let c := contextNo s ctx
          let r : Reducer :=
            { kind := kind, entry := hubEntry c fmt, rnd := BitVec.ofNat 3 rnd, len := len, home := home.toNat }
          reply (s.setCtx { c with reducers := c.reducers.set id (some r) }) 3 0 [] }
  | .mapPage ctx ia ctl => some
      { needs := fun s => ∃ c, contextFor s ctx c ∧ mapGood s c ia ctl
        effect := fun s => reply (mapDone s (contextNo s ctx) ctx ia ctl) 4 0 [] }
  | .resumePart => some
      { needs := fun s => s.boot = .running ∧ s.bridged = true
        effect := fun s =>
          reply { s with quarantined := s.quarantined.filter fun q => !q.posted } 7 0
            [word (s.quarantined.countP fun q => q.posted)] }
  | .withdrawPoolPage dev size => some
      { needs := fun s => dev < s.partition.getD 8 ∧ reachable s dev ∧ size ≤ 4 ∧ poolPage s dev size ≠ none
        effect := fun s => match poolPage s dev size with
          | some p => reply { s with pools := s.pools.erase p } 11 0 [word (p.base % 2 ^ 64 : Nat), word (p.base % 2 ^ 64 / 2 ^ 32 : Nat)]
          | none => s }
  | .bootStatus => some
      { needs := fun s => s.bridged = true
        effect := fun s => if packageLost s then reply s 16 2 [] else
          let st : Nat := match s.boot with
            | .rom => 0
            | .running => 1
            | .refused => 2
          reply s 16 0 [word st, if s.boot = .running then s.version else 0, Config.fusedMinimum, word s.image.length] }
  | .download last off chunk => some
      { needs := fun s =>
          let m := (s.image ++ chunk).take (2 ^ 24)
          packageLost s = false ∧ s.boot ≠ .running ∧ s.bridged = true ∧ off = s.image.length ∧ chunk.length = 48 ∧
            (if last then off < 2 ^ 24 else off + 48 ≤ 2 ^ 24) ∧
            (last = true → imageWhole m = true ∧ imageSigned m = true ∧ Config.fusedMinimum.toNat ≤ (imageVersion m).toNat)
        effect := fun s =>
          let m := (s.image ++ chunk).take (2 ^ 24)
          let u := if last then { s with image := m, boot := .running, version := imageVersion m } else { s with image := m }
          reply u 17 0 [word m.length] }
  | _ => none

/-- The code of a command and the device that it is for. -/
def commandFor (s : State) (i : Instr) : Option (Nat × Nat) :=
  let at_ (ctx code : Nat) : Option (Nat × Nat) := (s.contexts.find? fun x => x.num == ctx).map fun c => (code, c.dev)
  let on (dev code : Nat) : Option (Nat × Nat) := if dev < s.partition.getD 8 then some (code, dev) else none
  match i with
  | .destroyContext ctx => at_ ctx 2
  | .rreg ctx _ _ _ _ _ _ => at_ ctx 3
  | .mapPage ctx _ _ => at_ ctx 4
  | .unmapPage ctx _ => at_ ctx 5
  | .readStatus ctx _ _ => at_ ctx 6
  | .addPoolPages dev _ _ _ => on dev 10
  | .withdrawPoolPage dev _ => on dev 11
  | _ => none

/-! ## Queues and the host (R343, R356, R358) -/

/-- A device queue. -/
def queueAt (s : State) (dev ix : Nat) : Option Queue := s.queues.find? fun q => q.dev == dev && q.ix == ix

/-- The queue with other messages. -/
def withMsgs (s : State) (q : Queue) (msgs : List (List Word)) : State := s.setQueue { q with msgs := msgs }

/-- The head of a queue goes to the host. -/
def takenFrom (s : State) (q : Queue) : State :=
  { withMsgs s q q.msgs.tail with hostInbox := s.hostInbox ++ q.msgs.take 1 }

/-- The device queue that a host queue names. -/
def hostQueueAt (s : State) (dev : Nat) : HostQueue → Option Queue
  | .grove i => (queueAt s dev i).filter fun q => q.grove.isSome
  | .error ctx => ((s.contexts.find? fun c => c.num == ctx).bind fun c => queueAt s dev c.errQueue).filter fun q =>
      q.ctx == ctx && q.grove.isNone
  | .management => none

/-- The rules of posts and receipts. -/
def queueRule : Instr → Option EventRule
  | .hostPost dev ix msg => some
      { needs := fun s => s.boot = .running ∧ s.bridged = true ∧ dev < s.mode ∧
          (deviceCut s dev = true ∨ packageLost s = true ∨ (msg.length = 16 ∧ ∃ q, queueAt s dev ix = some q ∧ q.grove ≠ none))
        effect := fun s => if deviceCut s dev || packageLost s then { s with hostStatus := 2 } else match queueAt s dev ix with
          | some q => if q.msgs.length < 32 then { withMsgs s q (q.msgs ++ [msg]) with hostStatus := 0 } else { s with hostStatus := 1 }
          | none => s }
  | .hostReceive dev queue => some
      { needs := fun s => match queue with
          | .management => s.mgmtOut ≠ []
          | .grove _ => ∃ q, hostQueueAt s dev queue = some q ∧ q.msgs ≠ [] ∧ (s.ctx q.ctx).capture = none ∧
              ∀ k ∈ s.quarantined, k.dev ≠ dev
          | .error _ => ∃ q, hostQueueAt s dev queue = some q ∧ q.msgs ≠ [] ∧ ∀ k ∈ s.quarantined, k.dev ≠ dev
        effect := fun s => match queue with
          | .management => { s with mgmtOut := s.mgmtOut.tail, hostInbox := s.hostInbox ++ s.mgmtOut.take 1 }
          | _ => match hostQueueAt s dev queue with
              | some q => takenFrom s q
              | none => s }
  | .errorMessagePost ctx => some
      { needs := fun s => ∃ c q, s.contexts.find? (fun x => x.num == ctx) = some c ∧ c.errKept ≠ [] ∧
          queueAt s c.dev c.errQueue = some q ∧ q.msgs.length < 32
        effect := fun s =>
          let c := contextNo s ctx
          match queueAt s c.dev c.errQueue with
          | some q => (withMsgs s q (q.msgs ++ c.errKept.take 1)).setCtx { c with errKept := c.errKept.tail }
          | none => s }
  | _ => none

/-! ## Links (R361 to R364, R369) -/

/-- A port as training leaves it. -/
def trainedPort (n : Nat) : Port :=
  { num := n, up := true, expect := 0, sendSeq := 0, unacked := [], waiting := [], escape := [], wire := [], parts := [] }

/-- A port as it stands; one never used is as training leaves it. -/
def portAt (s : State) (n : Nat) : Port := (s.ports.find? fun p => p.num == n).getD (trainedPort n)

/-- The port replaced. -/
def withPort (s : State) (p : Port) : State := { s with ports := p :: s.ports.filter fun q => q.num != p.num }

/-- A header with the link sequence number in bits 23:16 (R361). -/
def numberedFlit (f : Flit) (q : BitVec 8) : Flit :=
  { f with header := fromBits 64 fun i => if 16 ≤ i ∧ i < 24 then q.getLsbD (i - 16) else f.header.getLsbD i }

/-- A field of a flit's header, and its virtual channel (R361). -/
def flitField (f : Flit) (lo n : Nat) : Nat := f.header.toNat / 2 ^ lo % 2 ^ n
def channelOf (f : Flit) : Nat := flitField f 30 2

/-- Two flits of one packet: source, destination, number and kind agree (R361). -/
def samePacket (f g : Flit) : Bool :=
  decide (flitField f 32 8 = flitField g 32 8) && decide (flitField f 40 8 = flitField g 40 8) &&
    decide (flitField f 48 16 = flitField g 48 16) && decide (flitField f 24 6 = flitField g 24 6)

/-- Flits leave: numbered, on the lanes, and kept until acknowledged (R362). -/
def leaveAt (p : Port) (fs : List Flit) : Port :=
  let out := (List.range fs.length).map fun i =>
    numberedFlit (fs.getD i { header := 0, payload := [] }) (p.sendSeq + BitVec.ofNat 8 i)
  { p with unacked := p.unacked ++ out, wire := p.wire ++ out, sendSeq := p.sendSeq + BitVec.ofNat 8 out.length }

/-- One packet at a time leaves by the nine places of the escape channel's reserved slot (R362; the places are those of log 77). -/
def slotLeaves (p : Port) : Port :=
  let held := p.unacked.filter fun f => channelOf f == 2
  match (held ++ p.escape).head? with
  | none => p
  | some h =>
    let mates := p.escape.filter fun f => samePacket f h
    let room := 9 - held.length
    leaveAt { p with escape := mates.drop room ++ p.escape.filter fun f => !samePacket f h } (mates.take room)

/-- What can leave a port leaves: the escape channel by its slot, then the flits of the data channels while the other 119 of the
128 places hold them (R362; log 77). -/
def leaves (p : Port) : Port :=
  let q := slotLeaves p
  let room := 119 - (q.unacked.filter fun f => channelOf f != 2).length
  leaveAt { q with waiting := q.waiting.drop room } (q.waiting.take room)

/-- A device of the group that is not heard: one of the package that is cut off, or another package's while all of them are (R364,
R369). -/
def unheard (s : State) (n : Nat) : Bool :=
  if s.number ≤ n ∧ n < s.number + s.partition.getD 1 then deviceCut s (n - s.number) else packageLost s

/-- A flit that waits for its source to be connected again (R369). -/
def heldBack (s : State) (f : Flit) : Bool := unheard s (flitField f 40 8)

/-- What can leave a port leaves, but for the flits that are held back. -/
def leavesFrom (s : State) (p : Port) : Port :=
  let q := leaves { p with waiting := p.waiting.filter fun f => !heldBack s f, escape := p.escape.filter fun f => !heldBack s f }
  { q with waiting := q.waiting ++ p.waiting.filter (heldBack s), escape := q.escape ++ p.escape.filter (heldBack s) }

/-- Flits sent at a port, each behind those of its channel that wait. -/
def sentAt (s : State) (p : Port) (fs : List Flit) : Port :=
  if p.up = true then
    leavesFrom s { p with
      waiting := p.waiting ++ fs.filter fun f => channelOf f != 2, escape := p.escape ++ fs.filter fun f => channelOf f == 2 }
  else p

/-- The flit on the escape channel 2 (R361). -/
def onEscape (f : Flit) : Flit :=
  { f with header := fromBits 64 fun i => if i = 30 then false else if i = 31 then true else f.header.getLsbD i }

/-- Another port that is up, other than the one in host mode (R355). -/
def elsewhere (s : State) (n : Nat) : Option Nat :=
  (List.range 18).find? fun m => m != n && s.hostPort != some m && (portAt s m).up

/-- Flits go out by a port, or on the escape channel by another one that is up; those that are held back wait with their
transactions (R362, R369). -/
def routed (s : State) (n : Nat) (fs : List Flit) : State :=
  let out := fs.filter fun f => !heldBack s f
  if out = [] then s
  else if (portAt s n).up then withPort s (sentAt s (portAt s n) out)
  else match elsewhere s n with
    | some m => withPort s (sentAt s (portAt s m) (out.map onEscape))
    | none => s

/-- A port that goes down: its outstanding flits and those that wait, but those of the escape channel, leave at another port
that is up (R362, R363). -/
def portLost (s : State) (n : Nat) : State :=
  let p := portAt s n
  routed (withPort s { p with up := false, unacked := [], waiting := [], escape := [], wire := [], parts := [] }) n
    ((p.unacked ++ p.waiting).filter fun f => channelOf f != 2)

/-- The package cut off from a bridge that is not its own: every device quarantines (R355, R364). -/
def cutOff (s : State) : State :=
  if s.hostPort.isSome then s else { s with quarantined := (List.range (s.partition.getD 8)).map fun d => { dev := d, posted := false } }

/-- A flit that is dropped: a CRC error, or out of order (R362). -/
def flitDropped (p : Port) (f : Flit) (crcOk : Bool) : Prop := crcOk = false ∨ flitField f 16 8 ≠ p.expect.toNat

/-- A flit of channel 3, of an unknown kind or with a place that no packet has (R361). -/
def flitReserved (f : Flit) : Bool :=
  decide (flitField f 30 2 = 3) || decide (flitField f 24 6 = 0) || decide (6 < flitField f 24 6) ||
    decide (flitField f 8 8 = 0) || decide (9 < flitField f 8 8) || decide (flitField f 8 8 ≤ flitField f 0 8)

/-- The flit is for a device of the package (R355, R361). -/
def flitOurs (s : State) (f : Flit) : Bool :=
  decide (s.number ≤ flitField f 32 8) && decide (flitField f 32 8 < s.number + s.partition.getD 1)

/-- The transaction of ours that a packet from the other end answers. -/
def flitEnds (f : Flit) (t : Transaction) : Bool := t.own == flitField f 32 8 && t.peer == flitField f 40 8 && t.tseq.toNat == flitField f 48 16

/-- The end-to-end acknowledgement of a packet; what its payload says is the model's (log 10). -/
def ackFlit (f : Flit) : Flit :=
  { header := BitVec.ofNat 64 (flitField f 48 16 * 2 ^ 48 + flitField f 32 8 * 2 ^ 40 + flitField f 40 8 * 2 ^ 32 +
      flitField f 30 2 * 2 ^ 30 + 6 * 2 ^ 24 + 2 ^ 8)
    payload := List.replicate 56 0 }

/-- A packet of one flit, with no part of another one in. -/
def flitWhole (p : Port) (f : Flit) : Prop := flitField f 8 8 = 1 ∧ p.parts = []

/-- What a transaction that has been applied is sent back (R363): the acknowledgement, with the answer to a read. -/
def sentBack (t : Transaction) : List Flit :=
  if t.done then match t.flits with
    | f :: _ => t.answer ++ [ackFlit f]
    | [] => []
  else []

/-- What an arriving flit leaves (R361 to R364): a dropped one nothing, a reserved one its count, one for a device that is cut off
nothing, one for another package goes on; an acknowledgement ends its transaction, a response is kept with it; a request is kept
once, to be applied, and once applied is acknowledged each time it comes. -/
def flitTaken (s : State) (port : Nat) (f : Flit) (crcOk : Bool) : State :=
  let p := portAt s port
  let q : Port := { p with expect := p.expect + 1 }
  if !crcOk || decide (flitField f 16 8 ≠ p.expect.toNat) then s
  else if flitReserved f then { withPort s q with discarded := s.discarded + 1 }
  else if unheard s (flitField f 32 8) then withPort s q
  else if !flitOurs s f then
    match elsewhere s port with
    | some m => withPort (withPort s q) (sentAt s (portAt s m) [f])
    | none => withPort s q
  else if flitField f 24 6 = 6 then { withPort s q with sent := s.sent.filter fun t => !flitEnds f t }
  else if flitField f 24 6 = 3 then
    { withPort s q with sent := s.sent.map fun t => if flitEnds f t then { t with answer := [f] } else t }
  else match s.applied.find? (flitEnds f) with
    | some t => routed (withPort s q) port (sentBack t)
    | none =>
      let t : Transaction :=
        { own := flitField f 32 8, peer := flitField f 40 8, tseq := BitVec.ofNat 16 (flitField f 48 16), flits := [f], port := port, answer := [] }
      { withPort s q with applied := s.applied ++ [t] }

/-- The rules of links. -/
def linkRule : Instr → Option EventRule
  | .linkFlitReceive port flit crcOk => some
      { needs := fun s => port < 18 ∧ (portAt s port).up = true ∧
          (flitDropped (portAt s port) flit crcOk ∨ flitReserved flit = true ∨ unheard s (flitField flit 32 8) = true ∨ flitOurs s flit = false ∨
            flitWhole (portAt s port) flit)
        effect := fun s => flitTaken s port flit crcOk }
  | .portDown port cut => some
      { needs := fun s => port < 18 ∧ (portAt s port).up = true ∧ (portAt s port).unacked ≠ []
        effect := fun s =>
          portLost (if cut then cutOff s else s) port }
  | .e2eRetransmit dst tseq port => some
      { needs := fun s => port < 18 ∧ s.hostPort ≠ some port ∧ (portAt s port).up = true ∧
          ∃ t ∈ s.sent, t.peer = dst ∧ t.tseq.toNat = tseq ∧ t.port ≠ port ∧ unheard s t.own = false
        effect := fun s =>
          let mine (t : Transaction) : Bool := t.peer == dst && t.tseq.toNat == tseq && t.port != port && !unheard s t.own
          match s.sent.find? mine with
          | none => s
          | some t =>
            let u := { s with sent := s.sent.map fun u => if mine u && u.own == t.own then { u with port := port } else u }
            withPort u (sentAt s (portAt s port) t.flits) }
  | .linkReconnect dev => some
      { needs := fun s => ∃ q ∈ s.quarantined, q.dev = dev ∧ q.posted = false
        effect := fun s =>
          let post (q : Quarantine) : Quarantine := if q.dev = dev then { q with posted := true } else q
          let u : State := { s with
            ports := s.ports.map fun p => if p.up then p else trainedPort p.num
            quarantined := s.quarantined.map post }
          reply { u with ports := u.ports.map (leavesFrom u) } 8 0 [word (s.number + dev)] }
  | _ => none

/-! ## Captures (R349 to R351, R353) -/

/-- A pass record says what the capture was at the end of the pass. -/
def passRecorded (k : Capture) (r : PassRec) : Prop :=
  r.num = k.pass ∧ r.pages = k.snaps.length ∧ r.snapFull = k.snapFull ∧ r.aborted = k.aborted ∧
    r.mismatch = decide (k.pass ≠ 1 ∧ r.sig ≠ k.first)

/-- The caches hold nothing of a context that memory has not. -/
def writtenBack (s : State) (c : Context) : Prop :=
  (∀ q ∈ s.l2, q.ctx = c.num → q.modified = false) ∧ ∀ l ∈ s.msc, ∀ m ∈ c.maps, l * 64 < m.pa ∨ m.pa + m.size ≤ l * 64

/-- The image is of the capture's crew and of its gangs, each once; it has no peer-add to send again. -/
def captureWhole (s : State) (ctx : Nat) (k : Capture) : Prop :=
  k.crewAt.ctx = ctx ∧ k.crewAt.rank = k.crew ∧ (∃ x ∈ s.crews, x.ctx = ctx ∧ x.rank = k.crew) ∧ (k.gangsAt.map Gang.id).Nodup ∧
    (∀ g ∈ k.gangsAt, g.live = true ∧ g.id.ctx = ctx ∧ g.id.crew = k.crew ∧ (s.gang? g.id).isSome = true) ∧ k.addsAt = []

/-- Pre-images are of different pages, and none lies in a page that one is of. -/
def snapsApart (k : Capture) : Prop :=
  (k.snaps.map Prod.fst).Nodup ∧ ∀ p ∈ k.snaps, ∀ q ∈ k.snaps, p.2 + 4096 ≤ q.1 * 4096 ∨ q.1 * 4096 + 4096 ≤ p.2

/-! ## Supply, ECC, resets, caches (R260, R365 to R368) -/

/-- Corrected errors of a unit. -/
def eccOf (s : State) (unit : Nat) : Nat := ((s.ecc.find? fun p => p.1 == unit).map Prod.snd).getD 0

/-- Everything of the package cleared; the host's side, the package's place in the link group (R355) and the model's own stamps
stay. -/
def wiped (s : State) : State :=
  { State.reset with
    number := s.number, hostPort := s.hostPort, bridged := s.bridged
    hostInbox := s.hostInbox, hostStatus := s.hostStatus, hostData := s.hostData, stretched := s.stretched
    tick := s.tick, freeIx := s.freeIx, agenda := s.agenda }

/-- The rules of resets, the supply, reports and replacement. -/
def packageRule : Instr → Option EventRule
  | .powerUp => some { needs := fun _ => True, effect := wiped }
  | .coldReset => some { needs := fun _ => True, effect := fun s => { wiped s with mem := s.hbm, side := s.hbm, hbm := s.hbm } }
  | .warmReset => some
      { needs := fun _ => True
        effect := fun s =>
          { wiped s with
            cores := s.cores.map fun k => { freshCore k.ix with cycles := k.cycles }
            mem := s.mem, side := s.side, hbm := s.hbm, l1 := s.l1, l2 := s.l2, msc := s.msc, slices := s.slices, mgmtOut := s.mgmtOut
            boot := s.boot, version := s.version, image := s.image, ecc := s.ecc, ports := s.ports, tseqs := s.tseqs, sent := s.sent
            applied := s.applied, discarded := s.discarded, nextCtx := s.nextCtx } }
  | .supplyDroop stack => some
      { needs := fun s => stack < 8 ∧ stack ∉ s.stretched, effect := fun s => { s with stretched := s.stretched ++ [stack] } }
  | .supplyRecover stack => some
      { needs := fun s => stack ∈ s.stretched
        effect := fun s => { s with stretched := s.stretched.filter fun x => x != stack } }
  | .eccCountReport => some
      { needs := fun s => ∃ u, u < 12 ∧ eccOf s u ≠ 0
        effect := fun s => reply { s with ecc := [] } 9 0 ((List.range 12).map fun u => word (eccOf s u)) }
  | .l2Eviction dev ctx piece => some
      { needs := fun s => (∃ q ∈ s.l2, q.dev = dev ∧ q.ctx = ctx ∧ q.piece = piece) ∧ uncaptured s ∧ s.msc.length < 2 ^ 21
        effect := fun s =>
          let u := match s.l2.find? fun q => q.dev == dev && q.ctx == ctx && q.piece == piece with
            | some q =>
              if q.modified then
                { s with
                  dirty := if s.dirty.contains (q.pa / 4096) then s.dirty else s.dirty ++ [q.pa / 4096]
                  side := Memory.copyRange s.mem s.side (q.pa / 64 * 64) 64
                  msc := if s.msc.contains (q.pa / 64) then s.msc else s.msc ++ [q.pa / 64] }
              else s
            | none => s
          { u with l2 := s.l2.filter fun q => !(q.dev == dev && q.ctx == ctx && q.piece == piece) } }
  | _ => none

/-! ## Turns of contexts on a core (R325) -/

/-- Saved contexts of a core that are ready, at the priority of the resident one. -/
def mates (s : State) (core r : Nat) : List Nat :=
  (s.core core).saved.filter fun c => s.readyOn core c && decide (s.priority core c = s.priority core r)

/-- The device of a core is not under quarantine. -/
def notQuarantined (s : State) (core : Nat) : Prop := ∀ q ∈ s.quarantined, q.dev ≠ core / s.devCores

/-- The rules of quanta and pre-emption. -/
def turnRule : Instr → Option EventRule
  | .quantumExpiry core => some
      { needs := fun s => ∃ r, (s.core core).resident = some r ∧ (s.core core).preempt = none ∧ notQuarantined s core ∧
          2 ^ 20 ≤ (s.core core).units ∧ (mates s core r).length ≤ 1 ∧
          ∀ c ∈ (s.core core).saved, s.readyOn core c = true → s.priority core c ≤ s.priority core r
        effect := fun s => s.modCore core fun k =>
          match mates s core (k.resident.getD 0) with
          | [] => { k with units := 0 }
          | c :: _ => { k with preempt := some c } }
  | .preemption core ctx => some
      { needs := fun s => ∃ r, (s.core core).resident = some r ∧ (s.core core).preempt = none ∧ notQuarantined s core ∧
          (s.core core).saved = [ctx] ∧ s.readyOn core ctx = true ∧ s.priority core r < s.priority core ctx
        effect := fun s => s.modCore core fun k => { k with preempt := some ctx } }
  | _ => none

/-- All events whose effect is stated whole, besides the host's commands. -/
def eventRule (i : Instr) : Option EventRule :=
  (queueRule i).or <| (linkRule i).or <| (packageRule i).or (turnRule i)

/-! ## Waiting for rows (R61 to R63) -/

/-- The gang in issue is the only one, unsplit, on its core, not halted, and waits for rows and compact store, for no handler's
frame, none of its rows lent. -/
def loneWaiter (s : State) (r c age : Nat) : Prop :=
  s.cur.live = true ∧ s.others = [] ∧ s.cur.away = false ∧ s.halts s.cur = false ∧ (s.crewOf s.cur).stopped = false ∧
    s.cur.frag = none ∧ (∀ e ∈ s.cur.table, e = none) ∧ s.cur.lent = 0 ∧ s.cur.owed = none ∧
    s.cur.entering = none ∧ s.cur.ctl.wait = .rows r c age ∧ (r ≠ 0 ∨ c ≠ 0)

end Sys2Proof.Spec
end

