-- ==== Sys2Proof/Certificates/Slice0/Obligations.lean ====
section
/-! DEFINITION. The statements for the provers, each a proposition about the model; the terms they use are in Safety and
Spec. -/
open Sys2Proof Sys2Proof.Machine Sys2Proof.Safety Sys2Proof.Spec

/-! ## Encoding and the step -/

/-- The words of the spec's own worked examples decode to the instructions they stand for: a marked `nop`, `jtab`, `unwind`,
`pedq`, `rdraw`, `fgrow`, `iaddi`, `shli`, `sari`, `icmp.lt`, `mfs`, `fadd`, `fmac`, `ld.w`, `st.b`, `ldx.w.x`, `lda.w.device`,
`atom.add.r.w.device`, `fence.rel.device`, `wait.cp`, `cctl.wbinv.memory`, `cpym`, `mma`, `mmas.s8.o`, `mwait`, `rrset`. -/
def Obligations.SpecWordsDecode : Prop :=
  decodeWord 0x80000000#32 = .ok (.nop ⟨true⟩) ∧
  decodeWord 0x05121006#32 = .ok (.jtab ⟨false, 9, 4, 6⟩) ∧
  decodeWord 0x08000C01#32 = .ok (.unwind ⟨false, 3⟩) ∧
  decodeWord 0x0E0C0002#32 = .ok (.pedq ⟨false, 6, 2⟩) ∧
  decodeWord 0x15180002#32 = .ok (.rdraw ⟨false, 12⟩) ∧
  decodeWord 0x16000028#32 = .ok (.fgrow ⟨false, 0x28⟩) ∧
  decodeWord 0x21122401#32 = .ok (.iaddi ⟨false, 9, 9, 1⟩) ∧
  decodeWord 0x280E1C03#32 = .ok (.shli ⟨false, 7, 7, 3⟩) ∧
  decodeWord 0x280E1E03#32 = .ok (.sari ⟨false, 7, 7, 3⟩) ∧
  decodeWord 0x2C442428#32 = .ok (.icmp ⟨false, 2, 2, 9, 5⟩) ∧
  decodeWord 0x3B0C01E4#32 = .ok (.mfs ⟨false, 6, 15, 4⟩) ∧
  decodeWord 0x40102450#32 = .ok (.fadd ⟨false, 8, 9, 10⟩) ∧
  decodeWord 0x41181030#32 = .ok (.fmac ⟨false, 12, 4, 6⟩) ∧
  decodeWord 0x62100008#32 = .ok (.ldW ⟨false, 8, 0, 8⟩) ∧
  decodeWord 0x641213FF#32 = .ok (.stB ⟨false, 9, 4, 0x3FF⟩) ∧
  decodeWord 0x6828106E#32 = .ok (.ldx ⟨false, 20, 4, 13, 1, 2⟩) ∧
  decodeWord 0x6C0C22A0#32 = .ok (.lda ⟨false, 6, 8, 2, 5⟩) ∧
  decodeWord 0x6E10102D#32 = .ok (.atom ⟨false, 8, 4, 0, 2, 1, 5⟩) ∧
  decodeWord 0x70000029#32 = .ok (.fence ⟨false, 5, 1⟩) ∧
  decodeWord 0x7200003B#32 = .ok (.wait ⟨false, 7, 3⟩) ∧
  decodeWord 0x7300103B#32 = .ok (.cctlWbinv ⟨false, 4, 7⟩) ∧
  decodeWord 0x75205030#32 = .ok (.cpym ⟨false, 16, 20, 6⟩) ∧
  decodeWord 0x762040C0#32 = .ok (.mma ⟨false, 2, 0, 16, 24⟩) ∧
  decodeWord 0x77424103#32 = .ok (.mmasS8 ⟨false, 4, 1, 16, 32⟩) ∧
  decodeWord 0x7A000031#32 = .ok (.mwait ⟨false, 6⟩) ∧
  decodeWord 0x7C000C51#32 = .ok (.rrset ⟨false, 3, 10⟩)

/-- What an instruction's word decodes to is that instruction, for every instruction that has a word and that the encoding
rules admit (R96 to R109); the four `pmctl` share one word (R253). -/
def Obligations.EncodeThenDecode : Prop :=
  ∀ (i : Instr) (w : Word), encode i = some w → i.illegal = none → decodeWord w = .ok i.spelling

/-- The `pmctl` that shares its word with another means the same: the operand selects the action (R253). -/
def Obligations.SpellingsMeanTheSame : Prop :=
  ∀ (i : Instr) (s : State), exec i s = exec i.spelling s

/-- When nothing is scheduled and no fault is pending, the gang in issue may issue, and its bytes decode to an
instruction that does something, a step runs that instruction and counts it towards the turn. Where the manual is open,
the model's choices of log 1 hold. -/
def Obligations.StepRunsDecoded : Prop :=
  ∀ (s t : State) (i : Instr), s.agenda = [] → s.cur.live = true → s.cur.pend = [] → s.streak < Config.turnUnits →
    s.turnsOf s.cur = [s.cur] → s.fetchInstr s.cur = .ok i → exec i s = .next t → t ≠ s →
    step s = .next { t with streak := t.streak + 1 }

/-- Every instruction answers a next state, except that an instruction of a gang faults when no gang is in issue: the model
refuses nothing. -/
def Obligations.NothingRefused : Prop :=
  ∀ (i : Instr) (s : State), (∃ t, exec i s = .next t) ∨ (s.cur.live = false ∧ exec i s = .fault .noGang)

/-! ## Registers, masks and status -/

/-- Every integer instruction with a register result writes, in the lanes of act, the value its rule gives, with the tag of
R53 and R54; every other register, mask, status, special and exception register and every byte of memory stays (R167 to R182). -/
def Obligations.IntegerResults : Prop :=
  ∀ (i : Instr) (r : LaneRule) (s : State), integerRule i = some r → mayRun r.kind s → r.ready s →
    ∃ t, exec i s = .next t ∧ goesTo s t (after s.cur 4) ∧ onlyRegs [r.dst.toNat] s t ∧ r.result s t

/-- Cross-lane results, mask counts, pedigree words and the mode word: as IntegerResults. `pedq` and `vbcast` have the words of their
rules: `pedq` gives the header of `$PED`, its element or 0, `vbcast` the value of its lane, in act or not, both with tag U (R148,
R149, R185, R187, R188, R190, R194). -/
def Obligations.GangResults : Prop :=
  (∀ (i : Instr) (s : State) (r : LaneRule), gangRule s i = some r → mayRun r.kind s → r.ready s →
    ∃ t, exec i s = .next t ∧ goesTo s t (after s.cur 4) ∧ onlyRegs [r.dst.toNat] s t ∧ r.result s t) ∧
  (∀ (d : BitVec 7) (i : BitVec 5), decodeWord (0x0E000000#32 + d.setWidth 32 <<< 17 + i.setWidth 32) = .ok (.pedq ⟨false, d, i⟩)) ∧
  ∀ d a lane : BitVec 7, decodeWord (0x37000000#32 + d.setWidth 32 <<< 17 + a.setWidth 32 <<< 10 + lane.setWidth 32) =
    .ok (.vbcast ⟨false, d, a, lane⟩)

/-- Every instruction with a mask result writes the bits of the lanes of act of its mask and nothing else; m0 is never written
(R177, R178, R184, R185). -/
def Obligations.MaskResults : Prop :=
  ∀ (i : Instr) (r : MaskRule) (s : State), maskResult i = some r → mayRun vectorUnit s → r.ready s →
    ∃ t, exec i s = .next t ∧ goesTo s t (after s.cur 4) ∧ r.result s t

/-- The instructions of status and streams leave exactly the change of their rule: `nop`, `ucmp`, `setmode`, `mts`,
`fclr`, `rseed`, `rjump`, `yield`; that `yield` gives the events and the other gangs their turn, by the counter `streak`
of the model's own, is the model's choice (log 1) and not the manual's. -/
def Obligations.StatusResults : Prop :=
  ∀ (i : Instr) (r : EffectRule) (s : State), statusRule i = some r → mayRun r.kind s → r.needs s →
    ∃ t, exec i s = .next t ∧ goesTo s t (after s.cur 4) ∧ calmly (r.effect s) t

/-- The faults of a unit at issue, each a precise entry with no other effect: FRAMEREG of a register outside the frame,
NOTUNIF of an operand that is not uniform, HAZARD of a pending one, PRIV of a privileged instruction in user mode,
FMTEMPTY of an empty entry and FMTBAD of one that the instruction or its rounding mode does not accept, MBOX of a queue
beyond the grove's or of a receive in a capture, QUOTA of a call beyond the role's rows, SPAWNARG of a window that does
not pack and PEDRANK of a full position, of a crew of one gang, MMAMATCH outside the quorum (R26, R33, R51, R58, R76,
R128, R141 to R143, R150, R152, R165, R196, R249 to R251, R303, R335). Where the manual is open, the model's choices of
logs 45, 90 hold. -/
def Obligations.UnitFaults : Prop :=
  ∀ (s : State) (h : Handler),
    let takes (i : Instr) (code : BitVec 8) : Prop := canHandle s code h →
      ∃ t, exec i s = .next t ∧ entered s t h (unitRecord code s.cur.ctl.pc false) 0 s.cur.ctl.mask (s.cur.ctl.pc + 4)
    let inFrame (xs : List Nat) : Prop := ∀ x ∈ xs, x < s.cur.regs.length
    let whole : Prop := s.cur.frag = none ∧ s.cur.entries = []
    let alone : Prop := whole ∧ s.crewGangs s.cur.id.ctx s.cur.id.crew = [s.cur]
    s.cur.ctl.wait = .ready →
    (∀ (i : Instr) (r : LaneRule), integerRule i = some r →
      let named := (r.dst :: r.reads).map BitVec.toNat
      (¬inFrame named → takes i 0x05) ∧ (inFrame named → (∃ x ∈ r.uniform, (s.cur.val x.toNat).tag ≠ 0) → takes i 0x04) ∧
      (inFrame named → (∀ x ∈ r.uniform, (s.cur.val x.toNat).tag = 0) → (∃ x ∈ r.reads, (s.cur.reg x.toNat).pend ≠ none) →
        takes i 0x03)) ∧
    (∀ i, privileged i = true → takes i 0x02) ∧
    (∀ (i : Instr) (r : FloatRule), floatRule s i = some r ∨ lateRule s i = some r → mayRun r.kind s → (∀ x ∈ r.even, x % 2 = 0) →
      inFrame (r.dsts ++ r.reads) →
      ((∃ f ∈ entriesOf s i, f.valid = false) → takes i 0x11) ∧
      ((∀ f ∈ entriesOf s i, f.valid = true) → ¬r.accepted → takes i 0x10)) ∧
    (∀ o : FmtDA, inFrame (o.a.toNat :: recordOf o.d 16) → ∀ i ∈ [.mbrecv o, .mbrecvP o],
      ((s.cur.val o.a.toNat).tag ≠ 0 → takes i 0x04) ∧
      (uniformReady s [o.a.toNat] → s.here.queues ≤ (s.cur.lane o.a.toNat 0).toNat ∨ s.here.capture ≠ none → takes i 0x17)) ∧
    (∀ o : FmtAB, inFrame (o.b.toNat :: recordOf o.a 16) →
      ((∃ x ∈ o.b.toNat :: recordOf o.a 16, (s.cur.val x).tag ≠ 0) → takes (.mbsend o) 0x04) ∧
      (uniformReady s (recordOf o.a 16 ++ [o.b.toNat]) → s.here.queues ≤ (s.cur.lane o.b.toNat 0).toNat → takes (.mbsend o) 0x17)) ∧
    (∀ (i : Instr) (c : CallRule), callOf s i = some c → mayRun serialUnit s → c.needs → rowsOf c.gf ≤ regsOf c.nf →
      s.cur.grantMade = false → s.quotaRows s.cur < s.cur.held + rowsOf c.gf → takes i 0x16) ∧
    (∀ (o : FmtCall) (c : Crew), alone → mayRun serialUnit s → s.cur.id.rank = 0 → rowsOf o.g ≤ regsOf o.n →
      s.crews.find? (fun x => x.ctx == s.cur.id.ctx && x.rank == s.cur.id.crew) = some c → c.flat = none →
      let packed := packArgs ((s.cur.regs.drop (s.cur.regs.length - 8)).map Reg.val)
      (packed = none → takes (.spawn o) 0x08) ∧
      (packed ≠ none → spawnsOf s.cur.ped = 1023 → takes (.spawn o) 0x09)) ∧
    ∀ (i : Instr) (r : MmaRule), collectiveRule s i = some r → mayRun serialUnit s → whole → unmet s → r.good →
      inFrame (recordOf r.b (4 * r.per + r.scale)) → uniformReady s (recordOf r.a 4) → s.here.quorum.getLsbD s.cur.id.rank = false →
      takes i 0x0F

/-! ## Control transfers -/

/-- Branches go to their target when taken and on when not, and a fragment that comes to its join address parks, the
last one fusing the split. A `jtab` whose lanes all have one target goes there; one with several splits the gang or
fragment; lanes out of range take JTRANGE, and so does a fragment that finds the table full for good, while it waits as
long as an entry may become free. `bcc`, `bmz`, `bmnz`, `jtab` add their contribution to `$SIG`. A fragment waits with a
serial instruction while another one of its split runs (R40 to R44, R50, R66, R100, R131 to R135, R352). Where the
manual is open, the model's choices of logs 24, 25, 27, 84, 88 hold. -/
def Obligations.Branches : Prop :=
  (∀ (i : Instr) (b : Branch) (s : State), branchOf s i = some b → s.cur.live = true →
     ∃ t, exec i s = .next t ∧
       goesTo s t (if b.taken then s.cur.ctl.pc + 4 + BitVec.ofInt 57 (4 * b.offset) else after s.cur 4) ∧
       calmly (if b.signed then s.modCur fun g => contributed g (g.ctl.pc.setWidth 64) (if b.taken then 1 else 0) else s) t) ∧
  (∀ (i : Instr) (b : Branch) (s : State) (n : Nat) (e : Entry) (sp : Split), branchOf s i = some b → inSplit s n e sp →
     (if b.taken then s.cur.ctl.pc + 4 + BitVec.ofInt 57 (4 * b.offset) else after s.cur 4) = e.join →
     (∀ p, sp.parent = some p → p ≠ e.split ∧ ∃ up, s.cur.split? p = some up ∧ up.join ≠ sp.join) →
     ∃ t, exec i s = .next t ∧ parked s t n e sp ∧
       calmly (if b.signed then s.modCur fun g => contributed g (g.ctl.pc.setWidth 64) (if b.taken then 1 else 0) else s) t) ∧
  (∀ (o : FmtDAI) (s v : State) (count : Nat) (ts : List (Nat × Pc)), readsTable s o v count ts →
     (∀ p, s.cur.ctl.mask ≠ 0 → (∀ l ∈ activeLanes s, (s.cur.lane o.d.toNat l).toNat < count) → (∀ x ∈ ts, x.2 = p) →
       (∀ l, l < 128 → inMask s.cur.ctl.mask l = true → inMask s.cur.act l = false → s.cur.ctl.pc + 4 + 4 * o.imm.setWidth 57 = p) →
       ∃ t, exec (.jtab o) s = .next t ∧ goesTo s t p ∧ calmly (v.modCur fun g => contributed g (p.setWidth 64) 2) t) ∧
     ∀ k : Fork, forks s o count ts k → k.out ≠ 0 ∨ 2 ≤ (k.firsts s).length →
       let marks : List Nat := if o.sw = true then resultsDue s.cur else []
       (tableSound s → (1 < k.needs s → 1 < freeSlots s) →
         (k.out = 0 → ∃ t, exec (.jtab o) s = .next t ∧ k.made s marks t ∧ calmly (k.frame s t v) t) ∧
         (∀ h, k.out ≠ 0 → canHandle s 0x07 h → ∃ u t, exec (.jtab o) s = .next t ∧ k.made s marks u ∧ calmly (k.frame s u v) u ∧
           entered u t h (rangeRecord s.cur.ctl.pc) 4 k.out (s.cur.ctl.pc + 4))) ∧
       (tableFull s → 1 < k.needs s →
         (otherMoves s → ∃ t, exec (.jtab o) s = .next t ∧ t.cur.ctl.wait = .entries ∧ t.cur.ctl.pc = s.cur.ctl.pc ∧ calmly s t) ∧
         (∀ h, othersParked s → s.cur.ctl.redo = none → canHandle s 0x07 h → ∃ u t, exec (.jtab o) s = .next t ∧
           u.cur.ctl = { s.cur.ctl with wait := .ready } ∧ u.cur.frag = s.cur.frag ∧ calmly v u ∧
           entered u t h (rangeRecord s.cur.ctl.pc) 4 s.cur.ctl.mask (s.cur.ctl.pc + 4)))) ∧
  (∀ (i : Instr) (r : EffectRule) (s : State) (n : Nat) (e : Entry) (sp : Split), statusRule i = some r → r.kind.serial = true →
     r.kind.priv = false → inSplit s n e sp → sp.parent = none → s.cur.ctl.turn = false →
     (∃ j x, j < 8 ∧ j ≠ n ∧ s.cur.entry? j = some x ∧ x.split = e.split ∧ x.st = .run ∧ x.ctl.wait ≠ .serial ∧ x.ctl.wait ≠ .entries) →
     ∃ t, exec i s = .next t ∧ t.cur.ctl.wait = .serial ∧ t.cur.ctl.pc = s.cur.ctl.pc ∧ calmly s t)

/-- A call pushes a frame that shares the caller's top eight registers and goes to its target; nothing else changes but rows
(R60, R136, R137). -/
def Obligations.Calls : Prop :=
  ∀ (i : Instr) (c : CallRule) (s : State), callOf s i = some c → mayRun serialUnit s → c.needs → rowsOf c.gf ≤ regsOf c.nf →
    frameFree s (rowsOf c.gf) (64 + 8 * regsOf c.nf) →
    ∃ t, exec i s = .next t ∧ goesTo s t c.target ∧ framesOnly s t ∧
      t.cur.frames = pushed s.cur.frames (calleeFrame (s.cur.ctl.pc + 4) c.nf c.gf c.mark)

/-- `ret` pops its frame, v0 to v7 becoming the caller's top eight registers, and goes to the return address; `unwind` pops as many
frames as its register says, for which it waits, `unwind.m` down to the nearest marked one, and goes to the return address of the lowest popped; F
clears with the last flattened frame; a `ret` of a flattened frame, or in a fragment of a split that its frame made, takes
UNWIND (R34, R44, R60, R65, R128, R138, R139). -/
def Obligations.Returns : Prop :=
  (∀ (o : Sw) (s : State) (f c : Frame) (r : List Frame), s.cur.live = true → s.cur.frames = f :: c :: r → f.handler = false →
     f.flattened = false → ¬ splitWithin s 1 → (∀ x ∈ f.regs.drop 8, x.pend = none) →
     ∃ t, exec (.ret o) s = .next t ∧ goesTo s t f.ret ∧ framesOnly s t ∧
       t.cur.frames = { c with regs := c.regs ++ f.regs.take 8 } :: r) ∧
  (∀ (o : Sw) (s : State) (f c : Frame) (r : List Frame) (h : Handler), s.cur.frames = f :: c :: r →
     f.flattened = true ∨ splitWithin s 1 → s.cur.ctl.wait = .ready → canHandle s 0x18 h →
     ∃ t, exec (.ret o) s = .next t ∧ entered s t h (unitRecord 0x18 s.cur.ctl.pc false) 0 s.cur.ctl.mask (s.cur.ctl.pc + 4)) ∧
  (∀ (o : FmtA) (s : State), s.cur.live = true → o.a.toNat < s.cur.regs.length → (s.cur.reg o.a.toNat).pend ≠ none →
     ∃ t, exec (.unwind o) s = .next t ∧ t.cur.ctl.wait = .retry ∧ t.cur.ctl.pc = s.cur.ctl.pc ∧ calmly s t) ∧
  (∀ (s : State) (k : Nat) (low : Frame), s.cur.live = true → ¬ splitWithin s k → 1 ≤ k → k < s.cur.frames.length → (∀ f ∈ s.cur.frames.take k, f.handler = false) →
     s.cur.frames[k - 1]? = some low → ¬ losesPending s.cur.frames k →
     (∀ o : FmtA, uniformReady s [o.a.toNat] → (s.cur.lane o.a.toNat 0).toNat = k →
       ∃ t, exec (.unwind o) s = .next t ∧ goesTo s t low.ret ∧ t.cur.frames = poppedFrames s.cur.frames k ∧
         popsFlag s t (s.cur.frames.drop k) ∧ framesOnly { s with cur := { s.cur with ped := t.cur.ped } } t) ∧
     (∀ o : Sw, low.marked = true → (∀ f ∈ s.cur.frames.take (k - 1), f.marked = false) →
       ∃ t, exec (.unwindM o) s = .next t ∧ goesTo s t low.ret ∧ t.cur.frames = poppedFrames s.cur.frames k ∧
         popsFlag s t (s.cur.frames.drop k) ∧ framesOnly { s with cur := { s.cur with ped := t.cur.ped } } t))

/-- `trap` enters the handler of its code with the lanes of act, resuming after it; with an empty act it does nothing;
its word has the code in the low bits, and codes below 0x40 do not decode. A word that does not decode takes ILLEGAL
when it would issue; that step counts units for the turn of the others, by the model's own choice (log 1) (R101, R109,
R140, R335, R339). Where the manual is open, the model's choices of logs 1, 17 hold. -/
def Obligations.TrapEntersHandler : Prop :=
  (∀ (o : FmtTrap) (s : State) (h : Handler), s.cur.act ≠ 0 → canHandle s o.code h →
    ∃ t, exec (.trap o) s = .next t ∧ entered s t h (unitRecord o.code s.cur.ctl.pc false) 0 s.cur.act (s.cur.ctl.pc + 4)) ∧
  (∀ (o : FmtTrap) (s : State), s.cur.live = true → s.cur.act = 0 →
    ∃ t, exec (.trap o) s = .next t ∧ goesTo s t (after s.cur 4) ∧ calmly s t) ∧
  (∀ code : BitVec 8, decodeWord (0x09000000#32 + code.setWidth 32) =
    if code < 0x40 then .error .subfield else .ok (.trap ⟨false, code⟩)) ∧
  (∀ (s : State) (w : Word) (e : Illegal) (h : Handler), s.agenda = [] → s.cur.pend = [] → s.streak < Config.turnUnits →
    s.turnsOf s.cur = [s.cur] → s.fetchWord s.cur s.cur.ctl.pc s.cur.ctl.pc false = .ok w → decodeWord w = .error e →
    s.cur.ctl.wait = .ready → canHandle s 0x01 h →
    let pair : Bool := w.extractLsb' 24 7 = 0x01#7
    ∃ t, step s = .next { t with streak := t.streak + 1 } ∧
      entered s t h (unitRecord 0x01 s.cur.ctl.pc pair) 0 s.cur.ctl.mask (s.cur.ctl.pc + if pair then 8 else 4))

/-! ## Floating point -/

/-- A fixed-latency floating-point instruction, conversion, `vstep` or `vscan` in which no lane traps writes its results
and merges its flags into `$FSTAT`; nothing else changes (R192, R193, R200 to R217). Where the manual is open, the
model's choices of logs 11, 69 hold. -/
def Obligations.FloatResults : Prop :=
  ∀ (i : Instr) (s : State) (r : FloatRule), floatRule s i = some r → mayRun r.kind s → r.ready s → r.trapped s = 0 →
    ∃ t, exec i s = .next t ∧ goesTo s t (after s.cur 4) ∧ r.result s t

/-- When lanes trap, the other lanes are written as if none did, then the handler of FPX or SNAN is entered with the
lanes that trapped; it would resume after the instruction, or, where `rte` runs the unit again, at the PC that the
handler resumed with, which is the model's choice (R82, R335, R339). Where the manual is open, the model's choices of
logs 11, 26, 69 hold. -/
def Obligations.FloatTraps : Prop :=
  ∀ (i : Instr) (s : State) (r : FloatRule) (h : Handler), floatRule s i = some r → mayRun r.kind s → r.ready s →
    r.trapped s ≠ 0 → canHandle s (r.trapCode s) h →
    ∃ u t, exec i s = .next t ∧ r.result s u ∧ u.cur.ctl.mask = s.cur.ctl.mask ∧ u.cur.frag = s.cur.frag ∧
      entered u t h (unitRecord (r.trapCode s) s.cur.ctl.pc false) 0 (r.trapped s) (after s.cur 4)

/-- A late floating-point instruction puts its results, flags and trapped lanes in flight, its destinations pending on
them; no value changes yet (R82, R128, R203). Where the manual is open, the model's choices of log 11 hold. -/
def Obligations.FloatLate : Prop :=
  ∀ (i : Instr) (s : State) (r : FloatRule), lateRule s i = some r → mayRun r.kind s → r.ready s →
    ∃ t, exec i s = .next t ∧ goesTo s t (after s.cur 4) ∧
      (s.cur.act = 0 → calmly s t) ∧ (s.cur.act ≠ 0 → launched s t (r.flight s) r.dsts)

/-- `fcmp` and `fcmp.s` write the comparison in the lanes of act that do not trap, and merge their flags; m0 is never
written; lanes that trap then enter FPX or SNAN. The comparison is that of the values, −0 equal to +0, with its value
for unordered operands, and raises invalid for a signalling NaN, `fcmp.s` for any (R82, R209, R335, R339). Where the
manual is open, the model's choices of log 26 hold. -/
def Obligations.FloatCompares : Prop :=
  (∀ (i : Instr) (s : State) (m : BitVec 3) (r : FloatRule) (bit : Nat → Bool), floatCompare s i = some (m, r, bit) →
    mayRun vectorUnit s → r.ready s →
    let eff := s.cur.act &&& ~~~r.trapped s
    let compared (t : State) : Prop :=
      calmly (s.modCur fun g => { g with masks := t.cur.masks, fstat := s.cur.fstat ||| flagsIn eff r.res }) t ∧
        ∀ k l, k ≤ 7 → l < 128 → inMask (t.cur.mask k) l =
          if k = m.toNat ∧ k ≠ 0 ∧ inMask eff l = true then bit l else inMask (s.cur.mask k) l
    (r.trapped s = 0 → ∃ t, exec i s = .next t ∧ goesTo s t (after s.cur 4) ∧ compared t) ∧
    ∀ h, r.trapped s ≠ 0 → canHandle s (r.trapCode s) h →
      ∃ u t, exec i s = .next t ∧ compared u ∧ u.cur.ctl.mask = s.cur.ctl.mask ∧ u.cur.frag = s.cur.frag ∧
        entered u t h (unitRecord (r.trapCode s) s.cur.ctl.pc false) 0 (r.trapped s) (after s.cur 4)) ∧
  ∀ (f : Fmt) (c p q : Nat) (signalling : Bool), c < 8 → comparedRight f c signalling p q

/-- Sums, differences, products, quotients and fused sums of finite values, and conversions, are the exact value rounded once;
they are formed exactly before they are rounded; `roundint` of a magnitude num/den is never more than one away, RNE and RNA
nearest (ties to even, to the larger), RTZ, RUP and RDN on their side; into an integer entry a NaN gives 0, an infinity and
a number out of range the end of the range, with invalid, and a zero gives 0. `fsqrt` is the root rounded once, `frcp` and `frsq`
their exact value toward zero; zeros, infinities and NaN operands give what their rules say, the first NaN quieted or the default
NaN; `fmin`, `fmax`, `fminn`, `fmaxn` pick an operand, −0 below +0; `fclass` names the class; `frnd` is the integer of its mode,
`fscb` the scaled value rounded, `flgb` the exponent; `bfup` is the element under its code rounded; `fexp2`, `flog2`, `fsinp`,
`fcosp`, `ftanh` take the exact values that their table gives for zeros, infinities, integers, halves and powers of two (other
operands are not pinned here) (R74, R77 to R80, R83, R84, R202, R204 to R207, R210 to R213, R217). -/
def Obligations.ExactAndRounded : Prop :=
  (∀ (mode : Nat) (x y : Val) (a b : Rat), Val.real x = some a → Val.real y = some b →
    Out.real (addOut mode x y) = some (a + b) ∧
      (mulVal x y).bind Val.real = some (a * b) ∧
      (b ≠ 0 → Out.real (divOut x y) = some (a / b))) ∧
  (∀ (mode : Nat) (x y z : Val) (a b c : Rat) (negP negQ : Bool), Val.real x = some a → Val.real y = some b →
    Val.real z = some c →
    ∃ p, mulVal x y = some p ∧ Out.real (addOut mode (if negP then p.neg else p) (if negQ then z.neg else z)) =
      some ((if negP then -(a * b) else a * b) + (if negQ then -c else c))) ∧
  (∀ (num den mode : Nat) (sign : Bool), 0 < den → mode ≤ 4 →
     let n := roundInt num den mode sign
     (n * den < num + den ∧ num < n * den + den) ∧
     (mode = 0 → 2 * (n * den) ≤ 2 * num + den ∧ 2 * num ≤ 2 * (n * den) + den ∧
       ((2 * (n * den) = 2 * num + den ∨ 2 * num = 2 * (n * den) + den) → n % 2 = 0)) ∧
     (mode = 4 → 2 * (n * den) ≤ 2 * num + den ∧ 2 * num < 2 * (n * den) + den) ∧
     (mode = 1 ∨ (mode = 2 ∧ sign = true) ∨ (mode = 3 ∧ sign = false) → n * den ≤ num) ∧
     ((mode = 2 ∧ sign = false) ∨ (mode = 3 ∧ sign = true) → num ≤ n * den)) ∧
  (∀ (e : Dword) (mode p q c : Nat) (x y z : Rat), roundsIn e mode →
    let f := fmtOf e
    Val.real (exact f p) = some x → Val.real (exact f q) = some y → Val.real (exact f c) = some z →
    summed f mode (exact f p) (exact f q) x y (faddBits f mode p q) ∧
      summed f mode (exact f p) (exact f q).neg x (-y) (fsubBits f mode p q) ∧
      (if x * y = 0 then zeroResult f ((exact f p).sign != (exact f q).sign) (fmulBits f mode p q)
        else roundedTo f mode (x * y) (fmulBits f mode p q)) ∧
      (y ≠ 0 → if x = 0 then zeroResult f ((exact f p).sign != (exact f q).sign) (fdivBits f mode p q)
        else roundedTo f mode (x / y) (fdivBits f mode p q)) ∧
      ∀ negP negQ : Bool, signedAs negP (x * y) + signedAs negQ z ≠ 0 →
        roundedTo f mode (signedAs negP (x * y) + signedAs negQ z) (fmaBits f mode negP negQ p q c)) ∧
  (∀ (e : Dword) (mode p q c : Nat) (count : Int), roundsIn e mode →
    let f := fmtOf e
    nansPass f mode p q c count ∧ infinitiesPass f mode p q ∧ rootsRight f mode p ∧ (∀ greater number, pickedRight f greater number p q) ∧
      classedRight f p ∧ scaledRight f mode p count ∧ (∀ elem code, code < 256 → unpackedRight f mode elem code) ∧
      elementaryRight f mode p) ∧
  (∀ (es e : Dword) (mode p : Nat) (x : Rat), entryValid es = true → (fmtOf es).valid = true → (fmtOf es).p ≤ 3 → x ≠ 0 →
    Val.real (exact (fmtOf es) p) = some x →
    (roundsIn e mode → roundedTo (fmtOf e) mode x (convertBits (fmtOf es) (fmtOf e) false p mode)) ∧
      (entryValid e = true → (fmtOf e).valid = true → (fmtOf e).p = 3 → mode ≤ 4 →
        integerOf (fmtOf e) mode x (convertBits (fmtOf es) (fmtOf e) false p mode))) ∧
  ∀ (es e : Dword) (mode p : Nat), entryValid es = true → (fmtOf es).valid = true → (fmtOf es).p ≤ 3 → entryValid e = true →
    (fmtOf e).valid = true → (fmtOf e).p = 3 → mode ≤ 4 →
    integerEnd (fmtOf e) (convertBits (fmtOf es) (fmtOf e) false p mode) (exact (fmtOf es) p)

/-! ## Special registers, shapes and frames -/

/-- `ftag` gives the tag of a register, `mfs` a word of a special register, both uniform; `fmat` gives a register a row
without changing a lane; `fmtget` writes the two words of an entry of the format table (R57, R161, R195, R219). Where
the manual is open, the model's choices of log 87 hold. -/
def Obligations.ShapeReads : Prop :=
  (∀ (i : Instr) (s : State) (r : LaneRule) (p : Prop), shapeRule s i = some (r, p) → p → mayRun r.kind s → r.ready s →
     ∃ t, exec i s = .next t ∧ goesTo s t (after s.cur 4) ∧ onlyRegs [r.dst.toNat] s t ∧ r.result s t) ∧
  (∀ (o : FmtD) (s : State), s.cur.live = true → o.d.toNat < s.cur.regs.length → (s.cur.reg o.d.toNat).pend = none →
     ((s.cur.val o.d.toNat).tag ≠ 2 → rowsFree s 1) →
     ∃ t, exec (.fmat o) s = .next t ∧ goesTo s t (after s.cur 4) ∧ onlyRegs [o.d.toNat] s t ∧
       (t.cur.val o.d.toNat).tag = 2 ∧ (t.cur.reg o.d.toNat).pend = none ∧
       ∀ l, l < 128 → t.cur.lane o.d.toNat l = s.cur.lane o.d.toNat l) ∧
  (∀ (o : FmtGet) (s : State), s.cur.live = true → (∀ x ∈ both o.d, x < s.cur.regs.length) →
     (s.cur.act ≠ 0 → ∀ x ∈ both o.d, (s.cur.reg x).pend = none) →
     (s.cur.act ≠ 0 → s.cur.act ≠ allLanes → rowsFree s ((both o.d).countP fun x => (s.cur.val x).tag ≠ 2)) →
     ∃ t, exec (.fmtget o) s = .next t ∧ goesTo s t (after s.cur 4) ∧ onlyRegs (both o.d) s t ∧
       ∀ i x, (both o.d)[i]? = some x →
         (s.cur.act ≠ 0 → (t.cur.val x).tag = if s.cur.act = allLanes then 0 else 2) ∧
         ∀ l, l < 128 → t.cur.lane x l = if inMask s.cur.act l then word ((s.entry o.i.toNat).toNat / 2 ^ (32 * i) : Nat)
           else s.cur.lane x l)

/-- `bfpk` packs the active lanes of each block of 32 under the codes of the block, and writes the block's two codes
into its lane of the code register, over the packed element where that register is the destination too; lanes that trap
keep their element, then enter FPX or SNAN. The codes and elements of a block are those that its values and the rounding
mode give: the scale of the largest magnitude, the finer one where an element fits (R82, R84, R86, R216). Where the
manual is open, the model's choices of logs 12, 26, 69, 79 hold. -/
def Obligations.BlockPacks : Prop :=
  (∀ (o : FmtBf) (s : State) (blocks : Nat → Nat × Nat × (Val → Packed)) (r : FloatRule), mayRun vectorUnit s →
    (∀ b, blocks b = packBlock (((List.range 32).filter fun i => inMask s.cur.act (32 * b + i)).map fun i =>
      exact (ownEntry s) (operandAt s.cur (ownEntry s).w o.a (32 * b + i))) (modeRnd s)) →
    r = { inEntry s o.d false [o.a] [o.b] true (fun _ _ => quiet 0) with
      dsts := if o.d = o.b then [o.d.toNat] else [o.d.toNat, o.b.toNat]
      res := fun l => ((blocks (l / 32)).2.2 (exact (ownEntry s) (operandAt s.cur (ownEntry s).w o.a l))).res } →
    r.ready s → s.cur.act ≠ 0 →
    let eff := s.cur.act &&& ~~~r.trapped s
    let packed (t : State) : Prop :=
      t.cur.fstat = s.cur.fstat ||| flagsIn eff r.res ∧
        onlyRegs r.dsts (s.modCur fun g => { g with fstat := t.cur.fstat }) t ∧
        ∀ x ∈ r.dsts, (t.cur.reg x).pend = none ∧ (t.cur.val x).tag = 2 ∧ ∀ l, l < 128 → t.cur.lane x l =
          if x = o.b.toNat ∧ l < 4 ∧ (∃ i, i < 32 ∧ inMask s.cur.act (32 * l + i) = true) then
            fromBits 32 fun i =>
              if i / 8 = 2 * o.q.toNat then (blocks l).1.testBit (i % 8)
              else if i / 8 = 2 * o.q.toNat + 1 then (blocks l).2.1.testBit (i % 8)
              else (if o.d = o.b ∧ inMask eff l = true then BitVec.ofNat 32 (r.res l).bits else s.cur.lane x l).getLsbD i
          else if x = o.d.toNat ∧ inMask eff l = true then BitVec.ofNat 32 (r.res l).bits
          else s.cur.lane x l
    (r.trapped s = 0 → ∃ t, exec (.bfpk o) s = .next t ∧ goesTo s t (after s.cur 4) ∧ packed t) ∧
    ∀ h, r.trapped s ≠ 0 → canHandle s (r.trapCode s) h →
      ∃ u t, exec (.bfpk o) s = .next t ∧ packed u ∧ u.cur.ctl.mask = s.cur.ctl.mask ∧ u.cur.frag = s.cur.frag ∧
        entered u t h (unitRecord (r.trapCode s) s.cur.ctl.pc false) 0 (r.trapped s) (after s.cur 4)) ∧
  ∀ (vs : List Val) (mode : Nat), mode ≤ 4 → (∀ v ∈ vs, ∀ n m e, v = .num n m e → m ≠ 0) → blockPacked vs mode

/-- `fgrow` appends zero registers and unused rows to the top frame; `fshrink` drops registers from its end and gives their
rows and unused ones back (R64, R159). -/
def Obligations.FrameSize : Prop :=
  ∀ (o : FmtDemand) (s : State) (f : Frame) (r : List Frame), mayRun serialUnit s → s.cur.frames = f :: r →
    let nf := o.w.extractLsb' 0 4
    let gf := o.w.extractLsb' 4 4
    rowsOf gf ≤ regsOf nf →
    (regsOf f.nf ≤ regsOf nf → rowsOf f.gf ≤ rowsOf gf →
      frameFree s (rowsOf gf - rowsOf f.gf) (8 * (regsOf nf - regsOf f.nf)) →
      ∃ t, exec (.fgrow o) s = .next t ∧ goesTo s t (after s.cur 4) ∧ framesOnly s t ∧
        t.cur.frames = { f with nf := nf, gf := gf, regs := f.regs ++ List.replicate (regsOf nf - regsOf f.nf) freshReg,
                                spare := f.spare + (rowsOf gf - rowsOf f.gf) } :: r) ∧
    (regsOf nf ≤ regsOf f.nf → rowsOf gf ≤ rowsOf f.gf → (∀ x ∈ f.regs.drop (regsOf nf), x.pend = none) →
      ∃ t, exec (.fshrink o) s = .next t ∧ goesTo s t (after s.cur 4) ∧ framesOnly s t ∧
        t.cur.frames = { f with nf := nf, gf := gf, regs := f.regs.take (regsOf nf),
                                spare := f.spare - (rowsOf f.gf - rowsOf gf) } :: r)

/-- `fgive` and `ftake` move quota blocks between two roles of the crew that keep at least one and at least what they
hold; with no blocks or the own role nothing moves (R64, R160). Where the manual is open, the model's choices of log 29
hold. -/
def Obligations.QuotaMoves : Prop :=
  ∀ (o : FmtQuota) (s : State), s.cur.live = true →
    let own := s.roleOf s.cur
    let c := s.crewOf s.cur
    let left (giver : Nat) : List Nat := c.quota.set giver (c.quota.getD giver 0 - o.blocks.toNat)
    let moved (giver taker : Nat) : State :=
      s.setCrew { c with quota := (left giver).set taker (c.quota.getD taker 0 + o.blocks.toNat) }
    let free (giver taker : Nat) : Prop := giver < c.quota.length ∧ taker < c.quota.length ∧
      o.blocks.toNat < c.quota.getD giver 0 ∧
      s.roleHeld s.cur.id.ctx s.cur.id.crew giver ≤ 8 * (c.quota.getD giver 0 - o.blocks.toNat)
    (o.blocks = 0 ∨ o.role.toNat = own →
      ∃ t u, exec (.fgive o) s = .next t ∧ exec (.ftake o) s = .next u ∧ goesTo s t (after s.cur 4) ∧ goesTo s u (after s.cur 4) ∧
        calmly s t ∧ calmly s u) ∧
    (o.blocks ≠ 0 → o.role.toNat ≠ own → free own o.role.toNat →
      ∃ t, exec (.fgive o) s = .next t ∧ goesTo s t (after s.cur 4) ∧ calmly (moved own o.role.toNat) t) ∧
    (o.blocks ≠ 0 → o.role.toNat ≠ own → free o.role.toNat own →
      ∃ t, exec (.ftake o) s = .next t ∧ goesTo s t (after s.cur 4) ∧ calmly (moved o.role.toNat own) t)

/-! ## Accesses -/

/-- A load, store, atomic, `datom` or cache operation whose lanes all have an address is put in flight with them, its
destinations pending; no register lane and no byte of memory changes yet; without an active lane nothing is put in
flight (R222, R225 to R234, R238). Where the manual is open, the model's choices of logs 30, 31 hold. -/
def Obligations.AccessesIssue : Prop :=
  ∀ (i : Instr) (s : State) (r : AccessRule), accessRule s i = some r → mayRun control s → r.ready s → r.faults s = [] →
    ∃ t, exec i s = .next t ∧ goesTo s t (after s.cur 4) ∧ (s.cur.act = 0 → calmly (r.also s) t) ∧ (s.cur.act ≠ 0 → r.issued s t)

/-- When lanes have no address, the others go ahead, then the handler of the first of RANGE, PERM, ALIGN and OPRANGE
that occurs is entered with all lanes that have none; it would resume after the instruction, or, where `rte` runs the
unit again, at the PC that the handler resumed with, which is the model's choice (R223, R335). Where the manual is open,
the model's choices of logs 26, 30, 31 hold. -/
def Obligations.LaneFaultsTaken : Prop :=
  ∀ (i : Instr) (s : State) (r : AccessRule) (h : Handler), accessRule s i = some r → mayRun control s → r.ready s →
    r.faults s ≠ [] → canHandle s (worstCode ((r.faults s).map Prod.snd)) h →
    ∃ u t, exec i s = .next t ∧ r.partly s u ∧ u.cur.ctl.mask = s.cur.ctl.mask ∧ u.cur.frag = s.cur.frag ∧
      entered u t h (unitRecord (worstCode ((r.faults s).map Prod.snd)) s.cur.ctl.pc false) 0
        (lanesMask ((r.faults s).map Prod.fst)) (after s.cur 4)

/-- `vidx` reads its values at issue, `rdraw` draws one value a lane in lane order; both return later (R158, R189). -/
def Obligations.ValuesReturnLater : Prop :=
  (∀ (o : FmtDAB) (s : State), mayRun crossUnit s → s.cur.act ≠ 0 →
    (∀ x ∈ [o.d.toNat, o.a.toNat, o.b.toNat], x < s.cur.regs.length ∧ (s.cur.reg x).pend = none) →
    ((s.cur.val o.d.toNat).tag ≠ 2 → rowsFree s 1) →
    ∃ t, exec (.vidx o) s = .next t ∧ goesTo s t (after s.cur 4) ∧
      launched s t (valuesFlight s 4 .value fun l =>
        (s.cur.lane o.a.toNat ((s.cur.lane o.b.toNat l).toNat % 128)).toNat) [o.d.toNat]) ∧
  (∀ (o : FmtD) (s : State), mayRun crossUnit s → s.cur.act ≠ 0 → o.d.toNat < s.cur.regs.length →
    (s.cur.reg o.d.toNat).pend = none → ((s.cur.val o.d.toNat).tag ≠ 2 → rowsFree s 1) →
    let rank (l : Nat) : Nat := ((List.range l).filter (inMask s.cur.act)).length
    ∃ t, exec (.rdraw o) s = .next t ∧ goesTo s t (after s.cur 4) ∧
      t.cur.rng = streamAfter s.cur.rng (rank 128) ∧
      launched (s.modCur fun g => { g with rng := t.cur.rng }) t
        (valuesFlight s 4 .value fun l => (streamAfter s.cur.rng (rank l + 1)).toNat / 2 ^ 32) [o.d.toNat])

/-- `fence` passes when the accesses it orders are complete and drops the L1 lines its scope reaches, but for rel;
`wait` passes when its path counts no more than its register; neither changes anything else; `pref` changes nothing but
caches. A `cctl` that the memory system carries out drops the lines of its scope with inv, and with scope memory writes
modified data through to HBM4, its page's dirty bit set; memory as read stays (R236 to R238, R260, R264, R298). Where
the manual is open, the model's choices of logs 31, 40, 94 hold. -/
def Obligations.FencesAndPrefetch : Prop :=
  (∀ (i : Instr) (r : EffectRule) (s : State), orderRule i = some r → mayRun r.kind s → r.needs s →
     ∃ t, exec i s = .next t ∧ goesTo s t (after s.cur 4) ∧ calmly (r.effect s) t) ∧
  (∀ (o : FmtCc) (s : State), s.cur.live = true → s.queueEntries s.cur < 32 → uncaptured s →
     (∀ x ∈ both o.a, x < s.cur.regs.length ∧ (s.cur.reg x).pend = none) →
     ∃ t, exec (.pref o) s = .next t ∧ goesTo s t (after s.cur 4) ∧ calmly (cached s t) t) ∧
  (∀ (s : State) (f : Flight) (m : Mask) (ls : List LaneAcc) (fn : BitVec 3), landingHere s f m ls → f.op = .cctl fn →
     uncaptured s → memoryWhole s →
     ∃ t, exec (.storeStamp s.cur.id f.id m) s = .next t ∧ t.mem = s.mem ∧ otherRegs s t f ∧
       barely { returned s t with owl := t.owl } t ∧ ∀ l ∈ ls, pieceDone s t fn.toNat f.scope l)

/-- LOAD_RETURN of lanes of a load writes the bytes that memory holds at their physical addresses, little-endian, into the
lanes of the destinations; a register is no longer pending when the last lane has returned; memory and every register that
does not wait for the load stay; the lines brought in hold what memory holds. `lda` drops the lines its scope reaches first.
`lds` writes what its crew's scratch holds (R225, R228, R230, R231, R255, R257, R264). -/
def Obligations.LoadReadsMemory : Prop :=
  ∀ (s : State) (f : Flight) (m : Mask) (ls : List LaneAcc), (f.lanes.map LaneAcc.lane).Nodup → (∀ l ∈ f.lanes, l.lane < 128) →
    (∀ u, landing s f m ls → (f.op = .load ∧ u = s) ∨ (f.op = .lda ∧ u = acquired s f.scope) → f.size ∈ [1, 2, 4, 8] →
      pagesWhole s.here → uncached u f ls → uncaptured s → (f.op = .load → ∀ e ∈ underWay s.cur, e.id < f.id → e.op ≠ .store) →
      ∃ t, exec (.loadReturn s.cur.id f.id m .clean) s = .next t ∧ t.mem = s.mem ∧ barely (returned s t) t ∧ linesFresh s t ls ∧
        arrived s t f ls (fun l => Memory.readNat s.mem (physOf s l) f.size) ∧
        (f.op = .lda → ∀ x ∈ t.l1, inScope f.scope ((s.coreOf s.cur).ix / 4) s.here.dev x = true →
          x.ctx = s.cur.id.ctx ∧ ∃ l ∈ ls, x.piece = l.addr / 64)) ∧
    (landingHere s f m ls → f.op = .lds →
      ∃ t, exec (.loadReturn s.cur.id f.id m .clean) s = .next t ∧ t.mem = s.mem ∧
        barely { s with cur := { s.cur with frames := t.cur.frames, flights := t.cur.flights } } t ∧
        arrived s t f ls fun l => Memory.readNat (s.crewOf s.cur).scratch l.addr 4)

/-- STORE_STAMP of lanes of a store writes their bytes, little-endian, at their physical addresses, a higher lane over a
lower one; every other byte of memory stays, and so does every register, mask and status. `sts` writes its crew's
scratch alone. A store in a tracked range checks the piece's race entry: a strand that comes later takes it over, an
earlier one leaves it, a parallel one takes it over and its gang owes RACE with a report in the ring; a piece without an
entry gets one (R225, R228, R230, R266, R298, R299). Where the manual is open, the model's choices of logs 32, 54 hold. -/
def Obligations.StoreWritesMemory : Prop :=
  (∀ (s : State) (f : Flight) (m : Mask) (ls : List LaneAcc), landing s f m ls → f.op = .store ∨ f.op = .str →
    (∀ l ∈ ls, l.track = false) → Memory.wf s.mem = true → uncaptured s →
      ∃ t, exec (.storeStamp s.cur.id f.id m) s = .next t ∧ stored s t f ls ∧ t.owl = s.owl ∧ t.tick = s.tick ∧
        t.cur.pend = s.cur.pend) ∧
  (∀ (s : State) (f : Flight) (m : Mask) (ls : List LaneAcc) (c : Crew), landingHere s f m ls → f.op = .sts →
    s.crews.find? (fun k => k.ctx == s.cur.id.ctx && k.rank == s.cur.id.crew) = some c → Memory.wf c.scratch = true →
    ∃ t, exec (.storeStamp s.cur.id f.id m) s = .next t ∧ lanesWritten c.scratch (t.crewOf s.cur).scratch LaneAcc.addr 4 ls ∧
      t.crewOf s.cur = { c with scratch := (t.crewOf s.cur).scratch } ∧ otherRegs s t f ∧
      (∀ a b, ¬(a = s.cur.id.ctx ∧ b = s.cur.id.crew) → t.crew a b = s.crew a b) ∧
      barely { s with crews := t.crews, cur := { s.cur with frames := t.cur.frames, flights := t.cur.flights } } t) ∧
  (∀ (s : State) (f : Flight) (m : Mask) (l : LaneAcc) (c : Context), landing s f m [l] → f.op = .store ∨ f.op = .str →
    l.track = true → f.sup = false → Memory.wf s.mem = true → uncaptured s →
    s.contexts.find? (fun x => x.num == s.cur.id.ctx) = some c → s.owlWays c.dev ≠ 0 → 1 ≤ pedDepth f.ped →
    let piece := l.addr / 64
    let lanes := lanesMask [l.lane]
    let made (t : State) (e : OwlEntry) : Prop :=
      exec (.storeStamp s.cur.id f.id m) s = .next t ∧ owlEntry? t s.cur.id.ctx piece = some e
    (owlEntry? s s.cur.id.ctx piece = none →
      (s.owl.filter fun e => e.dev == c.dev && s.owlSet e.piece == s.owlSet piece).length < s.owlWays c.dev →
      ∃ t, made t ⟨c.dev, s.cur.id.ctx, piece, f.ped, s.tick⟩ ∧ stored s t f [l] ∧ t.cur.pend = s.cur.pend) ∧
    ∀ e, owlEntry? s s.cur.id.ctx piece = some e → 1 ≤ pedDepth e.ped →
      (comesAfter e.ped f.ped → ∃ t, made t e ∧ stored s t f [l] ∧ t.cur.pend = s.cur.pend) ∧
      (¬comesAfter e.ped f.ped → ¬parallelStrands e.ped f.ped →
        ∃ t, made t { e with ped := f.ped } ∧ stored s t f [l] ∧ t.cur.pend = s.cur.pend) ∧
      (parallelStrands e.ped f.ped → c.ringSize = 0 → ∃ t, made t { e with ped := f.ped } ∧ stored s t f [l] ∧
        t.cur.pend = s.cur.pend ++ [raceFault lanes (BitVec.allOnes 64)]) ∧
      ∀ pa hd, parallelStrands e.ped f.ped →
        let slots := (c.ringSize - 64) / 192
        let off := 64 + 192 * (c.raceSeen % slots)
        c.ringSize ≠ 0 → ringThere c 0 64 hd → ringThere c off 192 pa → c.raceSeen - Memory.readNat s.mem (hd + 16) 8 < slots →
        apart hd 64 pa 192 → apart (physOf s l) f.size hd 64 → apart (physOf s l) f.size pa 192 →
        ∃ t, made t { e with ped := f.ped } ∧ raceReported t c e.ped f.ped piece pa hd ∧
          t.cur.pend = s.cur.pend ++ [raceFault lanes (BitVec.ofNat 64 off)] ∧
          Memory.readNat t.mem (physOf s l) f.size = l.data % 256 ^ f.size)

/-- An atomic of one lane replaces the bytes at its address by the operation's value of what they held, in one event; with a
return the lane of its destination receives what they held; no other byte changes. A `datom` is held with its key while its
dword's record has room, memory as it was; in strict mode one to a dword that another crew holds is refused with NONDET (R232
to R234, R269 to R271). -/
def Obligations.AtomicsApply : Prop :=
  (∀ (s : State) (f : Flight) (m : Mask) (l : LaneAcc) (op : BitVec 4) (ret : Bool), landing s f m [l] → f.op = .atom op ret →
    f.size = 4 ∨ f.size = 8 → l.data < 256 ^ f.size → l.lane < 128 → Memory.wf s.mem = true → uncaptured s →
    let old := Memory.readNat s.mem (physOf s l) f.size
    ∃ t, (if ret then exec (.loadReturn s.cur.id f.id m .clean) s else exec (.storeStamp s.cur.id f.id m) s) = .next t ∧
      Memory.readNat t.mem (physOf s l) f.size = atomValue op.toNat f.size old l.data l.cmp % 256 ^ f.size ∧
      (∀ a, a < physOf s l ∨ physOf s l + f.size ≤ a → Memory.read t.mem a = Memory.read s.mem a) ∧
      (ret = true → ∀ x i, (s.cur.reg x).pend = some ⟨f.id, i⟩ → i = 0 ∨ (i = 1 ∧ f.size = 8) →
        t.cur.lane x l.lane = BitVec.ofNat 32 (old / 2 ^ (32 * i)))) ∧
  (∀ (s : State) (f : Flight) (m : Mask) (l : LaneAcc) (op : BitVec 4) (c : Context), landing s f m [l] → f.op = .datom op →
    f.sup = false → uncaptured s → s.contexts.find? (fun x => x.num == s.cur.id.ctx) = some c →
    let mine (h : HeldUpdate) : Prop := h.crew = s.cur.id.crew
    let there := c.held.filter fun h => h.dword == l.addr / 8
    ((c.strict = true → ∀ h ∈ there, mine h) → (∀ p ∈ c.overflowed, p ≠ (s.cur.id.crew, l.addr / 8)) →
      (∃ h ∈ there, mine h) ∨ (s.contexts.map fun x => x.held.length).sum < 256 → there.length < 16 →
      ∃ t, exec (.storeStamp s.cur.id f.id m) s = .next t ∧ t.mem = s.mem ∧ t.cur.pend = s.cur.pend ∧
        (t.ctx s.cur.id.ctx).held = c.held ++
          [{ ctx := s.cur.id.ctx, crew := s.cur.id.crew, dword := l.addr / 8, addr := l.addr, size := f.size, op := op,
             value := l.data, ped := f.ped, gang := s.cur.id.rank, lane := l.lane, seq := f.seq, outside := false }]) ∧
    (c.strict = true → (∃ h ∈ there, ¬mine h) →
      ∃ t, exec (.storeStamp s.cur.id f.id m) s = .next t ∧ t.mem = s.mem ∧ (t.ctx s.cur.id.ctx).held = c.held ∧
        t.cur.pend = s.cur.pend ++ [{ raceFault (lanesMask [l.lane]) 0 with code := 0x15 }]))

/-- The last lanes of a late floating-point unit: those that did not trap are written, its flags are merged, and its trap, if
any, waits for the next boundary (R82, R203, R338). -/
def Obligations.LateResultsLand : Prop :=
  ∀ (s : State) (f : Flight) (m : Mask) (flags : BitVec 5) (trapped : Mask) (snan : Bool), s.cur.live = true →
    s.cur.flight? f.id = some f → f.op = .late flags trapped snan → f.chosen m ≠ [] → lanesLeft f (f.chosen m) = [] →
    (∀ l ∈ f.lanes, l.lane < 128) → (f.lanes.map LaneAcc.lane).Nodup →
    ∃ t, exec (.loadReturn s.cur.id f.id m .clean) s = .next t ∧
      t.cur.fstat = s.cur.fstat ||| flags.setWidth 32 ∧
      t.cur.pend = s.cur.pend ++ (if trapped = 0 then [] else
        [{ code := if snan then 0x13 else 0x12, mask := trapped, kind := 1, addr := f.pc.setWidth 64, lim := f.lim, count := 0,
           place := 0, order := f.id }]) ∧
      t.mem = s.mem ∧
      ∀ x i, (s.cur.reg x).pend = some ⟨f.id, i⟩ → i = 0 ∨ (i = 1 ∧ f.size = 8) →
        (t.cur.reg x).pend = none ∧
        (∀ l ∈ f.chosen m, t.cur.lane x l.lane =
          if inMask trapped l.lane then s.cur.lane x l.lane else BitVec.ofNat 32 (l.data / 2 ^ (32 * i)))

/-- PAGE_RETURN of lanes without a mapping: they join the gang's replay queue and PAGE is pending; no register and no byte of
memory changes (R261, R263). -/
def Obligations.PageQueues : Prop :=
  ∀ (s : State) (f : Flight) (m : Mask) (ls : List LaneAcc), s.cur.live = true → s.cur.flight? f.id = some f →
    f.chosen m = ls → s.lanesReady s.cur f false ls = true → (∀ l ∈ ls, s.here.physical l.addr = none) →
    accessOp f.op = true → f.scratch = false → (∀ fn, f.op ≠ .cctl fn) → f.sup = false → (∀ l ∈ f.lanes, l.lane < 128) →
    s.queueEntries s.cur < 32 → (s.crewOf s.cur).stopped = false →
    ∃ t, exec (.pageReturn s.cur.id f.id m) s = .next t ∧ (∃ p ∈ t.cur.pend, p.code = 0x0B) ∧
      (∃ g ∈ t.cur.flights, g.id = f.id ∧ ∀ l ∈ ls, { l with st := .queued } ∈ g.lanes) ∧
      (s.cur.owes = [] → t.cur.owes = []) ∧
      calmly { s with cur := { s.cur with flights := t.cur.flights, pend := t.cur.pend, owes := t.cur.owes } } t

/-! ## Units of two words, privilege, faults -/

/-- A `lim` pair runs its second word with the 32-bit immediate of both words and goes on eight bytes further: the
integer forms, the comparison, loads and stores of memory and scratch, whose lane faults have the `lim` bit and would
resume there. A word that cannot follow `lim` makes the pair ILLEGAL at its first word, with the `lim` bit (R101, R102,
R183, R223, R336). Where the manual is open, the model's choices of logs 17, 26, 30 hold. -/
def Obligations.LimPairs : Prop :=
  ∀ (o : FmtLim) (s : State) (w : Word), s.fetchWord s.cur (s.cur.ctl.pc + 4) s.cur.ctl.pc true = .ok w →
    (∀ (i : Instr) (r : LaneRule), decodeWord w = .ok i → pairRule (o.imm ++ lowImm i) i = some r → mayRun r.kind s → r.ready s →
      ∃ t, exec (.lim o) s = .next t ∧ goesTo s t (after s.cur 8) ∧ onlyRegs [r.dst.toNat] s t ∧ r.result s t) ∧
    (∀ (i : Instr) (r : MaskRule), decodeWord w = .ok i → pairMask (o.imm ++ lowImm i) i = some r → mayRun vectorUnit s → r.ready s →
      ∃ t, exec (.lim o) s = .next t ∧ goesTo s t (after s.cur 8) ∧ r.result s t) ∧
    (∀ (i : Instr) (r : AccessRule), decodeWord w = .ok i → pairAccess s (o.imm ++ lowImm i) i = some r → mayRun control s → r.ready s →
      (r.faults s = [] → ∃ t, exec (.lim o) s = .next t ∧ goesTo s t (after s.cur 8) ∧ (s.cur.act = 0 → calmly (r.also s) t) ∧
        (s.cur.act ≠ 0 → r.issued s t)) ∧
      ∀ h, r.faults s ≠ [] → canHandle s (worstCode ((r.faults s).map Prod.snd)) h →
        ∃ u t, exec (.lim o) s = .next t ∧ r.partly s u ∧ u.cur.ctl.mask = s.cur.ctl.mask ∧ u.cur.frag = s.cur.frag ∧
          entered u t h (unitRecord (worstCode ((r.faults s).map Prod.snd)) s.cur.ctl.pc true) 0
            (lanesMask ((r.faults s).map Prod.fst)) (after s.cur 8)) ∧
    (∀ (h : Handler), (∀ i, decodeWord w = .ok i → followsLim i = false) → s.cur.ctl.wait = .ready → canHandle s 0x01 h →
      ∃ t, exec (.lim o) s = .next t ∧ entered s t h (unitRecord 0x01 s.cur.ctl.pc true) 0 s.cur.ctl.mask (s.cur.ctl.pc + 8))

/-- A fault for which no handler may run stops the crew, leaves `$FAULT` and `$TMASK` and posts the error message to the
context's error queue: a trap, a privileged instruction in user mode, a pending fault (R342, R343). A pending fault of
any kind is taken at the next boundary when its handler may run; PAGE of the replay queue names the page of its oldest
access, the lanes and the number of those held, or where the queue has emptied what it came with; a fault of a handler's
access that came while its gang was halted stops the crew after the restore (R263, R326, R336, R338, R339). Where the
manual is open, the model's choices of logs 16, 33, 57 hold. -/
def Obligations.FaultsTakenOrStop : Prop :=
  (∀ (s : State) (c : Crew) (x : Context) (q : Queue), stoppable s c x q →
    (∀ o : FmtTrap, s.cur.act ≠ 0 → noHandler s x o.code →
      ∃ t, exec (.trap o) s = .next t ∧
        stoppedWith s t x q (unitRecord o.code s.cur.ctl.pc false) s.cur.act (s.cur.ctl.pc + 4)) ∧
    (∀ i, privileged i = true → s.cur.supervisor = false → s.cur.ctl.wait = .ready → s.cur.spilled = false → s.cur.entering = none → noHandler s x 0x02 →
      ∃ t, exec i s = .next t ∧
        stoppedWith s t x q (unitRecord 0x02 s.cur.ctl.pc false) s.cur.ctl.mask (s.cur.ctl.pc + 4)) ∧
    (∀ f, faultDue s f → namesItself s f → noHandler s x f.code →
      ∃ t, exec (.takeFault s.cur.id) s = .next t ∧ stoppedWith s t x q (pendRecord f) f.mask s.cur.ctl.pc) ∧
    ∀ f, s.cur.pend = [f] → f.sup = true → s.mayRun s.cur = true → s.cur.away = false →
      ∃ t, exec (.takeFault s.cur.id) s = .next t ∧ stoppedWith s t x q (pendRecord f) f.mask s.cur.ctl.pc) ∧
  (∀ (s : State) (f : PendFault) (h : Handler), faultDue s f → namesItself s f → canHandle s f.code h →
    ∃ t, exec (.takeFault s.cur.id) s = .next t ∧
      entered (s.modCur fun g => { g with pend := [] }) t h (pendRecord f) f.kind f.mask s.cur.ctl.pc) ∧
  (∀ (s : State) (f : PendFault) (h : Handler) (x : Flight) (xs : List Flight) (l : LaneAcc), faultDue s f → f.code = 0x0B →
    f.own = false → enginesFree s → heldFlights s.cur = x :: xs → (∀ y ∈ xs, x.id < y.id) →
    (x.lanes.find? fun k => k.st == .queued) = some l → canHandle s 0x0B h →
    let due : PendFault :=
      { f with
        mask := lanesMask (heldLanes s.cur), addr := BitVec.ofNat 64 (l.addr / 4096 * 4096), count := BitVec.ofNat 16 (xs.length + 1) }
    ∃ t, exec (.takeFault s.cur.id) s = .next t ∧
      entered (s.modCur fun g => { g with pend := [] }) t h (pendRecord due) f.kind due.mask s.cur.ctl.pc)

/-- `rte` and `rte.skip` replay the queue, wait for the results of the handler's own registers, leave the handler and
restore the control that the fault saved. After a fault of a unit or a late trap `rte.skip` goes on at the resume
address and `rte` runs the unit once more for the lanes of `$TMASK`; after a fault of memory both go on there; after a
covering wait both issue the wait again; after JTRANGE `rte` runs the `jtab` again and `rte.skip` parks the fragment at
its join address. `replay` sends queued lanes whose pages are mapped on their way again (R42, R43, R141, R142, R263,
R341). Where the manual is open, the model's choices of logs 26, 74, 75 hold. -/
def Obligations.HandlerReturns : Prop :=
  (∀ (o : Sw) (s : State) (f c : Frame) (r : List Frame), returning s f c r → (∃ x ∈ f.regs.drop 8, x.pend ≠ none) →
    (∃ t, exec (.rteSkip o) s = .next t ∧ replaysAndWaits s t) ∧ ∃ t, exec (.rte o) s = .next t ∧ replaysAndWaits s t) ∧
  (∀ (o : Sw) (s : State) (f c : Frame) (r : List Frame), returning s f c r → (∀ x ∈ f.regs.drop 8, x.pend = none) →
    let again (pc : Pc) : Ctl := { restoredAt s f o.sw pc with wait := .ready }
    (f.save.kind = 0 ∨ f.save.kind = 1 →
      (notJoining f f.ret → ∃ t, exec (.rteSkip o) s = .next t ∧ left s t f c r (restoredAt s f o.sw f.ret)) ∧
      ∃ t, exec (.rte o) s = .next t ∧ left s t f c r { again (redoOf s f).pc with redo := some (redoOf s f) }) ∧
    (f.save.kind = 2 → notJoining f f.ret →
      (∃ t, exec (.rteSkip o) s = .next t ∧ left s t f c r (restoredAt s f o.sw f.ret)) ∧
      ∃ t, exec (.rte o) s = .next t ∧ left s t f c r (restoredAt s f o.sw f.ret)) ∧
    (f.save.kind = 3 →
      (∃ t, exec (.rteSkip o) s = .next t ∧ left s t f c r (again (f.ret - 4))) ∧
      ∃ t, exec (.rte o) s = .next t ∧ left s t f c r (again (f.ret - 4))) ∧
    ∀ n e, f.save.kind = 4 → f.save.frag = some n → f.save.entry = some e → n < s.cur.table.length → e.join ≠ f.ret - 4 →
      (∃ t, exec (.rte o) s = .next t ∧ left s t f c r (again (f.ret - 4))) ∧
      ((∃ sp, s.cur.split? e.split = some sp) →
        (∃ j x, j < 8 ∧ j ≠ n ∧ s.cur.frag ≠ some j ∧ s.cur.entry? j = some x ∧ x.split = e.split ∧ x.st ≠ .parked) →
        ∃ t x, exec (.rteSkip o) s = .next t ∧ left s t f c r { again e.join with turn := false } ∧
          t.cur.entry? n = some x ∧ x.st = .parked ∧ x.ctl = t.cur.ctl)) ∧
  (∀ (o : Sw) (s : State), s.cur.live = true → s.cur.supervisor = true → replayable s →
    ∃ t, exec (.replay o) s = .next t ∧ goesTo s t (after s.cur 4) ∧
      calmly { s with cur := { s.cur with flights := replayed s } } t)

/-! ## System instructions and counters -/

/-- `pmap`, `rrset`, `fmtset`, `fmtsync` and `psig` leave exactly the change of their rule; `fmtset` goes on once the
operations of its core that name the entries have retired, an entry that it writes is read at once there, FMTSET_APPLY
lets another core apply the next update once its operations that name that entry have retired, and an index no update
names keeps its entry (R249, R250, R94, R95, R218, R220, R253). Where the manual is open, the model's choices of logs
20, 44, 80, 86 hold. -/
def Obligations.SystemResults : Prop :=
  (∀ (i : Instr) (r : EffectRule) (s : State), systemRule i = some r → mayRun r.kind s → r.needs s →
     ∃ t, exec i s = .next t ∧ goesTo s t (after s.cur 4) ∧ calmly (r.effect s) t) ∧
  (∀ (s : State) (i : Nat) (v : Dword) (c : Context), s.contexts.find? (fun x => x.num == s.cur.id.ctx) = some c →
    (setFormat s i v).entry i = v) ∧
  (∀ (s : State) (c : Context) (core : Nat), s.contexts.find? (fun x => x.num == c.num) = some c →
    appliedBy c core < c.fmtLog.length → (∀ p, c.fmtLog[appliedBy c core]? = some p → unnamed s c.num core p.1) →
    ∃ t d, exec (.fmtsetApply c.num core) s = .next t ∧ t.contexts.find? (fun x => x.num == c.num) = some d ∧
      appliedBy d core = appliedBy c core + 1 ∧ t = s.setCtx { c with fmtSeen := d.fmtSeen } ∧
      ∀ i, (∀ p ∈ c.fmtLog, p.1 ≠ i) → d.formatAt core i = c.formatAt core i)

/-- `scratchcfg` gives the context the ways it names on its core: bytes of its crews there whose way is the same way
number as before stay, every other one reads zero; lines of that core alone leave the L1; other crews, other cores, the
masks of other contexts and all else stay (R251, R268). Where the manual is open, the model's choices of log 43 hold. -/
def Obligations.ScratchWays : Prop :=
  ∀ (o : FmtA) (s : State), mayRun { serialUnit with priv := true } s → uniformReady s [o.a.toNat] →
    let w := s.cur.lane o.a.toNat 0
    let core := (s.crewOf s.cur).core
    let old := (s.coreOf s.cur).wayMask s.cur.id.ctx
    w.toNat < 0xFFFF → (∀ k ∈ s.cores, k.copies = []) → (∀ c ∈ s.crews, Memory.wf c.scratch = true) →
    ∃ t, exec (.scratchcfg o) s = .next t ∧ goesTo s t (after s.cur 4) ∧
      (s.cores.any (fun k => k.ix == core) = true → (t.core core).wayMask s.cur.id.ctx = w.setWidth 16) ∧
      t.crews.length = s.crews.length ∧
      (∀ (n : Nat) (c d : Crew), s.crews[n]? = some c → t.crews[n]? = some d → d = { c with scratch := d.scratch } ∧
        (c.ctx ≠ s.cur.id.ctx ∨ c.core ≠ core → d = c) ∧
        (c.ctx = s.cur.id.ctx → c.core = core → ∀ a,
          (byteStays old (w.setWidth 16) (s.scratchBase c + a) → Memory.read d.scratch a = Memory.read c.scratch a) ∧
          (¬byteStays old (w.setWidth 16) (s.scratchBase c + a) → Memory.read d.scratch a = 0))) ∧
      (∀ n, n ≠ core → t.core n = s.core n) ∧ (∀ x, x ≠ s.cur.id.ctx → (t.core core).wayMask x = (s.core core).wayMask x) ∧
      calmCore { t.core core with wayMasks := [] } = calmCore { s.core core with wayMasks := [] } ∧
      (∀ x ∈ t.l1, x ∈ s.l1) ∧ (∀ x ∈ s.l1, x.ofCore core = false → x ∈ t.l1) ∧
      calm t = calm { s with crews := t.crews, l1 := t.l1 }

/-- `pmcfg` clears a counter and selects its event, `pmctl` starts or stops the counters of the core or ends a capture,
all for the issuing context; `pmrd` reads a counter, with a free value added where one that runs for a resident owner
counts time that has passed, and the cycle counter, which does not go back (R252, R253, R345 to R348, R351). Where the
manual is open, the model's choices of logs 3, 19 hold. -/
def Obligations.CountersControlled : Prop :=
  ∀ (s : State), s.cores.any (fun k => k.ix == (s.crewOf s.cur).core) = true →
    (∀ o : FmtAB, mayRun serialUnit s → uniformReady s [o.a.toNat, o.b.toNat] →
      let i := (s.cur.lane o.a.toNat 0).toNat
      let e := (s.cur.lane o.b.toNat 0).toNat
      i < 4 → e < 24 → (s.coreOf s.cur).ctrVal.length = 4 → (s.coreOf s.cur).ctrSel.length = 4 →
      ∃ t, exec (.pmcfg o) s = .next t ∧ goesTo s t (after s.cur 4) ∧ calm t = calm s ∧
        (t.coreOf s.cur).ctrVal.getD i 1 = 0 ∧ (t.coreOf s.cur).ctrSel.getD i 0 = BitVec.ofNat 8 e ∧
        (t.coreOf s.cur).ctrOwner = some s.cur.id.ctx) ∧
    (∀ o : FmtA, mayRun serialUnit s → uniformReady s [o.a.toNat] →
      let w := (s.cur.lane o.a.toNat 0).toNat
      (w = 0 → ∃ t, exec (.pmctlStop o) s = .next t ∧ goesTo s t (after s.cur 4) ∧ (t.coreOf s.cur).ctrRun = false ∧
        (t.coreOf s.cur).ctrOwner = some s.cur.id.ctx ∧ calm t = calm { s with freeIx := t.freeIx }) ∧
      (w = 1 → ∃ t, exec (.pmctlStart o) s = .next t ∧ goesTo s t (after s.cur 4) ∧ (t.coreOf s.cur).ctrRun = true ∧
        (t.coreOf s.cur).ctrOwner = some s.cur.id.ctx ∧ calm t = calm s) ∧
      (w = 3 → ∀ c k, s.contexts.find? (fun x => x.num == s.cur.id.ctx) = some c → c.capture = some k →
        ∃ t, exec (.pmctlAbort o) s = .next t ∧ goesTo s t (after s.cur 4) ∧
          t.here.capture = some { k with passes := k.pass, aborted := true } ∧ t.cur.frames = s.cur.frames)) ∧
    (∀ o : FmtDA, s.cur.live = true → uniformReady s [o.a.toNat] → (∀ x ∈ both o.d, x < s.cur.regs.length) →
      (∀ x ∈ both o.d, (s.cur.reg x).pend = none) → s.cur.act = allLanes →
      let i := (s.cur.lane o.a.toNat 0).toNat
      let k := s.coreOf s.cur
      let old : BitVec 48 := k.ctrVal.getD i 0
      (i < 4 →
        ∃ t v, exec (.pmrd o) s = .next t ∧ goesTo s t (after s.cur 4) ∧ onlyRegs (both o.d) { s with freeIx := t.freeIx } t ∧
          (¬timeCounted s k i → v = old) ∧ (timeCounted s k i → ∃ n, v = old + Config.timedCount n) ∧
          ∀ l, l < 128 → t.cur.lane (o.d.toNat + 1) l ++ t.cur.lane o.d.toNat l = v.setWidth 64) ∧
      (i = 4 → ∃ t, exec (.pmrd o) s = .next t ∧ goesTo s t (after s.cur 4) ∧
        onlyRegs (both o.d) { s with freeIx := t.freeIx, cores := t.cores } t ∧
        (s.coreOf s.cur).cycles.toNat ≤ (t.coreOf s.cur).cycles.toNat ∧
        ∀ l, l < 128 → t.cur.lane (o.d.toNat + 1) l ++ t.cur.lane o.d.toNat l = (t.coreOf s.cur).cycles))

/-! ## Tasks -/

/-- `spawn` and `spawnr`, once the crew has gathered, push a record with the child's pedigree, target, demand, arguments
and segment, count the child in the open block or in the one that the first spawn opens, and advance the spawner's
position and stream; a full deque's 16 oldest records go to the overflow list. At depth 31 the spawn is flattened: no
record is pushed, the lead gang, and then each other gang of the crew, calls the target in a frame that is marked
flattened, with the arguments as its v0 to v7 and the caller's window as it was, and F is set (R25 to R27, R32, R34,
R143, R144, R290). Where the manual is open, the model's choices of logs 76, 85 hold. -/
def Obligations.SpawnPushes : Prop :=
  ∀ (s : State) (c : Crew) (k : Task) (map : BitVec 16) (ws : List Word),
    (∀ o : FmtCall, spawnReady s (.spawn s.cur.ctl.pc 0x0B) c k map ws → rowsOf o.g ≤ regsOf o.n →
      ∃ t, exec (.spawn o) s = .next t ∧ goesTo s t (after s.cur 4) ∧
        spawnDone s t c k (farFrom s.cur.ctl.pc o.off.toInt) o.n o.g map ws) ∧
    (∀ o : FmtAB, spawnReady s (.spawn s.cur.ctl.pc 0x0C) c k map ws →
      let r := callThrough s o false
      r.needs → rowsOf r.gf ≤ regsOf r.nf →
      ∃ t, exec (.spawnr o) s = .next t ∧ goesTo s t (after s.cur 4) ∧ spawnDone s t c k r.target r.nf r.gf map ws) ∧
    (pedDepth s.cur.ped = 31 →
      let roomy (nf gf : BitVec 4) : Prop := rowsOf gf ≤ regsOf nf ∧ frameFree s (rowsOf gf) (64 + 8 * regsOf nf) ∧
        ∀ g ∈ s.crewGangs s.cur.id.ctx s.cur.id.crew, g.held + rowsOf gf ≤ s.quotaRows g
      (∀ o : FmtCall, spawnChecked s (.spawn s.cur.ctl.pc 0x0B) c k map ws → roomy o.n o.g →
        let target := farFrom s.cur.ctl.pc o.off.toInt
        ∃ t, exec (.spawn o) s = .next t ∧ goesTo s t target ∧ flatDone s t target o.n o.g (unpackArgs map ws)) ∧
      ∀ o : FmtAB, spawnChecked s (.spawn s.cur.ctl.pc 0x0C) c k map ws →
        let r := callThrough s o false
        r.needs → roomy r.nf r.gf →
        ∃ t, exec (.spawnr o) s = .next t ∧ goesTo s t r.target ∧ flatDone s t r.target r.nf r.gf (unpackArgs map ws)) ∧
    (∀ (o : FmtCall) (f : FlatCall), mayRun serialUnit s → s.cur.id.rank ≠ 0 → onTask s c k → c.flat = some f → f.pc = s.cur.ctl.pc →
      f.todo.contains s.cur.id.rank = true → frameFree s (rowsOf f.gf) (64 + 8 * regsOf f.nf) → f.args.length = 8 →
      ∃ t, exec (.spawn o) s = .next t ∧ goesTo s t f.target ∧ t.cur.frames = flatFrames s f.nf f.gf f.args ∧
        t.cur.ped = s.cur.ped ∧ t.cur.rng = s.cur.rng ∧ t.mem = s.mem ∧
        ((t.crewOf s.cur).flat.map FlatCall.todo).getD [] = f.todo.filter fun r => r != s.cur.id.rank)

/-- `join` without unfinished children completes: the position becomes (j + 1, 0), the stream is re-keyed, the tiles
read zero, and the open block, if there is one, is folded: its record goes, its views are the strand's, its flags are
raised; with unfinished children, or a fold that is not finished, the task is suspended in its join record and the crew
has none; in a flattened invocation it changes neither position nor stream (R36 to R38, R145, R292, R309). Where the
manual is open, the model's choices of logs 9, 26, 68 hold. -/
def Obligations.Joins : Prop :=
  ∀ (o : Sw) (s : State) (c : Crew) (k : Task), mayRun serialUnit s → s.cur.id.rank = 0 → s.cur.allOps = [] →
    gathered s (.join s.cur.ctl.pc) → onTask s c k →
    (pedF s.cur.ped = true → ∃ t, exec (.join o) s = .next t ∧ goesTo s t (after s.cur 4) ∧ t.cur.ped = s.cur.ped ∧
      t.cur.rng = s.cur.rng ∧ t.cur.frames = s.cur.frames ∧ (t.crewOf s.cur).tiles = []) ∧
    (pedF s.cur.ped = false → 1 ≤ pedDepth s.cur.ped → joinsOf s.cur.ped < 63 → ∀ id j, k.block = some id →
      s.here.joinRec? id = some j → j.unfinished = 0 → c.slowFold = false →
      let f := s.here.foldBlock k.segs j.finals k.spawned
      s.storeUsed c.core + (f.1.map (s.bytesOf s.cur.id.ctx)).sum ≤ 65536 →
      ∃ t, exec (.join o) s = .next t ∧ goesTo s t (after s.cur 4) ∧ movedTo s.cur.ped t.cur.ped (joinsOf s.cur.ped + 1) 0 ∧
        t.cur.rng = streamAt s t.cur.ped ∧ (t.crewOf s.cur).tiles = [] ∧ t.cur.frames = s.cur.frames ∧ t.mem = s.mem ∧
        t.here.joinRec? id = none ∧ t.cur.fstat = s.cur.fstat ||| f.2.setWidth 32 ∧
        ((t.crewOf s.cur).task.map fun x => (x.block, x.spawned, (x.segs.flatMap Segment.views).map fun v => (v.id, v.elems, v.dropped))) =
          some (none, 0, f.1.map fun v => (v.id, v.elems, v.dropped))) ∧
    (pedF s.cur.ped = false → 1 ≤ pedDepth s.cur.ped → joinsOf s.cur.ped < 63 → k.block = none →
      ∃ t, exec (.join o) s = .next t ∧ goesTo s t (after s.cur 4) ∧ movedTo s.cur.ped t.cur.ped (joinsOf s.cur.ped + 1) 0 ∧
        t.cur.rng = streamAt s t.cur.ped ∧ (t.crewOf s.cur).tiles = [] ∧ t.cur.frames = s.cur.frames ∧ t.mem = s.mem) ∧
    (pedF s.cur.ped = false → joinsOf s.cur.ped < 63 → ∀ id j, k.block = some id → s.here.joinRec? id = some j →
      0 < j.unfinished ∨ c.slowFold = true → (∀ g ∈ s.crewGangs s.cur.id.ctx s.cur.id.crew, g.atRest = true) →
      uncaptured s → pagesWhole s.here →
      s.here.taskUsed + ((s.crewGangs s.cur.id.ctx s.cur.id.crew).map fun g => (g.imageBytes + 63) / 64 * 64).sum ≤ s.here.taskSize →
      ∃ t, exec (.join o) s = .next t ∧ (t.crewOf s.cur).task = none ∧ t.cur.frames = [] ∧ onlyImages s t s.cur.id.ctx ∧
        ((t.ctx s.cur.id.ctx).joinRec? id).any (fun j => j.suspended.any fun p => decide (p.task = k) && !p.atDone) = true)

/-- `tdone` of a task, once the crew has gathered and nothing is in flight, ends it: the crew has no task, its gangs no
frames, and the parent's join record counts one child less. A block that is open is joined first, the position staying:
folded where its children are complete, its record gone and its flags raised; suspended in its record, with the `tdone`
to be issued again, where they are not. In a flattened invocation `tdone` returns. It faults UNWIND where it would leave
a handler's frame, which stops the crew of a gang in a handler (R32, R34, R37, R139, R146, R340). Where the manual is
open, the model's choices of logs 9, 68 hold. -/
def Obligations.TasksEnd : Prop :=
  ∀ (o : Sw) (s : State), s.cur.live = true → s.cur.frag = none →
    let handlers : Prop := ∃ f ∈ s.cur.frames, f.handler = true
    let still : Prop := ∀ g ∈ s.crewGangs s.cur.id.ctx s.cur.id.crew, g.pend = [] ∧ ∀ f ∈ g.flights, f.finished = true
    (∀ (c : Crew) (k : Task), ¬handlers → pedF s.cur.ped = false → s.cur.allOps = [] → gathered s (.tdone s.cur.ctl.pc) → onTask s c k →
      k.block = none → s.here.capture = none → (k.root = true → k.finals = []) → still →
      ∃ t, exec (.tdone o) s = .next t ∧ (t.crewOf s.cur).task = none ∧
        (∀ g ∈ t.crewGangs s.cur.id.ctx s.cur.id.crew, g.frames = []) ∧ t.mem = s.mem ∧
        ∀ id j, k.join = some id → s.here.joinRec? id = some j →
          ((t.ctx s.cur.id.ctx).joinRec? id).map JoinRec.unfinished = some (j.unfinished - 1)) ∧
    (∀ (c : Crew) (k : Task) (b : Nat) (j : JoinRec), ¬handlers → pedF s.cur.ped = false → s.cur.allOps = [] →
      gathered s (.tdone s.cur.ctl.pc) → onTask s c k → k.block = some b → s.here.joinRec? b = some j →
      (j.unfinished = 0 → c.slowFold = false → s.here.capture = none → k.root = false → still →
        let f := s.here.foldBlock k.segs j.finals k.spawned
        s.storeUsed c.core + (f.1.map (s.bytesOf s.cur.id.ctx)).sum ≤ 65536 →
        ∃ t, exec (.tdone o) s = .next t ∧ (t.crewOf s.cur).task = none ∧
          (∀ g ∈ t.crewGangs s.cur.id.ctx s.cur.id.crew, g.frames = []) ∧ t.mem = s.mem ∧ t.cur.ped = s.cur.ped ∧
          t.cur.fstat = s.cur.fstat ||| f.2.setWidth 32 ∧ (t.ctx s.cur.id.ctx).joinRec? b = none ∧
          ∀ id p, k.join = some id → id ≠ b → s.here.joinRec? id = some p →
            ((t.ctx s.cur.id.ctx).joinRec? id).map JoinRec.unfinished = some (p.unfinished - 1)) ∧
      (0 < j.unfinished ∨ c.slowFold = true → (∀ g ∈ s.crewGangs s.cur.id.ctx s.cur.id.crew, g.atRest = true) →
        uncaptured s → pagesWhole s.here →
        s.here.taskUsed + ((s.crewGangs s.cur.id.ctx s.cur.id.crew).map fun g => (g.imageBytes + 63) / 64 * 64).sum ≤ s.here.taskSize →
        ∃ t, exec (.tdone o) s = .next t ∧ (t.crewOf s.cur).task = none ∧ t.cur.frames = [] ∧ onlyImages s t s.cur.id.ctx ∧
          ((t.ctx s.cur.id.ctx).joinRec? b).any (fun x => x.suspended.any fun p => decide (p.task = k) && p.atDone) = true)) ∧
    (∀ (f c : Frame) (r : List Frame), pedF s.cur.ped = true → s.cur.frames = f :: c :: r → f.handler = false →
      (f.flattened = true → (∀ x ∈ f.regs, x.pend = none) →
        ∃ t, exec (.tdone o) s = .next t ∧ goesTo s t f.ret ∧ t.cur.frames = c :: r ∧
          pedF t.cur.ped = (c :: r).any Frame.flattened) ∧
      (f.flattened = false → (∀ x ∈ f.regs.drop 8, x.pend = none) →
        ∃ t, exec (.tdone o) s = .next t ∧ goesTo s t f.ret ∧ t.cur.frames = { c with regs := c.regs ++ f.regs.take 8 } :: r ∧
          pedF t.cur.ped = (c :: r).any Frame.flattened)) ∧
    ∀ (c : Crew) (x : Context) (q : Queue), stoppable s c x q → s.cur.ctl.wait = .ready → s.cur.spilled = false → s.cur.entering = none →
      noHandler s x 0x18 → (if pedF s.cur.ped then ∃ f, s.cur.frames.head? = some f ∧ f.handler = true else handlers) →
      ∃ t, exec (.tdone o) s = .next t ∧ stoppedWith s t x q (unitRecord 0x18 s.cur.ctl.pc false) s.cur.ctl.mask (s.cur.ctl.pc + 4)

/-- A free crew pops its newest record and a thief takes the oldest record of a victim; TASK_START starts a record's
task: every gang of the crew at its entry with full mask, the record's pedigree and the context's mode, and a new frame
of the record's demand whose v0 to v7 are the record's arguments (R22, R26 to R28, R57). Where the manual is open, the
model's choices of log 62 hold. -/
def Obligations.WorkMoves : Prop :=
  (∀ (s : State) (ctx crew : Nat) (c : Crew) (ds : List TaskRec) (r : TaskRec), s.crew ctx crew = c → s.crewFree c = true →
    c.deque = ds ++ [r] → r ∉ ds → (s.ctx ctx).mayPop r = true →
    exec (.pop ctx crew) s = .next (s.setCrew { c with deque := ds, taken := some r })) ∧
  (∀ (s : State) (ctx thief victim : Nat) (a b : Crew) (r : TaskRec) (ds : List TaskRec), thief ≠ victim →
    s.crews.find? (fun k => k.ctx == ctx && k.rank == thief) = some a → s.crews.find? (fun k => k.ctx == ctx && k.rank == victim) = some b →
    s.crewFree a = true → a.deque = [] → a.overflow = [] → a.core = b.core → b.overflow = [] → b.deque = r :: ds →
    (s.ctx ctx).maySteal thief r = true →
    ∃ t, exec (.steal ctx thief victim) s = .next t ∧ (t.crew ctx thief).taken = some r ∧ (t.crew ctx victim).deque = ds ∧
      t.mem = s.mem ∧ t.cur = s.cur) ∧
  (∀ (s : State) (ctx crew : Nat) (c : Crew) (r : TaskRec),
    s.crews.find? (fun k => k.ctx == ctx && k.rank == crew) = some c → c.taken = some r → c.stopped = false →
    (s.core c.core).resident = some ctx → (s.ctx ctx).mayRun r = true →
    (∀ g ∈ s.crewGangs ctx crew, rowsOf r.gf ≤ s.quotaRows g) →
    ∃ t, exec (.taskStart ctx crew) s = .next t ∧ (t.crew ctx crew).taken = none ∧
      ((t.crew ctx crew).task.map fun k => (k.entry, k.join, k.segment)) = some (r.entry, r.join, r.segment) ∧
      ∀ g ∈ t.crewGangs ctx crew, g.ctl.pc = r.entry ∧ g.ctl.mask = allLanes ∧ g.ped = r.ped ∧ g.mode = (s.ctx ctx).mode ∧
        g.ftrap = (s.ctx ctx).ftrap ∧ g.supervisor = false ∧ g.fstat = 0 ∧
        g.frames = [{ calleeFrame 0 r.nf r.gf false with
          regs := asRegs (unpackArgs r.argmap r.args) ++ List.replicate (regsOf r.nf - 8) freshReg }])

/-! ## Reducers, mailboxes, barriers -/

/-- `rupd` combines the values of its lanes in lane order into the elements their indexes name; `rlog` appends its lanes' values
up to the length and counts what is dropped; `rread` reads elements of the current view, identities when there is none (R153
to R156). -/
def Obligations.ReducersUpdate : Prop :=
  (∀ (o : FmtRed) (s : State) (r : Reducer) (c : Crew) (k : Task),
    reducerReady s r o.id.toNat false o.d [o.a.toNat] k c →
    (∀ x ∈ span r.fmt.w o.d, (s.cur.reg x).pend = none) → s.cur.act ≠ 0 →
    (∀ l ∈ activeLanes s, (s.cur.lane o.a.toNat l).toNat < r.len) → s.cur.supervisor = true ∨ s.cur.ftrap = 0 →
    (viewElems k r o.id.toNat).length = r.len →
    ∃ t, exec (.rupd o) s = .next t ∧ goesTo s t (after s.cur 4) ∧
      (∃ v, currentView t o.id.toNat = some v ∧ v.elems.length = r.len ∧ ∀ i, i < r.len →
        v.elems.getD i 0 = ((activeLanes s).filter fun l => decide ((s.cur.lane o.a.toNat l).toNat = i)).foldl
          (fun e l => (r.combine e (operandAt s.cur r.fmt.w o.d l)).bits) ((viewElems k r o.id.toNat).getD i 0)) ∧
      calmly { s with crews := t.crews, tick := t.tick, cur := { s.cur with fstat := t.cur.fstat } } t) ∧
  (∀ (o : FmtRlog) (s : State) (r : Reducer) (c : Crew) (k : Task), reducerReady s r o.id.toNat true o.d [] k c →
    (∀ x ∈ both o.d, (s.cur.reg x).pend = none) → s.cur.act ≠ 0 →
    let all := viewElems k r o.id.toNat ++ (activeLanes s).map fun l =>
      (s.cur.lane (o.d.toNat + 1) l ++ s.cur.lane o.d.toNat l).toNat
    ∃ t, exec (.rlog o) s = .next t ∧ goesTo s t (after s.cur 4) ∧
      (∃ v, currentView t o.id.toNat = some v ∧ v.elems = all.take r.len ∧
        v.dropped = ((k.current o.id.toNat).map View.dropped).getD 0 + (all.length - r.len)) ∧
      calmly { s with crews := t.crews, tick := t.tick } t) ∧
  (∀ (o : FmtRed) (s : State) (r : Reducer) (c : Crew) (k : Task),
    reducerReady s r o.id.toNat false o.d [o.a.toNat] k c → s.cur.act ≠ 0 →
    (∀ l ∈ activeLanes s, (s.cur.lane o.a.toNat l).toNat < r.len) → (viewElems k r o.id.toNat).length = r.len →
    (∀ x ∈ span r.fmt.w o.d, (s.cur.reg x).pend = none) →
    rowsFree s ((span r.fmt.w o.d).countP fun x => (s.cur.val x).tag ≠ 2) →
    ∃ t, exec (.rread o) s = .next t ∧ goesTo s t (after s.cur 4) ∧
      onlyRegs (span r.fmt.w o.d) { s with crews := t.crews } t ∧
      ∀ i x, (span r.fmt.w o.d)[i]? = some x → ∀ l, l < 128 → t.cur.lane x l =
        if inMask s.cur.act l then
          BitVec.ofNat 32 ((viewElems k r o.id.toNat).getD (s.cur.lane o.a.toNat l).toNat 0 / 2 ^ (32 * i))
        else s.cur.lane x l)

/-- `mbrecv` leaves its sixteen registers pending on a receive; `mbrecv.p` takes a message that no receive waits for and
sets EQ, or clears `$CC`; `mbsend` posts sixteen words to a queue with room; a queue gives its oldest message to the
longest-waiting receive; a gang or fragment that waits at `mbsend` sends once there is room (R21, R150, R152). Where the
manual is open, the model's choices of log 38 hold. -/
def Obligations.Mailboxes : Prop :=
  (∀ (o : FmtDA) (s : State), receiveReady s o → (s.cur.lane o.a.toNat 0).toNat < s.here.queues →
    ∃ t, exec (.mbrecv o) s = .next t ∧ goesTo s t (after s.cur 4) ∧ t.tick = s.tick + 1 ∧
      (∃ r, t.cur.recvs = s.cur.recvs ++ [r] ∧ r.grove = (s.cur.lane o.a.toNat 0).toNat ∧ r.op = s.tick ∧ r.since = s.tick ∧
        r.act = s.cur.act) ∧
      (∀ i x, (recordOf o.d 16)[i]? = some x → (t.cur.reg x).pend = some ⟨s.tick, i⟩ ∧ t.cur.val x = s.cur.val x) ∧
      onlyRegs (recordOf o.d 16) { s with tick := t.tick, cur := { s.cur with flights := t.cur.flights, recvs := t.cur.recvs } } t) ∧
  (∀ (o : FmtDA) (s : State) (q : Queue), receiveReady s o → queueHolds s (s.cur.lane o.a.toNat 0).toNat q →
    (q.msgs = [] → ∃ t, exec (.mbrecvP o) s = .next t ∧ goesTo s t (after s.cur 4) ∧
      calmly (s.modCur fun g => { g with cc := 0 }) t) ∧
    (∀ msg rest, q.msgs = msg :: rest → s.waitingAt q = [] →
      ∃ t, exec (.mbrecvP o) s = .next t ∧ goesTo s t (after s.cur 4) ∧ t.cur.cc = 1 ∧
        (t.queue? q.dev q.ix).map Queue.msgs = some rest ∧
        (∀ i x l, i < 16 → (recordOf o.d 16)[i]? = some x → l < 128 → t.cur.lane x l = msg.getD i 0) ∧
        onlyRegs (recordOf o.d 16) { s with queues := t.queues, l1 := t.l1, cur := { s.cur with cc := t.cur.cc } } t)) ∧
  (∀ (o : FmtAB) (s : State) (q : Queue), s.cur.live = true → uniformReady s (recordOf o.a 16 ++ [o.b.toNat]) → s.cur.act ≠ 0 →
    s.here.capture = none → settled s → queueHolds s (s.cur.lane o.b.toNat 0).toNat q → q.msgs.length < 32 →
    ∃ t, exec (.mbsend o) s = .next t ∧ goesTo s t (after s.cur 4) ∧
      calmly (s.setQueue { q with msgs := q.msgs ++ [(recordOf o.a 16).map fun x => s.cur.lane x 0] }) t) ∧
  (∀ (s : State) (q : Queue) (r : Receive) (w : List (GangId × Receive)) (msg : List Word) (rest : List (List Word)),
    s.cur.live = true → s.queue? q.dev q.ix = some q → (s.ctx q.ctx).capture = none → q.msgs = msg :: rest →
    s.waitingAt q = (s.cur.id, r) :: w → s.cur.lent = 0 →
    ∃ t, exec (.messageDelivery q.dev q.ix) s = .next t ∧ (t.queue? q.dev q.ix).map Queue.msgs = some rest ∧
      t.cur.recvs = s.cur.recvs.filter (fun x => x.op != r.op) ∧ t.mem = s.mem ∧
      (∀ x, (∀ p, (s.cur.reg x).pend = some p → p.op ≠ r.op) → t.cur.reg x = s.cur.reg x) ∧
      ∀ x i, (s.cur.reg x).pend = some ⟨r.op, i⟩ → (t.cur.reg x).pend = none ∧
        ∀ l, l < 128 → t.cur.lane x l = if inMask r.act l then msg.getD i 0 else s.cur.lane x l) ∧
  (∀ (o : FmtAB) (s : State) (q : Queue) (since : Nat), s.cur.live = true → s.cur.ctl.wait = .queue q.dev q.ix since →
    s.queue? q.dev q.ix = some q → q.msgs.length < 32 → s.listens s.cur = true → s.fetchInstr s.cur = .ok (.mbsend o) →
    s.cur.entering = none → waitsAlone s (fun w => ∃ d i t, w = .queue d i t) →
    uniformReady s (recordOf o.a 16 ++ [o.b.toNat]) → s.cur.act ≠ 0 → s.here.capture = none → settled s →
    queueHolds s (s.cur.lane o.b.toNat 0).toNat q →
    ∃ t, exec (.mbsendAccept s.cur.id) s = .next t ∧ goesTo s t (after s.cur 4) ∧
      calmly (s.setQueue { q with msgs := q.msgs ++ [(recordOf o.a 16).map fun x => s.cur.lane x 0] }) t)

/-- The crew barrier: `carr` arrives and goes on, whatever its gang has under way, and waits while the gang's arrival
before it is open; `cbar`, which what is in the replay queue does not hold, arrives and waits for its phase; the arrival
of the last gang completes the phase once what came before each arrival is complete, and a gang that waits at `cbar` for
a complete phase goes on; `cwt` goes on when the phase of the gang's last `carr` is complete, where it orders what
follows behind accesses still under way, and waits while the phase is open (R24, R48, R248, R262, R278, R280). Where the
manual is open, the model's choices of logs 65, 73, 82 hold. -/
def Obligations.Barriers : Prop :=
  ∀ (o : Sw) (s : State) (c : Crew) (p : Nat), mayRun serialUnit s →
    s.crews.find? (fun k => k.ctx == s.cur.id.ctx && k.rank == s.cur.id.crew) = some c → openPhase s c p →
    let n := (s.crewGangs s.cur.id.ctx s.cur.id.crew).length
    let arrived : Crew := if n ≤ c.arrivals.length + 1 then { c with phase := c.phase + 1, arrivals := [] }
      else { c with arrivals := c.arrivals ++ [s.cur.id.rank] }
    let stays (t : State) (w : Collective) : Prop := t.cur.ctl.wait = .collective w ∧ t.cur.ctl.pc = s.cur.ctl.pc
    let fresh : Prop := c.arrivals.contains s.cur.id.rank = false ∧ ∀ q, s.cur.lastArr = some q → q < p
    let late : Prop := ∃ g ∈ s.crewGangs s.cur.id.ctx s.cur.id.crew, owesFor g c.phase
    (metOnly s (fun w => ∃ q, w = .cbar q) → flown s →
      (fresh → (∀ q, s.cur.ctl.wait ≠ .collective (.cbar q)) → (∀ b, s.cur.barAt = some b → b.1 ≠ s.cur.ctl.pc) →
        (n ≤ c.arrivals.length + 1 → ¬late →
          ∃ t, exec (.cbar o) s = .next t ∧ goesTo s t (after s.cur 4) ∧ calmly (s.setCrew arrived) t) ∧
        (c.arrivals.length + 1 < n ∨ late →
          ∃ t, exec (.cbar o) s = .next t ∧ stays t (.cbar c.phase) ∧ calmly (s.setCrew arrived) t)) ∧
      ∀ q, s.cur.ctl.wait = .collective (.cbar q) →
        (q < p → ∃ t, exec (.cbar o) s = .next t ∧ goesTo s t (after s.cur 4) ∧ calmly s t) ∧
        (p ≤ q → ∃ t, exec (.cbar o) s = .next t ∧ stays t (.cbar q) ∧ calmly s t)) ∧
    (fresh → metOnly s (fun w => ∀ u r, w ≠ .quorum u r) →
      ∃ t, exec (.carr o) s = .next t ∧ goesTo s t (after s.cur 4) ∧ (flown s → t.cur.owes = []) ∧
        (∀ f ∈ underWay s.cur, (f.op = .recv ∨ (accessOp f.op = true ∧ ∃ l ∈ f.lanes, l.st = .flying)) → ∃ o ∈ t.cur.owes, o.1 = f.id) ∧
        calmly ((s.setCrew arrived).modCur fun g => { g with lastArr := some c.phase, owes := t.cur.owes }) t) ∧
    (c.arrivals.contains s.cur.id.rank = true → metOnly s (besideCwt p) →
      ∃ t, exec (.carr o) s = .next t ∧ stays t (.carr c.phase) ∧ calmly s t) ∧
    ((∀ q, s.cur.lastArr = some q → q < p) →
      ∃ t, exec (.cwt o) s = .next t ∧ goesTo s t (after s.cur 4) ∧ (settled s → t.cur.orders = s.cur.orders) ∧
        (¬settled s → s.tick ∈ t.cur.orders) ∧ calmly { s with cur := { s.cur with orders := t.cur.orders } } t) ∧
    ∀ q, s.cur.lastArr = some q → p ≤ q → metOnly s (besideCwt p) →
      (∃ t, exec (.cwt o) s = .next t ∧ stays t (.cwt q) ∧ calmly s t) ∧
        (c.arrivals.contains s.cur.id.rank = false → ∃ t, exec (.carr o) s = .next t ∧ stays t (.carr q) ∧ calmly s t)

/-- `dafence` arrives and waits; once every gang of the crew is there with its accesses complete and its replay queue
empty, ROUND_APPLY applies the crew's held updates in key order, closes its round, and the gangs go on; with a held
dword on a page without a mapping gang 0 owes PAGE with that page instead, and nothing is applied. An update replaces
the bytes at its address by the value of its operation (R234, R235, R262, R269, R272). Where the manual is open, the
model's choices of logs 92, 93 hold. -/
def Obligations.RoundsApply : Prop :=
  (∀ (o : Sw) (s : State), mayRun serialUnit s → unmet s →
    ∃ t, exec (.dafence o) s = .next t ∧ t.cur.ctl.wait = .collective (.dafence o.sw) ∧ t.cur.ctl.pc = s.cur.ctl.pc ∧ calmly s t) ∧
  (∀ (s : State) (ctx crew : Nat) (c : Crew) (sw : Bool), s.crews.find? (fun k => k.ctx == ctx && k.rank == crew) = some c →
    (∃ x, s.contexts.find? (fun x => x.num == ctx) = some x) → c.stopped = false → s.cur.live = true → s.others = [] →
    s.cur.id.ctx = ctx → s.cur.id.crew = crew → s.cur.frag = none → s.cur.ctl.redo = none →
    s.cur.ctl.wait = .collective (.dafence sw) → settled s → s.queueEntries s.cur = 0 → s.halts s.cur = false → s.cur.away = false →
    uncaptured s →
    (∀ q ∈ s.quarantined, q.dev ≠ (s.ctx ctx).dev) → (∀ k ∈ s.cores, k.copies = [] ∧ k.mats = []) →
    (∀ h ∈ (s.ctx ctx).held, h.crew = crew → (s.ctx ctx).physical h.addr ≠ none) →
    ∃ t, exec (.roundApply ctx crew) s = .next t ∧
      t.mem = ((sortBy HeldUpdate.before ((s.ctx ctx).held.filter fun h => h.crew == crew)).foldl State.applyUpdate s).mem ∧
      (t.ctx ctx).held = (s.ctx ctx).held.filter (fun h => h.crew != crew) ∧ (t.crew ctx crew).roundOpen = false ∧
      t.cur.ctl.pc = s.cur.ctl.pc + 4 ∧ t.cur.ctl.wait = .ready ∧ t.cur.datomSeq = 0 ∧ t.cur.frames = s.cur.frames) ∧
  (∀ (s : State) (c : Context) (h : HeldUpdate) (sw : Bool), s.cur.live = true → s.others = [] → s.cur.id.rank = 0 →
    s.contexts.find? (fun x => x.num == s.cur.id.ctx) = some c → (s.crewOf s.cur).stopped = false → s.cur.frag = none →
    s.cur.supervisor = false → s.cur.ctl.wait = .collective (.dafence sw) → settled s → s.queueEntries s.cur = 0 →
    s.halts s.cur = false → s.cur.away = false →
    (∀ q ∈ s.quarantined, q.dev ≠ c.dev) → (c.held.filter fun h => h.crew == s.cur.id.crew).head? = some h →
    c.physical h.addr = none →
    ∃ t f, exec (.roundApply s.cur.id.ctx s.cur.id.crew) s = .next t ∧ t.cur.pend = s.cur.pend ++ [f] ∧ f.code = 0x0B ∧
      f.own = true ∧ f.addr = BitVec.ofNat 64 (h.addr / 4096 * 4096) ∧ f.mask = s.cur.ctl.mask ∧
      calmly { s with cur := { s.cur with pend := t.cur.pend } } t) ∧
  (∀ a b : HeldUpdate, HeldUpdate.before a b = true ↔ keyBefore a b) ∧
  ∀ (s : State) (h : HeldUpdate) (pa : Nat), uncaptured s → Memory.wf s.mem = true → (s.ctx h.ctx).physical h.addr = some pa →
    h.size = 4 ∨ h.size = 8 →
    Memory.readNat (s.applyUpdate h).mem pa h.size =
        datomValue h.op.toNat h.size (Memory.readNat s.mem pa h.size) h.value % 256 ^ h.size ∧
      ∀ a, a < pa ∨ pa + h.size ≤ a → Memory.read (s.applyUpdate h).mem a = Memory.read s.mem a

/-! ## Engines -/

/-- `cpy` and `cpym` put one copy at the issuing core, counted on path 3, with the records' extents, strides and rows,
for the crews that receive it; COPY_COMPLETE, when no earlier access of its gang holds it, moves the bytes in each of
the four directions, and from memory to every receiver of a `cpym`: row after row, each read in full before it is
written; a page that is written is dirty; every other byte stays, and the copy has left its engine and its path (R239 to
R242, R260, R317). Where the manual is open, the model's choices of logs 37, 72 hold. -/
def Obligations.CopiesRun : Prop :=
  (∀ (o : FmtCpy) (s : State), mayRun serialUnit s → (copyRule s o).ready s (recordOf o.d 4 ++ recordOf o.a 4) →
    ∃ t, exec (.cpy o) s = .next t ∧ goesTo s t (after s.cur 4) ∧ (copyRule s o).issued s t) ∧
  (∀ (o : FmtDAB) (s : State) (cs : List Crew), mayRun serialUnit s →
    (copyManyRule s o cs).ready s (recordOf o.d 4 ++ recordOf o.a 4 ++ [o.b.toNat]) →
    ∃ t, exec (.cpym o) s = .next t ∧ goesTo s t (after s.cur 4) ∧ (copyManyRule s o cs).issued s t) ∧
  (∀ (o : FmtDAB) (s : State), mayRun serialUnit s → uniformReady s (recordOf o.d 4 ++ recordOf o.a 4 ++ [o.b.toNat]) →
    s.cur.lane o.b.toNat 0 = 0 →
    ∃ t, exec (.cpym o) s = .next t ∧ goesTo s t (after s.cur 4) ∧ calmly s t) ∧
  (∀ (s : State) (core : Nat) (c : CopyOp), (s.core core).copies = [c] → c.core = core → s.cur.live = true →
     c.gang = s.cur.id → c.finished = false → c.queued = false → c.rowsDone = 0 → c.extent ≠ 0 → c.track = false →
     (c.kind ≠ .multi → c.crews = [s.cur.id.crew]) → c.crews.Nodup → (∀ r ∈ s.cur.id.crew :: c.crews, receives s r) →
     settled s → s.queueEntries s.cur = 0 → pagesWhole s.here → uncaptured s → (∀ x ∈ s.cores, x.mats = [] ∧ ∀ y ∈ x.copies, y = c) →
     (∀ x ∈ s.contexts, ∀ r ∈ x.ringLate, r.1 ≤ c.id) →
     (readsGlobal c → ∀ r i, r < c.rows → i < c.extent → s.here.physical (copyFrom c r i) ≠ none) →
     (writesGlobal c → Memory.wf s.mem = true ∧ ∀ r i, r < c.rows → i < c.extent → s.here.physical (copyInto c r i) ≠ none) →
     let scratch (u : State) (rank : Nat) : List Host.Cell := (u.crew s.cur.id.ctx rank).scratch
     ∃ t, exec (.copyComplete core c.id) s = .next t ∧ (t.core core).copies = [] ∧ (∀ f ∈ underWay t.cur, f.id ≠ c.id) ∧
       t.cur.frames = s.cur.frames ∧
       (¬writesGlobal c → t.mem = s.mem ∧ (∀ rank, rank ∉ c.crews → scratch t rank = scratch s rank) ∧
         ∀ rank ∈ c.crews, ∀ a, Memory.read (scratch t rank) a =
           rowsPut (copyInto c) (copied s c) c.extent c.rows (fun x => Memory.read (scratch s rank) x) a) ∧
       (writesGlobal c → (∀ rank, scratch t rank = scratch s rank) ∧
         (∀ a, Memory.read t.mem a =
           rowsPut (fun r i => landsAt s.here (copyInto c r i)) (copied s c) c.extent c.rows (fun x => Memory.read s.mem x) a) ∧
         ∀ r i, r < c.rows → i < c.extent → t.dirty.contains (landsAt s.here (copyInto c r i) / 4096) = true))

/-- Matrix instructions queue one operation that captures the gang's entries, rounding mode and trap enables: `mzero`
and the drains of one gang; `mdrain.r` with its registers pending; `mma` and `mmas` of a quorum of one gang, with the B
words of all four quarters; `mfence` closes the open batch; `mwait` merges the flags of what it covers (R243 to R247,
R303, R304, R312, R314). Where the manual is open, the model's choices of logs 46, 91 hold. -/
def Obligations.MatrixQueues : Prop :=
  (∀ (i : Instr) (r : MatRule) (s : State), matRule s i = some r → mayRun serialUnit s → uniformReady s r.uniform → r.good →
    matRoomy s → ∃ t, exec i s = .next t ∧ goesTo s t (after s.cur 4) ∧ matQueued s t r.op) ∧
  (∀ (o : FmtTileB) (s : State), mayRun serialUnit s → drainGood s o.tile.toNat → matRoomy s →
    let m := captured s .drainR o.tile.toNat
    let rs := recordOf o.b (if (fmtOf m.fmt).w = 64 then 64 else 32)
    ((fmtOf m.fmt).w = 64 → o.b.toNat % 2 = 0) → (∀ x ∈ rs, x < s.cur.regs.length ∧ (s.cur.reg x).pend = none) →
    rowsFree s (rs.countP fun x => (s.cur.val x).tag ≠ 2) →
    ∃ t, exec (.mdrainR o) s = .next t ∧ goesTo s t (after s.cur 4) ∧ pendingOn s t s.tick rs ∧
      (∃ f, t.cur.flights = s.cur.flights ++ [f] ∧ f.id = s.tick ∧ f.op = .drain) ∧
      let u := withMat s m
      onlyRegs rs { u with tick := s.tick + 1, cur := { u.cur with flights := t.cur.flights } } t) ∧
  (∀ (i : Instr) (r : MmaRule) (s : State), collectiveRule s i = some r → r.ready s →
    ∃ t, exec i s = .next t ∧ goesTo s t (after s.cur 4) ∧ matQueued s t (r.op s)) ∧
  (∀ (o : Sw) (s : State), mayRun serialUnit s →
    ∃ t, exec (.mfence o) s = .next t ∧ goesTo s t (after s.cur 4) ∧ calmly (s.modCur fun g =>
      { g with closed := g.closed ++ [{ num := g.mbatch, ops := g.openBatch }], openBatch := [], mbatch := g.mbatch + 1 }) t) ∧
  (∀ (o : FmtB) (s : State), mayRun serialUnit s → uniformReady s [o.b.toNat] → s.cur.supervisor = false →
    let n : BitVec 8 := (s.cur.lane o.b.toNat 0).setWidth 8
    (∀ c ∈ s.cores, ∀ m ∈ c.mats, covers s.cur n m.id → m.finished = true) →
    (∀ d ∈ s.cur.due, covers s.cur n d.op → d.trapped = false ∧ d.refused = false) →
    ∃ t, exec (.mwait o) s = .next t ∧ goesTo s t (after s.cur 4) ∧
      (∀ op, covers s.cur n op → op ∉ t.cur.openBatch ∧ ∀ b ∈ t.cur.closed, op ∉ b.ops) ∧
      (∀ i, i < 5 → (t.cur.fstat.getLsbD i = true ↔
        s.cur.fstat.getLsbD i = true ∨ ∃ d ∈ s.cur.due, covers s.cur n d.op ∧ d.flags.getLsbD i = true)) ∧
      calmly { s with cur := { s.cur with
        fstat := t.cur.fstat, due := t.cur.due, openBatch := t.cur.openBatch, closed := t.cur.closed } } t)

/-- MATRIX_OP_START reads the rows of the A record from scratch, a drain's tile; MATRIX_OP_COMPLETE writes every element
that does not trap with its result, zeroes the tile of `mzero`, converts a drain's elements into its registers, its
scratch rows or memory, sends a peer-add; nothing else of the tiles changes. An element of `mma` is C plus the exact sum
of its row and column, rounded once; `mmas` forms it from three bf16 slices or six to eight signed slices (R87 to R92,
R243, R245, R246, R306, R308, R311, R312, R314, R316). Where the manual is open, the model's choices of logs 12, 41, 42,
47 hold. -/
def Obligations.ArrayWorks : Prop :=
  ∀ (s : State) (core : Nat) (m : MatOp) (k : Crew), (s.core core).mats = [m] → m.issuers = [s.cur.id] → s.cur.live = true →
    m.finished = false → m.queued = false → m.sent = false → s.peerAdds = [] →
    s.crews.find? (fun x => x.ctx == m.ctx && x.rank == m.crew) = some k → Memory.wf k.tiles = true → Memory.wf k.scratch = true →
    let w := (fmtOf m.fc).w
    (m.started = false → settled s → s.queueEntries s.cur = 0 → ∀ b e st n, m.recd = [b, e, st, n] →
      (∃ sh o, m.kind = .mma sh o) ∨ (∃ fn o, m.kind = .mmas fn o) →
      ∃ t, exec (.matrixOpStart core m.id) s = .next t ∧ calm t = calm s ∧ (∀ c, c ≠ core → t.core c = s.core c) ∧
        (t.core core).mats = [{ m with
          started := true
          aBytes := (List.range n).flatMap fun r => (List.range e).map fun i => Memory.read k.scratch (b + r * st + i) }]) ∧
    (m.started = false → settled s → s.queueEntries s.cur = 0 →
      m.kind = .drainR ∨ m.kind = .drainS ∨ m.kind = .drainG ∨ (∃ peer tile, m.kind = .drainP peer tile) →
      ∃ t, exec (.matrixOpStart core m.id) s = .next t ∧ calm t = calm s ∧ (∀ c, c ≠ core → t.core c = s.core c) ∧
        (t.core core).mats = [{ m with
          started := true, aBytes := (List.range (tileSpan w)).map fun i => Memory.read k.tiles (16384 * m.tile + i) }]) ∧
    (m.started = true → w = 32 ∨ w = 64 → (∃ sh o, m.kind = .mma sh o) ∨ (∃ fn o, m.kind = .mmas fn o) →
      ∃ t, exec (.matrixOpComplete core m.id) s = .next t ∧ (t.core core).mats = [] ∧ t.mem = s.mem ∧ t.cur.frames = s.cur.frames ∧
        (∀ n (r : FRes), (resultsOf m (tileElem k m.tile w))[n]? = some r → tileElem (t.crew m.ctx m.crew) m.tile w n =
          if r.traps m.ftrap then tileElem k m.tile w n else r.bits % 2 ^ w) ∧
        ∀ a, a < 16384 * m.tile ∨ 16384 * m.tile + tileSpan w ≤ a →
          Memory.read (t.crew m.ctx m.crew).tiles a = Memory.read k.tiles a) ∧
    (m.started = true → m.kind = .mzero →
      ∃ t, exec (.matrixOpComplete core m.id) s = .next t ∧ (t.core core).mats = [] ∧ t.mem = s.mem ∧ t.cur = s.cur ∧
        (∀ x ∈ tilesUsed w m.tile, (t.crew m.ctx m.crew).peers.getD x 0 = 0) ∧
        ∀ a, Memory.read (t.crew m.ctx m.crew).tiles a =
          if 16384 * m.tile ≤ a ∧ a < 16384 * m.tile + tileSpan w then 0 else Memory.read k.tiles a) ∧
    (m.started = true → m.kind = .drainS → ∀ b e st, m.recd = [b, e, st, 64] →
      let v := (fmtOf m.fmt).w / 8
      w = 32 ∨ w = 64 → v = 1 ∨ v = 2 ∨ v = 4 ∨ v = 8 → e = 64 * v → e ≤ st →
      ∃ t, exec (.matrixOpComplete core m.id) s = .next t ∧ (t.core core).mats = [] ∧ t.mem = s.mem ∧ t.cur.frames = s.cur.frames ∧
        (t.crew m.ctx m.crew).tiles = k.tiles ∧
        (∀ i j, i < 64 → j < 64 →
          let x := leNat ((m.aBytes.drop (w / 8 * (64 * i + j))).take (w / 8))
          let r := convertBits (fmtOf m.fc) (fmtOf m.fmt) m.same x m.rnd.toNat
          Memory.readNat (t.crew m.ctx m.crew).scratch (b + i * st + v * j) v =
            if r.traps m.ftrap then Memory.readNat k.scratch (b + i * st + v * j) v else r.bits % 256 ^ v) ∧
        ∀ a, (∀ i, i < 64 → a < b + i * st ∨ b + i * st + e ≤ a) →
          Memory.read (t.crew m.ctx m.crew).scratch a = Memory.read k.scratch a) ∧
    (∀ (v : Nat) (result : Nat → FRes), m.started = true → w = 32 ∨ w = 64 → v = (fmtOf m.fmt).w / 8 → v = 1 ∨ v = 2 ∨ v = 4 ∨ v = 8 →
      (∀ n, result n = convertBits (fmtOf m.fc) (fmtOf m.fmt) m.same (leNat ((m.aBytes.drop (w / 8 * n)).take (w / 8))) m.rnd.toNat) →
      (m.kind = .drainR → (∀ x i, (s.cur.reg x).pend = some ⟨m.id, i⟩ → i < if v = 8 then 64 else 32) →
        ∃ t, exec (.matrixOpComplete core m.id) s = .next t ∧ (t.core core).mats = [] ∧ t.mem = s.mem ∧ t.crews = s.crews ∧
          (∀ x, (∀ p, (s.cur.reg x).pend = some p → p.op ≠ m.id) → t.cur.reg x = s.cur.reg x) ∧
          ∀ x i, (s.cur.reg x).pend = some ⟨m.id, i⟩ → (t.cur.reg x).pend = none ∧ ∀ l, l < 128 →
            let r := result (128 * (if v = 8 then i / 2 else i) + l)
            t.cur.lane x l = if r.traps m.ftrap then s.cur.lane x l
              else BitVec.ofNat 32 (r.bits / 2 ^ (if v = 8 then 32 * (i % 2) else 0))) ∧
      (m.kind = .drainG → ∀ (b e st : Nat) (pa : Nat → Nat), m.recd = [b, e, st, 64] → e = 64 * v → m.ctx = s.cur.id.ctx →
        m.rowsDone = 0 → m.track = false → s.queueEntries s.cur < 32 → uncaptured s → pagesWhole s.here → Memory.wf s.mem = true →
        (∀ x ∈ s.cores, x.copies = [] ∧ ∀ y ∈ x.mats, y = m) → (∀ x ∈ s.contexts, ∀ late ∈ x.ringLate, late.1 ≤ m.id) →
        (∀ i x, i < 64 → x < e → s.here.physical (m.ibase + i * st + x) = some (pa i + x)) →
        (∀ i j, i < 64 → j < 64 → i ≠ j → pa i + e ≤ pa j ∨ pa j + e ≤ pa i) →
        ∃ t, exec (.matrixOpComplete core m.id) s = .next t ∧ (t.core core).mats = [] ∧ t.crews = s.crews ∧
          t.cur.frames = s.cur.frames ∧
          (∀ i j, i < 64 → j < 64 → Memory.readNat t.mem (pa i + v * j) v =
            if (result (64 * i + j)).traps m.ftrap then Memory.readNat s.mem (pa i + v * j) v else (result (64 * i + j)).bits % 256 ^ v) ∧
          ∀ a, (∀ i, i < 64 → a < pa i ∨ pa i + e ≤ a) → Memory.read t.mem a = Memory.read s.mem a)) ∧
    (productGood m → ∀ c : Nat → Nat, (resultsOf m c).length = 4096 ∧
      ∀ n r, (resultsOf m c)[n]? = some r → productRight m (c n) (n / 64) (n % 64) r) ∧
    (m.started = true → ∀ peer tile, m.kind = .drainP peer tile →
      ∃ t, exec (.matrixOpComplete core m.id) s = .next t ∧ (t.core core).mats = [{ m with sent := true }] ∧ calm t =
        calm { s with peerAdds := [⟨m.id, m.ctx, m.crew, false, false, 0⟩] })

/-- A peer-add whose turn it is adds every element that does not trap and passes the turn to the next rank; one whose
rank is higher is held; one whose rank is lower is refused, and its gang owes OPRANGE (R316). Where the manual is open,
the model's choices of log 46 hold. -/
def Obligations.PeerAddsApply : Prop :=
  ∀ (s : State) (k : CoreSt) (m : MatOp) (p : PeerAdd) (c : Crew) (peer tile : Nat), s.cores = [k] → k.mats = [m] →
    s.peerAdds = [p] → p.op = m.id → p.arrived = false → p.withdrawn = false → m.kind = .drainP peer tile → m.issuers = [s.cur.id] →
    s.cur.live = true → s.crewAt m.ctx peer (s.crew m.ctx m.crew).pos = some c → c.ctx ∉ (s.core c.core).saved →
    s.crews.find? (fun x => x.ctx == c.ctx && x.rank == c.rank) = some c → Memory.wf c.tiles = true → tile < c.peers.length →
    let w := (fmtOf m.fc).w
    let turn := c.peers.getD tile 0
    (m.crew = turn → w = 32 ∨ w = 64 →
      ∃ t, exec (.peerAddArrival k.ix m.id) s = .next t ∧ t.peerAdds = [] ∧ (t.core k.ix).mats = [] ∧ t.mem = s.mem ∧
        (t.crew c.ctx c.rank).peers.getD tile 0 = m.crew + 1 ∧
        ∀ n, n < 4096 →
          let own := leNat ((m.aBytes.drop (w / 8 * n)).take (w / 8))
          let old := tileElem c tile w n
          let r := if (fmtOf m.fc).isInt then quiet ((old + own) % 2 ^ 32) else faddBits (fmtOf m.fc) m.rnd.toNat old own
          tileElem (t.crew c.ctx c.rank) tile w n = if r.traps m.ftrap then old else r.bits % 2 ^ w) ∧
    (turn < m.crew → ∃ t, exec (.peerAddArrival k.ix m.id) s = .next t ∧
      t = { s with tick := s.tick + 1, peerAdds := [{ p with arrived := true, order := s.tick }] }) ∧
    (m.crew < turn → ∃ t d, exec (.peerAddArrival k.ix m.id) s = .next t ∧ t.peerAdds = [] ∧ (t.core k.ix).mats = [] ∧
      t.crews = s.crews ∧ t.mem = s.mem ∧ t.cur = { s.cur with due := s.cur.due ++ [d] } ∧ d.op = m.id ∧ d.refused = true)

/-! ## The host -/

/-- RREG, MAP_PAGE, RESUME_PART, WITHDRAW_POOL_PAGE, BOOT_STATUS, DOWNLOAD, posts and receipts of the host, kept error
messages, link flits, ports that go down, retransmission, reconnection, the resets, the supply, the ECC report, the
eviction of an L2 piece, quanta and pre-emption requests: exactly the state of their rule. A command to a device that is
cut off is answered with status 2. A write that came in from another package reaches memory once, and is then
acknowledged (R260, R288, R325, R343, R346, R356 to R369). Where the manual is open, the model's choices of logs 2, 4,
5, 6, 8, 10, 39, 50, 51, 52, 55, 58, 60, 77 hold. -/
def Obligations.EventsHappen : Prop :=
  (∀ (i : Instr) (r : EventRule) (s : State), commandRule i = some r → r.needs s → exec i s = .next (r.effect s)) ∧
  (∀ (i : Instr) (r : EventRule) (s : State), eventRule i = some r → r.needs s → exec i s = .next (r.effect s)) ∧
  (∀ (i : Instr) (s : State) (code dev : Nat), s.boot = .running → s.bridged = true → commandFor s i = some (code, dev) →
    deviceCut s dev = true ∨ packageLost s = true → exec i s = .next (reply s code 2 [])) ∧
  ∀ (s : State) (rest : List Action) (t : Transaction) (f : Flit) (fs : List Flit) (ctx ia pa : Nat) (bytes : List Byte) (c : Context),
    s.agenda = .linkApply t.own t.peer t.tseq.toNat (.write ctx ia bytes) :: rest → s.applied = [t] → t.done = false →
    t.flits = f :: fs → flitField f 24 6 = 2 → unheard s t.own = false → s.contexts.find? (fun x => x.num == ctx) = some c →
    c.dev = t.own - s.number → uncaptured s → (∀ k ∈ s.cores, k.copies = [] ∧ k.mats = []) → c.physical ia = some pa →
    bytes ≠ [] → ia % 64 + bytes.length ≤ 64 → Memory.wf s.mem = true →
    ∃ u, step s = .next u ∧ u.applied = [{ t with answer := [], done := true }] ∧ u.agenda = rest ∧ u.cur = s.cur ∧
      u.contexts = s.contexts ∧ u.ports = (routed s t.port [ackFlit f]).ports ∧
      (∀ i, i < bytes.length → Memory.read u.mem (pa + i) = bytes.getD i 0) ∧
      ∀ a, a < pa ∨ pa + bytes.length ≤ a → Memory.read u.mem a = Memory.read s.mem a

/-- CREATE_CONTEXT of a descriptor that passes every check adds the context, with the fields that its two descriptors
give it, and its crews, each with its root strand's record at its core and position; one that fails a check changes
nothing but the answer's status. DESTROY_CONTEXT leaves nothing of the context, its cores included; its pool pages,
those of its snapshots too, return zeroed (R19, R20, R30, R319 to R322, R351, R357, R359, R360). Where the manual is
open, the model's choices of logs 7, 14, 35, 48, 49 hold. -/
def Obligations.ContextsCome : Prop :=
  (∀ (s u : State) (pa : Nat) (maps : List (Nat × Dword)), pa + 480 ≤ 4 * Config.spokeBytes →
    let d := Memory.slice s.mem pa 480
    let c := contextOf s.nextCtx d
    let mode := field d 8 1
    reachable s c.dev → uncaptured s → ({ s with contexts := s.contexts ++ [c] } : State).installAll c.num maps = .ok u →
    let ready : State := { u with contexts := s.contexts }
    (∀ n, ready.examine (u.ctx c.num) d = .error n → exec (.createContext pa maps) s = .next (reply s 1 n [])) ∧
    (∀ x, ready.examine (u.ctx c.num) d = .ok x → x.crews ≤ 2 ^ 16 →
      ∃ t crews, exec (.createContext pa maps) s = .next t ∧ t.contexts = s.contexts ++ [x] ∧ t.mem = s.mem ∧
        fromDescriptor x d ∧ (Memory.wf s.mem = true → fromGrove x (groveOf u x d)) ∧ t.partition = some mode ∧
        t.nextCtx = s.nextCtx + 1 ∧ t.crews = s.crews ++ crews ∧ crews.length = x.crews ∧
        t.mgmtOut = (reply s 1 0 [word x.num, word x.errQueue]).mgmtOut ∧
        ∀ r, r < x.crews → ∃ k root, crews[r]? = some k ∧ k.ctx = x.num ∧ k.rank = r ∧
          k.core = x.dev * (1280 / mode) + r % (1280 / mode) ∧ k.pos = r / (1280 / mode) ∧ k.quota = x.roles.map Role.blocks ∧
          k.taken = some root ∧ root.entry = x.entry ∧ root.join = none ∧ root.nf = x.nf ∧ root.gf = x.gf ∧
          pedIs root.ped 2 false fun i => if i = 1 then BitVec.ofNat 16 r else 0)) ∧
  (∀ (s : State) (ctx : Nat) (c : Context), contextFor s ctx c →
    ∃ t, exec (.destroyContext ctx) s = .next t ∧ t.contexts.map Context.num = (s.contexts.map Context.num).filter (fun n => n != ctx) ∧
      (∀ k ∈ t.crews, k.ctx ≠ ctx) ∧ (∀ q ∈ t.queues, q.ctx ≠ ctx) ∧ (∀ g ∈ t.gangs, g.id.ctx ≠ ctx) ∧
      (∀ k ∈ t.cores, k.resident ≠ some ctx ∧ ctx ∉ k.saved ∧ k.preempt ≠ some ctx ∧ (∀ p ∈ k.copies, p.gang.ctx ≠ ctx) ∧
        (∀ m ∈ k.mats, m.ctx ≠ ctx) ∧ ∀ w ∈ k.wayMasks, w.1 ≠ ctx) ∧
      (∀ m ∈ c.maps, ∀ n, m.pooled = true → n ≤ 4 → m.size = pageSize n → { dev := c.dev, size := n, base := m.pa } ∈ t.pools) ∧
      (∀ k, c.capture = some k → ∀ p ∈ k.snaps, { dev := c.dev, size := 0, base := p.2 } ∈ t.pools) ∧
      t.mgmtOut = (reply s 2 0 []).mgmtOut ∧
      (s.heldHost = [] → Memory.wf s.mem = true →
        (∀ m ∈ c.maps, ∀ n, m.pooled = true → n ≤ 4 → m.size = pageSize n → zerosAt t.mem m.pa m.size) ∧
        (∀ k, c.capture = some k → ∀ p ∈ k.snaps, zerosAt t.mem p.2 4096) ∧
        (uncaptured s → (∀ m ∈ c.maps, m.pooled = true → ∃ n, n ≤ 4 ∧ m.size = pageSize n) →
          t.pools.length = s.pools.length + c.maps.countP (fun m => m.pooled) ∧
          ∀ a, (∀ m ∈ c.maps, m.pooled = true → a < m.pa ∨ m.pa + m.size ≤ a) → Memory.read t.mem a = Memory.read s.mem a)))

/-- UNMAP_PAGE withdraws the mapping that covers a page, whose pool page returns zeroed; READ_STATUS writes the
context's status, every field of it, into the buffer and nothing outside it, or answers the bytes needed; ADD_POOL_PAGES
zeroes its pages and adds them to the pool (R249, R257, R353, R357, R360). Where the manual is open, the model's choices
of logs 20, 50 hold. -/
def Obligations.PagesManaged : Prop :=
  (∀ (s : State) (ctx : Nat) (ia : Dword) (c : Context), contextFor s ctx c → uncaptured s →
    let covers (m : PageMap) : Bool := decide (m.ia ≤ ia.toNat ∧ ia.toNat < m.ia + m.size)
    (c.maps.find? covers = none → exec (.unmapPage ctx ia) s = .next (reply s 5 0 [0])) ∧
    (∀ m, c.maps.find? covers = some m → m.pooled = false →
      ∃ t, exec (.unmapPage ctx ia) s = .next t ∧ (contextNo t ctx).maps = c.maps.erase m ∧ t.mem = s.mem ∧
        t.crews = s.crews ∧ t.cur = s.cur ∧ t.mgmtOut = (reply s 5 0 [1]).mgmtOut) ∧
    (Memory.wf s.mem = true → ∀ m k, c.maps.find? covers = some m → m.pooled = true → k ≤ 4 → m.size = pageSize k →
      ∃ t, exec (.unmapPage ctx ia) s = .next t ∧ (contextNo t ctx).maps = c.maps.erase m ∧
        t.pools = s.pools ++ [{ dev := c.dev, size := k, base := m.pa }] ∧
        (∀ a, Memory.read t.mem a = if m.pa ≤ a ∧ a < m.pa + m.size then 0 else Memory.read s.mem a) ∧
        t.crews = s.crews ∧ t.cur = s.cur ∧ t.mgmtOut = (reply s 5 0 [1]).mgmtOut)) ∧
  (∀ (s : State) (ctx pa size : Nat) (c : Context), contextFor s ctx c → Memory.wf s.mem = true → size % 4096 = 0 →
    pa + size ≤ 4 * Config.spokeBytes → (∀ r ∈ c.passes, ∀ e ∈ r.cores, e.sels.length = 4 ∧ e.vals.length = 4) →
    ∃ own, ownersAre s c own ∧
    let n := 64 + (64 + 48 * own.length) * c.passes.length
    (size < n → exec (.readStatus ctx pa size) s = .next (reply s 6 9 [word n])) ∧
    (n ≤ size → ∃ t, exec (.readStatus ctx pa size) s = .next t ∧ t.mgmtOut = (reply s 6 0 [word n]).mgmtOut ∧
      statusAt t.mem pa c own ∧ (∀ a, a < pa ∨ pa + n ≤ a → Memory.read t.mem a = Memory.read s.mem a) ∧ t.contexts = s.contexts ∧ t.cur = s.cur)) ∧
  (∀ (s : State) (dev size base count : Nat), dev < s.partition.getD 8 → reachable s dev → size ≤ 4 → Memory.wf s.mem = true →
    let n := pageSize size
    base + count * n ≤ 4 * Config.spokeBytes →
    (∀ i, i < count → (base + i * n) % n = 0 ∧ physicalOk (base + i * n) n = true ∧ s.inPool (base + i * n) n = false ∧
      ∀ c ∈ s.contexts, ∀ m ∈ c.maps, m.pa + m.size ≤ base + i * n ∨ base + i * n + n ≤ m.pa) →
    ∃ t, exec (.addPoolPages dev size base count) s = .next t ∧
      t.pools = s.pools ++ (List.range count).map (fun i => { dev := dev, size := size, base := base + i * n }) ∧
      t.mgmtOut = (reply s 10 0 [word count]).mgmtOut ∧ t.contexts = s.contexts ∧
      ∀ a, Memory.read t.mem a = if base ≤ a ∧ a < base + count * n then 0 else Memory.read s.mem a)

/-- A host write or read through a context's mappings within one 64 B piece, outside a capture and with no engine
operation in the cores: status 0, the bytes written or answered; a capture of a context that maps the piece holds the
access back; a context that is not there answers status 7, one that is cut off status 2 (R349, R355, R356, R359, R364).
Where the manual is open, the model's choices of log 39 hold. -/
def Obligations.HostAccesses : Prop :=
  ∀ (s : State) (ctx ia : Nat), s.boot = .running → s.bridged = true → s.heldHost = [] →
    ((packageLost s = true ∨ ∃ c, s.contexts.find? (fun x => x.num == ctx) = some c ∧ deviceCut s c.dev = true) → ∀ bytes count,
      exec (.hostWrite ctx ia bytes) s = .next { s with hostStatus := 2, hostData := [] } ∧
        exec (.hostRead ctx ia count) s = .next { s with hostStatus := 2, hostData := [] }) ∧
    (packageLost s = false → s.contexts.find? (fun x => x.num == ctx) = none → ∀ bytes count,
      exec (.hostWrite ctx ia bytes) s = .next { s with hostStatus := 7, hostData := [] } ∧
        exec (.hostRead ctx ia count) s = .next { s with hostStatus := 7, hostData := [] }) ∧
    (∀ c pa, contextFor s ctx c → c.physical ia = some pa →
      (∃ x ∈ s.contexts, x.capture ≠ none ∧ ∃ m ∈ x.maps, m.pa ≤ pa / 64 * 64 ∧ pa / 64 * 64 < m.pa + m.size) →
      (∀ count, count ≠ 0 → ia % 64 + count ≤ 64 →
        exec (.hostRead ctx ia count) s = .next { s with heldHost := [⟨ctx, ia, false, [], count⟩] }) ∧
      ∀ bytes : List Byte, bytes ≠ [] → ia % 64 + bytes.length ≤ 64 →
        exec (.hostWrite ctx ia bytes) s = .next { s with heldHost := [⟨ctx, ia, true, bytes, 0⟩] }) ∧
    (∀ c pa, contextFor s ctx c → uncaptured s → (∀ k ∈ s.cores, k.copies = [] ∧ k.mats = []) → c.physical ia = some pa →
      (∀ count, count ≠ 0 → ia % 64 + count ≤ 64 → exec (.hostRead ctx ia count) s =
        .next { s with hostStatus := 0, hostData := (List.range count).map fun i => Memory.read s.mem (pa + i) }) ∧
      ∀ bytes : List Byte, bytes ≠ [] → ia % 64 + bytes.length ≤ 64 → Memory.wf s.mem = true →
        ∃ t, exec (.hostWrite ctx ia bytes) s = .next t ∧ t.hostStatus = 0 ∧ t.cur = s.cur ∧ t.contexts = s.contexts ∧
          (∀ i, i < bytes.length → Memory.read t.mem (pa + i) = bytes.getD i 0) ∧
          ∀ a, a < pa ∨ pa + bytes.length ≤ a → Memory.read t.mem a = Memory.read s.mem a)

/-! ## The rest of the package -/

/-- The frame allocator: ROW_GRANT serves a waiting gang whole; STALL_DECLARED gives it its request from the reserve;
ESCAPE_SPILL takes the chosen gang's frames off the core; SPILL_REENTRY brings them back with its request; JTAB_RETRY is
the `jtab` of the one fragment that waits for entries again, and changes nothing while it cannot go on (R50, R61 to
R63). For a core of one gang. Where the manual is open, the model's choices of logs 22, 25, 56, 70 hold. -/
def Obligations.FramesGranted : Prop :=
  (∀ (s : State) (r c age : Nat), loneWaiter s r c age →
    let core := (s.crewOf s.cur).core
    let k := s.core core
    let back : Ctl := { s.cur.ctl with wait := .ready }
    let given : Gang :=
      { s.cur with
        ctl := back, grantRows := s.cur.grantRows + r, grantCompact := s.cur.grantCompact + c, grantMade := true }
    (s.cur.spilled = false → s.headroom s.cur r = true → r ≤ k.pool → c ≤ k.poolC →
      ∃ t, exec (.rowGrant core) s = .next t ∧ t.cur = given ∧ (t.core core).pool + r = k.pool ∧ (t.core core).poolC + c = k.poolC ∧
        t.mem = s.mem) ∧
    (s.cur.spilled = false → s.cur.chosen = false → k.pool < r → r ≤ k.reserve → c ≤ k.reserveC →
      ∃ t, exec (.stallDeclared core) s = .next t ∧
        t.cur = { given with emergRows := s.cur.emergRows + r, emergCompact := s.cur.emergCompact + c } ∧
        (t.core core).reserve + r = k.reserve ∧ (t.core core).reserveC + c = k.reserveC ∧ t.mem = s.mem) ∧
    (s.cur.spilled = false → s.cur.chosen = true → k.pool < r → (∀ f ∈ s.cur.flights, f.finished = true) →
      s.cur.grantRows = 0 → s.cur.grantCompact = 0 → uncaptured s → pagesWhole s.here →
      ∃ t, exec (.escapeSpill core) s = .next t ∧
        t.cur = { s.cur with
          spilled := true, chosen := false, savedAt := s.tick
          emergRows := s.cur.emergRows - s.cur.heldRows, emergCompact := s.cur.emergCompact - s.cur.heldCompact } ∧
        (t.core core).pool + (t.core core).reserve = k.pool + k.reserve + s.cur.heldRows ∧
        onlyImages s t s.cur.id.ctx) ∧
    (s.cur.spilled = true → s.headroom s.cur (s.cur.frameRows + r) = true → s.cur.frameRows + r ≤ k.pool →
      s.cur.frameCompact + c ≤ k.poolC →
      ∃ t, exec (.spillReentry s.cur.id) s = .next t ∧ t.cur = { given with spilled := false, chosen := false, recvs := agedRecvs s } ∧
        (t.core core).pool + s.cur.frameRows + r = k.pool ∧ t.mem = s.mem)) ∧
  (∀ (o : FmtDAI) (s : State), s.cur.live = true → s.cur.ctl.wait = .entries → s.mayRun s.cur = true → s.cur.spilled = false →
    s.cur.away = false → s.cur.entering = none → (s.crewOf s.cur).stopped = false → waitsAlone s (fun w => w = .entries) →
    s.fetchInstr s.cur = .ok (.jtab o) →
    ∃ t, exec (.jtab o) s = .next t ∧ (t.cur.ctl.wait ≠ .entries → exec (.jtabRetry s.cur.id) s = .next t) ∧
      (t.cur.ctl.wait = .entries → exec (.jtabRetry s.cur.id) s = .next s))

/-- CONTEXT_SAVE takes a halted context off its core with every register of its gang as it was, and writes nothing but
its image; CONTEXT_RESTORE puts it back, its receives with their saved ages, and ends the pre-emption (R326, R327,
R329). For a context of one gang. Where the manual is open, the model's choices of logs 9, 58, 59, 70 hold. -/
def Obligations.ContextsSwitch : Prop :=
  ∀ (s : State) (core ctx : Nat), s.cur.live = true → s.others = [] → s.cur.id.ctx = ctx → (s.crewOf s.cur).core = core →
    notQuarantined s core → uncaptured s → pagesWhole s.here →
    ((s.core core).resident = some ctx → (s.core core).preempt ≠ none → (s.core core).copies = [] → (s.core core).mats = [] →
      (∀ f ∈ s.cur.flights, f.finished = true ∨ f.op = .recv) → (∀ i ∈ s.coresOf ctx, appliedBy s.here i = s.here.fmtLog.length) →
      ∃ t, exec (.contextSave core ctx) s = .next t ∧ (t.core core).resident = none ∧
        (t.core core).saved = (s.core core).saved ++ [ctx] ∧ onlyImages s t ctx ∧ t.cur.ctl.pc = s.cur.ctl.pc ∧
        t.cur.ctl.mask = s.cur.ctl.mask ∧
        t.cur = { s.cur with
          away := true, chosen := false, grantRows := 0, grantCompact := 0, grantMade := false, ctl := t.cur.ctl
          table := t.cur.table, savedAt := if s.cur.spilled then s.cur.savedAt else s.tick } ∧
        (s.cur.spilled = true → t.cur.ctl = s.cur.ctl ∧ t.cur.table = s.cur.table)) ∧
    ((s.core core).resident = none → ctx ∈ (s.core core).saved → (s.core core).preempt = some ctx → s.cur.away = true →
      (∀ k ∈ s.crews, k.fills = []) →
      ∃ t, exec (.contextRestore core ctx) s = .next t ∧ (t.core core).resident = some ctx ∧ (t.core core).preempt = none ∧
        (t.core core).saved = (s.core core).saved.filter (fun x => x != ctx) ∧ t.mem = s.mem ∧
        t.cur = { s.cur with away := false, recvs := if s.cur.spilled then s.cur.recvs else agedRecvs s })

/-- BLOCK_FOLD folds a suspended block whose children are complete; RESUME_TASK pushes and pops the resume record,
restores the task, whose `join` then completes: the position (j + 1, 0), the stream re-keyed, the folded views its own;
ROOT_FOLD adds the one view of a root strand to its home, element by element, and lets the next rank fold; the views of
a block fold from the left: segment 0, then each child's view and the segment after it, absent ones left out, a list one
after another up to its length (R36 to R38, R145, R154, R289, R292 to R294, R302). Where the manual is open, the model's
choices of logs 9, 68 hold. -/
def Obligations.FoldsResume : Prop :=
  (∀ (s : State) (ctx id : Nat) (c : Context) (j : JoinRec) (p : Suspended), s.contexts.find? (fun x => x.num == ctx) = some c →
    c.joinRec? id = some j → j.suspended = some p → j.unfinished = 0 → j.folded = false →
    let f := c.foldBlock p.task.segs j.finals p.task.spawned
    ∃ t k, exec (.blockFold ctx id) s = .next t ∧ (contextNo t ctx).joinRec? id = some k ∧ k.folded = true ∧ k.flags = f.2 ∧
      k.result.map (fun v => (v.id, v.elems, v.dropped)) = f.1.map (fun v => (v.id, v.elems, v.dropped)) ∧ k.finals = [] ∧
      t.mem = s.mem ∧ t.cur = s.cur ∧ t.crews = s.crews) ∧
  (∀ (s : State) (c : Context) (k : Crew) (j : JoinRec) (p : Suspended) (g : Gang), s.cur.live = true → s.others = [] →
    s.cur.id.rank = 0 → s.contexts.find? (fun x => x.num == s.cur.id.ctx) = some c →
    s.crews.find? (fun x => x.ctx == s.cur.id.ctx && x.rank == s.cur.id.crew) = some k → k.resuming.bind c.joinRec? = some j →
    j.suspended = some p → p.atDone = false → p.gangs = [g] → g.id.rank = 0 → g.frag = none → c.capture = none → j.folded = true →
    k.stopped = false → k.task = none → k.taken = none → (s.core k.core).resident = some s.cur.id.ctx → pedF g.ped = false →
    1 ≤ pedDepth g.ped → joinsOf g.ped < 63 → (∀ x ∈ c.joins, ∀ q, x.suspended = some q → q.addr % 2 ^ 57 = p.addr % 2 ^ 57 → x = j) →
    (j.result.map View.id).Nodup → s.storeUsed k.core + (j.result.map (s.bytesOf s.cur.id.ctx)).sum ≤ 65536 →
    ∃ t, exec (.resumeTask s.cur.id.ctx s.cur.id.crew) s = .next t ∧ t.cur.id = s.cur.id ∧ t.cur.frames = g.frames ∧
      t.cur.masks = g.masks ∧ t.cur.ctl.pc = g.ctl.pc ∧ t.cur.ctl.mask = g.ctl.mask ∧
      t.cur.fstat = g.fstat ||| j.flags.setWidth 32 ∧
      movedTo g.ped t.cur.ped (joinsOf g.ped + 1) 0 ∧ t.cur.rng = streamAt s t.cur.ped ∧ (t.crewOf s.cur).tiles = [] ∧
      ((t.crewOf s.cur).task.map fun x => (x.block, x.spawned, x.segs.flatMap Segment.views)) = some (none, 0, j.result) ∧
      (t.crewOf s.cur).deque = (if k.deque.length < 32 * c.size then k.deque else k.deque.drop 16) ∧
      (t.here.joinRec? j.id) = none ∧ t.mem = s.mem) ∧
  (∀ (s : State) (ctx : Nat) (c : Context) (k : Crew) (x : Task) (v : View) (r : Reducer) (pa : Nat),
    s.contexts.find? (fun y => y.num == ctx) = some c → s.crews.find? (fun y => y.ctx == ctx && y.rank == k.rank) = some k →
    k.task = some x → k.folding = true → uncaptured s → (∀ y ∈ s.cores, y.copies = [] ∧ y.mats = []) → c.folded = x.rootOf → x.finals = [v] → c.reducer? v.id = some r →
    r.kind ≠ 8 → r.fmt.w = 32 ∨ r.fmt.w = 64 → v.elems.length = r.len → r.len ≠ 0 → Memory.wf s.mem = true →
    (∀ i, i < r.homeBytes → ∃ ia, c.homeByte r i = some ia ∧ c.physical ia = some (pa + i)) →
    (∀ ia, c.homeByte r 0 = some ia → ia % 64 + r.homeBytes ≤ 64) →
    ∃ t, exec (.rootFold ctx k.rank) s = .next t ∧ (t.crew ctx k.rank).folding = false ∧ c.folded < (contextNo t ctx).folded ∧
      t.cur = s.cur ∧ (∀ a, a < pa ∨ pa + r.homeBytes ≤ a → Memory.read t.mem a = Memory.read s.mem a) ∧
      ∀ i, i < r.len → Memory.readNat t.mem (pa + r.fmt.w / 8 * i) (r.fmt.w / 8) =
        (r.combine (Memory.readNat s.mem (pa + r.fmt.w / 8 * i) (r.fmt.w / 8)) (v.elems.getD i 0)).bits % 2 ^ r.fmt.w) ∧
  (∀ (c : Context) (segs finals : List Segment) (n id : Nat) (r : Reducer), id < 64 → c.reducer? id = some r →
    let xs := (viewOf segs 0 id :: (List.range n).flatMap fun i => [viewOf finals (i + 1) id, viewOf segs (i + 1) id]).filterMap fun v => v
    let folded := (c.foldBlock segs finals n).1
    (xs = [] → ∀ v ∈ folded, v.id ≠ id) ∧
    ∀ x rest, xs = x :: rest → ∃ v ∈ folded, v.id = id ∧
      (r.kind ≠ 8 → (∀ y ∈ xs, y.elems.length = r.len) → v.elems.length = r.len ∧ ∀ i, i < r.len →
        v.elems.getD i 0 = rest.foldl (fun a y => (r.combine a (y.elems.getD i 0)).bits) (x.elems.getD i 0)) ∧
      (r.kind = 8 → (∀ y ∈ xs, y.elems.length ≤ r.len) → v.elems = (xs.flatMap View.elems).take r.len ∧
        v.elems.length + v.dropped = (xs.map fun y => y.elems.length + y.dropped).sum)) ∧
  ∀ (r : Reducer) (a b : Nat), r.fmt.p = 3 → r.fmt.w = 32 ∨ r.fmt.w = 64 → a < 2 ^ r.fmt.w → b < 2 ^ r.fmt.w →
    let value (x : Nat) : Int := if r.fmt.s then signedField r.fmt.w x else x
    let y := (r.combine a b).bits
    (r.kind = 1 → y = (a + b) % 2 ^ r.fmt.w) ∧ (r.kind = 2 → y = a * b % 2 ^ r.fmt.w) ∧
      (r.kind = 3 → value y = min (value a) (value b)) ∧ (r.kind = 4 → value y = max (value a) (value b)) ∧
      (r.kind = 5 → y = a &&& b) ∧ (r.kind = 6 → y = a ||| b) ∧ (r.kind = 7 → y = a ^^^ b)

/-- `pmctl` action 2 in a quiet context, of a crew whose task has spawned nothing sets the capture point: pass 1 of the
passes asked for, no signature yet. A page that becomes dirty in a pass has its pre-image taken to a page of the pool,
once; an empty pool makes the pass the last. CAPTURE_PASS_END adds the pass record; after the last pass it ends the
capture, returns the snapshot pages zeroed and lets every gang go on; before it, it puts the pre-images back, clears the
dirty bits, restores the crew and its gangs as spilled ones and starts the counters from 0 (R253, R260, R349 to R351,
R353, R360). Where the manual is open, the model's choices of log 53 hold. -/
def Obligations.CapturesRun : Prop :=
  (∀ (o : FmtA) (s : State) (c : Context) (k : Crew) (x : Task), mayRun serialUnit s → uniformReady s [o.a.toNat] →
    s.contexts.find? (fun y => y.num == s.cur.id.ctx) = some c →
    s.crews.find? (fun y => y.ctx == s.cur.id.ctx && y.rank == s.cur.id.crew) = some k → k.task = some x →
    uncaptured s → k.roundOpen = false → x.spawned = 0 → x.block = none →
    s.contextQuiet s.cur.id.ctx = true → (∀ g ∈ s.gangs, g.id.ctx = s.cur.id.ctx → s.queueEntries g = 0) →
    let w := (s.cur.lane o.a.toNat 0).toNat
    w < 256 → w % 16 = 2 →
    ∃ t d, exec (.pmctlCapture o) s = .next t ∧ goesTo s t (after s.cur 4) ∧ t.here.capture = some d ∧ d.crew = s.cur.id.crew ∧
      d.task = x.id ∧ d.pass = 1 ∧ d.passes = w / 16 + 1 ∧ d.sig = 0 ∧ d.aborted = false ∧ d.snaps = [] ∧
      t.here.capState = .running ∧ t.here.passes = [] ∧ t.mem = s.mem ∧ t.cur.frames = s.cur.frames ∧ t.cur.masks = s.cur.masks) ∧
  (∀ (s : State) (ctx : Nat) (c : Context) (k : Capture) (w : Crew), s.contexts.find? (fun y => y.num == ctx) = some c →
    c.capture = some k → k.ended = true → k.passes ≤ k.pass → s.endedCrew ctx k = some w →
    s.contextQuiet ctx = true → (∀ i ∈ s.coresOf ctx, (s.core i).resident = some ctx ∧ (s.core i).preempt = none) → s.heldHost = [] → Memory.wf s.mem = true →
    ∃ t r, exec (.capturePassEnd ctx) s = .next t ∧ (contextNo t ctx).capture = none ∧
      (contextNo t ctx).capState = (if k.aborted then .aborted else .complete) ∧ (contextNo t ctx).passes = c.passes ++ [r] ∧
      passRecorded k r ∧ (∀ g ∈ t.gangs, g.id.ctx = ctx → g.halted = false) ∧ t.crews = s.crews ∧
      t.pools = s.pools ++ k.snaps.map (fun p => { dev := c.dev, size := 0, base := p.2 }) ∧
      ∀ a, Memory.read t.mem a = if k.snaps.any (fun p => decide (p.2 ≤ a ∧ a < p.2 + 4096)) then 0 else Memory.read s.mem a) ∧
  (∀ (s : State) (ctx : Nat) (c : Context) (k : Capture) (w : Crew), s.contexts.find? (fun y => y.num == ctx) = some c →
    c.capture = some k → k.ended = true → k.pass < k.passes → s.endedCrew ctx k = some w →
    s.contextQuiet ctx = true → (∀ i ∈ s.coresOf ctx, (s.core i).resident = some ctx ∧ (s.core i).preempt = none) →
    Memory.wf s.mem = true → writtenBack s c → captureWhole s ctx k → snapsApart k →
    ∃ t r x, exec (.capturePassEnd ctx) s = .next t ∧ (contextNo t ctx).passes = c.passes ++ [r] ∧ passRecorded k r ∧
      (contextNo t ctx).capture = some { k with
        pass := k.pass + 1, sig := 0, ended := false, first := if k.pass = 1 then r.sig else k.first } ∧
      (∀ p ∈ k.snaps, ∀ i, i < 4096 → Memory.read t.mem (p.1 * 4096 + i) = Memory.read s.mem (p.2 + i)) ∧
      (∀ a, (∀ p ∈ k.snaps, a / 4096 ≠ p.1) → Memory.read t.mem a = Memory.read s.mem a) ∧ t.pools = s.pools ∧
      (∀ p, p ∈ t.dirty ↔ p ∈ s.dirty ∧ ∀ m ∈ c.maps, p * 4096 < m.pa ∨ m.pa + m.size ≤ p * 4096) ∧
      t.crews.find? (fun y => y.ctx == ctx && y.rank == k.crew) = some x ∧ x.task = k.crewAt.task ∧ x.scratch = k.crewAt.scratch ∧
      x.tiles = k.crewAt.tiles ∧ x.deque = (s.crew ctx k.crew).deque ∧
      (∀ g ∈ k.gangsAt, t.gang? g.id = some g.fromImage) ∧
      ∀ i, c.dev * s.devCores ≤ i → i < (c.dev + 1) * s.devCores → (t.core i).ctrVal = List.replicate 4 0 ∧ (t.core i).ctrRun = true) ∧
  (∀ (s : State) (ctx : Nat) (c : Context) (k : Capture) (q : L2Piece), s.contexts.find? (fun y => y.num == ctx) = some c →
    c.capture = some k → (∀ x ∈ s.contexts, x.capture ≠ none → x = c) → s.msc.length < 2 ^ 21 → Memory.wf s.mem = true →
    Memory.wf s.side = true → s.l2.find? (fun y => y.dev == q.dev && y.ctx == q.ctx && y.piece == q.piece) = some q → q.modified = true →
    let page := q.pa / 4096
    (∃ m ∈ c.maps, m.pa ≤ page * 4096 ∧ page * 4096 < m.pa + m.size) →
    ∃ t, exec (.l2Eviction q.dev q.ctx q.piece) s = .next t ∧ page ∈ t.dirty ∧
      (∀ i, i < 64 → Memory.read t.side (q.pa / 64 * 64 + i) = Memory.read t.mem (q.pa / 64 * 64 + i)) ∧
      (page ∈ s.dirty ∨ k.snapFull = true ∨ (∃ p ∈ k.snaps, p.1 = page) →
        (contextNo t ctx).capture = some k ∧ t.mem = s.mem ∧ t.pools = s.pools) ∧
      (page ∉ s.dirty → k.snapFull = false → (∀ p ∈ k.snaps, p.1 ≠ page) →
        (poolPage s c.dev 0 = none → t.mem = s.mem ∧
          (contextNo t ctx).capture = some { k with snapFull := true, passes := k.pass }) ∧
        ∀ p, poolPage s c.dev 0 = some p → t.pools = s.pools.erase p ∧
          (contextNo t ctx).capture = some { k with snaps := k.snaps ++ [(page, p.base)] } ∧
          (∀ i, i < 4096 → Memory.read t.mem (p.base + i) = Memory.read s.side (page * 4096 + i)) ∧
          ∀ a, a < p.base ∨ p.base + 4096 ≤ a → Memory.read t.mem a = Memory.read s.mem a))

/-! ## The whole machine -/

/-- Right after power-up the boot ROM runs, there is no context, crew or gang, no core has taken a row from its pool,
and memory is in canonical form (R59, R365, R366). Where the manual is open, the model's choices of logs 2, 5 hold. -/
def Obligations.ResetState : Prop :=
  State.reset.boot = .rom ∧ State.reset.contexts = [] ∧ State.reset.crews = [] ∧ State.reset.gangs = [] ∧
    (∀ n, (State.reset.core n).pool = 992 ∧ (State.reset.core n).reserve = 32 ∧ (State.reset.core n).poolC = 28672 ∧
      (State.reset.core n).reserveC = 4096 ∧ (State.reset.core n).ctrRun = false) ∧ memoryOk State.reset = true

/-- Every step keeps every store of bytes in canonical form, whatever unit or event it is: physical memory, what the
memory-side caches and HBM4 hold, the scratch and the tiles of each crew (R230, R239, R260, R307). Where the manual is
open, the model's choices of log 2 hold. -/
def Obligations.StepKeepsMemory : Prop :=
  ∀ (s t : State), memoryOk s = true → step s = .next t → memoryOk t = true
end

