-- ==== Sys2Proof/Laws/State.lean ====
section
/-! SUPPORT. One lemma per field for each update of the state, true by computation: no later proof unfolds a record update. -/
namespace Sys2Proof.Machine

@[simp] theorem State.modCur_cur (s : State) (f : Gang → Gang) : (s.modCur f).cur = f s.cur := rfl
@[simp] theorem State.modCur_others (s : State) (f : Gang → Gang) : (s.modCur f).others = s.others := rfl
@[simp] theorem State.modCur_crews (s : State) (f : Gang → Gang) : (s.modCur f).crews = s.crews := rfl
@[simp] theorem State.modCur_cores (s : State) (f : Gang → Gang) : (s.modCur f).cores = s.cores := rfl
@[simp] theorem State.modCur_contexts (s : State) (f : Gang → Gang) : (s.modCur f).contexts = s.contexts := rfl
@[simp] theorem State.modCur_queues (s : State) (f : Gang → Gang) : (s.modCur f).queues = s.queues := rfl
@[simp] theorem State.modCur_peerAdds (s : State) (f : Gang → Gang) : (s.modCur f).peerAdds = s.peerAdds := rfl
@[simp] theorem State.modCur_mem (s : State) (f : Gang → Gang) : (s.modCur f).mem = s.mem := rfl
@[simp] theorem State.modCur_side (s : State) (f : Gang → Gang) : (s.modCur f).side = s.side := rfl
@[simp] theorem State.modCur_hbm (s : State) (f : Gang → Gang) : (s.modCur f).hbm = s.hbm := rfl
@[simp] theorem State.modCur_l1 (s : State) (f : Gang → Gang) : (s.modCur f).l1 = s.l1 := rfl
@[simp] theorem State.modCur_l2 (s : State) (f : Gang → Gang) : (s.modCur f).l2 = s.l2 := rfl
@[simp] theorem State.modCur_msc (s : State) (f : Gang → Gang) : (s.modCur f).msc = s.msc := rfl
@[simp] theorem State.modCur_dirty (s : State) (f : Gang → Gang) : (s.modCur f).dirty = s.dirty := rfl
@[simp] theorem State.modCur_peers (s : State) (f : Gang → Gang) : (s.modCur f).peers = s.peers := rfl
@[simp] theorem State.modCur_readers (s : State) (f : Gang → Gang) : (s.modCur f).readers = s.readers := rfl
@[simp] theorem State.modCur_fetches (s : State) (f : Gang → Gang) : (s.modCur f).fetches = s.fetches := rfl
@[simp] theorem State.modCur_floors (s : State) (f : Gang → Gang) : (s.modCur f).floors = s.floors := rfl
@[simp] theorem State.modCur_owl (s : State) (f : Gang → Gang) : (s.modCur f).owl = s.owl := rfl
@[simp] theorem State.modCur_slices (s : State) (f : Gang → Gang) : (s.modCur f).slices = s.slices := rfl
@[simp] theorem State.modCur_partition (s : State) (f : Gang → Gang) : (s.modCur f).partition = s.partition := rfl
@[simp] theorem State.modCur_pools (s : State) (f : Gang → Gang) : (s.modCur f).pools = s.pools := rfl
@[simp] theorem State.modCur_quarantined (s : State) (f : Gang → Gang) : (s.modCur f).quarantined = s.quarantined := rfl
@[simp] theorem State.modCur_mgmtOut (s : State) (f : Gang → Gang) : (s.modCur f).mgmtOut = s.mgmtOut := rfl
@[simp] theorem State.modCur_hostInbox (s : State) (f : Gang → Gang) : (s.modCur f).hostInbox = s.hostInbox := rfl
@[simp] theorem State.modCur_hostStatus (s : State) (f : Gang → Gang) : (s.modCur f).hostStatus = s.hostStatus := rfl
@[simp] theorem State.modCur_hostData (s : State) (f : Gang → Gang) : (s.modCur f).hostData = s.hostData := rfl
@[simp] theorem State.modCur_heldHost (s : State) (f : Gang → Gang) : (s.modCur f).heldHost = s.heldHost := rfl
@[simp] theorem State.modCur_boot (s : State) (f : Gang → Gang) : (s.modCur f).boot = s.boot := rfl
@[simp] theorem State.modCur_version (s : State) (f : Gang → Gang) : (s.modCur f).version = s.version := rfl
@[simp] theorem State.modCur_image (s : State) (f : Gang → Gang) : (s.modCur f).image = s.image := rfl
@[simp] theorem State.modCur_stretched (s : State) (f : Gang → Gang) : (s.modCur f).stretched = s.stretched := rfl
@[simp] theorem State.modCur_ecc (s : State) (f : Gang → Gang) : (s.modCur f).ecc = s.ecc := rfl
@[simp] theorem State.modCur_number (s : State) (f : Gang → Gang) : (s.modCur f).number = s.number := rfl
@[simp] theorem State.modCur_hostPort (s : State) (f : Gang → Gang) : (s.modCur f).hostPort = s.hostPort := rfl
@[simp] theorem State.modCur_bridged (s : State) (f : Gang → Gang) : (s.modCur f).bridged = s.bridged := rfl
@[simp] theorem State.modCur_ports (s : State) (f : Gang → Gang) : (s.modCur f).ports = s.ports := rfl
@[simp] theorem State.modCur_tseqs (s : State) (f : Gang → Gang) : (s.modCur f).tseqs = s.tseqs := rfl
@[simp] theorem State.modCur_sent (s : State) (f : Gang → Gang) : (s.modCur f).sent = s.sent := rfl
@[simp] theorem State.modCur_applied (s : State) (f : Gang → Gang) : (s.modCur f).applied = s.applied := rfl
@[simp] theorem State.modCur_discarded (s : State) (f : Gang → Gang) : (s.modCur f).discarded = s.discarded := rfl
@[simp] theorem State.modCur_nextCtx (s : State) (f : Gang → Gang) : (s.modCur f).nextCtx = s.nextCtx := rfl
@[simp] theorem State.modCur_tick (s : State) (f : Gang → Gang) : (s.modCur f).tick = s.tick := rfl
@[simp] theorem State.modCur_freeIx (s : State) (f : Gang → Gang) : (s.modCur f).freeIx = s.freeIx := rfl
@[simp] theorem State.modCur_streak (s : State) (f : Gang → Gang) : (s.modCur f).streak = s.streak := rfl
@[simp] theorem State.modCur_agenda (s : State) (f : Gang → Gang) : (s.modCur f).agenda = s.agenda := rfl
@[simp] theorem State.setCrew_cur (s : State) (c : Crew) : (s.setCrew c).cur = s.cur := rfl
@[simp] theorem State.setCrew_others (s : State) (c : Crew) : (s.setCrew c).others = s.others := rfl
@[simp] theorem State.setCrew_crews (s : State) (c : Crew) : (s.setCrew c).crews = updateFirst (fun d => d.ctx == c.ctx && d.rank == c.rank) (fun _ => c) s.crews := rfl
@[simp] theorem State.setCrew_cores (s : State) (c : Crew) : (s.setCrew c).cores = s.cores := rfl
@[simp] theorem State.setCrew_contexts (s : State) (c : Crew) : (s.setCrew c).contexts = s.contexts := rfl
@[simp] theorem State.setCrew_queues (s : State) (c : Crew) : (s.setCrew c).queues = s.queues := rfl
@[simp] theorem State.setCrew_peerAdds (s : State) (c : Crew) : (s.setCrew c).peerAdds = s.peerAdds := rfl
@[simp] theorem State.setCrew_mem (s : State) (c : Crew) : (s.setCrew c).mem = s.mem := rfl
@[simp] theorem State.setCrew_side (s : State) (c : Crew) : (s.setCrew c).side = s.side := rfl
@[simp] theorem State.setCrew_hbm (s : State) (c : Crew) : (s.setCrew c).hbm = s.hbm := rfl
@[simp] theorem State.setCrew_l1 (s : State) (c : Crew) : (s.setCrew c).l1 = s.l1 := rfl
@[simp] theorem State.setCrew_l2 (s : State) (c : Crew) : (s.setCrew c).l2 = s.l2 := rfl
@[simp] theorem State.setCrew_msc (s : State) (c : Crew) : (s.setCrew c).msc = s.msc := rfl
@[simp] theorem State.setCrew_dirty (s : State) (c : Crew) : (s.setCrew c).dirty = s.dirty := rfl
@[simp] theorem State.setCrew_peers (s : State) (c : Crew) : (s.setCrew c).peers = s.peers := rfl
@[simp] theorem State.setCrew_readers (s : State) (c : Crew) : (s.setCrew c).readers = s.readers := rfl
@[simp] theorem State.setCrew_fetches (s : State) (c : Crew) : (s.setCrew c).fetches = s.fetches := rfl
@[simp] theorem State.setCrew_floors (s : State) (c : Crew) : (s.setCrew c).floors = s.floors := rfl
@[simp] theorem State.setCrew_owl (s : State) (c : Crew) : (s.setCrew c).owl = s.owl := rfl
@[simp] theorem State.setCrew_slices (s : State) (c : Crew) : (s.setCrew c).slices = s.slices := rfl
@[simp] theorem State.setCrew_partition (s : State) (c : Crew) : (s.setCrew c).partition = s.partition := rfl
@[simp] theorem State.setCrew_pools (s : State) (c : Crew) : (s.setCrew c).pools = s.pools := rfl
@[simp] theorem State.setCrew_quarantined (s : State) (c : Crew) : (s.setCrew c).quarantined = s.quarantined := rfl
@[simp] theorem State.setCrew_mgmtOut (s : State) (c : Crew) : (s.setCrew c).mgmtOut = s.mgmtOut := rfl
@[simp] theorem State.setCrew_hostInbox (s : State) (c : Crew) : (s.setCrew c).hostInbox = s.hostInbox := rfl
@[simp] theorem State.setCrew_hostStatus (s : State) (c : Crew) : (s.setCrew c).hostStatus = s.hostStatus := rfl
@[simp] theorem State.setCrew_hostData (s : State) (c : Crew) : (s.setCrew c).hostData = s.hostData := rfl
@[simp] theorem State.setCrew_heldHost (s : State) (c : Crew) : (s.setCrew c).heldHost = s.heldHost := rfl
@[simp] theorem State.setCrew_boot (s : State) (c : Crew) : (s.setCrew c).boot = s.boot := rfl
@[simp] theorem State.setCrew_version (s : State) (c : Crew) : (s.setCrew c).version = s.version := rfl
@[simp] theorem State.setCrew_image (s : State) (c : Crew) : (s.setCrew c).image = s.image := rfl
@[simp] theorem State.setCrew_stretched (s : State) (c : Crew) : (s.setCrew c).stretched = s.stretched := rfl
@[simp] theorem State.setCrew_ecc (s : State) (c : Crew) : (s.setCrew c).ecc = s.ecc := rfl
@[simp] theorem State.setCrew_number (s : State) (c : Crew) : (s.setCrew c).number = s.number := rfl
@[simp] theorem State.setCrew_hostPort (s : State) (c : Crew) : (s.setCrew c).hostPort = s.hostPort := rfl
@[simp] theorem State.setCrew_bridged (s : State) (c : Crew) : (s.setCrew c).bridged = s.bridged := rfl
@[simp] theorem State.setCrew_ports (s : State) (c : Crew) : (s.setCrew c).ports = s.ports := rfl
@[simp] theorem State.setCrew_tseqs (s : State) (c : Crew) : (s.setCrew c).tseqs = s.tseqs := rfl
@[simp] theorem State.setCrew_sent (s : State) (c : Crew) : (s.setCrew c).sent = s.sent := rfl
@[simp] theorem State.setCrew_applied (s : State) (c : Crew) : (s.setCrew c).applied = s.applied := rfl
@[simp] theorem State.setCrew_discarded (s : State) (c : Crew) : (s.setCrew c).discarded = s.discarded := rfl
@[simp] theorem State.setCrew_nextCtx (s : State) (c : Crew) : (s.setCrew c).nextCtx = s.nextCtx := rfl
@[simp] theorem State.setCrew_tick (s : State) (c : Crew) : (s.setCrew c).tick = s.tick := rfl
@[simp] theorem State.setCrew_freeIx (s : State) (c : Crew) : (s.setCrew c).freeIx = s.freeIx := rfl
@[simp] theorem State.setCrew_streak (s : State) (c : Crew) : (s.setCrew c).streak = s.streak := rfl
@[simp] theorem State.setCrew_agenda (s : State) (c : Crew) : (s.setCrew c).agenda = s.agenda := rfl
@[simp] theorem State.setCtx_cur (s : State) (c : Context) : (s.setCtx c).cur = s.cur := rfl
@[simp] theorem State.setCtx_others (s : State) (c : Context) : (s.setCtx c).others = s.others := rfl
@[simp] theorem State.setCtx_crews (s : State) (c : Context) : (s.setCtx c).crews = s.crews := rfl
@[simp] theorem State.setCtx_cores (s : State) (c : Context) : (s.setCtx c).cores = s.cores := rfl
@[simp] theorem State.setCtx_contexts (s : State) (c : Context) : (s.setCtx c).contexts = updateFirst (fun d => d.num == c.num) (fun _ => c) s.contexts := rfl
@[simp] theorem State.setCtx_queues (s : State) (c : Context) : (s.setCtx c).queues = s.queues := rfl
@[simp] theorem State.setCtx_peerAdds (s : State) (c : Context) : (s.setCtx c).peerAdds = s.peerAdds := rfl
@[simp] theorem State.setCtx_mem (s : State) (c : Context) : (s.setCtx c).mem = s.mem := rfl
@[simp] theorem State.setCtx_side (s : State) (c : Context) : (s.setCtx c).side = s.side := rfl
@[simp] theorem State.setCtx_hbm (s : State) (c : Context) : (s.setCtx c).hbm = s.hbm := rfl
@[simp] theorem State.setCtx_l1 (s : State) (c : Context) : (s.setCtx c).l1 = s.l1 := rfl
@[simp] theorem State.setCtx_l2 (s : State) (c : Context) : (s.setCtx c).l2 = s.l2 := rfl
@[simp] theorem State.setCtx_msc (s : State) (c : Context) : (s.setCtx c).msc = s.msc := rfl
@[simp] theorem State.setCtx_dirty (s : State) (c : Context) : (s.setCtx c).dirty = s.dirty := rfl
@[simp] theorem State.setCtx_peers (s : State) (c : Context) : (s.setCtx c).peers = s.peers := rfl
@[simp] theorem State.setCtx_readers (s : State) (c : Context) : (s.setCtx c).readers = s.readers := rfl
@[simp] theorem State.setCtx_fetches (s : State) (c : Context) : (s.setCtx c).fetches = s.fetches := rfl
@[simp] theorem State.setCtx_floors (s : State) (c : Context) : (s.setCtx c).floors = s.floors := rfl
@[simp] theorem State.setCtx_owl (s : State) (c : Context) : (s.setCtx c).owl = s.owl := rfl
@[simp] theorem State.setCtx_slices (s : State) (c : Context) : (s.setCtx c).slices = s.slices := rfl
@[simp] theorem State.setCtx_partition (s : State) (c : Context) : (s.setCtx c).partition = s.partition := rfl
@[simp] theorem State.setCtx_pools (s : State) (c : Context) : (s.setCtx c).pools = s.pools := rfl
@[simp] theorem State.setCtx_quarantined (s : State) (c : Context) : (s.setCtx c).quarantined = s.quarantined := rfl
@[simp] theorem State.setCtx_mgmtOut (s : State) (c : Context) : (s.setCtx c).mgmtOut = s.mgmtOut := rfl
@[simp] theorem State.setCtx_hostInbox (s : State) (c : Context) : (s.setCtx c).hostInbox = s.hostInbox := rfl
@[simp] theorem State.setCtx_hostStatus (s : State) (c : Context) : (s.setCtx c).hostStatus = s.hostStatus := rfl
@[simp] theorem State.setCtx_hostData (s : State) (c : Context) : (s.setCtx c).hostData = s.hostData := rfl
@[simp] theorem State.setCtx_heldHost (s : State) (c : Context) : (s.setCtx c).heldHost = s.heldHost := rfl
@[simp] theorem State.setCtx_boot (s : State) (c : Context) : (s.setCtx c).boot = s.boot := rfl
@[simp] theorem State.setCtx_version (s : State) (c : Context) : (s.setCtx c).version = s.version := rfl
@[simp] theorem State.setCtx_image (s : State) (c : Context) : (s.setCtx c).image = s.image := rfl
@[simp] theorem State.setCtx_stretched (s : State) (c : Context) : (s.setCtx c).stretched = s.stretched := rfl
@[simp] theorem State.setCtx_ecc (s : State) (c : Context) : (s.setCtx c).ecc = s.ecc := rfl
@[simp] theorem State.setCtx_number (s : State) (c : Context) : (s.setCtx c).number = s.number := rfl
@[simp] theorem State.setCtx_hostPort (s : State) (c : Context) : (s.setCtx c).hostPort = s.hostPort := rfl
@[simp] theorem State.setCtx_bridged (s : State) (c : Context) : (s.setCtx c).bridged = s.bridged := rfl
@[simp] theorem State.setCtx_ports (s : State) (c : Context) : (s.setCtx c).ports = s.ports := rfl
@[simp] theorem State.setCtx_tseqs (s : State) (c : Context) : (s.setCtx c).tseqs = s.tseqs := rfl
@[simp] theorem State.setCtx_sent (s : State) (c : Context) : (s.setCtx c).sent = s.sent := rfl
@[simp] theorem State.setCtx_applied (s : State) (c : Context) : (s.setCtx c).applied = s.applied := rfl
@[simp] theorem State.setCtx_discarded (s : State) (c : Context) : (s.setCtx c).discarded = s.discarded := rfl
@[simp] theorem State.setCtx_nextCtx (s : State) (c : Context) : (s.setCtx c).nextCtx = s.nextCtx := rfl
@[simp] theorem State.setCtx_tick (s : State) (c : Context) : (s.setCtx c).tick = s.tick := rfl
@[simp] theorem State.setCtx_freeIx (s : State) (c : Context) : (s.setCtx c).freeIx = s.freeIx := rfl
@[simp] theorem State.setCtx_streak (s : State) (c : Context) : (s.setCtx c).streak = s.streak := rfl
@[simp] theorem State.setCtx_agenda (s : State) (c : Context) : (s.setCtx c).agenda = s.agenda := rfl
@[simp] theorem State.setQueue_cur (s : State) (q : Queue) : (s.setQueue q).cur = s.cur := rfl
@[simp] theorem State.setQueue_others (s : State) (q : Queue) : (s.setQueue q).others = s.others := rfl
@[simp] theorem State.setQueue_crews (s : State) (q : Queue) : (s.setQueue q).crews = s.crews := rfl
@[simp] theorem State.setQueue_cores (s : State) (q : Queue) : (s.setQueue q).cores = s.cores := rfl
@[simp] theorem State.setQueue_contexts (s : State) (q : Queue) : (s.setQueue q).contexts = s.contexts := rfl
@[simp] theorem State.setQueue_queues (s : State) (q : Queue) : (s.setQueue q).queues = updateFirst (fun p => p.dev == q.dev && p.ix == q.ix) (fun _ => q) s.queues := rfl
@[simp] theorem State.setQueue_peerAdds (s : State) (q : Queue) : (s.setQueue q).peerAdds = s.peerAdds := rfl
@[simp] theorem State.setQueue_mem (s : State) (q : Queue) : (s.setQueue q).mem = s.mem := rfl
@[simp] theorem State.setQueue_side (s : State) (q : Queue) : (s.setQueue q).side = s.side := rfl
@[simp] theorem State.setQueue_hbm (s : State) (q : Queue) : (s.setQueue q).hbm = s.hbm := rfl
@[simp] theorem State.setQueue_l1 (s : State) (q : Queue) : (s.setQueue q).l1 = s.l1 := rfl
@[simp] theorem State.setQueue_l2 (s : State) (q : Queue) : (s.setQueue q).l2 = s.l2 := rfl
@[simp] theorem State.setQueue_msc (s : State) (q : Queue) : (s.setQueue q).msc = s.msc := rfl
@[simp] theorem State.setQueue_dirty (s : State) (q : Queue) : (s.setQueue q).dirty = s.dirty := rfl
@[simp] theorem State.setQueue_peers (s : State) (q : Queue) : (s.setQueue q).peers = s.peers := rfl
@[simp] theorem State.setQueue_readers (s : State) (q : Queue) : (s.setQueue q).readers = s.readers := rfl
@[simp] theorem State.setQueue_fetches (s : State) (q : Queue) : (s.setQueue q).fetches = s.fetches := rfl
@[simp] theorem State.setQueue_floors (s : State) (q : Queue) : (s.setQueue q).floors = s.floors := rfl
@[simp] theorem State.setQueue_owl (s : State) (q : Queue) : (s.setQueue q).owl = s.owl := rfl
@[simp] theorem State.setQueue_slices (s : State) (q : Queue) : (s.setQueue q).slices = s.slices := rfl
@[simp] theorem State.setQueue_partition (s : State) (q : Queue) : (s.setQueue q).partition = s.partition := rfl
@[simp] theorem State.setQueue_pools (s : State) (q : Queue) : (s.setQueue q).pools = s.pools := rfl
@[simp] theorem State.setQueue_quarantined (s : State) (q : Queue) : (s.setQueue q).quarantined = s.quarantined := rfl
@[simp] theorem State.setQueue_mgmtOut (s : State) (q : Queue) : (s.setQueue q).mgmtOut = s.mgmtOut := rfl
@[simp] theorem State.setQueue_hostInbox (s : State) (q : Queue) : (s.setQueue q).hostInbox = s.hostInbox := rfl
@[simp] theorem State.setQueue_hostStatus (s : State) (q : Queue) : (s.setQueue q).hostStatus = s.hostStatus := rfl
@[simp] theorem State.setQueue_hostData (s : State) (q : Queue) : (s.setQueue q).hostData = s.hostData := rfl
@[simp] theorem State.setQueue_heldHost (s : State) (q : Queue) : (s.setQueue q).heldHost = s.heldHost := rfl
@[simp] theorem State.setQueue_boot (s : State) (q : Queue) : (s.setQueue q).boot = s.boot := rfl
@[simp] theorem State.setQueue_version (s : State) (q : Queue) : (s.setQueue q).version = s.version := rfl
@[simp] theorem State.setQueue_image (s : State) (q : Queue) : (s.setQueue q).image = s.image := rfl
@[simp] theorem State.setQueue_stretched (s : State) (q : Queue) : (s.setQueue q).stretched = s.stretched := rfl
@[simp] theorem State.setQueue_ecc (s : State) (q : Queue) : (s.setQueue q).ecc = s.ecc := rfl
@[simp] theorem State.setQueue_number (s : State) (q : Queue) : (s.setQueue q).number = s.number := rfl
@[simp] theorem State.setQueue_hostPort (s : State) (q : Queue) : (s.setQueue q).hostPort = s.hostPort := rfl
@[simp] theorem State.setQueue_bridged (s : State) (q : Queue) : (s.setQueue q).bridged = s.bridged := rfl
@[simp] theorem State.setQueue_ports (s : State) (q : Queue) : (s.setQueue q).ports = s.ports := rfl
@[simp] theorem State.setQueue_tseqs (s : State) (q : Queue) : (s.setQueue q).tseqs = s.tseqs := rfl
@[simp] theorem State.setQueue_sent (s : State) (q : Queue) : (s.setQueue q).sent = s.sent := rfl
@[simp] theorem State.setQueue_applied (s : State) (q : Queue) : (s.setQueue q).applied = s.applied := rfl
@[simp] theorem State.setQueue_discarded (s : State) (q : Queue) : (s.setQueue q).discarded = s.discarded := rfl
@[simp] theorem State.setQueue_nextCtx (s : State) (q : Queue) : (s.setQueue q).nextCtx = s.nextCtx := rfl
@[simp] theorem State.setQueue_tick (s : State) (q : Queue) : (s.setQueue q).tick = s.tick := rfl
@[simp] theorem State.setQueue_freeIx (s : State) (q : Queue) : (s.setQueue q).freeIx = s.freeIx := rfl
@[simp] theorem State.setQueue_streak (s : State) (q : Queue) : (s.setQueue q).streak = s.streak := rfl
@[simp] theorem State.setQueue_agenda (s : State) (q : Queue) : (s.setQueue q).agenda = s.agenda := rfl
@[simp] theorem State.ticked_cur (s : State) : (s.ticked).cur = s.cur := rfl
@[simp] theorem State.ticked_others (s : State) : (s.ticked).others = s.others := rfl
@[simp] theorem State.ticked_crews (s : State) : (s.ticked).crews = s.crews := rfl
@[simp] theorem State.ticked_cores (s : State) : (s.ticked).cores = s.cores := rfl
@[simp] theorem State.ticked_contexts (s : State) : (s.ticked).contexts = s.contexts := rfl
@[simp] theorem State.ticked_queues (s : State) : (s.ticked).queues = s.queues := rfl
@[simp] theorem State.ticked_peerAdds (s : State) : (s.ticked).peerAdds = s.peerAdds := rfl
@[simp] theorem State.ticked_mem (s : State) : (s.ticked).mem = s.mem := rfl
@[simp] theorem State.ticked_side (s : State) : (s.ticked).side = s.side := rfl
@[simp] theorem State.ticked_hbm (s : State) : (s.ticked).hbm = s.hbm := rfl
@[simp] theorem State.ticked_l1 (s : State) : (s.ticked).l1 = s.l1 := rfl
@[simp] theorem State.ticked_l2 (s : State) : (s.ticked).l2 = s.l2 := rfl
@[simp] theorem State.ticked_msc (s : State) : (s.ticked).msc = s.msc := rfl
@[simp] theorem State.ticked_dirty (s : State) : (s.ticked).dirty = s.dirty := rfl
@[simp] theorem State.ticked_peers (s : State) : (s.ticked).peers = s.peers := rfl
@[simp] theorem State.ticked_readers (s : State) : (s.ticked).readers = s.readers := rfl
@[simp] theorem State.ticked_fetches (s : State) : (s.ticked).fetches = s.fetches := rfl
@[simp] theorem State.ticked_floors (s : State) : (s.ticked).floors = s.floors := rfl
@[simp] theorem State.ticked_owl (s : State) : (s.ticked).owl = s.owl := rfl
@[simp] theorem State.ticked_slices (s : State) : (s.ticked).slices = s.slices := rfl
@[simp] theorem State.ticked_partition (s : State) : (s.ticked).partition = s.partition := rfl
@[simp] theorem State.ticked_pools (s : State) : (s.ticked).pools = s.pools := rfl
@[simp] theorem State.ticked_quarantined (s : State) : (s.ticked).quarantined = s.quarantined := rfl
@[simp] theorem State.ticked_mgmtOut (s : State) : (s.ticked).mgmtOut = s.mgmtOut := rfl
@[simp] theorem State.ticked_hostInbox (s : State) : (s.ticked).hostInbox = s.hostInbox := rfl
@[simp] theorem State.ticked_hostStatus (s : State) : (s.ticked).hostStatus = s.hostStatus := rfl
@[simp] theorem State.ticked_hostData (s : State) : (s.ticked).hostData = s.hostData := rfl
@[simp] theorem State.ticked_heldHost (s : State) : (s.ticked).heldHost = s.heldHost := rfl
@[simp] theorem State.ticked_boot (s : State) : (s.ticked).boot = s.boot := rfl
@[simp] theorem State.ticked_version (s : State) : (s.ticked).version = s.version := rfl
@[simp] theorem State.ticked_image (s : State) : (s.ticked).image = s.image := rfl
@[simp] theorem State.ticked_stretched (s : State) : (s.ticked).stretched = s.stretched := rfl
@[simp] theorem State.ticked_ecc (s : State) : (s.ticked).ecc = s.ecc := rfl
@[simp] theorem State.ticked_number (s : State) : (s.ticked).number = s.number := rfl
@[simp] theorem State.ticked_hostPort (s : State) : (s.ticked).hostPort = s.hostPort := rfl
@[simp] theorem State.ticked_bridged (s : State) : (s.ticked).bridged = s.bridged := rfl
@[simp] theorem State.ticked_ports (s : State) : (s.ticked).ports = s.ports := rfl
@[simp] theorem State.ticked_tseqs (s : State) : (s.ticked).tseqs = s.tseqs := rfl
@[simp] theorem State.ticked_sent (s : State) : (s.ticked).sent = s.sent := rfl
@[simp] theorem State.ticked_applied (s : State) : (s.ticked).applied = s.applied := rfl
@[simp] theorem State.ticked_discarded (s : State) : (s.ticked).discarded = s.discarded := rfl
@[simp] theorem State.ticked_nextCtx (s : State) : (s.ticked).nextCtx = s.nextCtx := rfl
@[simp] theorem State.ticked_tick (s : State) : (s.ticked).tick = s.tick + 1 := rfl
@[simp] theorem State.ticked_freeIx (s : State) : (s.ticked).freeIx = s.freeIx := rfl
@[simp] theorem State.ticked_streak (s : State) : (s.ticked).streak = s.streak := rfl
@[simp] theorem State.ticked_agenda (s : State) : (s.ticked).agenda = s.agenda := rfl
@[simp] theorem State.drawn_cur (s : State) : (s.drawn).cur = s.cur := rfl
@[simp] theorem State.drawn_others (s : State) : (s.drawn).others = s.others := rfl
@[simp] theorem State.drawn_crews (s : State) : (s.drawn).crews = s.crews := rfl
@[simp] theorem State.drawn_cores (s : State) : (s.drawn).cores = s.cores := rfl
@[simp] theorem State.drawn_contexts (s : State) : (s.drawn).contexts = s.contexts := rfl
@[simp] theorem State.drawn_queues (s : State) : (s.drawn).queues = s.queues := rfl
@[simp] theorem State.drawn_peerAdds (s : State) : (s.drawn).peerAdds = s.peerAdds := rfl
@[simp] theorem State.drawn_mem (s : State) : (s.drawn).mem = s.mem := rfl
@[simp] theorem State.drawn_side (s : State) : (s.drawn).side = s.side := rfl
@[simp] theorem State.drawn_hbm (s : State) : (s.drawn).hbm = s.hbm := rfl
@[simp] theorem State.drawn_l1 (s : State) : (s.drawn).l1 = s.l1 := rfl
@[simp] theorem State.drawn_l2 (s : State) : (s.drawn).l2 = s.l2 := rfl
@[simp] theorem State.drawn_msc (s : State) : (s.drawn).msc = s.msc := rfl
@[simp] theorem State.drawn_dirty (s : State) : (s.drawn).dirty = s.dirty := rfl
@[simp] theorem State.drawn_peers (s : State) : (s.drawn).peers = s.peers := rfl
@[simp] theorem State.drawn_readers (s : State) : (s.drawn).readers = s.readers := rfl
@[simp] theorem State.drawn_fetches (s : State) : (s.drawn).fetches = s.fetches := rfl
@[simp] theorem State.drawn_floors (s : State) : (s.drawn).floors = s.floors := rfl
@[simp] theorem State.drawn_owl (s : State) : (s.drawn).owl = s.owl := rfl
@[simp] theorem State.drawn_slices (s : State) : (s.drawn).slices = s.slices := rfl
@[simp] theorem State.drawn_partition (s : State) : (s.drawn).partition = s.partition := rfl
@[simp] theorem State.drawn_pools (s : State) : (s.drawn).pools = s.pools := rfl
@[simp] theorem State.drawn_quarantined (s : State) : (s.drawn).quarantined = s.quarantined := rfl
@[simp] theorem State.drawn_mgmtOut (s : State) : (s.drawn).mgmtOut = s.mgmtOut := rfl
@[simp] theorem State.drawn_hostInbox (s : State) : (s.drawn).hostInbox = s.hostInbox := rfl
@[simp] theorem State.drawn_hostStatus (s : State) : (s.drawn).hostStatus = s.hostStatus := rfl
@[simp] theorem State.drawn_hostData (s : State) : (s.drawn).hostData = s.hostData := rfl
@[simp] theorem State.drawn_heldHost (s : State) : (s.drawn).heldHost = s.heldHost := rfl
@[simp] theorem State.drawn_boot (s : State) : (s.drawn).boot = s.boot := rfl
@[simp] theorem State.drawn_version (s : State) : (s.drawn).version = s.version := rfl
@[simp] theorem State.drawn_image (s : State) : (s.drawn).image = s.image := rfl
@[simp] theorem State.drawn_stretched (s : State) : (s.drawn).stretched = s.stretched := rfl
@[simp] theorem State.drawn_ecc (s : State) : (s.drawn).ecc = s.ecc := rfl
@[simp] theorem State.drawn_number (s : State) : (s.drawn).number = s.number := rfl
@[simp] theorem State.drawn_hostPort (s : State) : (s.drawn).hostPort = s.hostPort := rfl
@[simp] theorem State.drawn_bridged (s : State) : (s.drawn).bridged = s.bridged := rfl
@[simp] theorem State.drawn_ports (s : State) : (s.drawn).ports = s.ports := rfl
@[simp] theorem State.drawn_tseqs (s : State) : (s.drawn).tseqs = s.tseqs := rfl
@[simp] theorem State.drawn_sent (s : State) : (s.drawn).sent = s.sent := rfl
@[simp] theorem State.drawn_applied (s : State) : (s.drawn).applied = s.applied := rfl
@[simp] theorem State.drawn_discarded (s : State) : (s.drawn).discarded = s.discarded := rfl
@[simp] theorem State.drawn_nextCtx (s : State) : (s.drawn).nextCtx = s.nextCtx := rfl
@[simp] theorem State.drawn_tick (s : State) : (s.drawn).tick = s.tick := rfl
@[simp] theorem State.drawn_freeIx (s : State) : (s.drawn).freeIx = s.freeIx + 1 := rfl
@[simp] theorem State.drawn_streak (s : State) : (s.drawn).streak = s.streak := rfl
@[simp] theorem State.drawn_agenda (s : State) : (s.drawn).agenda = s.agenda := rfl
@[simp] theorem State.mapGangs_cur (s : State) (f : Gang → Gang) : (s.mapGangs f).cur = if s.cur.live then f s.cur else s.cur := rfl
@[simp] theorem State.mapGangs_others (s : State) (f : Gang → Gang) : (s.mapGangs f).others = s.others.map f := rfl
@[simp] theorem State.mapGangs_crews (s : State) (f : Gang → Gang) : (s.mapGangs f).crews = s.crews := rfl
@[simp] theorem State.mapGangs_cores (s : State) (f : Gang → Gang) : (s.mapGangs f).cores = s.cores := rfl
@[simp] theorem State.mapGangs_contexts (s : State) (f : Gang → Gang) : (s.mapGangs f).contexts = s.contexts := rfl
@[simp] theorem State.mapGangs_queues (s : State) (f : Gang → Gang) : (s.mapGangs f).queues = s.queues := rfl
@[simp] theorem State.mapGangs_peerAdds (s : State) (f : Gang → Gang) : (s.mapGangs f).peerAdds = s.peerAdds := rfl
@[simp] theorem State.mapGangs_mem (s : State) (f : Gang → Gang) : (s.mapGangs f).mem = s.mem := rfl
@[simp] theorem State.mapGangs_side (s : State) (f : Gang → Gang) : (s.mapGangs f).side = s.side := rfl
@[simp] theorem State.mapGangs_hbm (s : State) (f : Gang → Gang) : (s.mapGangs f).hbm = s.hbm := rfl
@[simp] theorem State.mapGangs_l1 (s : State) (f : Gang → Gang) : (s.mapGangs f).l1 = s.l1 := rfl
@[simp] theorem State.mapGangs_l2 (s : State) (f : Gang → Gang) : (s.mapGangs f).l2 = s.l2 := rfl
@[simp] theorem State.mapGangs_msc (s : State) (f : Gang → Gang) : (s.mapGangs f).msc = s.msc := rfl
@[simp] theorem State.mapGangs_dirty (s : State) (f : Gang → Gang) : (s.mapGangs f).dirty = s.dirty := rfl
@[simp] theorem State.mapGangs_peers (s : State) (f : Gang → Gang) : (s.mapGangs f).peers = s.peers := rfl
@[simp] theorem State.mapGangs_readers (s : State) (f : Gang → Gang) : (s.mapGangs f).readers = s.readers := rfl
@[simp] theorem State.mapGangs_fetches (s : State) (f : Gang → Gang) : (s.mapGangs f).fetches = s.fetches := rfl
@[simp] theorem State.mapGangs_floors (s : State) (f : Gang → Gang) : (s.mapGangs f).floors = s.floors := rfl
@[simp] theorem State.mapGangs_owl (s : State) (f : Gang → Gang) : (s.mapGangs f).owl = s.owl := rfl
@[simp] theorem State.mapGangs_slices (s : State) (f : Gang → Gang) : (s.mapGangs f).slices = s.slices := rfl
@[simp] theorem State.mapGangs_partition (s : State) (f : Gang → Gang) : (s.mapGangs f).partition = s.partition := rfl
@[simp] theorem State.mapGangs_pools (s : State) (f : Gang → Gang) : (s.mapGangs f).pools = s.pools := rfl
@[simp] theorem State.mapGangs_quarantined (s : State) (f : Gang → Gang) : (s.mapGangs f).quarantined = s.quarantined := rfl
@[simp] theorem State.mapGangs_mgmtOut (s : State) (f : Gang → Gang) : (s.mapGangs f).mgmtOut = s.mgmtOut := rfl
@[simp] theorem State.mapGangs_hostInbox (s : State) (f : Gang → Gang) : (s.mapGangs f).hostInbox = s.hostInbox := rfl
@[simp] theorem State.mapGangs_hostStatus (s : State) (f : Gang → Gang) : (s.mapGangs f).hostStatus = s.hostStatus := rfl
@[simp] theorem State.mapGangs_hostData (s : State) (f : Gang → Gang) : (s.mapGangs f).hostData = s.hostData := rfl
@[simp] theorem State.mapGangs_heldHost (s : State) (f : Gang → Gang) : (s.mapGangs f).heldHost = s.heldHost := rfl
@[simp] theorem State.mapGangs_boot (s : State) (f : Gang → Gang) : (s.mapGangs f).boot = s.boot := rfl
@[simp] theorem State.mapGangs_version (s : State) (f : Gang → Gang) : (s.mapGangs f).version = s.version := rfl
@[simp] theorem State.mapGangs_image (s : State) (f : Gang → Gang) : (s.mapGangs f).image = s.image := rfl
@[simp] theorem State.mapGangs_stretched (s : State) (f : Gang → Gang) : (s.mapGangs f).stretched = s.stretched := rfl
@[simp] theorem State.mapGangs_ecc (s : State) (f : Gang → Gang) : (s.mapGangs f).ecc = s.ecc := rfl
@[simp] theorem State.mapGangs_number (s : State) (f : Gang → Gang) : (s.mapGangs f).number = s.number := rfl
@[simp] theorem State.mapGangs_hostPort (s : State) (f : Gang → Gang) : (s.mapGangs f).hostPort = s.hostPort := rfl
@[simp] theorem State.mapGangs_bridged (s : State) (f : Gang → Gang) : (s.mapGangs f).bridged = s.bridged := rfl
@[simp] theorem State.mapGangs_ports (s : State) (f : Gang → Gang) : (s.mapGangs f).ports = s.ports := rfl
@[simp] theorem State.mapGangs_tseqs (s : State) (f : Gang → Gang) : (s.mapGangs f).tseqs = s.tseqs := rfl
@[simp] theorem State.mapGangs_sent (s : State) (f : Gang → Gang) : (s.mapGangs f).sent = s.sent := rfl
@[simp] theorem State.mapGangs_applied (s : State) (f : Gang → Gang) : (s.mapGangs f).applied = s.applied := rfl
@[simp] theorem State.mapGangs_discarded (s : State) (f : Gang → Gang) : (s.mapGangs f).discarded = s.discarded := rfl
@[simp] theorem State.mapGangs_nextCtx (s : State) (f : Gang → Gang) : (s.mapGangs f).nextCtx = s.nextCtx := rfl
@[simp] theorem State.mapGangs_tick (s : State) (f : Gang → Gang) : (s.mapGangs f).tick = s.tick := rfl
@[simp] theorem State.mapGangs_freeIx (s : State) (f : Gang → Gang) : (s.mapGangs f).freeIx = s.freeIx := rfl
@[simp] theorem State.mapGangs_streak (s : State) (f : Gang → Gang) : (s.mapGangs f).streak = s.streak := rfl
@[simp] theorem State.mapGangs_agenda (s : State) (f : Gang → Gang) : (s.mapGangs f).agenda = s.agenda := rfl

@[simp] theorem State.setCore_cur (s : State) (c : CoreSt) : (s.setCore c).cur = s.cur := by
  unfold State.setCore; split <;> rfl
@[simp] theorem State.modCore_cur (s : State) (ix : Nat) (f : CoreSt → CoreSt) : (s.modCore ix f).cur = s.cur := by
  simp [State.modCore]
@[simp] theorem State.modCrew_cur (s : State) (ctx rank : Nat) (f : Crew → Crew) : (s.modCrew ctx rank f).cur = s.cur := rfl
@[simp] theorem State.modCtx_cur (s : State) (n : Nat) (f : Context → Context) : (s.modCtx n f).cur = s.cur := rfl
@[simp] theorem State.count_cur (s : State) (core ctx event n : Nat) : (s.count core ctx event n).cur = s.cur := by
  unfold State.count; simp only []; split <;> (try split) <;> simp
@[simp] theorem State.countHere_cur (s : State) (event n : Nat) : (s.countHere event n).cur = s.cur := by
  simp [State.countHere]
@[simp] theorem State.setCore_others (s : State) (c : CoreSt) : (s.setCore c).others = s.others := by
  unfold State.setCore; split <;> rfl
@[simp] theorem State.modCore_others (s : State) (ix : Nat) (f : CoreSt → CoreSt) : (s.modCore ix f).others = s.others := by
  simp [State.modCore]
@[simp] theorem State.modCrew_others (s : State) (ctx rank : Nat) (f : Crew → Crew) : (s.modCrew ctx rank f).others = s.others := rfl
@[simp] theorem State.modCtx_others (s : State) (n : Nat) (f : Context → Context) : (s.modCtx n f).others = s.others := rfl
@[simp] theorem State.count_others (s : State) (core ctx event n : Nat) : (s.count core ctx event n).others = s.others := by
  unfold State.count; simp only []; split <;> (try split) <;> simp
@[simp] theorem State.countHere_others (s : State) (event n : Nat) : (s.countHere event n).others = s.others := by
  simp [State.countHere]
@[simp] theorem State.setCore_crews (s : State) (c : CoreSt) : (s.setCore c).crews = s.crews := by
  unfold State.setCore; split <;> rfl
@[simp] theorem State.setGang_crews (s : State) (g : Gang) : (s.setGang g).crews = s.crews := by
  unfold State.setGang; split <;> rfl
@[simp] theorem State.modGang_crews (s : State) (id : GangId) (f : Gang → Gang) : (s.modGang id f).crews = s.crews := by
  unfold State.modGang; split <;> simp
@[simp] theorem State.modCore_crews (s : State) (ix : Nat) (f : CoreSt → CoreSt) : (s.modCore ix f).crews = s.crews := by
  simp [State.modCore]
@[simp] theorem State.modCtx_crews (s : State) (n : Nat) (f : Context → Context) : (s.modCtx n f).crews = s.crews := rfl
@[simp] theorem State.count_crews (s : State) (core ctx event n : Nat) : (s.count core ctx event n).crews = s.crews := by
  unfold State.count; simp only []; split <;> (try split) <;> simp
@[simp] theorem State.countHere_crews (s : State) (event n : Nat) : (s.countHere event n).crews = s.crews := by
  simp [State.countHere]
@[simp] theorem State.setGang_cores (s : State) (g : Gang) : (s.setGang g).cores = s.cores := by
  unfold State.setGang; split <;> rfl
@[simp] theorem State.modGang_cores (s : State) (id : GangId) (f : Gang → Gang) : (s.modGang id f).cores = s.cores := by
  unfold State.modGang; split <;> simp
@[simp] theorem State.modCrew_cores (s : State) (ctx rank : Nat) (f : Crew → Crew) : (s.modCrew ctx rank f).cores = s.cores := rfl
@[simp] theorem State.modCtx_cores (s : State) (n : Nat) (f : Context → Context) : (s.modCtx n f).cores = s.cores := rfl
@[simp] theorem State.setCore_contexts (s : State) (c : CoreSt) : (s.setCore c).contexts = s.contexts := by
  unfold State.setCore; split <;> rfl
@[simp] theorem State.setGang_contexts (s : State) (g : Gang) : (s.setGang g).contexts = s.contexts := by
  unfold State.setGang; split <;> rfl
@[simp] theorem State.modGang_contexts (s : State) (id : GangId) (f : Gang → Gang) : (s.modGang id f).contexts = s.contexts := by
  unfold State.modGang; split <;> simp
@[simp] theorem State.modCore_contexts (s : State) (ix : Nat) (f : CoreSt → CoreSt) : (s.modCore ix f).contexts = s.contexts := by
  simp [State.modCore]
@[simp] theorem State.modCrew_contexts (s : State) (ctx rank : Nat) (f : Crew → Crew) : (s.modCrew ctx rank f).contexts = s.contexts := rfl
@[simp] theorem State.count_contexts (s : State) (core ctx event n : Nat) : (s.count core ctx event n).contexts = s.contexts := by
  unfold State.count; simp only []; split <;> (try split) <;> simp
@[simp] theorem State.countHere_contexts (s : State) (event n : Nat) : (s.countHere event n).contexts = s.contexts := by
  simp [State.countHere]
@[simp] theorem State.setCore_queues (s : State) (c : CoreSt) : (s.setCore c).queues = s.queues := by
  unfold State.setCore; split <;> rfl
@[simp] theorem State.setGang_queues (s : State) (g : Gang) : (s.setGang g).queues = s.queues := by
  unfold State.setGang; split <;> rfl
@[simp] theorem State.modGang_queues (s : State) (id : GangId) (f : Gang → Gang) : (s.modGang id f).queues = s.queues := by
  unfold State.modGang; split <;> simp
@[simp] theorem State.modCore_queues (s : State) (ix : Nat) (f : CoreSt → CoreSt) : (s.modCore ix f).queues = s.queues := by
  simp [State.modCore]
@[simp] theorem State.modCrew_queues (s : State) (ctx rank : Nat) (f : Crew → Crew) : (s.modCrew ctx rank f).queues = s.queues := rfl
@[simp] theorem State.modCtx_queues (s : State) (n : Nat) (f : Context → Context) : (s.modCtx n f).queues = s.queues := rfl
@[simp] theorem State.count_queues (s : State) (core ctx event n : Nat) : (s.count core ctx event n).queues = s.queues := by
  unfold State.count; simp only []; split <;> (try split) <;> simp
@[simp] theorem State.countHere_queues (s : State) (event n : Nat) : (s.countHere event n).queues = s.queues := by
  simp [State.countHere]
@[simp] theorem State.setCore_peerAdds (s : State) (c : CoreSt) : (s.setCore c).peerAdds = s.peerAdds := by
  unfold State.setCore; split <;> rfl
@[simp] theorem State.setGang_peerAdds (s : State) (g : Gang) : (s.setGang g).peerAdds = s.peerAdds := by
  unfold State.setGang; split <;> rfl
@[simp] theorem State.modGang_peerAdds (s : State) (id : GangId) (f : Gang → Gang) : (s.modGang id f).peerAdds = s.peerAdds := by
  unfold State.modGang; split <;> simp
@[simp] theorem State.modCore_peerAdds (s : State) (ix : Nat) (f : CoreSt → CoreSt) : (s.modCore ix f).peerAdds = s.peerAdds := by
  simp [State.modCore]
@[simp] theorem State.modCrew_peerAdds (s : State) (ctx rank : Nat) (f : Crew → Crew) : (s.modCrew ctx rank f).peerAdds = s.peerAdds := rfl
@[simp] theorem State.modCtx_peerAdds (s : State) (n : Nat) (f : Context → Context) : (s.modCtx n f).peerAdds = s.peerAdds := rfl
@[simp] theorem State.count_peerAdds (s : State) (core ctx event n : Nat) : (s.count core ctx event n).peerAdds = s.peerAdds := by
  unfold State.count; simp only []; split <;> (try split) <;> simp
@[simp] theorem State.countHere_peerAdds (s : State) (event n : Nat) : (s.countHere event n).peerAdds = s.peerAdds := by
  simp [State.countHere]
@[simp] theorem State.setCore_mem (s : State) (c : CoreSt) : (s.setCore c).mem = s.mem := by
  unfold State.setCore; split <;> rfl
@[simp] theorem State.setGang_mem (s : State) (g : Gang) : (s.setGang g).mem = s.mem := by
  unfold State.setGang; split <;> rfl
@[simp] theorem State.modGang_mem (s : State) (id : GangId) (f : Gang → Gang) : (s.modGang id f).mem = s.mem := by
  unfold State.modGang; split <;> simp
@[simp] theorem State.modCore_mem (s : State) (ix : Nat) (f : CoreSt → CoreSt) : (s.modCore ix f).mem = s.mem := by
  simp [State.modCore]
@[simp] theorem State.modCrew_mem (s : State) (ctx rank : Nat) (f : Crew → Crew) : (s.modCrew ctx rank f).mem = s.mem := rfl
@[simp] theorem State.modCtx_mem (s : State) (n : Nat) (f : Context → Context) : (s.modCtx n f).mem = s.mem := rfl
@[simp] theorem State.count_mem (s : State) (core ctx event n : Nat) : (s.count core ctx event n).mem = s.mem := by
  unfold State.count; simp only []; split <;> (try split) <;> simp
@[simp] theorem State.countHere_mem (s : State) (event n : Nat) : (s.countHere event n).mem = s.mem := by
  simp [State.countHere]
@[simp] theorem State.setCore_side (s : State) (c : CoreSt) : (s.setCore c).side = s.side := by
  unfold State.setCore; split <;> rfl
@[simp] theorem State.setGang_side (s : State) (g : Gang) : (s.setGang g).side = s.side := by
  unfold State.setGang; split <;> rfl
@[simp] theorem State.modGang_side (s : State) (id : GangId) (f : Gang → Gang) : (s.modGang id f).side = s.side := by
  unfold State.modGang; split <;> simp
@[simp] theorem State.modCore_side (s : State) (ix : Nat) (f : CoreSt → CoreSt) : (s.modCore ix f).side = s.side := by
  simp [State.modCore]
@[simp] theorem State.modCrew_side (s : State) (ctx rank : Nat) (f : Crew → Crew) : (s.modCrew ctx rank f).side = s.side := rfl
@[simp] theorem State.modCtx_side (s : State) (n : Nat) (f : Context → Context) : (s.modCtx n f).side = s.side := rfl
@[simp] theorem State.count_side (s : State) (core ctx event n : Nat) : (s.count core ctx event n).side = s.side := by
  unfold State.count; simp only []; split <;> (try split) <;> simp
@[simp] theorem State.countHere_side (s : State) (event n : Nat) : (s.countHere event n).side = s.side := by
  simp [State.countHere]
@[simp] theorem State.setCore_hbm (s : State) (c : CoreSt) : (s.setCore c).hbm = s.hbm := by
  unfold State.setCore; split <;> rfl
@[simp] theorem State.setGang_hbm (s : State) (g : Gang) : (s.setGang g).hbm = s.hbm := by
  unfold State.setGang; split <;> rfl
@[simp] theorem State.modGang_hbm (s : State) (id : GangId) (f : Gang → Gang) : (s.modGang id f).hbm = s.hbm := by
  unfold State.modGang; split <;> simp
@[simp] theorem State.modCore_hbm (s : State) (ix : Nat) (f : CoreSt → CoreSt) : (s.modCore ix f).hbm = s.hbm := by
  simp [State.modCore]
@[simp] theorem State.modCrew_hbm (s : State) (ctx rank : Nat) (f : Crew → Crew) : (s.modCrew ctx rank f).hbm = s.hbm := rfl
@[simp] theorem State.modCtx_hbm (s : State) (n : Nat) (f : Context → Context) : (s.modCtx n f).hbm = s.hbm := rfl
@[simp] theorem State.count_hbm (s : State) (core ctx event n : Nat) : (s.count core ctx event n).hbm = s.hbm := by
  unfold State.count; simp only []; split <;> (try split) <;> simp
@[simp] theorem State.countHere_hbm (s : State) (event n : Nat) : (s.countHere event n).hbm = s.hbm := by
  simp [State.countHere]
@[simp] theorem State.setCore_l1 (s : State) (c : CoreSt) : (s.setCore c).l1 = s.l1 := by
  unfold State.setCore; split <;> rfl
@[simp] theorem State.setGang_l1 (s : State) (g : Gang) : (s.setGang g).l1 = s.l1 := by
  unfold State.setGang; split <;> rfl
@[simp] theorem State.modGang_l1 (s : State) (id : GangId) (f : Gang → Gang) : (s.modGang id f).l1 = s.l1 := by
  unfold State.modGang; split <;> simp
@[simp] theorem State.modCore_l1 (s : State) (ix : Nat) (f : CoreSt → CoreSt) : (s.modCore ix f).l1 = s.l1 := by
  simp [State.modCore]
@[simp] theorem State.modCrew_l1 (s : State) (ctx rank : Nat) (f : Crew → Crew) : (s.modCrew ctx rank f).l1 = s.l1 := rfl
@[simp] theorem State.modCtx_l1 (s : State) (n : Nat) (f : Context → Context) : (s.modCtx n f).l1 = s.l1 := rfl
@[simp] theorem State.count_l1 (s : State) (core ctx event n : Nat) : (s.count core ctx event n).l1 = s.l1 := by
  unfold State.count; simp only []; split <;> (try split) <;> simp
@[simp] theorem State.countHere_l1 (s : State) (event n : Nat) : (s.countHere event n).l1 = s.l1 := by
  simp [State.countHere]
@[simp] theorem State.setCore_l2 (s : State) (c : CoreSt) : (s.setCore c).l2 = s.l2 := by
  unfold State.setCore; split <;> rfl
@[simp] theorem State.setGang_l2 (s : State) (g : Gang) : (s.setGang g).l2 = s.l2 := by
  unfold State.setGang; split <;> rfl
@[simp] theorem State.modGang_l2 (s : State) (id : GangId) (f : Gang → Gang) : (s.modGang id f).l2 = s.l2 := by
  unfold State.modGang; split <;> simp
@[simp] theorem State.modCore_l2 (s : State) (ix : Nat) (f : CoreSt → CoreSt) : (s.modCore ix f).l2 = s.l2 := by
  simp [State.modCore]
@[simp] theorem State.modCrew_l2 (s : State) (ctx rank : Nat) (f : Crew → Crew) : (s.modCrew ctx rank f).l2 = s.l2 := rfl
@[simp] theorem State.modCtx_l2 (s : State) (n : Nat) (f : Context → Context) : (s.modCtx n f).l2 = s.l2 := rfl
@[simp] theorem State.count_l2 (s : State) (core ctx event n : Nat) : (s.count core ctx event n).l2 = s.l2 := by
  unfold State.count; simp only []; split <;> (try split) <;> simp
@[simp] theorem State.countHere_l2 (s : State) (event n : Nat) : (s.countHere event n).l2 = s.l2 := by
  simp [State.countHere]
@[simp] theorem State.setCore_msc (s : State) (c : CoreSt) : (s.setCore c).msc = s.msc := by
  unfold State.setCore; split <;> rfl
@[simp] theorem State.setGang_msc (s : State) (g : Gang) : (s.setGang g).msc = s.msc := by
  unfold State.setGang; split <;> rfl
@[simp] theorem State.modGang_msc (s : State) (id : GangId) (f : Gang → Gang) : (s.modGang id f).msc = s.msc := by
  unfold State.modGang; split <;> simp
@[simp] theorem State.modCore_msc (s : State) (ix : Nat) (f : CoreSt → CoreSt) : (s.modCore ix f).msc = s.msc := by
  simp [State.modCore]
@[simp] theorem State.modCrew_msc (s : State) (ctx rank : Nat) (f : Crew → Crew) : (s.modCrew ctx rank f).msc = s.msc := rfl
@[simp] theorem State.modCtx_msc (s : State) (n : Nat) (f : Context → Context) : (s.modCtx n f).msc = s.msc := rfl
@[simp] theorem State.count_msc (s : State) (core ctx event n : Nat) : (s.count core ctx event n).msc = s.msc := by
  unfold State.count; simp only []; split <;> (try split) <;> simp
@[simp] theorem State.countHere_msc (s : State) (event n : Nat) : (s.countHere event n).msc = s.msc := by
  simp [State.countHere]
@[simp] theorem State.setCore_dirty (s : State) (c : CoreSt) : (s.setCore c).dirty = s.dirty := by
  unfold State.setCore; split <;> rfl
@[simp] theorem State.setGang_dirty (s : State) (g : Gang) : (s.setGang g).dirty = s.dirty := by
  unfold State.setGang; split <;> rfl
@[simp] theorem State.modGang_dirty (s : State) (id : GangId) (f : Gang → Gang) : (s.modGang id f).dirty = s.dirty := by
  unfold State.modGang; split <;> simp
@[simp] theorem State.modCore_dirty (s : State) (ix : Nat) (f : CoreSt → CoreSt) : (s.modCore ix f).dirty = s.dirty := by
  simp [State.modCore]
@[simp] theorem State.modCrew_dirty (s : State) (ctx rank : Nat) (f : Crew → Crew) : (s.modCrew ctx rank f).dirty = s.dirty := rfl
@[simp] theorem State.modCtx_dirty (s : State) (n : Nat) (f : Context → Context) : (s.modCtx n f).dirty = s.dirty := rfl
@[simp] theorem State.count_dirty (s : State) (core ctx event n : Nat) : (s.count core ctx event n).dirty = s.dirty := by
  unfold State.count; simp only []; split <;> (try split) <;> simp
@[simp] theorem State.countHere_dirty (s : State) (event n : Nat) : (s.countHere event n).dirty = s.dirty := by
  simp [State.countHere]
@[simp] theorem State.setCore_peers (s : State) (c : CoreSt) : (s.setCore c).peers = s.peers := by
  unfold State.setCore; split <;> rfl
@[simp] theorem State.setGang_peers (s : State) (g : Gang) : (s.setGang g).peers = s.peers := by
  unfold State.setGang; split <;> rfl
@[simp] theorem State.modGang_peers (s : State) (id : GangId) (f : Gang → Gang) : (s.modGang id f).peers = s.peers := by
  unfold State.modGang; split <;> simp
@[simp] theorem State.modCore_peers (s : State) (ix : Nat) (f : CoreSt → CoreSt) : (s.modCore ix f).peers = s.peers := by
  simp [State.modCore]
@[simp] theorem State.modCrew_peers (s : State) (ctx rank : Nat) (f : Crew → Crew) : (s.modCrew ctx rank f).peers = s.peers := rfl
@[simp] theorem State.modCtx_peers (s : State) (n : Nat) (f : Context → Context) : (s.modCtx n f).peers = s.peers := rfl
@[simp] theorem State.count_peers (s : State) (core ctx event n : Nat) : (s.count core ctx event n).peers = s.peers := by
  unfold State.count; simp only []; split <;> (try split) <;> simp
@[simp] theorem State.countHere_peers (s : State) (event n : Nat) : (s.countHere event n).peers = s.peers := by
  simp [State.countHere]
@[simp] theorem State.setCore_readers (s : State) (c : CoreSt) : (s.setCore c).readers = s.readers := by
  unfold State.setCore; split <;> rfl
@[simp] theorem State.setGang_readers (s : State) (g : Gang) : (s.setGang g).readers = s.readers := by
  unfold State.setGang; split <;> rfl
@[simp] theorem State.modGang_readers (s : State) (id : GangId) (f : Gang → Gang) : (s.modGang id f).readers = s.readers := by
  unfold State.modGang; split <;> simp
@[simp] theorem State.modCore_readers (s : State) (ix : Nat) (f : CoreSt → CoreSt) : (s.modCore ix f).readers = s.readers := by
  simp [State.modCore]
@[simp] theorem State.modCrew_readers (s : State) (ctx rank : Nat) (f : Crew → Crew) : (s.modCrew ctx rank f).readers = s.readers := rfl
@[simp] theorem State.modCtx_readers (s : State) (n : Nat) (f : Context → Context) : (s.modCtx n f).readers = s.readers := rfl
@[simp] theorem State.count_readers (s : State) (core ctx event n : Nat) : (s.count core ctx event n).readers = s.readers := by
  unfold State.count; simp only []; split <;> (try split) <;> simp
@[simp] theorem State.countHere_readers (s : State) (event n : Nat) : (s.countHere event n).readers = s.readers := by
  simp [State.countHere]
@[simp] theorem State.setCore_fetches (s : State) (c : CoreSt) : (s.setCore c).fetches = s.fetches := by
  unfold State.setCore; split <;> rfl
@[simp] theorem State.setGang_fetches (s : State) (g : Gang) : (s.setGang g).fetches = s.fetches := by
  unfold State.setGang; split <;> rfl
@[simp] theorem State.modGang_fetches (s : State) (id : GangId) (f : Gang → Gang) : (s.modGang id f).fetches = s.fetches := by
  unfold State.modGang; split <;> simp
@[simp] theorem State.modCore_fetches (s : State) (ix : Nat) (f : CoreSt → CoreSt) : (s.modCore ix f).fetches = s.fetches := by
  simp [State.modCore]
@[simp] theorem State.modCrew_fetches (s : State) (ctx rank : Nat) (f : Crew → Crew) : (s.modCrew ctx rank f).fetches = s.fetches := rfl
@[simp] theorem State.modCtx_fetches (s : State) (n : Nat) (f : Context → Context) : (s.modCtx n f).fetches = s.fetches := rfl
@[simp] theorem State.count_fetches (s : State) (core ctx event n : Nat) : (s.count core ctx event n).fetches = s.fetches := by
  unfold State.count; simp only []; split <;> (try split) <;> simp
@[simp] theorem State.countHere_fetches (s : State) (event n : Nat) : (s.countHere event n).fetches = s.fetches := by
  simp [State.countHere]
@[simp] theorem State.setCore_floors (s : State) (c : CoreSt) : (s.setCore c).floors = s.floors := by
  unfold State.setCore; split <;> rfl
@[simp] theorem State.setGang_floors (s : State) (g : Gang) : (s.setGang g).floors = s.floors := by
  unfold State.setGang; split <;> rfl
@[simp] theorem State.modGang_floors (s : State) (id : GangId) (f : Gang → Gang) : (s.modGang id f).floors = s.floors := by
  unfold State.modGang; split <;> simp
@[simp] theorem State.modCore_floors (s : State) (ix : Nat) (f : CoreSt → CoreSt) : (s.modCore ix f).floors = s.floors := by
  simp [State.modCore]
@[simp] theorem State.modCrew_floors (s : State) (ctx rank : Nat) (f : Crew → Crew) : (s.modCrew ctx rank f).floors = s.floors := rfl
@[simp] theorem State.modCtx_floors (s : State) (n : Nat) (f : Context → Context) : (s.modCtx n f).floors = s.floors := rfl
@[simp] theorem State.count_floors (s : State) (core ctx event n : Nat) : (s.count core ctx event n).floors = s.floors := by
  unfold State.count; simp only []; split <;> (try split) <;> simp
@[simp] theorem State.countHere_floors (s : State) (event n : Nat) : (s.countHere event n).floors = s.floors := by
  simp [State.countHere]
@[simp] theorem State.setCore_owl (s : State) (c : CoreSt) : (s.setCore c).owl = s.owl := by
  unfold State.setCore; split <;> rfl
@[simp] theorem State.setGang_owl (s : State) (g : Gang) : (s.setGang g).owl = s.owl := by
  unfold State.setGang; split <;> rfl
@[simp] theorem State.modGang_owl (s : State) (id : GangId) (f : Gang → Gang) : (s.modGang id f).owl = s.owl := by
  unfold State.modGang; split <;> simp
@[simp] theorem State.modCore_owl (s : State) (ix : Nat) (f : CoreSt → CoreSt) : (s.modCore ix f).owl = s.owl := by
  simp [State.modCore]
@[simp] theorem State.modCrew_owl (s : State) (ctx rank : Nat) (f : Crew → Crew) : (s.modCrew ctx rank f).owl = s.owl := rfl
@[simp] theorem State.modCtx_owl (s : State) (n : Nat) (f : Context → Context) : (s.modCtx n f).owl = s.owl := rfl
@[simp] theorem State.count_owl (s : State) (core ctx event n : Nat) : (s.count core ctx event n).owl = s.owl := by
  unfold State.count; simp only []; split <;> (try split) <;> simp
@[simp] theorem State.countHere_owl (s : State) (event n : Nat) : (s.countHere event n).owl = s.owl := by
  simp [State.countHere]
@[simp] theorem State.setCore_slices (s : State) (c : CoreSt) : (s.setCore c).slices = s.slices := by
  unfold State.setCore; split <;> rfl
@[simp] theorem State.setGang_slices (s : State) (g : Gang) : (s.setGang g).slices = s.slices := by
  unfold State.setGang; split <;> rfl
@[simp] theorem State.modGang_slices (s : State) (id : GangId) (f : Gang → Gang) : (s.modGang id f).slices = s.slices := by
  unfold State.modGang; split <;> simp
@[simp] theorem State.modCore_slices (s : State) (ix : Nat) (f : CoreSt → CoreSt) : (s.modCore ix f).slices = s.slices := by
  simp [State.modCore]
@[simp] theorem State.modCrew_slices (s : State) (ctx rank : Nat) (f : Crew → Crew) : (s.modCrew ctx rank f).slices = s.slices := rfl
@[simp] theorem State.modCtx_slices (s : State) (n : Nat) (f : Context → Context) : (s.modCtx n f).slices = s.slices := rfl
@[simp] theorem State.count_slices (s : State) (core ctx event n : Nat) : (s.count core ctx event n).slices = s.slices := by
  unfold State.count; simp only []; split <;> (try split) <;> simp
@[simp] theorem State.countHere_slices (s : State) (event n : Nat) : (s.countHere event n).slices = s.slices := by
  simp [State.countHere]
@[simp] theorem State.setCore_partition (s : State) (c : CoreSt) : (s.setCore c).partition = s.partition := by
  unfold State.setCore; split <;> rfl
@[simp] theorem State.setGang_partition (s : State) (g : Gang) : (s.setGang g).partition = s.partition := by
  unfold State.setGang; split <;> rfl
@[simp] theorem State.modGang_partition (s : State) (id : GangId) (f : Gang → Gang) : (s.modGang id f).partition = s.partition := by
  unfold State.modGang; split <;> simp
@[simp] theorem State.modCore_partition (s : State) (ix : Nat) (f : CoreSt → CoreSt) : (s.modCore ix f).partition = s.partition := by
  simp [State.modCore]
@[simp] theorem State.modCrew_partition (s : State) (ctx rank : Nat) (f : Crew → Crew) : (s.modCrew ctx rank f).partition = s.partition := rfl
@[simp] theorem State.modCtx_partition (s : State) (n : Nat) (f : Context → Context) : (s.modCtx n f).partition = s.partition := rfl
@[simp] theorem State.count_partition (s : State) (core ctx event n : Nat) : (s.count core ctx event n).partition = s.partition := by
  unfold State.count; simp only []; split <;> (try split) <;> simp
@[simp] theorem State.countHere_partition (s : State) (event n : Nat) : (s.countHere event n).partition = s.partition := by
  simp [State.countHere]
@[simp] theorem State.setCore_pools (s : State) (c : CoreSt) : (s.setCore c).pools = s.pools := by
  unfold State.setCore; split <;> rfl
@[simp] theorem State.setGang_pools (s : State) (g : Gang) : (s.setGang g).pools = s.pools := by
  unfold State.setGang; split <;> rfl
@[simp] theorem State.modGang_pools (s : State) (id : GangId) (f : Gang → Gang) : (s.modGang id f).pools = s.pools := by
  unfold State.modGang; split <;> simp
@[simp] theorem State.modCore_pools (s : State) (ix : Nat) (f : CoreSt → CoreSt) : (s.modCore ix f).pools = s.pools := by
  simp [State.modCore]
@[simp] theorem State.modCrew_pools (s : State) (ctx rank : Nat) (f : Crew → Crew) : (s.modCrew ctx rank f).pools = s.pools := rfl
@[simp] theorem State.modCtx_pools (s : State) (n : Nat) (f : Context → Context) : (s.modCtx n f).pools = s.pools := rfl
@[simp] theorem State.count_pools (s : State) (core ctx event n : Nat) : (s.count core ctx event n).pools = s.pools := by
  unfold State.count; simp only []; split <;> (try split) <;> simp
@[simp] theorem State.countHere_pools (s : State) (event n : Nat) : (s.countHere event n).pools = s.pools := by
  simp [State.countHere]
@[simp] theorem State.setCore_quarantined (s : State) (c : CoreSt) : (s.setCore c).quarantined = s.quarantined := by
  unfold State.setCore; split <;> rfl
@[simp] theorem State.setGang_quarantined (s : State) (g : Gang) : (s.setGang g).quarantined = s.quarantined := by
  unfold State.setGang; split <;> rfl
@[simp] theorem State.modGang_quarantined (s : State) (id : GangId) (f : Gang → Gang) : (s.modGang id f).quarantined = s.quarantined := by
  unfold State.modGang; split <;> simp
@[simp] theorem State.modCore_quarantined (s : State) (ix : Nat) (f : CoreSt → CoreSt) : (s.modCore ix f).quarantined = s.quarantined := by
  simp [State.modCore]
@[simp] theorem State.modCrew_quarantined (s : State) (ctx rank : Nat) (f : Crew → Crew) : (s.modCrew ctx rank f).quarantined = s.quarantined := rfl
@[simp] theorem State.modCtx_quarantined (s : State) (n : Nat) (f : Context → Context) : (s.modCtx n f).quarantined = s.quarantined := rfl
@[simp] theorem State.count_quarantined (s : State) (core ctx event n : Nat) : (s.count core ctx event n).quarantined = s.quarantined := by
  unfold State.count; simp only []; split <;> (try split) <;> simp
@[simp] theorem State.countHere_quarantined (s : State) (event n : Nat) : (s.countHere event n).quarantined = s.quarantined := by
  simp [State.countHere]
@[simp] theorem State.setCore_mgmtOut (s : State) (c : CoreSt) : (s.setCore c).mgmtOut = s.mgmtOut := by
  unfold State.setCore; split <;> rfl
@[simp] theorem State.setGang_mgmtOut (s : State) (g : Gang) : (s.setGang g).mgmtOut = s.mgmtOut := by
  unfold State.setGang; split <;> rfl
@[simp] theorem State.modGang_mgmtOut (s : State) (id : GangId) (f : Gang → Gang) : (s.modGang id f).mgmtOut = s.mgmtOut := by
  unfold State.modGang; split <;> simp
@[simp] theorem State.modCore_mgmtOut (s : State) (ix : Nat) (f : CoreSt → CoreSt) : (s.modCore ix f).mgmtOut = s.mgmtOut := by
  simp [State.modCore]
@[simp] theorem State.modCrew_mgmtOut (s : State) (ctx rank : Nat) (f : Crew → Crew) : (s.modCrew ctx rank f).mgmtOut = s.mgmtOut := rfl
@[simp] theorem State.modCtx_mgmtOut (s : State) (n : Nat) (f : Context → Context) : (s.modCtx n f).mgmtOut = s.mgmtOut := rfl
@[simp] theorem State.count_mgmtOut (s : State) (core ctx event n : Nat) : (s.count core ctx event n).mgmtOut = s.mgmtOut := by
  unfold State.count; simp only []; split <;> (try split) <;> simp
@[simp] theorem State.countHere_mgmtOut (s : State) (event n : Nat) : (s.countHere event n).mgmtOut = s.mgmtOut := by
  simp [State.countHere]
@[simp] theorem State.setCore_hostInbox (s : State) (c : CoreSt) : (s.setCore c).hostInbox = s.hostInbox := by
  unfold State.setCore; split <;> rfl
@[simp] theorem State.setGang_hostInbox (s : State) (g : Gang) : (s.setGang g).hostInbox = s.hostInbox := by
  unfold State.setGang; split <;> rfl
@[simp] theorem State.modGang_hostInbox (s : State) (id : GangId) (f : Gang → Gang) : (s.modGang id f).hostInbox = s.hostInbox := by
  unfold State.modGang; split <;> simp
@[simp] theorem State.modCore_hostInbox (s : State) (ix : Nat) (f : CoreSt → CoreSt) : (s.modCore ix f).hostInbox = s.hostInbox := by
  simp [State.modCore]
@[simp] theorem State.modCrew_hostInbox (s : State) (ctx rank : Nat) (f : Crew → Crew) : (s.modCrew ctx rank f).hostInbox = s.hostInbox := rfl
@[simp] theorem State.modCtx_hostInbox (s : State) (n : Nat) (f : Context → Context) : (s.modCtx n f).hostInbox = s.hostInbox := rfl
@[simp] theorem State.count_hostInbox (s : State) (core ctx event n : Nat) : (s.count core ctx event n).hostInbox = s.hostInbox := by
  unfold State.count; simp only []; split <;> (try split) <;> simp
@[simp] theorem State.countHere_hostInbox (s : State) (event n : Nat) : (s.countHere event n).hostInbox = s.hostInbox := by
  simp [State.countHere]
@[simp] theorem State.setCore_hostStatus (s : State) (c : CoreSt) : (s.setCore c).hostStatus = s.hostStatus := by
  unfold State.setCore; split <;> rfl
@[simp] theorem State.setGang_hostStatus (s : State) (g : Gang) : (s.setGang g).hostStatus = s.hostStatus := by
  unfold State.setGang; split <;> rfl
@[simp] theorem State.modGang_hostStatus (s : State) (id : GangId) (f : Gang → Gang) : (s.modGang id f).hostStatus = s.hostStatus := by
  unfold State.modGang; split <;> simp
@[simp] theorem State.modCore_hostStatus (s : State) (ix : Nat) (f : CoreSt → CoreSt) : (s.modCore ix f).hostStatus = s.hostStatus := by
  simp [State.modCore]
@[simp] theorem State.modCrew_hostStatus (s : State) (ctx rank : Nat) (f : Crew → Crew) : (s.modCrew ctx rank f).hostStatus = s.hostStatus := rfl
@[simp] theorem State.modCtx_hostStatus (s : State) (n : Nat) (f : Context → Context) : (s.modCtx n f).hostStatus = s.hostStatus := rfl
@[simp] theorem State.count_hostStatus (s : State) (core ctx event n : Nat) : (s.count core ctx event n).hostStatus = s.hostStatus := by
  unfold State.count; simp only []; split <;> (try split) <;> simp
@[simp] theorem State.countHere_hostStatus (s : State) (event n : Nat) : (s.countHere event n).hostStatus = s.hostStatus := by
  simp [State.countHere]
@[simp] theorem State.setCore_hostData (s : State) (c : CoreSt) : (s.setCore c).hostData = s.hostData := by
  unfold State.setCore; split <;> rfl
@[simp] theorem State.setGang_hostData (s : State) (g : Gang) : (s.setGang g).hostData = s.hostData := by
  unfold State.setGang; split <;> rfl
@[simp] theorem State.modGang_hostData (s : State) (id : GangId) (f : Gang → Gang) : (s.modGang id f).hostData = s.hostData := by
  unfold State.modGang; split <;> simp
@[simp] theorem State.modCore_hostData (s : State) (ix : Nat) (f : CoreSt → CoreSt) : (s.modCore ix f).hostData = s.hostData := by
  simp [State.modCore]
@[simp] theorem State.modCrew_hostData (s : State) (ctx rank : Nat) (f : Crew → Crew) : (s.modCrew ctx rank f).hostData = s.hostData := rfl
@[simp] theorem State.modCtx_hostData (s : State) (n : Nat) (f : Context → Context) : (s.modCtx n f).hostData = s.hostData := rfl
@[simp] theorem State.count_hostData (s : State) (core ctx event n : Nat) : (s.count core ctx event n).hostData = s.hostData := by
  unfold State.count; simp only []; split <;> (try split) <;> simp
@[simp] theorem State.countHere_hostData (s : State) (event n : Nat) : (s.countHere event n).hostData = s.hostData := by
  simp [State.countHere]
@[simp] theorem State.setCore_heldHost (s : State) (c : CoreSt) : (s.setCore c).heldHost = s.heldHost := by
  unfold State.setCore; split <;> rfl
@[simp] theorem State.setGang_heldHost (s : State) (g : Gang) : (s.setGang g).heldHost = s.heldHost := by
  unfold State.setGang; split <;> rfl
@[simp] theorem State.modGang_heldHost (s : State) (id : GangId) (f : Gang → Gang) : (s.modGang id f).heldHost = s.heldHost := by
  unfold State.modGang; split <;> simp
@[simp] theorem State.modCore_heldHost (s : State) (ix : Nat) (f : CoreSt → CoreSt) : (s.modCore ix f).heldHost = s.heldHost := by
  simp [State.modCore]
@[simp] theorem State.modCrew_heldHost (s : State) (ctx rank : Nat) (f : Crew → Crew) : (s.modCrew ctx rank f).heldHost = s.heldHost := rfl
@[simp] theorem State.modCtx_heldHost (s : State) (n : Nat) (f : Context → Context) : (s.modCtx n f).heldHost = s.heldHost := rfl
@[simp] theorem State.count_heldHost (s : State) (core ctx event n : Nat) : (s.count core ctx event n).heldHost = s.heldHost := by
  unfold State.count; simp only []; split <;> (try split) <;> simp
@[simp] theorem State.countHere_heldHost (s : State) (event n : Nat) : (s.countHere event n).heldHost = s.heldHost := by
  simp [State.countHere]
@[simp] theorem State.setCore_boot (s : State) (c : CoreSt) : (s.setCore c).boot = s.boot := by
  unfold State.setCore; split <;> rfl
@[simp] theorem State.setGang_boot (s : State) (g : Gang) : (s.setGang g).boot = s.boot := by
  unfold State.setGang; split <;> rfl
@[simp] theorem State.modGang_boot (s : State) (id : GangId) (f : Gang → Gang) : (s.modGang id f).boot = s.boot := by
  unfold State.modGang; split <;> simp
@[simp] theorem State.modCore_boot (s : State) (ix : Nat) (f : CoreSt → CoreSt) : (s.modCore ix f).boot = s.boot := by
  simp [State.modCore]
@[simp] theorem State.modCrew_boot (s : State) (ctx rank : Nat) (f : Crew → Crew) : (s.modCrew ctx rank f).boot = s.boot := rfl
@[simp] theorem State.modCtx_boot (s : State) (n : Nat) (f : Context → Context) : (s.modCtx n f).boot = s.boot := rfl
@[simp] theorem State.count_boot (s : State) (core ctx event n : Nat) : (s.count core ctx event n).boot = s.boot := by
  unfold State.count; simp only []; split <;> (try split) <;> simp
@[simp] theorem State.countHere_boot (s : State) (event n : Nat) : (s.countHere event n).boot = s.boot := by
  simp [State.countHere]
@[simp] theorem State.setCore_version (s : State) (c : CoreSt) : (s.setCore c).version = s.version := by
  unfold State.setCore; split <;> rfl
@[simp] theorem State.setGang_version (s : State) (g : Gang) : (s.setGang g).version = s.version := by
  unfold State.setGang; split <;> rfl
@[simp] theorem State.modGang_version (s : State) (id : GangId) (f : Gang → Gang) : (s.modGang id f).version = s.version := by
  unfold State.modGang; split <;> simp
@[simp] theorem State.modCore_version (s : State) (ix : Nat) (f : CoreSt → CoreSt) : (s.modCore ix f).version = s.version := by
  simp [State.modCore]
@[simp] theorem State.modCrew_version (s : State) (ctx rank : Nat) (f : Crew → Crew) : (s.modCrew ctx rank f).version = s.version := rfl
@[simp] theorem State.modCtx_version (s : State) (n : Nat) (f : Context → Context) : (s.modCtx n f).version = s.version := rfl
@[simp] theorem State.count_version (s : State) (core ctx event n : Nat) : (s.count core ctx event n).version = s.version := by
  unfold State.count; simp only []; split <;> (try split) <;> simp
@[simp] theorem State.countHere_version (s : State) (event n : Nat) : (s.countHere event n).version = s.version := by
  simp [State.countHere]
@[simp] theorem State.setCore_image (s : State) (c : CoreSt) : (s.setCore c).image = s.image := by
  unfold State.setCore; split <;> rfl
@[simp] theorem State.setGang_image (s : State) (g : Gang) : (s.setGang g).image = s.image := by
  unfold State.setGang; split <;> rfl
@[simp] theorem State.modGang_image (s : State) (id : GangId) (f : Gang → Gang) : (s.modGang id f).image = s.image := by
  unfold State.modGang; split <;> simp
@[simp] theorem State.modCore_image (s : State) (ix : Nat) (f : CoreSt → CoreSt) : (s.modCore ix f).image = s.image := by
  simp [State.modCore]
@[simp] theorem State.modCrew_image (s : State) (ctx rank : Nat) (f : Crew → Crew) : (s.modCrew ctx rank f).image = s.image := rfl
@[simp] theorem State.modCtx_image (s : State) (n : Nat) (f : Context → Context) : (s.modCtx n f).image = s.image := rfl
@[simp] theorem State.count_image (s : State) (core ctx event n : Nat) : (s.count core ctx event n).image = s.image := by
  unfold State.count; simp only []; split <;> (try split) <;> simp
@[simp] theorem State.countHere_image (s : State) (event n : Nat) : (s.countHere event n).image = s.image := by
  simp [State.countHere]
@[simp] theorem State.setCore_stretched (s : State) (c : CoreSt) : (s.setCore c).stretched = s.stretched := by
  unfold State.setCore; split <;> rfl
@[simp] theorem State.setGang_stretched (s : State) (g : Gang) : (s.setGang g).stretched = s.stretched := by
  unfold State.setGang; split <;> rfl
@[simp] theorem State.modGang_stretched (s : State) (id : GangId) (f : Gang → Gang) : (s.modGang id f).stretched = s.stretched := by
  unfold State.modGang; split <;> simp
@[simp] theorem State.modCore_stretched (s : State) (ix : Nat) (f : CoreSt → CoreSt) : (s.modCore ix f).stretched = s.stretched := by
  simp [State.modCore]
@[simp] theorem State.modCrew_stretched (s : State) (ctx rank : Nat) (f : Crew → Crew) : (s.modCrew ctx rank f).stretched = s.stretched := rfl
@[simp] theorem State.modCtx_stretched (s : State) (n : Nat) (f : Context → Context) : (s.modCtx n f).stretched = s.stretched := rfl
@[simp] theorem State.count_stretched (s : State) (core ctx event n : Nat) : (s.count core ctx event n).stretched = s.stretched := by
  unfold State.count; simp only []; split <;> (try split) <;> simp
@[simp] theorem State.countHere_stretched (s : State) (event n : Nat) : (s.countHere event n).stretched = s.stretched := by
  simp [State.countHere]
@[simp] theorem State.setCore_ecc (s : State) (c : CoreSt) : (s.setCore c).ecc = s.ecc := by
  unfold State.setCore; split <;> rfl
@[simp] theorem State.setGang_ecc (s : State) (g : Gang) : (s.setGang g).ecc = s.ecc := by
  unfold State.setGang; split <;> rfl
@[simp] theorem State.modGang_ecc (s : State) (id : GangId) (f : Gang → Gang) : (s.modGang id f).ecc = s.ecc := by
  unfold State.modGang; split <;> simp
@[simp] theorem State.modCore_ecc (s : State) (ix : Nat) (f : CoreSt → CoreSt) : (s.modCore ix f).ecc = s.ecc := by
  simp [State.modCore]
@[simp] theorem State.modCrew_ecc (s : State) (ctx rank : Nat) (f : Crew → Crew) : (s.modCrew ctx rank f).ecc = s.ecc := rfl
@[simp] theorem State.modCtx_ecc (s : State) (n : Nat) (f : Context → Context) : (s.modCtx n f).ecc = s.ecc := rfl
@[simp] theorem State.count_ecc (s : State) (core ctx event n : Nat) : (s.count core ctx event n).ecc = s.ecc := by
  unfold State.count; simp only []; split <;> (try split) <;> simp
@[simp] theorem State.countHere_ecc (s : State) (event n : Nat) : (s.countHere event n).ecc = s.ecc := by
  simp [State.countHere]
@[simp] theorem State.setCore_number (s : State) (c : CoreSt) : (s.setCore c).number = s.number := by
  unfold State.setCore; split <;> rfl
@[simp] theorem State.setGang_number (s : State) (g : Gang) : (s.setGang g).number = s.number := by
  unfold State.setGang; split <;> rfl
@[simp] theorem State.modGang_number (s : State) (id : GangId) (f : Gang → Gang) : (s.modGang id f).number = s.number := by
  unfold State.modGang; split <;> simp
@[simp] theorem State.modCore_number (s : State) (ix : Nat) (f : CoreSt → CoreSt) : (s.modCore ix f).number = s.number := by
  simp [State.modCore]
@[simp] theorem State.modCrew_number (s : State) (ctx rank : Nat) (f : Crew → Crew) : (s.modCrew ctx rank f).number = s.number := rfl
@[simp] theorem State.modCtx_number (s : State) (n : Nat) (f : Context → Context) : (s.modCtx n f).number = s.number := rfl
@[simp] theorem State.count_number (s : State) (core ctx event n : Nat) : (s.count core ctx event n).number = s.number := by
  unfold State.count; simp only []; split <;> (try split) <;> simp
@[simp] theorem State.countHere_number (s : State) (event n : Nat) : (s.countHere event n).number = s.number := by
  simp [State.countHere]
@[simp] theorem State.setCore_hostPort (s : State) (c : CoreSt) : (s.setCore c).hostPort = s.hostPort := by
  unfold State.setCore; split <;> rfl
@[simp] theorem State.setGang_hostPort (s : State) (g : Gang) : (s.setGang g).hostPort = s.hostPort := by
  unfold State.setGang; split <;> rfl
@[simp] theorem State.modGang_hostPort (s : State) (id : GangId) (f : Gang → Gang) : (s.modGang id f).hostPort = s.hostPort := by
  unfold State.modGang; split <;> simp
@[simp] theorem State.modCore_hostPort (s : State) (ix : Nat) (f : CoreSt → CoreSt) : (s.modCore ix f).hostPort = s.hostPort := by
  simp [State.modCore]
@[simp] theorem State.modCrew_hostPort (s : State) (ctx rank : Nat) (f : Crew → Crew) : (s.modCrew ctx rank f).hostPort = s.hostPort := rfl
@[simp] theorem State.modCtx_hostPort (s : State) (n : Nat) (f : Context → Context) : (s.modCtx n f).hostPort = s.hostPort := rfl
@[simp] theorem State.count_hostPort (s : State) (core ctx event n : Nat) : (s.count core ctx event n).hostPort = s.hostPort := by
  unfold State.count; simp only []; split <;> (try split) <;> simp
@[simp] theorem State.countHere_hostPort (s : State) (event n : Nat) : (s.countHere event n).hostPort = s.hostPort := by
  simp [State.countHere]
@[simp] theorem State.setCore_bridged (s : State) (c : CoreSt) : (s.setCore c).bridged = s.bridged := by
  unfold State.setCore; split <;> rfl
@[simp] theorem State.setGang_bridged (s : State) (g : Gang) : (s.setGang g).bridged = s.bridged := by
  unfold State.setGang; split <;> rfl
@[simp] theorem State.modGang_bridged (s : State) (id : GangId) (f : Gang → Gang) : (s.modGang id f).bridged = s.bridged := by
  unfold State.modGang; split <;> simp
@[simp] theorem State.modCore_bridged (s : State) (ix : Nat) (f : CoreSt → CoreSt) : (s.modCore ix f).bridged = s.bridged := by
  simp [State.modCore]
@[simp] theorem State.modCrew_bridged (s : State) (ctx rank : Nat) (f : Crew → Crew) : (s.modCrew ctx rank f).bridged = s.bridged := rfl
@[simp] theorem State.modCtx_bridged (s : State) (n : Nat) (f : Context → Context) : (s.modCtx n f).bridged = s.bridged := rfl
@[simp] theorem State.count_bridged (s : State) (core ctx event n : Nat) : (s.count core ctx event n).bridged = s.bridged := by
  unfold State.count; simp only []; split <;> (try split) <;> simp
@[simp] theorem State.countHere_bridged (s : State) (event n : Nat) : (s.countHere event n).bridged = s.bridged := by
  simp [State.countHere]
@[simp] theorem State.setCore_ports (s : State) (c : CoreSt) : (s.setCore c).ports = s.ports := by
  unfold State.setCore; split <;> rfl
@[simp] theorem State.setGang_ports (s : State) (g : Gang) : (s.setGang g).ports = s.ports := by
  unfold State.setGang; split <;> rfl
@[simp] theorem State.modGang_ports (s : State) (id : GangId) (f : Gang → Gang) : (s.modGang id f).ports = s.ports := by
  unfold State.modGang; split <;> simp
@[simp] theorem State.modCore_ports (s : State) (ix : Nat) (f : CoreSt → CoreSt) : (s.modCore ix f).ports = s.ports := by
  simp [State.modCore]
@[simp] theorem State.modCrew_ports (s : State) (ctx rank : Nat) (f : Crew → Crew) : (s.modCrew ctx rank f).ports = s.ports := rfl
@[simp] theorem State.modCtx_ports (s : State) (n : Nat) (f : Context → Context) : (s.modCtx n f).ports = s.ports := rfl
@[simp] theorem State.count_ports (s : State) (core ctx event n : Nat) : (s.count core ctx event n).ports = s.ports := by
  unfold State.count; simp only []; split <;> (try split) <;> simp
@[simp] theorem State.countHere_ports (s : State) (event n : Nat) : (s.countHere event n).ports = s.ports := by
  simp [State.countHere]
@[simp] theorem State.setCore_tseqs (s : State) (c : CoreSt) : (s.setCore c).tseqs = s.tseqs := by
  unfold State.setCore; split <;> rfl
@[simp] theorem State.setGang_tseqs (s : State) (g : Gang) : (s.setGang g).tseqs = s.tseqs := by
  unfold State.setGang; split <;> rfl
@[simp] theorem State.modGang_tseqs (s : State) (id : GangId) (f : Gang → Gang) : (s.modGang id f).tseqs = s.tseqs := by
  unfold State.modGang; split <;> simp
@[simp] theorem State.modCore_tseqs (s : State) (ix : Nat) (f : CoreSt → CoreSt) : (s.modCore ix f).tseqs = s.tseqs := by
  simp [State.modCore]
@[simp] theorem State.modCrew_tseqs (s : State) (ctx rank : Nat) (f : Crew → Crew) : (s.modCrew ctx rank f).tseqs = s.tseqs := rfl
@[simp] theorem State.modCtx_tseqs (s : State) (n : Nat) (f : Context → Context) : (s.modCtx n f).tseqs = s.tseqs := rfl
@[simp] theorem State.count_tseqs (s : State) (core ctx event n : Nat) : (s.count core ctx event n).tseqs = s.tseqs := by
  unfold State.count; simp only []; split <;> (try split) <;> simp
@[simp] theorem State.countHere_tseqs (s : State) (event n : Nat) : (s.countHere event n).tseqs = s.tseqs := by
  simp [State.countHere]
@[simp] theorem State.setCore_sent (s : State) (c : CoreSt) : (s.setCore c).sent = s.sent := by
  unfold State.setCore; split <;> rfl
@[simp] theorem State.setGang_sent (s : State) (g : Gang) : (s.setGang g).sent = s.sent := by
  unfold State.setGang; split <;> rfl
@[simp] theorem State.modGang_sent (s : State) (id : GangId) (f : Gang → Gang) : (s.modGang id f).sent = s.sent := by
  unfold State.modGang; split <;> simp
@[simp] theorem State.modCore_sent (s : State) (ix : Nat) (f : CoreSt → CoreSt) : (s.modCore ix f).sent = s.sent := by
  simp [State.modCore]
@[simp] theorem State.modCrew_sent (s : State) (ctx rank : Nat) (f : Crew → Crew) : (s.modCrew ctx rank f).sent = s.sent := rfl
@[simp] theorem State.modCtx_sent (s : State) (n : Nat) (f : Context → Context) : (s.modCtx n f).sent = s.sent := rfl
@[simp] theorem State.count_sent (s : State) (core ctx event n : Nat) : (s.count core ctx event n).sent = s.sent := by
  unfold State.count; simp only []; split <;> (try split) <;> simp
@[simp] theorem State.countHere_sent (s : State) (event n : Nat) : (s.countHere event n).sent = s.sent := by
  simp [State.countHere]
@[simp] theorem State.setCore_applied (s : State) (c : CoreSt) : (s.setCore c).applied = s.applied := by
  unfold State.setCore; split <;> rfl
@[simp] theorem State.setGang_applied (s : State) (g : Gang) : (s.setGang g).applied = s.applied := by
  unfold State.setGang; split <;> rfl
@[simp] theorem State.modGang_applied (s : State) (id : GangId) (f : Gang → Gang) : (s.modGang id f).applied = s.applied := by
  unfold State.modGang; split <;> simp
@[simp] theorem State.modCore_applied (s : State) (ix : Nat) (f : CoreSt → CoreSt) : (s.modCore ix f).applied = s.applied := by
  simp [State.modCore]
@[simp] theorem State.modCrew_applied (s : State) (ctx rank : Nat) (f : Crew → Crew) : (s.modCrew ctx rank f).applied = s.applied := rfl
@[simp] theorem State.modCtx_applied (s : State) (n : Nat) (f : Context → Context) : (s.modCtx n f).applied = s.applied := rfl
@[simp] theorem State.count_applied (s : State) (core ctx event n : Nat) : (s.count core ctx event n).applied = s.applied := by
  unfold State.count; simp only []; split <;> (try split) <;> simp
@[simp] theorem State.countHere_applied (s : State) (event n : Nat) : (s.countHere event n).applied = s.applied := by
  simp [State.countHere]
@[simp] theorem State.setCore_discarded (s : State) (c : CoreSt) : (s.setCore c).discarded = s.discarded := by
  unfold State.setCore; split <;> rfl
@[simp] theorem State.setGang_discarded (s : State) (g : Gang) : (s.setGang g).discarded = s.discarded := by
  unfold State.setGang; split <;> rfl
@[simp] theorem State.modGang_discarded (s : State) (id : GangId) (f : Gang → Gang) : (s.modGang id f).discarded = s.discarded := by
  unfold State.modGang; split <;> simp
@[simp] theorem State.modCore_discarded (s : State) (ix : Nat) (f : CoreSt → CoreSt) : (s.modCore ix f).discarded = s.discarded := by
  simp [State.modCore]
@[simp] theorem State.modCrew_discarded (s : State) (ctx rank : Nat) (f : Crew → Crew) : (s.modCrew ctx rank f).discarded = s.discarded := rfl
@[simp] theorem State.modCtx_discarded (s : State) (n : Nat) (f : Context → Context) : (s.modCtx n f).discarded = s.discarded := rfl
@[simp] theorem State.count_discarded (s : State) (core ctx event n : Nat) : (s.count core ctx event n).discarded = s.discarded := by
  unfold State.count; simp only []; split <;> (try split) <;> simp
@[simp] theorem State.countHere_discarded (s : State) (event n : Nat) : (s.countHere event n).discarded = s.discarded := by
  simp [State.countHere]
@[simp] theorem State.setCore_nextCtx (s : State) (c : CoreSt) : (s.setCore c).nextCtx = s.nextCtx := by
  unfold State.setCore; split <;> rfl
@[simp] theorem State.setGang_nextCtx (s : State) (g : Gang) : (s.setGang g).nextCtx = s.nextCtx := by
  unfold State.setGang; split <;> rfl
@[simp] theorem State.modGang_nextCtx (s : State) (id : GangId) (f : Gang → Gang) : (s.modGang id f).nextCtx = s.nextCtx := by
  unfold State.modGang; split <;> simp
@[simp] theorem State.modCore_nextCtx (s : State) (ix : Nat) (f : CoreSt → CoreSt) : (s.modCore ix f).nextCtx = s.nextCtx := by
  simp [State.modCore]
@[simp] theorem State.modCrew_nextCtx (s : State) (ctx rank : Nat) (f : Crew → Crew) : (s.modCrew ctx rank f).nextCtx = s.nextCtx := rfl
@[simp] theorem State.modCtx_nextCtx (s : State) (n : Nat) (f : Context → Context) : (s.modCtx n f).nextCtx = s.nextCtx := rfl
@[simp] theorem State.count_nextCtx (s : State) (core ctx event n : Nat) : (s.count core ctx event n).nextCtx = s.nextCtx := by
  unfold State.count; simp only []; split <;> (try split) <;> simp
@[simp] theorem State.countHere_nextCtx (s : State) (event n : Nat) : (s.countHere event n).nextCtx = s.nextCtx := by
  simp [State.countHere]
@[simp] theorem State.setCore_tick (s : State) (c : CoreSt) : (s.setCore c).tick = s.tick := by
  unfold State.setCore; split <;> rfl
@[simp] theorem State.setGang_tick (s : State) (g : Gang) : (s.setGang g).tick = s.tick := by
  unfold State.setGang; split <;> rfl
@[simp] theorem State.modGang_tick (s : State) (id : GangId) (f : Gang → Gang) : (s.modGang id f).tick = s.tick := by
  unfold State.modGang; split <;> simp
@[simp] theorem State.modCore_tick (s : State) (ix : Nat) (f : CoreSt → CoreSt) : (s.modCore ix f).tick = s.tick := by
  simp [State.modCore]
@[simp] theorem State.modCrew_tick (s : State) (ctx rank : Nat) (f : Crew → Crew) : (s.modCrew ctx rank f).tick = s.tick := rfl
@[simp] theorem State.modCtx_tick (s : State) (n : Nat) (f : Context → Context) : (s.modCtx n f).tick = s.tick := rfl
@[simp] theorem State.count_tick (s : State) (core ctx event n : Nat) : (s.count core ctx event n).tick = s.tick := by
  unfold State.count; simp only []; split <;> (try split) <;> simp
@[simp] theorem State.countHere_tick (s : State) (event n : Nat) : (s.countHere event n).tick = s.tick := by
  simp [State.countHere]
@[simp] theorem State.setCore_freeIx (s : State) (c : CoreSt) : (s.setCore c).freeIx = s.freeIx := by
  unfold State.setCore; split <;> rfl
@[simp] theorem State.setGang_freeIx (s : State) (g : Gang) : (s.setGang g).freeIx = s.freeIx := by
  unfold State.setGang; split <;> rfl
@[simp] theorem State.modGang_freeIx (s : State) (id : GangId) (f : Gang → Gang) : (s.modGang id f).freeIx = s.freeIx := by
  unfold State.modGang; split <;> simp
@[simp] theorem State.modCore_freeIx (s : State) (ix : Nat) (f : CoreSt → CoreSt) : (s.modCore ix f).freeIx = s.freeIx := by
  simp [State.modCore]
@[simp] theorem State.modCrew_freeIx (s : State) (ctx rank : Nat) (f : Crew → Crew) : (s.modCrew ctx rank f).freeIx = s.freeIx := rfl
@[simp] theorem State.modCtx_freeIx (s : State) (n : Nat) (f : Context → Context) : (s.modCtx n f).freeIx = s.freeIx := rfl
@[simp] theorem State.count_freeIx (s : State) (core ctx event n : Nat) : (s.count core ctx event n).freeIx = s.freeIx := by
  unfold State.count; simp only []; split <;> (try split) <;> simp
@[simp] theorem State.countHere_freeIx (s : State) (event n : Nat) : (s.countHere event n).freeIx = s.freeIx := by
  simp [State.countHere]
@[simp] theorem State.setCore_streak (s : State) (c : CoreSt) : (s.setCore c).streak = s.streak := by
  unfold State.setCore; split <;> rfl
@[simp] theorem State.setGang_streak (s : State) (g : Gang) : (s.setGang g).streak = s.streak := by
  unfold State.setGang; split <;> rfl
@[simp] theorem State.modGang_streak (s : State) (id : GangId) (f : Gang → Gang) : (s.modGang id f).streak = s.streak := by
  unfold State.modGang; split <;> simp
@[simp] theorem State.modCore_streak (s : State) (ix : Nat) (f : CoreSt → CoreSt) : (s.modCore ix f).streak = s.streak := by
  simp [State.modCore]
@[simp] theorem State.modCrew_streak (s : State) (ctx rank : Nat) (f : Crew → Crew) : (s.modCrew ctx rank f).streak = s.streak := rfl
@[simp] theorem State.modCtx_streak (s : State) (n : Nat) (f : Context → Context) : (s.modCtx n f).streak = s.streak := rfl
@[simp] theorem State.count_streak (s : State) (core ctx event n : Nat) : (s.count core ctx event n).streak = s.streak := by
  unfold State.count; simp only []; split <;> (try split) <;> simp
@[simp] theorem State.countHere_streak (s : State) (event n : Nat) : (s.countHere event n).streak = s.streak := by
  simp [State.countHere]
@[simp] theorem State.setCore_agenda (s : State) (c : CoreSt) : (s.setCore c).agenda = s.agenda := by
  unfold State.setCore; split <;> rfl
@[simp] theorem State.setGang_agenda (s : State) (g : Gang) : (s.setGang g).agenda = s.agenda := by
  unfold State.setGang; split <;> rfl
@[simp] theorem State.modGang_agenda (s : State) (id : GangId) (f : Gang → Gang) : (s.modGang id f).agenda = s.agenda := by
  unfold State.modGang; split <;> simp
@[simp] theorem State.modCore_agenda (s : State) (ix : Nat) (f : CoreSt → CoreSt) : (s.modCore ix f).agenda = s.agenda := by
  simp [State.modCore]
@[simp] theorem State.modCrew_agenda (s : State) (ctx rank : Nat) (f : Crew → Crew) : (s.modCrew ctx rank f).agenda = s.agenda := rfl
@[simp] theorem State.modCtx_agenda (s : State) (n : Nat) (f : Context → Context) : (s.modCtx n f).agenda = s.agenda := rfl
@[simp] theorem State.count_agenda (s : State) (core ctx event n : Nat) : (s.count core ctx event n).agenda = s.agenda := by
  unfold State.count; simp only []; split <;> (try split) <;> simp
@[simp] theorem State.countHere_agenda (s : State) (event n : Nat) : (s.countHere event n).agenda = s.agenda := by
  simp [State.countHere]

end Sys2Proof.Machine
end

