-- ==== Sys2Proof/Laws/Retire.lean ====
section
/-! SUPPORT. What one unit does around its effect: a unit that completes retires (`unit_done`, `unit_jumped`), and retiring
changes control and counts only. -/
namespace Sys2Proof.Laws
open Sys2Proof.Machine Sys2Proof.Safety

/-! ## Lists changed at their first match -/

theorem find_updateFirst_other {α : Type} (p q : α → Bool) (y : α) (hq : q y = false) (hpq : ∀ x, p x = true → q x = false) :
    ∀ l : List α, (updateFirst p (fun _ => y) l).find? q = l.find? q
  | [] => rfl
  | z :: r => by
    by_cases hz : p z = true
    · simp [updateFirst, hz, hq, hpq z hz]
    · cases hqz : q z <;> simp [updateFirst, hz, hqz, find_updateFirst_other p q y hq hpq r]

theorem find_updateFirst_self {α : Type} (p : α → Bool) (y : α) (hy : p y = true) :
    ∀ l : List α, l.any p = true → (updateFirst p (fun _ => y) l).find? p = some y
  | [], h => by simp at h
  | z :: r, h => by
    by_cases hz : p z = true
    · simp [updateFirst, hz, hy]
    · have : r.any p = true := by simpa [hz] using h
      simp [updateFirst, hz, find_updateFirst_self p y hy r this]

theorem find_none_of_any {α : Type} {p : α → Bool} {l : List α} (h : l.any p = false) : l.find? p = none := by
  rw [List.find?_eq_none]; intro x hx; simp only [List.any_eq_false] at h; simpa using h x hx

/-! ## Cores -/

theorem core_ix (s : State) (n : Nat) : (s.core n).ix = n := by
  unfold State.core
  cases h : s.cores.find? fun c => c.ix == n with
  | none => rfl
  | some c => simpa using List.find?_some h

/-- Reading a core after setting one. -/
theorem core_setCore (s : State) (c : CoreSt) (n : Nat) : (s.setCore c).core n = if n = c.ix then c else s.core n := by
  unfold State.setCore
  split
  · next h =>
    split
    · next e =>
      subst e; unfold State.core
      rw [find_updateFirst_self (fun d : CoreSt => d.ix == c.ix) c (by simp) _ h]; rfl
    · next e =>
      unfold State.core
      rw [find_updateFirst_other]
      · simp; omega
      · intro x hx; simp at hx; simp [hx]; omega
  · next h =>
    simp only [Bool.not_eq_true] at h
    unfold State.core
    rw [List.find?_append]
    split
    · next e => subst e; simp [find_none_of_any h]
    · next e =>
      have : ([c] : List CoreSt).find? (fun d => d.ix == n) = none := by simp; omega
      rw [this]; cases s.cores.find? (fun c => c.ix == n) <;> rfl

theorem core_modCore (s : State) (m : Nat) (f : CoreSt → CoreSt) (hf : ∀ c, (f c).ix = c.ix) (n : Nat) :
    (s.modCore m f).core n = if n = m then f (s.core m) else s.core n := by
  unfold State.modCore; rw [core_setCore, hf, core_ix]

/-- A core changed in a way a test does not see. -/
theorem core_modCore_same {β : Type} (q : CoreSt → β) {s : State} {m : Nat} {f : CoreSt → CoreSt} (hi : ∀ c, (f c).ix = c.ix)
    (hf : ∀ c, q (f c) = q c) (n : Nat) : q ((s.modCore m f).core n) = q (s.core n) := by
  rw [core_modCore s m f hi]
  split
  · next e => rw [hf, e]
  · rfl

/-- Setting a core changes the cores only. -/
theorem setCore_eq (s : State) (c : CoreSt) : s.setCore c = { s with cores := (s.setCore c).cores } := by
  unfold State.setCore; split <;> rfl

theorem modCore_eq (s : State) (n : Nat) (f : CoreSt → CoreSt) : s.modCore n f = { s with cores := (s.modCore n f).cores } :=
  setCore_eq _ _

theorem count_eq (s : State) (core ctx ev n : Nat) : s.count core ctx ev n = { s with cores := (s.count core ctx ev n).cores } := by
  unfold State.count; simp only; split
  · split <;> exact setCore_eq _ _
  · rfl

theorem countHere_eq (s : State) (ev n : Nat) : s.countHere ev n = { s with cores := (s.countHere ev n).cores } := count_eq _ _ _ _ _

/-- A test on cores that sees neither counters nor unit counts. -/
def blind {β : Type} (q : CoreSt → β) : Prop :=
  (∀ c v r, q { c with ctrVal := v, ctrRan := r } = q c) ∧ ∀ c v, q { c with units := v } = q c

theorem blind_calm : blind calmCore := ⟨fun _ _ _ => rfl, fun _ _ => rfl⟩
theorem blind_bare : blind bareCore := ⟨fun _ _ _ => rfl, fun _ _ => rfl⟩

/-- Counting changes counters only (R345). -/
theorem core_count {β : Type} {q : CoreSt → β} (hq : blind q) (s : State) (core ctx ev n m : Nat) :
    q ((s.count core ctx ev n).core m) = q (s.core m) := by
  unfold State.count
  simp only
  split
  · split
    · rw [core_setCore]
      split
      · next e => exact (hq.1 _ _ _).trans (by rw [core_ix] at e; rw [e])
      · rfl
    · rw [core_setCore]
      split
      · next e => exact (hq.1 _ _ _).trans (by rw [core_ix] at e; rw [e])
      · rfl
  · rfl

theorem core_countHere {β : Type} {q : CoreSt → β} (hq : blind q) (s : State) (ev n m : Nat) :
    q ((s.countHere ev n).core m) = q (s.core m) := core_count hq _ _ _ _ _ _

/-! ## Counting a unit -/

theorem cores_trans {s t u : State} (h1 : t = { s with cores := t.cores }) (h2 : u = { t with cores := u.cores }) :
    u = { s with cores := u.cores } := by rw [h2, h1]

/-- Counting a unit changes the gang's count of units and the cores' counts. -/
theorem countUnit_eq (s : State) (k : UnitKind) (act : Mask) (sup cnt : Bool) :
    s.countUnit k act sup cnt = { s with
      cur := if sup then s.cur else { s.cur with retired := s.cur.retired + 1 }
      cores := (s.countUnit k act sup cnt).cores } := by
  have e2 (u : State) (p : Bool) (n : Nat) (f : CoreSt → CoreSt) : (if p then u.modCore n f else u) =
      { u with cores := (if p then u.modCore n f else u).cores } := by
    split
    · exact modCore_eq _ _ _
    · rfl
  have e3 (v : State) : (if cnt then v else v.countHere 1 1) = { v with cores := (if cnt then v else v.countHere 1 1).cores } := by
    split
    · rfl
    · exact countHere_eq _ _ _
  cases sup <;>
  · unfold State.countUnit
    simp only [if_true, if_false, Bool.false_eq_true]
    split
    · exact cores_trans (cores_trans (cores_trans (e2 _ _ _ _) (e3 _)) (countHere_eq _ _ _)) (countHere_eq _ _ _)
    · exact cores_trans (e2 _ _ _ _) (e3 _)

/-- What counting a unit leaves of the cores. -/
theorem core_countUnit {β : Type} {q : CoreSt → β} (hq : blind q) (s : State) (k : UnitKind) (act : Mask) (sup cnt : Bool)
    (n : Nat) : q ((s.countUnit k act sup cnt).core n) = q (s.core n) := by
  have e1 (s : State) : (if sup then s else s.modCur fun g => { g with retired := g.retired + 1 }).core n = s.core n := by
    split <;> rfl
  have e2 (s : State) (core : Nat) : q ((if s.cores.any (fun c => c.ix == core) then
      s.modCore core fun c => { c with units := c.units + 1 } else s).core n) = q (s.core n) := by
    split
    · exact core_modCore_same q (f := fun c => { c with units := c.units + 1 }) (fun _ => rfl) (fun c => hq.2 c (c.units + 1)) n
    · rfl
  have e3 (s : State) : q ((if cnt then s else s.countHere 1 1).core n) = q (s.core n) := by
    split
    · rfl
    · exact core_countHere hq _ _ _ _
  unfold State.countUnit
  simp only
  split
  · rw [core_countHere hq, core_countHere hq, e3, e2, e1]
  · rw [e3, e2, e1]

/-! ## Fragments -/

@[simp] theorem calmGang_setEntry (g : Gang) (i : Nat) (e : Option Entry) : calmGang (g.setEntry i e) = calmGang g := rfl

theorem calmGang_foldl_setEntry (l : List (Nat × Entry)) (g : Gang) :
    calmGang (l.foldl (fun g p => g.setEntry p.1 none) g) = calmGang g := by
  induction l generalizing g with
  | nil => rfl
  | cons p r ih => simp [ih]

/-- Fusing fragments changes control only (R43). -/
theorem calmGang_fuse (n : Nat) (g : Gang) (id : Nat) : calmGang (Gang.fuse n g id) = calmGang g := by
  induction n generalizing g id with
  | zero => rfl
  | succ n ih =>
    have base (l : List (Nat × Entry)) (g' : Gang)
        (h : calmGang g' = calmGang (l.foldl (fun g p => g.setEntry p.1 none) g)) : calmGang g' = calmGang g :=
      h.trans (calmGang_foldl_setEntry l g)
    unfold Gang.fuse
    split
    · rfl
    · simp only
      split
      · split
        · rfl
        · split
          · next => exact base _ _ rfl
          · split
            · rw [ih]; exact base _ _ rfl
            · exact base _ _ rfl
      · rfl

/-- Parking changes control only (R43). -/
theorem calmGang_settle (g : Gang) : calmGang g.settle = calmGang g := by
  unfold Gang.settle
  split
  · rfl
  · split
    · rfl
    · split
      · exact calmGang_fuse _ _ _
      · rfl

/-- A fragment that does not park goes on. -/
theorem settle_of_not_parks {g : Gang} (h : parks g g.ctl.pc = false) :
    g.settle.ctl = g.ctl ∧ g.settle.frag = g.frag := by
  unfold parks at h
  unfold Gang.settle
  split
  · exact ⟨rfl, rfl⟩
  · next hf =>
    split
    · exact ⟨rfl, rfl⟩
    · next he =>
      simp only [hf, Option.bind_some, he] at h
      simp [h, Gang.setEntry, hf]

/-- All that decides which splits are live: those there are, and where a handler runs. -/
def shape (g : Gang) : List Split × Bool × List Bool := (g.splits, g.supervisor, g.frames.map Frame.handler)

theorem liveSplit_of_shape {g h : Gang} (e : shape g = shape h) : g.liveSplit = h.liveSplit := by
  have h1 : g.splits = h.splits := congrArg Prod.fst e
  have h2 : g.supervisor = h.supervisor := congrArg (fun x => x.2.1) e
  have h3 : g.frames.map Frame.handler = h.frames.map Frame.handler := congrArg (fun x => x.2.2) e
  have hi (x : Gang) : x.frames.findIdx (fun f => f.handler) = (x.frames.map Frame.handler).findIdx id := by
    rw [List.findIdx_map]; rfl
  have hn (x : Gang) : x.frames.length = (x.frames.map Frame.handler).length := by simp
  funext i
  simp only [Gang.liveSplit, Gang.split?, Gang.handlerBase, hi, hn, h1, h2, h3]

/-! ## One unit -/

/-- A unit whose effect is complete retires. -/
theorem runUnit_done {k : UnitKind} {sw : Bool} {s : State} {body : State → Try Done} {d : Done} (h : mayRun k s)
    (hb : body (s.begun k) = .ok d) (hh : d.hold = none) :
    runUnit k sw s body = .next (retire k sw s.cur.ctl.pc s.cur.act s.cur.supervisor d) := by
  obtain ⟨h1, h2, h3⟩ := h
  have hp : (k.priv && !s.cur.supervisor) = false := by cases e : k.priv <;> simp_all
  have ht : (k.serial && !s.cur.serialTurn) = false := by cases e : k.serial <;> simp_all
  simp only [runUnit, h1, Bool.not_true, hp, ht, hb, hh, Bool.false_eq_true, if_false]

/-- A unit that faults takes the fault (R335). -/
theorem runUnit_fault {k : UnitKind} {sw : Bool} {s : State} {body : State → Try Done} {c : BitVec 8} (h : mayRun k s)
    (hb : body (s.begun k) = .error (.fault c)) : runUnit k sw s body = .next ((s.begun k).takePrecise s.cur.id c k.len) := by
  obtain ⟨h1, h2, h3⟩ := h
  have hp : (k.priv && !s.cur.supervisor) = false := by cases e : k.priv <;> simp_all
  have ht : (k.serial && !s.cur.serialTurn) = false := by cases e : k.serial <;> simp_all
  simp only [runUnit, h1, Bool.not_true, hp, ht, hb, Bool.false_eq_true, if_false]

/-- Beginning a unit changes the turn of a fragment only. -/
theorem begun_eq (s : State) (k : UnitKind) :
    s.begun k = { s with cur := { s.cur with ctl := { s.cur.ctl with turn := (s.begun k).cur.ctl.turn } } } := by
  unfold State.begun; split <;> rfl

theorem calmly_refl (s : State) : calmly s s := ⟨rfl, fun _ => rfl⟩
theorem calmly_trans {s t u : State} (h : calmly s t) (k : calmly t u) : calmly s u :=
  ⟨k.1.trans h.1, fun n => (k.2 n).trans (h.2 n)⟩
theorem barely_refl (s : State) : barely s s := ⟨rfl, fun _ => rfl⟩
theorem barely_trans {s t u : State} (h : barely s t) (k : barely t u) : barely s u :=
  ⟨k.1.trans h.1, fun n => (k.2 n).trans (h.2 n)⟩

theorem calmly_begun (s : State) (k : UnitKind) : calmly s (s.begun k) := by
  rw [begun_eq]; exact ⟨rfl, fun _ => rfl⟩

theorem barely_of_calmly {s t : State} (h : calmly s t) : barely s t := by
  have e (s : State) : bare s = bare (calm s) := by
    simp [bare, calm, bareGang, calmGang, Gang.modTop]
  refine ⟨by rw [e t, h.1, ← e s], fun n => ?_⟩
  have e (c : CoreSt) : bareCore c = bareCore (calmCore c) := rfl
  rw [e (t.core n), h.2 n, ← e]

/-- The gang of a unit that has retired to an address, before it parks. -/
def passed (g : Gang) (pc : Pc) (marks : List Nat) (ret : Nat) (bar : Option (Pc × Nat)) : Gang :=
  { g with ctl := { g.ctl with pc := pc, wait := .ready, redo := none, marks := marks }, retired := ret, barAt := bar }

/-- What a unit without a fault leaves. -/
theorem retire_plain (k : UnitKind) (sw : Bool) (pc : Pc) (act : Mask) (sup : Bool) (d : Done) (hm : d.moved = false)
    (hl : d.lane = none) (ht : d.trap = none) : ∃ cores marks ret bar,
      retire k sw pc act sup d = { d.st with
        cur := (passed d.st.cur (d.target.getD
          (match d.st.cur.ctl.redo with | some r => r.resume | none => pc + BitVec.ofNat 57 k.len)) marks ret bar).settle
        cores := cores } ∧
      ∀ {β : Type} (q : CoreSt → β), blind q → ∀ n, q (({ d.st with cores := cores } : State).core n) = q (d.st.core n) := by
  refine ⟨(d.st.countUnit k act sup d.counted).cores, if sw then (d.st.countUnit k act sup d.counted).cur.outstanding else [],
    (if sup then d.st.cur.retired else d.st.cur.retired + 1),
    (if sup then d.st.cur.barAt else d.st.cur.barAt.filter fun b => b.1 == (d.target.getD
      (match d.st.cur.ctl.redo with | some r => r.resume | none => pc + BitVec.ofNat 57 k.len))), ?_, fun q h n => ?_⟩
  · unfold retire
    simp only [hm, hl, ht, Bool.false_eq_true, if_false, Option.isNone_none, Bool.and_true]
    rw [countUnit_eq]
    cases sup <;> rfl
  · rw [← core_countUnit h d.st k act sup d.counted n]; rfl

theorem calmly_retire (k : UnitKind) (sw : Bool) (pc : Pc) (act : Mask) (sup : Bool) (d : Done) (hm : d.moved = false)
    (hl : d.lane = none) (ht : d.trap = none) : calmly d.st (retire k sw pc act sup d) := by
  obtain ⟨cores, marks, ret, bar, e, hc⟩ := retire_plain k sw pc act sup d hm hl ht
  rw [e]
  refine ⟨?_, fun n => ?_⟩
  · simp only [calm, calmGang_settle]; rfl
  · rw [← hc calmCore blind_calm n]; rfl

/-! ## Control kept -/

/-- Control is where it was: all that decides where a retiring unit goes on. -/
def ctlKept (s u : State) : Prop :=
  u.cur.ctl.mask = s.cur.ctl.mask ∧ u.cur.ctl.redo = s.cur.ctl.redo ∧ u.cur.frag = s.cur.frag ∧ u.cur.table = s.cur.table ∧
    shape u.cur = shape s.cur

theorem ctlKept_refl (s : State) : ctlKept s s := ⟨rfl, rfl, rfl, rfl, rfl⟩

theorem ctlKept_trans {s t u : State} (h : ctlKept s t) (k : ctlKept t u) : ctlKept s u :=
  ⟨k.1.trans h.1, k.2.1.trans h.2.1, k.2.2.1.trans h.2.2.1, k.2.2.2.1.trans h.2.2.2.1,
    k.2.2.2.2.trans h.2.2.2.2⟩

theorem ctlKept_begun (s : State) (k : UnitKind) : ctlKept s (s.begun k) := by
  rw [begun_eq]; exact ⟨rfl, rfl, rfl, rfl, rfl⟩

theorem settle_passed {s : State} {g : Gang} {pc : Pc} {marks : List Nat} {ret : Nat} {bar : Option (Pc × Nat)}
    (hm : g.ctl.mask = s.cur.ctl.mask) (hf : g.frag = s.cur.frag) (ht : g.table = s.cur.table)
    (hs : shape g = shape s.cur) (hp : parks s.cur pc = false) :
    (passed g pc marks ret bar).settle.ctl.pc = pc ∧ (passed g pc marks ret bar).settle.ctl.mask = s.cur.ctl.mask ∧
      (passed g pc marks ret bar).settle.frag = s.cur.frag ∧ (passed g pc marks ret bar).settle.ctl.wait = .ready := by
  have he : (passed g pc marks ret bar).entry? = s.cur.entry? := by funext i; simp only [Gang.entry?, passed, ht]
  have hl : (passed g pc marks ret bar).liveSplit = s.cur.liveSplit := liveSplit_of_shape hs
  obtain ⟨a, b⟩ := settle_of_not_parks (g := passed g pc marks ret bar) (by
    unfold parks at hp ⊢
    rw [he, hl]; simpa only [passed, hf] using hp)
  rw [a, b]; exact ⟨rfl, hm, hf, rfl⟩

/-- A unit that only had an effect retires to the next address. -/
theorem unit_done {k : UnitKind} {sw : Bool} {s u : State} {body : State → Try Done} (h : mayRun k s)
    (hb : body (s.begun k) = .ok (done u)) (hc : ctlKept s u) :
    ∃ t, runUnit k sw s body = .next t ∧ calmly u t ∧ goesTo s t (after s.cur k.len) := by
  refine ⟨_, runUnit_done h hb rfl, calmly_retire _ _ _ _ _ _ rfl rfl rfl, fun hp => ?_⟩
  obtain ⟨cores, marks, ret, bar, e, -⟩ := retire_plain k sw s.cur.ctl.pc s.cur.act s.cur.supervisor (done u) rfl rfl rfl
  rw [e]
  have hpc : (done u).target.getD (match (done u).st.cur.ctl.redo with
      | some r => r.resume | none => s.cur.ctl.pc + BitVec.ofNat 57 k.len) = after s.cur k.len := by
    have hr : (done u).st.cur.ctl.redo = s.cur.ctl.redo := hc.2.1
    rw [hr]; unfold after; cases s.cur.ctl.redo <;> rfl
  rw [hpc]
  exact settle_passed hc.1 hc.2.2.1 hc.2.2.2.1 hc.2.2.2.2 hp

/-- A unit that only jumped retires to its target. -/
theorem unit_jumped {k : UnitKind} {sw : Bool} {s u : State} {pc : Pc} {body : State → Try Done} (h : mayRun k s)
    (hb : body (s.begun k) = .ok (jumped u pc)) (hc : ctlKept s u) :
    ∃ t, runUnit k sw s body = .next t ∧ calmly u t ∧ goesTo s t pc := by
  refine ⟨_, runUnit_done h hb rfl, calmly_retire _ _ _ _ _ _ rfl rfl rfl, fun hp => ?_⟩
  obtain ⟨cores, marks, ret, bar, e, -⟩ := retire_plain k sw s.cur.ctl.pc s.cur.act s.cur.supervisor (jumped u pc) rfl rfl rfl
  rw [e]
  exact settle_passed hc.1 hc.2.2.1 hc.2.2.2.1 hc.2.2.2.2 hp

end Sys2Proof.Laws
end

