-- ==== Sys2Proof/Laws/Registers.lean ====
section
/-! SUPPORT. Writing registers: the rows a write draws and releases, and the contents it leaves (R53 to R55). -/
namespace Sys2Proof.Laws
open Sys2Proof.Machine Sys2Proof.Safety

/-! ## Lists -/

@[simp] theorem setAt_length {α : Type} : ∀ (l : List α) (i : Nat) (x : α), (setAt l i x).length = l.length
  | [], _, _ => rfl
  | _ :: _, 0, _ => rfl
  | _ :: r, i + 1, x => by simp [setAt, setAt_length r i x]

theorem setAt_get {α : Type} : ∀ (l : List α) (i j : Nat) (x : α),
    (setAt l i x)[j]? = if j = i ∧ i < l.length then some x else l[j]?
  | [], i, j, x => by simp [setAt]
  | y :: r, 0, j, x => by cases j <;> simp [setAt]
  | y :: r, i + 1, j, x => by
    cases j with
    | zero => simp [setAt]
    | succ j => simp [setAt, setAt_get r i j x]

/-! ## Rows -/

/-- Only rows and what the allocator keeps of them differ. -/
def rowsOnly (s u : State) : Prop :=
  barely s u ∧ u.cur.regs = s.cur.regs ∧ u.cur.ctl = s.cur.ctl ∧ u.cur.frag = s.cur.frag ∧ u.cur.table = s.cur.table ∧
    shape u.cur = shape s.cur

theorem rowsOnly_refl (s : State) : rowsOnly s s := ⟨barely_refl s, rfl, rfl, rfl, rfl, rfl⟩

theorem rowsOnly_trans {s t u : State} (h : rowsOnly s t) (k : rowsOnly t u) : rowsOnly s u :=
  ⟨barely_trans h.1 k.1, k.2.1.trans h.2.1, k.2.2.1.trans h.2.2.1, k.2.2.2.1.trans h.2.2.2.1,
    k.2.2.2.2.1.trans h.2.2.2.2.1, k.2.2.2.2.2.trans h.2.2.2.2.2⟩

theorem bare_cur {s u : State} (h : barely s u) : bareGang u.cur = bareGang s.cur := congrArg State.cur h.1
theorem bare_supervisor {s u : State} (h : barely s u) : u.cur.supervisor = s.cur.supervisor := (congrArg Gang.supervisor (bare_cur h) :)
theorem bare_live {s u : State} (h : barely s u) : u.cur.live = s.cur.live := (congrArg Gang.live (bare_cur h) :)
theorem bare_id {s u : State} (h : barely s u) : u.cur.id = s.cur.id := (congrArg Gang.id (bare_cur h) :)
theorem bare_masks {s u : State} (h : barely s u) : u.cur.masks = s.cur.masks := (congrArg Gang.masks (bare_cur h) :)
theorem bare_mode {s u : State} (h : barely s u) : u.cur.mode = s.cur.mode := (congrArg Gang.mode (bare_cur h) :)
theorem bare_crews {s u : State} (h : barely s u) : u.crews = s.crews := (congrArg State.crews h.1 :)
theorem bare_contexts {s u : State} (h : barely s u) : u.contexts = s.contexts := (congrArg State.contexts h.1 :)

theorem rowsOnly_ctlKept {s u : State} (h : rowsOnly s u) : ctlKept s u :=
  ⟨congrArg Ctl.mask h.2.2.1, congrArg Ctl.redo h.2.2.1, h.2.2.2.1, h.2.2.2.2.1, h.2.2.2.2.2⟩

/-- Free rows of one core changed. -/
theorem rowsOnly_modCore (s : State) (n : Nat) (f : CoreSt → CoreSt) (hi : ∀ c, (f c).ix = c.ix)
    (hf : ∀ c, bareCore (f c) = bareCore c) : rowsOnly s (s.modCore n f) := by
  refine ⟨⟨?_, core_modCore_same bareCore hi hf⟩, ?_, ?_, ?_, ?_, ?_⟩ <;> rw [modCore_eq] <;> rfl

theorem give_ix (c : CoreSt) (r k : Nat) : ((c.giveRows r).giveCompact k).ix = c.ix := rfl
theorem give_bare (c : CoreSt) (r k : Nat) : bareCore ((c.giveRows r).giveCompact k) = bareCore c := rfl

/-- Changing in every gang nothing but the choice to spill it. -/
theorem rowsOnly_mapGangs (s : State) (q : Gang → Gang)
    (hb : ∀ g : Gang, ({ q g with chosen := false } : Gang) = { g with chosen := false }) : rowsOnly s (s.mapGangs q) := by
  have hc : (s.mapGangs q).cur = q s.cur ∨ (s.mapGangs q).cur = s.cur := by
    unfold State.mapGangs; cases s.cur.live <;> simp
  have ho : (s.mapGangs q).others.map (fun g => ({ g with chosen := false } : Gang)) =
      s.others.map fun g => { g with chosen := false } := by
    simp only [State.mapGangs, List.map_map]; exact List.map_congr_left fun g _ => hb g
  have key (g : Gang) (h : g = q s.cur ∨ g = s.cur) :
      bareGang g = bareGang s.cur ∧ g.regs = s.cur.regs ∧ g.ctl = s.cur.ctl ∧ g.frag = s.cur.frag ∧ g.table = s.cur.table ∧
        shape g = shape s.cur := by
    obtain h | h := h <;> subst h
    · have e (g : Gang) : bareGang g = bareGang { g with chosen := false } := rfl
      have f (g : Gang) : g.regs = ({ g with chosen := false } : Gang).regs := rfl
      have k (g : Gang) : shape g = shape { g with chosen := false } := rfl
      refine ⟨by rw [e, hb, ← e], by rw [f, hb, ← f], ?_, ?_, ?_, by rw [k, hb, ← k]⟩
      · exact (congrArg Gang.ctl (hb s.cur) :)
      · exact (congrArg Gang.frag (hb s.cur) :)
      · exact (congrArg Gang.table (hb s.cur) :)
    · exact ⟨rfl, rfl, rfl, rfl, rfl, rfl⟩
  obtain ⟨k1, k2⟩ := key _ hc
  exact ⟨⟨by unfold bare; rw [k1, ho]; rfl, fun _ => rfl⟩, k2⟩

/-- Releasing rows of the gang in issue (R59). -/
theorem rowsOnly_release (s : State) (hl : s.cur.live = true) (r k : Nat) : rowsOnly s (s.release s.cur.id r k) := by
  unfold State.release
  split
  · exact rowsOnly_refl s
  · have hg : s.gang? s.cur.id = some s.cur := by simp [State.gang?, hl]
    rw [hg]
    simp only
    refine rowsOnly_trans ?_ (rowsOnly_modCore _ _ _ (fun c => give_ix c _ _) (fun c => give_bare c _ _))
    have e : s.setGang { s.cur with emergRows := s.cur.emergRows - r, emergCompact := s.cur.emergCompact - k } =
        { s with cur := { s.cur with emergRows := s.cur.emergRows - r, emergCompact := s.cur.emergCompact - k } } := by
      simp [State.setGang, hl]
    rw [e]
    split
    · exact ⟨⟨rfl, fun _ => rfl⟩, rfl, rfl, rfl, rfl, rfl⟩
    · refine rowsOnly_trans ?_ (rowsOnly_mapGangs _ _ ?_)
      · exact ⟨⟨rfl, fun _ => rfl⟩, rfl, rfl, rfl, rfl, rfl⟩
      · intro g; simp only; split <;> rfl

/-- Rows that are free are drawn (R55, R58, R61). -/
theorem drawForFrame_ok {s : State} {n : Nat} (hl : s.cur.live = true) (h : rowsFree s n) :
    ∃ u, s.drawForFrame n = .ok u ∧ rowsOnly s u := by
  have hd : ∃ u, s.draw (n - min n ((s.cur.frames.head?.map Frame.spare).getD 0)) 0 = .ok u ∧ rowsOnly s u := by
    unfold rowsFree at h
    simp only at h
    generalize n - min n ((s.cur.frames.head?.map Frame.spare).getD 0) = k at h ⊢
    unfold State.draw
    split
    · exact ⟨s, rfl, rowsOnly_refl s⟩
    · next hk =>
      have hk0 : k ≠ 0 := by simpa using hk
      simp only
      split
      · refine ⟨_, rfl, ?_⟩
        refine rowsOnly_trans ?_ (rowsOnly_release (s.modCur fun g => { g with grantMade := false, grantRows := 0, grantCompact := 0 }) hl _ _)
        exact ⟨⟨rfl, fun _ => rfl⟩, rfl, rfl, rfl, rfl, rfl⟩
      · next hg =>
        obtain h | h | ⟨h1, h2, h3, h4⟩ := h
        · exact absurd h hk0
        · exact absurd ⟨h.1, h.2, Nat.zero_le _⟩ hg
        · rw [if_neg (by omega), if_pos ⟨h2, Nat.zero_le _, h3, by simp [h4]⟩]
          exact ⟨_, rfl, rowsOnly_modCore _ _ _ (fun _ => rfl) (fun _ => rfl)⟩
  obtain ⟨u, hu, hr⟩ := hd
  unfold State.drawForFrame
  simp only [hu]
  refine ⟨_, rfl, ?_⟩
  split
  · exact hr
  · refine rowsOnly_trans hr ?_
    refine ⟨⟨?_, fun _ => rfl⟩, ?_, rfl, rfl, rfl, ?_⟩
    · cases e : u.cur.frames <;> simp [bare, bareGang, calmGang, State.modCur, Gang.modTop, bareFrame, e]
    · cases e : u.cur.frames <;> simp [State.modCur, Gang.modTop, Gang.regs, e]
    · cases e : u.cur.frames <;> simp [State.modCur, Gang.modTop, shape, e]

/-! ## Contents -/

@[simp] theorem lanes_get (f : Nat → Word) (l : Nat) (h : l < 128) : (lanes.map f).getD l 0 = f l := by
  simp [lanes, upto, h]

theorem lane_ofFn (f : Nat → Word) (l : Nat) (h : l < 128) : (RegVal.ofFn f).lane l = f l := lanes_get f l h

theorem inMask_all (l : Nat) (h : l < 128) : inMask allLanes l = true := by
  simp only [inMask, allLanes, BitVec.getLsbD_allOnes, h, decide_true]

/-- A write changes the lanes it covers and no others (R54). -/
theorem lane_mergeVal (old v : RegVal) (act : Mask) (l : Nat) (h : l < 128) :
    (mergeVal old v act).lane l = if inMask act l then v.lane l else old.lane l := by
  unfold mergeVal
  split
  · next e => rw [e, inMask_all l h]; rfl
  · rw [lane_ofFn _ l h]

/-- The tag after a write: the result's when every lane is covered, G otherwise (R54). -/
theorem tag_mergeVal (old v : RegVal) (act : Mask) : (mergeVal old v act).tag = if act = allLanes then v.tag else 2 := by
  unfold mergeVal
  split <;> rfl

/-- The registers of a frame after one write. -/
def written (rs : List Reg) (w : RegWrite) : List Reg :=
  if w.act = 0 then rs
  else setAt rs w.reg
    { (rs[w.reg]?.getD zeroReg) with val := mergeVal (rs[w.reg]?.getD zeroReg).val w.val w.eff }

theorem written_length (rs : List Reg) (w : RegWrite) : (written rs w).length = rs.length := by
  unfold written; split <;> simp

theorem applyWrite_regs (r : Gang × Nat × Nat) (w : RegWrite) : (Gang.applyWrite r w).1.regs = written r.1.regs w := by
  unfold Gang.applyWrite written
  split
  · rfl
  · cases e : r.1.frames <;>
      simp [Gang.putRegs, Gang.modTop, Gang.regs, e, Gang.val, Gang.reg, setAt]

theorem applyWrite_rest (r : Gang × Nat × Nat) (w : RegWrite) : bareGang (Gang.applyWrite r w).1 = bareGang r.1 ∧
    (Gang.applyWrite r w).1.ctl = r.1.ctl ∧ (Gang.applyWrite r w).1.frag = r.1.frag ∧
      (Gang.applyWrite r w).1.table = r.1.table ∧ shape (Gang.applyWrite r w).1 = shape r.1 := by
  unfold Gang.applyWrite
  split
  · exact ⟨rfl, rfl, rfl, rfl, rfl⟩
  · refine ⟨?_, rfl, rfl, rfl, ?_⟩
    · cases e : r.1.frames <;> simp [Gang.putRegs, Gang.modTop, bareGang, calmGang, bareFrame, e]
    · cases e : r.1.frames <;> simp [Gang.putRegs, Gang.modTop, shape, e]

theorem applyWrites_all (ws : List RegWrite) (r : Gang × Nat × Nat) :
    (ws.foldl Gang.applyWrite r).1.regs = ws.foldl written r.1.regs ∧
    bareGang (ws.foldl Gang.applyWrite r).1 = bareGang r.1 ∧ (ws.foldl Gang.applyWrite r).1.ctl = r.1.ctl ∧
      (ws.foldl Gang.applyWrite r).1.frag = r.1.frag ∧ (ws.foldl Gang.applyWrite r).1.table = r.1.table ∧
      shape (ws.foldl Gang.applyWrite r).1 = shape r.1 := by
  induction ws generalizing r with
  | nil => exact ⟨rfl, rfl, rfl, rfl, rfl, rfl⟩
  | cons w ws ih =>
    obtain ⟨h0, h1, h2, h3, h4, h5⟩ := ih (Gang.applyWrite r w)
    obtain ⟨k1, k2, k3, k4, k5⟩ := applyWrite_rest r w
    simp only [List.foldl_cons]
    exact ⟨by rw [h0, applyWrite_regs], h1.trans k1, h2.trans k2, h3.trans k3, h4.trans k4, h5.trans k5⟩

/-- A unit's writes, once their rows are free. -/
theorem writeEach_ok {s : State} {ws : List RegWrite} (hl : s.cur.live = true) (h : rowsFree s (s.cur.applyWrites ws).2.1) :
    ∃ u, s.writeEach ws = .ok u ∧ barely s u ∧ u.cur.regs = ws.foldl written s.cur.regs ∧ u.cur.ctl = s.cur.ctl ∧
      u.cur.frag = s.cur.frag ∧ u.cur.table = s.cur.table ∧ shape u.cur = shape s.cur := by
  obtain ⟨v, hv, hr⟩ := drawForFrame_ok hl h
  obtain ⟨hb, h1, h2, h3, h4, h5⟩ := hr
  have hl' : v.cur.live = true := (bare_live hb).trans hl
  obtain ⟨a0, a1, a2, a3, a4, a5⟩ := applyWrites_all ws (v.cur, 0, 0)
  have hid : (v.modCur fun g => (g.applyWrites ws).1).cur.id = v.cur.id := (congrArg Gang.id a1 :)
  have hlive : (v.modCur fun g => (g.applyWrites ws).1).cur.live = true := ((congrArg Gang.live a1 :) : _ = v.cur.live).trans hl'
  obtain ⟨c0, c1, c2, c3, c4, c5⟩ := rowsOnly_release (v.modCur fun g => (g.applyWrites ws).1) hlive (s.cur.applyWrites ws).2.2 0
  rw [hid] at c0 c1 c2 c3 c4 c5
  unfold State.writeEach
  simp only [hv]
  refine ⟨_, rfl, barely_trans hb (barely_trans ?_ c0), ?_, ?_, ?_, ?_, ?_⟩
  · refine ⟨?_, fun _ => rfl⟩
    simp only [bare, State.modCur, Gang.applyWrites, a1]
  · rw [c1, ← h1]; exact a0
  · rw [c2, ← h2]; exact a2
  · rw [c3, ← h3]; exact a3
  · rw [c4, ← h4]; exact a4
  · rw [c5, ← h5]; exact a5

/-- What one register write leaves of the registers. -/
def oneWritten (s u : State) (d : Nat) (v : RegVal) : Prop :=
  barely s u ∧ ctlKept s u ∧ u.cur.regs.length = s.cur.regs.length ∧ (∀ r, r ≠ d → u.cur.reg r = s.cur.reg r) ∧
    u.cur.reg d = if s.cur.act = 0 then s.cur.reg d else { s.cur.reg d with val := mergeVal (s.cur.val d) v s.cur.act }

/-- A fixed-latency unit with one result: it writes it, once its registers exist and are ready and its row is free. -/
theorem regUnit_ok {s : State} {d : Nat} {srcs uniform : List Nat} {res : Gang → RegVal} (hl : s.cur.live = true)
    (h1 : ∀ r ∈ d :: srcs, r < s.cur.regs.length) (h2 : ∀ r ∈ uniform, (s.cur.val r).isU = true)
    (h3 : ∀ r ∈ srcs, (s.cur.reg r).pend = none) (h4 : s.cur.act ≠ 0 → (s.cur.reg d).pend = none)
    (h5 : s.cur.act ≠ 0 → s.cur.needsRow d (res s.cur) s.cur.act = true → rowsFree s 1) :
    ∃ u, regUnit s d srcs uniform res = .ok (done u) ∧ oneWritten s u d (res s.cur) := by
  have c1 : s.cur.checkRegs (d :: srcs) = .ok () := by
    simp only [Gang.checkRegs, check, List.all_eq_true, decide_eq_true_eq]; rw [if_pos h1]
  have c2 : s.cur.checkUniform uniform = .ok () := by
    simp only [Gang.checkUniform, check, List.all_eq_true]; rw [if_pos h2]
  have c3 : s.cur.checkReady srcs = .ok () := by
    simp only [Gang.checkReady, check, List.all_eq_true, Option.isNone_iff_eq_none]; rw [if_pos h3]
  have c4 : s.cur.checkOperands (d :: srcs) uniform srcs = .ok () := by simp only [Gang.checkOperands, c1, c2, c3]
  unfold regUnit
  simp only [c4]
  split
  · next ha =>
    exact ⟨s, rfl, barely_refl s, ctlKept_refl s, rfl, fun _ _ => rfl, by rw [if_pos ha]⟩
  · next ha =>
    have c5 : s.cur.awaitDest [d] = .ok () := by simp [Gang.awaitDest, await, h4 ha]
    have hrow : rowsFree s (s.cur.applyWrites [{ reg := d, val := res s.cur, act := s.cur.act, eff := s.cur.act }]).2.1 := by
      simp only [Gang.applyWrites, List.foldl_cons, List.foldl_nil, Gang.applyWrite, ha, if_false, Nat.zero_add]
      split
      · next hn => exact h5 ha hn
      · exact .inl (by simp)
    obtain ⟨u, hu, hb, hr, e1, e2, e3, e4⟩ := writeEach_ok hl hrow
    have hw : s.writeRegs s.cur.act [(d, res s.cur)] = .ok u := hu
    simp only [c5, hw]
    have hd : d < s.cur.regs.length := h1 d (List.mem_cons_self ..)
    have hr' : u.cur.regs = setAt s.cur.regs d { s.cur.reg d with val := mergeVal (s.cur.val d) (res s.cur) s.cur.act } := by
      rw [hr]; simp only [List.foldl_cons, List.foldl_nil, written, ha, if_false]; rfl
    refine ⟨u, rfl, hb, ⟨congrArg Ctl.mask e1, congrArg Ctl.redo e1, e2, e3, e4⟩, by rw [hr', setAt_length], ?_, ?_⟩
    · intro r hne
      unfold Gang.reg
      rw [hr', setAt_get, if_neg (by simp [hne])]
    · rw [if_neg ha]
      conv => lhs; unfold Gang.reg
      rw [hr', setAt_get, if_pos ⟨rfl, hd⟩]; rfl

/-! ## A fragment's turn -/

/-- The gang in issue with another value of its turn. -/
def turned (b : Bool) (g : Gang) : Gang := { g with ctl := { g.ctl with turn := b } }

theorem begun_turned (s : State) (k : UnitKind) : ∃ b, s.begun k = s.modCur (turned b) := ⟨_, begun_eq s k⟩

theorem gangs_modCur (s : State) (f : Gang → Gang) (hf : (f s.cur).live = s.cur.live) :
    (s.modCur f).gangs = if s.cur.live then f s.cur :: s.others else s.others := by
  simp [State.gangs, State.modCur, hf]

theorem foldl_held_filter (p : Gang → Bool) (l : List Gang) (a b : Gang) (hp : p a = p b) (hh : a.held = b.held) :
    ((a :: l).filter p).foldl (fun n g => n + g.held) 0 = ((b :: l).filter p).foldl (fun n g => n + g.held) 0 := by
  simp only [List.filter_cons, hp]
  split <;> simp [hh]

theorem crewGangs_turned_held (s : State) (b : Bool) (ctx crew role : Nat) :
    (s.modCur (turned b)).roleHeld ctx crew role = s.roleHeld ctx crew role := by
  unfold State.roleHeld State.crewGangs
  simp only [State.gangs, State.modCur]
  by_cases hl : s.cur.live = true
  · simp only [turned, hl, if_true, List.filter_filter]
    exact foldl_held_filter _ _ _ _ rfl rfl
  · simp only [turned, hl]; rfl

theorem any_turned {s : State} {b : Bool} {p q : Gang → Bool} (h : ∀ g, p g = q g) (hc : p (turned b s.cur) = q s.cur) :
    (s.modCur (turned b)).gangs.any p = s.gangs.any q := by
  have e : p = q := funext h
  have hg : (s.modCur (turned b)).gangs = if s.cur.live then turned b s.cur :: s.others else s.others := gangs_modCur s _ rfl
  rw [hg, State.gangs]
  split
  · rw [List.any_cons, List.any_cons, hc, e]
  · rw [e]

theorem rowsFree_turned {s : State} {b : Bool} {n : Nat} (h : rowsFree s n) : rowsFree (s.modCur (turned b)) n := by
  have hq (g : Gang) (r : Nat) : (s.modCur (turned b)).headroom g r = s.headroom g r := by
    unfold State.headroom; rw [show (s.modCur (turned b)).roleOf g = s.roleOf g from rfl, crewGangs_turned_held]; rfl
  have hask (g : Gang) : (s.modCur (turned b)).asks g = s.asks g := rfl
  have hby : (s.modCur (turned b)).bypasses (turned b s.cur) s.tick = s.bypasses s.cur s.tick := by
    have hroom (g : Gang) (r : Nat) : (s.modCur (turned b)).roomFor g r = s.roomFor g r := by
      unfold State.roomFor; simp only [hq]
    unfold State.bypasses State.coreGangs
    rw [List.any_filter, List.any_filter]
    refine any_turned (fun g => ?_) ?_
    · simp only [hask, hroom]; rfl
    · simp only [hask, hroom]; rfl
  unfold rowsFree at h ⊢
  simp only at h ⊢
  rw [show (s.modCur (turned b)).cur = turned b s.cur from rfl, show (s.modCur (turned b)).tick = s.tick from rfl, hq, hby]
  exact h

theorem rowsFree_begun {s : State} {n : Nat} (k : UnitKind) (h : rowsFree s n) : rowsFree (s.begun k) n := by
  obtain ⟨b, e⟩ := begun_turned s k
  rw [e]; exact rowsFree_turned h

/-! ## A unit with one register result -/

/-- The unit `regUnit` of a kind that may run: it retires, its destination holds the result in the lanes of act. -/
theorem unit_reg {k : UnitKind} {sw : Bool} {s : State} {d : Nat} {srcs uniform : List Nat} {res : Gang → RegVal}
    {body : State → Try Done} (hbody : ∀ u : State, barely s u → body u = regUnit u d srcs uniform res)
    (hres : ∀ b, res (turned b s.cur) = res s.cur) (h : mayRun k s)
    (h1 : ∀ r ∈ d :: srcs, r < s.cur.regs.length) (h2 : ∀ r ∈ uniform, (s.cur.val r).isU = true)
    (h3 : ∀ r ∈ srcs, (s.cur.reg r).pend = none) (h4 : s.cur.act ≠ 0 → (s.cur.reg d).pend = none)
    (h5 : s.cur.act ≠ 0 → s.cur.needsRow d (res s.cur) s.cur.act = true → rowsFree s 1) :
    ∃ t, runUnit k sw s body = .next t ∧ goesTo s t (after s.cur k.len) ∧ onlyRegs [d] s t ∧
      t.cur.reg d = if s.cur.act = 0 then s.cur.reg d
        else { s.cur.reg d with val := mergeVal (s.cur.val d) (res s.cur) s.cur.act } := by
  obtain ⟨b, e⟩ := begun_turned s k
  have hb0 : barely s (s.begun k) := barely_of_calmly (calmly_begun s k)
  have hr : res (s.modCur (turned b)).cur = res s.cur := hres b
  obtain ⟨u, hu, hb, hc, hlen, hoth, hd⟩ := regUnit_ok (s := s.modCur (turned b)) (d := d) (srcs := srcs) (uniform := uniform)
    (res := res) h.1 h1 h2 h3 h4 (fun ha hn => rowsFree_turned (h5 ha (by rw [← hr]; exact hn)))
  have hbody' : body (s.begun k) = .ok (done u) := by rw [hbody _ hb0, e]; exact hu
  obtain ⟨t, ht, hcalm, hgo⟩ := unit_done (sw := sw) h hbody' (ctlKept_trans (e ▸ ctlKept_begun s k) hc)
  have hfr : t.cur.frames = u.cur.frames := (congrArg (fun x : State => x.cur.frames) hcalm.1 :)
  have hreg (r : Nat) : t.cur.reg r = u.cur.reg r := by unfold Gang.reg Gang.regs; rw [hfr]
  have hregs : t.cur.regs = u.cur.regs := by unfold Gang.regs; rw [hfr]
  refine ⟨t, ht, hgo, ⟨barely_trans (e ▸ hb0) (barely_trans hb (barely_of_calmly hcalm)), by rw [hregs]; exact hlen, ?_⟩, ?_⟩
  · intro r hr'; rw [hreg, hoth r (by simpa using hr')]; rfl
  · rw [hreg, hd, hr]; rfl

end Sys2Proof.Laws
end

