-- ==== Sys2Proof/Laws/Results.lean ====
section
/-! SUPPORT. Units with one register result: from the value and the tag of each lane to what the unit leaves. -/
namespace Sys2Proof.Laws
open Sys2Proof.Machine Sys2Proof.Safety Sys2Proof.Spec

theorem isG_iff (v : RegVal) : v.isG = true ↔ v.tag = 2 := by cases v <;> simp [RegVal.isG, RegVal.tag]
theorem isU_iff (v : RegVal) : v.isU = true ↔ v.tag = 0 := by cases v <;> simp [RegVal.isU, RegVal.tag]

theorem toNat_inj_ne {x y : BitVec 7} (h : y ≠ x) : y.toNat ≠ x.toNat := fun e => h (BitVec.eq_of_toNat_eq e)

/-- The unit of a rule: its checks pass, and its result is the rule's. -/
theorem ruleUnit {r : LaneRule} {sw : Bool} {s : State} {res : Gang → RegVal} {body : State → Try Done}
    (hbody : ∀ u : State, barely s u →
      body u = regUnit u r.dst.toNat (r.reads.map BitVec.toNat) (r.uniform.map BitVec.toNat) res)
    (hres : ∀ b, res (turned b s.cur) = res s.cur)
    (hval : ∀ l, l < 128 → (res s.cur).lane l = r.val s.cur l) (htag : (res s.cur).tag = r.tag s.cur)
    (h : mayRun r.kind s) (hr : r.ready s) :
    ∃ t, runUnit r.kind sw s body = .next t ∧ goesTo s t (after s.cur r.kind.len) ∧ onlyRegs [r.dst.toNat] s t ∧
      r.result s t := by
  obtain ⟨h1, h2, h3, h4⟩ := hr
  obtain ⟨t, ht, hg, ho, hd⟩ := unit_reg (sw := sw) hbody hres h
    (by simpa using h1)
    (by intro x hx; obtain ⟨y, hy, rfl⟩ := List.mem_map.1 hx; exact (isU_iff _).2 (h2 y hy))
    (by intro x hx; obtain ⟨y, hy, rfl⟩ := List.mem_map.1 hx; exact h3 y hy)
    (fun ha => (h4 ha).1)
    (fun ha hn => by
      simp only [Gang.needsRow, Bool.and_eq_true, Bool.not_eq_true', Bool.or_eq_true, bne_iff_ne, ne_eq] at hn
      refine (h4 ha).2 ?_ ?_
      · intro e; rw [(isG_iff _).2 e] at hn; exact absurd hn.1 (by simp)
      · rw [← htag, ← isG_iff]; exact hn.2)
  refine ⟨t, ht, hg, ho, fun ha => by rw [hd, if_pos ha], fun ha => ?_⟩
  rw [if_neg ha] at hd
  refine ⟨?_, ?_, fun l hl => ?_⟩
  · rw [hd]; exact (h4 ha).1
  · unfold Gang.val; rw [hd]
    simp only [tag_mergeVal, htag]
  · unfold Gang.lane Gang.val; rw [hd]
    simp only [lane_mergeVal _ _ _ _ hl, hval l hl]; rfl

end Sys2Proof.Laws
end

