-- ==== Sys2Proof/Laws/Integer.lean ====
section
/-! SUPPORT. The integer results of the model are those of the rules: values by exact arithmetic, tags by R53. -/
namespace Sys2Proof.Laws
open Sys2Proof.Machine Sys2Proof.Safety Sys2Proof.Spec

/-! ## Lanes and tags of lifted operations -/

theorem lane_lift1 (f : Word → Word) (v : RegVal) (l : Nat) (h : l < 128) : (lift1 f v).lane l = f (v.lane l) := by
  cases v <;> simp only [lift1, lane_ofFn _ l h] <;> rfl

theorem tag_lift1 (f : Word → Word) (v : RegVal) : (lift1 f v).tag = plainTag [v.tag] := by
  cases v <;> rfl

theorem lane_lift2 (f : Word → Word → Word) (v w : RegVal) (l : Nat) (h : l < 128) :
    (lift2 f v w).lane l = f (v.lane l) (w.lane l) := by
  cases v <;> cases w <;> simp only [lift2, lane_ofFn _ l h] <;> rfl

theorem tag_lift2 (f : Word → Word → Word) (v w : RegVal) : (lift2 f v w).tag = plainTag [v.tag, w.tag] := by
  cases v <;> cases w <;> rfl

theorem lane_lift3 (f : Word → Word → Word → Word) (v w x : RegVal) (l : Nat) (h : l < 128) :
    (lift3 f v w x).lane l = f (v.lane l) (w.lane l) (x.lane l) := by
  cases v <;> cases w <;> cases x <;> simp only [lift3, lane_ofFn _ l h] <;> rfl

theorem tag_lift3 (f : Word → Word → Word → Word) (v w x : RegVal) :
    (lift3 f v w x).tag = plainTag [v.tag, w.tag, x.tag] := by
  cases v <;> cases w <;> cases x <;> rfl

theorem lane_iadd (v w : RegVal) (l : Nat) (h : l < 128) : (iaddVal v w).lane l = v.lane l + w.lane l := by
  cases v <;> cases w <;> simp only [iaddVal, lane_ofFn _ l h] <;> simp only [RegVal.lane] <;> ring

theorem tag_iadd (v w : RegVal) : (iaddVal v w).tag = sumTag [v.tag, w.tag] := by cases v <;> cases w <;> rfl

theorem lane_isub (v w : RegVal) (l : Nat) (h : l < 128) : (isubVal v w).lane l = v.lane l - w.lane l := by
  cases v <;> cases w <;> simp only [isubVal, lane_ofFn _ l h] <;> simp only [RegVal.lane] <;> ring

theorem tag_isub (v w : RegVal) : (isubVal v w).tag = sumTag [v.tag, w.tag] := by cases v <;> cases w <;> rfl

theorem lane_imul (v w : RegVal) (l : Nat) (h : l < 128) : (imulVal v w).lane l = v.lane l * w.lane l := by
  cases v <;> cases w <;> simp only [imulVal, lane_ofFn _ l h] <;> simp only [RegVal.lane] <;> ring

theorem tag_imul (v w : RegVal) : (imulVal v w).tag = productTag v.tag w.tag := by cases v <;> cases w <;> rfl

theorem lane_iaddi (i : Word) (v : RegVal) (l : Nat) (h : l < 128) : (iaddiVal i v).lane l = v.lane l + i := by
  cases v <;> simp only [iaddiVal, lane_ofFn _ l h] <;> simp only [RegVal.lane] <;> ring

theorem tag_iaddi (i : Word) (v : RegVal) : (iaddiVal i v).tag = sumTag [v.tag] := by cases v <;> rfl

theorem lane_sel (g : Gang) (m : Nat) (v w : RegVal) (l : Nat) (h : l < 128) :
    (selVal g m v w).lane l = if inMask (g.mask m) l then v.lane l else w.lane l := by
  unfold selVal
  split
  · have : inMask (g.mask 0) l = true := inMask_all l h
    simp [this, RegVal.lane]
  · exact lane_ofFn _ l h

theorem tag_sel (g : Gang) (m : Nat) (v w : RegVal) :
    (selVal g m v w).tag = if m = 0 then plainTag [v.tag, w.tag] else 2 := by
  cases m <;> cases v <;> cases w <;> rfl

/-! ## Words from numbers -/

theorem word_nat (n : Nat) : word (n : Int) = BitVec.ofNat 32 n := by simp [word]

theorem word_sext {k : Nat} (i : BitVec k) : word i.toInt = sextW i := rfl

theorem word_toNat (x : Word) : word (x.toNat : Int) = x := by rw [word_nat]; simp

theorem word_toInt (x : Word) : word x.toInt = x := by simp [word]

theorem word_add (a b : Int) : word (a + b) = word a + word b := by simp [word, BitVec.ofInt_add]
theorem word_mul (a b : Int) : word (a * b) = word a * word b := by simp [word, BitVec.ofInt_mul]
theorem word_sub (a b : Int) : word (a - b) = word a - word b := by
  rw [Int.sub_eq_add_neg, word_add, BitVec.sub_eq_add_neg]
  simp only [word, BitVec.ofInt_neg]

theorem fromBits_get (n : Nat) (f : Nat → Bool) (i : Nat) : (fromBits n f).getLsbD i = (decide (i < n) && f i) := by
  induction n with
  | zero => simp [fromBits]
  | succ n ih =>
    simp only [fromBits, BitVec.getLsbD_cons, ih]
    by_cases h : i = n
    · subst h; simp
    · have : decide (i < n + 1) = decide (i < n) := by simp; omega
      simp only [h, if_false, this]

theorem mulHighS_word (x y : Word) : mulHighS x y = word (x.toInt * y.toInt / 2 ^ 32) := by
  have h1 : (x.signExtend 64 * y.signExtend 64) = BitVec.ofInt 64 (x.toInt * y.toInt) := by
    rw [BitVec.ofInt_mul]; rfl
  unfold mulHighS word
  rw [h1]
  apply BitVec.eq_of_toNat_eq
  simp only [BitVec.extractLsb'_toNat, BitVec.toNat_ofInt, Nat.shiftRight_eq_div_pow]
  generalize x.toInt * y.toInt = z
  omega

theorem mulHighU_word (x y : Word) : mulHighU x y = word (x.toNat * y.toNat / 2 ^ 32) := by
  have e : ((x.toNat : Int) * y.toNat / 2 ^ 32) = ((x.toNat * y.toNat / 2 ^ 32 : Nat) : Int) := by push_cast; rfl
  rw [e, word_nat]
  apply BitVec.eq_of_toNat_eq
  have hx := x.isLt
  have hy := y.isLt
  have hm : x.toNat * y.toNat < 2 ^ 64 := by nlinarith
  simp only [mulHighU, BitVec.extractLsb'_toNat, BitVec.toNat_mul, BitVec.toNat_setWidth, BitVec.toNat_ofNat]
  rw [Nat.mod_eq_of_lt (a := x.toNat) (by omega), Nat.mod_eq_of_lt (a := y.toNat) (by omega), Nat.mod_eq_of_lt hm]
  simp [Nat.shiftRight_eq_div_pow]

theorem shlW_word (x s : Word) : shlW x s = shlTo x s := by
  have e : ((x.toNat : Int) * 2 ^ s.toNat) = ((x.toNat * 2 ^ s.toNat : Nat) : Int) := by push_cast; rfl
  unfold shlW shlTo
  rw [e, word_nat]
  apply BitVec.eq_of_toNat_eq
  split
  · simp [Nat.shiftLeft_eq]
  · next h =>
    obtain ⟨k, hk⟩ : ∃ k, s.toNat = 32 + k := ⟨s.toNat - 32, by omega⟩
    rw [hk, pow_add]
    have : x.toNat * (2 ^ 32 * 2 ^ k) = 2 ^ 32 * (x.toNat * 2 ^ k) := by ring
    rw [this, BitVec.toNat_ofNat, Nat.mul_mod_right]; rfl

theorem shrW_word (x s : Word) : shrW x s = shrTo x s := by
  have e : ((x.toNat : Int) / 2 ^ s.toNat) = ((x.toNat / 2 ^ s.toNat : Nat) : Int) := by push_cast; rfl
  unfold shrW shrTo
  rw [e, word_nat]
  apply BitVec.eq_of_toNat_eq
  have hx := x.isLt
  split
  · have : x.toNat / 2 ^ s.toNat < 2 ^ 32 := lt_of_le_of_lt (Nat.div_le_self _ _) hx
    rw [BitVec.toNat_ofNat, Nat.mod_eq_of_lt this, BitVec.toNat_ushiftRight, Nat.shiftRight_eq_div_pow]
  · next h =>
    have : x.toNat / 2 ^ s.toNat = 0 := Nat.div_eq_of_lt (lt_of_lt_of_le hx (Nat.pow_le_pow_right (by norm_num) (by omega)))
    simp [this]

theorem sarW_word (x s : Word) : sarW x s = sarTo x s := by
  have h1 : (x.sshiftRight s.toNat).toInt = x.toInt / 2 ^ s.toNat := by
    rw [BitVec.toInt_sshiftRight, Int.shiftRight_eq_div_pow]; norm_cast
  unfold sarW sarTo
  split
  · rw [← h1, word_toInt]
  · next h =>
    rw [← h1, word_toInt]
    apply BitVec.eq_of_getLsbD_eq
    intro i hi
    simp only [BitVec.getLsbD_sshiftRight]
    have a : ¬ (s.toNat + i < 32) := by omega
    rcases Nat.eq_zero_or_pos i with rfl | hp
    · simp [BitVec.msb_eq_getLsbD_last, h]
    · have b : ¬ (31 + i < 32) := by omega
      simp [a, b]

theorem rotW_word (x s : Word) : rotW x s = rotTo x s := by
  unfold rotW rotTo
  generalize hk : s.toNat % 32 = k
  have hlt : k < 32 := by omega
  have e : ((x.toNat : Int) * 2 ^ k + x.toNat / 2 ^ (32 - k)) = ((x.toNat * 2 ^ k + x.toNat / 2 ^ (32 - k) : Nat) : Int) := by
    push_cast; rfl
  rw [e, word_nat]
  apply BitVec.eq_of_toNat_eq
  have hx := x.isLt
  rw [BitVec.toNat_rotateLeft, Nat.mod_eq_of_lt hlt, Nat.shiftLeft_eq, Nat.shiftRight_eq_div_pow, BitVec.toNat_ofNat]
  have hd : x.toNat / 2 ^ (32 - k) < 2 ^ k := by
    rw [Nat.div_lt_iff_lt_mul (by positivity), ← pow_add]
    have : k + (32 - k) = 32 := by omega
    rw [this]; exact hx
  have hm : x.toNat * 2 ^ k % 2 ^ 32 = 2 ^ k * (x.toNat % 2 ^ (32 - k)) := by
    have : 2 ^ 32 = 2 ^ k * 2 ^ (32 - k) := by rw [← pow_add]; congr 1; omega
    rw [this, mul_comm x.toNat, Nat.mul_mod_mul_left]
  have hs : (x.toNat * 2 ^ k + x.toNat / 2 ^ (32 - k)) % 2 ^ 32 = 2 ^ k * (x.toNat % 2 ^ (32 - k)) + x.toNat / 2 ^ (32 - k) := by
    rw [Nat.add_mod, hm]
    have h1 : x.toNat % 2 ^ (32 - k) + 1 ≤ 2 ^ (32 - k) := Nat.mod_lt _ (by positivity)
    have h2 : 2 ^ k * (x.toNat % 2 ^ (32 - k) + 1) ≤ 2 ^ k * 2 ^ (32 - k) := Nat.mul_le_mul_left _ h1
    have h3 : 2 ^ k * 2 ^ (32 - k) = 2 ^ 32 := by rw [← pow_add]; congr 1; omega
    have h4 : x.toNat / 2 ^ (32 - k) < 2 ^ 32 := lt_of_lt_of_le hd (Nat.pow_le_pow_right (by norm_num) (by omega))
    rw [Nat.mod_eq_of_lt h4, Nat.mod_eq_of_lt]
    rw [mul_add, h3] at h2; omega
  rw [hm, hs, Nat.two_pow_add_eq_or_of_lt hd]

theorem popc_word (x : Word) : popcW x = word (onesOf x) := by
  rw [word_nat]; unfold popcW onesOf upto; rw [List.countP_eq_length_filter]

theorem takeWhile_find (p : Nat → Bool) (n a : Nat) :
    ((List.range' a n).takeWhile fun i => !p i).length + a = ((List.range' a n).find? p).getD (a + n) := by
  induction n generalizing a with
  | zero => simp
  | succ n ih =>
    rw [List.range'_succ]
    cases h : p a with
    | true => simp [h]
    | false =>
      have := ih (a + 1)
      simp only [List.takeWhile_cons, h, Bool.not_false, if_true, List.length_cons, List.find?_cons_of_neg, Bool.false_eq_true,
        not_false_eq_true]
      rw [show a + (n + 1) = a + 1 + n by omega, ← this]; omega

theorem ctz_word (x : Word) : ctzW x = word (trailingZeros x) := by
  rw [word_nat]; unfold ctzW trailingZeros upto
  have := takeWhile_find (fun i => x.getLsbD i) 32 0
  rw [← List.range_eq_range'] at this
  rw [← this]; rfl

theorem clz_word (x : Word) : clzW x = word (leadingZeros x) := by
  rw [word_nat]; unfold clzW leadingZeros upto
  have h := takeWhile_find (fun i => x.getLsbD (31 - i)) 32 0
  rw [← List.range_eq_range', Nat.add_zero] at h
  rw [h]
  split
  · next hz =>
    have : x = 0#32 := BitVec.eq_of_toNat_eq hz
    subst this; rfl
  · next hz =>
    have hl : x.toNat.log2 < 32 := (Nat.log2_lt hz).2 x.isLt
    have hf : (List.range 32).find? (fun i => x.getLsbD (31 - i)) = some (31 - x.toNat.log2) := by
      rw [List.find?_range_eq_some]
      refine ⟨?_, by simp only [List.mem_range]; omega, ?_⟩
      · rw [show 31 - (31 - x.toNat.log2) = x.toNat.log2 by omega]
        exact Nat.testBit_log2 hz
      · intro j hj
        have : x.toNat < 2 ^ (31 - j) := lt_of_lt_of_le (Nat.lt_log2_self) (Nat.pow_le_pow_right (by norm_num) (by omega))
        have h2 : x.toNat.testBit (31 - j) = false := Nat.testBit_lt_two_pow this
        simp only [BitVec.getLsbD, h2, Bool.not_false]
    rw [hf]; rfl

theorem brev_word (x : Word) : brevW x = fromBits 32 fun i => x.getLsbD (31 - i) := by
  apply BitVec.eq_of_getLsbD_eq
  intro i hi
  rw [fromBits_get]
  simp only [brevW, BitVec.getLsbD_reverse, BitVec.getMsbD, hi, decide_true, Bool.true_and]

theorem ineg_word (x : Word) : -x = word (2 ^ 32 - x.toNat) := by
  rw [word_sub, word_toNat]; simp [word]

theorem iabs_word (x : Word) : iabsW x = word (if x.toNat < 2 ^ 31 then (x.toNat : Int) else 2 ^ 32 - x.toNat) := by
  unfold iabsW
  split
  · rw [word_toNat]
  · rw [← ineg_word]

theorem imin_word (x y : Word) : iminW x y = word (min x.toInt y.toInt) := by
  unfold iminW
  rw [BitVec.slt_eq_decide]
  simp only [decide_eq_true_eq]
  split
  · rw [min_eq_right (by omega), word_toInt]
  · rw [min_eq_left (by omega), word_toInt]

theorem imax_word (x y : Word) : imaxW x y = word (max x.toInt y.toInt) := by
  unfold imaxW
  rw [BitVec.slt_eq_decide]
  simp only [decide_eq_true_eq]
  split
  · rw [max_eq_right (by omega), word_toInt]
  · rw [max_eq_left (by omega), word_toInt]

theorem umin_word (x y : Word) : uminW x y = word (min (x.toNat : Int) y.toNat) := by
  unfold uminW
  rw [BitVec.ult_eq_decide]
  simp only [decide_eq_true_eq]
  split
  · rw [min_eq_right (by omega), word_toNat]
  · rw [min_eq_left (by omega), word_toNat]

theorem umax_word (x y : Word) : umaxW x y = word (max (x.toNat : Int) y.toNat) := by
  unfold umaxW
  rw [BitVec.ult_eq_decide]
  simp only [decide_eq_true_eq]
  split
  · rw [max_eq_right (by omega), word_toNat]
  · rw [max_eq_left (by omega), word_toNat]

theorem field_at (c : Word) : bfOffset c = fieldAt c := by simp [bfOffset, fieldAt]
theorem field_width (c : Word) : bfWidth c = fieldWidth c := by
  simp [bfWidth, fieldWidth, Nat.shiftRight_eq_div_pow]

theorem bfxu_word (x c : Word) : bfxuW x c = word (x.toNat / 2 ^ fieldAt c % 2 ^ fieldWidth c) := by
  have e : ((x.toNat : Int) / 2 ^ fieldAt c % 2 ^ fieldWidth c) = ((x.toNat / 2 ^ fieldAt c % 2 ^ fieldWidth c : Nat) : Int) := by
    push_cast; rfl
  unfold bfxuW
  rw [e, word_nat, field_at, field_width]

theorem bfx_word (x c : Word) : bfxW x c = word (signedField (fieldWidth c) (x.toInt / 2 ^ fieldAt c)) := by
  have hw : fieldWidth c ≤ 32 ∧ 1 ≤ fieldWidth c := by unfold fieldWidth; omega
  have ho : fieldAt c < 32 := by unfold fieldAt; omega
  have h1 : ((x.signExtend 64).sshiftRight (fieldAt c)).toInt = x.toInt / 2 ^ fieldAt c := by
    rw [BitVec.toInt_sshiftRight, Int.shiftRight_eq_div_pow, BitVec.toInt_signExtend_of_le (by norm_num)]; norm_cast
  unfold bfxW
  rw [field_at, field_width]
  simp only
  generalize hy : (x.signExtend 64).sshiftRight (fieldAt c) = y at h1
  rw [← h1]
  have h2 : ((y.toNat % 2 ^ fieldWidth c : Nat) : Int) = y.toInt % 2 ^ fieldWidth c := by
    have hd : (2 : Int) ^ fieldWidth c ∣ 2 ^ 64 := pow_dvd_pow _ (by omega)
    have he : y.toInt = (y.toNat : Int) ∨ y.toInt = (y.toNat : Int) - 2 ^ 64 := by
      rw [BitVec.toInt_eq_toNat_cond]; split
      · left; rfl
      · right; push_cast; rfl
    push_cast
    obtain he | he := he
    · rw [he]
    · rw [he, Int.sub_emod, Int.emod_eq_zero_of_dvd hd, sub_zero, Int.emod_emod_of_dvd _ (dvd_refl _)]
  have h3 : ((2 : Int) ^ fieldWidth c) = ((2 ^ fieldWidth c : Nat) : Int) := by push_cast; rfl
  unfold signedField
  rw [← h2]
  by_cases hlt : y.toNat % 2 ^ fieldWidth c < 2 ^ (fieldWidth c - 1)
  · rw [if_neg (by omega), if_pos (by exact_mod_cast hlt), word_nat]
  · rw [if_pos (by omega), if_neg (by exact_mod_cast hlt), word_sub, word_nat, h3, word_nat]

theorem bfi_word (x c d : Word) : bfiW x c d = fromBits 32 fun i =>
    if fieldAt c ≤ i ∧ i < fieldAt c + fieldWidth c then x.getLsbD (i - fieldAt c) else d.getLsbD i := by
  have ho : fieldAt c < 32 := by unfold fieldAt; omega
  apply BitVec.eq_of_getLsbD_eq
  intro i hi
  rw [fromBits_get]
  unfold bfiW
  rw [field_at, field_width]
  simp only [hi, decide_true, Bool.true_and, BitVec.getLsbD_or, BitVec.getLsbD_and, BitVec.getLsbD_not, BitVec.getLsbD_shiftLeft,
    BitVec.getLsbD_ofNat]
  have hm : ((2 ^ min (fieldWidth c) (32 - fieldAt c) - 1) * 2 ^ fieldAt c).testBit i =
      decide (fieldAt c ≤ i ∧ i < fieldAt c + fieldWidth c) := by
    rw [Nat.testBit_mul_two_pow, Nat.testBit_two_pow_sub_one]
    by_cases h1 : fieldAt c ≤ i <;> by_cases h2 : i < fieldAt c + fieldWidth c <;> simp [h1, h2] <;> omega
  rw [hm]
  by_cases h : fieldAt c ≤ i ∧ i < fieldAt c + fieldWidth c
  · simp [h, show ¬ i < fieldAt c by omega]
  · simp [h]

/-! ## Units by shape -/

/-- What a unit under a rule comes to. -/
def completes (r : LaneRule) (s : State) (out : Host.Outcome State Fault Refusal) : Prop :=
  ∃ t, out = .next t ∧ goesTo s t (after s.cur r.kind.len) ∧ onlyRegs [r.dst.toNat] s t ∧ r.result s t

theorem rule2_unit {o : FmtDAB} {tag : List (BitVec 2) → BitVec 2} {w : Word → Word → Word} {f : RegVal → RegVal → RegVal}
    (hv : ∀ v x l, l < 128 → (f v x).lane l = w (v.lane l) (x.lane l)) (ht : ∀ v x, (f v x).tag = tag [v.tag, x.tag]) {s : State}
    (hm : mayRun vectorUnit s) (hr : (rule2 o tag w).ready s) :
    completes (rule2 o tag w) s (runUnit vectorUnit o.sw s (aluUnit o.d o.a o.b f)) :=
  ruleUnit (r := rule2 o tag w) (fun _ _ => rfl) (fun _ => rfl) (fun l hl => hv _ _ l hl) (ht _ _) hm hr

theorem rule3_unit {o : FmtDAB} {w : Word → Word → Word → Word} {s : State} (hm : mayRun vectorUnit s)
    (hr : (rule3 o w).ready s) :
    completes (rule3 o w) s (runUnit vectorUnit o.sw s (aluUnit3 o.d o.a o.b (lift3 w))) :=
  ruleUnit (r := rule3 o w) (fun _ _ => rfl) (fun _ => rfl) (fun l hl => lane_lift3 _ _ _ _ l hl) (tag_lift3 _ _ _ _) hm hr

theorem rule1_unit {d a : BitVec 7} {sw : Bool} {tag : List (BitVec 2) → BitVec 2} {w : Word → Word} {f : RegVal → RegVal}
    (hv : ∀ v l, l < 128 → (f v).lane l = w (v.lane l)) (ht : ∀ v, (f v).tag = tag [v.tag]) {s : State}
    (hm : mayRun vectorUnit s) (hr : (rule1 d a tag w).ready s) :
    completes (rule1 d a tag w) s (runUnit vectorUnit sw s (aluUnit1 d a f)) :=
  ruleUnit (r := rule1 d a tag w) (fun _ _ => rfl) (fun _ => rfl) (fun l hl => hv _ l hl) (ht _) hm hr

/-- Two sources, by words: the model's operation is the rule's. -/
theorem lift2_unit {o : FmtDAB} {w m : Word → Word → Word} (e : ∀ x y, m x y = w x y) {s : State} (hm : mayRun vectorUnit s)
    (hr : (rule2 o plainTag w).ready s) :
    completes (rule2 o plainTag w) s (runUnit vectorUnit o.sw s (aluUnit o.d o.a o.b (lift2 m))) :=
  rule2_unit (fun _ _ l hl => by rw [lane_lift2 _ _ _ l hl, e]) (tag_lift2 _) hm hr

theorem lift3_unit {o : FmtDAB} {w m : Word → Word → Word → Word} (e : ∀ x y z, m x y z = w x y z) {s : State}
    (hm : mayRun vectorUnit s) (hr : (rule3 o w).ready s) :
    completes (rule3 o w) s (runUnit vectorUnit o.sw s (aluUnit3 o.d o.a o.b (lift3 m))) := by
  have : m = w := by funext x y z; exact e x y z
  rw [this]; exact rule3_unit hm hr

theorem lift1_unit {d a : BitVec 7} {sw : Bool} {w m : Word → Word} (e : ∀ x, m x = w x) {s : State}
    (hm : mayRun vectorUnit s) (hr : (rule1 d a plainTag w).ready s) :
    completes (rule1 d a plainTag w) s (runUnit vectorUnit sw s (aluUnit1 d a (lift1 m))) :=
  rule1_unit (fun _ l hl => by rw [lane_lift1 _ _ l hl, e]) (tag_lift1 _) hm hr

theorem ruleU_unit {k : UnitKind} {d : BitVec 7} {sw : Bool} {f m : Gang → Word} {s : State} {body : State → Try Done}
    (hbody : ∀ u : State, barely s u → body u = regUnit u d.toNat [] [] fun g => .u (m g))
    (hres : ∀ b, m (turned b s.cur) = m s.cur) (e : m s.cur = f s.cur) (hm : mayRun k s) (hr : (ruleU k d f).ready s) :
    completes (ruleU k d f) s (runUnit k sw s body) :=
  ruleUnit (r := ruleU k d f) hbody (fun b => by simp only [hres b]) (fun _ _ => e) rfl hm hr

theorem sel_unit {o : FmtSel} {s : State} (hm : mayRun vectorUnit s) (hr : (selRule o).ready s) :
    completes (selRule o) s (runUnit vectorUnit o.sw s fun s => regUnit s o.d.toNat [o.a.toNat, o.b.toNat] [] fun g =>
      selVal g o.k.toNat (g.val o.a.toNat) (g.val o.b.toNat)) :=
  ruleUnit (r := selRule o) (fun _ _ => rfl) (fun _ => rfl) (fun l hl => lane_sel _ _ _ _ l hl)
    (by
      have : o.k.toNat = 0 ↔ o.k = 0 := ⟨fun h => BitVec.eq_of_toNat_eq h, fun h => by rw [h]; rfl⟩
      simp only [tag_sel, selRule, this]) hm hr

theorem movl_unit {o : FmtDAB} {s : State} (hm : mayRun vectorUnit s) (hr : (movlRule o).ready s) :
    completes (movlRule o) s (runUnit vectorUnit o.sw s fun s => regUnit s o.d.toNat [o.a.toNat, o.b.toNat]
      [o.a.toNat, o.b.toNat] fun g => .a (g.uni o.a.toNat) (g.uni o.b.toNat)) :=
  ruleUnit (r := movlRule o) (fun _ _ => rfl) (fun _ => rfl)
    (fun l hl => by simp only [movlRule, word_add, word_mul, word_nat, BitVec.ofNat_toNat, BitVec.setWidth_eq]; rfl) rfl hm hr

end Sys2Proof.Laws
end

