-- ==== Sys2Proof/Laws/Masks.lean ====
section
/-! SUPPORT. Units whose result is a mask: the bits they write, and comparisons by numbers. -/
namespace Sys2Proof.Laws
open Sys2Proof.Machine Sys2Proof.Safety Sys2Proof.Spec

theorem inMask_and (a b : Mask) (l : Nat) : inMask (a &&& b) l = (inMask a l && inMask b l) := by simp [inMask]
theorem inMask_and_fun (a b : Mask) : inMask (a &&& b) = fun l => inMask a l && inMask b l := funext (inMask_and a b)
theorem inMask_or (a b : Mask) (l : Nat) : inMask (a ||| b) l = (inMask a l || inMask b l) := by simp [inMask]
theorem inMask_xor (a b : Mask) (l : Nat) : inMask (a ^^^ b) l = (inMask a l != inMask b l) := by simp [inMask]
theorem inMask_not (a : Mask) (l : Nat) (h : l < 128) : inMask (~~~a) l = !inMask a l := by simp [inMask, h]

theorem inMask_foldl (p : Nat → Bool) (l : Nat) (hl : l < 128) (ls : List Nat) (m : Mask) :
    inMask (ls.foldl (fun m x => if p x then m ||| (1#128 <<< x) else m) m) l =
      (inMask m l || (decide (l ∈ ls) && p l)) := by
  induction ls generalizing m with
  | nil => simp
  | cons x r ih =>
    simp only [List.foldl_cons]
    rw [ih]
    have hb : inMask (1#128 <<< x) l = decide (l = x) := by
      simp only [inMask, BitVec.getLsbD_shiftLeft, hl, decide_true, Bool.true_and, BitVec.getLsbD_one]
      by_cases h : l = x
      · subst h; simp
      · simp [h]; omega
    by_cases hx : p x = true
    · simp only [hx, if_true, inMask_or, hb, List.mem_cons]
      by_cases h : l = x
      · subst h; simp [hx]
      · simp [h]
    · simp only [hx, List.mem_cons]
      by_cases h : l = x
      · subst h; simp [hx]
      · simp [h]

/-- The bits of a mask made from a test. -/
theorem inMask_maskOf (p : Nat → Bool) (l : Nat) (h : l < 128) : inMask (maskOf p) l = p l := by
  unfold maskOf
  rw [inMask_foldl p l h]
  have hm : l ∈ lanes := by simp [lanes, upto, h]
  simp [inMask, hm]

/-- What writing a mask leaves (R56). -/
theorem mask_setMask (g : Gang) (m : Nat) (act v : Mask) (k l : Nat) (hk : k ≤ 7) (hl : l < 128) :
    inMask ((g.setMask m act v).mask k) l = if k = m ∧ k ≠ 0 ∧ inMask act l = true then inMask v l else inMask (g.mask k) l := by
  cases m with
  | zero => cases k <;> simp [Gang.setMask]
  | succ m =>
    cases k with
    | zero => simp [Gang.setMask, Gang.mask]
    | succ k =>
      have h7 : k < 7 := by omega
      simp only [Gang.setMask, Gang.mask, upto]
      rw [List.getD_eq_getElem?_getD, List.getElem?_map, List.getElem?_range h7]
      simp only [Option.map_some, Option.getD_some]
      by_cases e : k = m
      · subst e
        simp only [if_true, inMask_or, inMask_and, inMask_not _ _ hl]
        by_cases ha : inMask act l = true <;> simp [ha]
      · have : ¬ (k + 1 = m + 1) := by omega
        simp [e]

theorem setMask_rest (g : Gang) (m : Nat) (act v : Mask) : ({ g.setMask m act v with masks := g.masks } : Gang) = g := by
  cases m <;> rfl

/-- A unit with a mask result. -/
theorem unit_mask {r : MaskRule} {sw : Bool} {s : State} {res : Gang → Mask} {srcs uniform : List Nat} {body : State → Try Done}
    (hbody : ∀ u, body u = maskUnit u r.dst.toNat srcs uniform res) (hs : srcs = r.reads)
    (hu : uniform = r.uniform)
    (hbit : ∀ l, l < 128 → inMask (res s.cur) l = r.bit s.cur l) (hm : mayRun vectorUnit s) (hr : r.ready s) :
    ∃ t, runUnit vectorUnit sw s body = .next t ∧ goesTo s t (after s.cur 4) ∧ r.result s t := by
  subst hs; subst hu
  have hbegun : s.begun vectorUnit = s := rfl
  have c1 : s.cur.checkRegs r.reads = .ok () := by
    simp only [Gang.checkRegs, check, List.all_eq_true, decide_eq_true_eq]; rw [if_pos]
    exact fun x hx => (hr.1 x hx).1
  have c2 : s.cur.checkUniform r.uniform = .ok () := by
    simp only [Gang.checkUniform, check, List.all_eq_true]; rw [if_pos]
    exact fun x hx => (isU_iff _).2 (hr.2 x hx)
  have c3 : s.cur.checkReady r.reads = .ok () := by
    simp only [Gang.checkReady, check, List.all_eq_true, Option.isNone_iff_eq_none]; rw [if_pos]
    exact fun x hx => (hr.1 x hx).2
  have hb : body (s.begun vectorUnit) = .ok (done (s.modCur fun g => g.setMask r.dst.toNat g.act (res g))) := by
    rw [hbegun, hbody]; simp only [maskUnit, Gang.checkOperands, c1, c2, c3]
  have hk : ctlKept s (s.modCur fun g => g.setMask r.dst.toNat g.act (res g)) := by
    have := setMask_rest s.cur r.dst.toNat s.cur.act (res s.cur)
    exact ⟨(congrArg (fun g : Gang => g.ctl.mask) this :), (congrArg (fun g : Gang => g.ctl.redo) this :),
      (congrArg Gang.frag this :), (congrArg Gang.table this :), (congrArg shape this :)⟩
  obtain ⟨t, ht, hc, hg⟩ := unit_done (sw := sw) hm hb hk
  refine ⟨t, ht, hg, ⟨?_, ?_⟩, ?_⟩
  · have h1 : calmGang ({ t.cur with masks := s.cur.masks } : Gang) = calmGang s.cur := by
      have e : calmGang t.cur = calmGang (s.cur.setMask r.dst.toNat s.cur.act (res s.cur)) := (congrArg State.cur hc.1 :)
      have e2 := congrArg (fun g : Gang => ({ g with masks := s.cur.masks } : Gang)) e
      have e3 := congrArg calmGang (setMask_rest s.cur r.dst.toNat s.cur.act (res s.cur))
      exact (show calmGang ({ t.cur with masks := s.cur.masks } : Gang) = _ from e2).trans e3
    have h2 := congrArg (fun x : State => ({ x with cur := calmGang s.cur } : State)) hc.1
    have h3 : calm ({ t with cur := { t.cur with masks := s.cur.masks } } : State) =
        ({ calm t with cur := calmGang ({ t.cur with masks := s.cur.masks } : Gang) } : State) := rfl
    rw [h3, h1]; exact h2
  · exact hc.2
  · intro m l hm7 hl
    have e : t.cur.masks = (s.cur.setMask r.dst.toNat s.cur.act (res s.cur)).masks := (congrArg (fun x : State => x.cur.masks) hc.1 :)
    have hmask (g h : Gang) (e : g.masks = h.masks) : g.mask m = h.mask m := by
      unfold Gang.mask; rw [e]
    have e2 := hmask _ _ e
    rw [e2, mask_setMask _ _ _ _ _ _ hm7 hl]
    by_cases h : m = r.dst.toNat ∧ m ≠ 0 ∧ inMask s.cur.act l = true
    · rw [if_pos h, if_pos h, hbit l hl]
    · rw [if_neg h, if_neg h]

/-- The comparison codes by numbers (R103, R177). -/
theorem icmpHolds_word {k : Nat} (c : BitVec 4) (x y : BitVec k) : icmpHolds c x y = comparesWords c x y := by
  have h0 (a b c : Bool) : (ccWord a b c).getLsbD 0 = a ∧ (ccWord a b c).getLsbD 1 = b ∧ (ccWord a b c).getLsbD 2 = c := by
    cases a <;> cases b <;> cases c <;> decide
  obtain ⟨e1, e2, e3⟩ := h0 (x == y) (x.slt y) (x.ult y)
  unfold icmpHolds ccHolds comparesWords compares ucmpWord
  simp only [e1, e2, e3]
  have he : (x == y) = decide (x.toInt = y.toInt) := by
    rw [Bool.eq_iff_iff]; simp [BitVec.toInt_inj]
  have hn : (x == y) = decide (x.toNat = y.toNat) := by
    rw [Bool.eq_iff_iff]; simp [BitVec.toNat_inj]
  have hi : x.toInt = y.toInt ↔ x.toNat = y.toNat := by rw [BitVec.toInt_inj, BitVec.toNat_inj]
  rw [BitVec.slt_eq_decide, BitVec.ult_eq_decide, he]
  generalize c.toNat = n
  rcases n with _ | _ | _ | _ | _ | _ | _ | _ | _ | _ | _ | n <;> first
    | rfl
    | (rw [Bool.eq_iff_iff]
       simp only [Bool.or_eq_true, Bool.not_eq_true', Bool.or_eq_false_iff, decide_eq_true_eq, decide_eq_false_iff_not, ne_eq]
       try omega)

end Sys2Proof.Laws
end

