-- ==== Sys2Proof/Laws/Memory.lean ====
section
/-! SUPPORT. Sparse memory: a read after a write, a write leaves every other byte alone, and every operation keeps the
canonical form. -/
namespace Sys2Proof.Machine
namespace MemoryLaws

@[simp] theorem read_nil (a : Nat) : Memory.read [] a = Memory.unlisted := rfl

theorem read_cons (a : Nat) (b : Byte) (r : List Host.Cell) (h : ∀ x, x ≤ a → Memory.read r x = Memory.unlisted) (x : Nat) :
    Memory.read (Memory.cons a b r) x = if x = a then b else Memory.read r x := by
  unfold Memory.cons
  split
  · next hb => subst hb; split
               · next hx => subst hx; exact h x (Nat.le_refl x)
               · rfl
  · simp only [Memory.read]
    split
    · rfl
    · split
      · next hlt => rw [h x (Nat.le_of_lt hlt)]
      · rfl

theorem wfAbove_mono {lo hi : Nat} : ∀ {m : List Host.Cell}, Memory.wfAbove hi m = true → lo ≤ hi → Memory.wfAbove lo m = true
  | [], _, _ => rfl
  | (k, b) :: r, h, hl => by
    simp only [Memory.wfAbove, Bool.and_eq_true, decide_eq_true_eq] at h ⊢
    exact ⟨⟨Nat.le_trans hl h.1.1, h.1.2⟩, h.2⟩

theorem read_below : ∀ {m : List Host.Cell} {lo x : Nat}, Memory.wfAbove lo m = true → x < lo → Memory.read m x = Memory.unlisted
  | [], _, _, _, _ => rfl
  | (k, b) :: r, lo, x, h, hx => by
    simp only [Memory.wfAbove, Bool.and_eq_true, decide_eq_true_eq] at h
    have hk : x < k := Nat.lt_of_lt_of_le hx h.1.1
    simp [Memory.read, Nat.ne_of_lt hk, hk]

theorem wfAbove_cons {lo a : Nat} {b : Byte} {r : List Host.Cell} (hl : lo ≤ a) (h : Memory.wfAbove (a + 1) r = true) :
    Memory.wfAbove lo (Memory.cons a b r) = true := by
  unfold Memory.cons
  split
  · exact wfAbove_mono h (by omega)
  · next hb => simp [Memory.wfAbove, hl, hb, h]

theorem write_wfAbove : ∀ {m : List Host.Cell} {lo a : Nat} {b : Byte}, Memory.wfAbove lo m = true → lo ≤ a →
    Memory.wfAbove lo (Memory.write m a b) = true
  | [], lo, a, b, _, hl => wfAbove_cons hl rfl
  | (k, x) :: r, lo, a, b, h, hl => by
    have h' := h
    simp only [Memory.wfAbove, Bool.and_eq_true, decide_eq_true_eq] at h
    unfold Memory.write
    split
    · next e => subst e; exact wfAbove_cons hl h.2
    · split
      · next e => exact wfAbove_cons hl (by simp [Memory.wfAbove, h.1.2, h.2]; omega)
      · next e1 e2 =>
        simp only [Memory.wfAbove, Bool.and_eq_true, decide_eq_true_eq]
        exact ⟨h.1, write_wfAbove h.2 (by omega)⟩

theorem write_wf {m : List Host.Cell} (a : Nat) (b : Byte) (h : Memory.wf m = true) : Memory.wf (Memory.write m a b) = true :=
  write_wfAbove h (Nat.zero_le a)

theorem writeBytes_wf : ∀ (bs : List Byte) {m : List Host.Cell} (a : Nat), Memory.wf m = true → Memory.wf (Memory.writeBytes m a bs) = true
  | [], _, _, h => h
  | b :: r, _, a, h => writeBytes_wf r (a + 1) (write_wf a b h)

theorem writeNat_wf {m : List Host.Cell} (a n v : Nat) (h : Memory.wf m = true) : Memory.wf (Memory.writeNat m a n v) = true :=
  writeBytes_wf _ a h

theorem copyRange_wf {dst : List Host.Cell} (src : List Host.Cell) (a n : Nat) (h : Memory.wf dst = true) :
    Memory.wf (Memory.copyRange src dst a n) = true := writeBytes_wf _ a h

theorem filter_wfAbove (p : Host.Cell → Bool) : ∀ {m : List Host.Cell} {lo : Nat}, Memory.wfAbove lo m = true →
    Memory.wfAbove lo (m.filter p) = true
  | [], _, _ => rfl
  | (k, b) :: r, lo, h => by
    simp only [Memory.wfAbove, Bool.and_eq_true, decide_eq_true_eq] at h
    simp only [List.filter_cons]
    split
    · simp only [Memory.wfAbove, Bool.and_eq_true, decide_eq_true_eq]; exact ⟨h.1, filter_wfAbove p h.2⟩
    · exact wfAbove_mono (filter_wfAbove p h.2) (by omega)

theorem clearRange_wf {m : List Host.Cell} (a n : Nat) (h : Memory.wf m = true) : Memory.wf (Memory.clearRange m a n) = true :=
  filter_wfAbove _ h

/-- Every address of a store lies below a bound. -/
def Below (hi : Nat) (m : List Host.Cell) : Prop := ∀ c ∈ m, c.1 < hi

theorem append_wfAbove : ∀ {m n : List Host.Cell} {lo hi : Nat}, Memory.wfAbove lo m = true → Below hi m → Memory.wfAbove hi n = true →
    lo ≤ hi → Memory.wfAbove lo (m ++ n) = true
  | [], _, _, _, _, _, hn, hl => wfAbove_mono hn hl
  | (k, b) :: r, n, lo, hi, hm, hb, hn, hl => by
    simp only [Memory.wfAbove, Bool.and_eq_true, decide_eq_true_eq, List.cons_append] at hm ⊢
    have hk : k < hi := hb (k, b) (List.mem_cons_self ..)
    exact ⟨hm.1, append_wfAbove hm.2 (fun c hc => hb c (List.mem_cons_of_mem _ hc)) hn hk⟩

theorem filter_above {a : Nat} {p : Host.Cell → Bool} (hp : ∀ c, p c = true → a ≤ c.1) : ∀ {m : List Host.Cell} {lo : Nat},
    Memory.wfAbove lo m = true → Memory.wfAbove a (m.filter p) = true
  | [], _, _ => rfl
  | (k, b) :: r, lo, h => by
    simp only [Memory.wfAbove, Bool.and_eq_true, decide_eq_true_eq] at h
    simp only [List.filter_cons]
    split
    · next e =>
      simp only [Memory.wfAbove, Bool.and_eq_true, decide_eq_true_eq]
      exact ⟨⟨hp _ e, h.1.2⟩, filter_wfAbove p h.2⟩
    · exact filter_above hp h.2

theorem cellsFrom_wf : ∀ (bs : List Byte) (a : Nat), Memory.wfAbove a (Memory.cellsFrom a bs) = true
  | [], _ => rfl
  | _ :: r, a => wfAbove_cons (Nat.le_refl a) (cellsFrom_wf r (a + 1))

theorem cons_below {a hi : Nat} {b : Byte} {r : List Host.Cell} (ha : a < hi) (h : Below hi r) : Below hi (Memory.cons a b r) := by
  unfold Memory.cons
  split
  · exact h
  · intro c hc
    rcases List.mem_cons.mp hc with e | e
    · rw [e]; exact ha
    · exact h c e

theorem cellsFrom_below : ∀ (bs : List Byte) (a : Nat), Below (a + bs.length) (Memory.cellsFrom a bs)
  | [], _ => fun _ h => by simp [Memory.cellsFrom] at h
  | _ :: r, a => cons_below (by simp) (by have := cellsFrom_below r (a + 1); simpa [Nat.add_assoc, Nat.add_comm 1] using this)

theorem replace_wf {m : List Host.Cell} (a : Nat) (bs : List Byte) (h : Memory.wf m = true) : Memory.wf (Memory.replace m a bs) = true := by
  unfold Memory.replace Memory.wf
  have h1 : Memory.wfAbove (a + bs.length) (m.filter fun c => a + bs.length ≤ c.1) = true :=
    filter_above (by intro c hc; simpa using hc) h
  have h2 : Memory.wfAbove a (Memory.cellsFrom a bs ++ m.filter fun c => a + bs.length ≤ c.1) = true :=
    append_wfAbove (cellsFrom_wf bs a) (cellsFrom_below bs a) h1 (by omega)
  rw [List.append_assoc]
  exact append_wfAbove (filter_wfAbove _ h) (fun c hc => by simpa using (List.mem_filter.mp hc).2) h2 (Nat.zero_le a)

theorem restoreRange_wf {src dst : List Host.Cell} (a n : Nat) (hs : Memory.wf src = true) (hd : Memory.wf dst = true) :
    Memory.wf (Memory.restoreRange src dst a n) = true := by
  unfold Memory.restoreRange Memory.wf
  have h1 : Memory.wfAbove (a + n) (dst.filter fun c => a + n ≤ c.1) = true := filter_above (by intro c hc; simpa using hc) hd
  have h2 : Memory.wfAbove a (src.filter fun c => a ≤ c.1 && c.1 < a + n) = true :=
    filter_above (by intro c hc; simp only [Bool.and_eq_true, decide_eq_true_eq] at hc; exact hc.1) hs
  have h3 := append_wfAbove h2 (hi := a + n) (fun c hc => by
    have := (List.mem_filter.mp hc).2; simp only [Bool.and_eq_true, decide_eq_true_eq] at this; exact this.2) h1 (by omega)
  rw [List.append_assoc]
  exact append_wfAbove (filter_wfAbove _ hd) (fun c hc => by simpa using (List.mem_filter.mp hc).2) h3 (Nat.zero_le a)

/-- A read after a write: the byte written, every other byte as before. -/
theorem read_write : ∀ {m : List Host.Cell} {lo : Nat} (a : Nat) (b : Byte) (x : Nat), Memory.wfAbove lo m = true →
    Memory.read (Memory.write m a b) x = if x = a then b else Memory.read m x
  | [], _, a, b, x, _ => read_cons a b [] (fun _ _ => rfl) x
  | (k, y) :: r, lo, a, b, x, h => by
    simp only [Memory.wfAbove, Bool.and_eq_true, decide_eq_true_eq] at h
    unfold Memory.write
    split
    · next e =>
      subst e
      rw [read_cons a b r (fun x hx => read_below h.2 (by omega))]
      by_cases hx : x = a
      · simp [hx]
      · simp only [hx, if_false, Memory.read]
        split
        · exact read_below h.2 (by omega)
        · rfl
    · split
      · next e1 e2 =>
        rw [read_cons a b _ (fun x hx => by simp [Memory.read, show x ≠ k by omega, show x < k by omega])]
      · next e1 e2 =>
        simp only [Memory.read]
        by_cases hk : x = k
        · simp [hk, show k ≠ a by omega]
        · by_cases hlt : x < k
          · simp [hk, hlt, show x ≠ a by omega]
          · simp only [hk, hlt, if_false]
            exact read_write a b x h.2

/-- Bytes outside those written read as before. -/
theorem read_writeBytes_off : ∀ (bs : List Byte) {m : List Host.Cell} (a x : Nat), Memory.wf m = true →
    (x < a ∨ a + bs.length ≤ x) → Memory.read (Memory.writeBytes m a bs) x = Memory.read m x
  | [], _, _, _, _, _ => rfl
  | b :: r, m, a, x, h, ho => by
    simp only [List.length_cons] at ho
    rw [Memory.writeBytes, read_writeBytes_off r (a + 1) x (write_wf a b h) (by omega), read_write a b x h]
    simp [show x ≠ a by omega]

/-- The bytes written read back. -/
theorem read_writeBytes_on : ∀ (bs : List Byte) {m : List Host.Cell} (a i : Nat), Memory.wf m = true → i < bs.length →
    Memory.read (Memory.writeBytes m a bs) (a + i) = bs.getD i 0
  | [], _, _, i, _, hi => absurd hi (Nat.not_lt_zero i)
  | b :: r, m, a, 0, h, _ => by
    rw [Memory.writeBytes, read_writeBytes_off r (a + 1) (a + 0) (write_wf a b h) (by omega), read_write a b _ h]
    simp
  | b :: r, m, a, i + 1, h, hi => by
    rw [Memory.writeBytes, show a + (i + 1) = a + 1 + i by omega,
      read_writeBytes_on r (a + 1) i (write_wf a b h) (by simpa using hi)]
    simp

end MemoryLaws
end Sys2Proof.Machine
end

