-- ==== Sys2Proof/Laws/Status.lean ====
section
/-! SUPPORT. Units that change status words and streams, and the jump of the random stream (R151). -/
namespace Sys2Proof.Laws
open Sys2Proof.Machine Sys2Proof.Safety Sys2Proof.Spec

theorem check_of {p : Bool} (c : BitVec 8) (h : p = true) : check p c = .ok () := by simp [check, h]
theorem await_of {p : Bool} (h : p = true) : await p = .ok () := by simp [await, h]

/-- Registers that are there, U and ready pass every check. -/
theorem uniformReady_checks {s u : State} (rs : List Nat) (h : uniformReady s rs) (hu : u.cur.frames = s.cur.frames) :
    u.cur.checkOperands rs rs rs = .ok () := by
  have hr : u.cur.regs = s.cur.regs := by unfold Gang.regs; rw [hu]
  have hg (r : Nat) : u.cur.reg r = s.cur.reg r := by unfold Gang.reg; rw [hr]
  have c1 : u.cur.checkRegs rs = .ok () := check_of _ (by
    simp only [List.all_eq_true, decide_eq_true_eq, hr]; exact fun r hr => (h r hr).1)
  have c2 : u.cur.checkUniform rs = .ok () := check_of _ (by
    simp only [List.all_eq_true, Gang.val, hg]; exact fun r hr => (isU_iff _).2 (h r hr).2.1)
  have c3 : u.cur.checkReady rs = .ok () := check_of _ (by
    simp only [List.all_eq_true, hg, Option.isNone_iff_eq_none]; exact fun r hr => (h r hr).2.2)
  simp only [Gang.checkOperands, c1, c2, c3]

/-- A unit that only had an effect on a state: what is left is the effect, but for control and counts. -/
theorem unit_effect {k : UnitKind} {sw : Bool} {s u v : State} {body : State → Try Done} (h : mayRun k s)
    (hb : body (s.begun k) = .ok (done u)) (hc : ctlKept s u) (hv : calmly v u) :
    ∃ t, runUnit k sw s body = .next t ∧ goesTo s t (after s.cur k.len) ∧ calmly v t := by
  obtain ⟨t, ht, hcalm, hgo⟩ := unit_done (sw := sw) h hb hc
  exact ⟨t, ht, hgo, calmly_trans hv hcalm⟩

/-- Changing the gang in issue the same way from a state that differs in the turn only. -/
theorem calmly_modCur {s : State} (k : UnitKind) (f : Gang → Gang)
    (hf : ∀ b, calmGang (f (turned b s.cur)) = calmGang (f s.cur)) : calmly (s.modCur f) ((s.begun k).modCur f) := by
  obtain ⟨b, e⟩ := begun_turned s k
  rw [e]
  refine ⟨?_, fun _ => rfl⟩
  have : calm ((s.modCur (turned b)).modCur f) = ({ calm (s.modCur f) with cur := calmGang (f (turned b s.cur)) } : State) := rfl
  rw [this, hf]; rfl

/-! ## Words by bits -/

theorem eq_fromBits {n : Nat} {x : BitVec n} {f : Nat → Bool} (h : ∀ i, i < n → x.getLsbD i = f i) : x = fromBits n f := by
  apply BitVec.eq_of_getLsbD_eq
  intro i hi
  rw [fromBits_get, h i hi]; simp only [hi, decide_true, Bool.true_and]

theorem ucmpWord_spec {k : Nat} (x y : BitVec k) : ucmpWord x y = comparedCc x y := by
  unfold comparedCc
  have he : (x == y) = decide (x.toNat = y.toNat) := by
    rw [Bool.eq_iff_iff]; simp [BitVec.toNat_inj]
  unfold ucmpWord
  rw [BitVec.slt_eq_decide, BitVec.ult_eq_decide, he]
  generalize decide (x.toNat = y.toNat) = a
  generalize decide (x.toInt < y.toInt) = b
  generalize decide (x.toNat < y.toNat) = c
  apply eq_fromBits
  intro i hi
  cases a <;> cases b <;> cases c <;> interval_cases i <;> rfl

theorem setWord_spec {k : Nat} (x : BitVec k) (w : Nat) (v : Word) : setWord x w v = withWord x w v := by
  apply eq_fromBits
  intro i hi
  have hn : (BitVec.ofNat k 0xFFFFFFFF).getLsbD (i - 32 * w) = (decide (i - 32 * w < 32) && decide (i - 32 * w < k)) := by
    rw [BitVec.getLsbD_ofNat, show (0xFFFFFFFF : Nat) = 2 ^ 32 - 1 by norm_num, Nat.testBit_two_pow_sub_one, Bool.and_comm]
  simp only [setWord, BitVec.getLsbD_or, BitVec.getLsbD_and, BitVec.getLsbD_not, BitVec.getLsbD_shiftLeft, hn,
    BitVec.getLsbD_setWidth, hi, decide_true, Bool.true_and]
  by_cases h1 : i < 32 * w
  · simp [h1, show ¬ 32 * w ≤ i by omega]
  · have h3 : i - 32 * w < k := by omega
    by_cases h2 : i < 32 * w + 32
    · simp [h1, h2, h3, show 32 * w ≤ i by omega, show i - 32 * w < 32 by omega]
    · have : v.getLsbD (i - 32 * w) = false := BitVec.getLsbD_of_ge _ _ (by omega)
      simp [h1, h2, this, show ¬ i - 32 * w < 32 by omega]

/-! ## The stream (R151) -/

/-- n steps of an affine map. -/
def affine (a c : Dword) : Nat → Dword → Dword
  | 0, x => x
  | n + 1, x => a * affine a c n x + c

theorem affine_add (a c : Dword) (m n : Nat) (x : Dword) : affine a c (m + n) x = affine a c m (affine a c n x) := by
  induction m with
  | zero => simp [affine]
  | succ m ih => rw [show m + 1 + n = (m + n) + 1 by omega]; simp only [affine, ih]

theorem affine_square (a c : Dword) (n : Nat) (x : Dword) : affine (a * a) (a * c + c) n x = affine a c (2 * n) x := by
  induction n with
  | zero => rfl
  | succ n ih =>
    rw [show 2 * (n + 1) = 2 * n + 1 + 1 by omega]
    simp only [affine, ih]; ring

theorem jumpBits_spec (d : Dword) (fuel i : Nat) (a c x : Dword) (h : fuel + i = 64) :
    jumpBits d fuel i a c x = affine a c (d.toNat / 2 ^ i) x := by
  induction fuel generalizing i a c x with
  | zero =>
    have : d.toNat / 2 ^ i = 0 := Nat.div_eq_of_lt (by rw [show i = 64 by omega]; exact d.isLt)
    rw [this]; rfl
  | succ fuel ih =>
    rw [jumpBits, ih _ _ _ _ (by omega), affine_square]
    have hb : d.toNat / 2 ^ i = 2 * (d.toNat / 2 ^ (i + 1)) + (d.getLsbD i).toNat := by
      rw [pow_succ, ← Nat.div_div_eq_div_mul, BitVec.getLsbD, Nat.testBit_eq_decide_div_mod_eq]
      have := Nat.div_add_mod (d.toNat / 2 ^ i) 2
      rcases Nat.mod_two_eq_zero_or_one (d.toNat / 2 ^ i) with h0 | h0 <;> simp [h0] at this ⊢ <;> omega
    rw [hb]
    cases d.getLsbD i <;> simp [affine_add, affine]

theorem jump_spec (x d : Dword) : jump x d = streamAfter x d.toNat := by
  have e (n : Nat) : affine rngA rngC n x = streamAfter x n := by
    induction n with
    | zero => rfl
    | succ n ih => simp only [affine, streamAfter, ih]; rfl
  rw [jump, jumpBits_spec d 64 0 _ _ _ rfl, ← e]; simp

end Sys2Proof.Laws
end

