-- ==== Sys2Proof/Tests/Small.lean ====
section
/-! SUPPORT. Small states for the tests: one gang loaded at address 0x100 as log 15 says, changed by a few helpers. -/
namespace Sys2Proof.Tests
open Sys2Proof.Machine Sys2Proof.Spec

/-- One gang of one crew on core 0 of device 0, user mode, 128 registers that hold 0. -/
def base : State := { State.reset.loadGang with boot := .running, partition := some 8 }

/-- A uniform register. -/
def uni (n : Nat) : Reg := { val := .u (BitVec.ofNat 32 n), pend := none }

/-- A general register whose lanes hold a function's values. -/
def wide (f : Nat → Nat) : Reg := { val := .g ((List.range 128).map fun l => BitVec.ofNat 32 (f l)), pend := none }

/-- A register of the top frame replaced. -/
def put (s : State) (r : Nat) (v : Reg) : State := s.modCur fun g => g.modTop fun f => { f with regs := f.regs.set r v }

/-- Uniform registers from r on. -/
def puts (s : State) (r : Nat) : List Nat → State
  | [] => s
  | n :: l => puts (put s r (uni n)) (r + 1) l

def onGang (s : State) (f : Gang → Gang) : State := { s with cur := f s.cur }
def onCtx (s : State) (f : Context → Context) : State := { s with contexts := s.contexts.map f }
def onCrew (s : State) (f : Crew → Crew) : State := { s with crews := s.crews.map f }
def onCore (s : State) (f : CoreSt → CoreSt) : State := { s with cores := s.cores.map f }

/-- Only lane l is in the execution mask. -/
def lone (l : Nat) (s : State) : State := onGang s fun g => { g with ctl := { g.ctl with mask := 1#128 <<< l } }

/-- No lane is in the execution mask. -/
def nobody (s : State) : State := onGang s fun g => { g with ctl := { g.ctl with mask := 0 } }

/-- A handler for a code, at 0x200 with 16 registers. -/
def handled (code : Nat) (s : State) : State := onCtx s fun c => { c with handlers := [{ code := code, entry := 0x200, nf := 2, gf := 0 }] }
def theHandler (code : Nat) : Handler := { code := code, entry := 0x200, nf := 2, gf := 0 }

/-- A register waits for an operation. -/
def waits (s : State) (r op ix : Nat) : State :=
  put s r { val := .g (List.replicate 128 0), pend := some { op := op, ix := ix } }

/-- The next state of an outcome. -/
def after (r : Host.Outcome State Fault Refusal) : Option State :=
  match r with
  | .next t => some t
  | _ => none

/-- A test of the next state. -/
def leads (r : Host.Outcome State Fault Refusal) (p : State → Bool) : Bool := (after r).any p

theorem after_eq {r : Host.Outcome State Fault Refusal} {t : State} (h : after r = some t) : r = .next t := by
  cases r <;> simp_all [after]

/-- The value of a result that is no error. -/
def got {ε α : Type} (x : Except ε α) (d : α) : α :=
  match x with
  | .ok a => a
  | .error _ => d

theorem ok_eq {ε α : Type} {x : Except ε α} {y : α} (h : x.toOption = some y) : x = .ok y := by
  cases x <;> simp_all [Except.toOption]

theorem ok_got {ε α : Type} {x : Except ε α} (d : α) (h : x.toOption.isSome = true) : x = .ok (got x d) := by
  cases x <;> simp_all [Except.toOption, got]

/-- An entry of the split table is one of its elements. -/
theorem entry_mem {g : Gang} {i : Nat} {e : Entry} (h : g.entry? i = some e) : some e ∈ g.table := by
  unfold Gang.entry? at h
  cases he : g.table[i]? with
  | none => simp [he] at h
  | some x => exact List.mem_of_getElem? (he.trans (by simpa [he] using h))

/-- The registers of a handler frame and of a callee. -/
def someFrame (f : Frame → Frame) : Frame :=
  f { ret := 0x180, nf := 2, gf := 0, marked := false, flattened := false, handler := false, splitMade := false, spare := 0,
      regs := List.replicate 16 freshReg, save := noSave }

/-- A frame above the gang's own, which has given it its top eight registers. -/
def calls (s : State) (f : Frame → Frame) : State :=
  onGang s fun g => match g.frames with
    | c :: r => { g with frames := someFrame f :: { c with regs := c.regs.take 120 } :: r }
    | [] => g

end Sys2Proof.Tests
end

