-- ==== Sys2Proof/Tests/Slice0.lean ====
section
/-! SUPPORT. Small tests: ill-formed terms are refused, words of the spec's encodings decode, one step of instructions on
small states. Expected values are the spec's examples or worked by hand from its rules; each names its rule. -/
namespace Sys2Proof.Tests
set_option Elab.async false
open Sys2Proof.Machine Sys2Proof.Spec

/-! ## Ill-formed terms -/

/-- R103: condition codes 12 to 15 do not exist for `bcc`. -/
theorem test_wf_condition : (Instr.bcc ⟨false, 12, 0⟩).illegal = some .subfield := by decide
/-- R98: a pair register is even. -/
theorem test_wf_pair : (Instr.jtab ⟨false, 0, 3, 0⟩).illegal = some .registerField := by decide
/-- R98: a record of four registers starts at a multiple of four. -/
theorem test_wf_record4 : (Instr.cpy ⟨false, 2, 4, 0⟩).illegal = some .registerField := by decide
/-- R98: a record of sixteen registers starts at a multiple of sixteen. -/
theorem test_wf_record16 : (Instr.mbrecv ⟨false, 8, 0⟩).illegal = some .registerField := by decide
/-- R98: the six registers of a range end within v127. -/
theorem test_wf_record6 : (Instr.rrset ⟨false, 0, 124⟩).illegal = some .registerField := by decide
/-- R109 case 5: m0 is no destination. -/
theorem test_wf_maskZero : (Instr.mand ⟨false, 0, 1, 2⟩).illegal = some .maskZero := by decide
/-- R104: a dword operand is a pair. -/
theorem test_wf_dword : (Instr.ldx ⟨false, 5, 2, 8, 0, 3⟩).illegal = some .registerField := by decide
/-- R104: scope 7 does not exist. -/
theorem test_wf_scope : (Instr.lda ⟨false, 4, 2, 2, 7⟩).illegal = some .subfield := by decide
/-- R109 case 7: special register 17, and word 1 of `$CC`. -/
theorem test_wf_special : (Instr.mfs ⟨false, 0, 0, 17⟩).illegal = some .specialRegister ∧
    (Instr.mfs ⟨false, 0, 1, 6⟩).illegal = some .specialRegister := by decide
/-- R140: codes below 0x40 cannot be raised by `trap`. -/
theorem test_wf_trap : (Instr.trap ⟨false, 0x3F⟩).illegal = some .subfield := by decide
/-- R232: `cas` on dwords reads four registers from a multiple of four. -/
theorem test_wf_cas : (Instr.atom ⟨false, 2, 4, 10, 3, 0, 5⟩).illegal = some .registerField := by decide
/-- R232: operation codes 12 to 15 and sizes below a word do not exist for `atom`. -/
theorem test_wf_atom : (Instr.atom ⟨false, 2, 4, 12, 2, 0, 5⟩).illegal = some .subfield ∧
    (Instr.atom ⟨false, 2, 4, 0, 1, 0, 5⟩).illegal = some .subfield := by decide
/-- R21: a message has sixteen words. -/
theorem test_wf_message : (Instr.hostPost 0 0 [1]).illegal = some .eventForm := by decide
/-- R366: a chunk of an image has 48 bytes. -/
theorem test_wf_chunk : (Instr.download false 0 []).illegal = some .eventForm := by decide
/-- R361: a flit carries 56 bytes. -/
theorem test_wf_flit : (Instr.linkFlitReceive 0 ⟨0, []⟩ true).illegal = some .eventForm := by decide

/-! ## Decoding: words worked out in the spec -/

/-- A decoded word. -/
def reads (w : Word) (i : Instr) : Bool :=
  match decodeWord w with
  | .ok j => decide (i = j)
  | .error _ => false

/-- A word that is refused for a reason of R109. -/
def refuses (w : Word) (e : Illegal) : Bool :=
  match decodeWord w with
  | .ok _ => false
  | .error f => decide (e = f)

theorem test_decode_ret_marked : reads 0x88000000 (.ret ⟨true⟩) = true := by decide +kernel
theorem test_decode_icmp_dword : reads 0x2C2C1031 (.icmpD ⟨false, 1, 6, 4, 6⟩) = true := by decide +kernel
theorem test_decode_mfs : reads 0x3B0C0006 (.mfs ⟨false, 6, 0, 6⟩) = true := by decide +kernel
theorem test_decode_fdiv : reads 0x40102453 (.fdiv ⟨false, 8, 9, 10⟩) = true := by decide +kernel
theorem test_decode_fscb : reads 0x48102450 (.fscb ⟨false, 8, 9, 10⟩) = true := by decide +kernel
theorem test_decode_fexp2 : reads 0x49102400 (.fexp2 ⟨false, 8, 9⟩) = true := by decide +kernel
theorem test_decode_lds : reads 0x6A103004 (.lds ⟨false, 8, 12, 4⟩) = true := by decide +kernel
theorem test_decode_sts : reads 0x6B1033FF (.sts ⟨false, 8, 12, 0x3FF⟩) = true := by decide +kernel
theorem test_decode_stx : reads 0x6914106F (.stx ⟨false, 10, 4, 13, 1, 3⟩) = true := by decide +kernel
theorem test_decode_str : reads 0x6D0C22A0 (.str ⟨false, 6, 8, 2, 5⟩) = true := by decide +kernel
theorem test_decode_cas : reads 0x6E1012AA (.atom ⟨false, 8, 4, 10, 2, 1, 2⟩) = true := by decide +kernel
theorem test_decode_datom : reads 0x6F101060 (.datom ⟨false, 8, 4, 1, 2⟩) = true := by decide +kernel
theorem test_decode_pref : reads 0x73001020 (.pref ⟨false, 4, 4⟩) = true := by decide +kernel
theorem test_decode_mmaO : reads 0x763240C1 (.mmaO ⟨false, 3, 1, 16, 24⟩) = true := by decide +kernel
theorem test_decode_mmasS8 : reads 0x77404103 (.mmasS8 ⟨false, 4, 0, 16, 32⟩) = true := by decide +kernel
theorem test_decode_mdrainR : reads 0x79200100 (.mdrainR ⟨false, 2, 32⟩) = true := by decide +kernel
theorem test_decode_mdrainG : reads 0x79204002 (.mdrainG ⟨false, 2, 16⟩) = true := by decide +kernel
theorem test_decode_pmap : reads 0x7C001030 (.pmap ⟨false, 4, 6⟩) = true := by decide +kernel

theorem test_decode_fence_seq : reads 0x70000033 (.fence ⟨false, 6, 3⟩) = true := by decide +kernel
/-- R97: major opcode 0x3F is reserved. -/
theorem test_decode_reserved : refuses 0x3F000000 .reservedMajor = true := by decide +kernel
/-- The decoder reads the bytes of a word little-endian and leaves what follows. -/
theorem test_decode_bytes : decodeTableWord 32 0x40102450 = some (.fadd ⟨false, 8, 9, 10⟩) ∧
    decodeTableWord 16 0x0000 = some (.nop ⟨false⟩) := by decide +kernel

/-! ## One unit -/

/-- A value of a register's lane after one instruction. -/
def gives (i : Instr) (s : State) (x l : Nat) (v : Nat) : Bool := leads (exec i s) fun t => t.cur.lane x l == BitVec.ofNat 32 v

/-- Lane l holds the value at l of a list, 0 beyond it. -/
def listed (v : List Nat) : Reg := wide fun l => v.getD l 0

/-- 04_registers_notes: v9 is U 5, the guard is m3 = lanes 0 to 63, then `iaddi v9, v9, 1`. -/
def guarded : State := onGang (put base 9 (uni 5)) fun g => { g with masks := g.masks.set 2 (BitVec.ofNat 128 (2 ^ 64 - 1)), mode := 3 * 2 ^ 23 }
theorem test_iaddi_guard : leads (exec (.iaddi ⟨false, 9, 9, 1⟩) guarded) (fun t => (t.cur.val 9).tag == 2 && t.cur.lane 9 63 == 6 &&
    t.cur.lane 9 64 == 5 && t.cur.ctl.pc == 0x104) = true := by decide +kernel
/-- R167: a sum wraps. -/
theorem test_iadd_wraps : gives (.iadd ⟨false, 2, 2, 2⟩) (put base 2 (uni 0x80000001)) 2 127 2 = true := by decide +kernel
/-- 26_scheduling_notes: lane 1 of l − 8. -/
theorem test_isub_order : gives (.isub ⟨false, 4, 5, 6⟩) (put (put base 6 (uni 8)) 5 (wide id)) 4 1 0xFFFFFFF9 = true := by decide +kernel
/-- 26_scheduling_notes: lane 30 of min(l, 8); the comparison is signed. -/
theorem test_imin_signed : gives (.imin ⟨false, 4, 5, 6⟩) (put (put base 6 (uni 8)) 5 (wide id)) 4 30 8 = true ∧
    gives (.imin ⟨false, 4, 5, 6⟩) (put (put base 6 (uni 8)) 5 (uni 0xFFFFFFFF)) 4 0 0xFFFFFFFF = true := by decide +kernel
/-- R176: control 0x704 selects eight bits at bit 4. -/
def field704 (a d : Nat) : State := put (put (put base 2 (uni a)) 3 (uni 0x704)) 1 (uni d)
theorem test_bfx : gives (.bfxu ⟨false, 1, 2, 3⟩) (field704 0x1234ABCD 0) 1 0 0xBC = true ∧
    gives (.bfx ⟨false, 1, 2, 3⟩) (field704 0x1234ABCD 0) 1 0 0xFFFFFFBC = true := by decide +kernel
theorem test_bfi : gives (.bfi ⟨false, 1, 2, 3⟩) (field704 0x5A 0xFFFFFFFF) 1 0 0xFFFFF5AF = true := by decide +kernel
/-- R97: the branch offset counts words from the next one. -/
theorem test_br_back : leads (exec (.br ⟨false, 0xFFFFFF⟩) base) (fun t => t.cur.ctl.pc == 0x100) = true := by decide +kernel

/-! ## Worked conversions (R215) -/

def entryMode (e : Nat) (s : State) : State := onGang s fun g => { g with mode := BitVec.ofNat 32 e }
theorem test_cvt_widens : leads (exec (.cvt ⟨false, 4, 8, 1, 0⟩) (put base 8 (uni 0x3F800001))) (fun t => t.cur.lane 5 0 == 0x3FF00000 &&
    t.cur.lane 4 0 == 0x20000000 && t.cur.fstat == 0) = true := by decide +kernel
theorem test_cvti_saturates : gives (.cvti ⟨false, 6, 8, 1, 6⟩) (put base 8 (uni 0xC3960000)) 6 0 0x80 = true := by decide +kernel
theorem test_cvti_truncates : gives (.cvti ⟨false, 6, 8, 0, 4⟩) (put base 9 (uni 0xC00C0000)) 6 0 0xFFFFFFFD = true ∧
    gives (.cvt ⟨false, 6, 8, 0, 4⟩) (put base 9 (uni 0xC00C0000)) 6 0 0xFFFFFFFC = true := by decide +kernel
theorem test_cvtf_ties : gives (.cvtf ⟨false, 8, 6, 4, 1⟩) (put base 6 (uni 0x01000001)) 8 0 0x4B800000 = true := by decide +kernel
theorem test_cvtf_pair : gives (.cvtf ⟨false, 8, 6, 7, 1⟩) (puts base 6 [0xFFFFFFFF, 0x7FFFFFFF]) 8 0 0x5F000000 = true := by decide +kernel
/-- 1.5 + 2.25 = 3.75 in binary32. -/
theorem test_fadd : gives (.fadd ⟨false, 1, 2, 3⟩) (entryMode 1 (puts base 2 [0x3FC00000, 0x40100000])) 1 5 0x40700000 = true := by decide +kernel
/-- R204: `fnmac` of +0 and +0 gives −0. -/
theorem test_fnmac_zero : gives (.fnmac ⟨false, 1, 2, 3⟩) (entryMode 1 base) 1 0 0x80000000 = true := by decide +kernel

/-! ## Random draws, atomics, frames, addresses -/

/-- R158: of lanes 2, 5 and 9, lane 5 receives the upper half of the second step; the stream goes on by three. -/
theorem test_rdraw : leads (exec (.rdraw ⟨false, 12⟩) (onGang base fun g => { g with ctl := { g.ctl with mask := 0x224 } })) (fun t =>
    t.cur.rng == streamAfter base.cur.rng 3 && t.cur.flights.any (fun f => f.lanes.map (fun a => (a.lane, a.data)) ==
      [1, 2, 3].map fun k => ([2, 5, 9].getD (k - 1) 0, (streamAfter base.cur.rng k).toNat / 2 ^ 32))) = true := by decide +kernel
/-- R232: four lanes add 1, 2, 3 and 4 to 10. -/
def adding : State :=
  { onGang (put (puts base 4 [0x800, 0]) 8 (listed [1, 2, 3, 4])) (fun g => { g with ctl := { g.ctl with mask := 0xF } }) with mem := [(0x800, 10)] }
def added : Option State := (after (exec (.atom ⟨false, 8, 4, 0, 2, 1, 5⟩) adding)).bind fun t =>
  t.cur.flights.head?.bind fun f => after (exec (.loadReturn t.cur.id f.id 0xF .clean) t)
theorem test_atom_lanes : added.map (fun t => (t.mem, (List.range 4).map fun l => t.cur.lane 8 l)) = some ([(0x800, 20)], [10, 11, 13, 16]) := by
  decide +kernel
/-- 17_memory: ia 0x4012345A40 in mode 8. -/
theorem test_home_slice : base.homeSlice 0x4012345A40 = 139 := by decide +kernel
/-- 04_registers_notes: a frame of U, A and G registers over an entry frame of eight U registers: 2,624 bytes. -/
def affine : Reg := { val := .a 0x2000 8, pend := none }
theorem test_image_bytes : (onGang base fun g => { g with frames :=
    [{ someFrame id with regs := (List.range 16).map fun i => if i < 8 then uni 0 else if i < 12 then affine else wide id }, { newFrame 1 0 0 with regs := List.replicate 8 (uni 0) }] }).cur.imageBytes
      = 0xA40 := by decide +kernel
/-- R140: `trap` at 0x100 enters the handler at 0x200 and saves where to go on; `rte.skip` goes on there. -/
theorem test_trap_returns : ((after (exec (.trap ⟨false, 0x41⟩) (handled 0x41 base))).bind fun t => (after (exec (.rteSkip ⟨false⟩) t)).map fun u =>
    (t.cur.ctl.pc, t.cur.supervisor, u.cur.ctl.pc, u.cur.supervisor)) = some (0x200, true, 0x104, false) := by decide +kernel

/-! ## The step -/

/-- A step from reset with a word placed runs it: `iaddi v9, v9, 1` at 0x100. -/
theorem test_step_runs : leads (step (State.reset.withFetchWord 32 0x21122401)) (fun t => t.cur.lane 9 0 == 1 && t.cur.ctl.pc == 0x104) = true := by
  decide +kernel

end Sys2Proof.Tests
end

