-- ==== Sys2Proof/Tests/Witnesses.lean ====
section
/-! SUPPORT. For every statement with hypotheses, concrete states and operands that meet them together. -/
namespace Sys2Proof.Tests
set_option Elab.async false
open Sys2Proof.Machine Sys2Proof.Safety Sys2Proof.Spec

/-! ## Encoding and the step -/

theorem test_meets_EncodeThenDecode : ∃ w, encode (.iaddi ⟨true, 127, 127, 0x3FF⟩) = some w ∧
    (Instr.iaddi ⟨true, 127, 127, 0x3FF⟩).illegal = none := ⟨_, rfl, rfl⟩

theorem test_meets_StepRunsDecoded : ∃ t : State, base.agenda = [] ∧ base.cur.live = true ∧ base.cur.pend = [] ∧
    base.streak < Config.turnUnits ∧ base.turnsOf base.cur = [base.cur] ∧ exec (.nop ⟨false⟩) base = .next t ∧ t ≠ base :=
  ⟨(after (exec (.nop ⟨false⟩) base)).getD base, by decide +kernel, by decide +kernel, by decide +kernel, by decide +kernel,
    by decide +kernel, after_eq (by decide +kernel), by decide +kernel⟩

theorem test_meets_StepRunsDecoded_fetch : base.fetchInstr base.cur = .ok (.nop ⟨false⟩) := by rfl

/-! ## Registers, masks and status -/

theorem test_meets_IntegerResults : ∃ r, integerRule (.imad ⟨false, 127, 0, 126⟩) = some r ∧ mayRun r.kind base ∧ r.ready base :=
  ⟨_, rfl, by unfold mayRun; decide +kernel, by unfold LaneRule.ready rowsFree; decide +kernel⟩

/-- Without an active lane, and with one lane of a register whose tag must become G. -/
theorem test_meets_IntegerResults_lanes : ∃ r, integerRule (.iadd ⟨false, 1, 2, 3⟩) = some r ∧ r.ready (nobody base) ∧
    (nobody base).cur.act = 0 ∧ r.ready (lone 127 base) ∧ (lone 127 base).cur.act ≠ 0 ∧ (lone 127 base).cur.act ≠ allLanes :=
  ⟨_, rfl, by unfold LaneRule.ready rowsFree; decide +kernel, by decide +kernel, by unfold LaneRule.ready rowsFree; decide +kernel,
    by decide +kernel⟩

theorem test_meets_GangResults : ∃ r, gangRule base (.vxsh ⟨false, 9, 8, 7⟩) = some r ∧ mayRun r.kind base ∧ r.ready base :=
  ⟨_, rfl, by unfold mayRun; decide +kernel, by unfold LaneRule.ready rowsFree; decide +kernel⟩

theorem test_meets_MaskResults : ∃ r, maskResult (.icmpD ⟨false, 7, 9, 4, 126⟩) = some r ∧ mayRun vectorUnit base ∧ r.ready base :=
  ⟨_, rfl, by unfold mayRun; decide +kernel, by unfold MaskRule.ready; decide +kernel⟩

theorem test_meets_StatusResults : ∃ r, statusRule (.mts ⟨false, 1, 0, 7⟩) = some r ∧ mayRun r.kind base ∧ r.needs base :=
  ⟨_, rfl, by unfold mayRun; decide +kernel, by
    have h : base.cur.flights = [] := by decide +kernel
    exact ⟨by unfold uniformReady; decide +kernel, fun _ => by simp [lateQuiet, h]⟩⟩

/-- A frame of eight registers lacks v8; v3 waits for a load; `pmap` in user mode. -/
def shortFrame (s : State) : State := onGang s fun g => g.modTop fun f => { f with regs := f.regs.take 8 }

theorem test_meets_UnitFaults_frame : ∃ r, integerRule (.iadd ⟨false, 1, 2, 8⟩) = some r ∧
    (shortFrame (handled 5 base)).cur.ctl.wait = .ready ∧
    (∃ x ∈ r.dst :: r.reads, (shortFrame (handled 5 base)).cur.regs.length ≤ x.toNat) ∧
    canHandle (shortFrame (handled 5 base)) 0x05 (theHandler 5) :=
  ⟨_, rfl, by decide +kernel, by decide +kernel, by unfold canHandle; decide +kernel⟩

theorem test_meets_UnitFaults_hazard : ∃ r, integerRule (.iadd ⟨false, 1, 2, 3⟩) = some r ∧
    (∀ x ∈ r.dst :: r.reads, x.toNat < (waits (handled 3 base) 3 7 0).cur.regs.length) ∧
    (∃ x ∈ r.reads, ((waits (handled 3 base) 3 7 0).cur.reg x.toNat).pend ≠ none) ∧
    canHandle (waits (handled 3 base) 3 7 0) 0x03 (theHandler 3) :=
  ⟨_, rfl, by decide +kernel, by decide +kernel, by unfold canHandle; decide +kernel⟩

theorem test_meets_UnitFaults_priv : privileged (.pmap ⟨false, 4, 6⟩) = true ∧ (handled 2 base).cur.ctl.wait = .ready ∧
    canHandle (handled 2 base) 0x02 (theHandler 2) :=
  ⟨rfl, by decide +kernel, by unfold canHandle; decide +kernel⟩

/-- `movl` of a register that is not uniform. -/
def uneven : State := put (handled 4 base) 2 (wide id)

theorem test_meets_UnitFaults_uneven : ∃ r, integerRule (.movl ⟨false, 1, 2, 3⟩) = some r ∧ uneven.cur.ctl.wait = .ready ∧
    (∀ x ∈ r.dst :: r.reads, x.toNat < uneven.cur.regs.length) ∧ (∃ x ∈ r.uniform, (uneven.cur.val x.toNat).tag ≠ 0) ∧
    canHandle uneven 0x04 (theHandler 4) :=
  ⟨_, rfl, by decide +kernel, by decide +kernel, by decide +kernel, by unfold canHandle; decide +kernel⟩

/-- Entry 31 is empty; rounding mode 5. -/
def modal (code mode : Nat) : State := onGang (handled code base) fun g => { g with mode := BitVec.ofNat 32 mode }

theorem test_meets_UnitFaults_empty : ∃ r, floatRule (modal 0x11 31) (.fsub ⟨false, 1, 2, 3⟩) = some r ∧ mayRun r.kind (modal 0x11 31) ∧
    (∀ x ∈ r.even, x % 2 = 0) ∧ (∀ x ∈ r.dsts ++ r.reads, x < (modal 0x11 31).cur.regs.length) ∧
    (∃ f ∈ entriesOf (modal 0x11 31) (.fsub ⟨false, 1, 2, 3⟩), f.valid = false) ∧ canHandle (modal 0x11 31) 0x11 (theHandler 0x11) :=
  ⟨_, rfl, by unfold mayRun; decide +kernel, by decide +kernel, by decide +kernel, by decide +kernel, by unfold canHandle; decide +kernel⟩

theorem test_meets_UnitFaults_mode : ∃ r, lateRule (modal 0x10 0x508421) (.fdiv ⟨false, 1, 2, 3⟩) = some r ∧ mayRun r.kind (modal 0x10 0x508421) ∧
    (∀ x ∈ r.even, x % 2 = 0) ∧ (∀ x ∈ r.dsts ++ r.reads, x < (modal 0x10 0x508421).cur.regs.length) ∧
    (∀ f ∈ entriesOf (modal 0x10 0x508421) (.fdiv ⟨false, 1, 2, 3⟩), f.valid = true) ∧ ¬r.accepted ∧
    canHandle (modal 0x10 0x508421) 0x10 (theHandler 0x10) :=
  ⟨_, rfl, by unfold mayRun; decide +kernel, by decide +kernel, by decide +kernel, by decide +kernel, by
    intro h
    exact absurd (h.2 rfl) (by decide +kernel), by unfold canHandle; decide +kernel⟩

/-- Queue 9 of a grove of fewer; the queue number differs between lanes. -/
theorem test_meets_UnitFaults_mailbox : (∀ x ∈ 0 :: recordOf 112 16, x < (puts (handled 0x17 base) 0 [9]).cur.regs.length) ∧
    uniformReady (puts (handled 0x17 base) 0 [9]) (recordOf 112 16 ++ [0]) ∧
    (puts (handled 0x17 base) 0 [9]).here.queues ≤ ((puts (handled 0x17 base) 0 [9]).cur.lane 0 0).toNat ∧
    ((put (handled 4 base) 0 (wide id)).cur.val 0).tag ≠ 0 ∧ canHandle (puts (handled 0x17 base) 0 [9]) 0x17 (theHandler 0x17) ∧
    canHandle (put (handled 4 base) 0 (wide id)) 0x04 (theHandler 4) := by
  unfold uniformReady canHandle
  decide +kernel

/-- The role holds all its quota. -/
def spent : State := onCrew (handled 0x16 base) fun c => { c with quota := [0] }

theorem test_meets_UnitFaults_quota : ∃ c, callOf spent (.call ⟨false, 1, 1, 0⟩) = some c ∧ mayRun serialUnit spent ∧ c.needs ∧
    rowsOf c.gf ≤ regsOf c.nf ∧ spent.cur.grantMade = false ∧ spent.quotaRows spent.cur < spent.cur.held + rowsOf c.gf ∧
    canHandle spent 0x16 (theHandler 0x16) :=
  ⟨_, rfl, by unfold mayRun; decide +kernel, trivial, by decide +kernel, by decide +kernel, by decide +kernel, by unfold canHandle; decide +kernel⟩

/-- A window with a general register, and a position with 1,023 spawns. -/
def unpacked : State := put (handled 8 base) 127 (wide id)
def exhausted : State := onGang (handled 9 base) fun g => { g with ped := setElem g.ped (pedDepth g.ped) 0x3FF }

theorem test_meets_UnitFaults_spawn : ∀ s ∈ [unpacked, exhausted], mayRun serialUnit s ∧ s.cur.id.rank = 0 ∧ s.cur.frag = none ∧ s.cur.entries = [] ∧
    s.crewGangs s.cur.id.ctx s.cur.id.crew = [s.cur] ∧
    ((s.crews.find? fun x => x.ctx == s.cur.id.ctx && x.rank == s.cur.id.crew).any fun c => c.flat == none) = true := by
  refine List.forall_mem_cons.2 ⟨?_, List.forall_mem_cons.2 ⟨?_, fun _ h => nomatch h⟩⟩
  all_goals
    unfold mayRun
    decide +kernel

theorem test_meets_UnitFaults_spawn_codes : packArgs ((unpacked.cur.regs.drop (unpacked.cur.regs.length - 8)).map Reg.val) = none ∧
    packArgs ((exhausted.cur.regs.drop (exhausted.cur.regs.length - 8)).map Reg.val) ≠ none ∧ spawnsOf exhausted.cur.ped = 1023 ∧
    canHandle unpacked 0x08 (theHandler 8) ∧ canHandle exhausted 0x09 (theHandler 9) := by
  unfold canHandle
  decide +kernel

/-! ## Control transfers -/

theorem test_meets_Branches : ∃ b, branchOf base (.bcc ⟨false, 1, 0x7FFFF⟩) = some b ∧ b.taken = true ∧ base.cur.live = true :=
  ⟨_, rfl, by decide +kernel⟩

theorem test_meets_Branches_fall : ∃ b, branchOf base (.bmz ⟨false, 0, 5⟩) = some b ∧ b.taken = false := ⟨_, rfl, by decide +kernel⟩

/-- A table at 0x400 of two targets, 0x240 and 0x244. -/
def tableOf (s : State) : State :=
  { puts s 2 [0x400, 0] with
    mem := Memory.writeBytes [] 0x400 [2, 0, 0, 0, 0x90, 0xFF, 0xFF, 0xFF, 0x91, 0xFF, 0xFF, 0xFF] }
def jtabWord : FmtDAI := ⟨false, 5, 2, 8⟩

/-- What the read of the table leaves and gives. -/
def tableRead (s : State) : State × Word × Nat := got (s.tableWord [] (pairAt s 2)) (s, 0, 0)
def tableTarget (s : State) : State × List (Nat × Pc) :=
  got (tableTargets (pairAt s 2) 2 (fun l => (s.cur.lane 5 l).toNat) [(tableRead s).2.2] (activeLanes s) (tableRead s).1) (s, [])

theorem readsTable_of {s : State} (hl : s.cur.live = true ∧ uniformReady s (both 2) ∧ 5 < s.cur.regs.length ∧ (s.cur.reg 5).pend = none ∧
      (pairAt s 2).toNat % 4 = 0) (hw : (s.tableWord [] (pairAt s 2)).toOption.isSome = true) (h2 : (tableRead s).2.1 = 2)
    (ht : (tableTargets (pairAt s 2) 2 (fun l => (s.cur.lane 5 l).toNat) [(tableRead s).2.2] (activeLanes s) (tableRead s).1).toOption.isSome
      = true) : readsTable s jtabWord (tableTarget s).1 2 (tableTarget s).2 :=
  ⟨hl.1, hl.2.1, hl.2.2.1, hl.2.2.2.1, hl.2.2.2.2, (tableRead s).1, (tableRead s).2.1, (tableRead s).2.2, ok_got _ hw, by rw [h2]; rfl, ok_got _ ht⟩

/-- Lane 127 alone, which selects the first target. -/
theorem test_meets_Branches_jtab : readsTable (tableOf (lone 127 base)) jtabWord (tableTarget (tableOf (lone 127 base))).1 2
      (tableTarget (tableOf (lone 127 base))).2 ∧ (tableOf (lone 127 base)).cur.ctl.mask ≠ 0 ∧
    (tableTarget (tableOf (lone 127 base))).2 = [(127, 0x240)] :=
  ⟨readsTable_of (by unfold uniformReady; decide +kernel) (by decide +kernel) (by decide +kernel) (by decide +kernel), by decide +kernel⟩

/-- Lanes 0 and 1 select the two targets, and lane 2 none when it is there. -/
def forking (mask : Mask) : State :=
  onGang (tableOf (put (handled 7 base) 5 (wide id))) fun g => { g with ctl := { g.ctl with mask := mask } }
def theFork (out : Mask) : Fork := { next := fun l => 0x240 + 4 * BitVec.ofNat 57 l, out := out, origin := 0x100, join := 0x124 }

theorem test_meets_Branches_fork (mask : Mask) (h : mask ∈ [3, 7]) : ∃ out, forks (forking mask) jtabWord 2
      (tableTarget (forking mask)).2 (theFork out) ∧ (theFork out).origin = (forking mask).cur.ctl.pc ∧
    2 ≤ ((theFork out).firsts (forking mask)).length ∧ (1 < (theFork out).needs (forking mask) → 1 < freeSlots (forking mask)) ∧
    canHandle (forking mask) 0x07 (theHandler 7) := by
  simp only [List.mem_cons, List.not_mem_nil, or_false] at h
  rcases h with rfl | rfl
  · refine ⟨0, ?_⟩
    unfold forks canHandle
    decide +kernel
  · refine ⟨4, ?_⟩
    unfold forks canHandle
    decide +kernel

theorem test_meets_Branches_fork_read : readsTable (forking 7) jtabWord (tableTarget (forking 7)).1 2 (tableTarget (forking 7)).2 :=
  readsTable_of (by unfold uniformReady; decide +kernel) (by decide +kernel) (by decide +kernel) (by decide +kernel)

theorem test_meets_Branches_sound : tableSound (forking 7) := by
  have hf : (forking 7).cur.frag = none := by decide +kernel
  have h : ∀ x ∈ (forking 7).cur.table, x = none := by decide +kernel
  exact ⟨by decide +kernel, fun i hi => absurd (hf.symm.trans hi) nofun, fun i e he => absurd (h _ (entry_mem he)) nofun, by decide +kernel,
    fun e _ _ he => by rw [hf] at he; cases he⟩

/-- A fragment of split 3, whose join address is the next unit. -/
def piece (st : EntryState) (w : Wait) (mask : Mask) : Entry :=
  { ctl := { pc := 0x100, mask := mask, wait := w, marks := [], redo := none, turn := false }
    join := 0x104, st := st, seq := 0, level := 0, split := 3, origin := 0xF0 }
def outer : Split :=
  { id := 3, join := 0x104, origin := 0xF0, parent := none, depth := 1, level := 0, outerSeq := 0, turn := false }

/-- The gang in fragment 0 with lanes 0 and 1, beside others. -/
def splitAs (rest : List Entry) (s : State) : State :=
  onGang s fun g =>
    { g with
      frag := some 0, splits := [outer], nextSplit := 4, ctl := { g.ctl with mask := 3 }
      table := ((piece .run .ready 3 :: rest).map some ++ List.replicate 8 none).take 8 }

theorem test_meets_Branches_parks (st : EntryState) (h : st ∈ [.run, .parked]) : ∃ b, branchOf base (.br ⟨false, 0⟩) = some b ∧ b.taken = true ∧
    inSplit (splitAs [piece st .ready 4] base) 0 (piece .run .ready 3) outer ∧
    (splitAs [piece st .ready 4] base).cur.ctl.pc + 4 + BitVec.ofInt 57 (4 * b.offset) = (piece .run .ready 3).join ∧
    ∀ p, outer.parent ≠ some p := by
  simp only [List.mem_cons, List.not_mem_nil, or_false] at h
  rcases h with rfl | rfl
  all_goals
    refine ⟨_, rfl, rfl, ?_, by decide +kernel, by simp [outer]⟩
    unfold inSplit
    decide +kernel

/-- Eight fragments, one in issue at the `jtab`; the others run, or all are parked but one split away. -/
def full (rest : List Entry) : State := splitAs rest (forking 3)

theorem test_meets_Branches_full : tableFull (full (List.replicate 7 (piece .run .ready 8))) ∧
    otherMoves (full (List.replicate 7 (piece .run .ready 8))) := by
  refine ⟨⟨piece .run .ready 3, by decide +kernel, by decide +kernel, ?_⟩, 1, piece .run .ready 8, by decide +kernel⟩
  have h : ∀ x ∈ (full (List.replicate 7 (piece .run .ready 8))).cur.table, ∀ y ∈ x, y.st ≠ .parked := by decide +kernel
  exact fun i j a b ha _ _ _ hp _ => absurd hp (h _ (entry_mem ha) a rfl)

/-- Seven fragments of seven other splits are parked. -/
def parkedAway : State :=
  full ((List.range 7).map fun i => { piece .parked .ready 8 with split := 10 + i })

theorem test_meets_Branches_full_parked : tableFull parkedAway ∧ othersParked parkedAway ∧ parkedAway.cur.ctl.redo = none ∧
    1 < (theFork 0).needs parkedAway ∧ canHandle parkedAway 0x07 (theHandler 7) := by
  have h : ∀ i, i < parkedAway.cur.table.length → ∀ y ∈ (parkedAway.cur.table[i]?).join, i ≠ 0 → y.split ≠ 3 ∧ y.st = .parked := by decide +kernel
  have get : ∀ i y, parkedAway.cur.entry? i = some y → i ≠ 0 → y.split ≠ 3 ∧ y.st = .parked := fun i y hy h0 => by
    unfold Gang.entry? at hy
    rcases he : parkedAway.cur.table[i]? with _ | x
    · simp [he] at hy
    · exact h i (List.getElem?_eq_some_iff.mp he).1 y (by simp [hy]) h0
  refine ⟨⟨piece .run .ready 3, by decide +kernel, by decide +kernel, ?_⟩, ?_, by decide +kernel, by decide +kernel, by unfold canHandle; decide +kernel⟩
  · intro i j a b ha hb hi hj _ _
    have i0 : i = 0 := Classical.byContradiction fun h0 => (get i a ha h0).1 hi
    have j0 : j = 0 := Classical.byContradiction fun h0 => (get j b hb h0).1 hj
    rw [i0, j0]
  · intro i e he hf _
    exact (get i e he fun h0 => hf (by rw [h0]; decide +kernel)).2

theorem test_meets_Branches_serial : ∃ r, statusRule (.fclr ⟨false⟩) = some r ∧ r.kind.serial = true ∧ r.kind.priv = false ∧
    inSplit (splitAs [piece .run .ready 4] base) 0 (piece .run .ready 3) outer ∧ outer.parent = none ∧
    (splitAs [piece .run .ready 4] base).cur.ctl.turn = false ∧
    ∃ x, (splitAs [piece .run .ready 4] base).cur.entry? 1 = some x ∧ x.split = 3 ∧ x.st = .run ∧ x.ctl.wait ≠ .serial ∧
      x.ctl.wait ≠ .entries :=
  ⟨_, rfl, rfl, rfl, by unfold inSplit; decide +kernel, rfl, by decide +kernel, piece .run .ready 4, by decide +kernel⟩

theorem test_meets_Calls : ∃ c, callOf base (.callM ⟨false, 0, 15, 0x7FFF⟩) = some c ∧ mayRun serialUnit base ∧ c.needs ∧
    rowsOf c.gf ≤ regsOf c.nf :=
  ⟨_, rfl, by unfold mayRun; decide +kernel, trivial, by decide +kernel⟩

theorem test_meets_Calls_register : ∃ c, callOf (puts base 2 [0x208, 0, 0x12]) (.callr ⟨false, 2, 4⟩) = some c ∧ c.needs ∧
    rowsOf c.gf ≤ regsOf c.nf ∧ frameFree (puts base 2 [0x208, 0, 0x12]) (rowsOf c.gf) (64 + 8 * regsOf c.nf) :=
  ⟨_, rfl, by dsimp only [callThrough]; unfold uniformReady; decide +kernel, by decide +kernel, by unfold frameFree; decide +kernel⟩

theorem whole {s : State} (k : Nat) (h : s.cur.frag = none) : ¬ splitWithin s k := by
  rintro ⟨e, sp, he, -⟩
  rw [h] at he
  cases he

/-- A called frame on top of the gang's own, its eighth register given back by the pop. -/
theorem test_meets_Returns : ∃ f c r, (calls base id).cur.frames = f :: c :: r ∧ f.handler = false ∧ f.flattened = false ∧
    ¬ splitWithin (calls base id) 1 ∧ (∀ x ∈ f.regs.drop 8, x.pend = none) ∧ (calls base id).cur.live = true :=
  ⟨_, _, _, rfl, rfl, rfl, whole 1 (by decide +kernel), by decide +kernel⟩

/-- A flattened frame on top, or a fragment whose split the upper of two frames made. -/
def unwinds (flat : Bool) : State :=
  let s := calls (handled 0x18 base) fun f => { f with flattened := flat }
  if flat then s else onGang (splitAs [piece .run .ready 4] s) fun g => { g with splits := [{ outer with depth := 2 }] }

theorem test_meets_Returns_faults (flat : Bool) : ∃ f c r, (unwinds flat).cur.frames = f :: c :: r ∧
    (f.flattened = true ∨ splitWithin (unwinds flat) 1) ∧ (unwinds flat).cur.ctl.wait = .ready ∧
    canHandle (unwinds flat) 0x18 (theHandler 0x18) := by
  cases flat
  · exact ⟨_, _, _, rfl, .inr ⟨piece .run .ready 3, { outer with depth := 2 }, by decide +kernel⟩, by decide +kernel, by unfold canHandle; decide +kernel⟩
  · exact ⟨_, _, _, rfl, .inl rfl, by decide +kernel, by unfold canHandle; decide +kernel⟩

/-- Two frames, the upper one marked; v0 asks for one. -/
def markedState : State := put (calls base fun f => { f with marked := true }) 0 (uni 1)

theorem test_meets_Returns_unwind : ∃ low, markedState.cur.frames[1 - 1]? = some low ∧ low.marked = true ∧
    (∀ f ∈ markedState.cur.frames, f.flattened = false) ∧ pedF markedState.cur.ped = false ∧
    1 < markedState.cur.frames.length ∧ (∀ f ∈ markedState.cur.frames.take 1, f.handler = false) ∧
    uniformReady markedState [0] ∧ (markedState.cur.lane 0 0).toNat = 1 ∧ (∀ f ∈ markedState.cur.frames.take (1 - 1), f.marked = false) ∧
    ¬ splitWithin markedState 1 ∧ markedState.cur.live = true :=
  ⟨_, rfl, by decide +kernel, by decide +kernel, by decide +kernel, by decide +kernel, by decide +kernel,
    by unfold uniformReady; decide +kernel, by decide +kernel, by decide +kernel, whole 1 (by decide +kernel), by decide +kernel⟩

theorem test_meets_Returns_waits : (waits markedState 0 5 0).cur.live = true ∧ 0 < (waits markedState 0 5 0).cur.regs.length ∧
    ((waits markedState 0 5 0).cur.reg 0).pend ≠ none := by decide +kernel

theorem test_meets_Returns_pending : ¬ losesPending markedState.cur.frames 1 := by
  rintro ⟨i, f, hi, hf, r, hr, hp⟩
  obtain rfl : i = 0 := by omega
  obtain rfl : someFrame (fun f => { f with marked := true, regs := f.regs.set 0 (uni 1) }) = f := by
    simpa [show markedState.cur.frames[0]? = some (someFrame fun f => { f with marked := true, regs := f.regs.set 0 (uni 1) }) by
      decide +kernel] using hf
  have h : ∀ x ∈ (someFrame fun f => { f with marked := true, regs := f.regs.set 0 (uni 1) }).regs, x.pend = none := by decide +kernel
  split at hr
  · exact hp (h r (List.mem_of_mem_drop hr))
  · exact hp (h r hr)

theorem test_meets_TrapEntersHandler : base.cur.act ≠ 0 ∧ canHandle (handled 0x40 base) 0x40 (theHandler 0x40) :=
  ⟨by decide +kernel, by unfold canHandle; decide +kernel⟩

theorem test_meets_TrapEntersHandler_empty : (nobody base).cur.live = true ∧ (nobody base).cur.act = 0 := by decide +kernel

/-- Major opcode 0x3F is reserved (R97). -/
def noWord : State := { handled 0x01 base with mem := Memory.writeBytes [] 0x100 (leBytes 4 0x3F000000) }
theorem test_meets_TrapEntersHandler_illegal : noWord.agenda = [] ∧ noWord.cur.pend = [] ∧ noWord.streak < Config.turnUnits ∧
    noWord.turnsOf noWord.cur = [noWord.cur] ∧ noWord.fetchWord noWord.cur noWord.cur.ctl.pc noWord.cur.ctl.pc false = .ok 0x3F000000#32 ∧
    decodeWord 0x3F000000#32 = .error .reservedMajor ∧ noWord.cur.ctl.wait = .ready ∧ canHandle noWord 0x01 (theHandler 0x01) :=
  ⟨by decide +kernel, by decide +kernel, by decide +kernel, by decide +kernel, ok_eq (by decide +kernel), rfl, by decide +kernel,
    by unfold canHandle; decide +kernel⟩

/-! ## Floating point -/

/-- The mode word selects entry 1, binary32, in every field but the rounding mode. -/
def single (s : State) : State := onGang s fun g => { g with mode := 0x8421 }

theorem test_meets_FloatResults : ∃ r, floatRule (lone 0 base) (.fmac ⟨false, 2, 4, 126⟩) = some r ∧ mayRun r.kind (lone 0 base) ∧
    r.ready (lone 0 base) ∧ r.trapped (lone 0 base) = 0 :=
  ⟨_, rfl, by unfold mayRun; decide +kernel, by
    unfold FloatRule.ready rowsFree
    dsimp only [floatFused, inEntry]
    unfold vectorEntry
    decide +kernel, by decide +kernel⟩

/-- Infinity less infinity under enabled traps. -/
def trapping : State := puts (onGang (single (lone 5 (handled 0x12 base))) fun g => { g with ftrap := 0x1F }) 2 [0x7F800000, 0x7F800000]

theorem test_meets_FloatTraps : ∃ r, floatRule trapping (.fsub ⟨false, 1, 2, 3⟩) = some r ∧ mayRun r.kind trapping ∧ r.ready trapping ∧
    r.trapped trapping ≠ 0 ∧ canHandle trapping (r.trapCode trapping) (theHandler 0x12) :=
  ⟨_, rfl, by unfold mayRun; decide +kernel, by
    unfold FloatRule.ready rowsFree
    dsimp only [float2, inEntry]
    unfold vectorEntry
    decide +kernel, by decide +kernel, by unfold canHandle; decide +kernel⟩

theorem test_meets_FloatLate : ∃ r, lateRule (single base) (.ftanh ⟨false, 1, 127⟩) = some r ∧ mayRun r.kind (single base) ∧
    r.ready (single base) ∧ (single base).cur.act ≠ 0 :=
  ⟨_, rfl, by unfold mayRun; decide +kernel, by
    unfold FloatRule.ready rowsFree
    dsimp only [float1, inEntry]
    unfold vectorEntry
    decide +kernel, by decide +kernel⟩

theorem test_meets_FloatCompares : ∃ m r bit, floatCompare (single (lone 3 base)) (.fcmpS ⟨false, 7, 7, 0, 127⟩) = some (m, r, bit) ∧
    mayRun vectorUnit (single (lone 3 base)) ∧ r.ready (single (lone 3 base)) ∧ r.trapped (single (lone 3 base)) = 0 :=
  ⟨_, _, _, rfl, by unfold mayRun; decide +kernel, by
    unfold FloatRule.ready rowsFree
    dsimp only [floatCompare.compare]
    unfold vectorEntry
    decide +kernel, by decide +kernel⟩

/-- A signalling NaN under an enabled trap. -/
def snanState : State := puts (onGang (single (lone 5 (handled 0x13 base))) fun g => { g with ftrap := 0x3F }) 2 [0x7F800001, 0]

theorem test_meets_FloatCompares_traps : ∃ m r bit, floatCompare snanState (.fcmp ⟨false, 7, 2, 2, 3⟩) = some (m, r, bit) ∧
    mayRun vectorUnit snanState ∧ r.ready snanState ∧ r.trapped snanState ≠ 0 ∧ canHandle snanState (r.trapCode snanState) (theHandler 0x13) :=
  ⟨_, _, _, rfl, by unfold mayRun; decide +kernel, by
    unfold FloatRule.ready rowsFree
    dsimp only [floatCompare.compare]
    unfold vectorEntry
    decide +kernel, by decide +kernel, by unfold canHandle; decide +kernel⟩

theorem test_meets_ExactAndRounded : Val.real (.num true 3 (-1)) = some ((-1) * 3 * (2 : Rat) ^ (-1 : Int)) ∧ (0 : Nat) < 7 := ⟨rfl, by decide⟩

/-- 1 and 1.5 of binary32; the entry of signed words of P = 3. -/
theorem test_meets_ExactAndRounded_entries : roundsIn 0x00000006007F8617 4 ∧
    Val.real (exact (fmtOf 0x00000006007F8617) 0x3FC00000) = some (1 * 12582912 * (2 : Rat) ^ (-23 : Int)) ∧
    entryValid (presetFormats.getD 5 0) = true ∧ (fmtOf (presetFormats.getD 5 0)).valid = true ∧ (fmtOf (presetFormats.getD 5 0)).p = 3 := by
  refine ⟨by unfold roundsIn; decide +kernel, ?_, by decide +kernel⟩
  have h : exact (fmtOf 0x00000006007F8617) 0x3FC00000 = .num false 12582912 (-23) := by decide +kernel
  rw [h]
  rfl

/-! ## Special registers, shapes and frames -/

theorem test_meets_ShapeReads : ∃ r p, shapeRule base (.mfs ⟨false, 127, 1, 15⟩) = some (r, p) ∧ p ∧ mayRun r.kind base ∧ r.ready base :=
  ⟨_, _, rfl, ⟨by decide, fun h => absurd h (by decide)⟩, by unfold mayRun; decide +kernel, by unfold LaneRule.ready rowsFree; decide +kernel⟩

theorem test_meets_ShapeReads_fmat : 127 < base.cur.regs.length ∧ (base.cur.reg 127).pend = none ∧ rowsFree base 1 :=
  ⟨by decide +kernel, by decide +kernel, by unfold rowsFree; decide +kernel⟩

theorem test_meets_ShapeReads_fmtget : (∀ x ∈ both 126, x < (lone 2 base).cur.regs.length) ∧
    (∀ x ∈ both 126, ((lone 2 base).cur.reg x).pend = none) ∧ (lone 2 base).cur.act ≠ 0 ∧ (lone 2 base).cur.act ≠ allLanes ∧
    rowsFree (lone 2 base) ((both 126).countP fun x => ((lone 2 base).cur.val x).tag ≠ 2) :=
  ⟨by decide +kernel, by decide +kernel, by decide +kernel, by decide +kernel, by unfold rowsFree; decide +kernel⟩

/-- One lane of zeros, and one of a signalling NaN under enabled traps. -/
def packState (bad : Bool) : State :=
  if bad then puts (onGang (single (lone 33 (handled 0x13 base))) fun g => { g with ftrap := 0x3F }) 4 [0x7F800001] else lone 33 base
def packBlocks (bad : Bool) (b : Nat) : Nat × Nat × (Val → Packed) :=
  packBlock (((List.range 32).filter fun i => inMask (packState bad).cur.act (32 * b + i)).map fun i =>
    exact (ownEntry (packState bad)) (operandAt (packState bad).cur (ownEntry (packState bad)).w 4 (32 * b + i))) (modeRnd (packState bad))
def packRule (bad : Bool) (b : BitVec 7) : FloatRule :=
  { inEntry (packState bad) 2 false [4] [b] true (fun _ _ => quiet 0) with
    dsts := if 2 = b then [2] else [2, b.toNat]
    res := fun l =>
      ((packBlocks bad (l / 32)).2.2 (exact (ownEntry (packState bad)) (operandAt (packState bad).cur (ownEntry (packState bad)).w 4 l))).res }

theorem test_meets_BlockPacks (b : BitVec 7) (h : b ∈ [2, 3]) (bad : Bool) : mayRun vectorUnit (packState bad) ∧
    (packRule bad b).ready (packState bad) ∧ (packState bad).cur.act ≠ 0 ∧ (bad = false → (packRule bad b).trapped (packState bad) = 0) ∧
    (bad = true → (packRule bad b).trapped (packState bad) ≠ 0 ∧
      canHandle (packState bad) ((packRule bad b).trapCode (packState bad)) (theHandler 0x13)) := by
  simp only [List.mem_cons, List.not_mem_nil, or_false] at h
  rcases h with rfl | rfl <;> cases bad
  all_goals
    refine ⟨by unfold mayRun; decide +kernel, ?_, by decide +kernel, by decide +kernel, by unfold canHandle; decide +kernel⟩
    unfold FloatRule.ready rowsFree
    dsimp only [packRule, inEntry]
    unfold vectorEntry
    decide +kernel

theorem test_meets_BlockPacks_block : ∀ v ∈ [Val.inf true, .num false 3 0, .zero true], ∀ n m e, v = .num n m e → m ≠ 0 := by
  intro v hv n m e h
  subst h
  simp only [List.mem_cons, Val.num.injEq, List.not_mem_nil, or_false, reduceCtorEq, false_or] at hv
  omega

/-- A frame of 16 registers grows to 24; a frame of 128 shrinks to 8. -/
theorem test_meets_FrameSize_grow : mayRun serialUnit (calls base id) ∧ (∃ f r, (calls base id).cur.frames = f :: r ∧
    regsOf f.nf ≤ regsOf 3 ∧ rowsOf f.gf ≤ rowsOf 1 ∧ rowsOf 1 ≤ regsOf 3 ∧
    frameFree (calls base id) (rowsOf 1 - rowsOf f.gf) (8 * (regsOf 3 - regsOf f.nf))) :=
  ⟨by unfold mayRun; decide +kernel, _, _, rfl, by decide +kernel, by decide +kernel, by decide, by unfold frameFree; decide +kernel⟩

theorem test_meets_FrameSize_shrink : ∃ f, base.cur.frames = [f] ∧ regsOf 1 ≤ regsOf f.nf ∧ rowsOf 0 ≤ rowsOf f.gf ∧
    (∀ x ∈ f.regs.drop (regsOf 1), x.pend = none) :=
  ⟨_, rfl, by decide +kernel⟩

/-- Two roles; the gang is of role 0. -/
def roles : State := onCrew base fun c => { c with quota := [60, 64] }

theorem test_meets_QuotaMoves : roles.roleOf roles.cur = 0 ∧ (roles.crewOf roles.cur).quota = [60, 64] ∧
    roles.roleHeld 0 0 0 ≤ 8 * (60 - 59) ∧ roles.roleHeld 0 0 1 ≤ 8 * (64 - 1) := by
  decide +kernel

/-! ## Accesses -/

/-- Every lane at 0xFF8, the last dword of the page. -/
def lastDword : State := puts base 2 [0xFF8, 0]

theorem test_meets_AccessesIssue : ∃ r, accessRule lastDword (.ldD ⟨false, 8, 2, 0⟩) = some r ∧ mayRun control lastDword ∧
    r.ready lastDword ∧ r.faults lastDword = [] ∧ lastDword.cur.act ≠ 0 :=
  ⟨_, rfl, by unfold mayRun; decide +kernel, by
    unfold AccessRule.ready rowsFree
    exact ⟨True.intro, by decide +kernel⟩, by decide +kernel⟩

theorem test_meets_AccessesIssue_atom : ∃ r, accessRule lastDword (.atom ⟨false, 4, 2, 10, 3, 1, 6⟩) = some r ∧ r.ready lastDword ∧
    r.faults lastDword = [] :=
  ⟨_, rfl, by
    unfold AccessRule.ready rowsFree
    dsimp only [atomRule]
    decide +kernel, by decide +kernel⟩

/-- One lane beyond the range. -/
def beyond : State := puts (lone 9 (handled 0x0A base)) 2 [0x1000, 0]

theorem test_meets_LaneFaultsTaken : ∃ r, accessRule beyond (.stW ⟨false, 8, 2, 0⟩) = some r ∧ mayRun control beyond ∧ r.ready beyond ∧
    r.faults beyond ≠ [] ∧ canHandle beyond (worstCode ((r.faults beyond).map Prod.snd)) (theHandler 0x0A) :=
  ⟨_, rfl, by unfold mayRun; decide +kernel, by
    unfold AccessRule.ready rowsFree
    exact ⟨True.intro, by decide +kernel⟩, by decide +kernel, by unfold canHandle; decide +kernel⟩

theorem test_meets_ValuesReturnLater : mayRun crossUnit base ∧ base.cur.act ≠ 0 ∧
    (∀ x ∈ [1, 2, 127], x < base.cur.regs.length ∧ (base.cur.reg x).pend = none) ∧ rowsFree base 1 :=
  ⟨by unfold mayRun; decide +kernel, by decide +kernel, by decide +kernel, by unfold rowsFree; decide +kernel⟩

theorem test_meets_FencesAndPrefetch : ∃ f w, orderRule (.fence ⟨false, 6, 3⟩) = some f ∧ orderRule (.wait ⟨false, 127, 3⟩) = some w ∧
    mayRun f.kind base ∧ f.needs base ∧ mayRun w.kind base ∧ w.needs base :=
  ⟨_, _, rfl, rfl, by unfold mayRun; decide +kernel, by
    have h : base.cur.flights = [] := by decide +kernel
    intro f hf
    simp [h] at hf, by unfold mayRun; decide +kernel, by
    dsimp only
    unfold uniformReady
    decide +kernel⟩

theorem test_meets_FencesAndPrefetch_pref : base.queueEntries base.cur < 32 ∧
    (∀ x ∈ both 126, x < base.cur.regs.length ∧ (base.cur.reg x).pend = none) := by decide +kernel

/-- A unit in flight with one lane at an address. -/
def flying (op : FlightOp) (size lane addr data : Nat) : Flight :=
  { id := 5, op := op, path := 0, size := size, scope := 5
    lanes := [{ lane := lane, addr := addr, data := data, cmp := 0, st := .flying, track := false, ro := false }]
    pc := 0x100, lim := false, sup := false, ped := 0, seq := 0, scratch := false, finished := false }

def inAir (f : Flight) (s : State) : State := { onGang s fun g => { g with flights := [f] } with tick := 6 }

theorem lands {s : State} {f : Flight} (h : s.cur.flights = [f] ∧ s.cur.live = true ∧ s.cur.flight? f.id = some f ∧
    s.lanesReady s.cur f true (f.chosen allLanes) = true) : landing s f allLanes (f.chosen allLanes) := ⟨h.2.1, h.2.2.1, rfl, h.2.2.2⟩

theorem landsHere {s : State} {f : Flight} (h : s.cur.flights = [f] ∧ s.cur.live = true ∧ s.cur.flight? f.id = some f ∧
    s.lanesReady s.cur f false (f.chosen allLanes) = true) : landingHere s f allLanes (f.chosen allLanes) := ⟨h.2.1, h.2.2.1, rfl, h.2.2.2⟩

/-- A modified piece in the L2, a line of it in an L1, under a `cctl.wbinv.memory` of lane 3. -/
def sweep : Flight := { flying (.cctl 3) 64 3 0xFC0 0 with scope := 7 }
def sweeping : State := { inAir sweep base with l2 := [{ slice := 0, set := 0, dev := 0, ctx := 0, piece := 63, pa := 0xFC0, modified := true }] }

theorem test_meets_FencesAndPrefetch_cctl : landingHere sweeping sweep allLanes (sweep.chosen allLanes) ∧ uncaptured sweeping ∧
    memoryWhole sweeping ∧ sweep.chosen allLanes ≠ [] ∧ sweeping.here.physical 0xFC0 = some 0xFC0 :=
  ⟨landsHere (by decide +kernel), by unfold uncaptured; decide +kernel, by unfold memoryWhole; decide +kernel, by decide +kernel⟩

/-- A dword load of lane 127 from the end of the page into v8 and v9. -/
def loading : State := inAir (flying .load 8 127 0xFF8 0) (waits (waits base 8 5 0) 9 5 1)

theorem test_meets_LoadReadsMemory : ∃ f, loading.cur.flights = [f] ∧ landing loading f allLanes (f.chosen allLanes) ∧ f.op = .load ∧
    f.size ∈ [1, 2, 4, 8] ∧ pagesWhole loading.here ∧ uncached loading f (f.chosen allLanes) ∧ uncaptured loading ∧
    (f.lanes.map LaneAcc.lane).Nodup ∧ (∀ l ∈ f.lanes, l.lane < 128) ∧ (∀ e ∈ underWay loading.cur, e.id < f.id → e.op ≠ .store) ∧
    (loading.cur.reg 9).pend = some ⟨f.id, 1⟩ :=
  ⟨flying .load 8 127 0xFF8 0, by decide +kernel, lands (by decide +kernel), rfl, by decide, by unfold pagesWhole; decide +kernel,
    by unfold uncached; decide +kernel, by unfold uncaptured; decide +kernel, by decide +kernel⟩

/-- `lda` of the same dword, and `lds` of a word. -/
def acquiring : State := inAir (flying .lda 8 127 0xFF8 0) (waits (waits base 8 5 0) 9 5 1)

theorem test_meets_LoadReadsMemory_lda : landing acquiring (flying .lda 8 127 0xFF8 0) allLanes ((flying .lda 8 127 0xFF8 0).chosen allLanes) ∧
    pagesWhole acquiring.here ∧ uncached (acquired acquiring 5) (flying .lda 8 127 0xFF8 0) ((flying .lda 8 127 0xFF8 0).chosen allLanes) ∧
    uncaptured acquiring :=
  ⟨lands (by decide +kernel), by unfold pagesWhole; decide +kernel, by unfold uncached; decide +kernel, by unfold uncaptured; decide +kernel⟩

def inScratch (op : FlightOp) : Flight := { flying op 4 2 8 0xABCD with scratch := true }

theorem test_meets_LoadReadsMemory_lds : landingHere (inAir (inScratch .lds) (waits base 8 5 0)) (inScratch .lds) allLanes
    ((inScratch .lds).chosen allLanes) := landsHere (by decide +kernel)

/-- Two lanes of a halfword store that overlap nothing. -/
def storing : State := inAir (flying .store 2 0 0xFFE 0xABCD) base

theorem test_meets_StoreWritesMemory : landing storing (flying .store 2 0 0xFFE 0xABCD) allLanes ((flying .store 2 0 0xFFE 0xABCD).chosen allLanes) ∧
    (∀ l ∈ (flying .store 2 0 0xFFE 0xABCD).chosen allLanes, l.track = false) ∧ Memory.wf storing.mem = true ∧ uncaptured storing ∧
    (flying .store 2 0 0xFFE 0xABCD).chosen allLanes ≠ [] :=
  ⟨lands (by decide +kernel), by decide +kernel, by decide +kernel, by unfold uncaptured; decide +kernel, by decide +kernel⟩

theorem test_meets_StoreWritesMemory_sts : ∃ c, landingHere (inAir (inScratch .sts) base) (inScratch .sts) allLanes ((inScratch .sts).chosen allLanes) ∧
    (inAir (inScratch .sts) base).crews.find? (fun k => k.ctx == 0 && k.rank == 0) = some c ∧ Memory.wf c.scratch = true :=
  ⟨_, landsHere (by decide +kernel), rfl, by decide +kernel⟩

/-- A tracked store of lane 6 to the dword at 0x80 by a strand, with the piece's race entry of another strand or none, and a ring
of two reports at 0x400 or none. -/
def tracked (ped : BitVec 512) : Flight :=
  { flying .store 8 6 0x80 77 with
    ped := ped, lanes := [{ lane := 6, addr := 0x80, data := 77, cmp := 0, st := .flying, track := true, ro := false }] }
def strand (depth crew : Nat) : BitVec 512 := setElem (setHeader 0 depth false) 1 (BitVec.ofNat 16 crew)
def raced (ped : BitVec 512) (e : Option (BitVec 512)) (ring : Nat) : State :=
  { onCtx (inAir (tracked ped) base) fun c => { c with owlWays := 2, ringBase := 0x400, ringSize := ring } with
    owl := e.toList.map fun p => ⟨0, 0, 2, p, 3⟩ }

theorem test_meets_StoreWritesMemory_tracked : ∀ e ∈ [none, some (strand 1 0), some (strand 2 0), some (strand 1 9)], ∀ ring ∈ [0, 448],
    let s := raced (strand 1 0) e ring
    (s.cur.live = true ∧ s.cur.flight? 5 = some (tracked (strand 1 0)) ∧
      s.lanesReady s.cur (tracked (strand 1 0)) true ((tracked (strand 1 0)).chosen allLanes) = true) ∧
    (tracked (strand 1 0)).chosen allLanes = (tracked (strand 1 0)).lanes ∧ Memory.wf s.mem = true ∧ (∀ x ∈ s.contexts, x.capture = none) ∧
    (∃ c ∈ s.contexts, c.num = 0 ∧ s.owlWays c.dev ≠ 0) ∧ owlEntry? s 0 2 = e.map fun p => ⟨0, 0, 2, p, 3⟩ := by
  refine List.forall_mem_cons.2 ⟨?_, List.forall_mem_cons.2 ⟨?_, List.forall_mem_cons.2 ⟨?_, List.forall_mem_cons.2 ⟨?_, fun _ h => nomatch h⟩⟩⟩⟩ <;>
    decide +kernel

theorem test_meets_StoreWritesMemory_none : ((raced (strand 1 0) none 0).owl.filter fun e => e.dev == 0 &&
      (raced (strand 1 0) none 0).owlSet e.piece == (raced (strand 1 0) none 0).owlSet 2).length < (raced (strand 1 0) none 0).owlWays 0 := by
  decide +kernel

theorem noPart {p q : BitVec 512} (h : pedDepth p = 1 ∨ pedDepth q = 1) (l : Nat) : ¬ partAt p q l := by
  rintro ⟨a, b, c, -⟩
  omega

/-- The entry's strand is a descendant of the store's, its ancestor, or of another crew. -/
theorem test_meets_StoreWritesMemory_orders : comesAfter (strand 2 0) (strand 1 0) ∧
    (¬ comesAfter (strand 1 0) (strand 2 0) ∧ ¬ parallelStrands (strand 1 0) (strand 2 0)) ∧ parallelStrands (strand 1 9) (strand 1 0) ∧
    1 ≤ pedDepth (strand 1 0) := by
  have h1 : pedDepth (strand 1 0) = 1 := by decide +kernel
  have h2 : pedDepth (strand 2 0) = 2 := by decide +kernel
  have he : pedElem (strand 2 0) 1 = pedElem (strand 1 0) 1 := by decide +kernel
  refine ⟨⟨he, .inl ⟨by omega, fun i a b => ?_⟩⟩, ⟨?_, ?_⟩, .inl (by decide +kernel), by omega⟩
  · obtain rfl : i = 1 := by omega
    exact he
  · rintro ⟨-, ⟨h, -⟩ | ⟨l, h, -⟩⟩
    · omega
    · exact noPart (.inl h1) l h
  · rintro (h | ⟨l, h, -⟩)
    · exact h he.symm
    · exact noPart (.inl h1) l h

theorem test_meets_StoreWritesMemory_ring : let c := (raced (strand 1 0) (some (strand 1 9)) 448).here
    ringThere c 0 64 0x400 ∧ ringThere c 64 192 0x440 ∧ (c.ringSize - 64) / 192 = 2 ∧ 64 + 192 * (c.raceSeen % 2) = 64 ∧
    c.raceSeen - Memory.readNat base.mem 0x410 8 < 2 ∧ apart 0x400 64 0x440 192 ∧ apart 0x80 8 0x400 64 ∧ apart 0x80 8 0x440 192 := by
  refine ⟨⟨by decide +kernel, 0x400, ⟨0, 0x1000, 31, 0⟩, ok_eq (by decide +kernel), by decide +kernel⟩,
    ⟨by decide +kernel, 0x440, ⟨0, 0x1000, 31, 0⟩, ok_eq (by decide +kernel), by decide +kernel⟩, ?_⟩
  unfold apart
  decide +kernel

def atomState (ret : Bool) : State := inAir (flying (.atom 11 ret) 4 3 0x300 0x3F800000) (waits base 8 5 0)

theorem test_meets_AtomicsApply (ret : Bool) : ∃ f l, (atomState ret).cur.flights = [f] ∧ landing (atomState ret) f allLanes [l] ∧
    f.op = .atom 11 ret ∧ f.size = 4 ∧ l.data < 256 ^ f.size ∧ l.lane < 128 ∧ Memory.wf (atomState ret).mem = true ∧
    uncaptured (atomState ret) ∧ ((atomState ret).cur.reg 8).pend = some ⟨f.id, 0⟩ := by
  cases ret
  all_goals exact ⟨_, _, rfl, lands (by decide +kernel), rfl, rfl, by decide, by decide, by decide +kernel, by unfold uncaptured; decide +kernel, by decide +kernel⟩

/-- A `datom` to a dword of the first crew, or of another one in strict mode. -/
def foreign : HeldUpdate :=
  { ctx := 0, crew := 7, dword := 0x60, addr := 0x300, size := 4, op := 0, value := 5, ped := 0, gang := 0, lane := 0, seq := 0, outside := false }
def datomState (strict : Bool) : State := onCtx (inAir (flying (.datom 0) 4 3 0x300 9) base) fun c =>
  { c with strict := strict, held := if strict then [foreign] else [] }

theorem test_meets_AtomicsApply_datom (strict : Bool) : ∃ c l, landing (datomState strict) (flying (.datom 0) 4 3 0x300 9) allLanes [l] ∧
    (datomState strict).contexts.find? (fun x => x.num == 0) = some c ∧ c.strict = strict ∧ (∀ p ∈ c.overflowed, p ≠ (0, 0x60)) ∧
    ((datomState strict).contexts.map fun x => x.held.length).sum < 256 ∧ (c.held.filter fun h => h.dword == l.addr / 8).length < 16 ∧
    (strict = true → ∃ h ∈ c.held.filter fun h => h.dword == l.addr / 8, h.crew ≠ 0) ∧ uncaptured (datomState strict) := by
  cases strict
  · exact ⟨_, _, lands (by decide +kernel), rfl, rfl, by decide +kernel, by decide +kernel, by decide +kernel, nofun,
      by unfold uncaptured; decide +kernel⟩
  · exact ⟨_, _, lands (by decide +kernel), rfl, rfl, by decide +kernel, by decide +kernel, by decide +kernel,
      fun _ => ⟨foreign, by decide +kernel⟩, by unfold uncaptured; decide +kernel⟩

def lateState : State := inAir (flying (.late 4 (1#128 <<< 7) false) 4 7 0 9) (waits base 8 5 0)

theorem test_meets_LateResultsLand : ∃ f, lateState.cur.flights = [f] ∧ lateState.cur.live = true ∧ lateState.cur.flight? f.id = some f ∧
    f.chosen allLanes ≠ [] ∧ lanesLeft f (f.chosen allLanes) = [] ∧ (∀ l ∈ f.lanes, l.lane < 128) ∧ (f.lanes.map LaneAcc.lane).Nodup ∧
    (lateState.cur.reg 8).pend = some ⟨f.id, 0⟩ :=
  ⟨_, rfl, by decide +kernel⟩

def unmapped : State := inAir (flying .load 4 127 0x1000 0) base

theorem test_meets_PageQueues : ∃ f ls, unmapped.cur.flights = [f] ∧ unmapped.cur.flight? f.id = some f ∧ f.chosen allLanes = ls ∧
    unmapped.lanesReady unmapped.cur f false ls = true ∧ (∀ l ∈ ls, unmapped.here.physical l.addr = none) ∧ accessOp f.op = true ∧
    f.scratch = false ∧ (∀ fn, f.op ≠ .cctl fn) ∧ f.sup = false ∧ (∀ l ∈ f.lanes, l.lane < 128) ∧
    unmapped.queueEntries unmapped.cur < 32 ∧ (unmapped.crewOf unmapped.cur).stopped = false ∧ ls ≠ [] :=
  ⟨_, _, rfl, by decide +kernel, rfl, by decide +kernel, by decide +kernel, rfl, rfl, nofun, rfl, by decide +kernel⟩

/-! ## Units of two words, privilege, faults -/

/-- A word after the one at the PC. -/
def second (w : Nat) (s : State) : State := { s with mem := Memory.writeBytes [] 0x104 (leBytes 4 w) }

/-- A `lim` and its second word w issue from 0x100. -/
def pairs (w : Nat) (s : State) : Prop := (second w s).fetchWord (second w s).cur ((second w s).cur.ctl.pc + 4) (second w s).cur.ctl.pc true =
  .ok (BitVec.ofNat 32 w)

/-- `iaddi v1, v4`. -/
theorem test_meets_LimPairs : pairs 0x21021001 base ∧ decodeWord 0x21021001 = .ok (.iaddi ⟨false, 1, 4, 1⟩) ∧
    ∃ r, pairRule (0x3FFFFF#22 ++ lowImm (.iaddi ⟨false, 1, 4, 1⟩)) (.iaddi ⟨false, 1, 4, 1⟩) = some r ∧ mayRun r.kind (second 0x21021001 base) ∧
      r.ready (second 0x21021001 base) :=
  ⟨ok_eq (by decide +kernel), rfl, _, rfl, by unfold mayRun; decide +kernel, by unfold LaneRule.ready rowsFree; decide +kernel⟩

/-- `icmpi m3, v4`. -/
theorem test_meets_LimPairs_mask : pairs 0x2D641005 base ∧ decodeWord 0x2D641005 = .ok (.icmpi ⟨false, 3, 2, 4, 5⟩) ∧
    ∃ r, pairMask (1#22 ++ lowImm (.icmpi ⟨false, 3, 2, 4, 5⟩)) (.icmpi ⟨false, 3, 2, 4, 5⟩) = some r ∧ mayRun vectorUnit (second 0x2D641005 base) ∧
      r.ready (second 0x2D641005 base) :=
  ⟨ok_eq (by decide +kernel), rfl, _, rfl, by unfold mayRun; decide +kernel, by unfold MaskRule.ready; decide +kernel⟩

/-- `ld.w v8, [v0]` at 8, within the range, and 8 under 2^32 bytes on, beyond it. -/
def pairLoad (hi : BitVec 22) : AccessRule :=
  loadRule (second 0x62100008 (handled 0x0A base)) .load 4 0 8 (both 0)
    (pairAddr (second 0x62100008 (handled 0x0A base)) 0 (hi ++ (8 : BitVec 10) : BitVec 32).toInt)

theorem test_meets_LimPairs_access (hi : BitVec 22) (h : hi ∈ [0, 0x3FFFFF]) : pairs 0x62100008 (handled 0x0A base) ∧
    decodeWord 0x62100008 = .ok (.ldW ⟨false, 8, 0, 8⟩) ∧
    pairAccess (second 0x62100008 (handled 0x0A base)) (hi ++ lowImm (.ldW ⟨false, 8, 0, 8⟩)) (.ldW ⟨false, 8, 0, 8⟩) = some (pairLoad hi) ∧
    mayRun control (second 0x62100008 (handled 0x0A base)) ∧ (pairLoad hi).ready (second 0x62100008 (handled 0x0A base)) ∧
    (hi = 0 → (pairLoad hi).faults (second 0x62100008 (handled 0x0A base)) = []) ∧
    (hi ≠ 0 → worstCode (((pairLoad hi).faults (second 0x62100008 (handled 0x0A base))).map Prod.snd) = 0x0A) ∧
    canHandle (second 0x62100008 (handled 0x0A base)) 0x0A (theHandler 0x0A) := by
  simp only [List.mem_cons, List.not_mem_nil, or_false] at h
  refine ⟨ok_eq (by decide +kernel), rfl, rfl, by unfold mayRun; decide +kernel, ?_⟩
  rcases h with rfl | rfl
  all_goals
    refine ⟨⟨True.intro, ?_⟩, by decide +kernel, by decide +kernel, by unfold canHandle; decide +kernel⟩
    unfold rowsFree
    decide +kernel

/-- A reserved word, and `iadd`, which cannot follow `lim`. -/
theorem test_meets_LimPairs_bad (w : Nat) (h : w ∈ [0x3F000000, 0x20020403]) : pairs w (handled 1 base) ∧
    (∀ i, decodeWord (BitVec.ofNat 32 w) = .ok i → followsLim i = false) ∧ (second w (handled 1 base)).cur.ctl.wait = .ready ∧
    canHandle (second w (handled 1 base)) 0x01 (theHandler 1) := by
  have hd : (decodeWord 0x3F000000).toOption.any followsLim = false ∧ (decodeWord 0x20020403).toOption.any followsLim = false := by decide
  simp only [List.mem_cons, List.not_mem_nil, or_false] at h
  rcases h with rfl | rfl
  · exact ⟨ok_eq (by decide +kernel), fun i hi => by simpa [show decodeWord 0x3F000000#32 = .ok i from hi, Except.toOption] using hd.1,
      by decide +kernel, by unfold canHandle; decide +kernel⟩
  · exact ⟨ok_eq (by decide +kernel), fun i hi => by simpa [show decodeWord 0x20020403#32 = .ok i from hi, Except.toOption] using hd.2,
      by decide +kernel, by unfold canHandle; decide +kernel⟩

theorem test_meets_FaultsTakenOrStop : ∃ c x q, stoppable base c x q ∧ noHandler base x 0x40 ∧ noHandler base x 0x02 ∧ base.cur.act ≠ 0 ∧
    base.cur.supervisor = false ∧ base.cur.ctl.wait = .ready ∧ base.cur.spilled = false ∧ base.cur.entering = none :=
  ⟨_, _, _, ⟨by decide +kernel, rfl, by decide +kernel, rfl, rfl, by decide +kernel⟩, .inl (by decide +kernel), .inl (by decide +kernel),
    by decide +kernel⟩

/-- No handler may run: one runs already, or the gang has no frame. -/
theorem test_meets_FaultsTakenOrStop_nested : ∃ c x q, stoppable (onGang (handled 0x40 base) fun g => { g with supervisor := true }) c x q ∧
    noHandler (onGang (handled 0x40 base) fun g => { g with supervisor := true }) x 0x40 :=
  ⟨_, _, _, ⟨by decide +kernel, rfl, by decide +kernel, rfl, rfl, by decide +kernel⟩, .inr (.inl rfl)⟩

/-- A late trap waits. -/
def pendingTrap : State := onGang (handled 0x12 base) fun g =>
  { g with pend := [{ code := 0x12, mask := 1, kind := 1, addr := 0x100, lim := false, count := 0, place := 0, order := 3 }] }

def lateTrap : PendFault := { code := 0x12, mask := 1, kind := 1, addr := 0x100, lim := false, count := 0, place := 0, order := 3 }

theorem test_meets_FaultsTakenOrStop_taken : faultDue pendingTrap lateTrap ∧ namesItself pendingTrap lateTrap ∧
    canHandle pendingTrap lateTrap.code (theHandler 0x12) :=
  ⟨by unfold faultDue; decide +kernel, .inl (by decide), by unfold canHandle; decide +kernel⟩

/-- A late trap, PAGE of a fetch, and PAGE of a queue that is empty by now, without a handler. -/
theorem test_meets_FaultsTakenOrStop_pending (f : PendFault)
    (h : f ∈ [lateTrap, { lateTrap with code := 0x0B, kind := 2, own := true }, { lateTrap with code := 0x0B, kind := 2 }]) :
    ∃ c x q, stoppable (onGang base fun g => { g with pend := [f] }) c x q ∧ noHandler (onGang base fun g => { g with pend := [f] }) x f.code ∧
      faultDue (onGang base fun g => { g with pend := [f] }) f ∧ namesItself (onGang base fun g => { g with pend := [f] }) f := by
  simp only [List.mem_cons, List.not_mem_nil, or_false] at h
  rcases h with rfl | rfl | rfl
  all_goals
    refine ⟨_, _, _, ⟨by decide +kernel, rfl, by decide +kernel, rfl, rfl, by decide +kernel⟩, .inl (by decide +kernel), ?_,
      .inr (.inr ⟨by unfold enginesFree; decide +kernel, by decide +kernel⟩)⟩
    unfold faultDue
    decide +kernel

/-- RACE of a handler's access that came while the gang was halted. -/
def handlerRace : PendFault := { lateTrap with code := 0x14, kind := 2, sup := true }

theorem test_meets_FaultsTakenOrStop_restored : ∃ c x q, stoppable (onGang base fun g => { g with pend := [handlerRace], supervisor := true }) c x q ∧
    (onGang base fun g => { g with pend := [handlerRace], supervisor := true }).mayRun { base.cur with pend := [handlerRace], supervisor := true } = true ∧
    base.cur.away = false :=
  ⟨_, _, _, ⟨by decide +kernel, rfl, by decide +kernel, rfl, rfl, by decide +kernel⟩, by decide +kernel⟩

/-- Two accesses wait in the replay queue. -/
def queuedAt (i : Nat) (addr : Nat) : Flight :=
  { flying .load 4 3 addr 0 with id := i, lanes := [{ lane := 3, addr := addr, data := 0, cmp := 0, st := .queued, track := false, ro := false }] }
def paging : State := onGang (handled 0x0B base) fun g =>
  { g with flights := [queuedAt 5 0x1000, queuedAt 6 0x2000], pend := [{ lateTrap with code := 0x0B, kind := 2 }] }

theorem test_meets_FaultsTakenOrStop_page : faultDue paging { lateTrap with code := 0x0B, kind := 2 } ∧ enginesFree paging ∧
    heldFlights paging.cur = [queuedAt 5 0x1000, queuedAt 6 0x2000] ∧
    ((queuedAt 5 0x1000).lanes.find? fun k => k.st == .queued) ≠ none ∧ canHandle paging 0x0B (theHandler 0x0B) :=
  ⟨by unfold faultDue; decide +kernel, by unfold enginesFree; decide +kernel, by decide +kernel, by decide, by unfold canHandle; decide +kernel⟩

/-- A handler of a fault of a kind runs; an access to a page that is mapped by now waits in the replay queue. -/
def inHandler (kind : BitVec 3) : State :=
  onGang (calls base fun f => { f with handler := true, save := { noSave with kind := kind } }) fun g =>
    { g with supervisor := true, flights := [queuedAt 5 0x300] }

theorem replays {s : State} (h : (s.cores.all fun k => (k.copies.all fun c => !c.queued) && k.mats.all fun m => !m.queued) = true ∧
    ∀ x ∈ s.cur.flights, ∀ l ∈ x.lanes, l.st = .queued → x.scratch = true ∨ s.here.physical l.addr ≠ none) : replayable s :=
  ⟨fun k hk => by simpa using List.all_eq_true.mp h.1 k hk, h.2⟩

theorem test_meets_HandlerReturns (kind : BitVec 3) (h : kind ∈ [0, 1, 2, 3]) :
    ∃ f c r, returning (inHandler kind) f c r ∧ (∀ x ∈ f.regs.drop 8, x.pend = none) ∧ f.save.kind = kind ∧ notJoining f f.ret := by
  simp only [List.mem_cons, List.not_mem_nil, or_false] at h
  rcases h with rfl | rfl | rfl | rfl
  all_goals exact ⟨_, _, _, ⟨rfl, rfl, rfl, rfl, rfl, whole 1 (by decide +kernel), rfl, replays (by decide +kernel)⟩, by decide +kernel, rfl, .inl rfl⟩

/-- A register of the handler's own waits for the access that is in the queue. -/
theorem test_meets_HandlerReturns_waits : ∃ f c r, returning (waits (inHandler 2) 9 5 0) f c r ∧ ∃ x ∈ f.regs.drop 8, x.pend ≠ none :=
  ⟨_, _, _, ⟨rfl, rfl, rfl, rfl, rfl, whole 1 (by decide +kernel), rfl, replays (by decide +kernel)⟩,
    (waits (inHandler 2) 9 5 0).cur.reg 9, by decide +kernel⟩

/-- A handler of JTRANGE of fragment 0, whose join address is the unit after the `jtab`. -/
def inRange : State :=
  onGang (splitAs [piece .run .ready 4]
      (calls base fun f => { f with handler := true, ret := 0x104, save := { noSave with kind := 4, frag := some 0, entry := some (piece .run .ready 3) } }))
    fun g => { g with supervisor := true }

theorem test_meets_HandlerReturns_range : ∃ f c r, returning inRange f c r ∧ (∀ x ∈ f.regs.drop 8, x.pend = none) ∧ f.save.kind = 4 ∧ f.save.frag = some 0 ∧
    f.save.entry = some (piece .run .ready 3) ∧ 0 < inRange.cur.table.length ∧ (piece .run .ready 3).join ≠ f.ret - 4 ∧
    inRange.cur.split? 3 = some outer ∧
    inRange.cur.frag ≠ some 1 ∧ ∃ x, inRange.cur.entry? 1 = some x ∧ x.split = 3 ∧ x.st ≠ .parked := by
  have hn : ¬ splitWithin inRange 1 := by
    rintro ⟨e, sp, he, hs, hl⟩
    obtain rfl : piece .run .ready 3 = e :=
      Option.some.inj (((by decide +kernel : inRange.cur.frag.bind inRange.cur.entry? = some (piece .run .ready 3))).symm.trans he)
    obtain rfl : outer = sp := Option.some.inj ((by decide +kernel : inRange.cur.split? 3 = some outer).symm.trans hs)
    revert hl
    decide +kernel
  exact ⟨_, _, _, ⟨rfl, rfl, rfl, rfl, rfl, hn, rfl, replays (by decide +kernel)⟩, by decide +kernel, rfl, rfl, rfl, by decide +kernel, by decide,
    by decide +kernel, by decide +kernel, piece .run .ready 4, by decide +kernel⟩

theorem test_meets_HandlerReturns_replay : (inHandler 2).cur.live = true ∧ (inHandler 2).cur.supervisor = true ∧ replayable (inHandler 2) :=
  ⟨by decide +kernel, by decide +kernel, replays (by decide +kernel)⟩

/-! ## System instructions and counters -/

def kernel (s : State) : State := onGang s fun g => { g with supervisor := true }

/-- A page at 0x10000 mapped explicitly on 0x20000. -/
def mapping : State := kernel (puts base 4 [0x10000, 0, 0x20000, 0])

theorem test_meets_SystemResults_pmap : ∃ r, systemRule (.pmap ⟨false, 4, 6⟩) = some r ∧ mayRun r.kind mapping ∧ r.needs mapping :=
  ⟨_, rfl, by unfold mayRun; decide +kernel, by
    dsimp only [mapRule]
    unfold uniformReady mapGood
    decide +kernel⟩

/-- Range 15: base 0x3000, length 0x1000 with R and W, intermediate base 0x5000. -/
def ranging : State := kernel (puts base 3 [15, 0x3000, 0, 0x1003, 0, 0x5000, 0])

theorem test_meets_SystemResults_rrset : ∃ r, systemRule (.rrset ⟨false, 3, 4⟩) = some r ∧ mayRun r.kind ranging ∧ r.needs ranging := by
  have h : ∀ j, j < ranging.here.ranges.length → j ≠ 15 → ∀ x ∈ ranging.here.ranges[j]?.toList,
      x.len = 0 ∨ 0x1000 = 0 ∨ x.base + x.len ≤ 0x3000 ∨ 0x3000 + 0x1000 ≤ x.base := by decide +kernel
  refine ⟨_, rfl, by unfold mayRun; decide +kernel, ?_⟩
  dsimp only [rangeRule]
  refine ⟨by unfold uniformReady; decide +kernel, ?_, ?_, ?_, ?_, ?_, ?_, ?_, fun j x hx hj =>
    h j (List.getElem?_eq_some_iff.mp hx).1 hj x (by simp [hx])⟩
  all_goals decide +kernel

theorem unnamed_of {s : State} {ctx core ix : Nat} (h : ((s.gangs.all fun g => g.flights.all fun f => f.finished || !f.names.contains ix) &&
    s.cores.all fun k => k.mats.all fun m => m.finished || !m.names.contains ix) = true) : unnamed s ctx core ix := by
  simp only [Bool.and_eq_true, List.all_eq_true, Bool.or_eq_true, Bool.not_eq_true', List.contains_eq_mem, decide_eq_false_iff_not] at h
  exact ⟨fun g hg _ _ f hf => h.1 g hg f hf, fun k hk _ m hm _ => h.2 k hk m hm⟩

theorem test_meets_SystemResults_fmtset : ∃ r, systemRule (.fmtset ⟨false, 4, 31⟩) = some r ∧ mayRun r.kind base ∧
    r.needs (puts base 4 [0x007F8617, 6]) := by
  have hl : (puts base 4 [0x007F8617, 6]).here.fmtLog = [] := by decide +kernel
  exact ⟨_, rfl, by unfold mayRun; decide +kernel, by unfold uniformReady; decide +kernel, by decide, by decide +kernel,
    unnamed_of (by decide +kernel), by simp [hl]⟩

theorem test_meets_SystemResults_fmtsync : ∃ r, systemRule (.fmtsync ⟨false⟩) = some r ∧ mayRun r.kind base ∧ r.needs base := by
  have h : base.here.fmtLog = [] := by decide +kernel
  exact ⟨_, rfl, by unfold mayRun; decide +kernel, by intro c _ _ n p hp; simp [h] at hp⟩

/-- The hub has an update of entry 9 that core 1 has not applied. -/
def updated : State := onCtx base fun c => { c with fmtLog := [(9, 0, ⟨0, 0, 0⟩)] }
theorem test_meets_SystemResults_apply : updated.contexts.find? (fun x => x.num == updated.here.num) = some updated.here ∧
    appliedBy updated.here 1 < updated.here.fmtLog.length ∧
    updated.here.fmtLog[appliedBy updated.here 1]? = some (9, 0, ⟨0, 0, 0⟩) ∧ unnamed updated updated.here.num 1 9 :=
  ⟨by decide +kernel, by decide +kernel, by decide +kernel, unnamed_of (by decide +kernel)⟩

/-- The ways that the crew has, set again. -/
def waysState : State := kernel (puts base 1 [1])

theorem test_meets_ScratchWays : mayRun { serialUnit with priv := true } waysState ∧ uniformReady waysState [1] ∧
    (waysState.cur.lane 1 0).toNat < 0xFFFF ∧ (∀ k ∈ waysState.cores, k.copies = []) ∧
    (waysState.cores.any fun k => k.ix == (waysState.crewOf waysState.cur).core) = true ∧
    (waysState.cur.lane 1 0).setWidth 16 = (waysState.coreOf waysState.cur).wayMask 0 ∧
    (∀ c ∈ waysState.crews, Memory.wf c.scratch = true) :=
  ⟨by unfold mayRun; decide +kernel, by unfold uniformReady; decide +kernel, by decide +kernel⟩

/-- Way 0 alone before, ways 0 and 2 after: bytes of way number 0 stay, those of way number 1 do not. -/
theorem test_meets_ScratchWays_bytes : byteStays 1 5 8 ∧ ¬byteStays 1 5 32768 := by
  refine ⟨⟨0, by decide, ⟨by decide, by decide⟩, by decide, by decide⟩, ?_⟩
  rintro ⟨i, hi, ⟨h, -⟩, ⟨-, n⟩⟩
  have h0 : ∀ i, i < 16 → (1 : BitVec 16).getLsbD i = true → i = 0 := by decide
  obtain rfl := h0 i hi h
  exact absurd n (by decide)

theorem test_meets_CountersControlled : (base.cores.any fun k => k.ix == (base.crewOf base.cur).core) = true ∧
    uniformReady (puts base 1 [3, 23]) [1, 2] ∧ (base.coreOf base.cur).ctrVal.length = 4 ∧ (base.coreOf base.cur).ctrSel.length = 4 ∧
    ¬timeCounted base (base.coreOf base.cur) 0 ∧ base.cur.act = allLanes ∧ (∀ x ∈ both 126, x < base.cur.regs.length ∧ (base.cur.reg x).pend = none) :=
  ⟨by decide +kernel, by unfold uniformReady; decide +kernel, by decide +kernel, by decide +kernel,
    fun h => absurd h.1 (by decide +kernel), by decide +kernel⟩

/-- Counter 2 of the core runs for the resident context and counts clock cycles. -/
def counting : State := onCore base fun k => { k with ctrRun := true, ctrOwner := some 0, ctrSel := [5, 5, 0, 5] }

theorem test_meets_CountersControlled_time : timeCounted counting (counting.coreOf counting.cur) 2 :=
  ⟨by decide +kernel, 0, by decide +kernel, by decide +kernel, .inl (by decide +kernel)⟩

theorem test_meets_CountersControlled_actions : (base.cur.lane 1 0).toNat = 0 ∧ ((puts base 1 [1]).cur.lane 1 0).toNat = 1 ∧
    ((puts base 1 [3]).cur.lane 1 0).toNat = 3 := by decide +kernel

/-! ## Tasks -/

/-- The gang's task has a block with one child still to come. -/
def block : JoinRec := { id := 40, addr := 0, unfinished := 1, finals := [], suspended := none, folded := false, flags := 0, result := [] }
def parentOf (j : JoinRec) (slow : Bool) : State := onCrew (onCtx base fun c => { c with joins := [j] }) fun c =>
  { c with task := some { emptyTask with block := some 40, spawned := 1 }, slowFold := slow }
def parent : State := parentOf block false

/-- A task without a block, with room in its task area. -/
def childless : State := onCtx base fun c => { c with taskSize := 4096 }

def packed : BitVec 16 × List Word := (packArgs ((parent.cur.regs.drop (parent.cur.regs.length - 8)).map Reg.val)).getD (0, [])

theorem alone {s : State} (w : Collective) (h : s.others = []) : gathered s w := ⟨by simp [h], by simp [h]⟩

theorem checked {s : State} {v : Collective} {c : Crew} {k : Task} {map : BitVec 16} {ws : List Word} (h : mayRun serialUnit s)
    (r : s.cur.id.rank = 0 ∧ s.others = [] ∧ c.flat = none ∧
      packArgs ((s.cur.regs.drop (s.cur.regs.length - 8)).map Reg.val) = some (map, ws) ∧
      (∀ x ∈ s.cur.regs.drop (s.cur.regs.length - 8), x.pend = none) ∧
      (∀ g ∈ s.crewGangs s.cur.id.ctx s.cur.id.crew, ∀ f ∈ g.flights, f.finished = true ∨ (accessOp f.op = false ∧ f.op ≠ .recv)) ∧
      spawnsOf s.cur.ped ≠ 1023) (t : onTask s c k) : spawnChecked s v c k map ws := ⟨h, r.1, alone v r.2.1, t, r.2.2⟩

theorem test_meets_SpawnPushes : ∃ c k, spawnReady parent (.spawn parent.cur.ctl.pc 0x0B) c k packed.1 packed.2 ∧ k.block = some 40 ∧ rowsOf 1 ≤ regsOf 1 := by
  have hx : ∃ x, parent.contexts.find? (fun x => x.num == parent.cur.id.ctx) = some x := ⟨_, rfl⟩
  exact ⟨parent.crewOf parent.cur, { emptyTask with block := some 40, spawned := 1 },
    ⟨checked (by unfold mayRun; decide +kernel) (by decide +kernel) ⟨by decide +kernel, by decide +kernel, hx⟩, by decide +kernel,
      by decide +kernel, nofun, by decide +kernel⟩, rfl, by decide⟩

theorem test_meets_SpawnPushes_first : ∃ c k, spawnReady childless (.spawn childless.cur.ctl.pc 0x0C) c k packed.1 packed.2 ∧ k.block = none := by
  have hx : ∃ x, childless.contexts.find? (fun x => x.num == childless.cur.id.ctx) = some x := ⟨_, rfl⟩
  exact ⟨childless.crewOf childless.cur, _,
    ⟨checked (by unfold mayRun; decide +kernel) (by decide +kernel) ⟨by decide +kernel, rfl, hx⟩, by decide +kernel, by decide +kernel,
      fun _ => (by decide +kernel), by decide +kernel⟩, rfl⟩

/-- The deque is full: 32 records of one gang. -/
def emptyRecord : TaskRec :=
  { flags := 0, ped := 0, entry := 0x300, join := none, nf := 1, gf := 0, segment := 1, argmap := 0, args := [], mark := none
    lineage := [], id := 9 }
def fullDeque : State := onCrew childless fun c => { c with deque := List.replicate 32 emptyRecord }

theorem test_meets_SpawnPushes_full : ∃ c k, spawnReady fullDeque (.spawn fullDeque.cur.ctl.pc 0x0B) c k packed.1 packed.2 ∧
    dequeFull fullDeque c = true := by
  have hx : ∃ x, fullDeque.contexts.find? (fun x => x.num == fullDeque.cur.id.ctx) = some x := ⟨_, rfl⟩
  exact ⟨fullDeque.crewOf fullDeque.cur, _,
    ⟨checked (by unfold mayRun; decide +kernel) (by decide +kernel) ⟨by decide +kernel, rfl, hx⟩, by decide +kernel, by decide +kernel,
      fun _ => (by decide +kernel), by decide +kernel⟩, by decide +kernel⟩

/-- At depth 31, a spawn of eight registers and rows; then a crew of two whose lead has entered it. -/
def deepState : State := onGang childless fun g => { g with ped := setHeader g.ped 31 false }
def entering : FlatCall := { pc := 0x100, target := 0x300, nf := 1, gf := 1, args := List.replicate 8 (.u 0), todo := [1] }
def follower : State :=
  let s := onCrew (onCtx deepState fun c => { c with size := 2, roles := [{ gangs := 2, blocks := 124 }] }) fun c => { c with flat := some entering }
  { s with cur := { s.cur with id := ⟨0, 0, 1⟩ }, others := [s.cur] }

theorem test_meets_SpawnPushes_flat : pedDepth deepState.cur.ped = 31 ∧ rowsOf 1 ≤ regsOf 1 ∧ frameFree deepState (rowsOf 1) (64 + 8 * regsOf 1) ∧
    (∀ g ∈ deepState.crewGangs 0 0, g.held + rowsOf 1 ≤ deepState.quotaRows g) ∧
    ∃ c k, spawnChecked deepState (.spawn deepState.cur.ctl.pc 0x0B) c k packed.1 packed.2 := by
  have hx : ∃ x, deepState.contexts.find? (fun x => x.num == deepState.cur.id.ctx) = some x := ⟨_, rfl⟩
  exact ⟨by decide +kernel, by decide, by unfold frameFree; decide +kernel, by decide +kernel, deepState.crewOf deepState.cur, _,
    checked (by unfold mayRun; decide +kernel) (by decide +kernel) ⟨by decide +kernel, rfl, hx⟩⟩

theorem test_meets_SpawnPushes_follower : mayRun serialUnit follower ∧ follower.cur.id.rank ≠ 0 ∧ entering.pc = follower.cur.ctl.pc ∧
    entering.todo.contains follower.cur.id.rank = true ∧ frameFree follower (rowsOf entering.gf) (64 + 8 * regsOf entering.nf) ∧
    ∃ c k, onTask follower c k ∧ c.flat = some entering :=
  ⟨by unfold mayRun; decide +kernel, by decide +kernel, by decide +kernel, by decide +kernel, by unfold frameFree; decide +kernel,
    follower.crewOf follower.cur, _, ⟨by decide +kernel, rfl, _, rfl⟩, by decide +kernel⟩

/-- `spawnr` to 0x208 with eight registers, through v2 to v4. -/
theorem test_meets_SpawnPushes_register : (callThrough (puts parent 2 [0x208, 0, 0x01]) ⟨false, 2, 4⟩ false).needs := by
  dsimp only [callThrough]
  unfold uniformReady
  decide +kernel

theorem test_meets_Joins (w : Collective) : ∃ c k, mayRun serialUnit base ∧ base.cur.id.rank = 0 ∧ base.cur.allOps = [] ∧
    gathered base w ∧ onTask base c k ∧ pedF base.cur.ped = false ∧ 1 ≤ pedDepth base.cur.ped ∧ joinsOf base.cur.ped < 63 ∧ k.block = none :=
  ⟨_, _, by unfold mayRun; decide +kernel, by decide +kernel, by decide +kernel, alone w (by decide +kernel), ⟨rfl, rfl, _, rfl⟩,
    by decide +kernel, by decide +kernel, by decide +kernel, rfl⟩

/-- The block's one child is complete; its fold is at once, or takes its time. -/
theorem test_meets_Joins_complete (slow : Bool) : ∃ c k, onTask (parentOf { block with unfinished := 0 } slow) c k ∧ k.block = some 40 ∧
    (parentOf { block with unfinished := 0 } slow).here.joinRec? 40 = some { block with unfinished := 0 } ∧ c.slowFold = slow ∧
    (slow = false → (parentOf { block with unfinished := 0 } slow).storeUsed c.core +
      (((parentOf { block with unfinished := 0 } slow).here.foldBlock k.segs [] k.spawned).1.map
        ((parentOf { block with unfinished := 0 } slow).bytesOf 0)).sum ≤ 65536) := by
  cases slow
  all_goals exact ⟨_, _, ⟨rfl, rfl, _, rfl⟩, rfl, by decide +kernel⟩

/-- The block is open; and a flattened invocation. -/
theorem test_meets_Joins_suspend : parent.here.joinRec? 40 = some block ∧ 0 < block.unfinished ∧ uncaptured parent ∧ pagesWhole parent.here ∧
    (∀ g ∈ parent.crewGangs 0 0, g.atRest = true) ∧
    parent.here.taskUsed + ((parent.crewGangs 0 0).map fun g => (g.imageBytes + 63) / 64 * 64).sum ≤ parent.here.taskSize := by
  unfold uncaptured pagesWhole
  decide +kernel

def flatState : State := onGang (calls base fun f => { f with flattened := true }) fun g => { g with ped := setHeader g.ped 2 true }

theorem test_meets_Joins_flat : pedF flatState.cur.ped = true ∧ flatState.cur.live = true ∧ flatState.cur.frag = none ∧
    (∀ f ∈ flatState.cur.frames, f.handler = false) := by decide +kernel

theorem test_meets_TasksEnd : ∃ c k, onTask base c k ∧ k.block = none ∧ base.here.capture = none ∧ k.root = true ∧ k.finals = [] ∧
    (∀ g ∈ base.crewGangs 0 0, g.pend = [] ∧ ∀ f ∈ g.flights, f.finished = true) :=
  ⟨_, _, ⟨rfl, rfl, _, rfl⟩, rfl, by decide +kernel, rfl, by decide +kernel⟩

/-- An open block of a task that is no root: its one child is complete, or still to come. -/
def blocked (n : Nat) : State := onCrew (parentOf { block with unfinished := n } false) fun c => { c with task := c.task.map fun k => { k with root := false } }

theorem test_meets_TasksEnd_block (n : Nat) (h : n ∈ [0, 1]) : ∃ c k, onTask (blocked n) c k ∧ k.block = some 40 ∧ k.root = false ∧
    (blocked n).here.joinRec? 40 = some { block with unfinished := n } ∧ c.slowFold = false ∧ (blocked n).here.capture = none ∧
    pedF (blocked n).cur.ped = false ∧ (blocked n).cur.allOps = [] ∧ gathered (blocked n) (.tdone (blocked n).cur.ctl.pc) ∧
    (∀ g ∈ (blocked n).crewGangs 0 0, g.pend = [] ∧ (∀ f ∈ g.flights, f.finished = true) ∧ g.atRest = true) ∧ uncaptured (blocked n) ∧
    pagesWhole (blocked n).here ∧
    (blocked n).storeUsed c.core + (((blocked n).here.foldBlock k.segs [] k.spawned).1.map ((blocked n).bytesOf 0)).sum ≤ 65536 ∧
    (blocked n).here.taskUsed + (((blocked n).crewGangs 0 0).map fun g => (g.imageBytes + 63) / 64 * 64).sum ≤ (blocked n).here.taskSize := by
  simp only [List.mem_cons, List.not_mem_nil, or_false] at h
  rcases h with rfl | rfl
  all_goals exact ⟨_, _, ⟨rfl, rfl, _, rfl⟩, rfl, rfl, by decide +kernel, by decide +kernel,
    by decide +kernel, by decide +kernel, by decide +kernel, alone _ (by decide +kernel), by decide +kernel, by unfold uncaptured; decide +kernel,
    by unfold pagesWhole; decide +kernel, by decide +kernel, by decide +kernel⟩

/-- A flattened frame is on top, or one that it has called. -/
theorem test_meets_TasksEnd_flat (flat : Bool) : ∃ f c r,
    (onGang (calls base fun f => { f with flattened := flat }) fun g => { g with ped := setHeader g.ped 2 true }).cur.frames = f :: c :: r ∧
      f.flattened = flat ∧ f.handler = false ∧ ∀ x ∈ f.regs, x.pend = none :=
  ⟨_, _, _, rfl, rfl, rfl, by decide +revert +kernel⟩

/-- A handler runs: its frame is on top. -/
theorem test_meets_TasksEnd_handler : ∃ c x q, stoppable (inHandler 0) c x q ∧ noHandler (inHandler 0) x 0x18 ∧ (inHandler 0).cur.ctl.wait = .ready ∧
    (inHandler 0).cur.spilled = false ∧ (inHandler 0).cur.entering = none ∧ ∃ f ∈ (inHandler 0).cur.frames, f.handler = true :=
  ⟨_, _, _, ⟨rfl, rfl, by decide +kernel, rfl, rfl, by decide +kernel⟩, .inr (.inl rfl), rfl, rfl, rfl, by decide +kernel⟩

/-- A record of a child. -/
def record : TaskRec :=
  { flags := 0, ped := base.cur.ped, entry := 0x300, join := some 40, nf := 1, gf := 1, segment := 1, argmap := 0, args := [], mark := none
    lineage := [], id := 9 }

/-- A free crew with one record, one that has taken it, and a second crew without any on the same core. -/
def deque (rs : List TaskRec) (taken : Option TaskRec) : State :=
  let s := onCrew base fun c => { c with task := none, deque := rs, taken := taken }
  { s with crews := s.crews ++ [{ emptyCrew with rank := 1 }] }

theorem test_meets_WorkMoves_pop : ∃ c, (deque [record] none).crew 0 0 = c ∧ (deque [record] none).crewFree c = true ∧
    c.deque = [] ++ [record] ∧ record ∉ ([] : List TaskRec) ∧ ((deque [record] none).ctx 0).mayPop record = true :=
  ⟨_, rfl, by decide +kernel⟩

theorem test_meets_WorkMoves_steal : ∃ a b, (deque [record] none).crews.find? (fun k => k.ctx == 0 && k.rank == 1) = some a ∧
    (deque [record] none).crews.find? (fun k => k.ctx == 0 && k.rank == 0) = some b ∧ (deque [record] none).crewFree a = true ∧
    a.deque = [] ∧ a.overflow = [] ∧ a.core = b.core ∧ b.overflow = [] ∧ b.deque = record :: [] ∧
    ((deque [record] none).ctx 0).maySteal 1 record = true :=
  ⟨_, _, rfl, rfl, by decide +kernel⟩

theorem test_meets_WorkMoves_start : ∃ c, (deque [] (some record)).crews.find? (fun k => k.ctx == 0 && k.rank == 0) = some c ∧
    c.taken = some record ∧ c.stopped = false ∧ ((deque [] (some record)).core c.core).resident = some 0 ∧
    ((deque [] (some record)).ctx 0).mayRun record = true ∧
    (∀ g ∈ (deque [] (some record)).crewGangs 0 0, rowsOf record.gf ≤ (deque [] (some record)).quotaRows g) :=
  ⟨_, rfl, by decide +kernel⟩

/-! ## Reducers, mailboxes, barriers -/

/-- A sum of two INTEGER elements (entry 5) and a LIST of two, homes at 0x200 and 0x240. -/
def sumReducer : Reducer := { kind := 1, entry := presetFormats.getD 5 0, rnd := 0, len := 2, home := 0x200 }
def listReducer : Reducer := { kind := 8, entry := 0, rnd := 0, len := 2, home := 0x240 }
def reducing : State := onCtx (puts (lone 127 base) 2 [7, 1]) fun c =>
  { c with reducers := (c.reducers.set 63 (some sumReducer)).set 0 (some listReducer) }

theorem test_meets_ReducersUpdate : ∃ c k, reducerReady reducing sumReducer 63 false 2 [3] k c ∧
    (∀ x ∈ span sumReducer.fmt.w 2, (reducing.cur.reg x).pend = none) ∧ reducing.cur.act ≠ 0 ∧
    (∀ l ∈ activeLanes reducing, (reducing.cur.lane 3 l).toNat < sumReducer.len) ∧ reducing.cur.ftrap = 0 ∧
    (viewElems k sumReducer 63).length = sumReducer.len ∧
    rowsFree reducing ((span sumReducer.fmt.w 2).countP fun x => (reducing.cur.val x).tag ≠ 2) :=
  ⟨reducing.crewOf reducing.cur, { emptyTask with entry := 0x100 }, ⟨by unfold mayRun; decide +kernel, ⟨by decide +kernel, by decide +kernel, _, rfl⟩,
      by decide +kernel, by decide +kernel, by decide +kernel, by decide +kernel, by decide +kernel, by
        show reducing.storeUsed _ + sumReducer.viewBytes ≤ 65536
        decide +kernel⟩,
    by decide +kernel, by decide +kernel, by decide +kernel, by decide +kernel, by decide +kernel, by unfold rowsFree; decide +kernel⟩

theorem test_meets_ReducersUpdate_list : ∃ c k, reducerReady reducing listReducer 0 true 2 [] k c ∧ (∀ x ∈ both 2, (reducing.cur.reg x).pend = none) :=
  ⟨reducing.crewOf reducing.cur, { emptyTask with entry := 0x100 }, ⟨by unfold mayRun; decide +kernel, ⟨by decide +kernel, by decide +kernel, _, rfl⟩,
      by decide +kernel, by decide +kernel, by decide +kernel, by decide +kernel, by decide +kernel, by
        show reducing.storeUsed _ + listReducer.viewBytes ≤ 65536
        decide +kernel⟩, by decide +kernel⟩

/-- The queue holds messages; v112 to v127 receive, v0 names queue 0. -/
def mail (msgs : List (List Word)) : State := { base with queues := base.queues.map fun q => if q.ix = 0 then { q with msgs := msgs } else q }
def theQueue (msgs : List (List Word)) : Queue := { dev := 0, ix := 0, ctx := 0, grove := some 0, prio := 0, msgs := msgs }
def message : List Word := (List.range 16).map fun i => BitVec.ofNat 32 (i + 1)

theorem test_meets_Mailboxes : ∀ m ∈ [[], [message]], receiveReady (mail m) ⟨false, 112, 0⟩ ∧
    ((mail m).cur.lane 0 0).toNat < (mail m).here.queues ∧ queueHolds (mail m) 0 (theQueue m) ∧ (mail m).waitingAt (theQueue m) = [] := by
  intro m hm
  simp only [List.mem_cons, List.not_mem_nil, or_false] at hm
  rcases hm with rfl | rfl
  all_goals
    unfold receiveReady queueHolds uniformReady
    decide +kernel

theorem test_meets_Mailboxes_send : uniformReady base (recordOf 112 16 ++ [0]) ∧ base.cur.act ≠ 0 ∧ base.here.capture = none ∧
    settled base ∧ queueHolds base 0 (theQueue []) := by
  unfold uniformReady queueHolds settled
  decide +kernel

/-- A receive waits for the message. -/
def receiver : Receive := { op := 5, grove := 0, since := 5, act := allLanes, full := true, first := 112, frameNo := 1, old := List.replicate 16 (.u 0) }
def receiving : State := onGang (waits (mail [message]) 112 5 0) fun g => { g with recvs := [receiver] }

theorem test_meets_Mailboxes_deliver : receiving.queue? 0 0 = some (theQueue [message]) ∧ (receiving.ctx 0).capture = none ∧
    receiving.waitingAt (theQueue [message]) = [(receiving.cur.id, receiver)] ∧ receiving.cur.lent = 0 ∧
    (receiving.cur.reg 112).pend = some ⟨5, 0⟩ := by decide +kernel

/-- The gang waits at `mbsend` for room that there is. -/
def sending : State :=
  { onGang base fun g => { g with ctl := { g.ctl with wait := .queue 0 0 3 } } with mem := Memory.writeBytes [] 0x100 (leBytes 4 0x1101C000) }

theorem waitsAlone_of {s : State} (p : Wait → Prop) (h : s.cur.frag = none) (n : ∀ x ∈ s.cur.table, x = none) : waitsAlone s p :=
  ⟨fun _ hn => absurd (h.symm.trans hn) nofun, fun _ _ he => absurd (n _ (entry_mem he)) nofun⟩

theorem test_meets_Mailboxes_accept : sending.cur.ctl.wait = .queue 0 0 3 ∧ sending.queue? 0 0 = some (theQueue []) ∧
    sending.listens sending.cur = true ∧ sending.fetchInstr sending.cur = .ok (.mbsend ⟨false, 112, 0⟩) ∧ sending.cur.entering = none ∧
    waitsAlone sending (fun v => ∃ d i t, v = .queue d i t) ∧ sending.cur.act ≠ 0 ∧ settled sending :=
  ⟨by decide +kernel, by decide +kernel, by decide +kernel, ok_eq (by decide +kernel), by decide +kernel,
    waitsAlone_of _ (by decide +kernel) (by decide +kernel), by decide +kernel, by unfold settled; decide +kernel⟩

theorem unmet_of {s : State} (h : s.others = []) : unmet s := ⟨by simp [h], by simp [h]⟩

/-- A crew of two gangs: how each waits, the phase of the last `carr` of the one in issue, the barrier. -/
def pairCrew (mine theirs : Wait) (last : Option Nat) (phase : Nat) (arrivals : List Nat) : State :=
  onCrew
    { onCtx (onGang base fun g => { g with ctl := { g.ctl with wait := mine }, lastArr := last }) fun c => { c with size := 2 } with
      others := [{ base.cur with id := ⟨0, 0, 1⟩, ctl := { base.cur.ctl with wait := theirs } }] }
    fun c => { c with phase := phase, arrivals := arrivals }

theorem metAt {s : State} {p : Collective → Prop} (c : Option Collective)
    (h : (∀ g ∈ s.others, g.id ≠ s.cur.id) ∧ ∀ g ∈ s.others, g.collective? = c) (hp : ∀ w, c = some w → p w) : metOnly s p :=
  ⟨h.1, fun g hg _ _ w hw => hp w ((h.2 g hg).symm.trans hw)⟩

/-- A state of the barrier: it may issue, the crew is there, its accesses are complete, its phase is the open one. -/
def atBarrier (s : State) (c : Crew) (n : Nat) : Prop :=
  mayRun serialUnit s ∧ s.crews.find? (fun k => k.ctx == s.cur.id.ctx && k.rank == s.cur.id.crew) = some c ∧ flown s ∧
    openPhase s c c.phase ∧ (s.crewGangs s.cur.id.ctx s.cur.id.crew).length = n

theorem not_owes {g : Gang} {p : Nat} (h : g.owes = []) : ¬owesFor g p := fun ⟨_, o, ho, _⟩ => by simp [h] at ho

theorem barrier_of {s : State} {c : Crew} {n : Nat} (h : s.cur.live = true ∧ s.cur.serialTurn = true)
    (hc : s.crews.find? (fun k => k.ctx == s.cur.id.ctx && k.rank == s.cur.id.crew) = some c) (hf : s.cur.flights = [])
    (ho : ∀ g ∈ s.crewGangs c.ctx c.rank, g.owes = []) (hn : (s.crewGangs s.cur.id.ctx s.cur.id.crew).length = n) : atBarrier s c n :=
  ⟨⟨h.1, nofun, fun _ => h.2⟩, hc, fun f hm => by simp [hf] at hm, .inr ⟨rfl, fun g hg _ _ => not_owes (ho g hg)⟩, hn⟩

/-- The first of two gangs arrives at `cbar`, and the second while the first waits there. -/
theorem test_meets_Barriers : ∀ x ∈ [(Wait.ready, []), (.collective (.cbar 0), [1])],
    let s := pairCrew .ready x.1 none 0 x.2
    metOnly s (fun w => ∃ q, w = .cbar q) ∧ (∃ c, atBarrier s c 2 ∧ c.arrivals = x.2 ∧ c.arrivals.contains s.cur.id.rank = false ∧
      ¬∃ g ∈ s.crewGangs s.cur.id.ctx s.cur.id.crew, owesFor g c.phase) ∧ s.cur.ctl.wait = .ready ∧ s.cur.barAt = none ∧ s.cur.lastArr = none := by
  have clear : ∀ {s : State} {p}, (∀ g ∈ s.crewGangs s.cur.id.ctx s.cur.id.crew, g.owes = []) →
      ¬∃ g ∈ s.crewGangs s.cur.id.ctx s.cur.id.crew, owesFor g p := fun h ⟨g, hg, ho⟩ => not_owes (h g hg) ho
  intro x hx
  simp only [List.mem_cons, List.not_mem_nil, or_false] at hx
  rcases hx with rfl | rfl
  · exact ⟨metAt none (by decide +kernel) nofun, ⟨_, barrier_of (by decide +kernel) rfl (by decide +kernel) (by decide +kernel) (by decide +kernel),
      rfl, rfl, clear (by decide +kernel)⟩, rfl, rfl, rfl⟩
  · exact ⟨metAt (some (.cbar 0)) (by decide +kernel) fun w h => ⟨0, (Option.some.inj h).symm⟩,
      ⟨_, barrier_of (by decide +kernel) rfl (by decide +kernel) (by decide +kernel) (by decide +kernel), rfl, rfl, clear (by decide +kernel)⟩, rfl, rfl, rfl⟩

/-- A gang waits at `cbar` for a phase that is complete, or still open. -/
theorem test_meets_Barriers_wait (phase : Nat) (h : phase ∈ [0, 1]) : ∃ c, atBarrier (pairCrew (.collective (.cbar 0)) .ready none phase []) c 2 ∧
    c.phase = phase ∧ metOnly (pairCrew (.collective (.cbar 0)) .ready none phase []) (fun w => ∃ q, w = .cbar q) ∧
    (pairCrew (.collective (.cbar 0)) .ready none phase []).cur.ctl.wait = .collective (.cbar 0) := by
  simp only [List.mem_cons, List.not_mem_nil, or_false] at h
  rcases h with rfl | rfl
  all_goals exact ⟨_, barrier_of (by decide +kernel) rfl (by decide +kernel) (by decide +kernel) (by decide +kernel), rfl,
    metAt none (by decide +kernel) nofun, rfl⟩

/-- The gang's `carr` before was of phase 0, which is complete, while the other waits for phase 1; or phase 0 is open. -/
theorem test_meets_Barriers_carr : ∃ c, atBarrier (pairCrew .ready (.collective (.cwt 1)) (some 0) 1 [1]) c 2 ∧ c.phase = 1 ∧
    c.arrivals.contains 0 = false ∧ (pairCrew .ready (.collective (.cwt 1)) (some 0) 1 [1]).cur.lastArr = some 0 ∧
    metOnly (pairCrew .ready (.collective (.cwt 1)) (some 0) 1 [1]) (fun w => ∀ u r, w ≠ .quorum u r) :=
  ⟨_, barrier_of (by decide +kernel) rfl (by decide +kernel) (by decide +kernel) (by decide +kernel), rfl, rfl, rfl,
    metAt (some (.cwt 1)) (by decide +kernel) fun w h => by cases h; exact nofun⟩

theorem test_meets_Barriers_open : ∃ c, atBarrier (pairCrew .ready .ready (some 0) 0 [0]) c 2 ∧ c.phase ≤ 0 ∧ c.arrivals.contains 0 = true ∧
    (pairCrew .ready .ready (some 0) 0 [0]).cur.lastArr = some 0 ∧ metOnly (pairCrew .ready .ready (some 0) 0 [0]) (besideCwt c.phase) :=
  ⟨_, barrier_of (by decide +kernel) rfl (by decide +kernel) (by decide +kernel) (by decide +kernel), Nat.le_refl 0, rfl, rfl,
    metAt none (by decide +kernel) nofun⟩

/-- The gang in issue has arrived at phase 0 with a load under way that is not there yet. -/
def indebted : State := onCrew (onGang loading fun g => { g with lastArr := some 0, owes := [(5, allLanes)] }) fun c => { c with phase := 1 }

theorem test_meets_Barriers_debt : ∃ c, indebted.crews.find? (fun k => k.ctx == indebted.cur.id.ctx && k.rank == indebted.cur.id.crew) = some c ∧
    openPhase indebted c 0 ∧ c.phase = 1 ∧ indebted.cur.lastArr = some 0 ∧ metOnly indebted (besideCwt 0) ∧ mayRun serialUnit indebted :=
  ⟨_, rfl, .inl ⟨rfl, indebted.cur, by decide +kernel, rfl, (5, allLanes), by decide +kernel, flying .load 8 127 0xFF8 0, by decide +kernel,
    rfl, rfl, .inr (by decide +kernel)⟩, rfl, rfl, metAt none (by decide +kernel) nofun, by unfold mayRun; decide +kernel⟩

/-- `cwt` without a `carr` before it while a load is under way. -/
theorem test_meets_Barriers_orders : ¬settled loading ∧ ¬flown loading ∧ loading.cur.lastArr = none ∧ mayRun serialUnit loading :=
  ⟨fun h => absurd (h (flying .load 8 127 0xFF8 0) (by decide +kernel)) (by decide +kernel),
    fun h => absurd (h (flying .load 8 127 0xFF8 0) (by decide +kernel)) (by decide +kernel), rfl, by unfold mayRun; decide +kernel⟩

/-- The crew's one gang waits at `dafence`; one update is held. -/
def update : HeldUpdate :=
  { ctx := 0, crew := 0, dword := 0x40, addr := 0x200, size := 4, op := 0, value := 5, ped := 0, gang := 0, lane := 0, seq := 0, outside := false }
def fencing : State := onCtx (onGang base fun g => { g with ctl := { g.ctl with wait := .collective (.dafence false) } }) fun c =>
  { c with held := [update] }

theorem test_meets_RoundsApply : mayRun serialUnit base ∧ unmet base :=
  ⟨by unfold mayRun; decide +kernel, unmet_of (by decide +kernel)⟩

theorem test_meets_RoundsApply_event : ∃ c, fencing.crews.find? (fun k => k.ctx == 0 && k.rank == 0) = some c ∧
    (∃ x, fencing.contexts.find? (fun x => x.num == 0) = some x) ∧ c.stopped = false ∧ fencing.cur.live = true ∧ fencing.others = [] ∧
    fencing.cur.frag = none ∧ fencing.cur.ctl.redo = none ∧ fencing.cur.ctl.wait = .collective (.dafence false) ∧ settled fencing ∧
    uncaptured fencing ∧ (fencing.queueEntries fencing.cur = 0 ∧ fencing.halts fencing.cur = false ∧ fencing.cur.away = false ∧ fencing.quarantined = [] ∧ (∀ k ∈ fencing.cores, k.copies = [] ∧ k.mats = []) ∧
    ∀ h ∈ (fencing.ctx 0).held, h.crew = 0 → (fencing.ctx 0).physical h.addr ≠ none) :=
  ⟨_, rfl, ⟨_, rfl⟩, by decide +kernel, by decide +kernel, by decide +kernel, by decide +kernel, by decide +kernel, by decide +kernel,
    by unfold settled; decide +kernel, by unfold uncaptured; decide +kernel, by decide +kernel⟩

/-- The held update is on a page that is not mapped. -/
def astray : State := onCtx fencing fun c => { c with held := [{ update with addr := 0x1200, dword := 0x240 }] }

theorem test_meets_RoundsApply_page : ∃ c, astray.contexts.find? (fun x => x.num == astray.cur.id.ctx) = some c ∧
    (c.held.filter fun h => h.crew == astray.cur.id.crew).head? = some { update with addr := 0x1200, dword := 0x240 } ∧
    c.physical 0x1200 = none ∧ (astray.cur.live = true ∧ astray.others = [] ∧ astray.cur.id.rank = 0 ∧ (astray.crewOf astray.cur).stopped = false ∧
    astray.cur.frag = none ∧ astray.cur.supervisor = false ∧ astray.cur.ctl.wait = .collective (.dafence false)) ∧ settled astray ∧
    astray.queueEntries astray.cur = 0 ∧ astray.quarantined = [] ∧ astray.halts astray.cur = false ∧ astray.cur.away = false :=
  ⟨_, rfl, by decide +kernel, by decide +kernel, by decide +kernel, by unfold settled; decide +kernel, by decide +kernel⟩

theorem test_meets_RoundsApply_update : uncaptured fencing ∧ Memory.wf fencing.mem = true ∧ (fencing.ctx 0).physical update.addr = some 0x200 ∧
    update.size = 4 := ⟨by unfold uncaptured; decide +kernel, by decide +kernel⟩

/-! ## Engines -/

/-- Records at v8 and v12: two rows of 64 bytes each; range 0 covers intermediate 0x1000 on; the scratch has 32 KiB. -/
def engines : State :=
  onCtx (puts base 8 [0x40, 64, 64, 2, 0x80, 64, 128, 2]) fun c =>
    { c with scratch := 32768, ranges := [{ base := 0, len := 65536, perm := 31, ibase := 0x1000 }] }

theorem test_meets_CopiesRun (k : BitVec 2) (h : k ∈ [0, 1, 2, 3]) : mayRun serialUnit engines ∧
    (copyRule engines ⟨false, 8, 12, k⟩).ready engines (recordOf 8 4 ++ recordOf 12 4) ∧ (copyRule engines ⟨false, 8, 12, k⟩).dst.moves := by
  simp only [List.mem_cons, List.not_mem_nil, or_false] at h
  rcases h with rfl | rfl | rfl | rfl
  all_goals
    refine ⟨by unfold mayRun; decide +kernel, ⟨by unfold uniformReady; decide +kernel, ?_, by decide +kernel⟩, by unfold Record.moves; decide +kernel⟩
    refine ⟨?_, ?_⟩
  all_goals first
    | exact ⟨by unfold Record.aligned; decide +kernel, _, rfl, by decide, fun _ => (by decide +kernel), by decide⟩
    | exact ⟨by unfold Record.aligned; decide +kernel, by decide +kernel, fun _ => by decide +kernel⟩

/-- The mask in v16 names the issuing core's crew alone. -/
def manyCopies : State := puts engines 16 [1]
def alsoHere : List Crew := [manyCopies.crewOf manyCopies.cur]

theorem test_meets_CopiesRun_many : mayRun serialUnit manyCopies ∧
    (copyManyRule manyCopies ⟨false, 8, 12, 16⟩ alsoHere).ready manyCopies (recordOf 8 4 ++ recordOf 12 4 ++ [16]) ∧
    (copyManyRule manyCopies ⟨false, 8, 12, 16⟩ alsoHere).dst.moves := by
  refine ⟨by unfold mayRun; decide +kernel, ⟨by unfold uniformReady; decide +kernel, ⟨by decide +kernel, by decide +kernel,
    ⟨by unfold Record.aligned; decide +kernel, { base := 0, len := 65536, perm := 31, ibase := 0x1000 }, rfl, by decide, fun _ => (by decide +kernel), by decide⟩,
    fun c hc => ?_, by decide +kernel⟩, by decide +kernel⟩, by unfold Record.moves; decide +kernel⟩
  obtain rfl : c = manyCopies.crewOf manyCopies.cur := by simpa [alsoHere] using hc
  exact ⟨by unfold Record.aligned; decide +kernel, by decide +kernel, fun _ => by decide +kernel⟩

theorem test_meets_CopiesRun_none : uniformReady engines (recordOf 8 4 ++ recordOf 12 4 ++ [0]) ∧ engines.cur.lane 0 0 = 0 :=
  ⟨by unfold uniformReady; decide +kernel, by decide +kernel⟩

/-- A copy of two rows that overlap, for the crews of some ranks; crew 1 is on core 1. -/
def copyOf (kind : CopyKind) (src dst : Nat) (crews : List Nat) : CopyOp :=
  { id := 5, gang := ⟨0, 0, 0⟩, core := 0, kind := kind, src := src, dst := dst, srcStride := 64, dstStride := 48, extent := 64, rows := 2,
    rowsDone := 0, crews := crews, track := false, ped := 0, act := allLanes, queued := false, stopAt := 0, finished := false, sup := false }
def copying (c : CopyOp) : State :=
  onCore { base with crews := base.crews ++ [{ emptyCrew with rank := 1, core := 1 }] } fun k => { k with copies := [c] }

/-- What COPY_COMPLETE of the one copy of a core needs. -/
def copies (c : CopyOp) : Prop :=
  let s := copying c
  ((s.core 0).copies = [c] ∧ c.core = 0 ∧ s.cur.live = true ∧ c.gang = s.cur.id ∧ c.finished = false ∧ c.queued = false ∧ c.rowsDone = 0) ∧
    (c.extent ≠ 0 ∧ c.track = false ∧ (c.kind ≠ .multi → c.crews = [s.cur.id.crew]) ∧ c.crews.Nodup ∧ s.queueEntries s.cur = 0) ∧
    (∀ x ∈ s.cores, x.mats = [] ∧ ∀ y ∈ x.copies, y = c) ∧ (∀ r ∈ s.cur.id.crew :: c.crews, receives s r) ∧
    (∀ x ∈ s.contexts, ∀ r ∈ x.ringLate, r.1 ≤ c.id) ∧ settled s ∧ pagesWhole s.here ∧ uncaptured s ∧
    (readsGlobal c → ∀ r i, r < c.rows → i < c.extent → s.here.physical (copyFrom c r i) ≠ none) ∧
    (writesGlobal c → Memory.wf s.mem = true ∧ ∀ r i, r < c.rows → i < c.extent → s.here.physical (copyInto c r i) ≠ none)

/-- Two addresses of the copies that are in the one page of the context. -/
theorem copying_mapped (c : CopyOp) (a st : Nat) (h : a + st + 64 ≤ 4096) (r i : Nat) (hr : r < 2) (hi : i < 64) :
    (copying c).here.physical (a + r * st + i) ≠ none := by
  have hm : (copying c).here.maps = [{ ia := 0, size := 4096, pa := 0, pooled := false }] := rfl
  have hs : r * st ≤ st := by
    have : r = 0 ∨ r = 1 := by omega
    rcases this with rfl | rfl <;> simp
  have : a + r * st + i < 4096 := by omega
  simp [Context.physical, hm, PageMap.serves, this]

theorem copies_of (kind : CopyKind) (crews : List Nat) (h : crews = [0] ∨ (kind = .multi ∧ crews = [0, 1])) :
    copies (copyOf kind 0x200 0x240 crews) := by
  refine ⟨?_, ?_, ?_, ?_, ?_, ?_, ?_, ?_, fun _ r i => copying_mapped _ 0x200 64 (by decide) r i,
    fun _ => ⟨rfl, fun r i => copying_mapped _ 0x240 48 (by decide) r i⟩⟩
  case refine_4 =>
    rcases h with rfl | ⟨rfl, rfl⟩
    all_goals try cases kind
    all_goals exact List.forall_mem_cons.2 ⟨⟨_, rfl, by decide +kernel, by decide +kernel⟩, List.forall_mem_cons.2 ⟨⟨_, rfl, by decide +kernel, by decide +kernel⟩,
      by first | exact List.forall_mem_nil _ | exact List.forall_mem_cons.2 ⟨⟨_, rfl, by decide +kernel, by decide +kernel⟩, List.forall_mem_nil _⟩⟩⟩
  all_goals rcases h with rfl | ⟨rfl, rfl⟩
  all_goals try cases kind
  all_goals first | decide +kernel | (unfold settled pagesWhole uncaptured; decide +kernel) | (unfold pagesWhole; decide +kernel) | (unfold uncaptured; decide +kernel) | (unfold settled; decide +kernel)

theorem test_meets_CopiesRun_complete : ∀ kind ∈ [CopyKind.gs, .sg, .ss, .gg, .multi], copies (copyOf kind 0x200 0x240 [0]) :=
  fun kind _ => copies_of kind [0] (.inl rfl)

theorem test_meets_CopiesRun_receivers : copies (copyOf .multi 0x200 0x240 [0, 1]) := copies_of .multi [0, 1] (.inr ⟨rfl, rfl⟩)

/-- Entries 3 for the products, 1 for the accumulator and the drain. -/
def matrices (s : State) : State := onGang s fun g => { g with mode := 0x8C61 }
def records (l : List Nat) : State := matrices (onCtx (puts base 8 l) fun c =>
  { c with scratch := 32768, ranges := [{ base := 0, len := 65536, perm := 31, ibase := 0x1000 }] })

theorem test_meets_MatrixQueues_zero : ∃ r, matRule (matrices base) (.mzero ⟨false, 0⟩) = some r ∧ mayRun serialUnit (matrices base) ∧
    r.good ∧ matRoomy (matrices base) :=
  ⟨_, rfl, by unfold mayRun; decide +kernel, by
    show accumulates _ ∧ tileGood _ _ _
    unfold accumulates tileGood
    decide +kernel, by unfold matRoomy; decide +kernel⟩

theorem test_meets_MatrixQueues_drain : ∃ r, matRule (records [0, 256, 256, 64]) (.mdrainS ⟨false, 0, 8⟩) = some r ∧
    uniformReady (records [0, 256, 256, 64]) r.uniform ∧ r.good ∧ matRoomy (records [0, 256, 256, 64]) :=
  ⟨_, rfl, by unfold uniformReady; decide +kernel, by
    show drainGood _ _ ∧ scratchGood _ _ _ ∧ _
    unfold drainGood scratchGood accumulates tileGood Record.aligned Record.moves
    decide +kernel, by unfold matRoomy; decide +kernel⟩

theorem test_meets_MatrixQueues_registers : drainGood (matrices base) 0 ∧
    (∀ x ∈ recordOf 96 32, x < (matrices base).cur.regs.length ∧ ((matrices base).cur.reg x).pend = none) ∧
    rowsFree (matrices base) ((recordOf 96 32).countP fun x => ((matrices base).cur.val x).tag ≠ 2) := by
  unfold drainGood accumulates tileGood rowsFree
  decide +kernel

theorem test_meets_MatrixQueues_mma : ∃ r, collectiveRule (records [0, 64, 64, 64]) (.mma ⟨false, 0, 0, 8, 16⟩) = some r ∧
    r.ready (records [0, 64, 64, 64]) := by
  refine ⟨_, rfl, by unfold mayRun; decide +kernel, unmet_of (by decide +kernel), ?_, by decide +kernel, ?_, by unfold uniformReady; decide +kernel,
    by decide +kernel, by unfold tileGood; decide +kernel, ?_, by decide +kernel, by decide +kernel, by unfold matRoomy; decide +kernel⟩
  · refine ⟨by decide, by decide +kernel, ?_⟩
    show mmaAccepts 0 _ _ _
    simp only [mmaAccepts]
    decide +kernel
  · have h : ∀ k, k < 1 → ((records [0, 64, 64, 64]).here.quorum.getLsbD k = true ↔ k = (records [0, 64, 64, 64]).cur.id.rank) := by decide +kernel
    exact fun k hk => h k (by simpa [show (records [0, 64, 64, 64]).here.size = 1 by decide +kernel] using hk)
  · unfold scratchGood Record.aligned Record.moves
    decide +kernel

/-- The gang is outside the quorum. -/
def outsider : State := onCtx (handled 0x0F (records [0, 64, 64, 64])) fun c => { c with quorum := 0 }

theorem test_meets_UnitFaults_quorum : ∃ r, collectiveRule outsider (.mma ⟨false, 0, 0, 8, 16⟩) = some r ∧ mayRun serialUnit outsider ∧
    outsider.cur.frag = none ∧ outsider.cur.entries = [] ∧ unmet outsider ∧ r.good ∧
    (∀ x ∈ recordOf r.b (4 * r.per + r.scale), x < outsider.cur.regs.length) ∧ uniformReady outsider (recordOf r.a 4) ∧
    outsider.here.quorum.getLsbD outsider.cur.id.rank = false ∧ canHandle outsider 0x0F (theHandler 0x0F) := by
  refine ⟨_, rfl, by unfold mayRun; decide +kernel, by decide +kernel, by decide +kernel, unmet_of (by decide +kernel),
    ⟨by decide, by decide +kernel, ?_⟩, by decide +kernel, by unfold uniformReady; decide +kernel, by decide +kernel, by unfold canHandle; decide +kernel⟩
  show mmaAccepts 0 _ _ _
  simp only [mmaAccepts]
  decide +kernel

theorem test_meets_MatrixQueues_wait : (∀ c ∈ base.cores, ∀ m ∈ c.mats, m.finished = true) ∧ (∀ d ∈ base.cur.due, d.trapped = false ∧ d.refused = false) ∧
    uniformReady base [0] ∧ base.cur.supervisor = false := by
  unfold uniformReady
  decide +kernel

/-- One operation at the core. -/
def array (m : MatOp) : State := onCore (matrices base) fun k => { k with mats := [m] }
def matOf (kind : MatKind) (started : Bool) (recd : List Nat) : MatOp :=
  { captured (matrices base) kind 0 with id := 0, started := started, recd := recd }

theorem test_meets_ArrayWorks : ∀ m ∈ [matOf (.mma 0 false) false [0, 64, 64, 64], matOf (.mmas 0 true) true [0, 64, 64, 64], matOf .mzero true [],
      matOf .drainS true [0, 256, 256, 64], matOf (.drainP 0 0) true []],
    ((array m).core 0).mats = [m] ∧ m.issuers = [(array m).cur.id] ∧ (array m).cur.live = true ∧ m.finished = false ∧ m.queued = false ∧
      Memory.wf (base.crewOf base.cur).tiles = true ∧ Memory.wf (base.crewOf base.cur).scratch = true ∧
      m.sent = false ∧ (array m).peerAdds = [] ∧ (array m).crews.find? (fun x => x.ctx == m.ctx && x.rank == m.crew) = some (base.crewOf base.cur) ∧
      (fmtOf m.fc).w = 32 ∧ (fmtOf m.fmt).w / 8 = 4 ∧ (array m).queueEntries (array m).cur = 0 ∧ settled (array m) := by
  unfold settled
  decide +kernel

theorem test_meets_ArrayWorks_product : productGood (matOf (.mma 0 false) true []) ∧ productGood (matOf (.mmas 0 true) true []) := by
  refine ⟨⟨List.forall_mem_cons.2 ⟨by decide +kernel, List.forall_mem_cons.2 ⟨by decide +kernel, List.forall_mem_cons.2
    ⟨by decide +kernel, fun _ h => nomatch h⟩⟩⟩, ?_, by decide +kernel⟩, by decide, by decide +kernel, fun _ => by decide +kernel⟩
  show mmaAccepts 0 _ _ _
  simp only [mmaAccepts]
  decide +kernel

/-- A drain that has started, to a register or, in bytes, to the page at 0. -/
def draining (kind : MatKind) (mode : Nat) (recd : List Nat) : MatOp :=
  { captured (onGang base fun g => { g with mode := BitVec.ofNat 32 mode }) kind 0 with id := 5, started := true, recd := recd }

theorem test_meets_ArrayWorks_start : ∀ k ∈ [.drainR, .drainS, .drainG, MatKind.drainP 0 0],
    ({ draining k 0x8C61 [] with started := false } : MatOp).started = false ∧ settled (array (draining k 0x8C61 [])) := by
  unfold settled
  decide +kernel

/-- v96 waits for the first register of the drain. -/
def drained : State := waits (array (draining .drainR 0x8C61 [])) 96 5 0

theorem test_meets_ArrayWorks_registers : (fmtOf (draining .drainR 0x8C61 []).fc).w = 32 ∧ (fmtOf (draining .drainR 0x8C61 []).fmt).w / 8 = 4 ∧
    (drained.cur.reg 96).pend = some ⟨5, 0⟩ ∧ ∀ x i, (drained.cur.reg x).pend = some ⟨5, i⟩ → i < 32 := by
  refine ⟨by decide +kernel, by decide +kernel, by decide +kernel, fun x i hx => ?_⟩
  have h : ∀ r ∈ drained.cur.regs, r.pend.all (fun p => decide (p.ix < 32)) = true := by decide +kernel
  unfold Gang.reg at hx
  cases hr : drained.cur.regs[x]? with
  | none => simp [hr, zeroReg] at hx
  | some r =>
    have := h r (List.mem_of_getElem? hr)
    simp only [hr, Option.getD_some] at hx
    simpa [hx] using this

def drainG : MatOp := draining .drainG 0x8C66 [0, 64, 64, 64]

theorem test_meets_ArrayWorks_memory : (fmtOf drainG.fc).w = 32 ∧ (fmtOf drainG.fmt).w / 8 = 1 ∧ drainG.ctx = base.cur.id.ctx ∧
    drainG.rowsDone = 0 ∧ drainG.track = false ∧ drainG.ibase = 0 ∧ uncaptured (array drainG) ∧ pagesWhole (array drainG).here ∧
    Memory.wf (array drainG).mem = true ∧ (∀ x ∈ (array drainG).cores, x.copies = [] ∧ ∀ y ∈ x.mats, y = drainG) ∧
    (∀ x ∈ (array drainG).contexts, ∀ late ∈ x.ringLate, late.1 ≤ drainG.id) := by
  unfold uncaptured pagesWhole
  decide +kernel

theorem test_meets_ArrayWorks_rows : (∀ i x, i < 64 → x < 64 → (array drainG).here.physical (drainG.ibase + i * 64 + x) = some (64 * i + x)) ∧
    ∀ i j : Nat, i < 64 → j < 64 → i ≠ j → 64 * i + 64 ≤ 64 * j ∨ 64 * j + 64 ≤ 64 * i := by
  have hm : (array drainG).here.maps = [{ ia := 0, size := 4096, pa := 0, pooled := false }] := by decide +kernel
  have hb : drainG.ibase = 0 := by decide +kernel
  refine ⟨fun i x hi hx => ?_, fun i j _ _ h => by omega⟩
  have : i * 64 + x < 4096 := by omega
  simp [Context.physical, hm, hb, PageMap.serves, this, Nat.mul_comm]

/-- Crew 1 on core 1 has sent a peer-add to tile 0 of crew 0, whose turn is the given rank. -/
def sentOp : MatOp := { matOf (.drainP 0 0) true [] with crew := 1, sent := true }
def peering (turn : Nat) : State :=
  { matrices base with
    crews := (base.crews.map fun c => { c with peers := [turn, 0, 0, 0, 0, 0, 0, 0] }) ++ [{ emptyCrew with rank := 1, core := 1 }]
    cores := [{ freshCore 1 with mats := [sentOp] }]
    peerAdds := [⟨0, 0, 1, false, false, 0⟩] }

theorem test_meets_PeerAddsApply : ∀ turn ∈ [0, 1, 2], ∀ c, (peering turn).crewAt 0 0 0 = some c →
    (peering turn).cores = [{ freshCore 1 with mats := [sentOp] }] ∧ sentOp.issuers = [(peering turn).cur.id] ∧
      c.ctx ∉ ((peering turn).core c.core).saved ∧ (peering turn).crews.find? (fun x => x.ctx == c.ctx && x.rank == c.rank) = some c ∧
      Memory.wf c.tiles = true ∧ 0 < c.peers.length ∧ c.peers.getD 0 0 = turn := by
  intro turn h c hc
  have : c = { base.crewOf base.cur with peers := [turn, 0, 0, 0, 0, 0, 0, 0] } := by
    simp only [List.mem_cons, List.not_mem_nil, or_false] at h
    rcases h with rfl | rfl | rfl
    all_goals exact (Option.some.inj (hc.symm.trans (by decide +kernel)))
  subst this
  simp only [List.mem_cons, List.not_mem_nil, or_false] at h
  rcases h with rfl | rfl | rfl
  all_goals decide +kernel

theorem test_meets_PeerAddsApply_some : ∀ turn ∈ [0, 1, 2], ((peering turn).crewAt 0 0 0).isSome = true := by decide +kernel

/-! ## The host and the rest of the package -/

theorem reachable_base {s : State} (h : s.boot = .running) (b : s.bridged = true) (q : s.quarantined = []) (dev : Nat)
    (p : packageLost s = false := by decide +kernel) : reachable s dev :=
  ⟨h, b, by simp [q], p⟩

theorem test_meets_EventsHappen_rreg : ∃ r, commandRule (.rreg 0 63 1 5 4 4096 0x0) = some r ∧
    r.needs (onCtx base fun c => { c with ranges := [{ base := 0, len := 16384, perm := 3, ibase := 0 }] }) :=
  ⟨_, rfl, _, ⟨rfl, reachable_base rfl rfl rfl _⟩, by decide, by decide +kernel, by
    unfold reducerGood
    exact ⟨by decide, by decide, by decide, by decide, by decide, fun _ => by decide +kernel,
      ⟨0, 16384, 3, 0⟩, by decide +kernel⟩⟩

theorem test_meets_EventsHappen_mapPage : ∃ r, commandRule (.mapPage 0 0x10000 0x20000) = some r ∧ r.needs base :=
  ⟨_, rfl, _, ⟨rfl, reachable_base rfl rfl rfl _⟩, by unfold mapGood; decide +kernel⟩

theorem test_meets_EventsHappen_withdraw : ∃ r, commandRule (.withdrawPoolPage 7 0) = some r ∧
    r.needs { base with pools := [{ dev := 7, size := 0, base := 0x8000 }] } :=
  ⟨_, rfl, by decide +kernel, reachable_base rfl rfl rfl _, by decide +kernel⟩

theorem test_meets_EventsHappen_download : ∃ r, commandRule (.download false 0 (List.replicate 48 0)) = some r ∧ r.needs State.reset :=
  ⟨_, rfl, by decide +kernel, by decide, by decide, by decide, by decide, by decide, nofun⟩

/-- Every device of the package is cut off, or the one with the context. -/
def cutFrom (devs : List Nat) : State := { base with quarantined := devs.map fun d => { dev := d, posted := false } }

theorem test_meets_EventsHappen_cut : commandFor (cutFrom [0]) (.unmapPage 0 0) = some (5, 0) ∧ deviceCut (cutFrom [0]) 0 = true ∧
    packageLost (cutFrom [0]) = false ∧ packageLost (cutFrom (List.range 8)) = true ∧
    commandFor (cutFrom (List.range 8)) (.withdrawPoolPage 0 0) = some (11, 0) ∧ contextNo (cutFrom [0]) 0 = base.here ∧
    base.here.dev = 0 := by decide +kernel

/-- A write of 8 bytes at 0xFF8 that came from device 30 as its number 7, next on the agenda. -/
def came : Transaction := { own := 0, peer := 30, tseq := 7, flits := [{ header := 0x00071E0002000100, payload := List.replicate 56 0 }], port := 0, answer := [] }
def applying : State := { base with applied := [came], agenda := [.linkApply 0 30 7 (.write 0 0xFF8 (leBytes 8 5))] }

theorem test_meets_EventsHappen_apply : ∃ f fs c, came.flits = f :: fs ∧ flitField f 24 6 = 2 ∧ unheard applying came.own = false ∧
    applying.contexts.find? (fun x => x.num == 0) = some c ∧ c.dev = came.own - applying.number ∧ uncaptured applying ∧
    (∀ k ∈ applying.cores, k.copies = [] ∧ k.mats = []) ∧ c.physical 0xFF8 = some 0xFF8 ∧ 0xFF8 % 64 + 8 ≤ 64 ∧ Memory.wf applying.mem = true ∧
    came.done = false ∧ came.tseq.toNat = 7 :=
  ⟨_, _, _, rfl, by decide, by decide +kernel, rfl, by decide +kernel, by unfold uncaptured; decide +kernel, by decide +kernel, by decide +kernel⟩

theorem test_meets_EventsHappen_simple : ∃ a b, commandRule .resumePart = some a ∧ commandRule .bootStatus = some b ∧ a.needs base ∧
    b.needs State.reset := ⟨_, _, rfl, rfl, by decide +kernel⟩

theorem test_meets_EventsHappen_queues : ∃ p r e, queueRule (.hostPost 0 0 message) = some p ∧ queueRule (.hostReceive 0 (.grove 0)) = some r ∧
    queueRule (.errorMessagePost 0) = some e ∧ p.needs base ∧ r.needs (mail [message]) ∧
    e.needs (onCtx base fun c => { c with errKept := [message] }) :=
  ⟨_, _, _, rfl, rfl, rfl, ⟨rfl, rfl, by decide +kernel, .inr (.inr ⟨by decide, _, rfl, by decide +kernel⟩)⟩,
    ⟨theQueue [message], by decide +kernel⟩, ⟨_, _, rfl, by decide +kernel, rfl, by decide +kernel⟩⟩

/-- A write of one flit from device 30, number 7, in order; a flit out of order; one of channel 3. -/
def flit (header : Nat) : Flit := { header := BitVec.ofNat 64 header, payload := List.replicate 56 0 }

theorem test_meets_EventsHappen_flits : ∃ a b c, linkRule (.linkFlitReceive 17 (flit 0x00071E0002000100) true) = some a ∧
    linkRule (.linkFlitReceive 0 (flit 0x00071E0002050100) true) = some b ∧ linkRule (.linkFlitReceive 0 (flit 0x00071E00C2000100) true) = some c ∧
    a.needs base ∧ b.needs base ∧ c.needs base :=
  ⟨_, _, _, rfl, rfl, rfl, ⟨by decide, by decide +kernel, .inr (.inr (.inr (.inr (by unfold flitWhole; decide +kernel))))⟩,
    ⟨by decide, by decide +kernel, .inl (.inr (by decide +kernel))⟩, ⟨by decide, by decide +kernel, .inr (.inl (by decide +kernel))⟩⟩

/-- Of a package that is cut off, and a flit for device 40 of another package. -/
theorem test_meets_EventsHappen_elsewhere : ∃ a b, linkRule (.linkFlitReceive 0 (flit 0x00071E0002000100) true) = some a ∧
    linkRule (.linkFlitReceive 0 (flit 0x00071E2802000100) true) = some b ∧
    a.needs (cutFrom [0]) ∧ b.needs base ∧ flitOurs base (flit 0x00071E2802000100) = false :=
  ⟨_, _, rfl, rfl, ⟨by decide, by decide +kernel, .inr (.inr (.inl (by decide +kernel)))⟩,
    ⟨by decide, by decide +kernel, .inr (.inr (.inr (.inl (by decide +kernel))))⟩, by decide +kernel⟩

/-- Port 0 has a flit outstanding; a transaction to device 30 went out at port 0. -/
def linked : State :=
  { base with
    ports := [{ num := 0, up := true, expect := 0, sendSeq := 1, unacked := [flit 0], waiting := [], escape := [], wire := [flit 0], parts := [] }]
    sent := [{ own := 0, peer := 30, tseq := 7, flits := [flit 0], port := 0, answer := [] }] }

theorem test_meets_EventsHappen_ports : ∃ a b c, linkRule (.portDown 0 true) = some a ∧ linkRule (.e2eRetransmit 30 7 1) = some b ∧
    linkRule (.linkReconnect 3) = some c ∧ a.needs linked ∧ b.needs linked ∧ c.needs { linked with quarantined := [{ dev := 3, posted := false }] } :=
  ⟨_, _, _, rfl, rfl, rfl, by decide +kernel, ⟨by decide, by decide +kernel, by decide +kernel, ⟨0, 30, 7, [flit 0], 0, [], false⟩, by simp [linked], rfl, by decide, by decide, by decide +kernel⟩,
    ⟨⟨3, false⟩, by simp, rfl, rfl⟩⟩

theorem test_meets_EventsHappen_package : ∃ a b c d, packageRule (.supplyDroop 7) = some a ∧ packageRule (.supplyRecover 7) = some b ∧
    packageRule .eccCountReport = some c ∧ packageRule (.l2Eviction 0 0 5) = some d ∧ a.needs base ∧ b.needs { base with stretched := [7] } ∧
    c.needs { base with ecc := [(11, 2)] } ∧ d.needs { base with l2 := [{ slice := 0, set := 0, dev := 0, ctx := 0, piece := 5, pa := 0x140, modified := true }] } :=
  ⟨_, _, _, _, rfl, rfl, rfl, rfl, by decide +kernel, by simp, ⟨11, by decide +kernel⟩,
    ⟨⟨⟨0, 0, 0, 0, 5, 0x140, true⟩, by simp, rfl, rfl, rfl⟩, by unfold uncaptured; decide +kernel, by decide +kernel⟩⟩

/-- A second context with a task to start waits on core 0. -/
def shared (prio units : Nat) : State :=
  { onCore base fun k => { k with saved := [1], units := units } with
    contexts := base.contexts ++ [{ emptyContext with num := 1, prio := prio }]
    crews := base.crews ++ [{ emptyCrew with ctx := 1, taken := some record }]
    others := [{ emptyGang with id := ⟨1, 0, 0⟩, live := true, away := true }] }

theorem test_meets_EventsHappen_turns : ∃ a b, turnRule (.quantumExpiry 0) = some a ∧ turnRule (.preemption 0 1) = some b ∧
    a.needs (shared 0 (2 ^ 20)) ∧ b.needs (shared 7 0) :=
  ⟨_, _, rfl, rfl, ⟨0, by decide +kernel, by decide +kernel, by unfold notQuarantined; decide +kernel, by decide +kernel⟩,
    ⟨0, by decide +kernel, by decide +kernel, by unfold notQuarantined; decide +kernel, by decide +kernel⟩⟩

/-- Two pass records of a core that the context counts on; a page of the pool is mapped at 0x100000. -/
def passRec : PassRec :=
  { num := 1, mismatch := false, snapFull := false, aborted := true, sig := 7, pages := 2, cores := [{ core := 0, sels := [1, 2, 3, 4], vals := [5, 6, 7, 8] }] }
def paged : State :=
  onCore (onCtx base fun c => { c with passes := [passRec, passRec], maps := c.maps ++ [{ ia := 0x100000, size := 0x10000, pa := 0x40000, pooled := true }] })
    fun k => { k with ctrOwner := some 0 }

theorem test_meets_PagesManaged : ∃ c, contextFor paged 0 c ∧ uncaptured paged ∧ Memory.wf paged.mem = true ∧
    (c.maps.find? fun m => decide (m.ia ≤ 0x1000 ∧ 0x1000 < m.ia + m.size)) = none ∧
    (c.maps.find? fun m => decide (m.ia ≤ 0xFFF ∧ 0xFFF < m.ia + m.size)).any (fun m => !m.pooled) = true ∧
    (c.maps.find? fun m => decide (m.ia ≤ 0x10FFFF ∧ 0x10FFFF < m.ia + m.size)).any (fun m => m.pooled && m.size == pageSize 1) = true ∧
    (∀ r ∈ c.passes, ∀ e ∈ r.cores, e.sels.length = 4 ∧ e.vals.length = 4) ∧
    (paged.ownedCores c).length = 1 ∧ 64 + (64 + 48 * 1) * c.passes.length ≤ 4096 ∧ 0x20000 + 4096 ≤ 4 * Config.spokeBytes :=
  ⟨_, ⟨rfl, reachable_base rfl rfl rfl _⟩, by unfold uncaptured; decide +kernel, by decide +kernel⟩

theorem test_meets_PagesManaged_pool : 7 < base.partition.getD 8 ∧ reachable base 7 ∧
    (∀ i, i < 2 → (0x10000 + i * 4096) % 4096 = 0 ∧ physicalOk (0x10000 + i * 4096) 4096 = true ∧ base.inPool (0x10000 + i * 4096) 4096 = false ∧
      ∀ c ∈ base.contexts, ∀ m ∈ c.maps, m.pa + m.size ≤ 0x10000 + i * 4096 ∨ 0x10000 + i * 4096 + 4096 ≤ m.pa) :=
  ⟨by decide +kernel, reachable_base rfl rfl rfl _, by decide +kernel⟩

theorem test_meets_HostAccesses : ∃ c, base.boot = .running ∧ base.bridged = true ∧ base.heldHost = [] ∧ packageLost base = false ∧
    base.contexts.find? (fun x => x.num == 1) = none ∧ contextFor base 0 c ∧ uncaptured base ∧ (∀ k ∈ base.cores, k.copies = [] ∧ k.mats = []) ∧
    Memory.wf base.mem = true ∧ c.physical 0xFC0 = some 0xFC0 ∧ 0xFC0 % 64 + 64 ≤ 64 ∧
    (cutFrom [0]).contexts.find? (fun x => x.num == 0) = some c ∧ deviceCut (cutFrom [0]) c.dev = true ∧ (cutFrom [0]).heldHost = [] :=
  ⟨_, rfl, rfl, rfl, by decide +kernel, by decide +kernel, ⟨rfl, reachable_base rfl rfl rfl _⟩, by unfold uncaptured; decide +kernel, by decide +kernel⟩

/-- The gang waits for eight rows and 100 bytes of compact store. -/
def waiter (s : State) : State := onGang s fun g => { g with ctl := { g.ctl with wait := .rows 8 100 0 } }
def shortPool (s : State) : State := onCore s fun k => { k with pool := 7 }

theorem test_meets_FramesGranted : loneWaiter (waiter base) 8 100 0 ∧ (waiter base).headroom (waiter base).cur 8 = true ∧
    8 ≤ ((waiter base).core 0).pool ∧ 100 ≤ ((waiter base).core 0).poolC ∧ loneWaiter (shortPool (waiter base)) 8 100 0 ∧
    ((shortPool (waiter base)).core 0).pool < 8 ∧ 8 ≤ ((shortPool (waiter base)).core 0).reserve ∧
    100 ≤ ((shortPool (waiter base)).core 0).reserveC := by
  unfold loneWaiter
  decide +kernel

theorem test_meets_FramesGranted_spilled : loneWaiter (onGang (waiter base) fun g => { g with spilled := true }) 8 100 0 ∧
    loneWaiter (onGang (shortPool (waiter base)) fun g => { g with chosen := true }) 8 100 0 ∧ uncaptured (shortPool (waiter base)) ∧
    pagesWhole (shortPool (waiter base)).here ∧ (shortPool (waiter base)).cur.flights = [] ∧ (shortPool (waiter base)).cur.grantRows = 0 ∧
    (waiter base).cur.frameRows + 8 ≤ ((waiter base).core 0).pool ∧ (waiter base).cur.frameCompact + 100 ≤ ((waiter base).core 0).poolC := by
  unfold loneWaiter uncaptured pagesWhole
  decide +kernel

def retrying : State :=
  onGang { base with mem := Memory.writeBytes [] 0x100 (leBytes 4 0x05020800) } fun g => { g with ctl := { g.ctl with wait := .entries } }

theorem test_meets_FramesGranted_jtab : retrying.fetchInstr retrying.cur = .ok (.jtab ⟨false, 1, 2, 0⟩) ∧
    (retrying.cur.live = true ∧ retrying.cur.ctl.wait = .entries ∧ retrying.mayRun retrying.cur = true ∧ retrying.cur.spilled = false ∧
      retrying.cur.away = false ∧ retrying.cur.entering = none ∧ (retrying.crewOf retrying.cur).stopped = false) ∧
    waitsAlone retrying (fun v => v = .entries) :=
  ⟨ok_eq (by decide +kernel), by decide +kernel, waitsAlone_of _ (by decide +kernel) (by decide +kernel)⟩

theorem test_meets_ContextsSwitch : ∃ a b, a = onCore base (fun k => { k with preempt := some 1 }) ∧
    b = onCore (onGang base fun g => { g with away := true }) (fun k => { k with resident := none, saved := [0], preempt := some 0 }) ∧
    ((a.core 0).resident = some 0 ∧ (a.core 0).preempt ≠ none ∧ (a.core 0).copies = [] ∧ (a.core 0).mats = [] ∧
      ∀ i ∈ a.coresOf 0, appliedBy a.here i = a.here.fmtLog.length) ∧
    ((b.core 0).resident = none ∧ 0 ∈ (b.core 0).saved ∧ (b.core 0).preempt = some 0 ∧ b.cur.away = true ∧ ∀ k ∈ b.crews, k.fills = []) ∧
    (notQuarantined a 0 ∧ notQuarantined b 0) ∧ ∀ s ∈ [a, b], uncaptured s ∧ pagesWhole s.here ∧ s.others = [] :=
  ⟨_, _, rfl, rfl, by decide +kernel, by decide +kernel, by unfold notQuarantined; decide +kernel, by
    unfold uncaptured pagesWhole
    exact List.forall_mem_cons.2 ⟨by decide +kernel, List.forall_mem_cons.2 ⟨by decide +kernel, List.forall_mem_nil _⟩⟩⟩

/-! ## Contexts, folds, captures -/

/-- A context descriptor at 0x10000, and at 0x20000 the 64 KiB page of intermediate address 0 with a grove of two crews of one gang. -/
def described : State :=
  { State.reset with
    boot := .running
    mem := [(0x10001, 16), (0x10008, 8), (0x1000A, 3), (0x10010, 77), (0x1001A, 16), (0x10021, 16), (0x1002A, 32), (0x10031, 16), (0x10051, 32),
      (0x10068, 15), (0x1006A, 1), (0x21002, 1), (0x21004, 2), (0x21006, 1), (0x21007, 1), (0x21010, 1), (0x21011, 4), (0x21024, 1), (0x21029, 1),
      (0x21030, 0x34), (0x21039, 8)] }

def newContext : Context := contextOf 0 (Memory.slice described.mem 0x10000 480)
def withPages (maps : List (Nat × Dword)) : Except (BitVec 8) State :=
  ({ described with contexts := described.contexts ++ [newContext] } : State).installAll newContext.num maps
def ready (maps : List (Nat × Dword)) : State := { got (withPages maps) described with contexts := described.contexts }
def examined (maps : List (Nat × Dword)) : Except Nat Context :=
  (ready maps).examine ((got (withPages maps) described).ctx newContext.num) (Memory.slice described.mem 0x10000 480)

theorem test_meets_ContextsCome : reachable described newContext.dev ∧ uncaptured described ∧ withPages [(0, 0x20001)] = .ok (got (withPages [(0, 0x20001)]) described) ∧
    ∃ x, examined [(0, 0x20001)] = .ok x ∧ x.crews = 2 :=
  ⟨reachable_base rfl rfl rfl _, by unfold uncaptured; decide +kernel, ok_got _ (by decide +kernel), by
    have h : (examined [(0, 0x20001)]).toOption.any (fun x => x.crews == 2) = true := by decide +kernel
    revert h
    cases examined [(0, 0x20001)] <;> simp [Except.toOption]⟩

/-- Without the page, the grove cannot be read: field 0x000 of the context descriptor. -/
theorem test_meets_ContextsCome_refused : withPages [] = .ok (got (withPages []) described) ∧ examined [] = .error 0x10000000 :=
  ⟨ok_got _ (by decide +kernel), by
    have h : (match examined [] with
      | .ok _ => 0
      | .error e => e) = 0x10000000 := by decide +kernel
    revert h
    cases examined [] <;> simp⟩

theorem test_meets_ContextsCome_destroy : ∃ c, contextFor paged 0 c ∧ paged.heldHost = [] ∧ Memory.wf paged.mem = true ∧ uncaptured paged ∧
    (∀ m ∈ c.maps, m.pooled = true → ∃ n, n ≤ 4 ∧ m.size = pageSize n) ∧ c.maps.any (fun m => m.pooled && m.size == pageSize 1) = true :=
  ⟨_, ⟨rfl, reachable_base rfl rfl rfl _⟩, rfl, by decide +kernel, by unfold uncaptured; decide +kernel,
    fun m h p => ⟨1, by decide, by
      have : ∀ m ∈ (paged.ctx 0).maps, m.pooled = true → m.size = pageSize 1 := by decide +kernel
      exact this m h p⟩, by decide +kernel⟩

/-- A join record of the crew's task, suspended with its gang; one child has ended with a view. -/
def view (l : List Nat) : View := { id := 63, elems := l, dropped := 0, spilled := false, since := 0 }
def heldTask : Task :=
  { emptyTask with spawned := 1, block := some 40, segs := [{ num := 0, views := [view [10, 20]] }, { num := 1, views := [view [5, 6]] }] }
def joinOf (done : Bool) : JoinRec :=
  { id := 40, addr := 0, unfinished := 0, finals := [{ num := 1, views := [view [1, 2]] }],
    suspended := some { gangs := [base.cur], task := heldTask, crew := 0, size := 64, addr := 64, atDone := false },
    folded := done, flags := 0, result := if done then [view [16, 28]] else [] }
def joined (done : Bool) : State := onCrew (onCtx reducing fun c => { c with joins := [joinOf done] }) fun k =>
  { k with task := none, resuming := some 40 }

theorem test_meets_FoldsResume_block : ∃ c p, (joined false).contexts.find? (fun x => x.num == 0) = some c ∧
    c.joinRec? 40 = some (joinOf false) ∧ (joinOf false).suspended = some p ∧ (joinOf false).unfinished = 0 ∧ (joinOf false).folded = false :=
  ⟨_, _, rfl, by decide +kernel, rfl, rfl, rfl⟩

theorem test_meets_FoldsResume_task : ∃ c k p, (joined true).cur.live = true ∧ (joined true).others = [] ∧ (joined true).cur.id.rank = 0 ∧
    (joined true).contexts.find? (fun x => x.num == 0) = some c ∧ (joined true).crews.find? (fun x => x.ctx == 0 && x.rank == 0) = some k ∧
    k.resuming.bind c.joinRec? = some (joinOf true) ∧ (joinOf true).suspended = some p ∧ p.atDone = false ∧ p.gangs = [base.cur] ∧
    (base.cur.id.rank = 0 ∧ base.cur.frag = none ∧ c.capture = none ∧ k.stopped = false ∧ k.task = none ∧ k.taken = none ∧
    ((joined true).core k.core).resident = some 0 ∧ pedF base.cur.ped = false ∧ 1 ≤ pedDepth base.cur.ped ∧ joinsOf base.cur.ped < 63) ∧
    (∀ x ∈ c.joins, ∀ q, x.suspended = some q → q.addr % 2 ^ 57 = p.addr % 2 ^ 57 → x = joinOf true) ∧
    ((joinOf true).result.map View.id).Nodup ∧ (joinOf true).folded = true ∧
    (joined true).storeUsed k.core + ((joinOf true).result.map ((joined true).bytesOf 0)).sum ≤ 65536 := by
  have hj : ((joined true).ctx 0).joins = [joinOf true] := rfl
  exact ⟨(joined true).ctx 0, _, _, by decide +kernel, by decide +kernel, by decide +kernel, rfl, rfl, by decide +kernel, rfl, rfl, rfl, by decide +kernel,
    fun x hx _ _ _ => by simpa [hj] using hx, by decide +kernel⟩

/-- The root strand has ended with one view of the sum. -/
def rootTask : Task := { emptyTask with segs := [{ num := 0, views := [view [7, 9]] }] }
def rooted : State := onCrew reducing fun k => { k with folding := true, task := some rootTask }

theorem test_meets_FoldsResume_root : ∃ c k, rooted.contexts.find? (fun y => y.num == 0) = some c ∧
    rooted.crews.find? (fun y => y.ctx == 0 && y.rank == k.rank) = some k ∧ k.task = some rootTask ∧ rootTask.finals = [view [7, 9]] ∧
    k.folding = true ∧ (uncaptured rooted ∧ ∀ y ∈ rooted.cores, y.copies = [] ∧ y.mats = []) ∧ c.folded = emptyTask.rootOf ∧ c.reducer? 63 = some sumReducer ∧ sumReducer.kind ≠ 8 ∧
    sumReducer.fmt.w = 32 ∧ sumReducer.len = 2 ∧ Memory.wf rooted.mem = true ∧
    (∀ i, i < sumReducer.homeBytes → ∃ ia, c.homeByte sumReducer i = some ia ∧ c.physical ia = some (0x200 + i)) ∧
    (∀ ia, c.homeByte sumReducer 0 = some ia → ia % 64 + sumReducer.homeBytes ≤ 64) := by
  refine ⟨rooted.ctx 0, rooted.crew 0 0, rfl, rfl, rfl, by decide +kernel, by decide +kernel, by unfold uncaptured; decide +kernel, by decide +kernel,
    by decide +kernel, by decide,
    by decide +kernel, by decide, by decide +kernel, ?_, ?_⟩
  · have h : ∀ i, i < sumReducer.homeBytes → (rooted.ctx 0).homeByte sumReducer i = some (0x200 + i) ∧
        (rooted.ctx 0).physical (0x200 + i) = some (0x200 + i) := by decide +kernel
    exact fun i hi => ⟨_, h i hi⟩
  · have h : (rooted.ctx 0).homeByte sumReducer 0 = some 0x200 := by decide +kernel
    intro ia hia
    have : ia = 0x200 := Option.some.inj (hia.symm.trans h)
    subst this
    decide +kernel

/-- Segments 0 and 1 and a child's view of the sum; a LIST that overflows. -/
def foldSegs (v : List Nat → View) : List Segment := [{ num := 0, views := [v [10, 20]] }, { num := 1, views := [v [5, 6]] }]
def listView (l : List Nat) : View := { view l with id := 0 }

theorem test_meets_FoldsResume_order : (rooted.ctx 0).reducer? 63 = some sumReducer ∧ (rooted.ctx 0).reducer? 0 = some listReducer ∧
    (viewOf (foldSegs view) 0 63 :: (List.range 1).flatMap fun i => [viewOf [{ num := 1, views := [view [1, 2]] }] (i + 1) 63,
      viewOf (foldSegs view) (i + 1) 63]) = [some (view [10, 20]), some (view [1, 2]), some (view [5, 6])] ∧
    (viewOf (foldSegs listView) 0 0 :: (List.range 1).flatMap fun i => [viewOf [] (i + 1) 0, viewOf (foldSegs listView) (i + 1) 0]) =
      [some (listView [10, 20]), none, some (listView [5, 6])] ∧ sumReducer.len = 2 ∧ listReducer.len = 2 ∧ listReducer.kind = 8 := by
  decide +kernel

theorem test_meets_FoldsResume_integer : sumReducer.fmt.p = 3 ∧ sumReducer.fmt.w = 32 ∧ 0xFFFFFFFF < 2 ^ sumReducer.fmt.w := by decide +kernel

theorem test_meets_CapturesRun : ∃ c k, mayRun serialUnit (put base 1 (uni 0x22)) ∧ uniformReady (put base 1 (uni 0x22)) [1] ∧
    base.contexts.find? (fun y => y.num == 0) = some c ∧ base.crews.find? (fun y => y.ctx == 0 && y.rank == 0) = some k ∧
    (∃ x, k.task = some x ∧ x.spawned = 0 ∧ x.block = none) ∧ (∀ y ∈ base.contexts, y.capture = none) ∧ k.roundOpen = false ∧
    (put base 1 (uni 0x22)).contextQuiet 0 = true ∧
    (∀ g ∈ (put base 1 (uni 0x22)).gangs, (put base 1 (uni 0x22)).queueEntries g = 0) ∧ ((put base 1 (uni 0x22)).cur.lane 1 0).toNat = 0x22 :=
  ⟨_, _, by unfold mayRun; decide +kernel, by unfold uniformReady; decide +kernel, rfl, rfl, ⟨_, rfl, by decide +kernel⟩,
    by decide +kernel⟩

/-- The third pass of three has ended. -/
def lastPass : Option Capture :=
  (after (exec (.pmctlCapture ⟨false, 1⟩) (put base 1 (uni 0x22)))).bind fun t =>
    t.here.capture.map fun k => { k with ended := true, pass := 3 }
def passEnded : State := onCtx base fun c => { c with capture := lastPass }

theorem test_meets_CapturesRun_end : lastPass.any (fun k => k.ended && decide (k.passes ≤ k.pass) && k.snaps.isEmpty &&
    (passEnded.endedCrew 0 k).isSome) = true ∧ passEnded.contexts.map Context.capture = [lastPass] ∧ passEnded.contextQuiet 0 = true ∧
    (∀ i ∈ passEnded.coresOf 0, (passEnded.core i).resident = some 0 ∧ (passEnded.core i).preempt = none) ∧ passEnded.heldHost = [] ∧
    Memory.wf passEnded.mem = true := by decide +kernel

/-- The first pass of three has ended; the pre-image of page 0 is held at 0x40000. -/
def firstPass : Option Capture := lastPass.map fun k => { k with pass := 1, snaps := [(0, 0x40000)] }
def passOver : State := { onCtx base (fun c => { c with capture := firstPass }) with mem := [(0x240, 3), (0x40240, 7)], dirty := [0] }

theorem test_meets_CapturesRun_next : ∃ c k, passOver.contexts.find? (fun y => y.num == 0) = some c ∧
    (c.capture = some k ∧ k.ended = true ∧ k.pass < k.passes ∧ (passOver.endedCrew 0 k).isSome = true ∧ passOver.contextQuiet 0 = true ∧
      (∀ i ∈ passOver.coresOf 0, (passOver.core i).resident = some 0 ∧ (passOver.core i).preempt = none) ∧ Memory.wf passOver.mem = true) ∧
    writtenBack passOver c ∧ captureWhole passOver 0 k ∧ snapsApart k := by
  refine ⟨_, (firstPass.get (by decide +kernel)), rfl, by decide +kernel, ?_, ?_, ?_⟩
  · unfold writtenBack
    decide +kernel
  · refine ⟨?_, ?_, ⟨base.crewOf base.cur, ?_⟩, ?_⟩
    all_goals decide +kernel
  · unfold snapsApart
    decide +kernel

/-- A modified piece of page 0 leaves L2 in a pass: with a page in the pool, with none, and with the pre-image held. -/
def inPass (pools : List PoolPage) (snaps : List (Nat × Nat)) : State :=
  { onCtx base (fun c => { c with capture := lastPass.map fun k => { k with ended := false, snaps := snaps } }) with
    mem := [(0x240, 3)], side := [(0x240, 5)], pools := pools
    l2 := [{ slice := 0, set := 0, dev := 0, ctx := 0, piece := 9, pa := 0x240, modified := true }] }

theorem test_meets_CapturesRun_image (pools : List PoolPage) (snaps : List (Nat × Nat))
    (h : (pools, snaps) ∈ [([⟨0, 0, 0x40000⟩], []), ([], []), ([], [(0, 0x40000)])]) :
    ∃ c k q, (inPass pools snaps).contexts.find? (fun y => y.num == 0) = some c ∧ c.capture = some k ∧ k.snapFull = false ∧ k.snaps = snaps ∧
      (∀ x ∈ (inPass pools snaps).contexts, x.capture ≠ none → x = c) ∧ (inPass pools snaps).msc.length < 2 ^ 21 ∧
      Memory.wf (inPass pools snaps).mem = true ∧ Memory.wf (inPass pools snaps).side = true ∧
      (inPass pools snaps).l2.find? (fun y => y.dev == q.dev && y.ctx == q.ctx && y.piece == q.piece) = some q ∧ q.modified = true ∧
      (∃ m ∈ c.maps, m.pa ≤ q.pa / 4096 * 4096 ∧ q.pa / 4096 * 4096 < m.pa + m.size) ∧ q.pa / 4096 ∉ (inPass pools snaps).dirty ∧
      poolPage (inPass pools snaps) c.dev 0 = pools.head? := by
  refine ⟨(inPass pools snaps).ctx 0, { lastPass.get (by decide +kernel) with ended := false, snaps := snaps }, ⟨0, 0, 0, 0, 9, 0x240, true⟩, ?_⟩
  simp only [List.mem_cons, List.not_mem_nil, or_false, Prod.mk.injEq] at h
  rcases h with ⟨rfl, rfl⟩ | ⟨rfl, rfl⟩ | ⟨rfl, rfl⟩
  all_goals decide +kernel

/-- During a capture: `pmctl` 3 ends it, and host accesses to its pages are held. -/
theorem test_meets_CountersControlled_abort : ∃ c, passEnded.contexts.find? (fun x => x.num == passEnded.cur.id.ctx) = some c ∧ c.capture = lastPass ∧
    lastPass ≠ none ∧ ((put passEnded 1 (uni 3)).cur.lane 1 0).toNat = 3 := ⟨_, rfl, by decide +kernel⟩

theorem test_meets_HostAccesses_held : ∃ c, contextFor passEnded 0 c ∧ c.physical 0xFC0 = some 0xFC0 ∧
    ∃ x ∈ passEnded.contexts, x.capture ≠ none ∧ ∃ m ∈ x.maps, m.pa ≤ 0xFC0 / 64 * 64 ∧ 0xFC0 / 64 * 64 < m.pa + m.size :=
  ⟨_, ⟨rfl, reachable_base rfl rfl rfl _⟩, by decide +kernel⟩

/-- Bytes in every store, and a state that breaks one. -/
def stocked : State := { onCrew base fun c => { c with scratch := [(4, 7)], tiles := [(9, 1)] } with mem := [(0x200, 3)], side := [(0x200, 5)], hbm := [(0x300, 5)] }

theorem test_meets_StepKeepsMemory_stores : memoryOk stocked = true ∧ memoryOk { stocked with side := [(1, 0)] } = false := by decide +kernel

theorem test_meets_StepKeepsMemory : memoryOk base = true ∧ leads (step base) (fun t => t.cur.ctl.pc == 0x104) = true := by decide +kernel

end Sys2Proof.Tests
end

section
/-! Lemmas of `ExactAndRounded`: magnitudes p/q 2^e, their comparison, their logarithm and `roundint` (R77). -/
namespace Sys2Proof.Proofs.Numbers
open Sys2Proof Sys2Proof.Machine Sys2Proof.Spec

/-! ## Powers of two -/

theorem two_zpow_pos (e : Int) : (0 : Rat) < 2 ^ e := zpow_pos (by norm_num) e

theorem two_zpow_le {a b : Int} : (2 : Rat) ^ a ≤ 2 ^ b ↔ a ≤ b := zpow_le_zpow_iff_right₀ (by norm_num)

theorem two_zpow_lt {a b : Int} : (2 : Rat) ^ a < 2 ^ b ↔ a < b := zpow_lt_zpow_iff_right₀ (by norm_num)

theorem two_zpow_add (a b : Int) : (2 : Rat) ^ (a + b) = 2 ^ a * 2 ^ b := zpow_add₀ (by norm_num) a b

theorem two_zpow_sub (a b : Int) : (2 : Rat) ^ (a - b) = 2 ^ a / 2 ^ b := zpow_sub₀ (by norm_num) a b

/-- A power with a nonnegative exponent as a natural number. -/
theorem two_zpow_toNat {e : Int} (h : 0 ≤ e) : (2 : Rat) ^ e = ((2 ^ e.toNat : Nat) : Rat) := by
  obtain ⟨n, rfl⟩ := Int.eq_ofNat_of_zero_le h
  simp

/-- The powers of two that hold a value determine its exponent. -/
theorem bracket_unique {v : Rat} {j k : Int} (hj : (2 : Rat) ^ j ≤ v) (hj' : v < 2 ^ (j + 1)) (hk : (2 : Rat) ^ k ≤ v)
    (hk' : v < 2 ^ (k + 1)) : j = k := by
  have h1 := two_zpow_lt.1 (hj.trans_lt hk')
  have h2 := two_zpow_lt.1 (hk.trans_lt hj')
  omega

/-- A value between 2^k and 2^(k+1) lies below 2^j when k does. -/
theorem lt_two_zpow_iff {v : Rat} {j k : Int} (hk : (2 : Rat) ^ k ≤ v) (hk' : v < 2 ^ (k + 1)) : v < 2 ^ j ↔ k < j :=
  ⟨fun h => two_zpow_lt.1 (hk.trans_lt h), fun h => hk'.trans_le (two_zpow_le.2 (by omega))⟩

theorem two_pow_log2_le {m : Nat} (h : m ≠ 0) : (2 : Rat) ^ (m.log2 : Int) ≤ m := by
  exact_mod_cast Nat.log2_self_le h

theorem lt_two_pow_log2 (m : Nat) : (m : Rat) < 2 ^ ((m.log2 : Int) + 1) := by
  exact_mod_cast @Nat.lt_log2_self m

/-- The magnitude p/q 2^e. -/
def mag (p q : Nat) (e : Int) : Rat := p / q * 2 ^ e

theorem mag_one (m : Nat) (e : Int) : mag m 1 e = m * 2 ^ e := by simp [mag]

theorem mag_pos {p q : Nat} (hp : 0 < p) (hq : 0 < q) (e : Int) : 0 < mag p q e := by
  have := two_zpow_pos e
  unfold mag
  positivity

theorem mag_bracket {m : Nat} (h : m ≠ 0) (e : Int) :
    (2 : Rat) ^ ((m.log2 : Int) + e) ≤ m * 2 ^ e ∧ (m : Rat) * 2 ^ e < 2 ^ ((m.log2 : Int) + e + 1) := by
  have he := two_zpow_pos e
  constructor
  · rw [two_zpow_add]
    exact mul_le_mul_of_nonneg_right (two_pow_log2_le h) he.le
  · rw [add_right_comm, two_zpow_add]
    exact mul_lt_mul_of_pos_right (lt_two_pow_log2 m) he

/-! ## The model's rational arithmetic -/

theorem ratShift_den_pos (p : Nat) {q : Nat} (hq : 0 < q) (e : Int) : 0 < (ratShift p q e).2 := by
  unfold ratShift
  split
  · exact hq
  · exact Nat.mul_pos hq (Nat.two_pow_pos _)

theorem ratShift_value (p : Nat) {q : Nat} (hq : 0 < q) (e : Int) :
    ((ratShift p q e).1 : Rat) / (ratShift p q e).2 = mag p q e := by
  have hq' : (q : Rat) ≠ 0 := by positivity
  unfold ratShift mag
  split
  case isTrue h =>
    rw [two_zpow_toNat h]
    push_cast
    ring
  case isFalse h =>
    have hneg : (2 : Rat) ^ e = ((2 ^ (-e).toNat : Nat) : Rat)⁻¹ := by rw [← two_zpow_toNat (by omega), zpow_neg, inv_inv]
    rw [hneg]
    push_cast
    field_simp

theorem ratShift_num_value (p : Nat) {q : Nat} (hq : 0 < q) (e : Int) :
    ((ratShift p q e).1 : Rat) = mag p q e * (ratShift p q e).2 := by
  have h : ((ratShift p q e).2 : Rat) ≠ 0 := by exact_mod_cast (ratShift_den_pos p hq e).ne'
  rw [← ratShift_value p hq e, div_mul_cancel₀ _ h]

theorem magLt_iff (m : Nat) (x : Int) (n : Nat) (y : Int) :
    magLt m x n y = true ↔ (m : Rat) * 2 ^ x < n * 2 ^ y := by
  unfold magLt
  split
  case isTrue h =>
    have hy : (2 : Rat) ^ y = 2 ^ (y - x) * 2 ^ x := by rw [← two_zpow_add, sub_add_cancel]
    rw [decide_eq_true_iff, hy, ← mul_assoc, mul_lt_mul_iff_left₀ (two_zpow_pos x), two_zpow_toNat (by omega)]
    exact_mod_cast Iff.rfl
  case isFalse h =>
    have hx : (2 : Rat) ^ x = 2 ^ (x - y) * 2 ^ y := by rw [← two_zpow_add, sub_add_cancel]
    rw [decide_eq_true_iff, hx, ← mul_assoc, mul_lt_mul_iff_left₀ (two_zpow_pos y), two_zpow_toNat (by omega)]
    exact_mod_cast Iff.rfl

/-- The quotient lies between the powers of two about the difference of the logarithms. -/
theorem div_bracket {p q : Nat} (hp : 0 < p) (hq : 0 < q) :
    (2 : Rat) ^ ((p.log2 : Int) - q.log2 - 1) < p / q ∧ (p : Rat) / q < 2 ^ ((p.log2 : Int) - q.log2 + 1) := by
  have hq' : (0 : Rat) < q := by exact_mod_cast hq
  have hql := two_pow_log2_le hq.ne'
  have hqu := lt_two_pow_log2 q
  have hpl := two_pow_log2_le hp.ne'
  have hpu := lt_two_pow_log2 p
  constructor
  · rw [lt_div_iff₀ hq']
    calc (2 : Rat) ^ ((p.log2 : Int) - q.log2 - 1) * q
        < 2 ^ ((p.log2 : Int) - q.log2 - 1) * 2 ^ ((q.log2 : Int) + 1) := mul_lt_mul_of_pos_left hqu (two_zpow_pos _)
      _ = 2 ^ (p.log2 : Int) := by rw [← two_zpow_add]; congr 1; omega
      _ ≤ p := hpl
  · rw [div_lt_iff₀ hq']
    calc (p : Rat) < 2 ^ ((p.log2 : Int) + 1) := hpu
      _ = 2 ^ ((p.log2 : Int) - q.log2 + 1) * 2 ^ (q.log2 : Int) := by rw [← two_zpow_add]; congr 1; omega
      _ ≤ 2 ^ ((p.log2 : Int) - q.log2 + 1) * q := mul_le_mul_of_nonneg_left hql (two_zpow_pos _).le

/-- The test of `ratLog2` compares the quotient with 2^k. -/
theorem ratLog2_test {p q : Nat} (hq : 0 < q) (k : Int) :
    (if 0 ≤ k then decide (q * 2 ^ k.toNat ≤ p) else decide (q ≤ p * 2 ^ (-k).toNat)) = true ↔ (2 : Rat) ^ k ≤ p / q := by
  have hq' : (0 : Rat) < q := by exact_mod_cast hq
  rw [le_div_iff₀ hq']
  split
  case isTrue h =>
    rw [decide_eq_true_iff, two_zpow_toNat h, mul_comm q]
    exact_mod_cast Iff.rfl
  case isFalse h =>
    have hneg : (2 : Rat) ^ k = (2 ^ (-k))⁻¹ := by rw [zpow_neg, inv_inv]
    rw [decide_eq_true_iff, hneg, inv_mul_le_iff₀ (two_zpow_pos _), two_zpow_toNat (by omega), mul_comm p]
    exact_mod_cast Iff.rfl

theorem ratLog2_bracket {p q : Nat} (hp : 0 < p) (hq : 0 < q) :
    (2 : Rat) ^ ratLog2 p q ≤ p / q ∧ (p : Rat) / q < 2 ^ (ratLog2 p q + 1) := by
  obtain ⟨hlow, hhigh⟩ := div_bracket hp hq
  have htest := @ratLog2_test p q hq ((p.log2 : Int) - q.log2)
  unfold ratLog2
  dsimp only
  by_cases h : (2 : Rat) ^ ((p.log2 : Int) - q.log2) ≤ p / q
  · rw [if_pos (htest.2 h)]
    exact ⟨h, hhigh⟩
  · rw [if_neg fun ht => h (htest.1 ht), sub_add_cancel]
    exact ⟨hlow.le, not_le.1 h⟩

/-- The exponent that `rndRat` works with. -/
theorem mag_log_bracket {p q : Nat} (hp : 0 < p) (hq : 0 < q) (e : Int) :
    (2 : Rat) ^ (ratLog2 p q + e) ≤ mag p q e ∧ mag p q e < 2 ^ (ratLog2 p q + e + 1) := by
  obtain ⟨hlow, hhigh⟩ := ratLog2_bracket hp hq
  have he := two_zpow_pos e
  constructor
  · rw [two_zpow_add]
    exact mul_le_mul_of_nonneg_right hlow he.le
  · rw [add_right_comm, two_zpow_add]
    exact mul_lt_mul_of_pos_right hhigh he

/-! ## `roundint` (R77) -/

theorem roundInt_rne (num den : Nat) (s : Bool) : roundInt num den 0 s =
    if den < 2 * (num % den) ∨ 2 * (num % den) = den ∧ num / den % 2 = 1 then num / den + 1 else num / den := by
  simp [roundInt]

theorem roundInt_rtz (num den : Nat) (s : Bool) : roundInt num den 1 s = num / den := by simp [roundInt]

theorem roundInt_rup (num den : Nat) (s : Bool) :
    roundInt num den 2 s = if num % den ≠ 0 ∧ s = false then num / den + 1 else num / den := by simp [roundInt]

theorem roundInt_rdn (num den : Nat) (s : Bool) :
    roundInt num den 3 s = if num % den ≠ 0 ∧ s = true then num / den + 1 else num / den := by simp [roundInt]

theorem roundInt_rna (num den : Nat) (s : Bool) :
    roundInt num den 4 s = if den ≤ 2 * (num % den) then num / den + 1 else num / den := by simp [roundInt]

/-- The rules of `roundint` over the integers: what a mode makes of a quotient and a remainder. -/
theorem roundInt_rules (num den mode : Nat) (sign : Bool) (hden : 0 < den) (hmode : mode ≤ 4) :
    let n := roundInt num den mode sign
    (n * den < num + den ∧ num < n * den + den) ∧
    (mode = 0 → 2 * (n * den) ≤ 2 * num + den ∧ 2 * num ≤ 2 * (n * den) + den ∧
      ((2 * (n * den) = 2 * num + den ∨ 2 * num = 2 * (n * den) + den) → n % 2 = 0)) ∧
    (mode = 4 → 2 * (n * den) ≤ 2 * num + den ∧ 2 * num < 2 * (n * den) + den) ∧
    (mode = 1 ∨ (mode = 2 ∧ sign = true) ∨ (mode = 3 ∧ sign = false) → n * den ≤ num) ∧
    ((mode = 2 ∧ sign = false) ∨ (mode = 3 ∧ sign = true) → num ≤ n * den) := by
  have hdiv : num = num / den * den + num % den := (Nat.div_add_mod' num den).symm
  have hmod : num % den < den := Nat.mod_lt num hden
  have hsucc : (num / den + 1) * den = num / den * den + den := Nat.succ_mul _ den
  interval_cases mode
  · rw [roundInt_rne]; split <;> dsimp only <;> omega
  · rw [roundInt_rtz]; dsimp only; omega
  · rw [roundInt_rup]; cases sign <;> split <;> dsimp only <;> grind
  · rw [roundInt_rdn]; cases sign <;> split <;> dsimp only <;> grind
  · rw [roundInt_rna]; split <;> dsimp only <;> omega

end Sys2Proof.Proofs.Numbers
end

section
/-! Lemmas of `ExactAndRounded`: the fields of an encoding, what magnitudes an entry can hold, `rnd` (R74, R77). -/
namespace Sys2Proof.Proofs.Numbers
open Sys2Proof Sys2Proof.Machine Sys2Proof.Spec

/-- `roundint` meets the rule of the nearest integer over the rationals. -/
theorem roundInt_nearInt {num den mode : Nat} {s : Bool} (hden : 0 < den) (hmode : mode ≤ 4) :
    nearInt mode s ((num : Rat) / den) (roundInt num den mode s) := by
  obtain ⟨⟨hlow, hhigh⟩, hrne, hrna, hdown, hup⟩ := roundInt_rules num den mode s hden hmode
  generalize roundInt num den mode s = n at *
  have hd : (0 : Rat) < den := by exact_mod_cast hden
  have hlow' : (n : Rat) * den < num + den := by exact_mod_cast hlow
  have hhigh' : (num : Rat) < n * den + den := by exact_mod_cast hhigh
  unfold nearInt nearRoot
  simp only [pow_one, ← mul_div_assoc, lt_div_iff₀ hd, div_lt_iff₀ hd, le_div_iff₀ hd, div_le_iff₀ hd, eq_div_iff hd.ne',
    div_eq_iff hd.ne']
  refine ⟨.inr (by linarith), by linarith, fun hm => ?_, fun hm => ?_, fun hm => ?_, fun hm => ?_⟩
  · obtain ⟨h1, h2, htie⟩ := hrne hm
    have h1' : 2 * ((n : Rat) * den) ≤ 2 * num + den := by exact_mod_cast h1
    have h2' : 2 * (num : Rat) ≤ 2 * (n * den) + den := by exact_mod_cast h2
    refine ⟨.inr (by linarith), by linarith, fun ht => htie (ht.imp (fun h => ?_) fun h => ?_)⟩
    · have : 2 * ((n : Rat) * den) = 2 * num + den := by linarith [h.2]
      exact_mod_cast this
    · have : 2 * (num : Rat) = 2 * (n * den) + den := by linarith
      exact_mod_cast this
  · obtain ⟨h1, h2⟩ := hrna hm
    have h1' : 2 * ((n : Rat) * den) ≤ 2 * num + den := by exact_mod_cast h1
    have h2' : 2 * (num : Rat) < 2 * (n * den) + den := by exact_mod_cast h2
    exact ⟨.inr (by linarith), by linarith⟩
  · exact_mod_cast hdown (by simpa [roundsDown, or_assoc] using hm)
  · exact_mod_cast hup hm

/-- Whether `roundint` meets a remainder: the rounded magnitude differs from the exact one, or does so only by it. -/
theorem roundInt_eq_iff {num den mode : Nat} {s : Bool} (hden : 0 < den) (hmode : mode ≤ 4) :
    (roundInt num den mode s : Rat) = num / den ↔ num % den = 0 := by
  have hd : (den : Rat) ≠ 0 := by exact_mod_cast hden.ne'
  rw [eq_div_iff hd]
  constructor
  · intro h
    have h' : roundInt num den mode s * den = num := by exact_mod_cast h
    rw [← h', Nat.mul_mod_left]
  · intro h
    obtain ⟨⟨hlow, hhigh⟩, -⟩ := roundInt_rules num den mode s hden hmode
    obtain ⟨k, rfl⟩ := Nat.dvd_of_mod_eq_zero h
    have hk : roundInt (den * k) den mode s = k := by
      generalize roundInt (den * k) den mode s = n at *
      have h1 : n < k + 1 := Nat.lt_of_mul_lt_mul_right (a := den) (by rw [Nat.succ_mul, mul_comm k]; exact hlow)
      have h2 : k < n + 1 := Nat.lt_of_mul_lt_mul_right (a := den) (by rw [Nat.succ_mul, mul_comm k]; exact hhigh)
      omega
    rw [hk]
    push_cast
    ring

/-! ## Entries of P 0 to 2 and the fields of an encoding (R73, R74) -/

/-- What the validity rule says of an entry with P 0 to 2 (R73). -/
structure FloatEntry (f : Fmt) : Prop where
  policy : f.p ≤ 2
  frac_pos : 1 ≤ f.f
  frac_le : f.f ≤ 52
  exp_pos : 1 ≤ f.e
  exp_ieee : f.p = 0 → 2 ≤ f.e
  exp_le : f.e ≤ 11
  bias_nonneg : 0 ≤ f.bias
  bias_lt : f.bias < 2 ^ f.e
  width : f.w = 1 + f.e + f.f

theorem floatEntry_of_valid {e : Dword} (h : entryValid e = true) (hv : (fmtOf e).valid = true) (hp : (fmtOf e).p ≤ 2) :
    FloatEntry (fmtOf e) := by
  unfold entryValid at h
  generalize fmtOf e = f at *
  simp only [hv, hp, if_true, Bool.and_eq_true, decide_eq_true_eq, beq_iff_eq] at h
  obtain ⟨-, ⟨⟨⟨⟨⟨⟨-, hf1⟩, hf2⟩, he1⟩, he2⟩, hb1⟩, hb2⟩, hw⟩ := h
  exact ⟨hp, hf1, hf2, by split at he1 <;> omega, fun h0 => by simpa [h0] using he1, he2, hb1, by omega, hw.symm⟩

theorem floatEntry_of_roundsIn {e : Dword} {mode : Nat} (h : roundsIn e mode) : FloatEntry (fmtOf e) :=
  floatEntry_of_valid h.1 h.2.1 h.2.2.1

/-- The value of the fields of an encoding (R74). -/
def valueOf (f : Fmt) (s : Bool) (ex fr : Nat) : Val :=
  if ex = 0 then (if f.d then mkNum s fr (1 - f.bias - f.f) else .zero s)
  else if f.p = 0 ∧ ex = 2 ^ f.e - 1 then
    (if fr = 0 then .inf s
     else .nan s (decide (2 ^ (f.f - 1) ≤ fr)) (fr % 2 ^ (f.f - 1)) (f.f - 1))
  else if f.p = 1 ∧ ex = 2 ^ f.e - 1 ∧ fr = 2 ^ f.f - 1 then .nan s true 0 0
  else .num s (2 ^ f.f + fr) (ex - f.bias - f.f)

/-- An encoding stands for the value of its fields. -/
theorem exact_eq_valueOf {f : Fmt} (hf : FloatEntry f) (x : Nat) :
    exact f x = valueOf f (decide (x % 2 ^ f.w / 2 ^ (f.w - 1) % 2 = 1)) (x % 2 ^ f.w / 2 ^ f.f % 2 ^ f.e)
      (x % 2 ^ f.w % 2 ^ f.f) := by
  have hp : f.p ≠ 3 := by have := hf.policy; omega
  unfold exact valueOf
  rw [if_neg hp]

theorem exact_mod (f : Fmt) (x : Nat) : exact f (x % 2 ^ f.w) = exact f x := by
  unfold exact
  simp only [Nat.mod_mod]

variable {f : Fmt}

theorem two_pow_width (hf : FloatEntry f) : 2 ^ f.w = 2 * 2 ^ (f.w - 1) ∧ 2 ^ (f.w - 1) = 2 ^ f.e * 2 ^ f.f := by
  rw [hf.width]
  constructor
  · rw [← Nat.pow_succ']
    congr 1
    omega
  · rw [← Nat.pow_add]
    congr 1
    omega

theorem fields_lt (hf : FloatEntry f) {ex fr : Nat} (hex : ex < 2 ^ f.e) (hfr : fr < 2 ^ f.f) :
    ex * 2 ^ f.f + fr < 2 ^ (f.w - 1) := by
  rw [(two_pow_width hf).2]
  calc ex * 2 ^ f.f + fr < (ex + 1) * 2 ^ f.f := by rw [Nat.succ_mul]; omega
    _ ≤ 2 ^ f.e * 2 ^ f.f := Nat.mul_le_mul_right _ hex

theorem withSign_lt (hf : FloatEntry f) (s : Bool) {x : Nat} (hx : x < 2 ^ (f.w - 1)) : withSign f s x < 2 ^ f.w := by
  have := (two_pow_width hf).1
  unfold withSign
  split <;> omega

/-- An encoding put together from its fields has their value. -/
theorem exact_withSign (hf : FloatEntry f) (s : Bool) {ex fr : Nat} (hex : ex < 2 ^ f.e) (hfr : fr < 2 ^ f.f) :
    exact f (withSign f s (ex * 2 ^ f.f + fr)) = valueOf f s ex fr := by
  have hlow := fields_lt hf hex hfr
  obtain ⟨hw, hw'⟩ := two_pow_width hf
  have hpos : 0 < 2 ^ f.f := Nat.two_pow_pos _
  rw [exact_eq_valueOf hf, Nat.mod_eq_of_lt (withSign_lt hf s hlow)]
  have hsign : decide (withSign f s (ex * 2 ^ f.f + fr) / 2 ^ (f.w - 1) % 2 = 1) = s := by
    unfold withSign
    cases s
    · simp [Nat.div_eq_of_lt hlow]
    · rw [if_pos rfl, Nat.add_div_right _ (Nat.two_pow_pos _), Nat.div_eq_of_lt hlow]
      rfl
  have hquot : (ex * 2 ^ f.f + fr) / 2 ^ f.f = ex := by
    rw [mul_comm, Nat.mul_add_div hpos, Nat.div_eq_of_lt hfr, Nat.add_zero]
  have hrem : (ex * 2 ^ f.f + fr) % 2 ^ f.f = fr := by rw [Nat.mul_add_mod', Nat.mod_eq_of_lt hfr]
  have hexp : withSign f s (ex * 2 ^ f.f + fr) / 2 ^ f.f % 2 ^ f.e = ex := by
    unfold withSign
    cases s
    · simp [hquot, Nat.mod_eq_of_lt hex]
    · rw [if_pos rfl, hw', Nat.add_mul_div_right _ _ hpos, hquot, Nat.add_mod_right, Nat.mod_eq_of_lt hex]
  have hfrac : withSign f s (ex * 2 ^ f.f + fr) % 2 ^ f.f = fr := by
    unfold withSign
    cases s
    · simp [hrem]
    · rw [if_pos rfl, hw', Nat.add_mul_mod_self_right, hrem]
  rw [hsign, hexp, hfrac]

theorem exact_signed_zero (hf : FloatEntry f) (s : Bool) : exact f (withSign f s 0) = .zero s := by
  have h := exact_withSign hf s (ex := 0) (fr := 0) (Nat.two_pow_pos _) (Nat.two_pow_pos _)
  simpa [valueOf, mkNum] using h

theorem top_lt (f : Fmt) : 2 ^ f.e - 1 < 2 ^ f.e := Nat.sub_lt (Nat.two_pow_pos _) one_pos

theorem top_pos (hf : FloatEntry f) : 1 ≤ 2 ^ f.e - 1 := by
  have : 2 ^ 1 ≤ 2 ^ f.e := Nat.pow_le_pow_right (by omega) hf.exp_pos
  omega

theorem exact_encInf (hf : FloatEntry f) (hp : f.p = 0) (s : Bool) : exact f (encInf f s) = .inf s := by
  have h := exact_withSign hf s (ex := 2 ^ f.e - 1) (fr := 0) (top_lt f) (Nat.two_pow_pos _)
  have := top_pos hf
  rw [Nat.add_zero] at h
  rw [encInf, h]
  simp [valueOf, hp]
  omega

theorem encInf_lt (hf : FloatEntry f) (s : Bool) : encInf f s < 2 ^ f.w :=
  withSign_lt hf s (by simpa using fields_lt hf (top_lt f) (Nat.two_pow_pos f.f))

/-- The bits of a number with fields in range. -/
theorem exact_num_cases (hf : FloatEntry f) {x m : Nat} {s : Bool} {e : Int} (h : exact f x = .num s m e) :
    m ≠ 0 ∧ m < 2 ^ (f.f + 1) ∧ 1 - f.bias - f.f ≤ e ∧ e < 2 ^ f.e - f.bias - f.f ∧ (f.d = false → 2 ^ f.f ≤ m) := by
  rw [exact_eq_valueOf hf] at h
  have hex : x % 2 ^ f.w / 2 ^ f.f % 2 ^ f.e < 2 ^ f.e := Nat.mod_lt _ (Nat.two_pow_pos _)
  have hfr : x % 2 ^ f.w % 2 ^ f.f < 2 ^ f.f := Nat.mod_lt _ (Nat.two_pow_pos _)
  have hpos : 0 < 2 ^ f.f := Nat.two_pow_pos _
  have htop : (2 : Int) ≤ 2 ^ f.e := by
    have := top_pos hf
    have : 2 ≤ 2 ^ f.e := by omega
    exact_mod_cast this
  generalize x % 2 ^ f.w / 2 ^ f.f % 2 ^ f.e = ex at *
  generalize x % 2 ^ f.w % 2 ^ f.f = fr at *
  have hex' : (ex : Int) < 2 ^ f.e := by exact_mod_cast hex
  rw [Nat.pow_succ]
  unfold valueOf mkNum at h
  split_ifs at h with h0 hd hz <;> simp only [Val.num.injEq] at h
  · obtain ⟨-, rfl, rfl⟩ := h
    exact ⟨hz, by omega, le_rfl, by omega, fun hd' => by simp [hd'] at hd⟩
  · obtain ⟨-, rfl, rfl⟩ := h
    exact ⟨by omega, by omega, by omega, by omega, fun _ => by omega⟩

/-! ## Magnitudes that an entry holds (R74) -/

theorem maxFin_value (hf : FloatEntry f) : ((maxFin f).1 : Rat) * 2 ^ (maxFin f).2 = largest f := by
  have h1 : ((2 ^ (f.f + 1) - 1 : Nat) : Rat) = 2 ^ (f.f + 1) - 1 := by
    rw [Nat.cast_sub Nat.one_le_two_pow]
    push_cast
    rfl
  have h2 : ((2 ^ (f.f + 1) - 2 : Nat) : Rat) = 2 ^ (f.f + 1) - 2 := by
    rw [Nat.cast_sub (by rw [Nat.pow_succ]; have := Nat.two_pow_pos f.f; omega)]
    push_cast
    rfl
  have hp := hf.policy
  unfold maxFin largest
  rcases (by omega : f.p = 0 ∨ f.p = 1 ∨ f.p = 2) with h | h | h <;> simp [h, h1, h2]

/-- The exponent of the largest magnitude. -/
def topExp (f : Fmt) : Int := (if f.p = 0 then 2 ^ f.e - 2 else 2 ^ f.e - 1) - f.bias

theorem maxFin_cases (hf : FloatEntry f) : (maxFin f).2 = topExp f - f.f ∧ 2 ^ f.f ≤ (maxFin f).1 ∧
    (maxFin f).1 = (if f.p = 1 then 2 ^ (f.f + 1) - 2 else 2 ^ (f.f + 1) - 1) := by
  have h2 : 2 ^ 1 ≤ 2 ^ f.f := Nat.pow_le_pow_right (by omega) hf.frac_pos
  unfold maxFin topExp
  split_ifs <;> simp_all [Nat.pow_succ] <;> omega

/-- The smallest normal exponent is one of the entry's, its largest too. -/
theorem emin_le_topExp (hf : FloatEntry f) : 1 - f.bias ≤ topExp f := by
  have h1 : (2 : Int) ^ 1 ≤ 2 ^ f.e := pow_le_pow_right₀ (by omega) hf.exp_pos
  unfold topExp
  split
  case isTrue h =>
    have h2 : (2 : Int) ^ 2 ≤ 2 ^ f.e := pow_le_pow_right₀ (by omega) (hf.exp_ieee h)
    omega
  case isFalse => omega

theorem largest_lt (hf : FloatEntry f) : largest f < 2 ^ (topExp f + 1) := by
  obtain ⟨hx, -, hm⟩ := maxFin_cases hf
  have hlt : (maxFin f).1 < 2 ^ (f.f + 1) := by
    have := Nat.two_pow_pos (f.f + 1)
    rw [hm]
    split <;> omega
  calc largest f = (maxFin f).1 * 2 ^ (maxFin f).2 := (maxFin_value hf).symm
    _ < (2 ^ (f.f + 1) : Nat) * 2 ^ (maxFin f).2 :=
      mul_lt_mul_of_pos_right (by exact_mod_cast hlt) (two_zpow_pos _)
    _ = 2 ^ (topExp f + 1) := by
      rw [hx, Nat.cast_pow, ← zpow_natCast, Nat.cast_ofNat, ← two_zpow_add]
      congr 1
      push_cast
      omega

/-- The fraction with its leading bit that `encodeMag` forms: it stands in the place of the leading bit. -/
theorem leading_value {m : Nat} (hm : m ≠ 0) (hdvd : 2 ^ (m.log2 - f.f) ∣ m) (x : Int) :
    let n := if m.log2 ≤ f.f then m * 2 ^ (f.f - m.log2) else m / 2 ^ (m.log2 - f.f)
    (n : Rat) * 2 ^ ((m.log2 : Int) + x - f.f) = m * 2 ^ x ∧ 2 ^ f.f ≤ n ∧ n < 2 ^ (f.f + 1) := by
  intro n
  obtain ⟨hlow, hhigh⟩ := mag_bracket hm x
  have hunit := two_zpow_pos ((m.log2 : Int) + x - f.f)
  have hval : (n : Rat) * 2 ^ ((m.log2 : Int) + x - f.f) = m * 2 ^ x := by
    by_cases h : m.log2 ≤ f.f
    · simp only [n, if_pos h]
      rw [Nat.cast_mul, Nat.cast_pow, ← zpow_natCast, Nat.cast_ofNat, mul_assoc, ← two_zpow_add]
      congr 2
      omega
    · simp only [n, if_neg h]
      obtain ⟨k, hk⟩ := hdvd
      have hdiv : m / 2 ^ (m.log2 - f.f) = k := Nat.div_eq_of_eq_mul_right (Nat.two_pow_pos _) hk
      have hexp : (2 : Rat) ^ ((m.log2 : Int) + x - f.f) = (2 ^ (m.log2 - f.f) : Nat) * 2 ^ x := by
        rw [Nat.cast_pow, ← zpow_natCast, Nat.cast_ofNat, ← two_zpow_add]
        congr 1
        omega
      have hcast : (m : Rat) = (2 ^ (m.log2 - f.f) : Nat) * k := by exact_mod_cast hk
      rw [hdiv, hexp, hcast]
      ring
  refine ⟨hval, ?_, ?_⟩
  · have : ((2 ^ f.f : Nat) : Rat) * 2 ^ ((m.log2 : Int) + x - f.f) ≤ n * 2 ^ ((m.log2 : Int) + x - f.f) := by
      rw [hval, Nat.cast_pow, ← zpow_natCast, Nat.cast_ofNat, ← two_zpow_add, add_sub_cancel]
      exact hlow
    exact_mod_cast le_of_mul_le_mul_right this hunit
  · have : (n : Rat) * 2 ^ ((m.log2 : Int) + x - f.f) < (2 ^ (f.f + 1) : Nat) * 2 ^ ((m.log2 : Int) + x - f.f) := by
      rw [hval, Nat.cast_pow, ← zpow_natCast, Nat.cast_ofNat, ← two_zpow_add]
      convert hhigh using 2
      push_cast
      omega
    exact_mod_cast lt_of_mul_lt_mul_right this hunit.le

/-- `encodeMag` of a magnitude below the normal ones: its multiple of the smallest unit is the fraction. -/
theorem encodeMag_subnormal (s : Bool) {m : Nat} {x : Int} (hm : m ≠ 0) (h : (m.log2 : Int) + x < 1 - f.bias)
    (hd : f.d = true) (hx : 1 - f.bias - f.f ≤ x) :
    ∃ ex fr n y, ex < 2 ^ f.e ∧ fr < 2 ^ f.f ∧ encodeMag f m x = ex * 2 ^ f.f + fr ∧
      valueOf f s ex fr = .num s n y ∧ (n : Rat) * 2 ^ y = m * 2 ^ x := by
  obtain ⟨-, hhigh⟩ := mag_bracket hm x
  have hval : ((m * 2 ^ (x - (1 - f.bias - f.f)).toNat : Nat) : Rat) * 2 ^ (1 - f.bias - f.f) = m * 2 ^ x := by
    rw [Nat.cast_mul, ← two_zpow_toNat (by omega), mul_assoc, ← two_zpow_add, sub_add_cancel]
  have hlt : m * 2 ^ (x - (1 - f.bias - f.f)).toNat < 2 ^ f.f := by
    have hle : (2 : Rat) ^ ((m.log2 : Int) + x + 1) ≤ 2 ^ (1 - f.bias) := two_zpow_le.2 (by omega)
    have hscale : (2 : Rat) ^ (1 - f.bias) = (2 ^ f.f : Nat) * 2 ^ (1 - f.bias - f.f) := by
      rw [Nat.cast_pow, ← zpow_natCast, Nat.cast_ofNat, ← two_zpow_add]
      congr 1
      omega
    have hmul := lt_of_mul_lt_mul_right (hval ▸ hscale ▸ hhigh.trans_le hle) (two_zpow_pos (1 - f.bias - f.f)).le
    exact_mod_cast hmul
  refine ⟨0, _, _, _, Nat.two_pow_pos _, hlt, by simp [encodeMag, hm, Fmt.emin, h], ?_, hval⟩
  have hne : m * 2 ^ (x - (1 - f.bias - f.f)).toNat ≠ 0 := Nat.mul_ne_zero hm (Nat.two_pow_pos _).ne'
  rw [valueOf, if_pos rfl, if_pos hd, mkNum, if_neg hne]

/-- `encodeMag` of a normal magnitude up to the largest. -/
theorem encodeMag_normal (hf : FloatEntry f) (s : Bool) {m : Nat} {x : Int} (hm : m ≠ 0)
    (h : 1 - f.bias ≤ (m.log2 : Int) + x) (hdvd : 2 ^ (m.log2 - f.f) ∣ m) (hle : (m : Rat) * 2 ^ x ≤ largest f) :
    ∃ ex fr n y, ex < 2 ^ f.e ∧ fr < 2 ^ f.f ∧ encodeMag f m x = ex * 2 ^ f.f + fr ∧
      valueOf f s ex fr = .num s n y ∧ (n : Rat) * 2 ^ y = m * 2 ^ x := by
  obtain ⟨hlow, -⟩ := mag_bracket hm x
  obtain ⟨hval, hn, hn'⟩ := leading_value hm hdvd x
  have henc : encodeMag f m x = ((m.log2 : Int) + x + f.bias).toNat * 2 ^ f.f +
      ((if m.log2 ≤ f.f then m * 2 ^ (f.f - m.log2) else m / 2 ^ (m.log2 - f.f)) - 2 ^ f.f) := by
    simp [encodeMag, hm, Fmt.emin, not_lt.2 h]
  generalize (if m.log2 ≤ f.f then m * 2 ^ (f.f - m.log2) else m / 2 ^ (m.log2 - f.f)) = n at *
  have htop : (m.log2 : Int) + x ≤ topExp f := by
    have := two_zpow_lt.1 (hlow.trans_lt (hle.trans_lt (largest_lt hf)))
    omega
  obtain ⟨ex, hex⟩ := Int.eq_ofNat_of_zero_le (by omega : 0 ≤ (m.log2 : Int) + x + f.bias)
  have hpow : (2 : Int) ^ f.e = (2 ^ f.e : Nat) := by push_cast; rfl
  have htwo := Nat.one_le_two_pow (n := f.e)
  have hfrac : n - 2 ^ f.f < 2 ^ f.f := by rw [Nat.pow_succ] at hn'; omega
  have hexle : (ex : Int) ≤ if f.p = 0 then 2 ^ f.e - 2 else 2 ^ f.e - 1 := by unfold topExp at htop; omega
  have hnotTop : f.p = 0 → ex ≠ 2 ^ f.e - 1 := by
    intro hp
    rw [if_pos hp, hpow] at hexle
    omega
  have hnotNan : f.p = 1 → ex = 2 ^ f.e - 1 → n - 2 ^ f.f ≠ 2 ^ f.f - 1 := by
    intro hp htopEx hall
    obtain ⟨hx, -, hmax⟩ := maxFin_cases hf
    have hexp : (m.log2 : Int) + x = topExp f := by
      rw [topExp, if_neg (by omega), hpow]
      omega
    rw [← maxFin_value hf, ← hval, hx, hexp] at hle
    have hnle : n ≤ (maxFin f).1 := by exact_mod_cast le_of_mul_le_mul_right hle (two_zpow_pos _)
    rw [hmax, if_pos hp, Nat.pow_succ] at hnle
    omega
  have hexlt : ex < 2 ^ f.e := by
    split at hexle <;> rw [hpow] at hexle <;> omega
  refine ⟨ex, n - 2 ^ f.f, n, (m.log2 : Int) + x - f.f, hexlt, hfrac, ?_, ?_, hval⟩
  · rw [henc, hex]
    rfl
  · rw [valueOf, if_neg (by omega), if_neg (fun hc => hnotTop hc.1 hc.2), if_neg (fun hc => hnotNan hc.1 hc.2.1 hc.2.2),
      Nat.add_sub_cancel' hn]
    congr 2
    omega

/-- The encoding of a magnitude m 2^x that the entry holds: it is the value of that sign. -/
theorem encodesReal_encodeMag (hf : FloatEntry f) (s : Bool) {m : Nat} {x : Int} (fl : BitVec 5)
    (hsub : m ≠ 0 → (m.log2 : Int) + x < 1 - f.bias → f.d = true ∧ 1 - f.bias - f.f ≤ x)
    (hdvd : 2 ^ (m.log2 - f.f) ∣ m) (hle : (m : Rat) * 2 ^ x ≤ largest f) :
    encodesReal f { bits := withSign f s (encodeMag f m x), flags := fl, snan := false } s (m * 2 ^ x) := by
  by_cases hm : m = 0
  · subst hm
    have hz : encodeMag f 0 x = 0 := by simp [encodeMag]
    simp only [encodesReal, hz, exact_signed_zero hf, Val.real, Val.sign, signedAs]
    exact ⟨withSign_lt hf s (Nat.two_pow_pos _), by simp, trivial, trivial⟩
  · have hfields : ∃ ex fr n y, ex < 2 ^ f.e ∧ fr < 2 ^ f.f ∧ encodeMag f m x = ex * 2 ^ f.f + fr ∧
        valueOf f s ex fr = .num s n y ∧ (n : Rat) * 2 ^ y = m * 2 ^ x := by
      by_cases h : (m.log2 : Int) + x < 1 - f.bias
      · exact encodeMag_subnormal s hm h (hsub hm h).1 (hsub hm h).2
      · exact encodeMag_normal hf s hm (not_lt.1 h) hdvd hle
    obtain ⟨ex, fr, n, y, hex, hfr, henc, hvalue, hreal⟩ := hfields
    have hexact : exact f (withSign f s (encodeMag f m x)) = .num s n y := by
      rw [henc, exact_withSign hf s hex hfr, hvalue]
    refine ⟨withSign_lt hf s (henc ▸ fields_lt hf hex hfr), ?_, ?_, rfl⟩
    · simp only [hexact, Val.real, ← hreal, signedAs]
      cases s <;> simp
    · simp only [hexact, Val.sign]

theorem encodesReal_encMaxFin (hf : FloatEntry f) (s : Bool) (fl : BitVec 5) :
    encodesReal f { bits := encMaxFin f s, flags := fl, snan := false } s (largest f) := by
  obtain ⟨hx, hlow, hm⟩ := maxFin_cases hf
  have hlt : (maxFin f).1 < 2 ^ (f.f + 1) := by
    have := Nat.two_pow_pos (f.f + 1)
    rw [hm]
    split <;> omega
  have hne : (maxFin f).1 ≠ 0 := (lt_of_lt_of_le (Nat.two_pow_pos _) hlow).ne'
  have hlog : (maxFin f).1.log2 = f.f := (Nat.log2_eq_iff hne).2 ⟨hlow, hlt⟩
  rw [← maxFin_value hf]
  refine encodesReal_encodeMag hf s fl (fun _ hsub => ?_) (by simp [hlog]) (maxFin_value hf).le
  have := emin_le_topExp hf
  omega

/-! ## `rnd` (R77) -/

theorem infinityOr_bits (hf : FloatEntry f) (s : Bool) (fl : BitVec 5) :
    infinityOr f s { bits := if f.p = 0 then encInf f s else encMaxFin f s, flags := fl, snan := false } := by
  unfold infinityOr
  split
  case isTrue h => exact ⟨encInf_lt hf s, exact_encInf hf h s, rfl⟩
  case isFalse h => exact encodesReal_encMaxFin hf s fl

theorem overflowed_overflowResult (hf : FloatEntry f) (s : Bool) (mode : Nat) (fl : BitVec 5) :
    overflowed f mode s { bits := overflowResult f s mode, flags := fl, snan := false } := by
  have hdown : roundsDown mode s = true ↔ mode = 1 ∨ (mode = 2 ∧ s = true) ∨ (mode = 3 ∧ ¬s = true) := by
    simp [roundsDown, or_assoc]
  unfold overflowed overflowResult
  by_cases h : roundsDown mode s = true
  · have := encodesReal_encMaxFin hf s fl
    rw [if_pos h, if_pos (hdown.1 h)]
    simpa using this
  · rw [if_neg h, if_neg (mt hdown.2 h)]
    exact infinityOr_bits hf s fl

/-- A rounded multiple of the unit at a magnitude has at most one bit more than the fraction, or is the next power. -/
theorem nearInt_le {mode m F : Nat} {s : Bool} {w : Rat} (h : nearInt mode s w m) (hw : w < 2 ^ (F + 1)) : m ≤ 2 ^ (F + 1) := by
  rcases h.1 with rfl | h1
  · exact Nat.zero_le _
  · have : (m : Rat) < (2 ^ (F + 1) : Nat) + 1 := by
      push_cast
      linarith
    have : m < 2 ^ (F + 1) + 1 := by exact_mod_cast this
    omega

theorem le_nearInt {mode m k : Nat} {s : Bool} {w : Rat} (h : nearInt mode s w m) (hw : (k : Rat) ≤ w) : k ≤ m := by
  have : (k : Rat) < m + 1 := hw.trans_lt (by simpa using h.2.1)
  have : k < m + 1 := by exact_mod_cast this
  omega

theorem dvd_of_le_two_pow {m F : Nat} (h : m ≤ 2 ^ (F + 1)) : 2 ^ (m.log2 - F) ∣ m := by
  rcases h.eq_or_lt with rfl | h
  · rw [Nat.log2_two_pow]
    exact pow_dvd_pow 2 (by omega)
  · rcases Nat.eq_zero_or_pos m with rfl | hm
    · exact dvd_zero _
    · have : m.log2 < F + 1 := (Nat.log2_lt hm.ne').2 h
      rw [Nat.sub_eq_zero_of_le (by omega), pow_zero]
      exact one_dvd m

/-- The exponent whose leading place is rounded at: that of the magnitude, with subnormals not below the smallest normal. -/
def placeExp (f : Fmt) (k : Int) : Int := if f.d = true ∧ k < 1 - f.bias then 1 - f.bias else k

theorem le_placeExp (f : Fmt) (k : Int) : k ≤ placeExp f k := by
  unfold placeExp
  split <;> omega

theorem emin_le_placeExp (hd : f.d = true) (k : Int) : 1 - f.bias ≤ placeExp f k := by
  unfold placeExp
  simp only [hd, true_and]
  split <;> omega

/-- What becomes of the rounded magnitude z of a number whose magnitude's n-th power is y: the last part of the rule of `rnd`
as the statement has it. -/
def landed (f : Fmt) (mode : Nat) (neg : Bool) (n : Nat) (y z : Rat) (r : FRes) : Prop :=
  let small := (2 : Rat) ^ (1 - f.bias)
  let flags : BitVec 5 := (if z ^ n = y then 0 else 16) ||| (if y < small ^ n ∧ z ^ n ≠ y then 8 else 0)
  if f.d = false ∧ z < small then encodes f r (.zero neg) ∧ r.flags = 24
  else if largest f < z then overflowed f mode neg r ∧ r.flags = flags ||| 20
  else encodesReal f r neg z ∧ r.flags = flags

theorem roundedRoot_iff {mode n : Nat} {neg : Bool} {y : Rat} {r : FRes} : roundedRoot f mode neg n y r ↔
    ∃ (k : Int) (m : Nat), ((2 : Rat) ^ k) ^ n ≤ y ∧ y < ((2 : Rat) ^ (k + 1)) ^ n ∧
      nearRoot mode neg n (y / ((2 : Rat) ^ (placeExp f k - f.f)) ^ n) m ∧
      landed f mode neg n y (m * 2 ^ (placeExp f k - f.f)) r := Iff.rfl

/-- The flags of a magnitude that stays in range. -/
def inexactFlags (f : Fmt) (k : Int) (inexact : Bool) : BitVec 5 :=
  if inexact then (if k < f.emin then fxInexact ||| fxUnderflow else fxInexact) else fxNone

/-- The second half of `rnd`: what is made of the rounded integer m of a magnitude with exponent k. -/
def placed (f : Fmt) (s : Bool) (mode : Nat) (k : Int) (m : Nat) (inexact : Bool) : Nat × BitVec 5 :=
  if f.d = false ∧ magLt m (placeExp f k - f.f) 1 f.emin then (withSign f s 0, fxUnderflow ||| fxInexact)
  else if magLt (maxFin f).1 (maxFin f).2 m (placeExp f k - f.f) then
    (overflowResult f s mode, inexactFlags f k inexact ||| fxOverflow ||| fxInexact)
  else (withSign f s (encodeMag f m (placeExp f k - f.f)), inexactFlags f k inexact)

/-- `rnd` scales by the unit, rounds, and places the integer. -/
theorem rndRat_eq_placed {p q : Nat} {e x : Int} (s : Bool) (mode : Nat) (hx : placeExp f (ratLog2 p q + e) = x) :
    rndRat f s p q e mode =
      let sc := ratShift p q (e - x + f.f)
      placed f s mode (ratLog2 p q + e) (roundInt sc.1 sc.2 mode s) (sc.1 % sc.2 != 0) := by
  subst hx
  rfl

section placedCases
variable {s inexact : Bool} {mode m : Nat} {k : Int}

theorem placed_test_small : magLt m (placeExp f k - f.f) 1 f.emin = true ↔
    (m : Rat) * 2 ^ (placeExp f k - f.f) < 2 ^ (1 - f.bias) := by
  rw [magLt_iff, Nat.cast_one, one_mul, Fmt.emin]

theorem placed_test_large (hf : FloatEntry f) : magLt (maxFin f).1 (maxFin f).2 m (placeExp f k - f.f) = true ↔
    largest f < (m : Rat) * 2 ^ (placeExp f k - f.f) := by
  rw [magLt_iff, maxFin_value hf]

theorem placed_flushed (hd : f.d = false) (hz : (m : Rat) * 2 ^ (placeExp f k - f.f) < 2 ^ (1 - f.bias)) :
    placed f s mode k m inexact = (withSign f s 0, 24) := by
  rw [placed, if_pos ⟨hd, placed_test_small.2 hz⟩]
  rfl

theorem placed_overflowed (hf : FloatEntry f) (hz : ¬(f.d = false ∧ (m : Rat) * 2 ^ (placeExp f k - f.f) < 2 ^ (1 - f.bias)))
    (ho : largest f < (m : Rat) * 2 ^ (placeExp f k - f.f)) :
    placed f s mode k m inexact = (overflowResult f s mode, inexactFlags f k inexact ||| 20) := by
  rw [placed, if_neg (by rwa [placed_test_small]), if_pos ((placed_test_large hf).2 ho), BitVec.or_assoc]
  rfl

theorem placed_held (hf : FloatEntry f) (hz : ¬(f.d = false ∧ (m : Rat) * 2 ^ (placeExp f k - f.f) < 2 ^ (1 - f.bias)))
    (ho : (m : Rat) * 2 ^ (placeExp f k - f.f) ≤ largest f) :
    placed f s mode k m inexact = (withSign f s (encodeMag f m (placeExp f k - f.f)), inexactFlags f k inexact) := by
  rw [placed, if_neg (by rwa [placed_test_small]), if_neg (by rwa [placed_test_large hf, not_lt])]

end placedCases

/-- The flags are those of the statement. -/
theorem inexactFlags_eq {v z : Rat} {k : Int} {inexact : Bool} (hlow : (2 : Rat) ^ k ≤ v) (hhigh : v < 2 ^ (k + 1))
    (hexact : inexact = false ↔ z = v) :
    inexactFlags f k inexact = ((if z = v then 0 else 16) ||| (if v < 2 ^ (1 - f.bias) ∧ z ≠ v then 8 else 0) : BitVec 5) := by
  simp only [inexactFlags, lt_two_zpow_iff hlow hhigh, Fmt.emin, ne_eq, ← hexact]
  by_cases hk : k < 1 - f.bias <;> cases inexact <;> simp [hk, fxInexact, fxUnderflow, fxNone]

/-- A magnitude of exponent k in units of its place takes at most one bit more than the fraction. -/
theorem units_lt {v : Rat} {k : Int} (hhigh : v < 2 ^ (k + 1)) : v / 2 ^ (placeExp f k - f.f) < 2 ^ (f.f + 1) := by
  have := le_placeExp f k
  rw [div_lt_iff₀ (two_zpow_pos _), ← zpow_natCast, ← two_zpow_add]
  exact hhigh.trans_le (two_zpow_le.2 (by push_cast; omega))

/-- Placing the integer nearest to a magnitude in units rounds the magnitude. -/
theorem placed_rounded (hf : FloatEntry f) {mode m : Nat} {s inexact : Bool} {k : Int} {v : Rat} (hlow : (2 : Rat) ^ k ≤ v)
    (hhigh : v < 2 ^ (k + 1)) (hnear : nearInt mode s (v / 2 ^ (placeExp f k - f.f)) m)
    (hexact : inexact = false ↔ (m : Rat) * 2 ^ (placeExp f k - f.f) = v) :
    roundedRoot f mode s 1 v
      { bits := (placed f s mode k m inexact).1, flags := (placed f s mode k m inexact).2, snan := false } := by
  have hm := nearInt_le hnear (units_lt hhigh)
  refine roundedRoot_iff.2 ⟨k, m, by simpa using hlow, by simpa using hhigh, by rw [pow_one]; exact hnear, ?_⟩
  unfold landed
  simp only [pow_one, ← inexactFlags_eq (f := f) hlow hhigh hexact]
  by_cases hz : f.d = false ∧ (m : Rat) * 2 ^ (placeExp f k - f.f) < 2 ^ (1 - f.bias)
  · rw [if_pos hz, placed_flushed hz.1 hz.2]
    exact ⟨⟨withSign_lt hf s (Nat.two_pow_pos _), exact_signed_zero hf s, rfl⟩, rfl⟩
  by_cases ho : largest f < (m : Rat) * 2 ^ (placeExp f k - f.f)
  · rw [if_neg hz, if_pos ho, placed_overflowed hf hz ho]
    exact ⟨overflowed_overflowResult hf s mode _, rfl⟩
  · rw [if_neg hz, if_neg ho, placed_held hf hz (not_lt.1 ho)]
    refine ⟨encodesReal_encodeMag hf s _ (fun hm0 hlog => ?_) (dvd_of_le_two_pow hm) (not_lt.1 ho), rfl⟩
    have hd : f.d = true := by
      by_contra hd
      exact hz ⟨by simpa using hd, (mag_bracket hm0 _).2.trans_le (two_zpow_le.2 (by omega))⟩
    exact ⟨hd, by have := emin_le_placeExp hd k; omega⟩

/-- The integer that `rnd` places: the one nearest to the magnitude in units, inexact when it differs. -/
theorem scaled_nearInt {mode p q : Nat} (hmode : mode ≤ 4) (hq : 0 < q) (s : Bool) (e x : Int) :
    let sc := ratShift p q (e - x + f.f)
    nearInt mode s (mag p q e / 2 ^ (x - f.f)) (roundInt sc.1 sc.2 mode s) ∧
      ((sc.1 % sc.2 != 0) = false ↔ (roundInt sc.1 sc.2 mode s : Rat) * 2 ^ (x - f.f) = mag p q e) := by
  intro sc
  have hden := ratShift_den_pos p hq (e - x + f.f)
  have hscaled : (sc.1 : Rat) / sc.2 = mag p q e / 2 ^ (x - f.f) := by
    rw [ratShift_value p hq, mag, mag, mul_div_assoc, ← two_zpow_sub]
    congr 2
    omega
  refine ⟨hscaled ▸ roundInt_nearInt hden hmode, ?_⟩
  rw [← eq_div_iff (two_zpow_pos _).ne', ← hscaled, roundInt_eq_iff hden hmode, bne_eq_false_iff_eq]

/-- `rnd` of p/q 2^e with a sign is that magnitude rounded as the statement says. -/
theorem rndRat_rounded (hf : FloatEntry f) {mode p q : Nat} (hmode : mode ≤ 4) (hp : 0 < p) (hq : 0 < q) (s : Bool) (e : Int) :
    roundedRoot f mode s 1 (mag p q e)
      { bits := (rndRat f s p q e mode).1, flags := (rndRat f s p q e mode).2, snan := false } := by
  obtain ⟨hlow, hhigh⟩ := mag_log_bracket hp hq e
  obtain ⟨hnear, hexact⟩ := scaled_nearInt (f := f) (p := p) hmode hq s e (placeExp f (ratLog2 p q + e))
  rw [rndRat_eq_placed s mode rfl]
  exact placed_rounded hf hlow hhigh hnear hexact

/-! ## Magnitudes beyond every entry's range -/

theorem two_pow_exp_le (hf : FloatEntry f) : (2 : Int) ^ f.e ≤ 2048 :=
  (pow_le_pow_right₀ (by omega) hf.exp_le : (2 : Int) ^ f.e ≤ 2 ^ 11).trans (by norm_num)

theorem topExp_lt (hf : FloatEntry f) : topExp f < 2048 := by
  have := two_pow_exp_le hf
  have := hf.bias_nonneg
  unfold topExp
  split <;> omega

theorem two_zpow_topExp_le (hf : FloatEntry f) : (2 : Rat) ^ topExp f ≤ largest f := by
  obtain ⟨hx, hlow, -⟩ := maxFin_cases hf
  calc (2 : Rat) ^ topExp f = (2 ^ f.f : Nat) * 2 ^ (maxFin f).2 := by
        rw [hx, Nat.cast_pow, ← zpow_natCast, Nat.cast_ofNat, ← two_zpow_add]
        congr 1
        omega
    _ ≤ (maxFin f).1 * 2 ^ (maxFin f).2 := mul_le_mul_of_nonneg_right (by exact_mod_cast hlow) (two_zpow_pos _).le
    _ = largest f := maxFin_value hf

/-- A magnitude of exponent 3000 or more overflows. -/
theorem rndRat_huge (hf : FloatEntry f) {mode p q : Nat} (hmode : mode ≤ 4) (hp : 0 < p) (hq : 0 < q) (s : Bool) {e : Int}
    (h : 3000 ≤ ratLog2 p q + e) : rndRat f s p q e mode = (overflowResult f s mode, 20) := by
  have hbias := hf.bias_nonneg
  have htop := topExp_lt hf
  have hplace : placeExp f (ratLog2 p q + e) = ratLog2 p q + e := by rw [placeExp, if_neg (by omega)]
  obtain ⟨hlow, -⟩ := mag_log_bracket hp hq e
  obtain ⟨hnear, -⟩ := scaled_nearInt (f := f) (p := p) hmode hq s e (ratLog2 p q + e)
  rw [rndRat_eq_placed s mode hplace]
  dsimp only at hnear ⊢
  generalize ratLog2 p q + e = k at *
  generalize roundInt _ _ mode s = m at *
  have hunit : (2 : Rat) ^ k = (2 ^ f.f : Nat) * 2 ^ (k - f.f) := by
    rw [Nat.cast_pow, ← zpow_natCast, Nat.cast_ofNat, ← two_zpow_add, add_sub_cancel]
  have hm : 2 ^ f.f ≤ m := by
    refine le_nearInt hnear ?_
    rw [le_div_iff₀ (two_zpow_pos _), ← hunit]
    exact hlow
  have hz : (2 : Rat) ^ k ≤ m * 2 ^ (placeExp f k - f.f) := by
    rw [hplace, hunit]
    exact mul_le_mul_of_nonneg_right (by exact_mod_cast hm) (two_zpow_pos _).le
  have hsmall : (2 : Rat) ^ (1 - f.bias) ≤ 2 ^ k := two_zpow_le.2 (by omega)
  have hlarge : largest f < 2 ^ k := (largest_lt hf).trans_le (two_zpow_le.2 (by omega))
  rw [placed_overflowed hf (fun hc => absurd hc.2 (not_lt.2 (hsmall.trans hz))) (hlarge.trans_le hz), inexactFlags,
    if_neg (by rw [Fmt.emin]; omega : ¬k < f.emin)]
  split <;> rfl

/-- What a tiny magnitude is rounded to, as a multiple of the smallest unit. -/
def tinyInt (mode : Nat) (s : Bool) : Nat := if (mode = 2 ∧ s = false) ∨ (mode = 3 ∧ s = true) then 1 else 0

theorem roundInt_tiny {num den mode : Nat} {s : Bool} (hmode : mode ≤ 4) (h0 : 0 < num) (h : 2 * num < den) :
    roundInt num den mode s = tinyInt mode s := by
  have hdiv : num / den = 0 := Nat.div_eq_of_lt (by omega)
  have hmod : num % den = num := Nat.mod_eq_of_lt (by omega)
  unfold tinyInt
  interval_cases mode
  · rw [roundInt_rne, hdiv, hmod, if_neg (by omega)]; rfl
  · rw [roundInt_rtz, hdiv]; rfl
  · rw [roundInt_rup, hdiv, hmod]; cases s <;> simp [h0.ne']
  · rw [roundInt_rdn, hdiv, hmod]; cases s <;> simp [h0.ne']
  · rw [roundInt_rna, hdiv, hmod, if_neg (by omega)]; rfl

/-- A magnitude below half of 1 as a fraction. -/
theorem ratShift_tiny {p q : Nat} (hp : 0 < p) (hq : 0 < q) {e : Int} (h : mag p q e < 2 ^ (-1 : Int)) :
    0 < (ratShift p q e).1 ∧ 2 * (ratShift p q e).1 < (ratShift p q e).2 := by
  have hden : (0 : Rat) < (ratShift p q e).2 := by exact_mod_cast ratShift_den_pos p hq e
  have hval := ratShift_num_value p hq e
  constructor
  · exact_mod_cast hval ▸ mul_pos (mag_pos hp hq e) hden
  · have : 2 * ((ratShift p q e).1 : Rat) < (ratShift p q e).2 := by
      rw [hval]
      have h2 : mag p q e < 1 / 2 := by simpa using h
      nlinarith
    exact_mod_cast this

/-- What a tiny magnitude gives: zero in an entry without subnormals, else zero or the smallest unit. -/
def tinyBits (f : Fmt) (s : Bool) (mode : Nat) : Nat :=
  withSign f s (if f.d = true then encodeMag f (tinyInt mode s) (1 - f.bias - f.f) else 0)

/-- A magnitude of exponent −3000 or less in an entry with subnormals. -/
theorem rndRat_tiny_subnormal (hf : FloatEntry f) (hd : f.d = true) {mode p q : Nat} (hmode : mode ≤ 4) (hp : 0 < p)
    (hq : 0 < q) (s : Bool) {e : Int} (h : ratLog2 p q + e ≤ -3000) : rndRat f s p q e mode = (tinyBits f s mode, 24) := by
  have hbias := hf.bias_lt
  have hexp := two_pow_exp_le hf
  have hfrac := hf.frac_le
  have hk : ratLog2 p q + e < f.emin := by rw [Fmt.emin]; omega
  have hplace : placeExp f (ratLog2 p q + e) = 1 - f.bias := by rw [placeExp, if_pos ⟨hd, hk⟩]
  have hmag : mag p q (e - (1 - f.bias) + f.f) < 2 ^ (-1 : Int) := by
    have hunit : mag p q (e - (1 - f.bias) + f.f) = mag p q e * 2 ^ (f.f - (1 - f.bias)) := by
      rw [mag, mag, mul_assoc, ← two_zpow_add]
      congr 2
      omega
    calc mag p q (e - (1 - f.bias) + f.f) < 2 ^ (ratLog2 p q + e + 1) * 2 ^ (f.f - (1 - f.bias)) := by
          rw [hunit]
          exact mul_lt_mul_of_pos_right (mag_log_bracket hp hq e).2 (two_zpow_pos _)
      _ = 2 ^ (ratLog2 p q + e + 1 + (f.f - (1 - f.bias))) := (two_zpow_add _ _).symm
      _ ≤ 2 ^ (-1 : Int) := two_zpow_le.2 (by omega)
  obtain ⟨hnum0, hnum⟩ := ratShift_tiny hp hq hmag
  have hz : (tinyInt mode s : Rat) * 2 ^ (placeExp f (ratLog2 p q + e) - f.f) ≤ largest f := by
    have h1 : (tinyInt mode s : Rat) ≤ 1 := by unfold tinyInt; split <;> simp
    have hle := emin_le_topExp hf
    calc (tinyInt mode s : Rat) * 2 ^ (placeExp f (ratLog2 p q + e) - f.f) ≤ 1 * 2 ^ (placeExp f (ratLog2 p q + e) - f.f) :=
          mul_le_mul_of_nonneg_right h1 (two_zpow_pos _).le
      _ ≤ 2 ^ topExp f := by
          rw [one_mul, hplace]
          exact two_zpow_le.2 (by omega)
      _ ≤ largest f := two_zpow_topExp_le hf
  rw [rndRat_eq_placed s mode hplace]
  dsimp only
  rw [roundInt_tiny hmode hnum0 hnum, Nat.mod_eq_of_lt (by omega), placed_held hf (by simp [hd]) hz, hplace, tinyBits, if_pos hd,
    inexactFlags, if_pos (by simpa using hnum0.ne'), if_pos hk]
  rfl

/-- The same in an entry without them. -/
theorem rndRat_tiny_flushed (hf : FloatEntry f) (hd : f.d = false) {mode p q : Nat} (hmode : mode ≤ 4) (hp : 0 < p)
    (hq : 0 < q) (s : Bool) {e : Int} (h : ratLog2 p q + e ≤ -3000) : rndRat f s p q e mode = (tinyBits f s mode, 24) := by
  have hbias := hf.bias_lt
  have hexp := two_pow_exp_le hf
  have hplace : placeExp f (ratLog2 p q + e) = ratLog2 p q + e := by rw [placeExp, if_neg (by simp [hd])]
  obtain ⟨hnear, -⟩ := scaled_nearInt (f := f) (p := p) hmode hq s e (placeExp f (ratLog2 p q + e))
  have hm := nearInt_le hnear (units_lt (mag_log_bracket hp hq e).2)
  rw [rndRat_eq_placed s mode rfl]
  dsimp only
  generalize roundInt _ _ mode s = m at *
  have hz : (m : Rat) * 2 ^ (placeExp f (ratLog2 p q + e) - f.f) < 2 ^ (1 - f.bias) := by
    calc (m : Rat) * 2 ^ (placeExp f (ratLog2 p q + e) - f.f)
        ≤ (2 ^ (f.f + 1) : Nat) * 2 ^ (placeExp f (ratLog2 p q + e) - f.f) :=
          mul_le_mul_of_nonneg_right (by exact_mod_cast hm) (two_zpow_pos _).le
      _ = 2 ^ (ratLog2 p q + e + 1) := by
          rw [hplace, Nat.cast_pow, ← zpow_natCast, Nat.cast_ofNat, ← two_zpow_add]
          congr 1
          push_cast
          omega
      _ < 2 ^ (1 - f.bias) := two_zpow_lt.2 (by omega)
  rw [placed_flushed hd hz, tinyBits, if_neg (by simp [hd])]

/-- A magnitude of exponent −3000 or less becomes zero, or the smallest unit on a side. -/
theorem rndRat_tiny (hf : FloatEntry f) {mode p q : Nat} (hmode : mode ≤ 4) (hp : 0 < p) (hq : 0 < q) (s : Bool) {e : Int}
    (h : ratLog2 p q + e ≤ -3000) : rndRat f s p q e mode = (tinyBits f s mode, 24) := by
  cases hd : f.d
  · exact rndRat_tiny_flushed hf hd hmode hp hq s h
  · exact rndRat_tiny_subnormal hf hd hmode hp hq s h

end Sys2Proof.Proofs.Numbers
end

section
/-! Lemmas of `ExactAndRounded`: results before rounding, and what finishing them gives (R79, R80, R83, R202). -/
namespace Sys2Proof.Proofs.Numbers
open Sys2Proof Sys2Proof.Machine Sys2Proof.Spec

/-! ## Exact sums, products and quotients (R79) -/

theorem signedInt_cast (s : Bool) (m : Nat) : (signedInt s m : Rat) = (if s then -1 else 1) * m := by
  cases s <;> simp [signedInt]

theorem real_num (s : Bool) (m : Nat) (e : Int) : Val.real (.num s m e) = some ((signedInt s m : Rat) * 2 ^ e) := by
  rw [signedInt_cast]
  rfl

theorem real_neg {x : Val} {a : Rat} (h : Val.real x = some a) : Val.real x.neg = some (-a) := by
  cases x with
  | nan | inf => cases h
  | zero s =>
    cases h
    simp [Val.neg, Val.real]
  | num s m e =>
    cases h
    cases s <;> simp [Val.neg, Val.real]

theorem dyadicAdd_value (a : Int) (x : Int) (b : Int) (y : Int) :
    ((dyadicAdd a x b y).1 : Rat) * 2 ^ (dyadicAdd a x b y).2 = a * 2 ^ x + b * 2 ^ y := by
  unfold dyadicAdd
  split
  case isTrue h =>
    have hy : (2 : Rat) ^ y = ((2 ^ (y - x).toNat : Nat) : Rat) * 2 ^ x := by
      rw [← two_zpow_toNat (by omega), ← two_zpow_add, sub_add_cancel]
    rw [hy]
    push_cast
    ring
  case isFalse h =>
    have hx : (2 : Rat) ^ x = ((2 ^ (x - y).toNat : Nat) : Rat) * 2 ^ y := by
      rw [← two_zpow_toNat (by omega), ← two_zpow_add, sub_add_cancel]
    rw [hx]
    push_cast
    ring

theorem outOfInt_real (i e : Int) (z : Bool) : Out.real (outOfInt i e z) = some ((i : Rat) * 2 ^ e) := by
  unfold outOfInt
  split
  case isTrue h => simp [Out.real, h]
  case isFalse h =>
    have hcast : (i : Rat) = (if decide (i < 0) = true then -1 else 1) * (i.natAbs : Nat) := by
      rw [Nat.cast_natAbs]
      by_cases hneg : i < 0
      · simp [hneg, abs_of_neg hneg]
      · simp [hneg, abs_of_nonneg (not_lt.1 hneg)]
    rw [hcast]
    simp [Out.real]

theorem rat_one_real (s : Bool) (m : Nat) (e : Int) : Out.real (.rat s m 1 e) = Val.real (.num s m e) := by
  simp [Out.real, Val.real]

theorem addOut_real (mode : Nat) {x y : Val} {a b : Rat} (hx : Val.real x = some a) (hy : Val.real y = some b) :
    Out.real (addOut mode x y) = some (a + b) := by
  cases x <;> cases y <;> simp only [Val.real, reduceCtorEq] at hx hy
  case zero.zero => cases hx; cases hy; simp [addOut, Out.real]
  case zero.num =>
    cases hx
    rw [addOut, rat_one_real, zero_add]
    exact hy
  case num.zero =>
    cases hy
    rw [addOut, rat_one_real, add_zero]
    exact hx
  case num.num s m u t n v =>
    rw [← signedInt_cast, Option.some.injEq] at hx hy
    rw [addOut, outOfInt_real, dyadicAdd_value, hx, hy]

theorem mulVal_real {x y : Val} {a b : Rat} (hx : Val.real x = some a) (hy : Val.real y = some b) :
    ∃ v, mulVal x y = some v ∧ Val.real v = some (a * b) := by
  cases x <;> cases y <;> simp only [Val.real, reduceCtorEq] at hx hy
  case zero.zero => exact ⟨_, rfl, by simp [Val.real, ← Option.some.inj hx]⟩
  case zero.num => exact ⟨_, rfl, by simp [Val.real, ← Option.some.inj hx]⟩
  case num.zero => exact ⟨_, rfl, by simp [Val.real, ← Option.some.inj hy]⟩
  case num.num s m u t n v =>
    refine ⟨_, rfl, ?_⟩
    rw [← Option.some.inj hx, ← Option.some.inj hy, Val.real, two_zpow_add]
    push_cast
    cases s <;> cases t <;> simp <;> ring

theorem divOut_real {x y : Val} {a b : Rat} (hx : Val.real x = some a) (hy : Val.real y = some b) (hb : b ≠ 0) :
    Out.real (divOut x y) = some (a / b) := by
  cases x <;> cases y <;> simp only [Val.real, reduceCtorEq] at hx hy
  case zero.zero => exact absurd (Option.some.inj hy).symm hb
  case zero.num => simp [divOut, Out.real, ← Option.some.inj hx]
  case num.zero => exact absurd (Option.some.inj hy).symm hb
  case num.num s m u t n v =>
    rw [← Option.some.inj hx, ← Option.some.inj hy, divOut, Out.real, two_zpow_sub]
    cases s <;> cases t <;> simp [mul_div_mul_comm, neg_div, div_neg]

theorem fusedOut_real (mode : Nat) {x y z : Val} {a b c : Rat} (negP negQ : Bool) (hx : Val.real x = some a)
    (hy : Val.real y = some b) (hz : Val.real z = some c) :
    ∃ p, mulVal x y = some p ∧ Out.real (addOut mode (if negP then p.neg else p) (if negQ then z.neg else z)) =
      some ((if negP then -(a * b) else a * b) + (if negQ then -c else c)) := by
  obtain ⟨p, hp, hreal⟩ := mulVal_real hx hy
  refine ⟨p, hp, addOut_real mode ?_ ?_⟩
  · cases negP
    · exact hreal
    · exact real_neg hreal
  · cases negQ
    · exact hz
    · exact real_neg hz

/-! ## Encoded values -/

variable {f : Fmt}

theorem exact_num_ne_zero (hf : FloatEntry f) {x m : Nat} {s : Bool} {e : Int} (h : exact f x = .num s m e) : m ≠ 0 :=
  (exact_num_cases hf h).1

/-- A value all of whose numbers are not 0: what `exact` gives. -/
def Proper (v : Val) : Prop := ∀ s m e, v = .num s m e → m ≠ 0

theorem proper_exact (hf : FloatEntry f) (x : Nat) : Proper (exact f x) := fun _ _ _ => exact_num_ne_zero hf

theorem proper_neg {v : Val} (h : Proper v) : Proper v.neg := by
  intro s m e hv
  cases v <;> simp only [Val.neg, reduceCtorEq, Val.num.injEq] at hv
  exact h _ m e (by rw [← hv.2.1, ← hv.2.2])

/-- The sign of a number's real. -/
theorem signedInt_mul_neg_iff {s : Bool} {m : Nat} (hm : m ≠ 0) (e : Int) : (signedInt s m : Rat) * 2 ^ e < 0 ↔ s = true := by
  have he := two_zpow_pos e
  have hm' : (0 : Rat) < m := by exact_mod_cast Nat.pos_of_ne_zero hm
  rw [signedInt_cast]
  cases s
  · simp only [Bool.false_eq_true, if_false, one_mul, iff_false, not_lt]
    positivity
  · simp only [if_true, iff_true]
    nlinarith [mul_pos hm' he]

theorem magnitude_signedInt (s : Bool) (m : Nat) (e : Int) : magnitude ((signedInt s m : Rat) * 2 ^ e) = m * 2 ^ e := by
  have he := two_zpow_pos e
  have hm : (0 : Rat) ≤ m * 2 ^ e := by positivity
  rw [magnitude, signedInt_cast]
  cases s
  · simp [hm.not_gt]
  · by_cases h0 : (m : Rat) * 2 ^ e = 0
    · simp [h0]
    · have : 0 < (m : Rat) * 2 ^ e := lt_of_le_of_ne hm (Ne.symm h0)
      simp [this]

/-- The parts of a value whose real is not 0. -/
theorem num_of_real {v : Val} {x : Rat} (h : Val.real v = some x) (hx : x ≠ 0) :
    ∃ s m e, v = .num s m e ∧ m ≠ 0 ∧ x = (signedInt s m : Rat) * 2 ^ e ∧ decide (x < 0) = s ∧ magnitude x = m * 2 ^ e := by
  cases v with
  | nan | inf => cases h
  | zero s => cases h; exact absurd rfl hx
  | num s m e =>
    have hreal := Option.some.inj ((real_num s m e).symm.trans h)
    have hm : m ≠ 0 := by
      rintro rfl
      exact hx (by rw [← hreal]; cases s <;> simp [signedInt])
    refine ⟨s, m, e, rfl, hm, hreal.symm, ?_, ?_⟩
    · rw [← hreal]
      simp only [signedInt_mul_neg_iff hm]
      simp
    · rw [← hreal, magnitude_signedInt]

theorem zero_of_real {v : Val} (hv : Proper v) (h : Val.real v = some 0) : ∃ s, v = .zero s := by
  cases v with
  | nan | inf => cases h
  | zero s => exact ⟨s, rfl⟩
  | num s m e =>
    rw [real_num, Option.some.injEq] at h
    have hm := hv s m e rfl
    have he := (two_zpow_pos e).ne'
    cases s <;> simp [signedInt, hm, he] at h

theorem isNan_of_real {v : Val} {a : Rat} (h : Val.real v = some a) : v.isNan = false := by
  cases v with
  | nan => cases h
  | inf | zero | num => rfl

theorem isSnan_of_not_nan {v : Val} (h : v.isNan = false) : v.isSnan = false := by
  cases v with
  | nan => cases h
  | inf | zero | num => rfl

/-! ## What finishing a result gives -/

theorem anySnan_of_not_nan {ops : List Val} (h : ∀ v ∈ ops, v.isNan = false) : anySnan ops = false := by
  rw [anySnan, List.any_eq_false]
  exact fun v hv => by simp [isSnan_of_not_nan (h v hv)]

theorem finishOut_zero (hf : FloatEntry f) (mode : Nat) (ops : List Val) (s : Bool) :
    zeroResult f s (finishOut f mode ops (.zero s)) :=
  ⟨⟨withSign_lt hf s (Nat.two_pow_pos _), exact_signed_zero hf s, rfl⟩, rfl⟩

theorem finishOut_inf (hf : FloatEntry f) (mode : Nat) (ops : List Val) (s : Bool) :
    infiniteResult f s 0 (finishOut f mode ops (.inf s)) := ⟨infinityOr_bits hf s _, rfl⟩

theorem finishOut_divZero (hf : FloatEntry f) (mode : Nat) (ops : List Val) (s : Bool) :
    infiniteResult f s 2 (finishOut f mode ops (.divZero s)) := ⟨infinityOr_bits hf s _, rfl⟩

theorem finishOut_rat (hf : FloatEntry f) {mode p q : Nat} (hmode : mode ≤ 4) (hp : 0 < p) (hq : 0 < q) (ops : List Val)
    (s : Bool) (e : Int) : roundedRoot f mode s 1 (mag p q e) (finishOut f mode ops (.rat s p q e)) :=
  rndRat_rounded hf hmode hp hq s e

/-- A nonzero magnitude p/q 2^e with a sign, rounded, is that number rounded. -/
theorem roundedTo_of_mag {mode p q : Nat} {s : Bool} {e : Int} {x : Rat} {r : FRes} (hp : 0 < p) (hq : 0 < q)
    (hx : x = if s then -mag p q e else mag p q e) (h : roundedRoot f mode s 1 (mag p q e) r) : roundedTo f mode x r := by
  have hpos := mag_pos hp hq e
  have hs : decide (x < 0) = s := by subst hx; cases s <;> simp [hpos, hpos.le]
  have hm : magnitude x = mag p q e := by
    subst hx
    cases s
    · simp [magnitude, hpos.not_gt]
    · simp [magnitude, hpos]
  rw [roundedTo, hs, hm]
  exact h

/-- A result with a real number that is not 0 is that number, rounded. -/
theorem finishOut_real (hf : FloatEntry f) {mode : Nat} (hmode : mode ≤ 4) (ops : List Val) {o : Out} {x : Rat}
    (ho : Out.real o = some x) (hx : x ≠ 0) : roundedTo f mode x (finishOut f mode ops o) := by
  cases o with
  | nanOf | invalid | inf | divZero => cases ho
  | zero s => cases ho; exact absurd rfl hx
  | rat s p q e =>
    have hreal : x = if s then -mag p q e else mag p q e := by
      rw [← Option.some.inj ho]
      cases s <;> simp [mag, neg_div]
    have hp : 0 < p := Nat.pos_of_ne_zero fun h => hx (by rw [hreal]; simp [mag, h])
    have hq : 0 < q := Nat.pos_of_ne_zero fun h => hx (by rw [hreal]; simp [mag, h])
    exact roundedTo_of_mag hp hq hreal (finishOut_rat hf hmode hp hq ops s e)

theorem all_ones_fields (f : Fmt) : 2 ^ (f.e + f.f) - 1 = (2 ^ f.e - 1) * 2 ^ f.f + (2 ^ f.f - 1) := by
  have h1 := Nat.one_le_two_pow (n := f.f)
  have h2 : 2 ^ f.f ≤ 2 ^ f.e * 2 ^ f.f := Nat.le_mul_of_pos_left _ (Nat.two_pow_pos _)
  rw [Nat.pow_add, Nat.sub_mul]
  omega

theorem all_ones_value (hf : FloatEntry f) (h : f.p = 1) (s : Bool) :
    withSign f s (2 ^ (f.e + f.f) - 1) < 2 ^ f.w ∧ exact f (withSign f s (2 ^ (f.e + f.f) - 1)) = .nan s true 0 0 := by
  have htop := top_pos hf
  have hones : 2 ^ f.f - 1 < 2 ^ f.f := Nat.sub_lt (Nat.two_pow_pos _) one_pos
  rw [all_ones_fields, exact_withSign hf s (top_lt f) hones]
  refine ⟨withSign_lt hf s (fields_lt hf (top_lt f) hones), ?_⟩
  rw [valueOf, if_neg (by omega), if_neg (by omega), if_pos ⟨h, rfl, rfl⟩]

/-- The quiet NaN of an IEEE entry with a payload. -/
theorem quiet_value (hf : FloatEntry f) (h : f.p = 0) (s : Bool) {pl : Nat} (hpl : pl < 2 ^ (f.f - 1)) :
    withSign f s ((2 ^ f.e - 1) * 2 ^ f.f + 2 ^ (f.f - 1) + pl) < 2 ^ f.w ∧
      exact f (withSign f s ((2 ^ f.e - 1) * 2 ^ f.f + 2 ^ (f.f - 1) + pl)) = .nan s true pl (f.f - 1) := by
  have htop := top_pos hf
  have hfrac : 2 ^ (f.f - 1) + pl < 2 ^ f.f := by
    have : 2 ^ f.f = 2 ^ (f.f - 1) * 2 := by
      rw [← Nat.pow_succ]
      congr 1
      have := hf.frac_pos
      omega
    omega
  rw [add_assoc, exact_withSign hf s (top_lt f) hfrac]
  refine ⟨withSign_lt hf s (fields_lt hf (top_lt f) hfrac), ?_⟩
  have hpos := Nat.two_pow_pos (f.f - 1)
  rw [valueOf, if_neg (by omega), if_pos ⟨h, rfl⟩, if_neg (by omega), Nat.add_mod_left, Nat.mod_eq_of_lt hpl,
    decide_eq_true (by omega)]

/-- The bits of the default NaN. -/
theorem defaultNan_value (hf : FloatEntry f) : (defaultNan f).1 < 2 ^ f.w ∧ exact f (defaultNan f).1 =
    (if f.p = 2 then .zero false else .nan false true 0 (if f.p = 0 then f.f - 1 else 0)) := by
  have hp := hf.policy
  rcases (by omega : f.p = 0 ∨ f.p = 1 ∨ f.p = 2) with h | h | h
  · simpa [defaultNan, h, withSign] using quiet_value hf h false (Nat.two_pow_pos _)
  · simpa [defaultNan, h, withSign] using all_ones_value hf h false
  · simpa [defaultNan, h, withSign] using And.intro (withSign_lt hf false (Nat.two_pow_pos _)) (exact_signed_zero hf false)

theorem finishOut_invalid (hf : FloatEntry f) (mode : Nat) {ops : List Val} (hops : ∀ v ∈ ops, v.isNan = false) :
    defaulted f 1 (finishOut f mode ops .invalid) := by
  obtain ⟨hlt, hval⟩ := defaultNan_value hf
  refine ⟨⟨hlt, hval, anySnan_of_not_nan hops⟩, ?_⟩
  split <;> rfl

/-- Which NaNs an entry has. -/
theorem exact_nan_cases (hf : FloatEntry f) {x : Nat} {s q : Bool} {pl l : Nat} (h : exact f x = .nan s q pl l) :
    (f.p = 0 ∧ l = f.f - 1 ∧ pl < 2 ^ (f.f - 1)) ∨ (f.p = 1 ∧ pl = 0 ∧ l = 0) := by
  rw [exact_eq_valueOf hf] at h
  unfold valueOf mkNum at h
  split_ifs at h with h0 hd hz h1 hz h2 <;> simp only [Val.nan.injEq] at h
  · obtain ⟨-, -, rfl, rfl⟩ := h
    exact .inl ⟨h1.1, rfl, Nat.mod_lt _ (Nat.two_pow_pos _)⟩
  · obtain ⟨-, -, rfl, rfl⟩ := h
    exact .inr ⟨h2.1, rfl, rfl⟩

/-- A NaN of the entry, quieted into it. -/
theorem convertNan_exact (hf : FloatEntry f) {x : Nat} {s q : Bool} {pl l : Nat} (h : exact f x = .nan s q pl l) :
    (convertNan f s pl l).1 < 2 ^ f.w ∧ exact f (convertNan f s pl l).1 = .nan s true pl l ∧ (convertNan f s pl l).2 = 0 := by
  rcases exact_nan_cases hf h with ⟨hp, rfl, hpl⟩ | ⟨hp, rfl, rfl⟩
  · simpa [convertNan, hp, fxNone] using quiet_value hf hp s hpl
  · simpa [convertNan, hp, fxNone] using all_ones_value hf hp s

/-- NaN operands: the first decides, quieted; invalid when one of them is signalling. -/
theorem finishOut_nan (hf : FloatEntry f) (mode : Nat) {xs : List Val} (extra : BitVec 5) (henc : ∀ v ∈ xs, ∃ x, v = exact f x)
    (hnan : ∃ v ∈ xs, v.isNan = true) : nanPassed f xs extra (finishOut f mode xs (.nanOf xs extra)) := by
  obtain ⟨v, hv⟩ := Option.isSome_iff_exists.1 (List.find?_isSome.2 hnan)
  obtain ⟨x, rfl⟩ := henc v (List.mem_of_find?_eq_some hv)
  have hn : (exact f x).isNan = true := by simpa using List.find?_some hv
  cases hx : exact f x with
  | inf | zero | num => rw [hx] at hn; cases hn
  | nan s q pl l =>
    obtain ⟨hlt, hval, hflag⟩ := convertNan_exact hf hx
    rw [hx] at hv
    have hfin : finishOut f mode xs (.nanOf xs extra) =
        { bits := (convertNan f s pl l).1, flags := extra ||| snanFlag xs, snan := anySnan xs } := by
      simp [finishOut, hv, hflag]
    rw [hfin]
    refine ⟨fun s' q' pl' l' h => ?_, rfl, rfl⟩
    rw [hv, Option.some.injEq, Val.nan.injEq] at h
    obtain ⟨rfl, -, rfl, rfl⟩ := h
    exact ⟨hlt, hval⟩

end Sys2Proof.Proofs.Numbers
end

section
/-! Lemmas of `ExactAndRounded`: the operations of two and three operands, the conversions (R79, R80, R83, R204, R205). -/
namespace Sys2Proof.Proofs.Numbers
open Sys2Proof Sys2Proof.Machine Sys2Proof.Spec

variable {f : Fmt} {mode : Nat}

theorem zeroTimes_sign {x y : Val} {a b : Rat} (hx : Val.real x = some a) (hy : Val.real y = some b) (hxp : Proper x)
    (hyp : Proper y) (h : a * b = 0) : mulVal x y = some (.zero (x.sign != y.sign)) := by
  rcases mul_eq_zero.1 h with rfl | rfl
  · obtain ⟨s, rfl⟩ := zero_of_real hxp hx
    cases y with
    | nan | inf => cases hy
    | zero | num => rfl
  · obtain ⟨s, rfl⟩ := zero_of_real hyp hy
    cases x with
    | nan | inf => cases hx
    | zero | num => rfl

theorem zeroOver_sign {x y : Val} {b : Rat} (hx : Val.real x = some 0) (hy : Val.real y = some b) (hxp : Proper x)
    (hb : b ≠ 0) : divOut x y = .zero (x.sign != y.sign) := by
  obtain ⟨s, rfl⟩ := zero_of_real hxp hx
  obtain ⟨t, n, v, rfl, -⟩ := num_of_real hy hb
  rfl

/-- The sign of an exact zero sum (R79). -/
theorem zeroSum_sign {x y : Val} {a b : Rat} (hx : Val.real x = some a) (hy : Val.real y = some b) (hxp : Proper x)
    (hyp : Proper y) (h : a + b = 0) : addOut mode x y = .zero (if x.sign = y.sign then x.sign else decide (mode = 3)) := by
  have hmode : zeroSumSign mode = decide (mode = 3) := by
    rw [zeroSumSign, rdn]
    rfl
  by_cases ha : a = 0
  · have hb : b = 0 := by linarith
    subst ha hb
    obtain ⟨s, rfl⟩ := zero_of_real hxp hx
    obtain ⟨t, rfl⟩ := zero_of_real hyp hy
    rw [addOut, hmode]
    rfl
  · have hb : b ≠ 0 := by intro hb; exact ha (by linarith)
    obtain ⟨s, m, u, rfl, hm, ha', hs, -⟩ := num_of_real hx ha
    obtain ⟨t, n, v, rfl, hn, hb', ht, -⟩ := num_of_real hy hb
    have hst : s ≠ t := by
      rintro rfl
      have hsame : (a < 0 ↔ b < 0) := by rw [← decide_eq_decide, hs, ht]
      rcases lt_or_gt_of_ne ha with hlt | hlt
      · linarith [hsame.1 hlt]
      · exact absurd (hsame.2 (by linarith)) hlt.not_gt
    have hsum := dyadicAdd_value (signedInt s m) u (signedInt t n) v
    rw [← ha', ← hb', h] at hsum
    have hi : (dyadicAdd (signedInt s m) u (signedInt t n) v).1 = 0 := by
      have := (mul_eq_zero.1 hsum).resolve_right (two_zpow_pos _).ne'
      exact_mod_cast this
    simp only [addOut, outOfInt, if_pos hi, hmode]
    exact congrArg Out.zero (if_neg hst).symm

/-! ## Operations of two operands -/

theorem binaryF_of_not_nan {p q : Nat} (op : Val → Val → Out) (hx : (exact f p).isNan = false)
    (hy : (exact f q).isNan = false) :
    binaryF f mode op p q = finishOut f mode [exact f p, exact f q] (op (exact f p) (exact f q)) := by
  simp [binaryF, hx, hy]

theorem unaryF_of_not_nan {p : Nat} (op : Val → Out) (hx : (exact f p).isNan = false) :
    unaryF f mode op p = finishOut f mode [exact f p] (op (exact f p)) := by
  simp [unaryF, hx]

/-- The product as `fmul` finishes it. -/
def mulOut (x y : Val) : Out :=
  match mulVal x y with
  | some v => v.toOut
  | none => .invalid

theorem fmulBits_eq (f : Fmt) (mode : Nat) : fmulBits f mode = binaryF f mode mulOut := rfl

theorem mulOut_real {x y : Val} {a b : Rat} (hx : Val.real x = some a) (hy : Val.real y = some b) :
    Out.real (mulOut x y) = some (a * b) := by
  obtain ⟨v, hv, hreal⟩ := mulVal_real hx hy
  rw [mulOut, hv]
  cases v with
  | nan | inf => cases hreal
  | zero => exact hreal
  | num => rw [← hreal]; exact rat_one_real _ _ _

/-- Sums, differences, products and quotients of finite operands. -/
theorem arithmetic_rounded (hf : FloatEntry f) (hmode : mode ≤ 4) {p q : Nat} {x y : Rat} (hx : Val.real (exact f p) = some x)
    (hy : Val.real (exact f q) = some y) :
    summed f mode (exact f p) (exact f q) x y (faddBits f mode p q) ∧
      summed f mode (exact f p) (exact f q).neg x (-y) (fsubBits f mode p q) ∧
      (if x * y = 0 then zeroResult f ((exact f p).sign != (exact f q).sign) (fmulBits f mode p q)
        else roundedTo f mode (x * y) (fmulBits f mode p q)) ∧
      (y ≠ 0 → if x = 0 then zeroResult f ((exact f p).sign != (exact f q).sign) (fdivBits f mode p q)
        else roundedTo f mode (x / y) (fdivBits f mode p q)) := by
  have hxp := proper_exact hf p
  have hyp := proper_exact hf q
  have hbin (op : Val → Val → Out) := binaryF_of_not_nan (mode := mode) op (isNan_of_real hx) (isNan_of_real hy)
  refine ⟨?_, ?_, ?_, fun hy0 => ?_⟩
  · rw [faddBits, hbin, summed]
    split
    case isTrue h => rw [zeroSum_sign hx hy hxp hyp h]; exact finishOut_zero hf _ _ _
    case isFalse h => exact finishOut_real hf hmode _ (addOut_real mode hx hy) h
  · rw [fsubBits, hbin, summed]
    split
    case isTrue h => rw [zeroSum_sign hx (real_neg hy) hxp (proper_neg hyp) h]; exact finishOut_zero hf _ _ _
    case isFalse h => exact finishOut_real hf hmode _ (addOut_real mode hx (real_neg hy)) h
  · rw [fmulBits_eq, hbin]
    split
    case isTrue h =>
      rw [mulOut, zeroTimes_sign hx hy hxp hyp h]
      exact finishOut_zero hf _ _ _
    case isFalse h => exact finishOut_real hf hmode _ (mulOut_real hx hy) h
  · rw [fdivBits, hbin]
    split
    case isTrue h =>
      subst h
      rw [zeroOver_sign hx hy hxp hy0]
      exact finishOut_zero hf _ _ _
    case isFalse h => exact finishOut_real hf hmode _ (divOut_real hx hy hy0) (div_ne_zero h hy0)

/-! ## Fused operations (R205) -/

/-- Whether one factor is 0 and the other infinite, as `fmaBits` tests it. -/
def zeroInf (x y : Val) : Bool :=
  match x, y with
  | .inf _, .zero _ => true
  | .zero _, .inf _ => true
  | _, _ => false

/-- The fused sum before it is rounded. -/
def fusedOut (mode : Nat) (negP negQ : Bool) (x y z : Val) : Out :=
  match mulVal x y with
  | none => .invalid
  | some p => addOut mode (if negP then p.neg else p) (if negQ then z.neg else z)

theorem fmaBits_eq (f : Fmt) (mode : Nat) (negP negQ : Bool) (a b d : Nat) :
    fmaBits f mode negP negQ a b d = finishOut f mode [exact f a, exact f b, exact f d]
      (if (exact f a).isNan || (exact f b).isNan || (exact f d).isNan then
        .nanOf [exact f a, exact f b, exact f d] (if zeroInf (exact f a) (exact f b) then fxInvalid else 0)
      else fusedOut mode negP negQ (exact f a) (exact f b) (exact f d)) := rfl

theorem fused_rounded (hf : FloatEntry f) (hmode : mode ≤ 4) {p q c : Nat} {x y z : Rat} (hx : Val.real (exact f p) = some x)
    (hy : Val.real (exact f q) = some y) (hz : Val.real (exact f c) = some z) (negP negQ : Bool)
    (hsum : signedAs negP (x * y) + signedAs negQ z ≠ 0) :
    roundedTo f mode (signedAs negP (x * y) + signedAs negQ z) (fmaBits f mode negP negQ p q c) := by
  obtain ⟨v, hv, hreal⟩ := fusedOut_real mode negP negQ hx hy hz
  rw [fmaBits_eq, isNan_of_real hx, isNan_of_real hy, isNan_of_real hz]
  refine finishOut_real hf hmode _ ?_ hsum
  rw [← show _ = some (signedAs negP (x * y) + signedAs negQ z) from hreal]
  simp [fusedOut, hv]

/-! ## Conversions (R78, R83) -/

/-- The value of an encoding under a source entry, integers among them: its number is not 0 and its exponent is below 4096. -/
theorem convert_source {es : Dword} (h : entryValid es = true) (hv : (fmtOf es).valid = true) (hp : (fmtOf es).p ≤ 3) {x m : Nat}
    {s : Bool} {e : Int} (hx : exact (fmtOf es) x = .num s m e) : m ≠ 0 ∧ e < 4096 := by
  by_cases hp3 : (fmtOf es).p = 3
  · have hlt : x % 2 ^ (fmtOf es).w < 2 ^ (fmtOf es).w := Nat.mod_lt _ (Nat.two_pow_pos _)
    unfold exact mkNum at hx
    simp only [hp3, if_true] at hx
    split_ifs at hx with h1 h2 <;> simp only [Val.num.injEq] at hx
    · obtain ⟨-, rfl, rfl⟩ := hx
      omega
    · obtain ⟨-, rfl, rfl⟩ := hx
      omega
  · have hf := floatEntry_of_valid h hv (by omega)
    obtain ⟨hm, -, -, he, -⟩ := exact_num_cases hf hx
    have hexp : (2 : Int) ^ (fmtOf es).e ≤ 2 ^ 11 := pow_le_pow_right₀ (by omega) hf.exp_le
    have := hf.bias_nonneg
    exact ⟨hm, by omega⟩

theorem convert_rounded {es e : Dword} (hr : roundsIn e mode) {p : Nat} {x : Rat} (hx0 : x ≠ 0) (hx : Val.real (exact (fmtOf es) p) = some x) :
    roundedTo (fmtOf e) mode x (convertBits (fmtOf es) (fmtOf e) false p mode) := by
  obtain ⟨s, m, u, hnum, -⟩ := num_of_real hx hx0
  have hp3 : (fmtOf e).p ≠ 3 := by have := hr.2.2.1; omega
  have hconv : convertBits (fmtOf es) (fmtOf e) false p mode = finishOut (fmtOf e) mode [] (.rat s m 1 u) := by
    simp [convertBits, hnum, hp3, finishOut]
  rw [hconv]
  exact finishOut_real (floatEntry_of_roundsIn hr) hr.2.2.2 _ ((rat_one_real s m u).trans (hnum ▸ hx)) hx0

theorem toInteger_rounded (hmode : mode ≤ 4) {s : Bool} {m : Nat} {e : Int} :
    ∃ k : Nat, nearInt mode s ((m : Rat) * 2 ^ e) k ∧ (toInteger s m 1 e mode).1 = signedInt s k ∧
      ((toInteger s m 1 e mode).2 = false ↔ (k : Rat) = m * 2 ^ e) := by
  have hden := ratShift_den_pos m one_pos e
  have hval := ratShift_value m one_pos e
  rw [mag_one] at hval
  refine ⟨_, hval ▸ roundInt_nearInt hden hmode, rfl, ?_⟩
  rw [← hval, roundInt_eq_iff hden hmode]
  simp [toInteger]

theorem convert_integer {es e : Dword} (h : entryValid es = true) (hv : (fmtOf es).valid = true) (hp : (fmtOf es).p ≤ 3)
    (hp3 : (fmtOf e).p = 3) (hmode : mode ≤ 4) {p : Nat} {x : Rat} (hx0 : x ≠ 0) (hx : Val.real (exact (fmtOf es) p) = some x) :
    integerOf (fmtOf e) mode x (convertBits (fmtOf es) (fmtOf e) false p mode) := by
  obtain ⟨s, m, u, hnum, hm, hxe, hsign, hmag⟩ := num_of_real hx hx0
  obtain ⟨k, hnear, hint, hflag⟩ := @toInteger_rounded mode hmode s m u
  obtain ⟨-, hu⟩ := convert_source h hv hp hnum
  have hneg : x < 0 ↔ s = true := by rw [← hsign, decide_eq_true_iff]
  have hn : (if x < 0 then -(k : Int) else k) = signedInt s k := by simp only [signedInt, hneg]
  have heq : ((signedInt s k : Int) : Rat) = x ↔ (toInteger s m 1 u mode).2 = false := by
    rw [hflag, hxe, signedInt_cast, signedInt_cast, mul_assoc]
    cases s <;> simp
  have hconv : convertBits (fmtOf es) (fmtOf e) false p mode =
      { bits := (irnd (fmtOf e) mode (.num s m u)).1, flags := (irnd (fmtOf e) mode (.num s m u)).2, snan := false } := by
    simp [convertBits, hnum, hp3]
  rw [hconv]
  refine ⟨k, by rw [hsign, hmag]; exact hnear, ?_⟩
  simp only [hn, irnd, if_pos hu, hint]
  show (if signedInt s k < intLo (fmtOf e) then _ else if intHi (fmtOf e) < signedInt s k then _ else _)
  by_cases hlo : signedInt s k < intLo (fmtOf e)
  · simp only [if_pos hlo]
    exact ⟨rfl, rfl⟩
  by_cases hhi : intHi (fmtOf e) < signedInt s k
  · simp only [if_neg hlo, if_pos hhi]
    exact ⟨rfl, rfl⟩
  · simp only [if_neg hlo, if_neg hhi, heq]
    refine ⟨rfl, ?_⟩
    cases (toInteger s m 1 u mode).2 <;> rfl

/-- What is no nonzero number, converted to an integer entry. -/
theorem convert_integerEnd (fs fd : Fmt) (hp3 : fd.p = 3) (p : Nat) :
    integerEnd fd (convertBits fs fd false p mode) (exact fs p) := by
  cases hx : exact fs p with
  | nan s q pl l => cases q <;> simp [integerEnd, convertBits, hx, hp3, Val.isSnan, fxInvalid, fxNone]
  | inf s =>
    simp only [integerEnd, convertBits, hx, hp3, irnd, heldAs]
    simp [fxInvalid, encInt, lowest, highest, intLo, intHi]
  | zero s => simp [integerEnd, convertBits, hx, hp3, fxNone]
  | num => trivial

end Sys2Proof.Proofs.Numbers
end

section
/-! Lemmas of `ExactAndRounded`: NaN and infinite operands, minimum and maximum, class, scale and unpacking
(R80, R202, R204, R207, R210 to R212, R217). -/
namespace Sys2Proof.Proofs.Numbers
open Sys2Proof Sys2Proof.Machine Sys2Proof.Spec

variable {f : Fmt} {mode : Nat}

/-! ## NaN operands (R80) -/

theorem unaryF_nan (hf : FloatEntry f) {op : Val → Out} {p : Nat} (hx : (exact f p).isNan = true) :
    nanPassed f [exact f p] 0 (unaryF f mode op p) := by
  rw [unaryF, if_pos hx]
  exact finishOut_nan hf mode 0 (by simp) (by simpa using hx)

theorem binaryF_nan (hf : FloatEntry f) {op : Val → Val → Out} {p q : Nat}
    (h : (exact f p).isNan = true ∨ (exact f q).isNan = true) :
    nanPassed f [exact f p, exact f q] 0 (binaryF f mode op p q) := by
  rw [binaryF, if_pos (by simpa using h)]
  exact finishOut_nan hf mode 0 (by simp) (by simpa using h)

/-- The four operations that write out the NaN rule themselves. -/
theorem own_nan (hf : FloatEntry f) {p : Nat} (count : Int) (hx : (exact f p).isNan = true) :
    nanPassed f [exact f p] 0 (frcpBits f mode p) ∧ nanPassed f [exact f p] 0 (frsqBits f mode p) ∧
      nanPassed f [exact f p] 0 (frndBits f mode p) ∧ nanPassed f [exact f p] 0 (fscbBits f mode p count) := by
  have hnan := finishOut_nan hf mode 0 (xs := [exact f p]) (by simp) (by simpa using hx)
  cases h : exact f p with
  | inf | zero | num => rw [h] at hx; cases hx
  | nan s q pl l =>
    rw [h] at hnan
    simp only [frcpBits, frsqBits, frndBits, fscbBits, h]
    exact ⟨hnan, hnan, hnan, hnan⟩

theorem zeroInf_iff (x y : Val) :
    zeroInf x y = true ↔ (∃ s t, x = .zero s ∧ y = .inf t) ∨ ∃ s t, x = .inf s ∧ y = .zero t := by
  cases x <;> cases y <;> simp [zeroInf]

theorem nans_pass (hf : FloatEntry f) (p q c : Nat) (count : Int) : nansPass f mode p q c count := by
  refine ⟨fun hx op hop => ?_, fun h op hop => ?_, fun negP negQ => ⟨fun hzi hz => ?_, fun hzi h => ?_⟩⟩
  · obtain ⟨hrcp, hrsq, hrnd, hscb⟩ := own_nan (mode := mode) hf count hx
    simp only [List.mem_cons, List.not_mem_nil, or_false] at hop
    rcases hop with rfl | rfl | rfl | rfl | rfl | rfl | rfl | rfl | rfl | rfl | rfl
    · exact hrcp
    · exact hrsq
    · exact unaryF_nan hf hx
    · exact hrnd
    iterate 6 exact unaryF_nan hf hx
    · exact hscb
  · simp only [List.mem_cons, List.not_mem_nil, or_false] at hop
    rcases hop with rfl | rfl | rfl | rfl
    all_goals exact binaryF_nan hf h
  · rw [fmaBits_eq, hz, Bool.or_true, if_pos rfl, (zeroInf_iff _ _).2 hzi, if_pos rfl]
    exact finishOut_nan hf mode _ (by simp) (by simp [hz])
  · rw [fmaBits_eq, if_pos (by simpa [or_assoc] using h), if_neg (mt (zeroInf_iff _ _).1 hzi)]
    exact finishOut_nan hf mode _ (by simp) (by simpa using h)

/-! ## Infinite operands (R79, R202, R204) -/

theorem addOut_inf_left {x : Val} {a : Rat} (s : Bool) (hx : Val.real x = some a) : addOut mode (.inf s) x = .inf s := by
  cases x with
  | nan | inf => cases hx
  | zero | num => rfl

theorem addOut_inf_right {x : Val} {a : Rat} (s : Bool) (hx : Val.real x = some a) : addOut mode x (.inf s) = .inf s := by
  cases x with
  | nan | inf => cases hx
  | zero | num => rfl

theorem mulOut_inf_left {x : Val} {a : Rat} (s : Bool) (hx : Val.real x = some a) (hp : Proper x) :
    mulOut (.inf s) x = if a = 0 then .invalid else .inf (s != x.sign) := by
  split
  case isTrue h =>
    subst h
    obtain ⟨t, rfl⟩ := zero_of_real hp hx
    rfl
  case isFalse h =>
    obtain ⟨t, m, e, rfl, -⟩ := num_of_real hx h
    rfl

theorem mulOut_inf_right {x : Val} {a : Rat} (s : Bool) (hx : Val.real x = some a) (hp : Proper x) :
    mulOut x (.inf s) = if a = 0 then .invalid else .inf (x.sign != s) := by
  split
  case isTrue h =>
    subst h
    obtain ⟨t, rfl⟩ := zero_of_real hp hx
    rfl
  case isFalse h =>
    obtain ⟨t, m, e, rfl, -⟩ := num_of_real hx h
    rfl

theorem divOut_inf_left {x : Val} {a : Rat} (s : Bool) (hx : Val.real x = some a) : divOut (.inf s) x = .inf (s != x.sign) := by
  cases x with
  | nan | inf => cases hx
  | zero | num => rfl

theorem divOut_inf_right {x : Val} {a : Rat} (s : Bool) (hx : Val.real x = some a) : divOut x (.inf s) = .zero (x.sign != s) := by
  cases x with
  | nan | inf => cases hx
  | zero | num => rfl

theorem divOut_zero_right {x : Val} {a : Rat} (s : Bool) (hx : Val.real x = some a) (hp : Proper x) :
    divOut x (.zero s) = if a = 0 then .invalid else .divZero (x.sign != s) := by
  split
  case isTrue h =>
    subst h
    obtain ⟨t, rfl⟩ := zero_of_real hp hx
    rfl
  case isFalse h =>
    obtain ⟨t, m, e, rfl, -⟩ := num_of_real hx h
    rfl

theorem infinities_pass (hf : FloatEntry f) (p q : Nat) : infinitiesPass f mode p q := by
  have hxp := proper_exact hf p
  have hyp := proper_exact hf q
  have hbin (op : Val → Val → Out) (hx : (exact f p).isNan = false) (hy : (exact f q).isNan = false) :=
    binaryF_of_not_nan (mode := mode) op hx hy
  have hinf (s : Bool) : (Val.inf s).isNan = false := rfl
  have hops {x y : Val} (hx : x.isNan = false) (hy : y.isNan = false) : ∀ v ∈ [x, y], v.isNan = false := by simp [hx, hy]
  refine ⟨fun s hx t hy => ?_, fun s b hx hy => ?_, fun a t hx hy => ?_, fun a t hx hy => ?_⟩
  · have hbin' (op : Val → Val → Out) := hbin op (hx ▸ hinf s) (hy ▸ hinf t)
    have hinv := finishOut_invalid hf mode (hops (hinf s) (hinf t))
    simp only [faddBits, fsubBits, fmulBits_eq, fdivBits, hbin', hx, hy]
    refine ⟨?_, finishOut_inf hf _ _ _, hinv⟩
    split
    case isTrue h =>
      subst h
      refine ⟨?_, ?_⟩
      · simpa [addOut] using finishOut_inf hf mode [.inf s, .inf s] s
      · simpa [addOut, Val.neg] using hinv
    case isFalse h =>
      have hst : s = !t := by cases s <;> cases t <;> simp_all
      refine ⟨?_, ?_⟩
      · simpa [addOut, h] using hinv
      · simpa [addOut, Val.neg, hst] using finishOut_inf hf mode [.inf s, .inf t] s
  · have hbin' (op : Val → Val → Out) := hbin op (hx ▸ hinf s) (isNan_of_real hy)
    simp only [faddBits, fsubBits, fmulBits_eq, fdivBits, hbin', hx, addOut_inf_left s hy, addOut_inf_left s (real_neg hy),
      divOut_inf_left s hy, mulOut_inf_left s hy hyp]
    refine ⟨finishOut_inf hf _ _ _, finishOut_inf hf _ _ _, finishOut_inf hf _ _ _, ?_⟩
    split
    · exact finishOut_invalid hf mode (hops (hinf s) (isNan_of_real hy))
    · exact finishOut_inf hf _ _ _
  · have hbin' (op : Val → Val → Out) := hbin op (isNan_of_real hx) (hy ▸ hinf t)
    simp only [faddBits, fsubBits, fmulBits_eq, fdivBits, hbin', hy, addOut_inf_right t hx, Val.neg, addOut_inf_right (!t) hx,
      divOut_inf_right t hx, mulOut_inf_right t hx hxp]
    refine ⟨finishOut_inf hf _ _ _, finishOut_inf hf _ _ _, finishOut_zero hf _ _ _, ?_⟩
    split
    · exact finishOut_invalid hf mode (hops (isNan_of_real hx) (hinf t))
    · exact finishOut_inf hf _ _ _
  · have hzero : (exact f q).isNan = false := by rw [hy]; rfl
    rw [fdivBits, hbin _ (isNan_of_real hx) hzero, hy, divOut_zero_right t hx hxp]
    split
    · exact finishOut_invalid hf mode (hops (isNan_of_real hx) rfl)
    · exact finishOut_divZero hf _ _ _

/-! ## Minimum and maximum (R207) -/

/-- The model's order is that of the values, with −0 below +0 where it is asked for. -/
theorem valLt_iff {x y : Val} (hx : x.isNan = false) (hy : y.isNan = false) (hxp : Proper x) (hyp : Proper y) :
    valLt true x y = true ↔ Val.below x y ∨ (x = .zero true ∧ y = .zero false) := by
  have hpos {s : Bool} {m : Nat} {e : Int} (h : Proper (.num s m e)) : (0 : Rat) < m * 2 ^ e :=
    mul_pos (by exact_mod_cast Nat.pos_of_ne_zero (h s m e rfl)) (two_zpow_pos e)
  cases x with
  | nan => cases hx
  | inf s => cases y <;> simp [valLt, Val.below]
  | zero s => cases y with
    | nan => cases hy
    | inf t => simp [valLt, Val.below]
    | zero t => simp [valLt, Val.below, Val.real]
    | num t n v =>
      have hB := hpos hyp
      cases t <;> simp [valLt, Val.below, Val.real, hB, hB.le]
  | num s m u => cases y with
    | nan => cases hy
    | inf t => simp [valLt, Val.below]
    | zero t =>
      have hA := hpos hxp
      cases s <;> simp [valLt, Val.below, Val.real, hA, hA.le]
    | num t n v =>
      have hA := hpos hxp
      have hB := hpos hyp
      cases s <;> cases t <;> simp [valLt, Val.below, Val.real, magLt_iff] <;> linarith

theorem below_asymm {x y : Val} (h : Val.below x y) : ¬Val.below y x := by
  cases x with
  | inf s => cases y with
    | inf t => exact fun h' => absurd (h.1.symm.trans h'.2) (by decide)
    | nan | zero | num => exact fun h' => absurd (h.symm.trans h') (by decide)
  | nan | zero | num => cases y with
    | inf t => exact fun h' => absurd (h.symm.trans h') (by decide)
    | nan | zero | num => exact lt_asymm h

theorem zeros_not_below (s t : Bool) : ¬Val.below (.zero s) (.zero t) := lt_irrefl (0 : Rat)

theorem lower_asymm {x y : Val} (h : Val.below x y ∨ (x = .zero true ∧ y = .zero false)) :
    ¬(Val.below y x ∨ (y = .zero true ∧ x = .zero false)) := by
  rcases h with h | ⟨rfl, rfl⟩
  · rintro (h' | ⟨rfl, rfl⟩)
    · exact below_asymm h h'
    · exact zeros_not_below _ _ h
  · rintro (h' | ⟨h', -⟩)
    · exact zeros_not_below _ _ h'
    · cases h'

/-- A picked operand. -/
def picked (f : Fmt) (p q v : Nat) : FRes :=
  { bits := v % 2 ^ f.w, flags := snanFlag [exact f p, exact f q], snan := anySnan [exact f p, exact f q] }

theorem fminmaxBits_nan {greater number : Bool} {p q : Nat}
    (h : if number = true then (exact f p).isNan = true ∧ (exact f q).isNan = true
      else (exact f p).isNan = true ∨ (exact f q).isNan = true) :
    fminmaxBits f greater number p q = finishOut f 0 [exact f p, exact f q] (.nanOf [exact f p, exact f q] 0) := by
  unfold fminmaxBits
  dsimp only
  cases number with
  | true =>
    obtain ⟨hx, hy⟩ := h
    simp [hx, hy]
  | false => rw [if_neg (by simp), if_pos (by simpa using h)]

theorem fminmaxBits_left_nan {p q : Nat} (greater : Bool) (hx : (exact f p).isNan = true) (hy : (exact f q).isNan = false) :
    fminmaxBits f greater true p q = picked f p q q := by
  simp [fminmaxBits, picked, hx, hy]

theorem fminmaxBits_right_nan {p q : Nat} (greater : Bool) (hx : (exact f p).isNan = false) (hy : (exact f q).isNan = true) :
    fminmaxBits f greater true p q = picked f p q p := by
  simp [fminmaxBits, picked, hx, hy]

theorem fminmaxBits_ordered {p q : Nat} (greater number : Bool) (hx : (exact f p).isNan = false) (hy : (exact f q).isNan = false) :
    fminmaxBits f greater number p q =
      picked f p q (if valLt true (if greater then exact f p else exact f q) (if greater then exact f q else exact f p) then q
        else p) := by
  cases greater <;> cases number <;> simp only [fminmaxBits, picked, hx, hy] <;> simp <;> split <;> rfl

/-- Whatever is taken, a signalling operand is marked and raises invalid. -/
theorem fminmaxBits_flags (hf : FloatEntry f) (greater number : Bool) (p q : Nat) :
    (fminmaxBits f greater number p q).flags = (if (exact f p).isSnan || (exact f q).isSnan then 1 else 0) ∧
      (fminmaxBits f greater number p q).snan = ((exact f p).isSnan || (exact f q).isSnan) := by
  have hpicked (v : Nat) : (picked f p q v).flags = (if (exact f p).isSnan || (exact f q).isSnan then 1 else 0) ∧
      (picked f p q v).snan = ((exact f p).isSnan || (exact f q).isSnan) := by
    simp [picked, snanFlag, anySnan, fxInvalid, fxNone]
  have hnan (h : (exact f p).isNan = true ∨ (exact f q).isNan = true) := finishOut_nan hf 0 0
    (xs := [exact f p, exact f q]) (by simp) (by simpa using h)
  cases hx : (exact f p).isNan <;> cases hy : (exact f q).isNan
  case false.false =>
    rw [fminmaxBits_ordered greater number hx hy]
    exact hpicked _
  case true.true =>
    rw [fminmaxBits_nan (by cases number <;> simp [hx, hy])]
    simpa using (hnan (.inl hx)).2
  case false.true =>
    cases number
    · rw [fminmaxBits_nan (by simp [hy])]
      simpa using (hnan (.inr hy)).2
    · rw [fminmaxBits_right_nan greater hx hy]
      exact hpicked _
  case true.false =>
    cases number
    · rw [fminmaxBits_nan (by simp [hx])]
      simpa using (hnan (.inl hx)).2
    · rw [fminmaxBits_left_nan greater hx hy]
      exact hpicked _

theorem picked_right (hf : FloatEntry f) (greater number : Bool) (p q : Nat) : pickedRight f greater number p q := by
  refine ⟨fun h => ?_, fun hn hx hy => ?_, fun hn hx hy => ?_, fun hx hy => ?_, fminmaxBits_flags hf greater number p q⟩
  · have hone : (exact f p).isNan = true ∨ (exact f q).isNan = true := by
      cases number
      · exact h
      · exact .inl h.1
    rw [fminmaxBits_nan h]
    exact finishOut_nan hf 0 0 (by simp) (by simpa using hone)
  · subst hn
    rw [fminmaxBits_left_nan greater hx hy]
    rfl
  · subst hn
    rw [fminmaxBits_right_nan greater hx hy]
    rfl
  · have hlt := valLt_iff hx hy (proper_exact hf p) (proper_exact hf q)
    have hgt := valLt_iff hy hx (proper_exact hf q) (proper_exact hf p)
    have hasymm := @lower_asymm (exact f p) (exact f q)
    rw [← hlt, ← hgt] at hasymm
    dsimp only
    rw [fminmaxBits_ordered greater number hx hy, ← hlt, ← hgt]
    cases greater <;> cases h1 : valLt true (exact f p) (exact f q) <;> cases h2 : valLt true (exact f q) (exact f p) <;>
      simp_all [picked]

/-! ## Class (R210) -/

theorem classed_right (hf : FloatEntry f) (p : Nat) : classedRight f p := by
  unfold classedRight fclassBits
  cases hx : exact f p with
  | nan s q pl l => cases q <;> rfl
  | inf s => cases s <;> rfl
  | zero s => cases s <;> rfl
  | num s m e =>
    intro x hreal
    have hm := exact_num_ne_zero hf hx
    obtain ⟨hlow, hhigh⟩ := mag_bracket hm e
    have hxe := Option.some.inj (hreal.symm.trans (real_num s m e))
    have htiny : magnitude x < (2 : Rat) ^ (1 - f.bias) ↔ (m.log2 : Int) + e < f.emin := by
      rw [hxe, magnitude_signedInt, lt_two_zpow_iff hlow hhigh, Fmt.emin]
    have hneg : x < 0 ↔ s = true := by rw [hxe, signedInt_mul_neg_iff hm]
    cases s <;> simp [htiny, hneg]

/-! ## Unpacking (R84, R217) -/

theorem unpacked_right (hf : FloatEntry f) (hmode : mode ≤ 4) (elem code : Nat) : unpackedRight f mode elem code := by
  have hzero (s : Bool) : Val.toOut (.zero s) = .zero s := rfl
  refine ⟨fun h => ?_, fun h h0 => ?_, fun h h0 hm => ?_⟩
  · subst h
    obtain ⟨hlt, hval⟩ := defaultNan_value hf
    refine ⟨⟨hlt, hval, rfl⟩, ?_⟩
    have hp := hf.policy
    rcases (by omega : f.p = 0 ∨ f.p = 1 ∨ f.p = 2) with hp | hp | hp <;>
      simp [bfupBits, blockExact, defaultNan, hp, fxInvalid, fxNone]
  · have hblock : blockExact elem code = .zero (decide (elem / 128 % 2 = 1)) := by
      rcases h0 with h0 | h0
      · simp [blockExact, h0]
      · simp [blockExact, h, h0, mkNum]
    rw [bfupBits, hblock]
    exact finishOut_zero hf _ _ _
  · have hblock : blockExact elem code = .num (decide (elem / 128 % 2 = 1)) (elem % 64) ((code : Int) - 127 - 6) := by
      simp [blockExact, h, h0, mkNum, hm]
    have hexp : (code : Int) - 127 - 6 = code - 133 := by omega
    rw [bfupBits, hblock, hexp]
    have hm' : ((elem % 64 : Nat) : Rat) * 2 ^ ((code : Int) - 133) ≠ 0 :=
      mul_ne_zero (by exact_mod_cast hm) (two_zpow_pos _).ne'
    refine finishOut_real hf hmode _ ?_ ?_
    · rw [Val.toOut, rat_one_real, Val.real, signedAs]
      split <;> simp
    · unfold signedAs
      split
      · exact neg_ne_zero.2 hm'
      · exact hm'

end Sys2Proof.Proofs.Numbers
end

section
/-! Lemmas of `ExactAndRounded`: integral rounding, scale and exponent (R211, R212). -/
namespace Sys2Proof.Proofs.Numbers
open Sys2Proof Sys2Proof.Machine Sys2Proof.Spec

variable {f : Fmt} {mode : Nat}

theorem ratLog2_one {m : Nat} (hm : m ≠ 0) : ratLog2 m 1 = m.log2 := by
  obtain ⟨hlow, hhigh⟩ := ratLog2_bracket (Nat.pos_of_ne_zero hm) one_pos
  rw [Nat.cast_one, div_one] at hlow hhigh
  exact bracket_unique hlow hhigh (two_pow_log2_le hm) (lt_two_pow_log2 m)

/-! ## Scale (R212) -/

/-- The exponent of a number of the entry. -/
theorem exact_num_log (hf : FloatEntry f) {x m : Nat} {s : Bool} {e : Int} (h : exact f x = .num s m e) :
    -2100 ≤ (m.log2 : Int) + e ∧ (m.log2 : Int) + e < 2100 := by
  obtain ⟨hm, hlt, hlow, hhigh, -⟩ := exact_num_cases hf h
  have hlog : m.log2 < f.f + 1 := (Nat.log2_lt hm).2 hlt
  have := two_pow_exp_le hf
  have := hf.bias_nonneg
  have := hf.bias_lt
  have := hf.frac_le
  omega

/-- The count of `fscb`, cut to a range beyond every entry's. -/
def cutCount (n : Int) : Int := if n < -10000 then -10000 else if 10000 < n then 10000 else n

theorem rndRat_cutCount (hf : FloatEntry f) (hmode : mode ≤ 4) {x m : Nat} {s : Bool} {e : Int} (h : exact f x = .num s m e)
    (n : Int) : rndRat f s m 1 (e + cutCount n) mode = rndRat f s m 1 (e + n) mode := by
  have hm := exact_num_ne_zero hf h
  have hpos := Nat.pos_of_ne_zero hm
  obtain ⟨hlow, hhigh⟩ := exact_num_log hf h
  have hlog := ratLog2_one hm
  unfold cutCount
  split
  case isTrue hn => rw [rndRat_tiny hf hmode hpos one_pos s (by omega), rndRat_tiny hf hmode hpos one_pos s (by omega)]
  case isFalse hn =>
    split
    case isTrue hn' => rw [rndRat_huge hf hmode hpos one_pos s (by omega), rndRat_huge hf hmode hpos one_pos s (by omega)]
    case isFalse => rfl

theorem fscbBits_num (hf : FloatEntry f) (hmode : mode ≤ 4) {p m : Nat} {s : Bool} {e : Int} (h : exact f p = .num s m e)
    (count : Int) : fscbBits f mode p count = finishOut f mode [] (.rat s m 1 (e + count)) := by
  simp only [fscbBits, h, finishOut, ← rndRat_cutCount hf hmode h count]
  rfl

theorem fscb_rounded (hf : FloatEntry f) (hmode : mode ≤ 4) {p : Nat} {x : Rat} (hx : Val.real (exact f p) = some x)
    (hx0 : x ≠ 0) (count : Int) : roundedTo f mode (x * 2 ^ count) (fscbBits f mode p count) := by
  obtain ⟨s, m, e, hnum, hm, hxe, -⟩ := num_of_real hx hx0
  rw [fscbBits_num hf hmode hnum]
  refine finishOut_real hf hmode _ ?_ (mul_ne_zero hx0 (two_zpow_pos _).ne')
  rw [rat_one_real, real_num, two_zpow_add, hxe, mul_assoc]

/-! ## Exponent (R212) -/

theorem flgb_exponent (hf : FloatEntry f) (hmode : mode ≤ 4) {p : Nat} {x : Rat} (hx : Val.real (exact f p) = some x)
    (hx0 : x ≠ 0) {k : Int} (hlow : (2 : Rat) ^ k ≤ magnitude x) (hhigh : magnitude x < 2 ^ (k + 1)) :
    if k = 0 then zeroResult f false (flgbBits f mode p) else roundedTo f mode k (flgbBits f mode p) := by
  obtain ⟨s, m, e, hnum, hm, -, -, hmag⟩ := num_of_real hx hx0
  obtain ⟨hlow', hhigh'⟩ := mag_bracket hm e
  rw [hmag] at hlow hhigh
  have hk : (m.log2 : Int) + e = k := bracket_unique hlow' hhigh' hlow hhigh
  rw [flgbBits, unaryF_of_not_nan _ (isNan_of_real hx), hnum]
  simp only [hk]
  split
  case isTrue h =>
    rw [outOfInt, if_pos h]
    exact finishOut_zero hf _ _ _
  case isFalse h =>
    exact finishOut_real hf hmode _ (by rw [outOfInt_real, zpow_zero, mul_one]) (by exact_mod_cast h)

/-! ## Integral rounding (R211) -/

/-- A rounded number of an entry is a number that it holds, but for its size. -/
theorem rounded_fits (hf : FloatEntry f) (hmode : mode ≤ 4) {p m : Nat} {s : Bool} {e : Int} (h : exact f p = .num s m e) :
    let r := roundInt (ratShift m 1 e).1 (ratShift m 1 e).2 mode s
    2 ^ (r.log2 - f.f) ∣ r ∧ (r ≠ 0 → (r.log2 : Int) + 0 < 1 - f.bias → f.d = true ∧ 1 - f.bias - f.f ≤ 0) := by
  intro r
  obtain ⟨hm, hlt, hexp, -, hnormal⟩ := exact_num_cases hf h
  have hbias := hf.bias_nonneg
  have hfrac := hf.frac_pos
  have hden := ratShift_den_pos m one_pos e
  have hval := ratShift_value m one_pos e
  have hnear : nearInt mode s (m * 2 ^ e) r := by
    rw [← mag_one, ← hval]
    exact roundInt_nearInt hden hmode
  constructor
  · by_cases he : 0 ≤ e
    · have hr : r = m * 2 ^ e.toNat := by
        have hsc : ratShift m 1 e = (m * 2 ^ e.toNat, 1) := by rw [ratShift, if_pos he]
        have hiff := roundInt_eq_iff (num := (ratShift m 1 e).1) (s := s) hden hmode
        have := hiff.2 (by rw [hsc, Nat.mod_one])
        rw [hsc, Nat.cast_one, div_one] at this
        have hr' : (r : Rat) = (m * 2 ^ e.toNat : Nat) := by simpa [r, hsc] using this
        exact_mod_cast hr'
      have hrlt : r < 2 ^ (f.f + 1 + e.toNat) := by
        rw [hr, Nat.pow_add]
        exact Nat.mul_lt_mul_of_pos_right hlt (Nat.two_pow_pos _)
      have hr0 : r ≠ 0 := by
        rw [hr]
        exact Nat.mul_ne_zero hm (Nat.two_pow_pos _).ne'
      have hlog := (Nat.log2_lt hr0).2 hrlt
      rw [hr] at hlog ⊢
      exact (pow_dvd_pow 2 (by omega)).trans (dvd_mul_left _ _)
    · refine dvd_of_le_two_pow (nearInt_le hnear ?_)
      calc (m : Rat) * 2 ^ e ≤ m * 2 ^ (0 : Int) := mul_le_mul_of_nonneg_left (two_zpow_le.2 (by omega)) (by positivity)
        _ < 2 ^ (f.f + 1) := by
          rw [zpow_zero, mul_one]
          exact_mod_cast hlt
  · intro hr0 hlog
    refine ⟨?_, by omega⟩
    by_contra hd
    have hm' := hnormal (by simpa using hd)
    have htwo : ((2 : Nat) : Rat) ≤ m * 2 ^ e := by
      calc ((2 : Nat) : Rat) = (2 ^ f.f : Nat) * 2 ^ (1 - f.f : Int) := by
            rw [Nat.cast_pow, ← zpow_natCast, Nat.cast_ofNat, ← two_zpow_add, add_sub_cancel, zpow_one]
        _ ≤ m * 2 ^ e := mul_le_mul (by exact_mod_cast hm') (two_zpow_le.2 (by omega)) (two_zpow_pos _).le (by positivity)
    have hone := (Nat.le_log2 hr0).2 (le_nearInt hnear htwo : 2 ^ 1 ≤ r)
    omega

theorem frnd_right (hf : FloatEntry f) (hmode : mode ≤ 4) {p : Nat} {x : Rat} (hx : Val.real (exact f p) = some x)
    (hx0 : x ≠ 0) : ∃ m : Nat, nearInt mode (decide (x < 0)) (magnitude x) m ∧ (frndBits f mode p).flags = 0 ∧
      ((m : Rat) ≤ largest f → encodesReal f (frndBits f mode p) (decide (x < 0)) m) := by
  obtain ⟨s, m, e, hnum, hm, -, hs, hmag⟩ := num_of_real hx hx0
  obtain ⟨hdvd, hsub⟩ := rounded_fits hf hmode hnum
  have hnear := roundInt_nearInt (num := (ratShift m 1 e).1) (s := s) (ratShift_den_pos m one_pos e) hmode
  rw [ratShift_value m one_pos e, mag_one] at hnear
  rw [hs, hmag]
  refine ⟨_, hnear, by simp only [frndBits, hnum]; rfl, fun hle => ?_⟩
  simp only [frndBits, hnum]
  generalize roundInt (ratShift m 1 e).1 (ratShift m 1 e).2 mode s = r at *
  have hin : ¬magLt (maxFin f).1 (maxFin f).2 r 0 = true := by
    rw [magLt_iff, maxFin_value hf, zpow_zero, mul_one, not_lt]
    exact hle
  have henc := encodesReal_encodeMag (x := 0) hf s fxNone hsub hdvd (by simpa using hle)
  rw [zpow_zero, mul_one] at henc
  simpa only [if_neg hin] using henc

theorem passed_zero {p : Nat} {s : Bool} (h : exact f p = .zero s) :
    zeroResult f s { bits := p % 2 ^ f.w, flags := fxNone, snan := false } :=
  ⟨⟨Nat.mod_lt _ (Nat.two_pow_pos _), by rw [exact_mod, h], rfl⟩, rfl⟩

theorem exact_inf_policy (hf : FloatEntry f) {x : Nat} {s : Bool} (h : exact f x = .inf s) : f.p = 0 := by
  rw [exact_eq_valueOf hf] at h
  unfold valueOf mkNum at h
  split_ifs at h with _ _ _ h1
  exact h1.1

theorem passed_inf (hf : FloatEntry f) {p : Nat} {s : Bool} (h : exact f p = .inf s) :
    infiniteResult f s 0 { bits := p % 2 ^ f.w, flags := fxNone, snan := false } := by
  refine ⟨?_, rfl⟩
  rw [infinityOr, if_pos (exact_inf_policy hf h)]
  exact ⟨Nat.mod_lt _ (Nat.two_pow_pos _), by rw [exact_mod, h], rfl⟩

theorem scaled_right (hf : FloatEntry f) (hmode : mode ≤ 4) (p : Nat) (count : Int) : scaledRight f mode p count := by
  refine ⟨fun s h => ?_, fun s h => ?_, fun x hx hx0 => ⟨frnd_right hf hmode hx hx0, fscb_rounded hf hmode hx hx0 count,
    fun k hlow hhigh => flgb_exponent hf hmode hx hx0 hlow hhigh⟩⟩
  · simp only [frndBits, fscbBits, flgbBits, unaryF, h]
    exact ⟨passed_zero h, passed_zero h, finishOut_divZero hf _ _ _⟩
  · simp only [frndBits, fscbBits, flgbBits, unaryF, h]
    exact ⟨passed_inf hf h, passed_inf hf h, finishOut_inf hf _ _ _⟩

end Sys2Proof.Proofs.Numbers
end

section
/-! Lemmas of `ExactAndRounded`: roots and reciprocals (R206). A root is rounded from a fraction that lies on the same side of
every number of few bits as the root itself. -/
namespace Sys2Proof.Proofs.Numbers
open Sys2Proof Sys2Proof.Machine Sys2Proof.Spec

variable {f : Fmt} {mode : Nat}

/-! ## The integer square root -/

/-- A step of Newton's iteration from above the root stays above it and at least halves the distance. -/
theorem newton_step {n x : Nat} (hx : Nat.sqrt n < x) :
    (x + n / x) / 2 < x ∧ Nat.sqrt n ≤ (x + n / x) / 2 ∧ (x + n / x) / 2 - Nat.sqrt n ≤ (x - Nat.sqrt n) / 2 := by
  have hlow := Nat.sqrt_le n
  have hhigh := Nat.lt_succ_sqrt n
  rw [Nat.succ_eq_add_one] at hhigh
  generalize Nat.sqrt n = r at *
  have hpos : 0 < x := by omega
  have hle : n / x ≤ r := by
    have : n / x < r + 1 := (Nat.div_lt_iff_lt_mul hpos).2 (hhigh.trans_le (Nat.mul_le_mul_left _ hx))
    omega
  have hge : 2 * r - x ≤ n / x := by
    rw [Nat.le_div_iff_mul_le hpos]
    refine le_trans ?_ hlow
    rcases le_total (2 * r) x with h | h
    · simp [Nat.sub_eq_zero_of_le h]
    · obtain ⟨d, hd⟩ := Nat.exists_eq_add_of_le h
      obtain ⟨c, rfl⟩ := Nat.exists_eq_add_of_le hx.le
      rw [hd, Nat.add_sub_cancel_left]
      obtain rfl : r = c + d := by omega
      nlinarith
  omega

theorem sqrtIter_eq (fuel : Nat) : ∀ {n x : Nat}, Nat.sqrt n ≤ x → x - Nat.sqrt n < 2 ^ fuel →
    sqrtIter fuel n x = Nat.sqrt n := by
  induction fuel with
  | zero =>
    intro n x hle hlt
    rw [sqrtIter]
    omega
  | succ fuel ih =>
    intro n x hle hlt
    rw [Nat.pow_succ] at hlt
    rw [sqrtIter]
    rcases hle.eq_or_lt with rfl | hx
    · refine (if_neg ?_).trans rfl
      rcases Nat.eq_zero_or_pos (Nat.sqrt n) with h0 | h0
      · rw [h0]
        omega
      · have : Nat.sqrt n ≤ n / Nat.sqrt n := (Nat.le_div_iff_mul_le h0).2 (Nat.sqrt_le n)
        omega
    · obtain ⟨hdown, habove, hhalf⟩ := newton_step hx
      rw [if_pos hdown]
      exact ih habove (by omega)

theorem isqrt_eq (n : Nat) : isqrt n = Nat.sqrt n := by
  unfold isqrt
  split
  case isTrue h => rw [h, Nat.sqrt_zero]
  case isFalse h =>
    have hstart : Nat.sqrt n < 2 ^ (n.log2 / 2 + 1) := by
      rw [Nat.sqrt_lt, ← Nat.pow_add]
      exact Nat.lt_log2_self.trans_le (Nat.pow_le_pow_right (by omega) (by omega))
    refine sqrtIter_eq _ hstart.le (lt_of_le_of_lt (Nat.sub_le _ _) (Nat.pow_lt_pow_right (by omega) (by omega)))

/-! ## Values on the same side of numbers of few bits -/

/-- v compares with every number of at most 60 bits as the root of y does. -/
def SameRoot (v y : Rat) : Prop := ∀ (a : Nat) (x : Int), a ≤ 2 ^ 60 →
  ((a : Rat) * 2 ^ x < v ↔ ((a : Rat) * 2 ^ x) ^ 2 < y) ∧ (v < (a : Rat) * 2 ^ x ↔ y < ((a : Rat) * 2 ^ x) ^ 2)

section sameRoot
variable {v y : Rat} (h : SameRoot v y)
include h

theorem SameRoot.le_iff {a : Nat} (ha : a ≤ 2 ^ 60) (x : Int) : (a : Rat) * 2 ^ x ≤ v ↔ ((a : Rat) * 2 ^ x) ^ 2 ≤ y := by
  rw [← not_lt, (h a x ha).2, not_lt]

theorem SameRoot.eq_iff {a : Nat} (ha : a ≤ 2 ^ 60) (x : Int) : (a : Rat) * 2 ^ x = v ↔ ((a : Rat) * 2 ^ x) ^ 2 = y := by
  have hge : v ≤ (a : Rat) * 2 ^ x ↔ y ≤ ((a : Rat) * 2 ^ x) ^ 2 := by rw [← not_lt, (h a x ha).1, not_lt]
  rw [le_antisymm_iff, h.le_iff ha, hge, ← le_antisymm_iff]

theorem SameRoot.two_zpow_le (k : Int) : (2 : Rat) ^ k ≤ v ↔ ((2 : Rat) ^ k) ^ 2 ≤ y := by
  simpa using h.le_iff (a := 1) (by norm_num) k

theorem SameRoot.lt_two_zpow (k : Int) : v < (2 : Rat) ^ k ↔ y < ((2 : Rat) ^ k) ^ 2 := by
  simpa using (h 1 k (by norm_num)).2

theorem SameRoot.scale (u : Int) : SameRoot (v / 2 ^ u) (y / (2 ^ u) ^ 2) := by
  intro a x ha
  have hu := two_zpow_pos u
  obtain ⟨hlt, hgt⟩ := h a (x + u) ha
  rw [two_zpow_add, ← mul_assoc] at hlt hgt
  rw [lt_div_iff₀ hu, div_lt_iff₀ hu, lt_div_iff₀ (by positivity), div_lt_iff₀ (by positivity), ← mul_pow]
  exact ⟨hlt, hgt⟩

theorem SameRoot.int {a : Nat} (ha : a ≤ 2 ^ 60) : ((a : Rat) < v ↔ (a : Rat) ^ 2 < y) ∧ (v < a ↔ y < (a : Rat) ^ 2) := by
  simpa using h a 0 ha

theorem SameRoot.half {a : Nat} (ha : a ≤ 2 ^ 60) :
    ((a : Rat) < 2 * v ↔ (a : Rat) ^ 2 < 2 ^ 2 * y) ∧ (2 * v < a ↔ 2 ^ 2 * y < (a : Rat) ^ 2) := by
  obtain ⟨hlt, hgt⟩ := h a (-1) ha
  rw [zpow_neg_one] at hlt hgt
  constructor
  · calc (a : Rat) < 2 * v ↔ (a : Rat) * 2⁻¹ < v := by constructor <;> intro _ <;> linarith
      _ ↔ _ := hlt
      _ ↔ _ := by constructor <;> intro _ <;> linarith
  · calc 2 * v < a ↔ v < (a : Rat) * 2⁻¹ := by constructor <;> intro _ <;> linarith
      _ ↔ _ := hgt
      _ ↔ _ := by constructor <;> intro _ <;> linarith

/-- The integer nearest to v is the one nearest to the root of y. -/
theorem SameRoot.nearRoot_two {neg : Bool} {m : Nat} (hm : m ≤ 2 ^ 53) (hnear : nearInt mode neg v m) : nearRoot mode neg 2 y m := by
  obtain ⟨hlow, hhigh, hrne, hrna, hdown, hup⟩ := hnear
  simp only [pow_one] at hlow hhigh hrne hrna hdown hup
  have hsucc := h.int (a := m + 1) (by omega)
  have hself := h.int (a := m) (by omega)
  have hplus := h.half (a := 2 * m + 1) (by omega)
  push_cast at hsucc hplus
  have hpred : m ≠ 0 → ((m : Rat) - 1 < v ↔ ((m : Rat) - 1) ^ 2 < y) := fun h0 => by
    have := (h.int (a := m - 1) (by omega)).1
    rwa [Nat.cast_sub (by omega), Nat.cast_one] at this
  have hminus : m ≠ 0 → (2 * (m : Rat) - 1 < 2 * v ↔ (2 * (m : Rat) - 1) ^ 2 < 2 ^ 2 * y) ∧
      (2 * v < 2 * (m : Rat) - 1 ↔ 2 ^ 2 * y < (2 * (m : Rat) - 1) ^ 2) := fun h0 => by
    have := h.half (a := 2 * m - 1) (by omega)
    rwa [Nat.cast_sub (by omega), Nat.cast_mul, Nat.cast_ofNat, Nat.cast_one] at this
  have hminusLe (hle : m = 0 ∨ 2 * (m : Rat) - 1 ≤ 2 * v) : m = 0 ∨ (2 * (m : Rat) - 1) ^ 2 ≤ 2 ^ 2 * y := by
    rcases eq_or_ne m 0 with h0 | h0
    · exact .inl h0
    · exact .inr (not_lt.1 (mt (hminus h0).2.2 (not_lt.2 (hle.resolve_left h0))))
  refine ⟨?_, hsucc.2.1 hhigh, fun hmode => ?_, fun hmode => ?_, fun hmode => ?_, fun hmode => ?_⟩
  · rcases eq_or_ne m 0 with h0 | h0
    · exact .inl h0
    · exact .inr ((hpred h0).1 (hlow.resolve_left h0))
  · obtain ⟨h1, h2, htie⟩ := hrne hmode
    refine ⟨hminusLe h1, not_lt.1 (mt hplus.1.2 (not_lt.2 h2)), fun ht => htie (ht.imp (fun hlow => ⟨hlow.1, ?_⟩) fun heq => ?_)⟩
    · obtain ⟨h0, heq⟩ := hlow
      exact le_antisymm (not_lt.1 (mt (hminus h0).2.1 heq.not_gt)) (not_lt.1 (mt (hminus h0).1.1 heq.not_lt))
    · exact le_antisymm (not_lt.1 (mt hplus.1.1 heq.not_gt)) (not_lt.1 (mt hplus.2.1 heq.not_lt))
  · obtain ⟨h1, h2⟩ := hrna hmode
    exact ⟨hminusLe h1, hplus.2.1 h2⟩
  · exact not_lt.1 (mt hself.2.2 (not_lt.2 (hdown hmode)))
  · exact not_lt.1 (mt hself.1.2 (not_lt.2 (hup hmode)))

/-- What is rounded from v is the root of y rounded. -/
theorem SameRoot.roundedRoot_two (hf : FloatEntry f) {neg : Bool} {r : FRes} (hr : roundedRoot f mode neg 1 v r) :
    roundedRoot f mode neg 2 y r := by
  obtain ⟨k, m, hlow, hhigh, hnear, hland⟩ := roundedRoot_iff.1 hr
  simp only [pow_one] at hlow hhigh hnear
  have hfrac := hf.frac_le
  have hm : m ≤ 2 ^ 53 :=
    (nearInt_le hnear (units_lt hhigh)).trans (Nat.pow_le_pow_right (by omega) (by omega))
  refine roundedRoot_iff.2 ⟨k, m, (h.two_zpow_le k).1 hlow, (h.lt_two_zpow (k + 1)).1 hhigh,
    (h.scale _).nearRoot_two hm hnear, ?_⟩
  simp only [landed, pow_one, h.eq_iff (show m ≤ 2 ^ 60 by omega), h.lt_two_zpow, ne_eq] at hland ⊢
  exact hland

end sameRoot

/-! ## The root with its sticky bit -/

/-- The root of num in integers, with half added when it is not exact, compares as the root does with natural numbers, and with
what lies below it. -/
theorem sticky_compare {num : Nat} {t : Rat} (ht : (∃ n : Nat, t = n) ∨ (0 ≤ t ∧ t < Nat.sqrt num)) :
    let r : Rat := Nat.sqrt num + (if Nat.sqrt num * Nat.sqrt num = num then 0 else 1 : Nat) / 2
    (t < r ↔ t ^ 2 < num) ∧ (r < t ↔ num < t ^ 2) := by
  have hle : ((Nat.sqrt num * Nat.sqrt num : Nat) : Rat) ≤ num := by exact_mod_cast Nat.sqrt_le num
  rw [Nat.cast_mul] at hle
  have hself (n : Nat) : n ≤ Nat.sqrt num ↔ n * n ≤ num := Nat.le_sqrt
  intro r
  rcases ht with ⟨n, rfl⟩ | ⟨ht0, ht⟩
  · rw [pow_two, ← Nat.cast_mul, Nat.cast_lt, Nat.cast_lt]
    by_cases hsq : Nat.sqrt num * Nat.sqrt num = num
    · have hr : r = Nat.sqrt num := by simp [r, hsq]
      rw [hr, Nat.cast_lt, Nat.cast_lt]
      refine ⟨?_, Nat.sqrt_lt⟩
      conv_rhs => rw [← hsq]
      exact Nat.mul_self_lt_mul_self_iff.symm
    · have hr : r = Nat.sqrt num + 1 / 2 := by simp [r, hsq]
      have hn : n * n ≠ num := by
        rintro rfl
        exact hsq (by rw [Nat.sqrt_eq])
      have h1 : (n : Rat) < r ↔ n ≤ Nat.sqrt num := by
        rw [hr]
        constructor
        · intro hlt
          have : (n : Rat) < (Nat.sqrt num + 1 : Nat) := by push_cast; linarith
          exact Nat.lt_succ_iff.1 (by exact_mod_cast this)
        · intro hlt
          have : (n : Rat) ≤ Nat.sqrt num := by exact_mod_cast hlt
          linarith
      have h2 : r < n ↔ Nat.sqrt num < n := by
        rw [hr]
        constructor
        · intro hlt
          have : ((Nat.sqrt num : Nat) : Rat) < n := by linarith
          exact_mod_cast this
        · intro hlt
          have : ((Nat.sqrt num + 1 : Nat) : Rat) ≤ n := by exact_mod_cast hlt
          push_cast at this
          linarith
      rw [h1, h2, hself]
      exact ⟨⟨fun hlt => lt_of_le_of_ne hlt hn, le_of_lt⟩, Nat.sqrt_lt⟩
  · have hr : (Nat.sqrt num : Rat) ≤ r := by
      simp only [r]
      split <;> simp
    have hlt : t ^ 2 < num := by nlinarith
    exact ⟨⟨fun _ => hlt, fun _ => ht.trans_le hr⟩, ⟨fun hc => by linarith, fun hc => by linarith⟩⟩

/-- The parity that `sqrtOut` moves into the radicand, and the exponent of its result. -/
def oddBit (e : Int) : Nat := if e % 2 = 0 then 0 else 1
/-- The bits below the point that `sqrtOut` forms. -/
def guardBits : Nat := 600
def rootExp (e : Int) : Int := (e - oddBit e) / 2 - guardBits
def rootScale : Nat := 2 ^ 1200
def radicand (p q : Nat) (e : Int) : Nat := p * q * 2 ^ oddBit e * rootScale

theorem rootScale_eq : rootScale = 2 ^ guardBits * 2 ^ guardBits := by
  rw [← Nat.pow_add]
  unfold rootScale
  congr 1

theorem two_mul_rootExp (e : Int) : 2 * rootExp e = e - oddBit e - 2 * guardBits := by
  unfold rootExp oddBit
  split <;> push_cast <;> omega

/-- The fraction that `sqrtOut` gives. -/
def rootNum (p q : Nat) (e : Int) : Nat :=
  2 * Nat.sqrt (radicand p q e) +
    if Nat.sqrt (radicand p q e) * Nat.sqrt (radicand p q e) = radicand p q e then 0 else 1

/-- A root in integers with its sticky bit, over any radicand. -/
def stickyRoot (num q : Nat) (x : Int) : Out :=
  .rat false (2 * isqrt num + if isqrt num * isqrt num = num then 0 else 1) (2 * q) x

theorem sqrtOut_eq_stickyRoot (p q : Nat) (e : Int) : sqrtOut p q e = stickyRoot (radicand p q e) q (rootExp e) := by
  have hrad : p * q * 2 ^ (if e % 2 = 0 then 0 else 1) * 2 ^ 1200 = radicand p q e := rfl
  simp only [sqrtOut, hrad]
  generalize radicand p q e = num
  rfl

theorem sqrtOut_eq (p q : Nat) (e : Int) : sqrtOut p q e = .rat false (rootNum p q e) (2 * q) (rootExp e) := by
  rw [sqrtOut_eq_stickyRoot, rootNum]
  generalize radicand p q e = num
  rw [stickyRoot, isqrt_eq]

theorem radicand_value {q : Nat} (p : Nat) (hq : 0 < q) (e : Int) :
    mag p q e = radicand p q e * (2 ^ rootExp e / q) ^ 2 := by
  have hq' : (q : Rat) ≠ 0 := by positivity
  have hpow : (2 : Rat) ^ e = (2 ^ oddBit e * (2 ^ guardBits * 2 ^ guardBits)) * ((2 : Rat) ^ rootExp e) ^ 2 := by
    rw [← zpow_natCast, ← zpow_natCast (2 : Rat) guardBits, ← two_zpow_add, ← two_zpow_add, ← zpow_natCast ((2 : Rat) ^ rootExp e), ← zpow_mul,
      ← two_zpow_add]
    congr 1
    have := two_mul_rootExp e
    push_cast
    omega
  rw [mag, radicand, rootScale_eq, hpow]
  push_cast
  field_simp

theorem le_sqrt_radicand {p q : Nat} (hp : 0 < p) (hq : 0 < q) (e : Int) : 2 ^ guardBits ≤ Nat.sqrt (radicand p q e) := by
  rw [Nat.le_sqrt, ← rootScale_eq]
  exact Nat.le_mul_of_pos_left _ (Nat.mul_pos (Nat.mul_pos hp hq) (Nat.two_pow_pos _))

theorem rootNum_pos {p q : Nat} (hp : 0 < p) (hq : 0 < q) (e : Int) : 0 < rootNum p q e := by
  have := (Nat.two_pow_pos guardBits).trans_le (le_sqrt_radicand hp hq e)
  unfold rootNum
  omega

theorem rootNum_value {q : Nat} (p : Nat) (hq : 0 < q) (e : Int) : mag (rootNum p q e) (2 * q) (rootExp e) =
    (Nat.sqrt (radicand p q e) +
      (if Nat.sqrt (radicand p q e) * Nat.sqrt (radicand p q e) = radicand p q e then 0 else 1 : Nat) / 2) *
        (2 ^ rootExp e / q) := by
  have hq' : (q : Rat) ≠ 0 := by positivity
  unfold mag rootNum
  generalize radicand p q e = num
  generalize (2 : Rat) ^ rootExp e = u
  push_cast
  field_simp

/-- A number of few bits in units of 2^g / q is an integer, or lies below every root that `sqrtOut` forms. -/
theorem grid_or_small {a q r : Nat} {x g : Int} (ha : a ≤ 2 ^ 60) (hq : q ≤ 2 ^ 64) (hr : 2 ^ guardBits ≤ r) :
    (∃ n : Nat, (a : Rat) * q * 2 ^ (x - g) = n) ∨ (0 ≤ (a : Rat) * q * 2 ^ (x - g) ∧ (a : Rat) * q * 2 ^ (x - g) < r) := by
  rcases le_or_gt g x with hx | hx
  · refine .inl ⟨a * q * 2 ^ (x - g).toNat, ?_⟩
    rw [two_zpow_toNat (by omega)]
    push_cast
    rfl
  · have hunit := two_zpow_pos (x - g)
    have hone : (2 : Rat) ^ (x - g) ≤ 1 := by simpa using two_zpow_le.2 (show x - g ≤ 0 by omega)
    have hlt : a * q < r := by
      calc a * q ≤ 2 ^ 60 * 2 ^ 64 := Nat.mul_le_mul ha hq
        _ = 2 ^ 124 := by norm_num
        _ < 2 ^ guardBits := Nat.pow_lt_pow_right (by omega) (by decide)
        _ ≤ r := hr
    refine .inr ⟨by positivity, ?_⟩
    calc (a : Rat) * q * 2 ^ (x - g) ≤ a * q * 1 := mul_le_mul_of_nonneg_left hone (by positivity)
      _ = ((a * q : Nat) : Rat) := by push_cast; ring
      _ < r := by exact_mod_cast hlt

/-- The fraction of `sqrtOut` and the number whose root it stands for. -/
theorem sqrtOut_sameRoot {p q : Nat} (hp : 0 < p) (hq : 0 < q) (hq' : q ≤ 2 ^ 64) (e : Int) :
    SameRoot (mag (rootNum p q e) (2 * q) (rootExp e)) (mag p q e) := by
  intro a x ha
  have hqr : (0 : Rat) < q := by exact_mod_cast hq
  have hunit : (0 : Rat) < 2 ^ rootExp e / q := div_pos (two_zpow_pos _) hqr
  have hc : (a : Rat) * 2 ^ x = (a : Rat) * q * 2 ^ (x - rootExp e) * (2 ^ rootExp e / q) := by
    rw [two_zpow_sub]
    have := (two_zpow_pos (rootExp e)).ne'
    field_simp
  obtain ⟨hlt, hgt⟩ := sticky_compare (grid_or_small (x := x) (g := rootExp e) ha hq' (le_sqrt_radicand hp hq e))
  rw [radicand_value p hq, rootNum_value p hq, hc, mul_pow, mul_lt_mul_iff_left₀ hunit, mul_lt_mul_iff_left₀ hunit,
    mul_lt_mul_iff_left₀ (by positivity), mul_lt_mul_iff_left₀ (by positivity)]
  exact ⟨hlt, hgt⟩

/-! ## `fsqrt`, `frcp` and `frsq` (R206) -/

theorem nearZero_test (hf : FloatEntry f) {p q : Nat} (hq : 0 < q) (e : Int) :
    (maxFin f).1 * (ratShift p q (e - (maxFin f).2)).2 < (ratShift p q (e - (maxFin f).2)).1 ↔ largest f < mag p q e := by
  have hden : (0 : Rat) < (ratShift p q (e - (maxFin f).2)).2 := by exact_mod_cast ratShift_den_pos p hq (e - (maxFin f).2)
  have hval := ratShift_num_value p hq (e - (maxFin f).2)
  have hmag : mag p q e = mag p q (e - (maxFin f).2) * 2 ^ (maxFin f).2 := by
    rw [mag, mag, mul_assoc, ← two_zpow_add, sub_add_cancel]
  rw [← maxFin_value hf, hmag, mul_lt_mul_iff_left₀ (two_zpow_pos _), ← mul_lt_mul_iff_left₀ hden, ← hval]
  exact_mod_cast Iff.rfl

/-- What `nearZero` makes of a magnitude: beyond the largest it overflows under the mode, else it is rounded toward zero. -/
theorem nearZero_rat (hf : FloatEntry f) {p q : Nat} (hp : 0 < p) (hq : 0 < q) (s : Bool) (e : Int) :
    if largest f < mag p q e then
      overflowed f mode s (nearZero f mode (.rat s p q e)) ∧ (nearZero f mode (.rat s p q e)).flags = 20
    else roundedRoot f 1 s 1 (mag p q e) (nearZero f mode (.rat s p q e)) := by
  simp only [← nearZero_test hf hq e, nearZero]
  split
  · exact ⟨overflowed_overflowResult hf s mode _, rfl⟩
  · exact finishOut_rat hf (by decide) hp hq [] s e

theorem frcp_rounded (hf : FloatEntry f) {p : Nat} {x : Rat} (hx : Val.real (exact f p) = some x) (hx0 : x ≠ 0) :
    towardZero f mode (decide (x < 0)) 1 (1 / magnitude x) (frcpBits f mode p) := by
  obtain ⟨s, m, e, hnum, hm, -, hs, hmag⟩ := num_of_real hx hx0
  have hinv : 1 / ((m : Rat) * 2 ^ e) = mag 1 m (-e) := by
    rw [mag, zpow_neg, one_div, mul_inv, Nat.cast_one, one_div]
  have h := nearZero_rat (mode := mode) hf one_pos (Nat.pos_of_ne_zero hm) s (-e)
  rw [hs, hmag, hinv]
  simpa only [frcpBits, hnum, towardZero, pow_one] using h

/-- Numbers of an entry are few enough bits to divide a root by. -/
theorem exact_num_le (hf : FloatEntry f) {x m : Nat} {s : Bool} {e : Int} (h : exact f x = .num s m e) : m ≤ 2 ^ 64 := by
  have hfrac := hf.frac_le
  exact (exact_num_cases hf h).2.1.le.trans (Nat.pow_le_pow_right (by omega) (by omega))

/-- A positive number of an entry. -/
theorem positive_num {v : Val} {x : Rat} (hx : Val.real v = some x) (hx0 : 0 < x) :
    ∃ m e, v = .num false m e ∧ 0 < m ∧ x = m * 2 ^ e := by
  obtain ⟨s, m, e, hnum, hm, -, hs, hmag⟩ := num_of_real hx hx0.ne'
  rw [decide_eq_false hx0.not_gt] at hs
  rw [magnitude, if_neg hx0.not_gt] at hmag
  exact ⟨m, e, by rw [hnum, hs], Nat.pos_of_ne_zero hm, hmag⟩

theorem fsqrt_rounded (hf : FloatEntry f) (hmode : mode ≤ 4) {p : Nat} {x : Rat} (hx : Val.real (exact f p) = some x)
    (hx0 : 0 < x) : roundedRoot f mode false 2 x (fsqrtBits f mode p) := by
  obtain ⟨m, e, hnum, hm, rfl⟩ := positive_num hx hx0
  have hres : fsqrtBits f mode p = finishOut f mode [exact f p] (sqrtOut m 1 e) := by
    rw [fsqrtBits, unaryF_of_not_nan _ (isNan_of_real hx), hnum]
    rfl
  rw [hres, sqrtOut_eq, ← mag_one]
  exact (sqrtOut_sameRoot hm one_pos (by norm_num) e).roundedRoot_two hf
    (finishOut_rat hf hmode (rootNum_pos hm one_pos e) (by norm_num) _ _ _)

theorem frsq_rounded (hf : FloatEntry f) {p : Nat} {x : Rat} (hx : Val.real (exact f p) = some x) (hx0 : 0 < x) :
    towardZero f mode false 2 (1 / x) (frsqBits f mode p) := by
  obtain ⟨m, e, hnum, hm, rfl⟩ := positive_num hx hx0
  have hinv : 1 / ((m : Rat) * 2 ^ e) = mag 1 m (-e) := by
    rw [mag, zpow_neg, one_div, mul_inv, Nat.cast_one, one_div]
  have hsame := sqrtOut_sameRoot one_pos hm (exact_num_le hf hnum) (-e)
  have h := nearZero_rat (mode := mode) hf (rootNum_pos one_pos hm (-e)) (Nat.mul_pos two_pos hm) false (rootExp (-e))
  have hlargest : largest f < mag (rootNum 1 m (-e)) (2 * m) (rootExp (-e)) ↔ largest f ^ 2 < mag 1 m (-e) := by
    have hmax : (maxFin f).1 ≤ 2 ^ 60 := by
      have hle := Nat.pow_le_pow_right (n := 2) (by omega) (show f.f + 1 ≤ 53 by have := hf.frac_le; omega)
      rw [(maxFin_cases hf).2.2]
      split <;> omega
    rw [← maxFin_value hf]
    exact (hsame _ _ hmax).1
  have hres : frsqBits f mode p = nearZero f mode (sqrtOut 1 m (-e)) := by simp [frsqBits, hnum]
  rw [hinv, hres, sqrtOut_eq, towardZero]
  simp only [hlargest] at h
  split
  case isTrue hover => rwa [if_pos hover] at h
  case isFalse hover =>
    rw [if_neg hover] at h
    exact hsame.roundedRoot_two hf h

theorem roots_right (hf : FloatEntry f) (hmode : mode ≤ 4) (p : Nat) : rootsRight f mode p := by
  refine ⟨fun s h => ?_, fun s h => ?_, fun x hx => ⟨frcp_rounded hf hx, fun hneg => ?_, fun hpos =>
    ⟨frsq_rounded hf hx hpos, fsqrt_rounded hf hmode hx hpos⟩⟩⟩
  · simp only [frcpBits, frsqBits, fsqrtBits, unaryF, h]
    exact ⟨finishOut_divZero hf _ _ _, finishOut_divZero hf _ _ _, finishOut_zero hf _ _ _⟩
  · simp only [frcpBits, frsqBits, fsqrtBits, unaryF, h]
    refine ⟨finishOut_zero hf _ _ _, ?_⟩
    cases s
    · exact ⟨finishOut_zero hf _ _ _, finishOut_inf hf _ _ _⟩
    · exact ⟨finishOut_invalid hf mode (by simp), finishOut_invalid hf mode (by simp [Val.isNan])⟩
  · obtain ⟨s, m, e, hnum, -, -, hs, -⟩ := num_of_real hx hneg.ne
    rw [decide_eq_true hneg] at hs
    subst hs
    simp only [frsqBits, fsqrtBits, unaryF, hnum]
    exact ⟨finishOut_invalid hf mode (by simp), finishOut_invalid hf mode (by simp [Val.isNan])⟩

end Sys2Proof.Proofs.Numbers
end

section
/-! Lemmas of `ExactAndRounded`: the exact values of the transcendentals (R213), and the statement. -/
namespace Sys2Proof.Proofs.Numbers
open Sys2Proof Sys2Proof.Machine Sys2Proof.Spec

variable {f : Fmt} {mode : Nat}

/-! ## Integers and halves as fractions -/

theorem ratShift_integer {m N : Nat} {e : Int} (h : (m : Rat) * 2 ^ e = N) :
    (ratShift m 1 e).1 / (ratShift m 1 e).2 = N ∧ (ratShift m 1 e).1 % (ratShift m 1 e).2 = 0 := by
  have hden := ratShift_den_pos m one_pos e
  have hval := ratShift_num_value m one_pos e
  rw [mag_one, h] at hval
  have hnum : (ratShift m 1 e).1 = N * (ratShift m 1 e).2 := by exact_mod_cast hval
  rw [hnum]
  exact ⟨Nat.mul_div_cancel _ hden, Nat.mul_mod_left _ _⟩

theorem ratShift_half {m N : Nat} {e : Int} (h : 2 * ((m : Rat) * 2 ^ e) = 2 * N + 1) :
    (ratShift m 1 e).1 / (ratShift m 1 e).2 = N ∧ 2 * ((ratShift m 1 e).1 % (ratShift m 1 e).2) = (ratShift m 1 e).2 := by
  have hden := ratShift_den_pos m one_pos e
  have hval := ratShift_num_value m one_pos e
  rw [mag_one] at hval
  generalize (ratShift m 1 e).1 = a at *
  generalize (ratShift m 1 e).2 = b at *
  have hnum : 2 * a = b * (2 * N) + b := by
    have : 2 * (a : Rat) = b * (2 * N) + b := by
      rw [hval]
      linear_combination (b : Rat) * h
    exact_mod_cast this
  have hmod : 2 * a % (2 * b) = b := by
    rw [hnum, show b * (2 * N) = 2 * b * N by ring, Nat.mul_add_mod, Nat.mod_eq_of_lt (by omega)]
  have hmod' : 2 * (a % b) = b := by rw [← Nat.mul_mod_mul_left, hmod]
  refine ⟨?_, hmod'⟩
  have hdiv := Nat.div_add_mod a b
  have : b * (a / b) = b * N := by nlinarith
  exact Nat.eq_of_mul_eq_mul_left hden this

/-- A number equal to an integer, by its parts. -/
theorem integer_parts {s : Bool} {m : Nat} {e n : Int} {x : Rat} (hs : decide (x < 0) = s) (hmag : magnitude x = m * 2 ^ e)
    (hn : x = n) : (m : Rat) * 2 ^ e = n.natAbs ∧ s = decide (n < 0) := by
  subst hn
  have hneg : ((n : Rat) < 0) ↔ n < 0 := by exact_mod_cast Iff.rfl
  refine ⟨?_, by rw [← hs]; simp only [hneg]⟩
  rw [← hmag, Nat.cast_natAbs, magnitude]
  by_cases h : n < 0
  · simp [h, abs_of_neg h]
  · simp [h, abs_of_nonneg (not_lt.1 h)]

/-- A number equal to an integer and a half, by its parts: below 0 the magnitude counts from the other side. -/
theorem half_parts {s : Bool} {m : Nat} {e n : Int} {x : Rat} (hs : decide (x < 0) = s) (hmag : magnitude x = m * 2 ^ e)
    (hn : 2 * x = 2 * n + 1) : s = decide (n < 0) ∧
      2 * ((m : Rat) * 2 ^ e) = 2 * ((if n < 0 then -n - 1 else n).toNat : Nat) + 1 := by
  have hneg : x < 0 ↔ n < 0 := by
    have hx : x = n + 1 / 2 := by linarith
    constructor
    · intro h
      by_contra hc
      have : (0 : Rat) ≤ n := by exact_mod_cast not_lt.1 hc
      linarith
    · intro h
      have : (n : Rat) ≤ -1 := by exact_mod_cast (by omega : n ≤ -1)
      linarith
  refine ⟨by rw [← hs]; simp only [hneg], ?_⟩
  rw [← hmag, magnitude]
  by_cases h : n < 0
  · have hN : (((-n - 1).toNat : Nat) : Rat) = -n - 1 := by
      have : ((-n - 1).toNat : Int) = -n - 1 := Int.toNat_of_nonneg (by omega)
      exact_mod_cast congrArg (Int.cast (R := Rat)) this
    rw [if_pos (hneg.2 h), if_pos h, hN]
    linarith
  · have hN : ((n.toNat : Nat) : Rat) = n := by
      have : (n.toNat : Int) = n := Int.toNat_of_nonneg (by omega)
      exact_mod_cast congrArg (Int.cast (R := Rat)) this
    rw [if_neg (mt hneg.1 h), if_neg h, hN]
    linarith

/-! ## The functions at those points (R213) -/

theorem finishOut_one (hf : FloatEntry f) (hmode : mode ≤ 4) (ops : List Val) (s : Bool) :
    roundedTo f mode (signedAs s 1) (finishOut f mode ops (.rat s 1 1 0)) :=
  finishOut_real hf hmode ops (by cases s <;> simp [Out.real, signedAs]) (by cases s <;> simp [signedAs])

theorem exp2Out_large {s : Bool} {m : Nat} {e : Int} (h : 20 < (m.log2 : Int) + e) :
    exp2Out s m e = .rat false 3 1 ((if s then -(2 ^ 20) else 2 ^ 20) - 1) := by
  rw [exp2Out, if_pos h]
  rfl

theorem exp2Out_integer {s : Bool} {m N : Nat} {e : Int} (h : (m : Rat) * 2 ^ e = N) (hbig : ¬20 < (m.log2 : Int) + e)
    (hsmall : ¬(m.log2 : Int) + e < -400) : exp2Out s m e = .rat false 1 1 (if s then -(N : Int) else N) := by
  obtain ⟨hquot, hrem⟩ := ratShift_integer h
  simp only [exp2Out, if_neg hbig, if_neg hsmall, hquot, hrem, if_true]

/-- 2 to an integer as `fexp2` finishes it: far beyond every entry's range the exponent does not matter. -/
theorem exp2_integer (hf : FloatEntry f) (hmode : mode ≤ 4) (ops : List Val) {s : Bool} {m : Nat} {e n : Int} (hm : m ≠ 0)
    (hN : (m : Rat) * 2 ^ e = n.natAbs) (hs : s = decide (n < 0)) :
    finishOut f mode ops (exp2Out s m e) = finishOut f mode ops (.rat false 1 1 n) := by
  obtain ⟨hlow, hhigh⟩ := mag_bracket hm e
  by_cases hbig : 20 < (m.log2 : Int) + e
  · have hN' : 2 ^ 21 ≤ n.natAbs := by
      have : (2 : Rat) ^ (21 : Int) ≤ n.natAbs := hN ▸ (two_zpow_le.2 (by omega)).trans hlow
      exact_mod_cast this
    have hlog3 : ratLog2 3 1 = 1 := by decide
    have hlog1 : ratLog2 1 1 = 0 := by decide
    rw [exp2Out_large hbig]
    simp only [finishOut]
    by_cases hn : n < 0
    · rw [hs, decide_eq_true hn, if_pos rfl, rndRat_tiny hf hmode (by decide) one_pos false (by omega),
        rndRat_tiny hf hmode one_pos one_pos false (by omega)]
    · rw [hs, decide_eq_false hn, if_neg (by decide), rndRat_huge hf hmode (by decide) one_pos false (by omega),
        rndRat_huge hf hmode one_pos one_pos false (by omega)]
  · have hsmall : ¬(m.log2 : Int) + e < -400 := by
      intro h
      have hpos : (0 : Rat) < n.natAbs := hN ▸ mul_pos (by exact_mod_cast Nat.pos_of_ne_zero hm) (two_zpow_pos e)
      have hone : (1 : Rat) ≤ n.natAbs := by exact_mod_cast hpos
      have hle : (2 : Rat) ^ ((m.log2 : Int) + e + 1) ≤ 2 ^ (0 : Int) := two_zpow_le.2 (by omega)
      rw [zpow_zero] at hle
      linarith
    rw [exp2Out_integer hN hbig hsmall]
    congr 2
    subst hs
    by_cases h : n < 0
    · simp [h, abs_of_neg h]
    · simp [h, abs_of_nonneg (not_lt.1 h)]

theorem sinPi_integer {s : Bool} {m N : Nat} {e : Int} (h : (m : Rat) * 2 ^ e = N) : sinPiOut s m e = .zero s := by
  obtain ⟨-, hrem⟩ := ratShift_integer h
  simp [sinPiOut, hrem]

theorem cosPi_integer {m N : Nat} {e : Int} (h : (m : Rat) * 2 ^ e = N) : cosPiOut m e = .rat (N % 2 == 1) 1 1 0 := by
  obtain ⟨hquot, hrem⟩ := ratShift_integer h
  simp [cosPiOut, hrem, hquot]

theorem sinPi_half {s : Bool} {m N : Nat} {e : Int} (h : 2 * ((m : Rat) * 2 ^ e) = 2 * N + 1) :
    sinPiOut s m e = .rat (s != (N % 2 == 1)) 1 1 0 := by
  obtain ⟨hquot, hrem⟩ := ratShift_half h
  have hden := ratShift_den_pos m one_pos e
  unfold sinPiOut sinPiFix
  simp only [hquot]
  rw [if_neg (by omega), if_pos hrem.le, if_pos hrem]

theorem cosPi_half {m N : Nat} {e : Int} (h : 2 * ((m : Rat) * 2 ^ e) = 2 * N + 1) : cosPiOut m e = .zero false := by
  obtain ⟨-, hrem⟩ := ratShift_half h
  have hden := ratShift_den_pos m one_pos e
  unfold cosPiOut
  dsimp only
  rw [if_neg (by omega), if_pos hrem]

theorem log2_power {m : Nat} {e n : Int} (hm : m ≠ 0) (h : (m : Rat) * 2 ^ e = 2 ^ n) : log2Out m e = outOfInt n 0 false := by
  obtain ⟨hlow, hhigh⟩ := mag_bracket hm e
  rw [h] at hlow hhigh
  have hn : (m.log2 : Int) + e = n := bracket_unique hlow hhigh le_rfl (two_zpow_lt.2 (by omega))
  have hpow : m = 2 ^ m.log2 := by
    have : (m : Rat) = (2 ^ m.log2 : Nat) := by
      rw [Nat.cast_pow, ← zpow_natCast, Nat.cast_ofNat]
      exact mul_right_cancel₀ (two_zpow_pos e).ne' (by rw [h, ← two_zpow_add, hn])
    exact_mod_cast this
  simp only [log2Out, if_pos hpow, hn]

/-- The sign of the halves: the parity of the magnitude's whole part, turned where the number is below 0. -/
theorem half_sign (n : Int) :
    (decide (n < 0) != ((if n < 0 then -n - 1 else n).toNat % 2 == 1)) = decide (n % 2 = 1) := by
  by_cases h : n < 0 <;> by_cases h2 : n % 2 = 1 <;> simp [h, h2] <;> omega

theorem integer_sign (n : Int) : (n.natAbs % 2 == 1) = decide (n % 2 = 1) := by
  by_cases h2 : n % 2 = 1 <;> simp [h2] <;> omega

/-- A number's transcendentals where they are pinned. -/
theorem elementary_number (hf : FloatEntry f) (hmode : mode ≤ 4) {p : Nat} {x : Rat} (hx : Val.real (exact f p) = some x)
    (hx0 : x ≠ 0) : (x < 0 → defaulted f 1 (flog2Bits f mode p)) ∧
      ∀ n : Int, (x = n → roundedTo f mode ((2 : Rat) ^ n) (fexp2Bits f mode p) ∧
          zeroResult f (decide (x < 0)) (fsinpBits f mode p) ∧ roundedTo f mode (signedAs (decide (n % 2 = 1)) 1) (fcospBits f mode p)) ∧
        (2 * x = 2 * n + 1 → roundedTo f mode (signedAs (decide (n % 2 = 1)) 1) (fsinpBits f mode p) ∧
          zeroResult f false (fcospBits f mode p)) ∧
        (x = (2 : Rat) ^ n → if n = 0 then zeroResult f false (flog2Bits f mode p) else roundedTo f mode n (flog2Bits f mode p)) := by
  obtain ⟨s, m, e, hnum, hm, -, hs, hmag⟩ := num_of_real hx hx0
  have hun (op : Val → Out) : unaryF f mode op p = finishOut f mode [exact f p] (op (.num s m e)) := by
    rw [unaryF_of_not_nan _ (isNan_of_real hx), hnum]
  refine ⟨fun hneg => ?_, fun n => ⟨fun hn => ?_, fun hn => ?_, fun hn => ?_⟩⟩
  · rw [decide_eq_true hneg] at hs
    subst hs
    rw [flog2Bits, hun]
    exact finishOut_invalid hf mode (by simp [hnum, Val.isNan])
  · obtain ⟨hN, hsn⟩ := integer_parts hs hmag hn
    simp only [fexp2Bits, fsinpBits, fcospBits, hun, sinPi_integer hN, cosPi_integer hN,
      exp2_integer hf hmode [exact f p] hm hN hsn, integer_sign]
    refine ⟨finishOut_real hf hmode _ (by simp [Out.real]) (two_zpow_pos n).ne', ?_, finishOut_one hf hmode _ _⟩
    rw [hs]
    exact finishOut_zero hf _ _ _
  · obtain ⟨hsn, hN⟩ := half_parts hs hmag hn
    simp only [fsinpBits, fcospBits, hun, sinPi_half hN, cosPi_half hN, hsn, half_sign]
    exact ⟨finishOut_one hf hmode _ _, finishOut_zero hf _ _ _⟩
  · have hpos : 0 < x := hn ▸ two_zpow_pos n
    rw [decide_eq_false hpos.not_gt] at hs
    rw [magnitude, if_neg hpos.not_gt, hn] at hmag
    subst hs
    rw [flog2Bits, hun]
    simp only [Bool.false_eq_true, if_false, log2_power hm hmag.symm]
    split
    case isTrue h =>
      rw [outOfInt, if_pos h]
      exact finishOut_zero hf _ _ _
    case isFalse h =>
      exact finishOut_real hf hmode _ (by rw [outOfInt_real, zpow_zero, mul_one]) (by exact_mod_cast h)

theorem elementary_right (hf : FloatEntry f) (hmode : mode ≤ 4) (p : Nat) : elementaryRight f mode p := by
  refine ⟨fun s h => ?_, fun s h => ?_, fun x hx hx0 => elementary_number hf hmode hx hx0⟩
  · simp only [fexp2Bits, flog2Bits, fsinpBits, fcospBits, ftanhBits, unaryF, h]
    exact ⟨finishOut_one hf hmode _ false, finishOut_divZero hf _ _ _, finishOut_zero hf _ _ _, finishOut_one hf hmode _ false,
      finishOut_zero hf _ _ _⟩
  · simp only [fexp2Bits, flog2Bits, fsinpBits, fcospBits, ftanhBits, unaryF, h]
    have hinv := finishOut_invalid hf mode (ops := [.inf s]) (by simp [Val.isNan])
    refine ⟨?_, hinv, hinv, finishOut_one hf hmode _ s⟩
    cases s
    · exact ⟨finishOut_inf hf _ _ _, finishOut_inf hf _ _ _⟩
    · exact ⟨finishOut_zero hf _ _ _, hinv⟩

/-- Settles O19: every result is `rnd` of an exact value, whose rounding `rndRat_rounded` describes once; the roots through the
fraction that compares like them (`SameRoot`). -/
theorem exactAndRounded : Obligations.ExactAndRounded := by
  unfold Obligations.ExactAndRounded
  refine ⟨fun mode x y a b hx hy => ⟨addOut_real mode hx hy, ?_, divOut_real hx hy⟩,
    fun mode x y z a b c negP negQ hx hy hz => fusedOut_real mode negP negQ hx hy hz,
    fun num den mode sign hden hmode => roundInt_rules num den mode sign hden hmode,
    fun e mode p q c x y z hr => ?_, fun e mode p q c count hr => ?_, fun es e mode p x hes hv hp hx0 hx => ?_,
    fun es e mode p _ _ _ _ _ hp3 _ => convert_integerEnd _ _ hp3 p⟩
  · obtain ⟨v, hv, hreal⟩ := mulVal_real hx hy
    rw [hv]
    exact hreal
  · have hf := floatEntry_of_roundsIn hr
    have hmode := hr.2.2.2
    intro f hx hy hz
    obtain ⟨hadd, hsub, hmul, hdiv⟩ := arithmetic_rounded hf hmode hx hy
    exact ⟨hadd, hsub, hmul, hdiv, fun negP negQ => fused_rounded hf hmode hx hy hz negP negQ⟩
  · have hf := floatEntry_of_roundsIn hr
    have hmode := hr.2.2.2
    exact ⟨nans_pass hf p q c count, infinities_pass hf p q, roots_right hf hmode p, fun g n => picked_right hf g n p q,
      classed_right hf p, scaled_right hf hmode p count, fun elem code _ => unpacked_right hf hmode elem code,
      elementary_right hf hmode p⟩
  · exact ⟨fun hr => convert_rounded hr hx0 hx, fun _ _ hp3 hmode => convert_integer hes hv hp hp3 hmode hx0 hx⟩

end Sys2Proof.Proofs.Numbers
end

section
/-! Lemmas of `GangResults`: the lanes two masks share, units whose result moves lanes of one source (R187, R188, R190), uniform
results of the gang (R148, R149, R185, R194), and the words of `pedq` and `vbcast`. -/
namespace Sys2Proof.Proofs.GangUnits
open Sys2Proof Sys2Proof.Machine Sys2Proof.Spec Sys2Proof.Safety Sys2Proof.Laws

/-! ## Lanes of two masks (R185) -/

theorem lanesOf_and (a b : Mask) : lanesOf (a &&& b) = (List.range 128).filter fun l => inMask a l && inMask b l :=
  List.filter_congr fun l _ => inMask_and a b l

theorem countLanes_word (a b : Mask) : BitVec.ofNat 32 (countLanes (a &&& b)) =
    word ((List.range 128).filter fun l => inMask a l && inMask b l).length := by
  rw [word_nat, countLanes, lanesOf_and]

theorem lowestLane_word (a b : Mask) : BitVec.ofNat 32 (lowestLane (a &&& b)) =
    word (((List.range 128).find? fun l => inMask a l && inMask b l).getD 128 : Nat) := by
  rw [word_nat, lowestLane, lanesOf_and, List.headD_eq_head?_getD, List.head?_filter]

/-! ## Units by shape -/

/-- The strict bit of the mode word is the context's, which no unit with a register result changes (R194). -/
theorem modeWord_of_barely {s u : State} (h : barely s u) : u.modeWord = s.modeWord := by
  have hctx (n : Nat) : u.ctx n = s.ctx n := by unfold State.ctx State.ctx?; rw [bare_contexts h]
  funext g
  unfold State.modeWord
  rw [hctx]

/-- A unit that gives each lane a lane of its one source. -/
theorem crossRule_unit {d a : BitVec 7} {sw : Bool} {tag : BitVec 2} {src : Nat → Nat} {res : Gang → RegVal} {s : State}
    (hturn : ∀ b, res (turned b s.cur) = res s.cur) (hval : ∀ l, l < 128 → (res s.cur).lane l = s.cur.lane a.toNat (src l))
    (htag : (res s.cur).tag = tag) (hm : mayRun crossUnit s) (hr : (crossRule d a tag src).ready s) :
    completes (crossRule d a tag src) s (runUnit crossUnit sw s fun u => regUnit u d.toNat [a.toNat] [] res) :=
  ruleUnit (r := crossRule d a tag src) (fun _ _ => rfl) hturn hval htag hm hr

/-- Every rule is of an instruction of one word. -/
theorem gangRule_len {i : Instr} {s : State} {r : LaneRule} (h : gangRule s i = some r) : r.kind.len = 4 := by
  unfold gangRule at h
  split at h <;> cases h <;> rfl

/-- The unit of every cross-lane and gang-wide rule gives the rule's result (R148, R149, R185, R187, R188, R190, R194). -/
theorem gangRule_completes {i : Instr} {s : State} {r : LaneRule} (h : gangRule s i = some r) (hm : mayRun r.kind s)
    (hr : r.ready s) : completes r s (exec i s) := by
  unfold gangRule at h
  split at h
  case h_1 o => -- vxsh
    cases h
    exact crossRule_unit (fun _ => rfl) (fun l hl => lane_ofFn _ l hl) rfl hm hr
  case h_2 o => -- vrot
    cases h
    exact crossRule_unit (fun _ => rfl) (fun l hl => lane_ofFn _ l hl) rfl hm hr
  case h_3 o => -- vbcast
    cases h
    exact crossRule_unit (fun _ => rfl) (fun _ _ => rfl) rfl hm hr
  case h_4 o => -- mpop
    cases h
    exact ruleU_unit (fun _ _ => rfl) (fun _ => rfl) (countLanes_word _ _) hm hr
  case h_5 o => -- mfirst
    cases h
    exact ruleU_unit (fun _ _ => rfl) (fun _ => rfl) (lowestLane_word _ _) hm hr
  case h_6 o => -- pedq
    cases h
    exact ruleU_unit (m := fun g => pedQuery g.ped o.i.toNat) (fun _ _ => rfl) (fun _ => rfl) rfl hm hr
  case h_7 o => -- pedkey
    cases h
    exact ruleU_unit (m := fun g => pedKey g.ped) (fun _ _ => rfl) (fun _ => rfl) rfl hm hr
  case h_8 o => -- getmode
    cases h
    have hbody : ∀ u : State, barely s u → (regUnit u o.d.toNat [] [] fun g => .u (u.modeWord g)) =
        regUnit u o.d.toNat [] [] fun g => .u (s.modeWord g) := fun u hu => by rw [modeWord_of_barely hu]
    exact ruleU_unit (k := serialUnit) hbody (fun _ => rfl) rfl hm hr
  case h_9 => cases h

/-! ## Words (R148, R190) -/

/-- Fields side by side are a sum. -/
theorem toNat_append_add {m n : Nat} (x : BitVec m) (y : BitVec n) : (x ++ y).toNat = x.toNat * 2 ^ n + y.toNat := by
  rw [BitVec.toNat_append, ← Nat.shiftLeft_add_eq_or_of_lt y.isLt, Nat.shiftLeft_eq]

theorem encode_pedq (d : BitVec 7) (i : BitVec 5) :
    encode (.pedq ⟨false, d, i⟩) = some (0x0E000000#32 + d.setWidth 32 <<< 17 + i.setWidth 32) := by
  refine congrArg some (BitVec.eq_of_toNat_eq ?_)
  have hd := d.isLt
  have hi := i.isLt
  simp only [ofFields, bS, BitVec.toNat_setWidth, toNat_append_add, BitVec.toNat_add, BitVec.toNat_shiftLeft, Nat.shiftLeft_eq,
    BitVec.toNat_ofBool, Bool.toNat_false, BitVec.toNat_ofNat]
  omega

theorem encode_vbcast (d a lane : BitVec 7) : encode (.vbcast ⟨false, d, a, lane⟩) =
    some (0x37000000#32 + d.setWidth 32 <<< 17 + a.setWidth 32 <<< 10 + lane.setWidth 32) := by
  refine congrArg some (BitVec.eq_of_toNat_eq ?_)
  have hd := d.isLt
  have ha := a.isLt
  have hl := lane.isLt
  simp only [ofFields, bS, BitVec.toNat_setWidth, toNat_append_add, BitVec.toNat_add, BitVec.toNat_shiftLeft, Nat.shiftLeft_eq,
    BitVec.toNat_ofBool, Bool.toNat_false, BitVec.toNat_ofNat]
  omega

/-- Settles O7: the units by their rules (`gangRule_completes`), the words by the round trip of `encode`. -/
theorem gangResults : Obligations.GangResults := by
  unfold Obligations.GangResults
  refine ⟨fun i s r h hm hr => ?_, fun d i => ?_, fun d a lane => ?_⟩
  · have hu := gangRule_completes h hm hr
    rwa [completes, gangRule_len h] at hu
  · exact RoundTrip.pedq _ _ (encode_pedq d i) rfl
  · exact RoundTrip.vbcast _ _ (encode_vbcast d a lane) rfl

end Sys2Proof.Proofs.GangUnits
end
